-- ==== Sys2Proof/Word.lean ====
section
/-! DEFINITION. The register word, the pattern granule, and the unit numbers the rules use as indexes. -/

namespace Sys2Proof

/-- A register of the map: 32 bits (R8). -/
abbrev Word := BitVec 32

/-- A granule of pattern data, 64 bytes; bit 0 is the least significant bit of byte 0, so that vector v of a pin granule is
bits [4v+3:4v] (R36), UI u of a transmit granule is bit u (R40), and UI u of a compare granule is bits [2u+1:2u] (R41). -/
abbrev Granule := BitVec 512

/-- A 16-byte fail record (R144, R163). -/
abbrev Record := BitVec 128

/-- Engine E0-E575; E512 + k serves express lane Xk (R13). The lane that engine e serves carries the same number here. -/
abbrev Eng := Fin 576
/-- Global pin lane L0-L511 (R12). -/
abbrev PinLane := Fin 512
/-- Express lane X0-X63 (R13). -/
abbrev XLane := Fin 64
/-- Segment table, pantry and lockstep unit: room n is n, quad q is 32 + q (R265). -/
abbrev TableId := Fin 48
/-- A room, 0-31. -/
abbrev Room := Fin 32
/-- A quad, 0-15. -/
abbrev Quad := Fin 16
/-- A store stack, 0-3. -/
abbrev Stack := Fin 4
/-- A pseudo-channel, 0-255 (R203). -/
abbrev PChan := Fin 256
/-- A bank of a pseudo-channel, 0-47 (R203). -/
abbrev Bank := Fin 48
/-- A PLL id of R233, 0-60. -/
abbrev PllId := Fin 61
/-- A clock that a PLL gives: PLL ids 0 to 60, then the host tile's two, which no register shows: 61 PCIe, 62 host core (R239, R246). -/
abbrev ClockId := Fin 63
/-- A fabric port, 0-7 (R322). -/
abbrev FPort := Fin 8
/-- A house number, 0-1,023 (R331). -/
abbrev House := Fin 1024

/-- The two sides of the package. -/
inductive Side where
  | field | host
  deriving DecidableEq, Repr

/-- The requesters of the field register fabric (R281). Remote and JTAG requesters share the host's change window (R293). -/
inductive Requester where
  | host | firmware | remote | jtag
  deriving DecidableEq, Repr

/-- The class of a fault record (R264). -/
inductive FaultClass where
  | corrected | contained | fatal
  deriving DecidableEq, Repr

/-- What the comparators observe of a pin lane (R38, R144). -/
inductive Observed where
  | low | high | mid | mixed
  deriving DecidableEq, Repr

end Sys2Proof
end

