-- ==== Sys2Proof/Syntax.lean ====
section
/-! DEFINITION. The commands of the block: one constructor per row of spec/opcode_table.json, with the row's operands. An
operand is what the command's sender supplies (a written value, a frame's fields) or what only the world outside the model's
state decides (a measured value, a self-test's outcome, which edge arrived). -/

namespace Sys2Proof

/-- The count operand of STRM (R87, R90): an immediate, or a counter. -/
inductive StrmCount where
  | imm (g : BitVec 32)
  | ctr (x : Fin 8)
  deriving DecidableEq, Repr

/-- Why a word executes as HALT (R83). -/
inductive OpCause where
  | undefined | range | stackOvf | stackUnf | beyondLast
  deriving DecidableEq, Repr

/-- A staged 64-bit pair of the register map (R286): FREQ and OFS of a pin lane (R128), RATE and OFS of an express lane
(R165), START and PERIOD of a timer (R195). -/
inductive PairRef where
  | freq (l : PinLane) | ofs (l : PinLane) | rate (k : XLane) | xofs (k : XLane)
  | tmrStart (i : Fin 32) | tmrPeriod (i : Fin 32)
  deriving DecidableEq, Repr

/-- Where a stream granule comes from (R170). -/
inductive StreamSrc where
  | host | fabric (house : House)
  deriving DecidableEq, Repr

/-- The causes of a PLL loss that a detector finds (R239). -/
inductive LossCause where
  | unlock | refLoss | overfreq
  deriving DecidableEq, Repr

/-- What a walk reads at its start (R249, R250): REFV in uV and the span of its 16 readings, whether REFT has an edge at least every
1 us, REFT's two frequency measurements in Hz, the room converters' results (ADC gain in ppm, mean TDC bin width in 1/1,024 ps) and
the room's temperature. A quad's walk uses the converters and the sensor of room 2q. -/
structure RefReading where
  refvUv : Nat
  refvSpanUv : Nat
  reftEdge : Bool
  reftHz : Nat
  reftHz2 : Nat
  adcPpm : Int
  tdcBin : Nat
  tempC16 : Int
  deriving DecidableEq, Repr

/-- A part of a lane that calibration measures (R252): driver slices 0-16, delay lines 0-1 and comparator pairs 0-1 of a pin
lane; the two swing DACs, skew interpolators and receiver samplers of an express lane, one of each in service. -/
inductive PartKind where
  | slice (i : Fin 17) | delay (i : Fin 2) | cmp (i : Fin 2) | swing (i : Fin 2) | skew (i : Fin 2) | sampler (i : Fin 2)
  deriving DecidableEq, Repr

/-- What a path deskew measured on one lane (R260): the round-trip times of its two passes in fs, and the measured Γ in 1/1,000. -/
structure DeskewResult where
  lane : PinLane
  trip1 : Nat
  trip2 : Nat
  gamma : Int
  deriving DecidableEq, Repr

/-- One DMA descriptor as host memory holds it (R317): words 0-5; words 6 and 7 are the device's and the host's own. -/
structure DmaDesc where
  w0 : Word
  w1 : Word
  first : Word
  count : Word
  addr : BitVec 64
  deriving DecidableEq, Repr

/-- A census entry as a CENSUS packet carries it (R330). -/
structure CensusEntry where
  house : House
  uid : BitVec 64
  fpr : BitVec 64
  /-- 0 EMPTY, 1 MEMBER, 2 GUEST, 3 ABSENT. -/
  state : Fin 4
  v2 : Bool
  hops : Fin 32
  deriving DecidableEq, Repr

/-- One link of an LSA (R333): the neighbour's house and the link's delay. -/
structure LsaLink where
  house : House
  delay : Nat
  deriving DecidableEq, Repr

/-- One judged position of a pin lane or one express UI (R38, R141, R162): the position in its play and what was observed
there; for an express UI, `high` and `low` stand for a received 1 and 0. -/
structure Judged where
  pos : Nat
  obs : Observed
  deriving DecidableEq, Repr

/-- The result of one visit to a part (R252): each value of its quantity (both levels of 8 sets, 16 code points, ...) in trim steps
from its birth value (R254). -/
structure PartResult where
  values : List Int
  deriving DecidableEq, Repr

/-- One delay of the store interface and the centre a gathering pass found for it (R224). -/
structure DelayCentre where
  stack : Stack
  word : Fin 4096
  centre : Int
  deriving DecidableEq, Repr

/-- A stack whose interface clock is back, and the centres that gathering found for its delays (R224, R243). -/
structure Gathering where
  stack : Stack
  centres : List DelayCentre
  deriving DecidableEq, Repr

/-- An instant of another device's house time in 1/1,024 beat (R335), and whether that device's time is valid (R336). -/
structure HouseInstant where
  t : Int
  valid : Bool
  deriving DecidableEq, Repr

/-- What the boot stage in progress found (R360-R364): nothing to say; the image in use, whether it was the second one tried, and its
version word; both images failed, and which was tried first (a host stage); the parameter block and, where the flash holds one, the
mission log; the operating point that verified, the spared rows of the flash and the centres that gathering found for the delays of each
set; whether stage 0x09 or 0x0A ran to its bound. -/
inductive BootInfo where
  | done
  | image (image : Fin 2) (second : Bool) (ver : Word)
  | failed (first : Fin 2)
  | params (mul div refv reft : Word) (hours : Option (Word × Word × Word))
  | store (point : Fin 4) (spared : List (PChan × Bank × Fin 16384)) (centres : List (Fin 4 × DelayCentre))
  | porch (late : Bool)
  | fabric (late : Bool)
  deriving DecidableEq, Repr

/-- Why a boot stage stalls (R362). -/
inductive BootErr where
  | noImage (first : Fin 2) | noRefclk | ratio | noStore | fatal
  deriving DecidableEq, Repr

/-- Reasons a fabric port goes down (R325). -/
inductive DownReason where
  | noLane | version | silent | pll | retry | host | fatal
  deriving DecidableEq, Repr

/-- Why the porch goes down (R310). -/
inductive PorchDown where
  | sideReset | chipReset | hostFatal | retryLimit | silent | noCrossing | f4
  deriving DecidableEq, Repr

/-- Which link a retry or an acknowledgement belongs to (R307, R322). -/
inductive LinkRef where
  | porch (sender : Side) | fabric (p : FPort)
  deriving DecidableEq, Repr

/-- A porch register message (R305). -/
inductive RegSpace where
  | bar0 | store
  deriving DecidableEq, Repr

/-- What makes a BLOCK_RESET's block (R268). -/
inductive ResetBlock where
  | table (t : TableId) | stack (s : Stack) | port (p : FPort) | porchHostEnd
  deriving DecidableEq, Repr

/-- The commands. Each constructor is a row of spec/opcode_table.json; LAWS.json holds the map. -/
inductive Instr where
  -- engine control (03_engine_model.md)
  /-- R58, R59: host write of CTL.arm, with CTL.start in the same write where `start`. -/
  | arm (e : Eng) (start : Bool)
  | primeComplete (e : Eng)
  | start (e : Eng)
  | timeStart (e : Eng)
  | abort (e : Eng)
  | abortActs (e : Eng)
  | fillerEndPark (e : Eng)
  | engineReset (e : Eng)
  | imemStage (e : Eng) (idx : BitVec 12) (low : Word)
  | imemCommit (e : Eng) (idx : BitVec 12) (high : Word)
  -- engine program words (04_instruction_set.md, R87)
  | nop (e : Eng)
  | halt (e : Eng)
  | jmp (e : Eng) (addr : BitVec 12)
  | call (e : Eng) (addr : BitVec 12)
  | ret (e : Eng)
  | br (e : Eng) (mask : BitVec 8) (addr : BitVec 12)
  | djnz (e : Eng) (x : Fin 8) (addr : BitVec 12)
  | play (e : Eng) (seg : BitVec 14) (n : BitVec 16)
  | playc (e : Eng) (seg : BitVec 14) (x : Fin 8)
  | wait (e : Eng) (mask : BitVec 8) (seg : BitVec 14)
  | strm (e : Eng) (ring : Fin 256) (g : StrmCount)
  | synct (e : Eng)
  | ldt (e : Eng) (hi : Bool) (imm : Word)
  | ldtStart (e : Eng)
  | addt (e : Eng) (imm : BitVec 48)
  | ldc (e : Eng) (x : Fin 8) (imm : Word)
  | addc (e : Eng) (x : Fin 8) (imm : Word)
  | mark (e : Eng) (m : Fin 8) (offset : BitVec 40)
  | sig (e : Eng) (m : Fin 8)
  | setf (e : Eng) (idx : Fin 16) (cont : Bool)
  | ldf (e : Eng) (idx : Fin 16) (value : BitVec 48)
  | setp (e : Eng) (rel : Bool) (phase : BitVec 48)
  | tset (e : Eng) (a b : Fin 16)
  | lvl (e : Eng) (n : Fin 8)
  | cmpm (e : Eng) (mode : BitVec 4)
  | undefinedWord (e : Eng) (cause : OpCause)
  | chainOverrun (e : Eng)
  -- the events of a play
  | decisionPoint (e : Eng)
  | granuleSample (e : Eng)
  | playEnd (e : Eng)
  | haltComplete (e : Eng)
  | markFire (e : Eng) (m : Fin 8)
  | granuleMissing (e : Eng)
  | slipResume (e : Eng)
  | poisonPlay (e : Eng)
  | taskset (e : Eng) (flags : BitVec 8)
  | taskClear (e : Eng) (val : Word)
  | suiteDecision (e : Eng)
  | suiteDisagree (e : Eng)
  | suiteMemberFail (e : Eng)
  | lockstepVisit (t : TableId) (bistPass : Bool)
  | lockstepMismatch (t : TableId) (diff : Word) (slotBistPass : Bool)
  -- descriptors and pantry (02_pattern_data.md)
  | descStage (t : TableId) (i : BitVec 14) (word : Fin 4) (val : Word)
  | descCommit (t : TableId) (i : BitVec 14) (val : Word)
  | descReload (t : TableId) (i : BitVec 14)
  | pinLoadComplete (t : TableId) (i : BitVec 14)
  | heldCopyRelease (t : TableId) (i : BitVec 14)
  -- lane registers (05, 06, 07)
  | stagedLoWrite (p : PairRef) (val : Word)
  | stagedHiCommit (p : PairRef) (val : Word)
  /-- `word` 0 is FMT, 1-4 are E0-E3. -/
  | timingSetWrite (l : PinLane) (set : Fin 16) (word : Fin 5) (val : Word)
  /-- `thr` false is DRV, true is THR. -/
  | levelSetWrite (l : PinLane) (set : Fin 8) (thr : Bool) (val : Word)
  | laneCfgWrite (l : PinLane) (val : Word)
  | counterClear (e : Eng)
  | captureGranuleWrite (e : Eng)
  | monGo (n : Room) (val : Word)
  | monDone (n : Room) (uv : Word)
  | txeqWrite (k : XLane) (val : Word)
  | rxeqWrite (k : XLane) (val : Word)
  | quadReopen (q : Quad)
  | rxIdleChange (k : XLane) (idle : Bool)
  | syncAcquired (k : XLane) (offsets : List Int)
  | syncSlip (k : XLane) (up : Bool)
  | syncLoss (k : XLane)
  -- streaming (08)
  | ringCfgWrite (r : Fin 256) (val : Word)
  | ringPtrWrite (r : Fin 256) (wptr : Bool) (val : Word)
  | streamGranule (r : Fin 256) (p : Word) (src : StreamSrc) (data : List Granule)
  | creditUpdate (r : Fin 256)
  | phaseReqNormal (req : Requester)
  | phaseReqTest (req : Requester)
  | phaseReqRecovery (req : Requester)
  | factoryTestEnter
  | aperRead (off : BitVec 30) (len : Nat)
  | aperWrite (off : BitVec 30) (data : List (BitVec 8))
  -- hallway (09)
  | hallwayDelivery
  | stormDetect (ch : Fin 256)
  | groupArm (g : Fin 16)
  | groupDisarm (g : Fin 16)
  | swpulse (val : Word)
  | timerCfgWrite (i : Fin 32) (val : Word)
  | timerFire (i : Fin 32)
  /-- `late`: the edge lies within 200 ps before the end of its core cycle (R196). -/
  | trigInEdge (i : Fin 16) (rising : Bool) (late : Bool)
  | trigOutPulseEnd (i : Fin 16)
  | timedTrigEdge (i : Fin 16)
  | eventPacket (src : House) (imp : Fin 64) (cycle : Nat)
  | importApply (j : Fin 64)
  | faultGroupActive (f : Fin 16)
  -- pattern store (10)
  | storeGrant (pc : PChan)
  | agePromotion (pc : PChan)
  | refreshDue (pc : PChan) (b : Bank)
  | owedRefresh (pc : PChan) (b : Bank)
  | neighbourRefresh (pc : PChan) (b : Bank) (row : Fin 16384)
  | refreshWindowEnd (pc : PChan) (b : Bank)
  | rowIdleClose (pc : PChan) (b : Bank)
  | stackTempRead (s : Stack) (c16 : Int) (stale : Bool)
  | ceWriteback (gran : Nat)
  | rowRemap (pc : PChan) (b : Bank) (row : Fin 16384)
  | scrubRead (gran : Nat)
  | trainPassStart
  | trainPassComplete (centres : List DelayCentre)
  | trainPassAbort
  | trainLock
  | opGo (point : Fin 4)
  | opChangeComplete
  -- clocks (11) and house time (05)
  | refApply
  | shutterOpen (id : ClockId)
  | qualTimeout (id : PllId)
  | pllLoss (id : ClockId) (cause : LossCause)
  | stackSelfRefresh (s : Stack)
  | storeRecoveryGather (g : Gathering)
  | oscFail (sd : Side) (dev : Int)
  | epochGo
  | epochCancel
  /-- `frac`: the edge's place within the house beat now, in 1/256 beat. -/
  | syncEdge (frac : BitVec 8)
  | epochApply
  -- calibration (12); a table id names a room or a quad
  | walkStart (t : TableId) (rd : RefReading)
  | calVisit (e : Eng) (part : PartKind) (res : PartResult)
  | walkEnd (t : TableId)
  | trimExchange (e : Eng) (part : PartKind)
  | refDeclWrite (reft : Bool) (val : Word)
  | calPause (on : Bool)
  | fullWalk (t : TableId)
  | fullWalkAbort (t : TableId)
  | deskewGo (avgLog2 : Fin 16)
  | deskewAbort
  | deskewComplete (results : List DeskewResult)
  -- faults (13)
  | faultRecord (sd : Side) (src : BitVec 8) (unit : BitVec 10) (cls : FaultClass) (syn : Word)
  | nmiTrap (sd : Side)
  | blockResetBegin (b : ResetBlock)
  | blockResetEnd (b : ResetBlock)
  | chipReset
  | srcActiveClear (sd : Side) (n : BitVec 8)
  | faultLock (sd : Side)
  | atticClear (sd : Side)
  | atticRelease (sd : Side) (req : Requester)
  | atticHoldTimeout (sd : Side)
  | aliveToggle (sd : Side)
  | injGo (sd : Side)
  | injRecord (sd : Side)
  | injAbort (sd : Side)
  -- register fabric, CRC, monitors (14)
  | regWrite (req : Requester) (addr : BitVec 26) (val : Word)
  | crcOpen (req : Requester)
  | crcCommit (req : Requester)
  | crcRefWrite (req : Requester) (b : Fin 304) (val : Word)
  | crcBlockPass (b : Fin 304)
  | cfgOpenLong (fw : Bool)
  | mcntStart (i : Fin 256)
  | mcntStop (i : Fin 256)
  | mcntSnap (i : Fin 256)
  | mcntClr (i : Fin 256)
  -- porch and host (15)
  | regRd (tag : BitVec 8) (space : RegSpace) (len : Nat) (addr : BitVec 40)
  | regWr (tag : BitVec 8) (space : RegSpace) (addr : BitVec 40) (data : List (BitVec 8))
  | regCpl (tag : BitVec 8) (status : Fin 3) (data : List (BitVec 8))
  | streamData (ring : Fin 256) (first : Word) (firstSlice : BitVec 7) (slog : Fin 8) (data : List Granule)
  | streamCredit (ring : Fin 256) (rptr : Word) (limit : Word) (slog : Fin 8)
  | irq (v : Fin 64)
  | faultNotice (w0 w1 w2 w3 : Word)
  | aliveState (dest : Side) (alive : Fin 4) (house : BitVec 64) (valid : Bool)
  | versionHello (dest : Side) (mask : Word)
  | foreignFrame (dest : Side) (type : BitVec 8)
  | retryRequest (l : LinkRef)
  | ackTimeout (l : LinkRef)
  | crossingFail (x : Fin 18)
  | porchUp
  | porchDown (why : PorchDown)
  | bar0Tlp (write : Bool) (tag : BitVec 8) (addr : BitVec 26) (be : BitVec 4) (val : Word)
  | dmaQtail (i : Fin 4) (tail : BitVec 12) (descs : List DmaDesc)
  | dmaDescComplete (i : Fin 4) (err : Bool)
  | dmaRestart (i : Fin 4)
  | dmaAbort (i : Fin 4)
  -- fabric (16)
  | hello (p : FPort) (uid : BitVec 64) (mask : Word) (fpr : BitVec 64) (port : FPort)
  | portLinkUp (p : FPort)
  | fabLaneFail (p : FPort) (lane : Fin 4)
  | portDown (p : FPort) (why : DownReason)
  | lsa (src : House) (seq : Word) (links : List LsaLink)
  | census (seq : Word) (keeper : BitVec 64) (own : House) (entries : List CensusEntry)
  | keeperTimeout
  | censusAdmitOne (house : House)
  | censusAdmit (house : House)
  | censusForget (house : House)
  | timeReq (p : FPort)
  | timeRsp (p : FPort) (t1 t2 : Int) (t3 : HouseInstant) (t4 : Int)
  | timeStep
  | parentLoss
  | epoch (src : House) (applyAt : BitVec 64) (beats : BitVec 64) (frac : BitVec 16)
  | event (src : House) (imp : Fin 64) (cycle : BitVec 58)
  | fabFaultNotice (src : House) (w0 w1 w2 w3 : Word)
  | rnoteClear
  | fabRegRd (src : House) (tag : BitVec 8) (addr : BitVec 26)
  | fabRegWr (src : House) (tag : BitVec 8) (addr : BitVec 26) (val : Word)
  | fabRegCpl (tag : BitVec 8) (status : Fin 3) (val : Word)
  | rwinTimeout (tag : BitVec 8)
  | fabStream (src : House) (ring : Fin 256) (firstSlice : BitVec 7) (first : Word) (data : List Granule)
  | fabCredit (ring : Fin 256) (rptr : Word) (wptr : Word)
  -- power (17)
  | powerEntry
  | wakeEvent (src : Fin 5)
  | wakeCmd
  | f4Request
  | ltrWrite (val : Word)
  -- reset and boot (18)
  | frstN (level : Bool) (suppliesOk : Bool)
  | hrstN (level : Bool) (suppliesOk : Bool)
  | perstN (level : Bool)
  | bootStageAdvance (info : BootInfo)
  | bootStall (err : BootErr)
  | hostBootStage (info : BootInfo)
  -- supplies, temperature, mission (19)
  | supplyUv (sd : Side) (supply : Fin 11) (mv : Nat)
  | droop (wing : Fin 4) (lowestUv : Nat)
  | tjHigh (sd : Side) (sensor : Fin 36) (c16 : Int)
  | tjCrit (sd : Side) (sensor : Fin 36) (c16 : Int)
  | missionMinute (sd : Side) (c16 : Int)
  | missionLogWrite (sd : Side)
  -- rows the table gives last
  | compareJudgement (e : Eng) (items : List Judged)
  /-- `devPm`: deviation of the house clock from 6.4 GHz as measured on the infrastructure oscillator, in 0.01 % (R231). -/
  | pllLock (id : PllId) (band : BitVec 6) (dev : Int)
  | referencePresent (id : PllId)
  | overfreqWhileClosed (id : PllId)
  | timedTrigEnd (i : Fin 16)
  | traceStale (e : Eng)
  | powerCycle (sd : Side)
  | d3hotTransition (enter : Bool)
  deriving DecidableEq, Repr

end Sys2Proof
end

