-- ==== Sys2Proof/Decode.lean ====
section
/-! DEFINITION. The block has no instruction decoder of a processor's kind: spec/opcode_table.json gives no row any bits, so
no word spells a command. The 64-bit words of the engines' own programs are decoded in Machine/ProgWord.lean. -/

namespace Sys2Proof

/-- The command that a word spells by the table's bits: none, since the table gives no row bits. -/
def decodeTableWord (_nbits _w : Nat) : Option Instr := none

end Sys2Proof
end

