-- ==== Sys2Proof/Machine/Table.lean ====
section
/-! DEFINITION. Sparse tables in one canonical form: pairs of a number and a value, numbers strictly rising, and no entry equal
to what an unlisted number reads as. Registers, engine and lane state and the pattern store are held so. Bit-field helpers. -/

namespace Sys2Proof.Machine

/-- A sparse table: what it lists, by rising number. What an unlisted number reads as is the reader's argument. -/
abbrev Tbl (α : Type) := List (Nat × α)

/-- The value at k: the listed one, else the default's. -/
def tget {α : Type} (d : Nat → α) (t : Tbl α) (k : Nat) : α :=
  match t with
  | [] => d k
  | (k', v) :: r => if k' = k then v else tget d r k

/-- Enter (k, v) before the first larger number. -/
def tins {α : Type} (k : Nat) (v : α) : Tbl α → Tbl α
  | [] => [(k, v)]
  | (k', v') :: r => if k < k' then (k, v) :: (k', v') :: r else (k', v') :: tins k v r

/-- Give k the value v: an entry equal to the default is not listed. -/
def tset {α : Type} [DecidableEq α] (d : Nat → α) (t : Tbl α) (k : Nat) (v : α) : Tbl α :=
  let u := t.filter (fun p => !(p.1 == k))
  if v = d k then u else tins k v u

/-- The canonical form: numbers strictly rising, no entry equal to the default. -/
def Tbl.wf {α : Type} [DecidableEq α] (d : Nat → α) (t : Tbl α) : Prop :=
  t.Pairwise (fun a b => a.1 < b.1) ∧ ∀ p ∈ t, p.2 ≠ d p.1

/-- Bits [lo + n - 1 : lo] of a word, as a number. -/
def bitsOf {w : Nat} (x : BitVec w) (lo n : Nat) : Nat := (x.extractLsb' lo n).toNat

/-- A word with bits [lo + n - 1 : lo] replaced by v's low n bits. -/
def putBits {w : Nat} (x : BitVec w) (lo n v : Nat) : BitVec w :=
  let mask := BitVec.ofNat w ((2 ^ n - 1) * 2 ^ lo)
  (x &&& ~~~mask) ||| (BitVec.ofNat w (v % 2 ^ n * 2 ^ lo) &&& mask)

/-- 1 for true: the value of a one-bit field. -/
def bit (b : Bool) : Nat := if b then 1 else 0

/-- A counter that stays at its largest value (2^n - 1). -/
def satAdd (n a b : Nat) : Nat := min (a + b) (2 ^ n - 1)

/-- Two's-complement reading of an n-bit field. -/
def signed (n v : Nat) : Int := if v < 2 ^ (n - 1) then (v : Int) else (v : Int) - 2 ^ n

/-- The n-bit two's-complement field of an integer. -/
def unsigned (n : Nat) (i : Int) : Nat := (i % (2 ^ n : Int)).toNat

/-- The first number below n that satisfies p. -/
def firstBelow (n : Nat) (p : Nat → Bool) : Option Nat := (List.range n).find? p

/-- Round a quotient half up: floor(a/b + 1/2). -/
def divRound (a b : Nat) : Nat := (2 * a + b) / (2 * b)

/-- Round a quotient up. -/
def divUp (a b : Nat) : Nat := (a + b - 1) / b

/-- Round an integer quotient half up. -/
def idivRound (a : Int) (b : Nat) : Int := (2 * a + b) / (2 * (b : Int))

end Sys2Proof.Machine
end

