-- ==== Sys2Proof/Machine/State.lean ====
section
/-! DEFINITION. The state of the block. Every register of BAR0, on both tiles, lies in State.regs under its own byte address;
the structures below hold what the registers do not show: queues, plays in progress, copies in the pantries, pending
settings, searches, timers of the collectors, messages on the links. -/

namespace Sys2Proof.Machine

/-- Final state that a two-granule filler run leads to (R35, R68, R73, R174). -/
inductive FillEnd where
  | aborted | halted | faulted | lostClock | idle
  deriving DecidableEq, Repr

/-- What a play is: a segment n times, one repetition of a WAIT (its mask), or positions of a ring (R88, R91, R90). -/
inductive PlayKind where
  | seg | wait (mask : Nat) | strm (ring : Nat)
  deriving DecidableEq, Repr

/-- The settings of a lane (R84): frequency word (or XFREQ), phase offset in 2^-48 period, pair, level set, compare mode. -/
structure Settings where
  freq : Nat   -- frequency word of R116 (1 to 2^48), or XFREQ of R118; 03/04/05 R84, reset DESIGN CHOICE 2^48, log entry 7
  rate : Nat   -- line rate in bit/s of an express lane, 0 on a pin lane; R97, reset DESIGN CHOICE 0, log entry 7
  ofs : Int    -- phase offset in 2^-48 period, modulo 2^96; R117, R119, reset DESIGN CHOICE 0, log entry 7
  a : Nat      -- timing set A in force; R84, R100, reset DESIGN CHOICE 0, log entry 7
  b : Nat      -- timing set B in force; R84, R100, reset DESIGN CHOICE 0, log entry 7
  lvl : Nat    -- level set in force; R84, R100, reset DESIGN CHOICE 0, log entry 7
  cmpm : Nat   -- compare mode in force; R84, R101, reset DESIGN CHOICE 0, log entry 7
  deriving DecidableEq, Repr

/-- The pending settings and marks of a chain (R86, R96, R103). -/
structure Pend where
  freq : Option (Nat × Bool) := none   -- pending frequency value and CONT; R98, none at arm
  phase : Option Int := none           -- pending phase offset in 2^-48 period; R99, none at arm
  tset : Option (Nat × Nat) := none    -- pending pair; R100, none at arm
  lvl : Option Nat := none             -- pending level set; R100, none at arm
  cmpm : Option Nat := none            -- pending compare mode; R101, none at arm
  marks : List (Nat × Nat) := []       -- pending marks: marker, offset; R103, none at arm
  synct : Bool := false                -- SYNCT executed in this chain; R96, none at arm
  deriving DecidableEq, Repr

/-- A play: the descriptor copy that a naming read (R34), its settings, and where it stands on the timeline. -/
structure Play where
  kind : PlayKind
  pc : Nat                  -- address of the naming; R78
  seg : Nat                 -- segment index; R31
  base : Nat                -- descriptor copy: first granule; R34
  len : Nat                 -- descriptor copy: granules per slice; R34
  wlog2 : Nat               -- descriptor copy: suite width; R34
  pos : Nat                 -- the lane's slice; R42
  cmp : Option (Nat × Nat)  -- companion: its index and first granule; R41
  copy : Option (Nat × Nat) -- pantry copy that serves the play (its id) and the slice's first granule there; R45, R46
  cmpCopy : Option (Nat × Nat) -- pantry copy of the companion; R47
  reps : Nat                -- repetitions; R88
  grans : Nat               -- granules of the whole play; R60
  first : Nat               -- first ring position of a STRM play; R169
  pend : Pend               -- settings to apply at its start; R86
  tt : Nat                  -- TT at the naming, for SYNCT; R96
  target : Bool             -- conditional target not RESIDENT at the decision point; R47
  late : Bool               -- named after the limit of R62
  namedAt : Nat             -- core cycle of the naming; R62
  k0 : Int                  -- phase of the first boundary; R120, 0 until the play starts
  t0 : Nat                  -- house time of the first boundary in 2^-16 beat; R120, 0 until the play starts
  fetched : Nat             -- granules fetched into the prefetch queue; R168
  cmpFetched : Nat          -- granules of the companion fetched; R16
  due : Nat                 -- first granule not yet judged missing or poisoned; R174
  marks : List (Nat × Nat)  -- marks that have not fired; R103
  decided : Bool            -- its decision point has passed; R60
  endAt : Nat               -- granules until its end (fewer than grans after a granule jump); R66
  jmask : Nat               -- jump mask; R66
  jmaskAt : Nat             -- core cycle from which the jump mask is formed; R66
  digest : List Nat         -- shared fields of the descriptor as the naming read them; R43
  cond : Bool               -- named after a taken BR or a left WAIT; R47
  void : Bool               -- its late naming was aborted before it executed; R68
  deriving DecidableEq, Repr

/-- A play that has ended and whose vectors or UI may still be judged: its settings and its granules (R137, R159). -/
structure PastPlay where
  play : Play
  set : Settings
  queue : List (Nat × Granule × Bool)
  cmpQueue : List (Nat × Granule × Bool)
  deriving DecidableEq, Repr

/-- A granule that filler replaced, or that a hold repeats (R50, R174): what the lane plays in it. -/
structure Fill where
  k : Int       -- phase of its first vector or UI
  d : Granule   -- its vector codes or UI
  idle : Bool   -- express lane: electrical idle (R51)
  before : Nat  -- condition of the driver before it; R39
  drv0 : Nat    -- condition noted on the lane before it
  from0 : Nat   -- first granule after that note
  deriving DecidableEq, Repr

/-- The last vectors of the play before on a pin lane, whose edges may still come (R122). -/
structure Tail where
  set : Settings
  k : Int            -- phase of the first of them
  codes : List Nat   -- their codes; X where the lane held
  before : Nat       -- condition of the driver before them; R39
  deriving DecidableEq, Repr

/-- What a sequence engine holds beside its registers (R84 and the chapter on engines). -/
structure Engine where
  ctr : List Nat := [0, 0, 0, 0, 0, 0, 0, 0]   -- counters C0-C7; 04 R84, 0 at arm
  tt : Nat := 0                                -- time register TT; 04 R84, 0 at arm
  stack : List Nat := []                       -- call stack, top first; 04 R84, empty at arm
  ftab : List Nat := []                        -- frequency table F0-F15; 04 R84, filled at arm, reset DESIGN CHOICE empty, log entry 7
  sample : Nat := 0                            -- task sample; 04 R84, taken at arm and at decision points
  pend : Pend := {}                            -- pending settings and marks; 04 R86
  set : Settings := ⟨2 ^ 48, 0, 0, 0, 0, 0, 0⟩ -- settings in force; 04 R84
  cfg : Nat := 0                               -- CFG as read at arm; 03 R56
  filler : Nat := 0                            -- FILLER as read at arm; 03 R56
  entry : Nat := 0                             -- ENTRY as read at arm; 03 R56
  suite : Nat := 0                             -- SUITE as read at arm; 03 R56
  startT : Nat := 0                            -- START_TIME as read at arm; 03 R56, R95
  epoch : Nat := 0                             -- epoch of the lane in 2^-16 beat; 05 R111
  level : Nat := 0                             -- ISA level of the armed image; 04 R82
  play : Option Play := none                   -- play in progress
  next : Option Play := none                   -- named play
  halting : Bool := false                      -- the chain reached HALT; 03 R67
  nextPc : Nat := 0                            -- address at which the chain continues; 03 R60
  chainN : Nat := 0                            -- instructions executed in the present chain; 03 R62
  chainCyc : Nat := 0                          -- core cycle of the last instruction; 04 R85
  ctrLast : Option Nat := none                 -- counter of the last DJNZ since arm; 08 R184
  ctrLeft : Nat := 0                           -- value left by the last DJNZ; 08 R184
  queue : List (Nat × Granule × Bool) := []    -- prefetch queue: granule of its play, data, poisoned; 01 R16
  cmpQueue : List (Nat × Granule × Bool) := [] -- express compare queue; 01 R16
  nextQueue : List (Nat × Granule × Bool) := [] -- granules prefetched for the named play; 01 R17
  nextCmpQueue : List (Nat × Granule × Bool) := [] -- compare granules prefetched for the named play; 01 R17
  armedAt : Nat := 0                           -- house time at which it entered ARMED, in 2^-16 beat; 03 R59
  fillEnd : Option (FillEnd × Nat) := none     -- two-granule filler run: what follows it, and its start in 2^-16 beat; 03 R68
  abortPend : Bool := false                    -- an abort waits for its granule boundary; 03 R68
  abortAt : Nat := 0                           -- core cycle after which a pending abort acts; 03 R68, R71
  missK : Option Int := none                   -- phase of the last missing granule; 08 R174
  fillIdx : Nat := 0                           -- next filler granule; 02 R50
  fillCopy : Option Nat := none                -- pantry copy of the filler in use; 02 R52
  holding : Bool := false                      -- a SLIP hold waits for its granule; 08 R175
  holdN : Nat := 0                             -- filler granules played in that hold; 02 R47, 08 R175
  retune : Bool := false                       -- in WAIT for a quad PLL retune; 07 R156
  retuneArm : Bool := false                    -- arming waits for a quad PLL retune; 07 R157
  arrCyc : Nat := 0                            -- core cycle of the arrivals in arrNow; 03 R63
  arrNow : Nat := 0                            -- flags that took an arrival in arrCyc; 03 R63
  mrgNow : Nat := 0                            -- flags at which arrivals merged in arrCyc; 03 R63
  ovNow : Nat := 0                             -- flags whose overlap bit was raised from 0 in arrCyc; 03 R63
  ovSet : Nat := 0                             -- flags that an arrival overlapped in arrCyc; 14 R285
  occ : Option (Nat × List (Nat × Word)) := none -- core cycle of the last occurrence that FIRST_* did not take, and what they would hold; 08 R181
  qErr : List (Bool × Bool × Nat × Nat) := []  -- errors that struck the queues: named play's, compare, granule, 1 one symbol, 2 more; 01 R25
  cons : List (Nat × Nat) := []                -- consumptions of the present chain: flag, core cycle; 03 R61
  cond : Bool := false                         -- a BR was taken or a WAIT left in the present chain; 02 R47
  chainD : Nat := 0                            -- decision cycle of the present chain; 03 R60
  trail : List Nat := []                       -- PC.pc before the present chain, then the addresses it has executed; 03 R68, R78
  nameCyc : Nat := 0                           -- core cycle in which a pair last became busy; 05 R125
  dec : Option Nat := none                     -- suite leader: core cycle of a decision not yet delivered; 03 R72
  disagree : Option Bool := none               -- suite leader: a member disagreed (true: pair check, false: descriptor); 02 R43
  armCyc : Nat := 0                            -- core cycle of the accepted arm; 05 R111
  fillK : Option Int := none                   -- phase of the last granule replaced by filler; 02 R50
  filled : List Nat := []                      -- granules of the play in progress replaced by filler, newest first; 02 R50, 06 R138
  wasLate : Bool := false                      -- STAT.chain_late before the present chain's naming; 03 R62, R68
  past : List PastPlay := []                   -- plays that have ended, newest first; 06 R137, 07 R159
  missCause : Nat := 0                         -- cause of the present run of missing granules; 08 R174
  played : Nat := 0                            -- granules played from data in earlier plays; 14 R300
  fills : List Fill := []                      -- last granules that filler or a hold replaced, newest first; 02 R50, 05 R123
  tail : Option Tail := none                   -- last vectors of the play before; 05 R122, R123
  masked : List Nat := []                      -- granules of the play in progress whose compare is masked, newest first; 02 R47
  fillN : Nat := 0                             -- granules of the play in progress replaced; 14 R300
  deriving DecidableEq, Repr

/-- Where a lane rests or what it puts out (R139, R140, R155); measuring: a path deskew drives it (R259). -/
inductive LaneMode where
  | parked | playing | lossState | shuttered | measuring
  deriving DecidableEq, Repr

/-- What a lane holds beside its registers; engine e serves lane e (pin lanes 0-511, express lanes 512-575). -/
structure Lane where
  mode : LaneMode := .parked      -- parked, playing, in the loss state, or shuttered for a retune; 06 R139, R140, 07 R156
  drv : Nat := 2                  -- condition of the driver: 0 low, 1 high, 2 off; 02 R39, reset park DZ
  condFrom : Nat := 0             -- first granule of the play after which drv stands; 02 R39
  park : Nat := 2                 -- park state in effect; 06 R139, reset as CFG.park
  parkLvl : Nat := 0              -- park level set in effect; 06 R139
  term : Nat := 0                 -- drv_term in effect; 06 R131, R139
  loss : Nat := 0                 -- loss choice in effect; 06 R139
  lossWr : Option (Nat × Nat) := none -- last write of the loss choice: its core cycle, the choice before; 06 R139
  lossHold : Bool := false        -- the loss state is held until the engine is reset and re-armed; 06 R140
  blk : Option (Int × Record) := none -- express: block of 8 UI with fails that is not judged to its end: its first UI's phase, its record; 07 R163
  capBase : Nat := 0              -- capture region in force: base; 06 R143
  capLen : Nat := 0               -- capture region in force: length, 0 off; 06 R143
  capWrap : Bool := false         -- capture region in force: WRAP; 06 R146
  capG : Nat := 0                 -- open granule; 06 R145
  slots : List Record := []       -- records in the open granule; 06 R145
  unwritten : Bool := false       -- the open granule holds unwritten records; 06 R145
  lastRec : Nat := 0              -- house time of its last record, in core cycles; 06 R145
  capN : Nat := 0                 -- records of the present run, that the region's fullness follows; 06 R143
  gap : Bool := false             -- records were dropped since the last one written; 06 R146
  sync : Option Int := none       -- express: locked offset; 07 R160
  xcfg : Nat := 0                 -- express: CFG as read at arm; 07 R151
  shutT : Option Nat := none      -- express: instant (2^-16 beat) from which UI are lost to a retune; 07 R156
  slip : Bool := false            -- express: a slip since the last record; 07 R163
  offv : Int := 0                 -- path deskew declared to the lane in 1/256 beat; 12 R260
  txWr : Option (Nat × Word) := none -- express: UI boundary (2^-16 beat) at which TXEQ takes effect, the word until then; 07 R152
  deriving DecidableEq, Repr

/-- A copy of a segment in a pantry (R44, R45). -/
structure PanCopy where
  id : Nat            -- identity of the copy
  seg : Nat           -- segment index; R44
  unit : Nat          -- first 4-granule unit; R44
  units : Nat         -- 4-granule units; R44
  base : Nat          -- store granule loaded from; R44
  len : Nat           -- granules per slice; R44
  wlog2 : Nat         -- suite width; R42
  first : Nat         -- first slice; R44
  cnt : Nat           -- slices; R44
  loaded : Nat        -- granules loaded so far; R44
  /-- 0 loading, 1 in service, 2 held for plays named before (R45, R46). -/
  state : Nat
  reload : Bool       -- a reload of a copy in service; R45
  data : Tbl Granule  -- granules loaded, by offset from the copy's start
  poison : List Nat   -- offsets stored poisoned; R45
  err : Tbl Nat := [] -- errors that struck the copy, by offset: 1 one symbol, 2 more; 01 R25
  deriving DecidableEq, Repr

/-- What a room or quad holds beside its registers: staging, pantry, capture queue, lockstep. -/
structure Table where
  st0 : Option (Nat × Word) := none            -- descriptor staging: word 0 with its tag; 02 R33
  st1 : Option (Nat × Word) := none            -- descriptor staging: word 1 with its tag; 02 R33
  st3 : Option (Nat × Word) := none            -- descriptor staging: word 3 with its tag; 02 R33
  copies : List PanCopy := []                  -- copies in the pantry's resident area; 02 R44
  nextId : Nat := 1                            -- identity of the next copy
  lsNext : Nat := 0                            -- local number of the next lockstep visit; 03 R74
  lsAt : Nat := 0                              -- true time of the present visit's start; 03 R74
  lsOn : Bool := false                         -- a visit is in lockstep; 03 R74
  slots : List (Nat × Nat) := []               -- physical slots that serve an engine other than their own; 03 R75
  resetOn : Bool := false                      -- a BLOCK_RESET of the room or quad is in progress; 13 R268
  capQ : List (Nat × Record) := []             -- capture queue: engine, record; 06 R146, 07 R163
  deriving DecidableEq, Repr

/-- The clocks: true time and house time, in 1/196,608 beat (a core cycle of 1.2 GHz is 1,048,576 of them). -/
structure Clock where
  now : Nat := 0        -- true time since power-on; 05 R106
  house : Nat := 0      -- house time; 05 R106, R107: 0 when the house shutter first opens
  started : Bool := false -- house time has started; 05 R107
  mul : Nat := 64       -- MUL of the ratio in force; 11 R231, R247
  div : Nat := 1        -- DIV of the ratio in force; 11 R231, R247
  coreN : Nat := 0      -- core cycles counted up to coreAt; 14 R300
  coreAt : Nat := 0     -- house time of the last change of the core clock's rate; 17 R348
  deriving DecidableEq, Repr

/-- The hallway's pipeline and its detectors (09_event_hallway.md). -/
structure Hall where
  acts : List (Nat × Nat) := []     -- producer activities not yet formed into channels: grid cycle, producer; R185
  due : List (Nat × Nat × Nat) := [] -- arrivals in the pipeline: cycle, task input, cycle of formation; R187, R200
  old : List (Nat × Nat × Word) := [] -- matrix words written in a cycle: cycle, address, the word before; R187
  chg : List (Nat × Nat × Bool) := [] -- group changes not yet in force: cycle, group, arm; R190
  runs : List (Nat × Nat × Nat) := [] -- runs of active cycles: channel, last cycle, length; R194
  timed : List (Nat × Nat) := []    -- firings of M4-M7 not yet at a pin: pin, the marker's instant in 2^-16 beat; R198
  fired : List (Nat × Nat × Nat) := [] -- firings of M4-M7 whose instant is to come: engine, marker, instant in 2^-16 beat; R198
  pins : List (Nat × Nat × Nat) := [] -- TRIG_OUT levels, active from one house time (2^-16 beat) to another, 0 if not yet known; R197
  tmr : List (Nat × Nat) := []      -- DELAY timers running: timer, house time (1/196,608 beat) of the firing; R195
  tmrNext : List (Nat × Nat) := []  -- PERIODIC timers: timer, next k; R195
  imp : List (Nat × Nat) := []      -- pending import events: import, apply cycle; R201
  fgrp : List (Nat × Nat) := []     -- fault-group activities to come: grid cycle, group; 13 R278
  deriving DecidableEq, Repr

/-- A fault record on its way through a collector (R274). -/
structure FRec where
  time : BitVec 64
  tinv : Bool
  inj : Bool
  src : Nat
  unit : Nat
  cls : Nat
  syn : Word
  deriving DecidableEq, Repr

/-- What a fault collector holds beside its registers (13_faults.md). -/
structure Collector where
  seq : Nat := 0                 -- next sequence number; R274, reset DESIGN CHOICE 0, log entry 7
  cyc : Nat := 0                 -- infrastructure cycle of the batch; R275
  batch : List FRec := []        -- records queued in that cycle, in order; R275
  batchFirst : Bool := false     -- FIRST was taken in that cycle; R276
  overWas : Nat := 0             -- ATTIC.STAT.overwritten before that cycle's records; R276
  int : List Nat := []           -- active sources whose ordinary interrupt the side's controller has been given; R268
  nmi : List Nat := []           -- sources whose NMI is requested; R268
  holdAt : Nat := 0              -- true time at which the hold began; R277
  lostCyc : Nat := 0             -- infrastructure cycle of the records in lostNow; R277
  lostNow : List FRec := []      -- records lost to the hold in that cycle; R277
  lostWas : Nat := 0             -- FAULT.LOST before those records; R277
  chip : Nat := 0                -- CHIP_RESET reactions waiting to begin; R268
  blocks : List (Nat × Nat) := [] -- BLOCK_RESET reactions waiting to begin: source, unit; R268
  chipTimes : List Nat := []     -- true times at which CHIP_RESET reactions acted; R269
  injLeft : Nat := 0             -- records left in an injection run; R279
  injAt : Nat := 0               -- true time of the run's next record; R279
  aliveLevel : Bool := false     -- level of the ALIVE pin; R273
  aliveAt : Nat := 0             -- true time of the next edge; R273
  fatalOn : Bool := false        -- the side is in its safe state; R270
  dead : Bool := false           -- the side's infrastructure oscillator has stopped; 11 R245
  deriving DecidableEq, Repr

/-- Frames on the porch (R305). -/
inductive Msg where
  | regRd (tag : BitVec 8) (space : RegSpace) (len : Nat) (addr : BitVec 40)
  | regWr (tag : BitVec 8) (space : RegSpace) (addr : BitVec 40) (data : List (BitVec 8))
  | regCpl (tag : BitVec 8) (status : Fin 3) (data : List (BitVec 8))
  | streamData (ring : Fin 256) (first : Word) (firstSlice : BitVec 7) (slog : Fin 8) (data : List Granule)
  | streamCredit (ring : Fin 256) (rptr : Word) (limit : Word) (slog : Fin 8)
  | irq (v : Fin 64)
  | faultNotice (w0 w1 w2 w3 : Word)
  | aliveState (alive : Fin 4) (house : BitVec 64) (valid : Bool)
  | versionHello (mask : Word)
  deriving DecidableEq, Repr

/-- What the two porch ends hold beside their registers (15_porch_and_host.md). -/
structure Porch where
  toHost : List Msg := []           -- frames from the field end to the host end; R305
  toField : List Msg := []          -- frames from the host end to the field end; R305
  seqF : BitVec 16 := 0             -- number of the next frame from the field end; R304, reset DESIGN CHOICE 0, log entry 50
  seqH : BitVec 16 := 0             -- number of the next frame from the host end; R304, reset DESIGN CHOICE 0, log entry 50
  irqPend : List Nat := []          -- vectors whose IRQ message waits; R316
  irqSent : List (Nat × Nat) := []  -- vector and true time of its last IRQ message; R316
  ver : Option Nat := none          -- version agreed; R309
  helloF : Option Word := none      -- mask received by the field end; R309
  helloH : Option Word := none      -- mask received by the host end; R309
  halt : Bool := false              -- the host end sends nothing after a host FATAL; R272
  hostTime : Nat := 0               -- host copy of field house time in beats; R391
  hostValid : Bool := false         -- valid bit of the last ALIVE_STATE; R391
  hostAt : Nat := 0                 -- true time of the last ALIVE_STATE; R391
  aliveH : Nat := 0                 -- ALIVE state of the host side as the field last heard; R391
  aliveF : Nat := 0                 -- ALIVE state of the field side as the host last heard; R391
  fails : List (Bool × Nat) := []   -- consecutive failures of the oldest frame: from the field end, count; R307
  pcie : Bool := false              -- the PCIe endpoint is out of reset; 18 R358, R364
  aer : Nat := 0                    -- uncorrectable internal errors reported through AER; 13 R272
  d3 : Bool := false                -- the function is in D3hot; 17 R355
  reads : List (BitVec 8 × Option Nat) := [] -- reads of the host that wait for REG_CPL: tag, bytes of a store read; R311
  writes : Nat := 0                 -- REG_WR frames not yet acknowledged; R311
  held : List Msg := []             -- register messages that wait for one of the 64 in flight; R314
  notices : List (Word × Word × Word × Word) := [] -- attic records that the host has received; R390
  cpls : List (BitVec 8 × Word) := [] -- completions of BAR0 reads returned to the host; R314
  aper : List (List (BitVec 8) × Fin 3) := [] -- completions of BAR2 reads: data, 0 normal, 1 with EP, 2 UR; R315
  credit : List (Nat × Nat × Nat) := [] -- latest STREAM_CREDIT of each ring at the host tile: ring, limit, slices_log2; R318
  wait : List (Msg × Nat) := []     -- register messages at the field end that wait for the store, or behind one that does, with the true time of arrival; R227, R314
  deriving DecidableEq, Repr

/-- What a stream DMA queue holds beside its registers (R317-R319). -/
structure Dma where
  descs : List DmaDesc := []        -- descriptors placed and not yet executed, in order from QHEAD; R317
  cur : Option DmaDesc := none      -- descriptor in progress; R318
  sent : Nat := 0                   -- positions of it that the field end has acknowledged; R317
  done : List (Nat × Word) := []    -- word 6 written back: slot, value; R317
  deriving DecidableEq, Repr

/-- A request waiting at a store port (R205). -/
structure Req where
  port : Nat            -- store port; R205
  eng : Nat             -- lane queue of a prefetch, else 576; R205
  cmp : Bool            -- a prefetch into the compare queue; R16
  nxt : Bool            -- a prefetch for the named play; R17
  cls : Nat             -- 2 RT, 1 FIRM, 0 BULK; R205
  gran : Nat            -- first store granule
  n : Nat               -- granules, 1 to 4; R205
  idx : Nat             -- granule of its play, or the position of a stream granule
  data : Option Granule -- data of a write
  /-- What a request is for: 0 a prefetch, 1 a stream granule, 2 a capture, 3 the aperture, 4 the controller's own work, 6 a pantry load. -/
  use : Nat
  ring : Nat            -- identity of the pantry copy that is loaded; R44
  entered : Nat         -- true time at which it entered its port; R206
  promo : Bool          -- promoted; R208
  urg : Nat             -- urgency of a prefetch, taken at entry and each time it is passed over; R206
  deriving DecidableEq, Repr

/-- What the store controller holds beside its registers (10_pattern_store.md). -/
structure StoreCtl where
  reqs : List Req := []              -- requests waiting at the ports; R205
  wb : List Nat := []                -- granules read with a correction whose write-back is to come; R219
  rowCe : Tbl Nat := []              -- corrected errors counted toward sparing, by row number; R221
  copying : List Nat := []           -- rows being copied to a spare; R221
  remap : List Nat := []             -- rows remapped to spares; R221
  openRow : Tbl Nat := []            -- open row + 1 of each bank, 0 closed; R211
  lastUse : Tbl Nat := []            -- true time of the last request served in each bank; R211
  hits : Tbl Nat := []               -- consecutive open-row hits served in each bank; R207
  deficit : List (Nat × Int) := []   -- census deficits of the arbiters, by level, pseudo-channel, class and input; R210
  promoAt : Tbl Nat := []            -- true time of a pseudo-channel's last promoted grant; R208
  owed : Tbl Nat := []               -- owed refreshes of each bank; R214
  rows : List (Nat × List (Nat × Nat) × Nat) := [] -- disturbance table of each bank: rows with counts, spill; R215
  pairs : List (Nat × Nat × Nat) := [] -- neighbour pairs due: bank, row, pair 1 or 2; R215
  scrub : Nat := 0                   -- next granule of the patrol scrub; R222
  tempOk : List Nat := []            -- stacks that have given a temperature that was not stale; R213
  srf : List Nat := []               -- stacks in self-refresh; 11 R243
  cred : List (Nat × Nat × Option Nat) := [] -- rings that have reported credit: ring, RPTR last reported, true time of the first advance since; 08 R172
  swPtr : List (Nat × Bool × Nat × Word) := [] -- last write of each ring pointer by host software: ring, WPTR, core cycle, value before; 08 R178
  wrNow : List (Nat × Nat × Nat × Granule × Nat) := [] -- checked writes made in a restricted phase: core cycle, port, granule, data and error before; 08 R179
  hwPtr : List (Nat × Bool × Nat) := [] -- last hardware update of each ring pointer: ring, WPTR, core cycle; 08 R178
  offAt : Tbl Nat := []              -- true time at which a stack last stopped admitting requests; R206, R240
  chg : List Nat := []               -- stacks that the operating-point change in progress has closed; R227
  top : List (Nat × Nat) := []       -- rings with accepted positions not all in the store: ring, the position after the last accepted; 08 R168
  aperGot : List (Granule × Bool) := [] -- granules that the store read at the head of the port-52 queue has got; R205
  deriving DecidableEq, Repr

/-- Bodies of the fabric packets this device sends (R326, R335-R342). -/
inductive Packet where
  | lsa (seq : Nat) (links : List LsaLink)
  | census (seq : Word) (keeper : BitVec 64) (entries : List CensusEntry)
  | admitted (house : House)
  | nonce (house : House)
  | epoch (applyAt : BitVec 64) (beats : BitVec 64) (frac : BitVec 16)
  | event (imp : Fin 64) (cycle : BitVec 58)
  | faultNotice (w0 w1 w2 w3 : Word)
  | regRd (tag : BitVec 8) (addr : BitVec 26)
  | regWr (tag : BitVec 8) (addr : BitVec 26) (val : Word)
  | regCpl (tag : BitVec 8) (status : Fin 3) (val : Word)
  | stream (ring : Fin 256) (firstSlice : BitVec 7) (first : Word) (data : List Granule)
  | credit (ring : Fin 256) (rptr : Word) (wptr : Word)
  deriving DecidableEq, Repr

/-- What the fabric unit holds beside its registers (16_abmir_fabric.md). -/
structure Fab where
  out : List (Option Nat × Packet) := []  -- packets sent, oldest first: destination house, none for every device; R326
  burst : Option (Nat × Nat) := none -- true time of the last packet, and the packets sent before that instant; 16 R328
  lsas : List (Nat × Nat × List LsaLink) := [] -- latest LSA of each house: source, sequence, links; R333
  lsaSeq : Nat := 0                 -- sequence of this device's own LSA; R333
  censusSeq : Nat := 0              -- sequence of the census in force; R327, R330
  exch : List (Nat × List (Int × Int)) := [] -- last exchanges of each port, newest first: offset, delay in 1/1,024 beat; R335
  reqs : List (Nat × Nat) := []     -- TIME_REQ without its TIME_RSP: port, true time; R335
  sinceStep : Nat := 0              -- exchanges on the parent link averaged since the last step; R336
  hadTime : Bool := false           -- time has become valid since reset and has not been lost since; R336
  parentOn : Bool := false          -- the device has a time parent; R334
  fails : List (Nat × Nat) := []    -- consecutive failures of a port's oldest frame: port, count; R325
  fprs : List (Nat × BitVec 64) := [] -- fingerprint in the last HELLO of each port; R329, R344
  seen : List (Nat × Nat) := []     -- port at which an entry's device was last seen: house, port; R344
  guests : List (Nat × BitVec 64 × BitVec 64) := [] -- UID and fingerprint of the GUEST that holds a house; R344, R345
  rem : List (BitVec 8 × Bool × Nat × Option (BitVec 8)) := [] -- remote accesses under way: tag, write, true time of departure, porch tag; R339
  credit : List (Nat × Word × Word) := [] -- latest CREDIT received for each ring: ring, RPTR, WPTR; R341
  admits : List Nat := []           -- houses whose ADMIT this device has sent; R345
  deriving DecidableEq, Repr

/-- What a PLL holds beside its registers (11_clocks.md). -/
structure Pll where
  since : Nat := 0       -- true time of the start of its search, or of the bound of R234
  wait : Nat := 0        -- 0 idle, 1 searching, 2 waiting for the house PLL's opening (R238, R241); R234
  rangeHold : Bool := false -- house PLL held closed by the range check; R231
  lossOpen : Bool := false  -- closed by a loss, so that the next opening counts in relocks; R247
  qualAt : Nat := 0      -- true time at which the 256-cycle lock count last began; R234, R236
  lossAt : Option Nat := none -- infrastructure cycle of its last loss; R242
  deriving DecidableEq, Repr

/-- What a monitor counter holds beside its registers (14 R301). -/
structure Mon where
  startC : Nat := 0                 -- core cycle of the last start
  stopC : Nat := 0                  -- core cycle of the last stop
  snapC : Option Nat := none        -- core cycle of the last snapshot
  base : Nat := 0                   -- total of a running total up to which VAL has counted
  cyc : Nat := 0                    -- core cycle of the last count
  cycN : Nat := 0                   -- counts of that cycle
  deriving DecidableEq, Repr

/-- What the configuration CRC holds beside its registers (14 R292-R295). -/
structure Crc where
  hostAt : Nat := 0                 -- true time at which the host window opened; R293
  fwAt : Nat := 0                   -- true time at which house firmware's window opened; R293
  hostLong : Bool := false          -- CFG_OPEN_LONG recorded for the host window; R293
  fwLong : Bool := false            -- CFG_OPEN_LONG recorded for house firmware's window; R293
  seen : List Nat := []             -- blocks recorded since the last commit; R294
  next : Nat := 0                   -- block of the pass in progress; R292
  old : Bool := true                -- that pass began before the last open or commit; R293
  deriving DecidableEq, Repr

/-- What the walks of a room or quad hold (12_calibration.md). -/
structure Walk where
  on : Bool := false                -- a walk is in progress; R251
  startAt : Nat := 0                -- true time at which it began
  initial : Nat := 2                -- initial walks to come; R257
  full : Nat := 0                   -- walks of a host full walk to come; R262
  n : Nat := 0                      -- walks begun since reset; R254
  ok : Bool := false                -- the walk's checks passed; R249
  keep : Bool := true               -- its results count (no declaration change, no lost clock); R248, R262
  recal : Bool := false             -- the converters are being recalibrated; R251
  seen : Bool := false              -- a temperature of the room has been shown; R263
  refOk : Bool := false             -- the references passed their checks in this walk; R249
  temp : Int := 0                   -- temperature measured at the walk's start, in 1/16 degree; R250
  adc : Int := 0                    -- ADC gain measured in the walk, in ppm; R254
  tdc : Nat := 0                    -- TDC bin width measured in the walk, in 1/1,024 ps; R254
  prevConv : Option (Nat × Int × Nat) := none -- latest converter results that count: the walk's number, gain, bin width; R254
  convOk : Bool := true             -- the latest converter results lie within range and window; R255
  convBad : Nat := 0                -- consecutive rejects of the converters; R258
  convUnable : Nat := 0             -- CAL_UNABLE records for them since their last acceptance, 0 to 2; R258
  convSince : Nat := 0              -- walks since the first of those records; R258
  rej : Nat := 0                    -- consecutive walks rejected for a reference; R258
  refFail : Bool := false           -- the references failed in the last walk; R256
  need : Bool := false              -- a CAL_UNABLE for a reference, and two passed walks have not yet followed; R256
  okRun : Nat := 0                  -- consecutive completed walks that passed every check; R256, R258
  back : Nat := 0                   -- complete walks still to pass since the clock was lost; R256
  deriving DecidableEq, Repr

/-- A part of a lane that calibration measures (R252-R258); values in trim steps from the birth value. -/
structure CalPart where
  trim : List Int := []             -- trim in service, or held for service; empty: its birth value (R257)
  atT : Option Nat := none          -- true time of that trim's acceptance, none while on the birth value; R256
  temp : Int := 0                   -- room temperature at that acceptance; R256
  decl : Nat := 0                   -- number of declaration changes at that acceptance; R256
  prev : Option (Nat × List Int) := none -- latest result that counts: the walk's number and values; R254
  cur : Option (List Int) := none   -- result of the walk in progress; R252
  wait : Option (List Int × Nat × Int × Nat) := none -- accepted trim that waits for its exchange: trim, time, temperature, declaration; R253
  bad : Nat := 0                    -- consecutive rejects; R258
  unable : Nat := 0                 -- CAL_UNABLE records since the last acceptance, 0 to 2; R258
  cause : Nat := 0                  -- cause of those records; R258
  since : Nat := 0                  -- walks without acceptance since the first of them; R258
  retired : Bool := false           -- retired; R255, 01 R23
  held : Bool := false              -- an express part held out; R255
  deriving DecidableEq, Repr

/-- Which parts of a lane are out of service (R129, R133, R252), and its deskew (R260). -/
structure CalLane where
  slice : Nat := 16                 -- driver slice out of service; R129
  delay : Nat := 1                  -- idle delay line; R133
  cmp : Nat := 1                    -- idle comparator pair; R133
  dskUnable : Nat := 0              -- CAL_UNABLE FAR_END records since the last accepted deskew; R260
  dskSince : Nat := 0               -- deskews rejected since the first of them; R258, R260
  deriving DecidableEq, Repr

/-- What calibration holds for the device (R248, R258, R259). -/
structure Cal where
  decl : Nat := 0                   -- declaration changes; R248
  unable : List (Nat × Nat × Nat × Bool) := [] -- CAL_UNABLE for a reference: cause, table, rejected walks since, second record made; R258
  dsk : List Nat := []              -- lanes that the deskew in progress measures; R259
  deriving DecidableEq, Repr

/-- What the store's training and operating-point changes hold (10 R223-R227). -/
structure Train where
  passAt : Nat := 0                 -- true time at which the gathering pass began; R224
  reqAt : Nat := 0                  -- true time of the first deferred request; R225
  chgAt : Nat := 0                  -- true time at which the change began; R227
  chgTo : Nat := 0                  -- point of the deferred change or the change in progress; R225, R227
  nextAt : Option Nat := none       -- true time at which a pass is scheduled; R225
  temp : Tbl Int := []              -- stack temperature at the last pass, in 1/16 degree; R224
  deriving DecidableEq, Repr

/-- What the resets, the boot sequences and the power states hold (17, 18, 19). -/
structure Boot where
  frst : Bool := false              -- level of FRST_N; 18 R358, low at power-on
  hrst : Bool := false              -- level of HRST_N; R358
  perst : Bool := false             -- level of PERST_N; R358
  early : Bool := false             -- FRST_N rose before its supplies were in range; R358
  hearly : Bool := false            -- HRST_N did; R358
  relAt : Nat := 0                  -- true time at which FRST_N was released; R360
  stageAt : Nat := 0                -- true time at which the stage in progress began; R360
  late : Bool := false              -- the porch was enabled out of order by a stall; R362
  porchOn : Bool := false           -- the field end of the porch is enabled; R360
  idleAt : Option Nat := none       -- true time since which the field side is idle; 17 R351
  stateAt : Nat := 0                -- true time at which the power state in force was entered; R357
  f4 : Bool := false                -- the field side is in F4; R352
  resets : List ResetBlock := []    -- stacks, ports and the porch's host end whose BLOCK_RESET is in progress; 13 R268
  jtag : Bool := false              -- factory test mode is active on the field side; 13 R279, 17 R350
  hjtag : Bool := false             -- factory test mode is active on the host side; 13 R279
  hcoreLost : Bool := false         -- the host-core PLL is lost and its clock closed; 11 R246
  pcieLost : Bool := false          -- the PCIe PLL is lost; 11 R246
  high : List (Bool × Nat) := []    -- sensors whose TJ_HIGH is not re-armed: host side, sensor; 19 R387
  crit : List (Bool × Nat) := []    -- sensors whose TJ_CRIT is not re-armed; R387
  minF : List Nat := [0, 0, 0]      -- minutes of the field bands' current hours; R389
  minH : List Nat := [0, 0, 0]      -- minutes of the host bands' current hours; R389
  flashF : Option (Word × Word × Word) := none -- mission log in the field flash; R389
  flashH : Option (Word × Word × Word) := none -- mission log in the host flash; R389
  deriving DecidableEq, Repr

/-- An epoch change that waits for its APPLY_AT (05 R110, R114). -/
structure PendEpoch where
  value : Nat  -- new epoch in 2^-16 beat; R110
  applyAt : Nat -- APPLY_AT in whole beats; R110
  fab : Bool   -- it came from a fabric epoch command; R115
  bcast : Bool -- it is sent over the fabric once its value is known; R113
  deriving DecidableEq, Repr

/-- Stream granules at a stream port (R171): from slice `slice` of position `pos` on; `whole` where they are one whole position. -/
structure StreamFrame where
  ring : Nat
  pos : Nat
  slice : Nat
  slog : Option Nat    -- width that a STREAM_DATA frame states; R305
  whole : Bool
  src : StreamSrc
  data : List Granule
  deriving DecidableEq, Repr

/-- What reaches the epoch unit: a go of host software, a SYNC edge for which a change waits, or a fabric epoch command (R112-R114). -/
inductive EpochAct where
  | go
  | edge
  | fabric
  deriving DecidableEq, Repr

/-- What a house-logic cycle in which an epoch command or a SYNC edge acted found: a cancel, or a fabric command, of that cycle comes
before it (R114). -/
structure EpochNote where
  cyc : Nat    -- the house-logic cycle
  act : EpochAct
  late : Bool  -- EPOCH_STAT.late before it
  out : Nat    -- epoch packets sent before it
  was : Option PendEpoch -- the pending change before it
  st : Nat     -- EPOCH_STAT.state before it
  deriving DecidableEq, Repr

/-- A hardware update of a register field in a cycle: a status bit it set, or what it added to a counter (R285). -/
structure HwUpd where
  cyc : Nat   -- cycle of the register's domain
  addr : Nat  -- byte address of the register
  lo : Nat    -- lowest bit of the field
  bits : Nat  -- status bits set, at their places in the word
  n : Nat     -- counts added
  deriving DecidableEq, Repr

/-- The state of the block. Its defaults are the values after reset of both sides (power-on). -/
structure State where
  regs : Tbl Word := []            -- every register of BAR0 by byte address; reset values in Layout.resetWord
  clk : Clock := {}                -- clocks
  eng : Tbl Engine := []           -- engines 0-575
  lane : Tbl Lane := []            -- lanes 0-575
  tab : Tbl Table := []            -- rooms 0-31 and quads 32-47
  pll : Tbl Pll := []              -- PLL ids 0-60
  hall : Hall := {}                -- hallway
  epoch : Option PendEpoch := none -- pending epoch change; 05 R114
  epochWas : Option EpochNote := none -- the last cycle in which a go or an awaited SYNC edge acted; 05 R114
  fltF : Collector := {}           -- field fault collector
  fltH : Collector := {}           -- host fault collector
  store : List Host.Cell := []     -- pattern store bytes by byte address; 10 R204, unlisted bytes read 0 (DESIGN CHOICE, log entry 4)
  imemErr : Tbl Nat := []          -- instruction words with errors, by 4096 * engine + index: 1 one bit, 2 two bits; 03 R57, none at reset
  imemStage : List (Nat × Nat × Word) := [] -- low halves staged: engine, index, word; 04 R80
  pairStage : List (Nat × Word) := [] -- low halves of staged pairs, by the address of the low register; 14 R286
  ctl : StoreCtl := {}             -- store controller
  granErr : Tbl Nat := []          -- store granules with errors: 1 one bad symbol, 2 uncorrectable, 3 poisoned; 10 R217, none at reset
  porch : Porch := {}              -- porch link
  fab : Fab := {}                  -- fabric unit
  parts : List (Nat × Nat × List Granule) := [] -- suite positions whose slices are incomplete: ring, position, slices received; 16 R341
  stalled : List StreamFrame := [] -- stream granules that wait for the core clock; 01 R21, 08 R173
  phaseAct : Option Nat := none    -- core cycle in which the last host request for a phase acted; 08 R180
  dma : Tbl Dma := []              -- stream DMA queues 0-3; 15 R317
  mon : Tbl Mon := []              -- monitor counters; 14 R301
  crc : Crc := {}                  -- configuration CRC; 14 R292
  cal : Cal := {}                  -- calibration; 12 R248
  walk : Tbl Walk := []            -- walks of rooms 0-31 and quads 32-47; 12 R251
  part : Tbl CalPart := []         -- parts of the lanes, by 32 * lane + part; 12 R252
  clane : Tbl CalLane := []        -- lanes 0-575, parts out of service; 12 R252
  train : Train := {}              -- training and operating-point changes; 10 R223
  boot : Boot := {}                -- resets, boot, power states, temperatures; 17, 18, 19
  msi : List Nat := []             -- MSI-X messages sent to the host: vectors, oldest first; 15 R316
  hw : List HwUpd := []            -- hardware's updates of the present cycle, for a write of that cycle; 14 R285
  free : Nat := 0                  -- the model's own: number of free values drawn (log entry 13)
  pending : List Instr := []       -- commands waiting, first in, first out
  deriving DecidableEq, Repr

/-- The reasons a step can stop with a fault. exec raises none: every rule of the spec gives its command an effect. -/
inductive Fault where
  /-- Raised by nothing: the spec gives no command that stops the machine. Safe. -/
  | none
  deriving DecidableEq, Repr

/-- The reasons a command can be refused. -/
inductive Refusal where
  /-- Raised by exec for a command that has no meaning yet, by its mnemonic. Safe. -/
  | notModelled (mnemonic : String)
  deriving DecidableEq, Repr

/-- The block right after power-on reset of both sides. -/
def State.reset : State := {}

end Sys2Proof.Machine
end

