-- ==== Sys2Proof/Machine/Frame.lean ====
section
/-! DEFINITION. Porch frames: their headers, their priorities, what fits a type (R2, R303-R306). -/

namespace Sys2Proof.Machine

/-- A frame header taken apart (R304); the bits that the layout gives no field are 0. -/
structure Header where
  code : BitVec 8     -- [127:120]
  seq : BitVec 16     -- [111:96]
  len : BitVec 8      -- [95:88], in 4-byte words
  fields : BitVec 88  -- [87:0]
  deriving DecidableEq, Repr

/-- The 16 bytes of a header (R304). -/
def Header.encode (h : Header) : BitVec 128 := h.code ++ (0 : BitVec 8) ++ h.seq ++ h.len ++ h.fields

/-- A header read from its 16 bytes (R304). -/
def Header.decode (x : BitVec 128) : Header :=
  ⟨x.extractLsb' 120 8, x.extractLsb' 96 16, x.extractLsb' 88 8, x.extractLsb' 0 88⟩

/-- Type code of a message (R305). -/
def msgCode : Msg → BitVec 8
  | .regRd .. => 0x01
  | .regWr .. => 0x02
  | .regCpl .. => 0x03
  | .streamData .. => 0x10
  | .streamCredit .. => 0x11
  | .irq .. => 0x20
  | .faultNotice .. => 0x21
  | .aliveState .. => 0x22
  | .versionHello .. => 0x30

/-- Payload of a message in bytes (R305): a BAR0 write carries one word, whichever of its bytes are enabled. -/
def msgBytes : Msg → Nat
  | .regWr _ .bar0 _ d => max 4 d.length
  | .regWr _ .store _ d => d.length
  | .regCpl _ _ d => d.length
  | .streamData _ _ _ _ d => 64 * d.length
  | .faultNotice .. => 16
  | _ => 0

/-- The type-specific fields of a register request (R305). -/
def regFields (tag : BitVec 8) (space : RegSpace) (len : Nat) (addr : BitVec 40) : BitVec 88 :=
  match space with
  | .bar0 => tag ++ (0 : BitVec 40) ++ addr
  | .store => tag ++ (1 : BitVec 1) ++ BitVec.ofNat 8 (len - 1) ++ (0 : BitVec 31) ++ addr

/-- The type-specific fields of a message (R305). -/
def msgFields : Msg → BitVec 88
  | .regRd tag sp len a => regFields tag sp len a
  | .regWr tag sp a d => regFields tag sp d.length a
  | .regCpl tag st _ => tag ++ BitVec.ofNat 2 st ++ (0 : BitVec 78)
  | .streamData r p k w d => BitVec.ofNat 8 r ++ BitVec.ofNat 3 (d.length - 1) ++ k ++ BitVec.ofNat 3 w ++ (0 : BitVec 35) ++ p
  | .streamCredit r rp l w => BitVec.ofNat 8 r ++ (0 : BitVec 13) ++ BitVec.ofNat 3 w ++ rp ++ l
  | .irq v => BitVec.ofNat 88 v
  | .faultNotice .. => 0
  | .aliveState a h v => h ++ (0 : BitVec 21) ++ BitVec.ofBool v ++ BitVec.ofNat 2 a
  | .versionHello m => BitVec.ofNat 88 m.toNat

/-- The header under which a message goes as frame number seq (R304). -/
def msgHeader (seq : BitVec 16) (m : Msg) : Header := ⟨msgCode m, seq, BitVec.ofNat 8 ((msgBytes m + 3) / 4), msgFields m⟩

/-- A frame with header h may arrive at a side (R305): its code is one of that direction, and its len matches the type. -/
def frameFits (dest : Side) (h : Header) : Bool :=
  let n := h.len.toNat
  let store := h.fields.getLsbD 79
  let toField := decide (dest = .field)
  match h.code.toNat with
  | 0x01 => toField && n == 0
  | 0x02 => toField && (if store then decide (64 ≤ 4 * n) && 4 * n == (h.fields.extractLsb' 71 8).toNat + 1 else n == 1)
  | 0x03 => !toField && decide (n ≤ 64)
  | 0x10 => toField && n == 16 * ((h.fields.extractLsb' 77 3).toNat + 1) && decide (n ≤ 64)
  | 0x11 => !toField && n == 0
  | 0x20 => !toField && n == 0
  | 0x21 => !toField && n == 4
  | 0x22 => n == 0
  | 0x30 => n == 0
  | _ => false

/-- Priority of a message (R27, R306): 1 goes first. -/
def msgPrio : Msg → Nat
  | .faultNotice .. => 1
  | .aliveState .. => 1
  | .streamData .. => 3
  | .streamCredit .. => 3
  | _ => 2

/-- Enter x behind everything of its priority or a higher one. -/
def enqueue {α : Type} (prio : α → Nat) (x : α) : List α → List α
  | [] => [x]
  | y :: ys => if prio x < prio y then x :: y :: ys else y :: enqueue prio x ys

/-- The frames that wait on one direction of the porch, with one more (R306). -/
def queueMsg (q : List Msg) (m : Msg) : List Msg := enqueue msgPrio m q

end Sys2Proof.Machine
end

