-- ==== Sys2Proof/Config.lean ====
section
/-! DEFINITION. What a device or an implementation fixes and the spec leaves open: opaque constants, so that no proof can see
their values. Log entries 6, 7 and 13 name them. -/

namespace Sys2Proof.Config

/-- Unique ID of the device, from fuses (R298: "Per device"). -/
opaque uid : BitVec 64
/-- First 64 bits of the SHA-256 of the identity public key, from fuses (R329, R346: "set per device"). -/
opaque fingerprint : BitVec 64
/-- House firmware version word of the field side before an image has been chosen (R298: "Per image"). -/
opaque fwVer : BitVec 32
/-- Firmware version word of the host tile (R298: its own FW_VER). -/
opaque hostFwVer : BitVec 32
/-- Boot ROM version of the host tile (R298: its own ROM_VER). -/
opaque hostRomVer : BitVec 32
/-- A free value: the n-th value that the spec does not state, drawn by the step that reads State.free = n and advances it. -/
opaque freeWord : Nat → BitVec 32
/-- The hash by which a device chooses among equal-cost next hops (R333 states its arguments and not the hash): source house,
destination house, class, flow number. -/
opaque flowHash : Nat → Nat → Nat → Nat → Nat
/-- Whether the device that carries this UID answers the keeper's nonce with a signature that checks (R343). -/
opaque signatureOk : BitVec 64 → Bool
/-- What a continuously adapting receiver has at a true time (R153): a free value, by time and register address. -/
opaque adapted : Nat → Nat → BitVec 32
/-- Birth value of a room's mean TDC bin width in 1/1,024 ps (R254, R257: "factory-measured trims held in fuses"). -/
opaque tdcBirth : Nat → Nat
/-- Birth value of a room's ADC gain correction in ppm (R254, R257). -/
opaque adcBirth : Nat → Int

end Sys2Proof.Config
end

