-- ==== Sys2Proof/Machine/Layout.lean ====
section
/-! DEFINITION. The layout of BAR0 (R296, R297 and the register tables of the chapters): for every word of the map its
fields with their places, access types (R7, R284) and reset values. A register without a row here is unmapped (R283). -/

namespace Sys2Proof.Machine

/-- The access types of R7; cntw is CNT where the field table allows writes (R284). -/
inductive Access where
  | rw | ro | w1c | w1s | wo | rwl | wo1 | hw | cnt | cntw
  deriving DecidableEq, Repr

/-- A field of a register: its lowest bit, its width, its access type and its reset value. -/
structure FieldSpec where
  lo : Nat
  w : Nat
  acc : Access
  reset : Nat
  deriving DecidableEq, Repr

/-- A register of a block: its offset in the block and its fields. -/
structure RegSpec where
  off : Nat
  fields : List FieldSpec
  deriving DecidableEq, Repr

/-- The register blocks of the map. -/
inductive Blk where
  | id | hid | hboot | regf | crcRef | crcVal | flt | attic | src | srcAct | pll | clk | time | cal | calRoom | calQuad | trace | dskMask | dskLane | pwr | pwrRes | mcnt | pmat | tmat | hall | grpCtl | grpStat | fgd | tmr | trigIn | trigOut | exp | imp | ntMerged | ntCoinc | st | stTemp | stRef | rhCnt | ecc | stPort | stPromo | dly | shadow | fab | fport | rnote | cens | ring | rings | eng | lt | ts | le | ls | mon | xl | dfe | xq | seg | pan | lstep | msix | pba | porch | hif | dmaq | imem
  deriving DecidableEq, Repr

/-- Where a block's copies lie: the address of the first, the strides and counts that number its units (from `first` on),
and those that number the entries within a unit. -/
structure BlockSpec where
  blk : Blk
  base : Nat
  outer : List (Nat × Nat)
  inner : List (Nat × Nat)
  first : Nat
  size : Nat
  deriving DecidableEq, Repr

/-- A word of the map: its block, the unit, the entry within the unit, and the register. -/
structure Place where
  blk : Blk
  unit : Nat
  sub : Nat
  reg : RegSpec
  deriving DecidableEq, Repr

/-- Peel strides off an offset: the mixed-radix index and what remains; none beyond a count. -/
def peel : List (Nat × Nat) → Nat → Nat → Option (Nat × Nat)
  | [], off, acc => some (acc, off)
  | (st, n) :: ds, off, acc => if off / st < n then peel ds (off % st) (acc * n + off / st) else none

/-- The registers of a block, as its chapter tables them. -/
def blkRegs : Blk → List RegSpec
  | .id => [⟨0x0, [⟨0, 32, .ro, 0x444e5552⟩]⟩, ⟨0x4, [⟨0, 16, .ro, 0x5120⟩]⟩, ⟨0x8, [⟨0, 16, .ro, 0x4201⟩]⟩,
      ⟨0xc, [⟨0, 32, .ro, 0⟩]⟩, ⟨0x10, [⟨0, 32, .ro, 0⟩]⟩, ⟨0x14, [⟨0, 32, .ro, 0x6⟩]⟩, ⟨0x18, [⟨0, 32, .ro, 0x6⟩]⟩,
      ⟨0x1c, [⟨0, 32, .ro, 0xc⟩]⟩, ⟨0x20, [⟨0, 32, .ro, 0x2⟩]⟩, ⟨0x24, [⟨0, 32, .ro, 0⟩]⟩, ⟨0x28, [⟨0, 32, .ro, 0x10003⟩]⟩,
      ⟨0x2c, [⟨0, 32, .ro, 0x1⟩]⟩,
      ⟨0x40, [⟨24, 8, .hw, 0⟩, ⟨15, 1, .hw, 0⟩, ⟨14, 1, .hw, 0⟩, ⟨13, 1, .w1c, 0⟩, ⟨12, 1, .w1c, 0⟩, ⟨11, 1, .hw, 0⟩, ⟨10, 1, .hw, 0⟩, ⟨0, 8, .hw, 0⟩]⟩,
      ⟨0x44, [⟨0, 32, .hw, 0⟩]⟩, ⟨0x80, [⟨0, 32, .hw, 0⟩]⟩, ⟨0x84, [⟨0, 32, .hw, 0⟩]⟩, ⟨0x88, [⟨0, 32, .hw, 0⟩]⟩,
      ⟨0x8c, [⟨2, 1, .hw, 0⟩, ⟨1, 1, .hw, 0⟩, ⟨0, 1, .hw, 0⟩]⟩]
  | .hid => [⟨0x0, [⟨0, 32, .ro, 0x444e5552⟩]⟩, ⟨0x4, [⟨0, 16, .ro, 0x5120⟩]⟩, ⟨0x8, [⟨0, 16, .ro, 0x4201⟩]⟩,
      ⟨0x18, [⟨0, 32, .ro, 0x6⟩]⟩, ⟨0x20, [⟨0, 32, .ro, 0x2⟩]⟩, ⟨0x24, [⟨0, 32, .ro, 0⟩]⟩, ⟨0x28, [⟨0, 32, .ro, 0⟩]⟩,
      ⟨0x80, [⟨0, 32, .hw, 0⟩]⟩, ⟨0x84, [⟨0, 32, .hw, 0⟩]⟩, ⟨0x88, [⟨0, 32, .hw, 0⟩]⟩,
      ⟨0x8c, [⟨2, 1, .hw, 0⟩, ⟨1, 1, .hw, 0⟩, ⟨0, 1, .hw, 0⟩]⟩, ⟨0x90, [⟨0, 16, .hw, 0⟩, ⟨16, 1, .hw, 0x1⟩]⟩]
  | .hboot => [
      ⟨0x0, [⟨24, 8, .hw, 0⟩, ⟨15, 1, .hw, 0⟩, ⟨14, 1, .hw, 0⟩, ⟨13, 1, .w1c, 0⟩, ⟨12, 1, .w1c, 0⟩, ⟨11, 1, .hw, 0⟩, ⟨10, 1, .hw, 0⟩, ⟨0, 8, .hw, 0⟩]⟩]
  | .regf => [⟨0x0, [⟨2, 1, .w1c, 0⟩, ⟨1, 1, .w1c, 0⟩, ⟨0, 1, .w1c, 0⟩]⟩, ⟨0x100, [⟨1, 1, .w1s, 0⟩, ⟨0, 1, .w1s, 0⟩]⟩,
      ⟨0x104, [⟨0, 14, .rw, 0x64⟩]⟩,
      ⟨0x108, [⟨16, 9, .hw, 0⟩, ⟨7, 1, .hw, 0⟩, ⟨6, 1, .w1c, 0⟩, ⟨5, 1, .w1c, 0⟩, ⟨4, 1, .w1c, 0⟩, ⟨1, 1, .hw, 0⟩, ⟨0, 1, .hw, 0⟩]⟩,
      ⟨0xe00, [⟨16, 4, .hw, 0⟩, ⟨11, 5, .hw, 0⟩, ⟨3, 1, .w1c, 0⟩, ⟨2, 1, .w1c, 0⟩, ⟨1, 1, .hw, 0⟩, ⟨0, 1, .hw, 0⟩]⟩,
      ⟨0xe04, [⟨0, 4, .rw, 0x2⟩]⟩, ⟨0xe08, [⟨0, 32, .cnt, 0⟩]⟩, ⟨0xe0c, [⟨0, 32, .cnt, 0⟩]⟩]
  | .crcRef => [⟨0x0, [⟨0, 32, .rw, 0⟩]⟩]
  | .crcVal => [⟨0x0, [⟨0, 32, .hw, 0⟩]⟩]
  | .flt => [⟨0x0, [⟨0, 1, .wo1, 0⟩]⟩, ⟨0x4, [⟨3, 1, .hw, 0⟩, ⟨2, 1, .w1c, 0⟩, ⟨1, 1, .w1c, 0⟩, ⟨0, 1, .hw, 0⟩]⟩,
      ⟨0x8, [⟨0, 16, .cnt, 0⟩]⟩, ⟨0xc, [⟨0, 32, .cnt, 0⟩]⟩, ⟨0x10, [⟨31, 1, .hw, 0⟩, ⟨8, 10, .hw, 0⟩, ⟨0, 8, .hw, 0⟩]⟩,
      ⟨0x14, [⟨0, 32, .hw, 0⟩]⟩, ⟨0x18, [⟨0, 32, .hw, 0⟩]⟩, ⟨0x1c, [⟨3, 1, .hw, 0⟩, ⟨0, 2, .hw, 0⟩]⟩,
      ⟨0x20, [⟨0, 32, .hw, 0⟩]⟩, ⟨0x24, [⟨0, 32, .hw, 0⟩]⟩, ⟨0x28, [⟨0, 32, .hw, 0⟩]⟩, ⟨0x2c, [⟨0, 32, .hw, 0⟩]⟩,
      ⟨0x40, [⟨1, 1, .w1s, 0⟩, ⟨0, 1, .w1s, 0⟩]⟩,
      ⟨0x44, [⟨16, 16, .cnt, 0⟩, ⟨8, 5, .hw, 0⟩, ⟨4, 4, .hw, 0⟩, ⟨3, 1, .hw, 0⟩, ⟨2, 1, .w1c, 0⟩, ⟨1, 1, .w1c, 0⟩, ⟨0, 1, .hw, 0⟩]⟩,
      ⟨0x1000, [⟨24, 8, .rw, 0⟩, ⟨16, 8, .rw, 0⟩, ⟨14, 2, .rw, 0⟩, ⟨2, 10, .rw, 0⟩, ⟨1, 1, .w1s, 0⟩, ⟨0, 1, .w1s, 0⟩]⟩,
      ⟨0x1004, [⟨0, 32, .rw, 0⟩]⟩, ⟨0x1008, [⟨0, 3, .hw, 0⟩]⟩]
  | .attic => [⟨0x0, [⟨0, 32, .hw, 0⟩]⟩, ⟨0x4, [⟨0, 32, .hw, 0⟩]⟩, ⟨0x8, [⟨0, 32, .hw, 0⟩]⟩, ⟨0xc, [⟨0, 32, .hw, 0⟩]⟩]
  | .src => [⟨0x0, [⟨4, 1, .rwl, 0⟩, ⟨3, 1, .rwl, 0⟩, ⟨2, 1, .rwl, 0⟩, ⟨1, 1, .rwl, 0⟩, ⟨0, 1, .rwl, 0⟩]⟩,
      ⟨0x4, [⟨16, 16, .cnt, 0⟩, ⟨0, 1, .w1c, 0⟩]⟩]
  | .srcAct => [⟨0x0, [⟨0, 32, .hw, 0⟩]⟩]
  | .pll => [⟨0x0, [⟨0, 8, .rw, 0x32⟩]⟩,
      ⟨0x4, [⟨16, 6, .hw, 0⟩, ⟨8, 4, .hw, 0⟩, ⟨7, 1, .w1c, 0⟩, ⟨6, 1, .w1c, 0⟩, ⟨5, 1, .hw, 0⟩, ⟨3, 1, .hw, 0⟩, ⟨0, 3, .hw, 0⟩]⟩,
      ⟨0x8, [⟨16, 16, .cnt, 0⟩, ⟨0, 16, .cnt, 0⟩]⟩]
  | .clk => [⟨0x0, [⟨0, 24, .rw, 0x40⟩]⟩, ⟨0x4, [⟨0, 16, .rw, 0x1⟩]⟩, ⟨0x8, [⟨0, 1, .w1s, 0⟩]⟩,
      ⟨0xc, [⟨4, 1, .w1c, 0⟩, ⟨3, 1, .w1c, 0⟩, ⟨2, 1, .hw, 0⟩, ⟨1, 1, .hw, 0⟩]⟩, ⟨0x10, [⟨0, 32, .hw, 0⟩]⟩,
      ⟨0x20, [⟨16, 1, .hw, 0⟩, ⟨0, 16, .hw, 0⟩]⟩, ⟨0x40, [⟨0, 32, .hw, 0⟩]⟩,
      ⟨0x44, [⟨21, 8, .hw, 0⟩, ⟨17, 4, .hw, 0⟩, ⟨1, 16, .hw, 0⟩, ⟨0, 1, .hw, 0⟩]⟩]
  | .time => [⟨0x0, [⟨0, 32, .hw, 0⟩]⟩, ⟨0x4, [⟨0, 32, .hw, 0⟩]⟩, ⟨0x8, [⟨2, 1, .w1c, 0⟩, ⟨1, 1, .hw, 0⟩, ⟨0, 1, .hw, 0⟩]⟩,
      ⟨0x10, [⟨0, 32, .hw, 0⟩]⟩, ⟨0x14, [⟨0, 32, .hw, 0⟩]⟩, ⟨0x18, [⟨0, 16, .hw, 0⟩]⟩, ⟨0x20, [⟨0, 32, .rw, 0⟩]⟩,
      ⟨0x24, [⟨0, 32, .rw, 0⟩]⟩, ⟨0x28, [⟨0, 16, .rw, 0⟩]⟩, ⟨0x30, [⟨0, 32, .rw, 0⟩]⟩, ⟨0x34, [⟨0, 32, .rw, 0⟩]⟩,
      ⟨0x38, [⟨4, 1, .rw, 0⟩, ⟨2, 2, .rw, 0⟩, ⟨1, 1, .w1s, 0⟩, ⟨0, 1, .w1s, 0⟩]⟩,
      ⟨0x3c, [⟨8, 3, .hw, 0⟩, ⟨7, 1, .hw, 0⟩, ⟨6, 1, .w1c, 0⟩, ⟨5, 1, .w1c, 0⟩, ⟨4, 1, .w1c, 0⟩, ⟨3, 1, .w1c, 0⟩, ⟨0, 2, .hw, 0⟩]⟩,
      ⟨0x40, [⟨0, 32, .hw, 0⟩]⟩, ⟨0x44, [⟨0, 32, .hw, 0⟩]⟩, ⟨0x48, [⟨16, 16, .cnt, 0⟩, ⟨0, 16, .hw, 0⟩]⟩,
      ⟨0x4c, [⟨0, 32, .rw, 0⟩]⟩]
  | .cal => [⟨0x0, [⟨0, 1, .rw, 0⟩]⟩, ⟨0x4, [⟨2, 1, .w1c, 0⟩, ⟨1, 1, .w1c, 0⟩, ⟨0, 1, .hw, 0x1⟩]⟩,
      ⟨0x8, [⟨0, 22, .rw, 0⟩]⟩, ⟨0xc, [⟨0, 28, .rw, 0⟩]⟩, ⟨0x10, [⟨0, 22, .hw, 0⟩]⟩, ⟨0x14, [⟨0, 28, .hw, 0⟩]⟩,
      ⟨0x18, [⟨6, 1, .hw, 0⟩, ⟨5, 1, .hw, 0⟩, ⟨4, 1, .hw, 0⟩, ⟨2, 1, .hw, 0⟩, ⟨1, 1, .hw, 0⟩, ⟨0, 1, .hw, 0⟩]⟩,
      ⟨0x20, [⟨12, 4, .rw, 0x6⟩, ⟨1, 1, .w1s, 0⟩, ⟨0, 1, .w1s, 0⟩]⟩, ⟨0x24, [⟨8, 3, .hw, 0⟩, ⟨0, 1, .hw, 0⟩]⟩]
  | .calRoom => [⟨0x0, [⟨1, 1, .w1s, 0⟩, ⟨0, 1, .w1s, 0⟩]⟩,
      ⟨0x4, [⟨24, 8, .cnt, 0⟩, ⟨12, 4, .hw, 0⟩, ⟨8, 3, .hw, 0⟩, ⟨6, 2, .hw, 0⟩, ⟨5, 1, .hw, 0⟩, ⟨4, 1, .hw, 0⟩, ⟨3, 1, .hw, 0x1⟩, ⟨0, 3, .hw, 0⟩]⟩,
      ⟨0x8, [⟨0, 32, .hw, 0⟩]⟩, ⟨0xc, [⟨0, 16, .hw, 0⟩]⟩, ⟨0x10, [⟨0, 16, .hw, 0⟩]⟩]
  | .calQuad => [⟨0x0, [⟨1, 1, .w1s, 0⟩, ⟨0, 1, .w1s, 0⟩]⟩,
      ⟨0x4, [⟨24, 8, .cnt, 0⟩, ⟨12, 4, .hw, 0⟩, ⟨8, 3, .hw, 0⟩, ⟨6, 2, .hw, 0⟩, ⟨5, 1, .hw, 0⟩, ⟨4, 1, .hw, 0⟩, ⟨3, 1, .hw, 0x1⟩, ⟨0, 3, .hw, 0⟩]⟩]
  | .trace => [⟨0x0, [⟨0, 32, .hw, 0⟩]⟩]
  | .dskMask => [⟨0x0, [⟨0, 32, .rw, 0⟩]⟩]
  | .dskLane => [⟨0x0, [⟨12, 1, .rw, 0⟩, ⟨10, 2, .rw, 0⟩, ⟨0, 10, .rw, 0⟩]⟩,
      ⟨0x4, [⟨29, 3, .hw, 0⟩, ⟨27, 2, .hw, 0⟩, ⟨16, 8, .hw, 0⟩, ⟨0, 16, .hw, 0⟩]⟩]
  | .pwr => [⟨0x0, [⟨0, 21, .rw, 0⟩]⟩, ⟨0x4, [⟨0, 2, .rw, 0x3⟩]⟩, ⟨0x8, [⟨1, 1, .w1s, 0⟩, ⟨0, 1, .w1s, 0⟩]⟩,
      ⟨0xc, [⟨16, 6, .hw, 0⟩, ⟨12, 1, .w1c, 0⟩, ⟨8, 4, .hw, 0⟩, ⟨4, 1, .hw, 0⟩, ⟨3, 1, .hw, 0⟩, ⟨0, 3, .hw, 0⟩]⟩,
      ⟨0x10, [⟨0, 32, .cnt, 0⟩]⟩]
  | .pwrRes => [⟨0x0, [⟨0, 32, .cnt, 0⟩]⟩]
  | .mcnt => [
      ⟨0x0, [⟨31, 1, .rw, 0⟩, ⟨26, 5, .rw, 0⟩, ⟨25, 1, .rw, 0⟩, ⟨20, 5, .rw, 0⟩, ⟨19, 1, .rw, 0⟩, ⟨14, 5, .rw, 0⟩, ⟨0, 10, .rw, 0⟩]⟩,
      ⟨0x4, [⟨3, 1, .w1s, 0⟩, ⟨2, 1, .w1s, 0⟩, ⟨1, 1, .w1s, 0⟩, ⟨0, 1, .w1s, 0⟩]⟩,
      ⟨0x8, [⟨1, 1, .w1c, 0⟩, ⟨0, 1, .hw, 0⟩]⟩, ⟨0xc, [⟨0, 32, .cnt, 0⟩]⟩, ⟨0x10, [⟨0, 16, .cnt, 0⟩]⟩,
      ⟨0x14, [⟨0, 32, .hw, 0⟩]⟩, ⟨0x18, [⟨0, 16, .hw, 0⟩]⟩]
  | .pmat => [⟨0x0, [⟨0, 32, .rw, 0⟩]⟩]
  | .tmat => [⟨0x0, [⟨0, 32, .rw, 0⟩]⟩]
  | .hall => [⟨0x0, [⟨0, 13, .rw, 0x40⟩]⟩, ⟨0x4, [⟨0, 21, .rw, 0x960⟩]⟩, ⟨0x8, [⟨0, 1, .w1c, 0⟩]⟩, ⟨0xc, [⟨0, 32, .wo, 0⟩]⟩]
  | .grpCtl => [
      ⟨0x0, [⟨25, 1, .rw, 0⟩, ⟨24, 1, .rw, 0⟩, ⟨16, 8, .rw, 0⟩, ⟨8, 8, .rw, 0⟩, ⟨1, 1, .w1s, 0⟩, ⟨0, 1, .w1s, 0⟩]⟩]
  | .grpStat => [⟨0x0, [⟨4, 8, .hw, 0⟩, ⟨2, 1, .w1c, 0⟩, ⟨1, 1, .w1c, 0⟩, ⟨0, 1, .hw, 0x1⟩]⟩]
  | .fgd => [⟨0x0, [⟨0, 16, .rw, 0⟩]⟩]
  | .tmr => [⟨0x0, [⟨0, 2, .rw, 0⟩]⟩, ⟨0x4, [⟨0, 32, .rw, 0⟩]⟩, ⟨0x8, [⟨0, 32, .rw, 0⟩]⟩, ⟨0xc, [⟨0, 32, .rw, 0⟩]⟩,
      ⟨0x10, [⟨16, 16, .rw, 0⟩, ⟨0, 16, .rw, 0⟩]⟩, ⟨0x14, [⟨0, 32, .cnt, 0⟩]⟩]
  | .trigIn => [⟨0x0, [⟨0, 2, .rw, 0⟩]⟩, ⟨0x4, [⟨0, 32, .hw, 0⟩]⟩, ⟨0x8, [⟨0, 32, .hw, 0⟩]⟩, ⟨0xc, [⟨0, 32, .cnt, 0⟩]⟩]
  | .trigOut => [⟨0x0, [⟨24, 8, .rw, 0x1⟩, ⟨2, 1, .rw, 0⟩, ⟨0, 2, .rw, 0⟩]⟩,
      ⟨0x4, [⟨22, 10, .rw, 0⟩, ⟨20, 2, .rw, 0⟩, ⟨8, 12, .rw, 0x20⟩]⟩, ⟨0x8, [⟨0, 16, .rw, 0⟩]⟩]
  | .exp => [⟨0x0, [⟨31, 1, .rw, 0⟩, ⟨30, 1, .rw, 0⟩, ⟨29, 1, .rw, 0⟩, ⟨10, 6, .rw, 0⟩, ⟨0, 10, .rw, 0⟩]⟩,
      ⟨0x4, [⟨0, 32, .cnt, 0⟩]⟩, ⟨0x8, [⟨0, 32, .cnt, 0⟩]⟩]
  | .imp => [⟨0x0, [⟨3, 1, .w1c, 0⟩, ⟨2, 1, .w1c, 0⟩, ⟨1, 1, .w1c, 0⟩, ⟨0, 1, .w1c, 0⟩]⟩, ⟨0x4, [⟨0, 32, .cnt, 0⟩]⟩,
      ⟨0x8, [⟨0, 32, .cnt, 0⟩]⟩]
  | .ntMerged => [⟨0x0, [⟨0, 32, .w1c, 0⟩]⟩]
  | .ntCoinc => [⟨0x0, [⟨0, 32, .cntw, 0⟩]⟩]
  | .st => [⟨0x0, [⟨8, 4, .hw, 0⟩, ⟨0, 2, .hw, 0⟩]⟩, ⟨0x4, [⟨1, 2, .rw, 0⟩, ⟨0, 1, .w1s, 0⟩]⟩,
      ⟨0x8, [⟨16, 16, .hw, 0⟩, ⟨3, 1, .w1c, 0⟩, ⟨0, 2, .hw, 0⟩]⟩, ⟨0x10, [⟨16, 16, .rw, 0xc8⟩, ⟨0, 16, .rw, 0x28⟩]⟩,
      ⟨0x14, [⟨2, 1, .rw, 0x1⟩, ⟨1, 1, .rw, 0x1⟩, ⟨0, 1, .rw, 0x1⟩]⟩, ⟨0x18, [⟨0, 12, .rw, 0xc8⟩]⟩,
      ⟨0x40, [⟨0, 16, .rw, 0x800⟩]⟩, ⟨0xa0, [⟨0, 8, .rw, 0x18⟩]⟩, ⟨0x1000, [⟨8, 1, .wo1, 0⟩, ⟨0, 6, .rwl, 0x8⟩]⟩,
      ⟨0x1004, [⟨3, 1, .w1c, 0⟩, ⟨2, 1, .w1c, 0⟩, ⟨1, 1, .hw, 0⟩, ⟨0, 1, .hw, 0⟩]⟩]
  | .stTemp => [⟨0x0, [⟨16, 1, .hw, 0x1⟩, ⟨0, 16, .hw, 0⟩]⟩]
  | .stRef => [⟨0x0, [⟨16, 16, .cnt, 0⟩, ⟨1, 3, .w1c, 0⟩, ⟨0, 1, .hw, 0x1⟩]⟩]
  | .rhCnt => [⟨0x0, [⟨0, 32, .cnt, 0⟩]⟩]
  | .ecc => [⟨0x0, [⟨0, 32, .cnt, 0⟩]⟩, ⟨0x4, [⟨0, 32, .cnt, 0⟩]⟩,
      ⟨0x8, [⟨16, 1, .w1c, 0⟩, ⟨8, 8, .rw, 0x4⟩, ⟨0, 8, .hw, 0⟩]⟩, ⟨0xc, [⟨0, 32, .hw, 0⟩]⟩]
  | .stPort => [⟨0x0, [⟨0, 16, .rw, 0x7d0⟩]⟩]
  | .stPromo => [⟨0x0, [⟨0, 32, .cnt, 0⟩]⟩]
  | .dly => [⟨0x0, [⟨0, 8, .rwl, 0⟩]⟩]
  | .shadow => [⟨0x0, [⟨0, 32, .rwl, 0⟩]⟩]
  | .fab => [⟨0x0, [⟨31, 1, .rw, 0⟩, ⟨16, 10, .rw, 0⟩, ⟨2, 1, .rw, 0⟩, ⟨0, 2, .rw, 0x3⟩]⟩,
      ⟨0x4, [⟨31, 1, .hw, 0⟩, ⟨30, 1, .hw, 0⟩, ⟨29, 1, .hw, 0⟩, ⟨24, 5, .hw, 0⟩, ⟨21, 3, .hw, 0⟩, ⟨10, 11, .hw, 0⟩, ⟨0, 10, .hw, 0⟩]⟩,
      ⟨0x8, [⟨6, 1, .w1c, 0⟩, ⟨5, 1, .w1c, 0⟩, ⟨4, 1, .hw, 0⟩, ⟨3, 1, .w1c, 0⟩, ⟨2, 1, .w1c, 0⟩, ⟨1, 1, .w1c, 0⟩, ⟨0, 1, .w1c, 0⟩]⟩,
      ⟨0xc, [⟨11, 1, .w1s, 0⟩, ⟨10, 1, .w1s, 0⟩, ⟨0, 10, .rw, 0⟩]⟩, ⟨0x10, [⟨0, 32, .hw, 0⟩]⟩, ⟨0x14, [⟨0, 32, .hw, 0⟩]⟩,
      ⟨0x18, [⟨0, 32, .ro, 0⟩]⟩, ⟨0x1c, [⟨0, 32, .ro, 0⟩]⟩, ⟨0x20, [⟨0, 32, .hw, 0⟩]⟩, ⟨0x24, [⟨0, 32, .cnt, 0⟩]⟩,
      ⟨0x30, [⟨16, 7, .rw, 0⟩, ⟨0, 10, .rw, 0⟩]⟩,
      ⟨0x34, [⟨3, 1, .w1c, 0⟩, ⟨2, 1, .w1c, 0⟩, ⟨1, 1, .w1c, 0⟩, ⟨0, 1, .hw, 0⟩]⟩,
      ⟨0x40, [⟨16, 16, .cnt, 0⟩, ⟨15, 1, .w1s, 0⟩, ⟨0, 5, .hw, 0⟩]⟩]
  | .fport => [⟨0x0, [⟨16, 16, .rw, 0⟩, ⟨0, 1, .rw, 0x1⟩]⟩,
      ⟨0x4, [⟨16, 3, .hw, 0⟩, ⟨12, 4, .hw, 0⟩, ⟨8, 4, .hw, 0⟩, ⟨4, 2, .hw, 0⟩, ⟨0, 3, .hw, 0⟩]⟩, ⟨0x8, [⟨0, 32, .hw, 0⟩]⟩,
      ⟨0xc, [⟨0, 32, .hw, 0⟩]⟩, ⟨0x10, [⟨0, 32, .hw, 0⟩]⟩, ⟨0x14, [⟨0, 32, .cnt, 0⟩]⟩]
  | .rnote => [⟨0x0, [⟨0, 32, .hw, 0⟩]⟩, ⟨0x4, [⟨0, 32, .hw, 0⟩]⟩, ⟨0x8, [⟨0, 32, .hw, 0⟩]⟩, ⟨0xc, [⟨0, 32, .hw, 0⟩]⟩,
      ⟨0x10, [⟨0, 10, .hw, 0⟩]⟩]
  | .cens => [⟨0x0, [⟨0, 32, .hw, 0⟩]⟩, ⟨0x4, [⟨0, 32, .hw, 0⟩]⟩, ⟨0x8, [⟨0, 32, .hw, 0⟩]⟩, ⟨0xc, [⟨0, 32, .hw, 0⟩]⟩,
      ⟨0x10, [⟨8, 1, .hw, 0⟩, ⟨3, 5, .hw, 0⟩, ⟨0, 2, .hw, 0⟩]⟩]
  | .ring => [⟨0x0, [⟨31, 1, .rw, 0⟩, ⟨29, 2, .rw, 0⟩, ⟨14, 10, .rw, 0⟩, ⟨0, 14, .rw, 0⟩]⟩,
      ⟨0x4, [⟨16, 16, .rw, 0x100⟩, ⟨0, 10, .rw, 0⟩]⟩, ⟨0x8, [⟨0, 32, .hw, 0⟩]⟩, ⟨0xc, [⟨0, 32, .hw, 0⟩]⟩,
      ⟨0x10, [⟨0, 32, .hw, 0⟩]⟩,
      ⟨0x14, [⟨7, 1, .w1c, 0⟩, ⟨6, 1, .w1c, 0⟩, ⟨5, 1, .w1c, 0⟩, ⟨4, 1, .w1c, 0⟩, ⟨3, 1, .w1c, 0⟩, ⟨2, 1, .w1c, 0⟩, ⟨1, 1, .w1c, 0⟩, ⟨0, 1, .hw, 0⟩]⟩,
      ⟨0x18, [⟨0, 32, .cnt, 0⟩]⟩, ⟨0x1c, [⟨0, 32, .cnt, 0⟩]⟩]
  | .rings => [⟨0x0, [⟨7, 1, .w1c, 0⟩, ⟨4, 2, .wo, 0⟩, ⟨2, 1, .hw, 0⟩, ⟨0, 2, .hw, 0⟩]⟩]
  | .eng => [⟨0x0, [⟨3, 1, .w1s, 0⟩, ⟨2, 1, .w1s, 0⟩, ⟨1, 1, .w1s, 0⟩, ⟨0, 1, .w1s, 0⟩]⟩,
      ⟨0x4, [⟨8, 1, .rw, 0⟩, ⟨6, 2, .rw, 0⟩, ⟨5, 1, .rw, 0⟩, ⟨2, 3, .rw, 0⟩, ⟨0, 2, .rw, 0⟩]⟩, ⟨0x8, [⟨0, 14, .rw, 0⟩]⟩,
      ⟨0xc, [⟨0, 12, .rw, 0⟩]⟩,
      ⟨0x10, [⟨22, 10, .rw, 0⟩, ⟨19, 3, .rw, 0⟩, ⟨12, 7, .rw, 0⟩, ⟨1, 1, .rw, 0⟩, ⟨0, 1, .rw, 0⟩]⟩,
      ⟨0x18, [⟨0, 32, .rw, 0⟩]⟩, ⟨0x1c, [⟨0, 32, .rw, 0⟩]⟩,
      ⟨0x20, [⟨19, 1, .w1c, 0⟩, ⟨18, 1, .hw, 0⟩, ⟨17, 1, .w1c, 0⟩, ⟨16, 1, .hw, 0⟩, ⟨12, 4, .hw, 0⟩, ⟨11, 1, .w1c, 0⟩, ⟨8, 3, .hw, 0⟩, ⟨7, 1, .w1c, 0⟩, ⟨6, 1, .w1c, 0⟩, ⟨5, 1, .w1c, 0⟩, ⟨4, 1, .w1c, 0⟩, ⟨3, 1, .hw, 0⟩, ⟨0, 3, .hw, 0⟩]⟩,
      ⟨0x24, [⟨16, 12, .hw, 0⟩, ⟨0, 12, .hw, 0⟩]⟩, ⟨0x28, [⟨0, 14, .hw, 0⟩]⟩, ⟨0x2c, [⟨0, 32, .hw, 0⟩]⟩,
      ⟨0x30, [⟨16, 8, .w1c, 0⟩, ⟨8, 8, .w1c, 0⟩, ⟨0, 8, .w1c, 0⟩]⟩, ⟨0x34, [⟨0, 8, .wo, 0⟩]⟩, ⟨0x38, [⟨0, 32, .cntw, 0⟩]⟩,
      ⟨0x40, [⟨0, 32, .cnt, 0⟩]⟩, ⟨0x44, [⟨0, 32, .cnt, 0⟩]⟩, ⟨0x48, [⟨0, 32, .hw, 0⟩]⟩, ⟨0x4c, [⟨0, 32, .hw, 0⟩]⟩,
      ⟨0x50, [⟨31, 1, .w1c, 0⟩, ⟨28, 3, .hw, 0⟩, ⟨20, 8, .hw, 0⟩, ⟨0, 14, .hw, 0⟩]⟩, ⟨0x54, [⟨0, 32, .hw, 0⟩]⟩,
      ⟨0x58, [⟨7, 1, .hw, 0⟩, ⟨4, 3, .hw, 0⟩, ⟨0, 4, .hw, 0⟩]⟩, ⟨0x5c, [⟨0, 32, .hw, 0⟩]⟩, ⟨0x60, [⟨0, 32, .hw, 0⟩]⟩,
      ⟨0x64, [⟨0, 32, .cnt, 0⟩]⟩]
  | .lt => [⟨0x0, [⟨0, 32, .rw, 0⟩]⟩, ⟨0x4, [⟨0, 16, .rw, 0⟩]⟩, ⟨0x8, [⟨0, 32, .rw, 0⟩]⟩, ⟨0xc, [⟨0, 16, .rw, 0⟩]⟩,
      ⟨0x10, [⟨4, 4, .rw, 0⟩, ⟨0, 4, .rw, 0⟩]⟩,
      ⟨0x14, [⟨24, 4, .hw, 0⟩, ⟨20, 4, .hw, 0⟩, ⟨10, 1, .w1c, 0⟩, ⟨9, 1, .w1c, 0⟩, ⟨8, 1, .w1c, 0⟩, ⟨4, 4, .hw, 0⟩, ⟨0, 4, .hw, 0⟩]⟩,
      ⟨0x18, [⟨0, 32, .hw, 0⟩]⟩, ⟨0x1c, [⟨0, 16, .hw, 0⟩]⟩, ⟨0x20, [⟨0, 32, .hw, 0⟩]⟩, ⟨0x24, [⟨0, 16, .hw, 0⟩]⟩]
  | .ts => [⟨0x0, [⟨4, 1, .rw, 0⟩, ⟨0, 2, .rw, 0⟩]⟩, ⟨0x4, [⟨16, 16, .rw, 0⟩, ⟨0, 14, .rw, 0⟩]⟩,
      ⟨0x8, [⟨16, 16, .rw, 0⟩, ⟨0, 14, .rw, 0⟩]⟩, ⟨0xc, [⟨16, 16, .rw, 0⟩, ⟨0, 14, .rw, 0⟩]⟩,
      ⟨0x10, [⟨16, 16, .rw, 0⟩, ⟨0, 14, .rw, 0⟩]⟩]
  | .le => [⟨0x0, [⟨10, 1, .rw, 0⟩, ⟨9, 1, .rw, 0⟩, ⟨8, 1, .rw, 0⟩, ⟨4, 3, .rw, 0⟩, ⟨0, 2, .rw, 0x2⟩]⟩,
      ⟨0x4, [⟨0, 3, .rw, 0⟩]⟩,
      ⟨0x8, [⟨16, 3, .hw, 0⟩, ⟨8, 1, .hw, 0⟩, ⟨7, 1, .hw, 0⟩, ⟨6, 1, .hw, 0⟩, ⟨5, 1, .w1c, 0⟩, ⟨4, 1, .w1c, 0⟩, ⟨3, 1, .w1c, 0⟩, ⟨2, 1, .w1c, 0⟩, ⟨1, 1, .w1c, 0⟩]⟩,
      ⟨0xc, [⟨0, 1, .w1s, 0⟩]⟩, ⟨0x10, [⟨0, 32, .cnt, 0⟩]⟩, ⟨0x14, [⟨0, 16, .cnt, 0⟩]⟩, ⟨0x18, [⟨0, 32, .cnt, 0⟩]⟩,
      ⟨0x1c, [⟨0, 16, .cnt, 0⟩]⟩, ⟨0x30, [⟨0, 32, .rw, 0⟩]⟩, ⟨0x34, [⟨31, 1, .rw, 0⟩, ⟨0, 28, .rw, 0⟩]⟩,
      ⟨0x38, [⟨28, 2, .hw, 0⟩, ⟨0, 28, .hw, 0⟩]⟩, ⟨0x3c, [⟨0, 32, .cnt, 0⟩]⟩, ⟨0x40, [⟨0, 32, .cnt, 0⟩]⟩,
      ⟨0x44, [⟨4, 1, .w1c, 0⟩, ⟨3, 1, .hw, 0⟩, ⟨2, 1, .w1c, 0⟩, ⟨1, 1, .w1c, 0⟩, ⟨0, 1, .w1c, 0⟩]⟩]
  | .ls => [⟨0x0, [⟨16, 12, .rw, 0x960⟩, ⟨0, 12, .rw, 0x640⟩]⟩, ⟨0x4, [⟨16, 16, .rw, 0x320⟩, ⟨0, 16, .rw, 0xfce0⟩]⟩]
  | .mon => [⟨0x0, [⟨12, 4, .rw, 0⟩, ⟨8, 4, .rw, 0⟩, ⟨2, 3, .rw, 0⟩, ⟨0, 1, .w1s, 0⟩]⟩,
      ⟨0x4, [⟨3, 1, .w1c, 0⟩, ⟨2, 1, .hw, 0⟩, ⟨1, 1, .w1c, 0⟩, ⟨0, 1, .hw, 0⟩]⟩, ⟨0x8, [⟨0, 32, .hw, 0⟩]⟩]
  | .xl => [⟨0x0, [⟨0, 32, .rw, 0x540be400⟩]⟩, ⟨0x4, [⟨0, 4, .rw, 0x2⟩]⟩, ⟨0x8, [⟨0, 32, .rw, 0⟩]⟩,
      ⟨0xc, [⟨0, 16, .rw, 0⟩]⟩, ⟨0x10, [⟨6, 1, .rw, 0⟩, ⟨5, 1, .rw, 0⟩, ⟨4, 1, .rw, 0⟩, ⟨0, 4, .rw, 0⟩]⟩,
      ⟨0x14, [⟨16, 7, .rw, 0x3c⟩, ⟨8, 5, .rw, 0⟩, ⟨0, 5, .rw, 0⟩]⟩,
      ⟨0x18, [⟨16, 1, .rw, 0⟩, ⟨8, 4, .rw, 0x6⟩, ⟨4, 1, .rw, 0x1⟩, ⟨0, 1, .rw, 0x1⟩]⟩,
      ⟨0x1c, [⟨16, 6, .rw, 0x8⟩, ⟨0, 16, .rw, 0⟩]⟩,
      ⟨0x20, [⟨11, 1, .w1c, 0⟩, ⟨10, 1, .w1c, 0⟩, ⟨9, 1, .w1c, 0⟩, ⟨8, 1, .w1c, 0⟩, ⟨7, 1, .w1c, 0⟩, ⟨6, 1, .w1c, 0⟩, ⟨5, 1, .w1c, 0⟩, ⟨4, 1, .hw, 0x1⟩, ⟨3, 1, .hw, 0⟩, ⟨0, 2, .hw, 0⟩]⟩,
      ⟨0x24, [⟨24, 8, .cnt, 0⟩, ⟨8, 16, .cnt, 0⟩, ⟨0, 7, .hw, 0⟩]⟩, ⟨0x28, [⟨0, 32, .hw, 0⟩]⟩, ⟨0x2c, [⟨0, 4, .hw, 0⟩]⟩,
      ⟨0x30, [⟨0, 32, .cnt, 0⟩]⟩, ⟨0x34, [⟨0, 16, .cnt, 0⟩]⟩, ⟨0x38, [⟨0, 32, .cnt, 0⟩]⟩, ⟨0x3c, [⟨0, 16, .cnt, 0⟩]⟩,
      ⟨0x40, [⟨0, 1, .w1s, 0⟩]⟩, ⟨0x50, [⟨0, 32, .rw, 0⟩]⟩, ⟨0x54, [⟨31, 1, .rw, 0⟩, ⟨0, 28, .rw, 0⟩]⟩,
      ⟨0x58, [⟨28, 2, .hw, 0⟩, ⟨0, 28, .hw, 0⟩]⟩, ⟨0x5c, [⟨0, 32, .cnt, 0⟩]⟩, ⟨0x60, [⟨0, 32, .cnt, 0⟩]⟩,
      ⟨0x64, [⟨4, 1, .w1c, 0⟩, ⟨3, 1, .hw, 0⟩, ⟨2, 1, .w1c, 0⟩, ⟨1, 1, .w1c, 0⟩, ⟨0, 1, .w1c, 0⟩]⟩,
      ⟨0x7c, [⟨0, 4, .hw, 0⟩]⟩]
  | .dfe => [⟨0x0, [⟨0, 8, .hw, 0⟩]⟩]
  | .xq => [⟨0x0, [⟨0, 32, .hw, 0⟩]⟩, ⟨0x4, [⟨0, 4, .hw, 0⟩]⟩, ⟨0x8, [⟨16, 16, .cnt, 0⟩, ⟨2, 2, .hw, 0⟩, ⟨0, 1, .hw, 0⟩]⟩]
  | .seg => [⟨0x0, [⟨0, 32, .rw, 0⟩]⟩, ⟨0x4, [⟨0, 32, .rw, 0⟩]⟩,
      ⟨0x8, [⟨16, 15, .hw, 0⟩, ⟨12, 2, .hw, 0⟩, ⟨11, 1, .w1s, 0⟩, ⟨10, 1, .rw, 0⟩, ⟨9, 1, .rw, 0⟩, ⟨8, 1, .rw, 0⟩, ⟨4, 3, .rw, 0⟩, ⟨3, 1, .rw, 0⟩, ⟨0, 3, .rw, 0⟩]⟩,
      ⟨0xc, [⟨31, 1, .rw, 0⟩, ⟨16, 13, .rw, 0⟩, ⟨8, 8, .rw, 0⟩, ⟨0, 7, .rw, 0⟩]⟩]
  | .pan => [⟨0x0, [⟨16, 14, .hw, 0⟩, ⟨5, 1, .w1c, 0⟩, ⟨4, 1, .w1c, 0⟩, ⟨3, 1, .w1c, 0⟩, ⟨2, 1, .hw, 0⟩, ⟨1, 1, .hw, 0⟩]⟩,
      ⟨0x4, [⟨16, 13, .hw, 0x1e70⟩, ⟨0, 13, .hw, 0x1e70⟩]⟩]
  | .lstep => [⟨0x0, [⟨16, 16, .cnt, 0⟩, ⟨13, 1, .hw, 0⟩, ⟨8, 5, .hw, 0⟩, ⟨4, 2, .hw, 0⟩, ⟨0, 4, .hw, 0⟩]⟩]
  | .msix => [⟨0x0, [⟨0, 32, .rw, 0⟩]⟩, ⟨0x4, [⟨0, 32, .rw, 0⟩]⟩, ⟨0x8, [⟨0, 32, .rw, 0⟩]⟩, ⟨0xc, [⟨0, 1, .rw, 0x1⟩]⟩]
  | .pba => [⟨0x0, [⟨0, 32, .hw, 0⟩]⟩]
  | .porch => [⟨0x0, [⟨16, 4, .hw, 0⟩, ⟨11, 5, .hw, 0⟩, ⟨3, 1, .w1c, 0⟩, ⟨2, 1, .w1c, 0⟩, ⟨1, 1, .hw, 0⟩, ⟨0, 1, .hw, 0⟩]⟩,
      ⟨0x4, [⟨0, 18, .hw, 0⟩]⟩, ⟨0x8, [⟨0, 18, .hw, 0⟩]⟩, ⟨0xc, [⟨0, 4, .rw, 0x2⟩]⟩, ⟨0x10, [⟨0, 32, .cnt, 0⟩]⟩,
      ⟨0x14, [⟨0, 32, .cnt, 0⟩]⟩, ⟨0x18, [⟨0, 32, .cnt, 0⟩]⟩]
  | .hif => [⟨0x0, [⟨0, 18, .rw, 0⟩]⟩, ⟨0x4, [⟨2, 1, .w1c, 0⟩, ⟨1, 1, .w1c, 0⟩, ⟨0, 1, .w1c, 0⟩]⟩,
      ⟨0x8, [⟨0, 32, .rw, 0⟩]⟩, ⟨0xc, [⟨0, 4, .rw, 0⟩]⟩]
  | .dmaq => [⟨0x0, [⟨6, 26, .rw, 0⟩]⟩, ⟨0x4, [⟨0, 32, .rw, 0⟩]⟩, ⟨0x8, [⟨0, 4, .rw, 0x4⟩]⟩, ⟨0xc, [⟨0, 12, .rw, 0⟩]⟩,
      ⟨0x10, [⟨0, 12, .hw, 0⟩]⟩, ⟨0x14, [⟨2, 1, .w1s, 0⟩, ⟨1, 1, .w1s, 0⟩, ⟨0, 1, .rw, 0⟩]⟩,
      ⟨0x18, [⟨12, 4, .hw, 0⟩, ⟨8, 3, .hw, 0⟩, ⟨4, 1, .hw, 0⟩, ⟨0, 1, .hw, 0⟩]⟩]
  | .imem => [⟨0x0, [⟨0, 32, .rw, 0⟩]⟩, ⟨0x4, [⟨0, 32, .rw, 0⟩]⟩]

/-- The places of the blocks below 0x0100_0000. -/
def lowBlocks : List BlockSpec := [
  ⟨.id, 0x0, [], [], 0, 0x90⟩,
  ⟨.regf, 0x8000, [], [], 0, 0xe10⟩,
  ⟨.crcRef, 0x8400, [(4, 304)], [], 0, 0x4⟩,
  ⟨.crcVal, 0x8900, [(4, 304)], [], 0, 0x4⟩,
  ⟨.flt, 0x10000, [], [], 0, 0x100c⟩,
  ⟨.attic, 0x10100, [], [(16, 16)], 0, 0x10⟩,
  ⟨.src, 0x10400, [], [(8, 256)], 0, 0x8⟩,
  ⟨.srcAct, 0x10c00, [], [(4, 8)], 0, 0x4⟩,
  ⟨.pll, 0x20000, [(64, 61)], [], 0, 0xc⟩,
  ⟨.clk, 0x21000, [], [], 0, 0x48⟩,
  ⟨.time, 0x28000, [], [], 0, 0x50⟩,
  ⟨.cal, 0x30000, [], [], 0, 0x28⟩,
  ⟨.calRoom, 0x30100, [(32, 32)], [], 0, 0x14⟩,
  ⟨.calQuad, 0x30600, [(16, 16)], [], 0, 0x8⟩,
  ⟨.trace, 0x30800, [(4, 36)], [], 0, 0x4⟩,
  ⟨.dskMask, 0x30900, [(4, 16)], [], 0, 0x4⟩,
  ⟨.dskLane, 0x34000, [(8, 512)], [], 0, 0x8⟩,
  ⟨.pwr, 0x40000, [], [], 0, 0x14⟩,
  ⟨.pwrRes, 0x40020, [(4, 3)], [], 1, 0x4⟩,
  ⟨.mcnt, 0x50000, [(32, 256)], [], 0, 0x1c⟩,
  ⟨.pmat, 0x80000, [(32, 3072)], [(4, 8)], 0, 0x4⟩,
  ⟨.tmat, 0xa0000, [(32, 4752)], [(4, 8)], 0, 0x4⟩,
  ⟨.hall, 0xe0000, [], [], 0, 0x10⟩,
  ⟨.grpCtl, 0xe0100, [(4, 16)], [], 0, 0x4⟩,
  ⟨.grpStat, 0xe0140, [(4, 16)], [], 0, 0x4⟩,
  ⟨.fgd, 0xe0180, [(4, 16)], [], 0, 0x4⟩,
  ⟨.tmr, 0xe1000, [(32, 32)], [], 0, 0x18⟩,
  ⟨.trigIn, 0xe2000, [(16, 16)], [], 0, 0x10⟩,
  ⟨.trigOut, 0xe3000, [(16, 16)], [], 0, 0xc⟩,
  ⟨.exp, 0xe4000, [(16, 64)], [], 0, 0xc⟩,
  ⟨.imp, 0xe5000, [(16, 64)], [], 0, 0xc⟩,
  ⟨.ntMerged, 0xe6000, [(4, 5)], [], 0, 0x4⟩,
  ⟨.ntCoinc, 0xe6100, [(4, 144)], [], 0, 0x4⟩,
  ⟨.st, 0x100000, [], [], 0, 0x1008⟩,
  ⟨.stTemp, 0x100020, [(4, 4)], [], 0, 0x4⟩,
  ⟨.stRef, 0x100030, [(4, 4)], [], 0, 0x4⟩,
  ⟨.rhCnt, 0x100044, [(4, 4)], [], 0, 0x4⟩,
  ⟨.ecc, 0x100060, [(16, 4)], [], 0, 0x10⟩,
  ⟨.stPort, 0x100100, [(4, 53)], [], 0, 0x4⟩,
  ⟨.stPromo, 0x100200, [(4, 53)], [], 0, 0x4⟩,
  ⟨.dly, 0x110000, [(65536, 4), (16384, 4)], [(4, 2816)], 0, 0x4⟩,
  ⟨.shadow, 0x160000, [(256, 4)], [(4, 64)], 0, 0x4⟩,
  ⟨.fab, 0x200000, [], [], 0, 0x44⟩,
  ⟨.fport, 0x200100, [(64, 8)], [], 0, 0x18⟩,
  ⟨.rnote, 0x200800, [(32, 16)], [], 0, 0x14⟩,
  ⟨.cens, 0x210000, [(32, 1024)], [], 0, 0x14⟩,
  ⟨.ring, 0x300000, [(64, 256)], [], 0, 0x20⟩,
  ⟨.rings, 0x304000, [], [], 0, 0x4⟩]

/-- The places of the blocks in the room windows. -/
def roomBlocks : List BlockSpec := [
  ⟨.eng, 0x1080000, [(1048576, 32), (4096, 16)], [], 0, 0x68⟩,
  ⟨.lt, 0x1090000, [(1048576, 32), (4096, 16)], [], 0, 0x28⟩,
  ⟨.ts, 0x1090100, [(1048576, 32), (4096, 16)], [(32, 16)], 0, 0x14⟩,
  ⟨.le, 0x10b0000, [(1048576, 32), (2048, 16)], [], 0, 0x48⟩,
  ⟨.ls, 0x10b0100, [(1048576, 32), (2048, 16)], [(16, 8)], 0, 0x8⟩,
  ⟨.mon, 0x10b8000, [(1048576, 32)], [], 0, 0xc⟩,
  ⟨.seg, 0x10c0000, [(1048576, 32)], [(16, 16384)], 0, 0x10⟩,
  ⟨.pan, 0x10bf000, [(1048576, 32)], [], 0, 0x8⟩,
  ⟨.lstep, 0x10a0000, [(1048576, 32)], [], 0, 0x4⟩,
  ⟨.imem, 0x1000000, [(1048576, 32), (32768, 16)], [(8, 4096)], 0, 0x8⟩]

/-- The places of the blocks in the quad windows. -/
def quadBlocks : List BlockSpec := [
  ⟨.eng, 0x3020000, [(524288, 16), (4096, 4)], [], 512, 0x68⟩,
  ⟨.xl, 0x3030000, [(524288, 16), (4096, 4)], [], 0, 0x80⟩,
  ⟨.dfe, 0x3030080, [(524288, 16), (4096, 4)], [(4, 8)], 0, 0x4⟩,
  ⟨.xq, 0x3041000, [(524288, 16)], [], 0, 0xc⟩,
  ⟨.seg, 0x3060000, [(524288, 16)], [(16, 8192)], 32, 0x10⟩,
  ⟨.pan, 0x304f000, [(524288, 16)], [], 32, 0x8⟩,
  ⟨.lstep, 0x3040000, [(524288, 16)], [], 32, 0x4⟩,
  ⟨.imem, 0x3000000, [(524288, 16), (32768, 4)], [(8, 4096)], 512, 0x8⟩]

/-- The places of the blocks of the host tile. -/
def hostBlocks : List BlockSpec := [
  ⟨.hid, 0x3f00000, [], [], 0, 0x94⟩,
  ⟨.hboot, 0x3f50000, [], [], 0, 0x4⟩,
  ⟨.flt, 0x3f10000, [], [], 1, 0x100c⟩,
  ⟨.attic, 0x3f10100, [], [(16, 16)], 1, 0x10⟩,
  ⟨.src, 0x3f10400, [], [(8, 256)], 1, 0x8⟩,
  ⟨.srcAct, 0x3f10c00, [], [(4, 8)], 1, 0x4⟩,
  ⟨.msix, 0x3f20000, [(16, 64)], [], 0, 0x10⟩,
  ⟨.pba, 0x3f20800, [(4, 2)], [], 0, 0x4⟩,
  ⟨.porch, 0x3f30000, [], [], 0, 0x1c⟩,
  ⟨.hif, 0x3f40000, [], [], 0, 0x10⟩,
  ⟨.dmaq, 0x3f40100, [(64, 4)], [], 0, 0x1c⟩]

/-- The place of address a in one block. -/
def placeIn (a : Nat) (b : BlockSpec) : Option Place :=
  if a < b.base then none else
  match peel b.outer (a - b.base) 0 with
  | none => none
  | some (u, off) =>
    match peel b.inner off 0 with
    | none => none
    | some (k, off') =>
      match (blkRegs b.blk).find? (fun r => r.off == off') with
      | none => none
      | some r => some ⟨b.blk, b.first + u, k, r⟩

/-- The place of the word at byte address a of BAR0; none where no chapter maps it. -/
def placeOf (a : Nat) : Option Place :=
  if a % 4 ≠ 0 then none
  else if a < 0x01000000 then lowBlocks.findSome? (placeIn a)
  else if a < 0x03000000 then roomBlocks.findSome? (placeIn a)
  else if a < 0x03800000 then quadBlocks.findSome? (placeIn a)
  else if a < 0x03F00000 then none
  else hostBlocks.findSome? (placeIn a)

/-- The reset word of a list of fields. -/
def fieldsReset (fs : List FieldSpec) : Nat := fs.foldl (fun v f => v + f.reset * 2 ^ f.lo) 0

/-- The sources of R266 and R267 and the default reaction mask of each: INT (bit 0) and NMI (bit 1). -/
def srcDefault (sd : Nat) (n : Nat) : Option Nat :=
  if sd = 0 then
    if n ∈ [0, 4, 7, 112] then some 3
    else if n ∈ [5, 64, 69, 81] then some 0
    else if n ≤ 10 ∨ (16 ≤ n ∧ n ≤ 25) ∨ (32 ≤ n ∧ n ≤ 37) ∨ (48 ≤ n ∧ n ≤ 52) ∨ (65 ≤ n ∧ n ≤ 70) ∨ (80 ≤ n ∧ n ≤ 84)
        ∨ (96 ≤ n ∧ n ≤ 101) then some 1
    else none
  else
    if n ∈ [0, 1, 11, 13] then some 3
    else if n = 6 then some 0
    else if n ≤ 12 then some 1
    else none

/-- The bits of FW_VER that are not reserved (R298). -/
def fwMask : Word := 0xFFFFFF01

/-- Reset value of the word at byte address a: the reset column of its chapter's table, with the identity fuses (R298), the
default reaction masks (R266, R267), the targets of store ports 51 and 52 (R205) and the free units of a quad's empty
pantry (R53). -/
def resetWord (a : Nat) : Word :=
  if a = 0xC then Config.uid.extractLsb' 0 32
  else if a = 0x10 then Config.uid.extractLsb' 32 32
  else if a = 0x24 then Config.fwVer &&& fwMask
  else if a = 0x03F00024 then Config.hostFwVer &&& fwMask
  else if a = 0x03F00028 then Config.hostRomVer
  else if a = 0x200018 then Config.fingerprint.extractLsb' 0 32
  else if a = 0x20001C then Config.fingerprint.extractLsb' 32 32
  else
    match placeOf a with
    | none => 0
    | some p =>
      match p.blk with
      | .src => if p.reg.off = 0 then BitVec.ofNat 32 ((srcDefault p.unit p.sub).getD 0) else 0
      | .stPort => if 51 ≤ p.unit then 0x2710 else BitVec.ofNat 32 (fieldsReset p.reg.fields)
      | .pan =>
        if p.reg.off = 4 ∧ 32 ≤ p.unit then 0xd570d57 else BitVec.ofNat 32 (fieldsReset p.reg.fields)
      | _ => BitVec.ofNat 32 (fieldsReset p.reg.fields)

end Sys2Proof.Machine
end

