-- ==== Sys2Proof/Machine/Regs.lean ====
section
/-! DEFINITION. The names of the registers and of their fields: the byte address of each, and the bits of each field, as the
chapters' tables give them. -/

namespace Sys2Proof.Machine

/-- Base of room n's window (R296). -/
def roomBase (n : Nat) : Nat := 0x01000000 + 0x100000 * n
/-- Base of quad q's window (R296). -/
def quadBase (q : Nat) : Nat := 0x03000000 + 0x80000 * q
/-- Base of engine e's registers (R297). -/
def engBase (e : Nat) : Nat :=
  if e < 512 then roomBase (e / 16) + 0x80000 + 0x1000 * (e % 16) else quadBase ((e - 512) / 4) + 0x20000 + 0x1000 * (e % 4)
/-- Base of engine e's instruction store (R80, R297). -/
def imemBase (e : Nat) : Nat :=
  if e < 512 then roomBase (e / 16) + 0x8000 * (e % 16) else quadBase ((e - 512) / 4) + 0x8000 * (e % 4)
/-- Base of pin lane l's timing block (R297). -/
def laneTBase (l : Nat) : Nat := roomBase (l / 16) + 0x90000 + 0x1000 * (l % 16)
/-- Base of pin lane l's electrical block (R297). -/
def laneEBase (l : Nat) : Nat := roomBase (l / 16) + 0xB0000 + 0x800 * (l % 16)
/-- Base of express lane k's block (R297). -/
def xlaneBase (k : Nat) : Nat := quadBase (k / 4) + 0x30000 + 0x1000 * (k % 4)
/-- Base of the segment table of room or quad t (R31, R297). -/
def segBase (t : Nat) : Nat := if t < 32 then roomBase t + 0xC0000 else quadBase (t - 32) + 0x60000
/-- Base of the pantry registers of room or quad t (R53, R297). -/
def pantryBase (t : Nat) : Nat := if t < 32 then roomBase t + 0xBF000 else quadBase (t - 32) + 0x4F000
/-- Address of LSTEP of room or quad t (R78, R297). -/
def lstepBase (t : Nat) : Nat := if t < 32 then roomBase t + 0xA0000 else quadBase (t - 32) + 0x40000
/-- Base of a side's fault collector (R280, R296). -/
def faultBase : Side → Nat
  | .field => 0x00010000
  | .host => 0x03F10000

/-- The bits of a field: the address of its register, its lowest bit and its width. -/
structure FRef where
  addr : Nat
  lo : Nat
  w : Nat
  deriving DecidableEq, Repr


-- Identity, boot and mission registers, field side (R298).
def R.id_vendor : Nat := 0x0
def R.id_part : Nat := 0x4
def R.id_step : Nat := 0x8
def R.id_uidLo : Nat := 0xc
def R.id_uidHi : Nat := 0x10
def R.id_isaVer : Nat := 0x14
def R.id_porchVer : Nat := 0x18
def R.id_fabVer : Nat := 0x1c
def R.id_hcmdVer : Nat := 0x20
def R.id_fwVer : Nat := 0x24
def R.id_romVer : Nat := 0x28
def R.id_crcmap : Nat := 0x2c
def R.id_bootStat : Nat := 0x40
def R.id_readyMs : Nat := 0x44
def R.id_hrs0 : Nat := 0x80
def R.id_hrs1 : Nat := 0x84
def R.id_hrs2 : Nat := 0x88
def R.id_misStat : Nat := 0x8c
def F.id_vendor_code : FRef := ⟨R.id_vendor, 0, 32⟩
def F.id_part_part : FRef := ⟨R.id_part, 0, 16⟩
def F.id_step_rev : FRef := ⟨R.id_step, 0, 16⟩
def F.id_uidLo_uid_lo : FRef := ⟨R.id_uidLo, 0, 32⟩
def F.id_uidHi_uid_hi : FRef := ⟨R.id_uidHi, 0, 32⟩
def F.id_isaVer_levels : FRef := ⟨R.id_isaVer, 0, 32⟩
def F.id_porchVer_versions : FRef := ⟨R.id_porchVer, 0, 32⟩
def F.id_fabVer_versions : FRef := ⟨R.id_fabVer, 0, 32⟩
def F.id_hcmdVer_versions : FRef := ⟨R.id_hcmdVer, 0, 32⟩
def F.id_fwVer_version : FRef := ⟨R.id_fwVer, 0, 32⟩
def F.id_romVer_version : FRef := ⟨R.id_romVer, 0, 32⟩
def F.id_crcmap_version : FRef := ⟨R.id_crcmap, 0, 32⟩
def F.id_bootStat_err : FRef := ⟨R.id_bootStat, 24, 8⟩
def F.id_bootStat_fab_late : FRef := ⟨R.id_bootStat, 15, 1⟩
def F.id_bootStat_porch_late : FRef := ⟨R.id_bootStat, 14, 1⟩
def F.id_bootStat_early_acc : FRef := ⟨R.id_bootStat, 13, 1⟩
def F.id_bootStat_early_rst : FRef := ⟨R.id_bootStat, 12, 1⟩
def F.id_bootStat_fallback : FRef := ⟨R.id_bootStat, 11, 1⟩
def F.id_bootStat_stalled : FRef := ⟨R.id_bootStat, 10, 1⟩
def F.id_bootStat_stage : FRef := ⟨R.id_bootStat, 0, 8⟩
def F.id_readyMs_ms : FRef := ⟨R.id_readyMs, 0, 32⟩
def F.id_hrs0_hours : FRef := ⟨R.id_hrs0, 0, 32⟩
def F.id_hrs1_hours : FRef := ⟨R.id_hrs1, 0, 32⟩
def F.id_hrs2_hours : FRef := ⟨R.id_hrs2, 0, 32⟩
def F.id_misStat_hot : FRef := ⟨R.id_misStat, 2, 1⟩
def F.id_misStat_over : FRef := ⟨R.id_misStat, 1, 1⟩
def F.id_misStat_loaded : FRef := ⟨R.id_misStat, 0, 1⟩

-- Host identity, host mission and temperature (R298).
def R.hid_vendor : Nat := 0x03F00000
def R.hid_part : Nat := 0x03F00000 + 0x4
def R.hid_step : Nat := 0x03F00000 + 0x8
def R.hid_porchVer : Nat := 0x03F00000 + 0x18
def R.hid_hcmdVer : Nat := 0x03F00000 + 0x20
def R.hid_fwVer : Nat := 0x03F00000 + 0x24
def R.hid_romVer : Nat := 0x03F00000 + 0x28
def R.hid_hrs0 : Nat := 0x03F00000 + 0x80
def R.hid_hrs1 : Nat := 0x03F00000 + 0x84
def R.hid_hrs2 : Nat := 0x03F00000 + 0x88
def R.hid_misStat : Nat := 0x03F00000 + 0x8c
def R.hid_htemp : Nat := 0x03F00000 + 0x90
def F.hid_vendor_code : FRef := ⟨R.hid_vendor, 0, 32⟩
def F.hid_part_part : FRef := ⟨R.hid_part, 0, 16⟩
def F.hid_step_rev : FRef := ⟨R.hid_step, 0, 16⟩
def F.hid_porchVer_versions : FRef := ⟨R.hid_porchVer, 0, 32⟩
def F.hid_hcmdVer_versions : FRef := ⟨R.hid_hcmdVer, 0, 32⟩
def F.hid_fwVer_version : FRef := ⟨R.hid_fwVer, 0, 32⟩
def F.hid_romVer_version : FRef := ⟨R.hid_romVer, 0, 32⟩
def F.hid_hrs0_hours : FRef := ⟨R.hid_hrs0, 0, 32⟩
def F.hid_hrs1_hours : FRef := ⟨R.hid_hrs1, 0, 32⟩
def F.hid_hrs2_hours : FRef := ⟨R.hid_hrs2, 0, 32⟩
def F.hid_misStat_hot : FRef := ⟨R.hid_misStat, 2, 1⟩
def F.hid_misStat_over : FRef := ⟨R.hid_misStat, 1, 1⟩
def F.hid_misStat_loaded : FRef := ⟨R.hid_misStat, 0, 1⟩
def F.hid_htemp_temp : FRef := ⟨R.hid_htemp, 0, 16⟩
def F.hid_htemp_stale : FRef := ⟨R.hid_htemp, 16, 1⟩

-- Host boot register (R368).
def R.hboot_stat : Nat := 0x03F50000
def F.hboot_stat_err : FRef := ⟨R.hboot_stat, 24, 8⟩
def F.hboot_stat_fab_late : FRef := ⟨R.hboot_stat, 15, 1⟩
def F.hboot_stat_porch_late : FRef := ⟨R.hboot_stat, 14, 1⟩
def F.hboot_stat_early_acc : FRef := ⟨R.hboot_stat, 13, 1⟩
def F.hboot_stat_early_rst : FRef := ⟨R.hboot_stat, 12, 1⟩
def F.hboot_stat_fallback : FRef := ⟨R.hboot_stat, 11, 1⟩
def F.hboot_stat_stalled : FRef := ⟨R.hboot_stat, 10, 1⟩
def F.hboot_stat_stage : FRef := ⟨R.hboot_stat, 0, 8⟩

-- Register fabric, configuration CRC, field end of the porch (R299).
def R.regf_stat : Nat := 0x8000
def R.regf_crcCtl : Nat := 0x8000 + 0x100
def R.regf_crcCfg : Nat := 0x8000 + 0x104
def R.regf_crcStat : Nat := 0x8000 + 0x108
def R.regf_fporchStat : Nat := 0x8000 + 0xe00
def R.regf_fporchCfg : Nat := 0x8000 + 0xe04
def R.regf_fporchRetry : Nat := 0x8000 + 0xe08
def R.regf_fporchDrop : Nat := 0x8000 + 0xe0c
def F.regf_stat_frozen_wr : FRef := ⟨R.regf_stat, 2, 1⟩
def F.regf_stat_size_err : FRef := ⟨R.regf_stat, 1, 1⟩
def F.regf_stat_unmapped : FRef := ⟨R.regf_stat, 0, 1⟩
def F.regf_crcCtl_commit : FRef := ⟨R.regf_crcCtl, 1, 1⟩
def F.regf_crcCtl_open : FRef := ⟨R.regf_crcCtl, 0, 1⟩
def F.regf_crcCfg_window_max : FRef := ⟨R.regf_crcCfg, 0, 14⟩
def F.regf_crcStat_first_blk : FRef := ⟨R.regf_crcStat, 16, 9⟩
def F.regf_crcStat_armed : FRef := ⟨R.regf_crcStat, 7, 1⟩
def F.regf_crcStat_cmd_err : FRef := ⟨R.regf_crcStat, 6, 1⟩
def F.regf_crcStat_open_long : FRef := ⟨R.regf_crcStat, 5, 1⟩
def F.regf_crcStat_mismatch : FRef := ⟨R.regf_crcStat, 4, 1⟩
def F.regf_crcStat_fw_open : FRef := ⟨R.regf_crcStat, 1, 1⟩
def F.regf_crcStat_host_open : FRef := ⟨R.regf_crcStat, 0, 1⟩
def F.regf_fporchStat_ver : FRef := ⟨R.regf_fporchStat, 16, 4⟩
def F.regf_fporchStat_used : FRef := ⟨R.regf_fporchStat, 11, 5⟩
def F.regf_fporchStat_ver_err : FRef := ⟨R.regf_fporchStat, 3, 1⟩
def F.regf_fporchStat_went_down : FRef := ⟨R.regf_fporchStat, 2, 1⟩
def F.regf_fporchStat_degraded : FRef := ⟨R.regf_fporchStat, 1, 1⟩
def F.regf_fporchStat_up : FRef := ⟨R.regf_fporchStat, 0, 1⟩
def F.regf_fporchCfg_max_ver : FRef := ⟨R.regf_fporchCfg, 0, 4⟩
def F.regf_fporchRetry_n : FRef := ⟨R.regf_fporchRetry, 0, 32⟩
def F.regf_fporchDrop_n : FRef := ⟨R.regf_fporchDrop, 0, 32⟩

-- CRC references (R299).
def R.crcRef_ref (b : Nat) : Nat := 0x8400 + 4 * b
def F.crcRef_ref_crc (b : Nat) : FRef := ⟨R.crcRef_ref b, 0, 32⟩

-- CRC results (R299).
def R.crcVal_val (b : Nat) : Nat := 0x8900 + 4 * b
def F.crcVal_val_crc (b : Nat) : FRef := ⟨R.crcVal_val b, 0, 32⟩

-- Fault collector of each side (field 0x0001_0000, host 0x03F1_0000) (R280).
def R.flt_ctl (sd : Side) : Nat := faultBase sd
def R.flt_stat (sd : Side) : Nat := faultBase sd + 0x4
def R.flt_lost (sd : Side) : Nat := faultBase sd + 0x8
def R.flt_count (sd : Side) : Nat := faultBase sd + 0xc
def R.flt_fatalSrc (sd : Side) : Nat := faultBase sd + 0x10
def R.flt_fatalTimeLo (sd : Side) : Nat := faultBase sd + 0x14
def R.flt_fatalTimeHi (sd : Side) : Nat := faultBase sd + 0x18
def R.flt_alive (sd : Side) : Nat := faultBase sd + 0x1c
def R.flt_first0 (sd : Side) : Nat := faultBase sd + 0x20
def R.flt_first1 (sd : Side) : Nat := faultBase sd + 0x24
def R.flt_first2 (sd : Side) : Nat := faultBase sd + 0x28
def R.flt_first3 (sd : Side) : Nat := faultBase sd + 0x2c
def R.flt_atticCtl (sd : Side) : Nat := faultBase sd + 0x40
def R.flt_atticStat (sd : Side) : Nat := faultBase sd + 0x44
def R.flt_injCtl (sd : Side) : Nat := faultBase sd + 0x1000
def R.flt_injSyn (sd : Side) : Nat := faultBase sd + 0x1004
def R.flt_injStat (sd : Side) : Nat := faultBase sd + 0x1008
def F.flt_ctl_lock (sd : Side) : FRef := ⟨R.flt_ctl sd, 0, 1⟩
def F.flt_stat_inj_fatal (sd : Side) : FRef := ⟨R.flt_stat sd, 3, 1⟩
def F.flt_stat_reset_limit (sd : Side) : FRef := ⟨R.flt_stat sd, 2, 1⟩
def F.flt_stat_warm (sd : Side) : FRef := ⟨R.flt_stat sd, 1, 1⟩
def F.flt_stat_fatal (sd : Side) : FRef := ⟨R.flt_stat sd, 0, 1⟩
def F.flt_lost_n (sd : Side) : FRef := ⟨R.flt_lost sd, 0, 16⟩
def F.flt_count_n (sd : Side) : FRef := ⟨R.flt_count sd, 0, 32⟩
def F.flt_fatalSrc_valid (sd : Side) : FRef := ⟨R.flt_fatalSrc sd, 31, 1⟩
def F.flt_fatalSrc_unit (sd : Side) : FRef := ⟨R.flt_fatalSrc sd, 8, 10⟩
def F.flt_fatalSrc_source (sd : Side) : FRef := ⟨R.flt_fatalSrc sd, 0, 8⟩
def F.flt_fatalTimeLo_t (sd : Side) : FRef := ⟨R.flt_fatalTimeLo sd, 0, 32⟩
def F.flt_fatalTimeHi_t (sd : Side) : FRef := ⟨R.flt_fatalTimeHi sd, 0, 32⟩
def F.flt_alive_other_run (sd : Side) : FRef := ⟨R.flt_alive sd, 3, 1⟩
def F.flt_alive_own (sd : Side) : FRef := ⟨R.flt_alive sd, 0, 2⟩
def F.flt_first0_w (sd : Side) : FRef := ⟨R.flt_first0 sd, 0, 32⟩
def F.flt_first1_w (sd : Side) : FRef := ⟨R.flt_first1 sd, 0, 32⟩
def F.flt_first2_w (sd : Side) : FRef := ⟨R.flt_first2 sd, 0, 32⟩
def F.flt_first3_w (sd : Side) : FRef := ⟨R.flt_first3 sd, 0, 32⟩
def F.flt_atticCtl_release (sd : Side) : FRef := ⟨R.flt_atticCtl sd, 1, 1⟩
def F.flt_atticCtl_clear (sd : Side) : FRef := ⟨R.flt_atticCtl sd, 0, 1⟩
def F.flt_atticStat_overwritten (sd : Side) : FRef := ⟨R.flt_atticStat sd, 16, 16⟩
def F.flt_atticStat_count (sd : Side) : FRef := ⟨R.flt_atticStat sd, 8, 5⟩
def F.flt_atticStat_newest (sd : Side) : FRef := ⟨R.flt_atticStat sd, 4, 4⟩
def F.flt_atticStat_first_valid (sd : Side) : FRef := ⟨R.flt_atticStat sd, 3, 1⟩
def F.flt_atticStat_clr_err (sd : Side) : FRef := ⟨R.flt_atticStat sd, 2, 1⟩
def F.flt_atticStat_hold_timeout (sd : Side) : FRef := ⟨R.flt_atticStat sd, 1, 1⟩
def F.flt_atticStat_hold (sd : Side) : FRef := ⟨R.flt_atticStat sd, 0, 1⟩
def F.flt_injCtl_count (sd : Side) : FRef := ⟨R.flt_injCtl sd, 24, 8⟩
def F.flt_injCtl_source (sd : Side) : FRef := ⟨R.flt_injCtl sd, 16, 8⟩
def F.flt_injCtl_class (sd : Side) : FRef := ⟨R.flt_injCtl sd, 14, 2⟩
def F.flt_injCtl_unit (sd : Side) : FRef := ⟨R.flt_injCtl sd, 2, 10⟩
def F.flt_injCtl_abort (sd : Side) : FRef := ⟨R.flt_injCtl sd, 1, 1⟩
def F.flt_injCtl_go (sd : Side) : FRef := ⟨R.flt_injCtl sd, 0, 1⟩
def F.flt_injSyn_syn (sd : Side) : FRef := ⟨R.flt_injSyn sd, 0, 32⟩
def F.flt_injStat_res (sd : Side) : FRef := ⟨R.flt_injStat sd, 0, 3⟩

-- Attic slots 0-15 of each side (R274).
def R.attic_w0 (sd : Side) (i : Nat) : Nat := faultBase sd + 0x100 + 0x10 * i
def R.attic_w1 (sd : Side) (i : Nat) : Nat := faultBase sd + 0x100 + 0x10 * i + 0x4
def R.attic_w2 (sd : Side) (i : Nat) : Nat := faultBase sd + 0x100 + 0x10 * i + 0x8
def R.attic_w3 (sd : Side) (i : Nat) : Nat := faultBase sd + 0x100 + 0x10 * i + 0xc
def F.attic_w0_w (sd : Side) (i : Nat) : FRef := ⟨R.attic_w0 sd i, 0, 32⟩
def F.attic_w1_w (sd : Side) (i : Nat) : FRef := ⟨R.attic_w1 sd i, 0, 32⟩
def F.attic_w2_w (sd : Side) (i : Nat) : FRef := ⟨R.attic_w2 sd i, 0, 32⟩
def F.attic_w3_w (sd : Side) (i : Nat) : FRef := ⟨R.attic_w3 sd i, 0, 32⟩

-- Fault sources 0-255 of each side (R280).
def R.src_cfg (sd : Side) (n : Nat) : Nat := faultBase sd + 0x400 + 8 * n
def R.src_stat (sd : Side) (n : Nat) : Nat := faultBase sd + 0x400 + 8 * n + 0x4
def F.src_cfg_errpin (sd : Side) (n : Nat) : FRef := ⟨R.src_cfg sd n, 4, 1⟩
def F.src_cfg_chip_reset (sd : Side) (n : Nat) : FRef := ⟨R.src_cfg sd n, 3, 1⟩
def F.src_cfg_block_reset (sd : Side) (n : Nat) : FRef := ⟨R.src_cfg sd n, 2, 1⟩
def F.src_cfg_nmi (sd : Side) (n : Nat) : FRef := ⟨R.src_cfg sd n, 1, 1⟩
def F.src_cfg_int (sd : Side) (n : Nat) : FRef := ⟨R.src_cfg sd n, 0, 1⟩
def F.src_stat_count (sd : Side) (n : Nat) : FRef := ⟨R.src_stat sd n, 16, 16⟩
def F.src_stat_active (sd : Side) (n : Nat) : FRef := ⟨R.src_stat sd n, 0, 1⟩

-- Active mirror words 0-7 of each side (R280).
def R.srcAct_act (sd : Side) (w : Nat) : Nat := faultBase sd + 0xC00 + 4 * w
def F.srcAct_act_bits (sd : Side) (w : Nat) : FRef := ⟨R.srcAct_act sd w, 0, 32⟩

-- PLL id 0-60 (R247).
def R.pll_cfg (i : Nat) : Nat := 0x20000 + 0x40 * i
def R.pll_stat (i : Nat) : Nat := 0x20000 + 0x40 * i + 0x4
def R.pll_losses (i : Nat) : Nat := 0x20000 + 0x40 * i + 0x8
def F.pll_cfg_fmax_pm (i : Nat) : FRef := ⟨R.pll_cfg i, 0, 8⟩
def F.pll_stat_band (i : Nat) : FRef := ⟨R.pll_stat i, 16, 6⟩
def F.pll_stat_cause (i : Nat) : FRef := ⟨R.pll_stat i, 8, 4⟩
def F.pll_stat_overfreq (i : Nat) : FRef := ⟨R.pll_stat i, 7, 1⟩
def F.pll_stat_lost (i : Nat) : FRef := ⟨R.pll_stat i, 6, 1⟩
def F.pll_stat_planned (i : Nat) : FRef := ⟨R.pll_stat i, 5, 1⟩
def F.pll_stat_open (i : Nat) : FRef := ⟨R.pll_stat i, 3, 1⟩
def F.pll_stat_state (i : Nat) : FRef := ⟨R.pll_stat i, 0, 3⟩
def F.pll_losses_relocks (i : Nat) : FRef := ⟨R.pll_losses i, 16, 16⟩
def F.pll_losses_losses (i : Nat) : FRef := ⟨R.pll_losses i, 0, 16⟩

-- Reference, oscillator and shutters (R247).
def R.clk_refMul : Nat := 0x21000
def R.clk_refDiv : Nat := 0x21000 + 0x4
def R.clk_refCtl : Nat := 0x21000 + 0x8
def R.clk_refStat : Nat := 0x21000 + 0xc
def R.clk_refFreq : Nat := 0x21000 + 0x10
def R.clk_oscStat : Nat := 0x21000 + 0x20
def R.clk_shutRoom : Nat := 0x21000 + 0x40
def R.clk_shutOther : Nat := 0x21000 + 0x44
def F.clk_refMul_n : FRef := ⟨R.clk_refMul, 0, 24⟩
def F.clk_refDiv_d : FRef := ⟨R.clk_refDiv, 0, 16⟩
def F.clk_refCtl_apply : FRef := ⟨R.clk_refCtl, 0, 1⟩
def F.clk_refStat_apply_err : FRef := ⟨R.clk_refStat, 4, 1⟩
def F.clk_refStat_ratio_rej : FRef := ⟨R.clk_refStat, 3, 1⟩
def F.clk_refStat_in_window : FRef := ⟨R.clk_refStat, 2, 1⟩
def F.clk_refStat_present : FRef := ⟨R.clk_refStat, 1, 1⟩
def F.clk_refFreq_khz : FRef := ⟨R.clk_refFreq, 0, 32⟩
def F.clk_oscStat_valid : FRef := ⟨R.clk_oscStat, 16, 1⟩
def F.clk_oscStat_dev : FRef := ⟨R.clk_oscStat, 0, 16⟩
def F.clk_shutRoom_room : FRef := ⟨R.clk_shutRoom, 0, 32⟩
def F.clk_shutOther_fabric : FRef := ⟨R.clk_shutOther, 21, 8⟩
def F.clk_shutOther_store : FRef := ⟨R.clk_shutOther, 17, 4⟩
def F.clk_shutOther_quad : FRef := ⟨R.clk_shutOther, 1, 16⟩
def F.clk_shutOther_house : FRef := ⟨R.clk_shutOther, 0, 1⟩

-- House time and epoch (R115).
def R.time_nowLo : Nat := 0x28000
def R.time_nowHi : Nat := 0x28000 + 0x4
def R.time_stat : Nat := 0x28000 + 0x8
def R.time_epochLo : Nat := 0x28000 + 0x10
def R.time_epochHi : Nat := 0x28000 + 0x14
def R.time_epochFrac : Nat := 0x28000 + 0x18
def R.time_newLo : Nat := 0x28000 + 0x20
def R.time_newHi : Nat := 0x28000 + 0x24
def R.time_newFrac : Nat := 0x28000 + 0x28
def R.time_applyLo : Nat := 0x28000 + 0x30
def R.time_applyHi : Nat := 0x28000 + 0x34
def R.time_epochCtl : Nat := 0x28000 + 0x38
def R.time_epochStat : Nat := 0x28000 + 0x3c
def R.time_syncCapLo : Nat := 0x28000 + 0x40
def R.time_syncCapHi : Nat := 0x28000 + 0x44
def R.time_syncCapFrac : Nat := 0x28000 + 0x48
def R.time_syncDelay : Nat := 0x28000 + 0x4c
def F.time_nowLo_t : FRef := ⟨R.time_nowLo, 0, 32⟩
def F.time_nowHi_t : FRef := ⟨R.time_nowHi, 0, 32⟩
def F.time_stat_gap : FRef := ⟨R.time_stat, 2, 1⟩
def F.time_stat_src : FRef := ⟨R.time_stat, 1, 1⟩
def F.time_stat_valid : FRef := ⟨R.time_stat, 0, 1⟩
def F.time_epochLo_t : FRef := ⟨R.time_epochLo, 0, 32⟩
def F.time_epochHi_t : FRef := ⟨R.time_epochHi, 0, 32⟩
def F.time_epochFrac_frac : FRef := ⟨R.time_epochFrac, 0, 16⟩
def F.time_newLo_t : FRef := ⟨R.time_newLo, 0, 32⟩
def F.time_newHi_t : FRef := ⟨R.time_newHi, 0, 32⟩
def F.time_newFrac_frac : FRef := ⟨R.time_newFrac, 0, 16⟩
def F.time_applyLo_t : FRef := ⟨R.time_applyLo, 0, 32⟩
def F.time_applyHi_t : FRef := ⟨R.time_applyHi, 0, 32⟩
def F.time_epochCtl_bcast : FRef := ⟨R.time_epochCtl, 4, 1⟩
def F.time_epochCtl_src : FRef := ⟨R.time_epochCtl, 2, 2⟩
def F.time_epochCtl_cancel : FRef := ⟨R.time_epochCtl, 1, 1⟩
def F.time_epochCtl_go : FRef := ⟨R.time_epochCtl, 0, 1⟩
def F.time_epochStat_cancel_res : FRef := ⟨R.time_epochStat, 8, 3⟩
def F.time_epochStat_from_fabric : FRef := ⟨R.time_epochStat, 7, 1⟩
def F.time_epochStat_cmd_err : FRef := ⟨R.time_epochStat, 6, 1⟩
def F.time_epochStat_replaced : FRef := ⟨R.time_epochStat, 5, 1⟩
def F.time_epochStat_late : FRef := ⟨R.time_epochStat, 4, 1⟩
def F.time_epochStat_applied : FRef := ⟨R.time_epochStat, 3, 1⟩
def F.time_epochStat_state : FRef := ⟨R.time_epochStat, 0, 2⟩
def F.time_syncCapLo_t : FRef := ⟨R.time_syncCapLo, 0, 32⟩
def F.time_syncCapHi_t : FRef := ⟨R.time_syncCapHi, 0, 32⟩
def F.time_syncCapFrac_count : FRef := ⟨R.time_syncCapFrac, 16, 16⟩
def F.time_syncCapFrac_frac : FRef := ⟨R.time_syncCapFrac, 0, 16⟩
def F.time_syncDelay_delay : FRef := ⟨R.time_syncDelay, 0, 32⟩

-- Calibration, global (R263).
def R.cal_ctl : Nat := 0x30000
def R.cal_stat : Nat := 0x30000 + 0x4
def R.cal_refvDecl : Nat := 0x30000 + 0x8
def R.cal_reftDecl : Nat := 0x30000 + 0xc
def R.cal_refvMeas : Nat := 0x30000 + 0x10
def R.cal_reftMeas : Nat := 0x30000 + 0x14
def R.cal_refstat : Nat := 0x30000 + 0x18
def R.cal_dskCtl : Nat := 0x30000 + 0x20
def R.cal_dskStat : Nat := 0x30000 + 0x24
def F.cal_ctl_pause : FRef := ⟨R.cal_ctl, 0, 1⟩
def F.cal_stat_unable : FRef := ⟨R.cal_stat, 2, 1⟩
def F.cal_stat_decl_rej : FRef := ⟨R.cal_stat, 1, 1⟩
def F.cal_stat_initial : FRef := ⟨R.cal_stat, 0, 1⟩
def F.cal_refvDecl_uv : FRef := ⟨R.cal_refvDecl, 0, 22⟩
def F.cal_reftDecl_hz : FRef := ⟨R.cal_reftDecl, 0, 28⟩
def F.cal_refvMeas_uv : FRef := ⟨R.cal_refvMeas, 0, 22⟩
def F.cal_reftMeas_hz : FRef := ⟨R.cal_reftMeas, 0, 28⟩
def F.cal_refstat_reft_stable : FRef := ⟨R.cal_refstat, 6, 1⟩
def F.cal_refstat_reft_window : FRef := ⟨R.cal_refstat, 5, 1⟩
def F.cal_refstat_reft_present : FRef := ⟨R.cal_refstat, 4, 1⟩
def F.cal_refstat_refv_stable : FRef := ⟨R.cal_refstat, 2, 1⟩
def F.cal_refstat_refv_window : FRef := ⟨R.cal_refstat, 1, 1⟩
def F.cal_refstat_refv_present : FRef := ⟨R.cal_refstat, 0, 1⟩
def F.cal_dskCtl_avg_log2 : FRef := ⟨R.cal_dskCtl, 12, 4⟩
def F.cal_dskCtl_abort : FRef := ⟨R.cal_dskCtl, 1, 1⟩
def F.cal_dskCtl_go : FRef := ⟨R.cal_dskCtl, 0, 1⟩
def F.cal_dskStat_res : FRef := ⟨R.cal_dskStat, 8, 3⟩
def F.cal_dskStat_busy : FRef := ⟨R.cal_dskStat, 0, 1⟩

-- Calibration of room n (R263).
def R.calRoom_ctl (n : Nat) : Nat := 0x30100 + 0x20 * n
def R.calRoom_stat (n : Nat) : Nat := 0x30100 + 0x20 * n + 0x4
def R.calRoom_adc (n : Nat) : Nat := 0x30100 + 0x20 * n + 0x8
def R.calRoom_tdc (n : Nat) : Nat := 0x30100 + 0x20 * n + 0xc
def R.calRoom_temp (n : Nat) : Nat := 0x30100 + 0x20 * n + 0x10
def F.calRoom_ctl_abort (n : Nat) : FRef := ⟨R.calRoom_ctl n, 1, 1⟩
def F.calRoom_ctl_full (n : Nat) : FRef := ⟨R.calRoom_ctl n, 0, 1⟩
def F.calRoom_stat_walks (n : Nat) : FRef := ⟨R.calRoom_stat n, 24, 8⟩
def F.calRoom_stat_lane (n : Nat) : FRef := ⟨R.calRoom_stat n, 12, 4⟩
def F.calRoom_stat_res (n : Nat) : FRef := ⟨R.calRoom_stat n, 8, 3⟩
def F.calRoom_stat_mode (n : Nat) : FRef := ⟨R.calRoom_stat n, 6, 2⟩
def F.calRoom_stat_adc_stale (n : Nat) : FRef := ⟨R.calRoom_stat n, 5, 1⟩
def F.calRoom_stat_tdc_stale (n : Nat) : FRef := ⟨R.calRoom_stat n, 4, 1⟩
def F.calRoom_stat_temp_stale (n : Nat) : FRef := ⟨R.calRoom_stat n, 3, 1⟩
def F.calRoom_stat_rejects (n : Nat) : FRef := ⟨R.calRoom_stat n, 0, 3⟩
def F.calRoom_adc_gain (n : Nat) : FRef := ⟨R.calRoom_adc n, 0, 32⟩
def F.calRoom_tdc_bin (n : Nat) : FRef := ⟨R.calRoom_tdc n, 0, 16⟩
def F.calRoom_temp_temp (n : Nat) : FRef := ⟨R.calRoom_temp n, 0, 16⟩

-- Calibration of quad q (R263).
def R.calQuad_ctl (q : Nat) : Nat := 0x30600 + 0x10 * q
def R.calQuad_stat (q : Nat) : Nat := 0x30600 + 0x10 * q + 0x4
def F.calQuad_ctl_abort (q : Nat) : FRef := ⟨R.calQuad_ctl q, 1, 1⟩
def F.calQuad_ctl_full (q : Nat) : FRef := ⟨R.calQuad_ctl q, 0, 1⟩
def F.calQuad_stat_walks (q : Nat) : FRef := ⟨R.calQuad_stat q, 24, 8⟩
def F.calQuad_stat_lane (q : Nat) : FRef := ⟨R.calQuad_stat q, 12, 4⟩
def F.calQuad_stat_res (q : Nat) : FRef := ⟨R.calQuad_stat q, 8, 3⟩
def F.calQuad_stat_mode (q : Nat) : FRef := ⟨R.calQuad_stat q, 6, 2⟩
def F.calQuad_stat_adc_stale (q : Nat) : FRef := ⟨R.calQuad_stat q, 5, 1⟩
def F.calQuad_stat_tdc_stale (q : Nat) : FRef := ⟨R.calQuad_stat q, 4, 1⟩
def F.calQuad_stat_temp_stale (q : Nat) : FRef := ⟨R.calQuad_stat q, 3, 1⟩
def F.calQuad_stat_rejects (q : Nat) : FRef := ⟨R.calQuad_stat q, 0, 3⟩

-- TRACE[0-31] and XTRACE[0-3] (w = 32-35) (R263).
def R.trace_word (w : Nat) : Nat := 0x30800 + 4 * w
def F.trace_word_status (w : Nat) : FRef := ⟨R.trace_word w, 0, 32⟩

-- Deskew masks (R263).
def R.dskMask_mask (w : Nat) : Nat := 0x30900 + 4 * w
def F.dskMask_mask_bits (w : Nat) : FRef := ⟨R.dskMask_mask w, 0, 32⟩

-- Deskew of lane L (R263).
def R.dskLane_cfg (l : Nat) : Nat := 0x34000 + 8 * l
def R.dskLane_result (l : Nat) : Nat := 0x34000 + 8 * l + 0x4
def F.dskLane_cfg_path_en (l : Nat) : FRef := ⟨R.dskLane_cfg l, 12, 1⟩
def F.dskLane_cfg_far_end (l : Nat) : FRef := ⟨R.dskLane_cfg l, 10, 2⟩
def F.dskLane_cfg_rterm (l : Nat) : FRef := ⟨R.dskLane_cfg l, 0, 10⟩
def F.dskLane_result_status (l : Nat) : FRef := ⟨R.dskLane_result l, 29, 3⟩
def F.dskLane_result_rejects (l : Nat) : FRef := ⟨R.dskLane_result l, 27, 2⟩
def F.dskLane_result_gamma (l : Nat) : FRef := ⟨R.dskLane_result l, 16, 8⟩
def F.dskLane_result_path (l : Nat) : FRef := ⟨R.dskLane_result l, 0, 16⟩

-- Power states (R357).
def R.pwr_ltr : Nat := 0x40000
def R.pwr_cfg : Nat := 0x40000 + 0x4
def R.pwr_ctl : Nat := 0x40000 + 0x8
def R.pwr_stat : Nat := 0x40000 + 0xc
def R.pwr_exits : Nat := 0x40000 + 0x10
def F.pwr_ltr_tol_us : FRef := ⟨R.pwr_ltr, 0, 21⟩
def F.pwr_cfg_max_state : FRef := ⟨R.pwr_cfg, 0, 2⟩
def F.pwr_ctl_f4_req : FRef := ⟨R.pwr_ctl, 1, 1⟩
def F.pwr_ctl_wake : FRef := ⟨R.pwr_ctl, 0, 1⟩
def F.pwr_stat_block : FRef := ⟨R.pwr_stat, 16, 6⟩
def F.pwr_stat_req_err : FRef := ⟨R.pwr_stat, 12, 1⟩
def F.pwr_stat_wake_src : FRef := ⟨R.pwr_stat, 8, 4⟩
def F.pwr_stat_exiting : FRef := ⟨R.pwr_stat, 4, 1⟩
def F.pwr_stat_entering : FRef := ⟨R.pwr_stat, 3, 1⟩
def F.pwr_stat_state : FRef := ⟨R.pwr_stat, 0, 3⟩
def F.pwr_exits_n : FRef := ⟨R.pwr_exits, 0, 32⟩

-- Residency of F1-F3 (i = 1-3) (R357).
def R.pwrRes_ms (i : Nat) : Nat := 0x4001C + 4 * i
def F.pwrRes_ms_n (i : Nat) : FRef := ⟨R.pwrRes_ms i, 0, 32⟩

-- Monitor counters (R301).
def R.mcnt_cfg (i : Nat) : Nat := 0x50000 + 0x20 * i
def R.mcnt_ctl (i : Nat) : Nat := 0x50000 + 0x20 * i + 0x4
def R.mcnt_stat (i : Nat) : Nat := 0x50000 + 0x20 * i + 0x8
def R.mcnt_valLo (i : Nat) : Nat := 0x50000 + 0x20 * i + 0xc
def R.mcnt_valHi (i : Nat) : Nat := 0x50000 + 0x20 * i + 0x10
def R.mcnt_snapLo (i : Nat) : Nat := 0x50000 + 0x20 * i + 0x14
def R.mcnt_snapHi (i : Nat) : Nat := 0x50000 + 0x20 * i + 0x18
def F.mcnt_cfg_snap_en (i : Nat) : FRef := ⟨R.mcnt_cfg i, 31, 1⟩
def F.mcnt_cfg_snap_mcl (i : Nat) : FRef := ⟨R.mcnt_cfg i, 26, 5⟩
def F.mcnt_cfg_stop_en (i : Nat) : FRef := ⟨R.mcnt_cfg i, 25, 1⟩
def F.mcnt_cfg_stop_mcl (i : Nat) : FRef := ⟨R.mcnt_cfg i, 20, 5⟩
def F.mcnt_cfg_start_en (i : Nat) : FRef := ⟨R.mcnt_cfg i, 19, 1⟩
def F.mcnt_cfg_start_mcl (i : Nat) : FRef := ⟨R.mcnt_cfg i, 14, 5⟩
def F.mcnt_cfg_src (i : Nat) : FRef := ⟨R.mcnt_cfg i, 0, 10⟩
def F.mcnt_ctl_clr (i : Nat) : FRef := ⟨R.mcnt_ctl i, 3, 1⟩
def F.mcnt_ctl_snap (i : Nat) : FRef := ⟨R.mcnt_ctl i, 2, 1⟩
def F.mcnt_ctl_stop (i : Nat) : FRef := ⟨R.mcnt_ctl i, 1, 1⟩
def F.mcnt_ctl_start (i : Nat) : FRef := ⟨R.mcnt_ctl i, 0, 1⟩
def F.mcnt_stat_ovf (i : Nat) : FRef := ⟨R.mcnt_stat i, 1, 1⟩
def F.mcnt_stat_running (i : Nat) : FRef := ⟨R.mcnt_stat i, 0, 1⟩
def F.mcnt_valLo_v (i : Nat) : FRef := ⟨R.mcnt_valLo i, 0, 32⟩
def F.mcnt_valHi_v (i : Nat) : FRef := ⟨R.mcnt_valHi i, 0, 16⟩
def F.mcnt_snapLo_v (i : Nat) : FRef := ⟨R.mcnt_snapLo i, 0, 32⟩
def F.mcnt_snapHi_v (i : Nat) : FRef := ⟨R.mcnt_snapHi i, 0, 16⟩

-- Producer matrix (R202).
def R.pmat_word (p : Nat) (w : Nat) : Nat := 0x80000 + 32 * p + 4 * w
def F.pmat_word_en (p : Nat) (w : Nat) : FRef := ⟨R.pmat_word p w, 0, 32⟩

-- Task matrix (R202).
def R.tmat_word (t : Nat) (w : Nat) : Nat := 0xA0000 + 32 * t + 4 * w
def F.tmat_word_en (t : Nat) (w : Nat) : FRef := ⟨R.tmat_word t w, 0, 32⟩

-- Hallway, global (R202).
def R.hall_cfg : Nat := 0xE0000
def R.hall_fabLead : Nat := 0xE0000 + 0x4
def R.hall_stat : Nat := 0xE0000 + 0x8
def R.hall_swpulse : Nat := 0xE0000 + 0xc
def F.hall_cfg_storm_limit : FRef := ⟨R.hall_cfg, 0, 13⟩
def F.hall_fabLead_lead : FRef := ⟨R.hall_fabLead, 0, 21⟩
def F.hall_stat_cfg_rej : FRef := ⟨R.hall_stat, 0, 1⟩
def F.hall_swpulse_pulse : FRef := ⟨R.hall_swpulse, 0, 32⟩

-- Group commands (R202).
def R.grpCtl_ctl (g : Nat) : Nat := 0xE0100 + 4 * g
def F.grpCtl_ctl_dis_en (g : Nat) : FRef := ⟨R.grpCtl_ctl g, 25, 1⟩
def F.grpCtl_ctl_arm_en (g : Nat) : FRef := ⟨R.grpCtl_ctl g, 24, 1⟩
def F.grpCtl_ctl_dis_ch (g : Nat) : FRef := ⟨R.grpCtl_ctl g, 16, 8⟩
def F.grpCtl_ctl_arm_ch (g : Nat) : FRef := ⟨R.grpCtl_ctl g, 8, 8⟩
def F.grpCtl_ctl_disarm (g : Nat) : FRef := ⟨R.grpCtl_ctl g, 1, 1⟩
def F.grpCtl_ctl_arm (g : Nat) : FRef := ⟨R.grpCtl_ctl g, 0, 1⟩

-- Group status (R202).
def R.grpStat_stat (g : Nat) : Nat := 0xE0140 + 4 * g
def F.grpStat_stat_storm_ch (g : Nat) : FRef := ⟨R.grpStat_stat g, 4, 8⟩
def F.grpStat_stat_fault_dis (g : Nat) : FRef := ⟨R.grpStat_stat g, 2, 1⟩
def F.grpStat_stat_storm (g : Nat) : FRef := ⟨R.grpStat_stat g, 1, 1⟩
def F.grpStat_stat_armed (g : Nat) : FRef := ⟨R.grpStat_stat g, 0, 1⟩

-- Fault-group disarm masks (R202).
def R.fgd_word (f : Nat) : Nat := 0xE0180 + 4 * f
def F.fgd_word_mask (f : Nat) : FRef := ⟨R.fgd_word f, 0, 16⟩

-- Timers (R202).
def R.tmr_cfg (i : Nat) : Nat := 0xE1000 + 0x20 * i
def R.tmr_startLo (i : Nat) : Nat := 0xE1000 + 0x20 * i + 0x4
def R.tmr_startHi (i : Nat) : Nat := 0xE1000 + 0x20 * i + 0x8
def R.tmr_periodLo (i : Nat) : Nat := 0xE1000 + 0x20 * i + 0xc
def R.tmr_periodHi (i : Nat) : Nat := 0xE1000 + 0x20 * i + 0x10
def R.tmr_cnt (i : Nat) : Nat := 0xE1000 + 0x20 * i + 0x14
def F.tmr_cfg_mode (i : Nat) : FRef := ⟨R.tmr_cfg i, 0, 2⟩
def F.tmr_startLo_v (i : Nat) : FRef := ⟨R.tmr_startLo i, 0, 32⟩
def F.tmr_startHi_v (i : Nat) : FRef := ⟨R.tmr_startHi i, 0, 32⟩
def F.tmr_periodLo_v (i : Nat) : FRef := ⟨R.tmr_periodLo i, 0, 32⟩
def F.tmr_periodHi_frac (i : Nat) : FRef := ⟨R.tmr_periodHi i, 16, 16⟩
def F.tmr_periodHi_whole_hi (i : Nat) : FRef := ⟨R.tmr_periodHi i, 0, 16⟩
def F.tmr_cnt_n (i : Nat) : FRef := ⟨R.tmr_cnt i, 0, 32⟩

-- Trigger inputs (R202).
def R.trigIn_cfg (i : Nat) : Nat := 0xE2000 + 0x10 * i
def R.trigIn_stampLo (i : Nat) : Nat := 0xE2000 + 0x10 * i + 0x4
def R.trigIn_stampHi (i : Nat) : Nat := 0xE2000 + 0x10 * i + 0x8
def R.trigIn_edges (i : Nat) : Nat := 0xE2000 + 0x10 * i + 0xc
def F.trigIn_cfg_edge (i : Nat) : FRef := ⟨R.trigIn_cfg i, 0, 2⟩
def F.trigIn_stampLo_t (i : Nat) : FRef := ⟨R.trigIn_stampLo i, 0, 32⟩
def F.trigIn_stampHi_t (i : Nat) : FRef := ⟨R.trigIn_stampHi i, 0, 32⟩
def F.trigIn_edges_n (i : Nat) : FRef := ⟨R.trigIn_edges i, 0, 32⟩

-- Trigger outputs (R202).
def R.trigOut_cfg (i : Nat) : Nat := 0xE3000 + 0x10 * i
def R.trigOut_timed (i : Nat) : Nat := 0xE3000 + 0x10 * i + 0x4
def R.trigOut_tofs (i : Nat) : Nat := 0xE3000 + 0x10 * i + 0x8
def F.trigOut_cfg_pw (i : Nat) : FRef := ⟨R.trigOut_cfg i, 24, 8⟩
def F.trigOut_cfg_pol (i : Nat) : FRef := ⟨R.trigOut_cfg i, 2, 1⟩
def F.trigOut_cfg_mode (i : Nat) : FRef := ⟨R.trigOut_cfg i, 0, 2⟩
def F.trigOut_timed_engine (i : Nat) : FRef := ⟨R.trigOut_timed i, 22, 10⟩
def F.trigOut_timed_marker (i : Nat) : FRef := ⟨R.trigOut_timed i, 20, 2⟩
def F.trigOut_timed_tw (i : Nat) : FRef := ⟨R.trigOut_timed i, 8, 12⟩
def F.trigOut_tofs_tofs (i : Nat) : FRef := ⟨R.trigOut_tofs i, 0, 16⟩

-- Fabric exports (R202).
def R.exp_cfg (j : Nat) : Nat := 0xE4000 + 0x10 * j
def R.exp_sent (j : Nat) : Nat := 0xE4000 + 0x10 * j + 0x4
def R.exp_unsent (j : Nat) : Nat := 0xE4000 + 0x10 * j + 0x8
def F.exp_cfg_en (j : Nat) : FRef := ⟨R.exp_cfg j, 31, 1⟩
def F.exp_cfg_bcast (j : Nat) : FRef := ⟨R.exp_cfg j, 30, 1⟩
def F.exp_cfg_self (j : Nat) : FRef := ⟨R.exp_cfg j, 29, 1⟩
def F.exp_cfg_imp (j : Nat) : FRef := ⟨R.exp_cfg j, 10, 6⟩
def F.exp_cfg_dest (j : Nat) : FRef := ⟨R.exp_cfg j, 0, 10⟩
def F.exp_sent_n (j : Nat) : FRef := ⟨R.exp_sent j, 0, 32⟩
def F.exp_unsent_n (j : Nat) : FRef := ⟨R.exp_unsent j, 0, 32⟩

-- Fabric imports (R202).
def R.imp_stat (j : Nat) : Nat := 0xE5000 + 0x10 * j
def R.imp_late (j : Nat) : Nat := 0xE5000 + 0x10 * j + 0x4
def R.imp_drop (j : Nat) : Nat := 0xE5000 + 0x10 * j + 0x8
def F.imp_stat_ovf (j : Nat) : FRef := ⟨R.imp_stat j, 3, 1⟩
def F.imp_stat_merged (j : Nat) : FRef := ⟨R.imp_stat j, 2, 1⟩
def F.imp_stat_dropped (j : Nat) : FRef := ⟨R.imp_stat j, 1, 1⟩
def F.imp_stat_late (j : Nat) : FRef := ⟨R.imp_stat j, 0, 1⟩
def F.imp_late_n (j : Nat) : FRef := ⟨R.imp_late j, 0, 32⟩
def F.imp_drop_n (j : Nat) : FRef := ⟨R.imp_drop j, 0, 32⟩

-- Merged bits of non-engine task inputs (R202).
def R.ntMerged_word (w : Nat) : Nat := 0xE6000 + 4 * w
def F.ntMerged_word_merged (w : Nat) : FRef := ⟨R.ntMerged_word w, 0, 32⟩

-- Coincidence counters of non-engine task inputs (R202).
def R.ntCoinc_n (n : Nat) : Nat := 0xE6100 + 4 * n
def F.ntCoinc_n_count (n : Nat) : FRef := ⟨R.ntCoinc_n n, 0, 32⟩

-- Store controller, global (R228).
def R.st_stat : Nat := 0x100000
def R.st_opCtl : Nat := 0x100000 + 0x4
def R.st_opStat : Nat := 0x100000 + 0x8
def R.st_age : Nat := 0x100000 + 0x10
def R.st_census : Nat := 0x100000 + 0x14
def R.st_page : Nat := 0x100000 + 0x18
def R.st_rhCfg : Nat := 0x100000 + 0x40
def R.st_scrub : Nat := 0x100000 + 0xa0
def R.st_trainCtl : Nat := 0x100000 + 0x1000
def R.st_trainStat : Nat := 0x100000 + 0x1004
def F.st_stat_avail : FRef := ⟨R.st_stat, 8, 4⟩
def F.st_stat_point : FRef := ⟨R.st_stat, 0, 2⟩
def F.st_opCtl_point : FRef := ⟨R.st_opCtl, 1, 2⟩
def F.st_opCtl_go : FRef := ⟨R.st_opCtl, 0, 1⟩
def F.st_opStat_last_us : FRef := ⟨R.st_opStat, 16, 16⟩
def F.st_opStat_req_err : FRef := ⟨R.st_opStat, 3, 1⟩
def F.st_opStat_state : FRef := ⟨R.st_opStat, 0, 2⟩
def F.st_age_bulk : FRef := ⟨R.st_age, 16, 16⟩
def F.st_age_firm : FRef := ⟨R.st_age, 0, 16⟩
def F.st_census_pc : FRef := ⟨R.st_census, 2, 1⟩
def F.st_census_wing : FRef := ⟨R.st_census, 1, 1⟩
def F.st_census_port : FRef := ⟨R.st_census, 0, 1⟩
def F.st_page_idle : FRef := ⟨R.st_page, 0, 12⟩
def F.st_rhCfg_threshold : FRef := ⟨R.st_rhCfg, 0, 16⟩
def F.st_scrub_period : FRef := ⟨R.st_scrub, 0, 8⟩
def F.st_trainCtl_lock : FRef := ⟨R.st_trainCtl, 8, 1⟩
def F.st_trainCtl_window : FRef := ⟨R.st_trainCtl, 0, 6⟩
def F.st_trainStat_aborted : FRef := ⟨R.st_trainStat, 3, 1⟩
def F.st_trainStat_out_of_window : FRef := ⟨R.st_trainStat, 2, 1⟩
def F.st_trainStat_pass_busy : FRef := ⟨R.st_trainStat, 1, 1⟩
def F.st_trainStat_verified : FRef := ⟨R.st_trainStat, 0, 1⟩

-- Stack temperature (R228).
def R.stTemp_word (i : Nat) : Nat := 0x100020 + 4 * i
def F.stTemp_word_stale (i : Nat) : FRef := ⟨R.stTemp_word i, 16, 1⟩
def F.stTemp_word_temp (i : Nat) : FRef := ⟨R.stTemp_word i, 0, 16⟩

-- Refresh status (R228).
def R.stRef_stat (i : Nat) : Nat := 0x100030 + 4 * i
def F.stRef_stat_forced (i : Nat) : FRef := ⟨R.stRef_stat i, 16, 16⟩
def F.stRef_stat_owed_max (i : Nat) : FRef := ⟨R.stRef_stat i, 1, 3⟩
def F.stRef_stat_halved (i : Nat) : FRef := ⟨R.stRef_stat i, 0, 1⟩

-- Neighbour-refresh pairs (R228).
def R.rhCnt_n (i : Nat) : Nat := 0x100044 + 4 * i
def F.rhCnt_n_n (i : Nat) : FRef := ⟨R.rhCnt_n i, 0, 32⟩

-- ECC of stack s (R228).
def R.ecc_ce (i : Nat) : Nat := 0x100060 + 0x10 * i
def R.ecc_ue (i : Nat) : Nat := 0x100060 + 0x10 * i + 0x4
def R.ecc_spare (i : Nat) : Nat := 0x100060 + 0x10 * i + 0x8
def R.ecc_last (i : Nat) : Nat := 0x100060 + 0x10 * i + 0xc
def F.ecc_ce_n (i : Nat) : FRef := ⟨R.ecc_ce i, 0, 32⟩
def F.ecc_ue_n (i : Nat) : FRef := ⟨R.ecc_ue i, 0, 32⟩
def F.ecc_spare_ce_seen (i : Nat) : FRef := ⟨R.ecc_spare i, 16, 1⟩
def F.ecc_spare_ce_thresh (i : Nat) : FRef := ⟨R.ecc_spare i, 8, 8⟩
def F.ecc_spare_used (i : Nat) : FRef := ⟨R.ecc_spare i, 0, 8⟩
def F.ecc_last_gran (i : Nat) : FRef := ⟨R.ecc_last i, 0, 32⟩

-- Store port targets (R228).
def R.stPort_cfg (p : Nat) : Nat := 0x100100 + 4 * p
def F.stPort_cfg_target (p : Nat) : FRef := ⟨R.stPort_cfg p, 0, 16⟩

-- Promotions of store port p (R228).
def R.stPromo_n (p : Nat) : Nat := 0x100200 + 4 * p
def F.stPromo_n_n (p : Nat) : FRef := ⟨R.stPromo_n p, 0, 32⟩

-- Delays of set x, stack i, word k (DQ 0-2047, DQS 2048-2303, CA 2304-2815) (R228).
def R.dly_word (x : Nat) (i : Nat) (k : Nat) : Nat := 0x110000 + 0x10000 * x + 0x4000 * i + 4 * k
def F.dly_word_delay (x : Nat) (i : Nat) (k : Nat) : FRef := ⟨R.dly_word x i k, 0, 8⟩

-- DRAM timing parameters of set x (R228).
def R.shadow_word (x : Nat) (k : Nat) : Nat := 0x160000 + 0x100 * x + 4 * k
def F.shadow_word_v (x : Nat) (k : Nat) : FRef := ⟨R.shadow_word x k, 0, 32⟩

-- Fabric, global (R346).
def R.fab_cfg : Nat := 0x200000
def R.fab_stat : Nat := 0x200000 + 0x4
def R.fab_evt : Nat := 0x200000 + 0x8
def R.fab_censusCtl : Nat := 0x200000 + 0xc
def R.fab_keeperLo : Nat := 0x200000 + 0x10
def R.fab_keeperHi : Nat := 0x200000 + 0x14
def R.fab_fprLo : Nat := 0x200000 + 0x18
def R.fab_fprHi : Nat := 0x200000 + 0x1c
def R.fab_timeOfs : Nat := 0x200000 + 0x20
def R.fab_ttldrop : Nat := 0x200000 + 0x24
def R.fab_rwinCfg : Nat := 0x200000 + 0x30
def R.fab_rwinStat : Nat := 0x200000 + 0x34
def R.fab_rnoteStat : Nat := 0x200000 + 0x40
def F.fab_cfg_fn_en : FRef := ⟨R.fab_cfg, 31, 1⟩
def F.fab_cfg_fn_dest : FRef := ⟨R.fab_cfg, 16, 10⟩
def F.fab_cfg_seal : FRef := ⟨R.fab_cfg, 2, 1⟩
def F.fab_cfg_max_ver : FRef := ⟨R.fab_cfg, 0, 2⟩
def F.fab_stat_census_valid : FRef := ⟨R.fab_stat, 31, 1⟩
def F.fab_stat_keeper : FRef := ⟨R.fab_stat, 30, 1⟩
def F.fab_stat_guest : FRef := ⟨R.fab_stat, 29, 1⟩
def F.fab_stat_depth : FRef := ⟨R.fab_stat, 24, 5⟩
def F.fab_stat_parent : FRef := ⟨R.fab_stat, 21, 3⟩
def F.fab_stat_devices : FRef := ⟨R.fab_stat, 10, 11⟩
def F.fab_stat_house : FRef := ⟨R.fab_stat, 0, 10⟩
def F.fab_evt_guest_wr : FRef := ⟨R.fab_evt, 6, 1⟩
def F.fab_evt_admit_err : FRef := ⟨R.fab_evt, 5, 1⟩
def F.fab_evt_step_wait : FRef := ⟨R.fab_evt, 4, 1⟩
def F.fab_evt_time_lost : FRef := ⟨R.fab_evt, 3, 1⟩
def F.fab_evt_renumbered : FRef := ⟨R.fab_evt, 2, 1⟩
def F.fab_evt_guest_seen : FRef := ⟨R.fab_evt, 1, 1⟩
def F.fab_evt_census_change : FRef := ⟨R.fab_evt, 0, 1⟩
def F.fab_censusCtl_forget : FRef := ⟨R.fab_censusCtl, 11, 1⟩
def F.fab_censusCtl_admit : FRef := ⟨R.fab_censusCtl, 10, 1⟩
def F.fab_censusCtl_house : FRef := ⟨R.fab_censusCtl, 0, 10⟩
def F.fab_keeperLo_uid : FRef := ⟨R.fab_keeperLo, 0, 32⟩
def F.fab_keeperHi_uid : FRef := ⟨R.fab_keeperHi, 0, 32⟩
def F.fab_fprLo_fpr : FRef := ⟨R.fab_fprLo, 0, 32⟩
def F.fab_fprHi_fpr : FRef := ⟨R.fab_fprHi, 0, 32⟩
def F.fab_timeOfs_ofs : FRef := ⟨R.fab_timeOfs, 0, 32⟩
def F.fab_ttldrop_n : FRef := ⟨R.fab_ttldrop, 0, 32⟩
def F.fab_rwinCfg_base : FRef := ⟨R.fab_rwinCfg, 16, 7⟩
def F.fab_rwinCfg_house : FRef := ⟨R.fab_rwinCfg, 0, 10⟩
def F.fab_rwinStat_range : FRef := ⟨R.fab_rwinStat, 3, 1⟩
def F.fab_rwinStat_unreach : FRef := ⟨R.fab_rwinStat, 2, 1⟩
def F.fab_rwinStat_timeout : FRef := ⟨R.fab_rwinStat, 1, 1⟩
def F.fab_rwinStat_busy : FRef := ⟨R.fab_rwinStat, 0, 1⟩
def F.fab_rnoteStat_lost : FRef := ⟨R.fab_rnoteStat, 16, 16⟩
def F.fab_rnoteStat_clear : FRef := ⟨R.fab_rnoteStat, 15, 1⟩
def F.fab_rnoteStat_count : FRef := ⟨R.fab_rnoteStat, 0, 5⟩

-- Fabric ports (R346).
def R.fport_cfg (p : Nat) : Nat := 0x200100 + 0x40 * p
def R.fport_stat (p : Nat) : Nat := 0x200100 + 0x40 * p + 0x4
def R.fport_nbrLo (p : Nat) : Nat := 0x200100 + 0x40 * p + 0x8
def R.fport_nbrHi (p : Nat) : Nat := 0x200100 + 0x40 * p + 0xc
def R.fport_delay (p : Nat) : Nat := 0x200100 + 0x40 * p + 0x10
def R.fport_exch (p : Nat) : Nat := 0x200100 + 0x40 * p + 0x14
def F.fport_cfg_asym (p : Nat) : FRef := ⟨R.fport_cfg p, 16, 16⟩
def F.fport_cfg_en (p : Nat) : FRef := ⟨R.fport_cfg p, 0, 1⟩
def F.fport_stat_nbr_port (p : Nat) : FRef := ⟨R.fport_stat p, 16, 3⟩
def F.fport_stat_reason (p : Nat) : FRef := ⟨R.fport_stat p, 12, 4⟩
def F.fport_stat_lanes (p : Nat) : FRef := ⟨R.fport_stat p, 8, 4⟩
def F.fport_stat_ver (p : Nat) : FRef := ⟨R.fport_stat p, 4, 2⟩
def F.fport_stat_state (p : Nat) : FRef := ⟨R.fport_stat p, 0, 3⟩
def F.fport_nbrLo_uid (p : Nat) : FRef := ⟨R.fport_nbrLo p, 0, 32⟩
def F.fport_nbrHi_uid (p : Nat) : FRef := ⟨R.fport_nbrHi p, 0, 32⟩
def F.fport_delay_d (p : Nat) : FRef := ⟨R.fport_delay p, 0, 32⟩
def F.fport_exch_n (p : Nat) : FRef := ⟨R.fport_exch p, 0, 32⟩

-- Received notices (R346).
def R.rnote_w0 (i : Nat) : Nat := 0x200800 + 0x20 * i
def R.rnote_w1 (i : Nat) : Nat := 0x200800 + 0x20 * i + 0x4
def R.rnote_w2 (i : Nat) : Nat := 0x200800 + 0x20 * i + 0x8
def R.rnote_w3 (i : Nat) : Nat := 0x200800 + 0x20 * i + 0xc
def R.rnote_w4 (i : Nat) : Nat := 0x200800 + 0x20 * i + 0x10
def F.rnote_w0_w (i : Nat) : FRef := ⟨R.rnote_w0 i, 0, 32⟩
def F.rnote_w1_w (i : Nat) : FRef := ⟨R.rnote_w1 i, 0, 32⟩
def F.rnote_w2_w (i : Nat) : FRef := ⟨R.rnote_w2 i, 0, 32⟩
def F.rnote_w3_w (i : Nat) : FRef := ⟨R.rnote_w3 i, 0, 32⟩
def F.rnote_w4_house (i : Nat) : FRef := ⟨R.rnote_w4 i, 0, 10⟩

-- Census entries (R346).
def R.cens_uidLo (h : Nat) : Nat := 0x210000 + 0x20 * h
def R.cens_uidHi (h : Nat) : Nat := 0x210000 + 0x20 * h + 0x4
def R.cens_fprLo (h : Nat) : Nat := 0x210000 + 0x20 * h + 0x8
def R.cens_fprHi (h : Nat) : Nat := 0x210000 + 0x20 * h + 0xc
def R.cens_state (h : Nat) : Nat := 0x210000 + 0x20 * h + 0x10
def F.cens_uidLo_uid (h : Nat) : FRef := ⟨R.cens_uidLo h, 0, 32⟩
def F.cens_uidHi_uid (h : Nat) : FRef := ⟨R.cens_uidHi h, 0, 32⟩
def F.cens_fprLo_fpr (h : Nat) : FRef := ⟨R.cens_fprLo h, 0, 32⟩
def F.cens_fprHi_fpr (h : Nat) : FRef := ⟨R.cens_fprHi h, 0, 32⟩
def F.cens_state_v2 (h : Nat) : FRef := ⟨R.cens_state h, 8, 1⟩
def F.cens_state_hops (h : Nat) : FRef := ⟨R.cens_state h, 3, 5⟩
def F.cens_state_state (h : Nat) : FRef := ⟨R.cens_state h, 0, 2⟩

-- Rings (R182).
def R.ring_cfg (r : Nat) : Nat := 0x300000 + 0x40 * r
def R.ring_peer (r : Nat) : Nat := 0x300000 + 0x40 * r + 0x4
def R.ring_wptr (r : Nat) : Nat := 0x300000 + 0x40 * r + 0x8
def R.ring_rptr (r : Nat) : Nat := 0x300000 + 0x40 * r + 0xc
def R.ring_level (r : Nat) : Nat := 0x300000 + 0x40 * r + 0x10
def R.ring_stat (r : Nat) : Nat := 0x300000 + 0x40 * r + 0x14
def R.ring_late (r : Nat) : Nat := 0x300000 + 0x40 * r + 0x18
def R.ring_drop (r : Nat) : Nat := 0x300000 + 0x40 * r + 0x1c
def F.ring_cfg_en (r : Nat) : FRef := ⟨R.ring_cfg r, 31, 1⟩
def F.ring_cfg_prod (r : Nat) : FRef := ⟨R.ring_cfg r, 29, 2⟩
def F.ring_cfg_engine (r : Nat) : FRef := ⟨R.ring_cfg r, 14, 10⟩
def F.ring_cfg_seg (r : Nat) : FRef := ⟨R.ring_cfg r, 0, 14⟩
def F.ring_peer_credit_step (r : Nat) : FRef := ⟨R.ring_peer r, 16, 16⟩
def F.ring_peer_house (r : Nat) : FRef := ⟨R.ring_peer r, 0, 10⟩
def F.ring_wptr_p (r : Nat) : FRef := ⟨R.ring_wptr r, 0, 32⟩
def F.ring_rptr_p (r : Nat) : FRef := ⟨R.ring_rptr r, 0, 32⟩
def F.ring_level_v (r : Nat) : FRef := ⟨R.ring_level r, 0, 32⟩
def F.ring_stat_dis_drop (r : Nat) : FRef := ⟨R.ring_stat r, 7, 1⟩
def F.ring_stat_wlost (r : Nat) : FRef := ⟨R.ring_stat r, 6, 1⟩
def F.ring_stat_wr_rej (r : Nat) : FRef := ⟨R.ring_stat r, 5, 1⟩
def F.ring_stat_cfg_rej (r : Nat) : FRef := ⟨R.ring_stat r, 4, 1⟩
def F.ring_stat_seq_err (r : Nat) : FRef := ⟨R.ring_stat r, 3, 1⟩
def F.ring_stat_over (r : Nat) : FRef := ⟨R.ring_stat r, 2, 1⟩
def F.ring_stat_phase_drop (r : Nat) : FRef := ⟨R.ring_stat r, 1, 1⟩
def F.ring_stat_active (r : Nat) : FRef := ⟨R.ring_stat r, 0, 1⟩
def F.ring_late_n (r : Nat) : FRef := ⟨R.ring_late r, 0, 32⟩
def F.ring_drop_n (r : Nat) : FRef := ⟨R.ring_drop r, 0, 32⟩

-- Streaming phase (R183).
def R.rings_phase : Nat := 0x304000
def F.rings_phase_req_err : FRef := ⟨R.rings_phase, 7, 1⟩
def F.rings_phase_req : FRef := ⟨R.rings_phase, 4, 2⟩
def F.rings_phase_test_forced : FRef := ⟨R.rings_phase, 2, 1⟩
def F.rings_phase_phase : FRef := ⟨R.rings_phase, 0, 2⟩

-- Engine registers (R78).
def R.eng_ctl (e : Nat) : Nat := engBase e
def R.eng_cfg (e : Nat) : Nat := engBase e + 0x4
def R.eng_filler (e : Nat) : Nat := engBase e + 0x8
def R.eng_entry (e : Nat) : Nat := engBase e + 0xc
def R.eng_suite (e : Nat) : Nat := engBase e + 0x10
def R.eng_startLo (e : Nat) : Nat := engBase e + 0x18
def R.eng_startHi (e : Nat) : Nat := engBase e + 0x1c
def R.eng_stat (e : Nat) : Nat := engBase e + 0x20
def R.eng_pc (e : Nat) : Nat := engBase e + 0x24
def R.eng_seg (e : Nat) : Nat := engBase e + 0x28
def R.eng_gran (e : Nat) : Nat := engBase e + 0x2c
def R.eng_task (e : Nat) : Nat := engBase e + 0x30
def R.eng_taskset (e : Nat) : Nat := engBase e + 0x34
def R.eng_coinc (e : Nat) : Nat := engBase e + 0x38
def R.eng_urunCnt (e : Nat) : Nat := engBase e + 0x40
def R.eng_urunMiss (e : Nat) : Nat := engBase e + 0x44
def R.eng_firstTimeLo (e : Nat) : Nat := engBase e + 0x48
def R.eng_firstTimeHi (e : Nat) : Nat := engBase e + 0x4c
def R.eng_firstWhere (e : Nat) : Nat := engBase e + 0x50
def R.eng_firstGran (e : Nat) : Nat := engBase e + 0x54
def R.eng_firstLoop (e : Nat) : Nat := engBase e + 0x58
def R.eng_firstRep (e : Nat) : Nat := engBase e + 0x5c
def R.eng_firstCtr (e : Nat) : Nat := engBase e + 0x60
def R.eng_poisonCnt (e : Nat) : Nat := engBase e + 0x64
def F.eng_ctl_reset (e : Nat) : FRef := ⟨R.eng_ctl e, 3, 1⟩
def F.eng_ctl_abort (e : Nat) : FRef := ⟨R.eng_ctl e, 2, 1⟩
def F.eng_ctl_start (e : Nat) : FRef := ⟨R.eng_ctl e, 1, 1⟩
def F.eng_ctl_arm (e : Nat) : FRef := ⟨R.eng_ctl e, 0, 1⟩
def F.eng_cfg_timeline (e : Nat) : FRef := ⟨R.eng_cfg e, 8, 1⟩
def F.eng_cfg_urun_pol (e : Nat) : FRef := ⟨R.eng_cfg e, 6, 2⟩
def F.eng_cfg_gjump (e : Nat) : FRef := ⟨R.eng_cfg e, 5, 1⟩
def F.eng_cfg_start_task (e : Nat) : FRef := ⟨R.eng_cfg e, 2, 3⟩
def F.eng_cfg_start_src (e : Nat) : FRef := ⟨R.eng_cfg e, 0, 2⟩
def F.eng_filler_seg (e : Nat) : FRef := ⟨R.eng_filler e, 0, 14⟩
def F.eng_entry_addr (e : Nat) : FRef := ⟨R.eng_entry e, 0, 12⟩
def F.eng_suite_leader (e : Nat) : FRef := ⟨R.eng_suite e, 22, 10⟩
def F.eng_suite_width_log2 (e : Nat) : FRef := ⟨R.eng_suite e, 19, 3⟩
def F.eng_suite_position (e : Nat) : FRef := ⟨R.eng_suite e, 12, 7⟩
def F.eng_suite_is_leader (e : Nat) : FRef := ⟨R.eng_suite e, 1, 1⟩
def F.eng_suite_member (e : Nat) : FRef := ⟨R.eng_suite e, 0, 1⟩
def F.eng_startLo_t (e : Nat) : FRef := ⟨R.eng_startLo e, 0, 32⟩
def F.eng_startHi_t (e : Nat) : FRef := ⟨R.eng_startHi e, 0, 32⟩
def F.eng_stat_imem_drop (e : Nat) : FRef := ⟨R.eng_stat e, 19, 1⟩
def F.eng_stat_in_filler (e : Nat) : FRef := ⟨R.eng_stat e, 18, 1⟩
def F.eng_stat_chain_late (e : Nat) : FRef := ⟨R.eng_stat e, 17, 1⟩
def F.eng_stat_start_pending (e : Nat) : FRef := ⟨R.eng_stat e, 16, 1⟩
def F.eng_stat_arm_err (e : Nat) : FRef := ⟨R.eng_stat e, 12, 4⟩
def F.eng_stat_cmd_err (e : Nat) : FRef := ⟨R.eng_stat e, 11, 1⟩
def F.eng_stat_abort_res (e : Nat) : FRef := ⟨R.eng_stat e, 8, 3⟩
def F.eng_stat_start_late (e : Nat) : FRef := ⟨R.eng_stat e, 7, 1⟩
def F.eng_stat_jump_miss (e : Nat) : FRef := ⟨R.eng_stat e, 6, 1⟩
def F.eng_stat_underrun (e : Nat) : FRef := ⟨R.eng_stat e, 5, 1⟩
def F.eng_stat_merged (e : Nat) : FRef := ⟨R.eng_stat e, 4, 1⟩
def F.eng_stat_arming (e : Nat) : FRef := ⟨R.eng_stat e, 3, 1⟩
def F.eng_stat_state (e : Nat) : FRef := ⟨R.eng_stat e, 0, 3⟩
def F.eng_pc_play_pc (e : Nat) : FRef := ⟨R.eng_pc e, 16, 12⟩
def F.eng_pc_pc (e : Nat) : FRef := ⟨R.eng_pc e, 0, 12⟩
def F.eng_seg_seg (e : Nat) : FRef := ⟨R.eng_seg e, 0, 14⟩
def F.eng_gran_gran (e : Nat) : FRef := ⟨R.eng_gran e, 0, 32⟩
def F.eng_task_overlap (e : Nat) : FRef := ⟨R.eng_task e, 16, 8⟩
def F.eng_task_merged (e : Nat) : FRef := ⟨R.eng_task e, 8, 8⟩
def F.eng_task_flag (e : Nat) : FRef := ⟨R.eng_task e, 0, 8⟩
def F.eng_taskset_set (e : Nat) : FRef := ⟨R.eng_taskset e, 0, 8⟩
def F.eng_coinc_count (e : Nat) : FRef := ⟨R.eng_coinc e, 0, 32⟩
def F.eng_urunCnt_n (e : Nat) : FRef := ⟨R.eng_urunCnt e, 0, 32⟩
def F.eng_urunMiss_n (e : Nat) : FRef := ⟨R.eng_urunMiss e, 0, 32⟩
def F.eng_firstTimeLo_t (e : Nat) : FRef := ⟨R.eng_firstTimeLo e, 0, 32⟩
def F.eng_firstTimeHi_t (e : Nat) : FRef := ⟨R.eng_firstTimeHi e, 0, 32⟩
def F.eng_firstWhere_valid (e : Nat) : FRef := ⟨R.eng_firstWhere e, 31, 1⟩
def F.eng_firstWhere_cause (e : Nat) : FRef := ⟨R.eng_firstWhere e, 28, 3⟩
def F.eng_firstWhere_ring (e : Nat) : FRef := ⟨R.eng_firstWhere e, 20, 8⟩
def F.eng_firstWhere_seg (e : Nat) : FRef := ⟨R.eng_firstWhere e, 0, 14⟩
def F.eng_firstGran_v (e : Nat) : FRef := ⟨R.eng_firstGran e, 0, 32⟩
def F.eng_firstLoop_ctr_valid (e : Nat) : FRef := ⟨R.eng_firstLoop e, 7, 1⟩
def F.eng_firstLoop_ctr (e : Nat) : FRef := ⟨R.eng_firstLoop e, 4, 3⟩
def F.eng_firstLoop_depth (e : Nat) : FRef := ⟨R.eng_firstLoop e, 0, 4⟩
def F.eng_firstRep_v (e : Nat) : FRef := ⟨R.eng_firstRep e, 0, 32⟩
def F.eng_firstCtr_v (e : Nat) : FRef := ⟨R.eng_firstCtr e, 0, 32⟩
def F.eng_poisonCnt_n (e : Nat) : FRef := ⟨R.eng_poisonCnt e, 0, 32⟩

-- Pin lane timing block (R128).
def R.lt_freqLo (l : Nat) : Nat := laneTBase l
def R.lt_freqHi (l : Nat) : Nat := laneTBase l + 0x4
def R.lt_ofsLo (l : Nat) : Nat := laneTBase l + 0x8
def R.lt_ofsHi (l : Nat) : Nat := laneTBase l + 0xc
def R.lt_tsel (l : Nat) : Nat := laneTBase l + 0x10
def R.lt_tstat (l : Nat) : Nat := laneTBase l + 0x14
def R.lt_runFreqLo (l : Nat) : Nat := laneTBase l + 0x18
def R.lt_runFreqHi (l : Nat) : Nat := laneTBase l + 0x1c
def R.lt_runOfsLo (l : Nat) : Nat := laneTBase l + 0x20
def R.lt_runOfsHi (l : Nat) : Nat := laneTBase l + 0x24
def F.lt_freqLo_freq_lo (l : Nat) : FRef := ⟨R.lt_freqLo l, 0, 32⟩
def F.lt_freqHi_freq_hi (l : Nat) : FRef := ⟨R.lt_freqHi l, 0, 16⟩
def F.lt_ofsLo_ofs_lo (l : Nat) : FRef := ⟨R.lt_ofsLo l, 0, 32⟩
def F.lt_ofsHi_ofs_hi (l : Nat) : FRef := ⟨R.lt_ofsHi l, 0, 16⟩
def F.lt_tsel_b (l : Nat) : FRef := ⟨R.lt_tsel l, 4, 4⟩
def F.lt_tsel_a (l : Nat) : FRef := ⟨R.lt_tsel l, 0, 4⟩
def F.lt_tstat_fail_set (l : Nat) : FRef := ⟨R.lt_tstat l, 24, 4⟩
def F.lt_tstat_fail_code (l : Nat) : FRef := ⟨R.lt_tstat l, 20, 4⟩
def F.lt_tstat_ts_busy (l : Nat) : FRef := ⟨R.lt_tstat l, 10, 1⟩
def F.lt_tstat_ts_rej (l : Nat) : FRef := ⟨R.lt_tstat l, 9, 1⟩
def F.lt_tstat_freq_rej (l : Nat) : FRef := ⟨R.lt_tstat l, 8, 1⟩
def F.lt_tstat_b_now (l : Nat) : FRef := ⟨R.lt_tstat l, 4, 4⟩
def F.lt_tstat_a_now (l : Nat) : FRef := ⟨R.lt_tstat l, 0, 4⟩
def F.lt_runFreqLo_v (l : Nat) : FRef := ⟨R.lt_runFreqLo l, 0, 32⟩
def F.lt_runFreqHi_v (l : Nat) : FRef := ⟨R.lt_runFreqHi l, 0, 16⟩
def F.lt_runOfsLo_v (l : Nat) : FRef := ⟨R.lt_runOfsLo l, 0, 32⟩
def F.lt_runOfsHi_v (l : Nat) : FRef := ⟨R.lt_runOfsHi l, 0, 16⟩

-- Timing sets 0-15 of each pin lane (R128).
def R.ts_fmt (l : Nat) (i : Nat) : Nat := laneTBase l + 0x100 + 0x20 * i
def R.ts_e0 (l : Nat) (i : Nat) : Nat := laneTBase l + 0x100 + 0x20 * i + 0x4
def R.ts_e1 (l : Nat) (i : Nat) : Nat := laneTBase l + 0x100 + 0x20 * i + 0x8
def R.ts_e2 (l : Nat) (i : Nat) : Nat := laneTBase l + 0x100 + 0x20 * i + 0xc
def R.ts_e3 (l : Nat) (i : Nat) : Nat := laneTBase l + 0x100 + 0x20 * i + 0x10
def F.ts_fmt_window (l : Nat) (i : Nat) : FRef := ⟨R.ts_fmt l i, 4, 1⟩
def F.ts_fmt_drive (l : Nat) (i : Nat) : FRef := ⟨R.ts_fmt l i, 0, 2⟩
def F.ts_e0_frac (l : Nat) (i : Nat) : FRef := ⟨R.ts_e0 l i, 16, 16⟩
def F.ts_e0_ofs (l : Nat) (i : Nat) : FRef := ⟨R.ts_e0 l i, 0, 14⟩
def F.ts_e1_frac (l : Nat) (i : Nat) : FRef := ⟨R.ts_e1 l i, 16, 16⟩
def F.ts_e1_ofs (l : Nat) (i : Nat) : FRef := ⟨R.ts_e1 l i, 0, 14⟩
def F.ts_e2_frac (l : Nat) (i : Nat) : FRef := ⟨R.ts_e2 l i, 16, 16⟩
def F.ts_e2_ofs (l : Nat) (i : Nat) : FRef := ⟨R.ts_e2 l i, 0, 14⟩
def F.ts_e3_frac (l : Nat) (i : Nat) : FRef := ⟨R.ts_e3 l i, 16, 16⟩
def F.ts_e3_ofs (l : Nat) (i : Nat) : FRef := ⟨R.ts_e3 l i, 0, 14⟩

-- Pin lane electrical block (R149).
def R.le_cfg (l : Nat) : Nat := laneEBase l
def R.le_lsel (l : Nat) : Nat := laneEBase l + 0x4
def R.le_lstat (l : Nat) : Nat := laneEBase l + 0x8
def R.le_cntctl (l : Nat) : Nat := laneEBase l + 0xc
def R.le_failLo (l : Nat) : Nat := laneEBase l + 0x10
def R.le_failHi (l : Nat) : Nat := laneEBase l + 0x14
def R.le_cmpLo (l : Nat) : Nat := laneEBase l + 0x18
def R.le_cmpHi (l : Nat) : Nat := laneEBase l + 0x1c
def R.le_capBase (l : Nat) : Nat := laneEBase l + 0x30
def R.le_capLen (l : Nat) : Nat := laneEBase l + 0x34
def R.le_capWptr (l : Nat) : Nat := laneEBase l + 0x38
def R.le_capCnt (l : Nat) : Nat := laneEBase l + 0x3c
def R.le_capDrop (l : Nat) : Nat := laneEBase l + 0x40
def R.le_capStat (l : Nat) : Nat := laneEBase l + 0x44
def F.le_cfg_clr_on_arm (l : Nat) : FRef := ⟨R.le_cfg l, 10, 1⟩
def F.le_cfg_drv_term (l : Nat) : FRef := ⟨R.le_cfg l, 9, 1⟩
def F.le_cfg_loss (l : Nat) : FRef := ⟨R.le_cfg l, 8, 1⟩
def F.le_cfg_park_lvl (l : Nat) : FRef := ⟨R.le_cfg l, 4, 3⟩
def F.le_cfg_park (l : Nat) : FRef := ⟨R.le_cfg l, 0, 2⟩
def F.le_lsel_lvl (l : Nat) : FRef := ⟨R.le_lsel l, 0, 3⟩
def F.le_lstat_lvl_now (l : Nat) : FRef := ⟨R.le_lstat l, 16, 3⟩
def F.le_lstat_delay_ret (l : Nat) : FRef := ⟨R.le_lstat l, 8, 1⟩
def F.le_lstat_cmp_ret (l : Nat) : FRef := ⟨R.le_lstat l, 7, 1⟩
def F.le_lstat_slice_ret (l : Nat) : FRef := ⟨R.le_lstat l, 6, 1⟩
def F.le_lstat_fail_sat (l : Nat) : FRef := ⟨R.le_lstat l, 5, 1⟩
def F.le_lstat_cmp_sat (l : Nat) : FRef := ⟨R.le_lstat l, 4, 1⟩
def F.le_lstat_cfg_rej (l : Nat) : FRef := ⟨R.le_lstat l, 3, 1⟩
def F.le_lstat_ls_busy (l : Nat) : FRef := ⟨R.le_lstat l, 2, 1⟩
def F.le_lstat_ls_rej (l : Nat) : FRef := ⟨R.le_lstat l, 1, 1⟩
def F.le_cntctl_clr (l : Nat) : FRef := ⟨R.le_cntctl l, 0, 1⟩
def F.le_failLo_cnt_lo (l : Nat) : FRef := ⟨R.le_failLo l, 0, 32⟩
def F.le_failHi_cnt_hi (l : Nat) : FRef := ⟨R.le_failHi l, 0, 16⟩
def F.le_cmpLo_cnt_lo (l : Nat) : FRef := ⟨R.le_cmpLo l, 0, 32⟩
def F.le_cmpHi_cnt_hi (l : Nat) : FRef := ⟨R.le_cmpHi l, 0, 16⟩
def F.le_capBase_gran (l : Nat) : FRef := ⟨R.le_capBase l, 0, 32⟩
def F.le_capLen_wrap (l : Nat) : FRef := ⟨R.le_capLen l, 31, 1⟩
def F.le_capLen_len (l : Nat) : FRef := ⟨R.le_capLen l, 0, 28⟩
def F.le_capWptr_slot (l : Nat) : FRef := ⟨R.le_capWptr l, 28, 2⟩
def F.le_capWptr_gran (l : Nat) : FRef := ⟨R.le_capWptr l, 0, 28⟩
def F.le_capCnt_n (l : Nat) : FRef := ⟨R.le_capCnt l, 0, 32⟩
def F.le_capDrop_n (l : Nat) : FRef := ⟨R.le_capDrop l, 0, 32⟩
def F.le_capStat_bad_region (l : Nat) : FRef := ⟨R.le_capStat l, 4, 1⟩
def F.le_capStat_open (l : Nat) : FRef := ⟨R.le_capStat l, 3, 1⟩
def F.le_capStat_wrapped (l : Nat) : FRef := ⟨R.le_capStat l, 2, 1⟩
def F.le_capStat_full (l : Nat) : FRef := ⟨R.le_capStat l, 1, 1⟩
def F.le_capStat_rate_drop (l : Nat) : FRef := ⟨R.le_capStat l, 0, 1⟩

-- Level sets 0-7 of each pin lane (R149).
def R.ls_drv (l : Nat) (i : Nat) : Nat := laneEBase l + 0x100 + 0x10 * i
def R.ls_thr (l : Nat) (i : Nat) : Nat := laneEBase l + 0x100 + 0x10 * i + 0x4
def F.ls_drv_vcm (l : Nat) (i : Nat) : FRef := ⟨R.ls_drv l i, 16, 12⟩
def F.ls_drv_swing (l : Nat) (i : Nat) : FRef := ⟨R.ls_drv l i, 0, 12⟩
def F.ls_thr_vth (l : Nat) (i : Nat) : FRef := ⟨R.ls_thr l i, 16, 16⟩
def F.ls_thr_vtl (l : Nat) (i : Nat) : FRef := ⟨R.ls_thr l i, 0, 16⟩

-- Room level monitor (R150).
def R.mon_ctl (n : Nat) : Nat := roomBase n + 0xB8000
def R.mon_stat (n : Nat) : Nat := roomBase n + 0xB8000 + 0x4
def R.mon_result (n : Nat) : Nat := roomBase n + 0xB8000 + 0x8
def F.mon_ctl_avg_log2 (n : Nat) : FRef := ⟨R.mon_ctl n, 12, 4⟩
def F.mon_ctl_lane (n : Nat) : FRef := ⟨R.mon_ctl n, 8, 4⟩
def F.mon_ctl_node (n : Nat) : FRef := ⟨R.mon_ctl n, 2, 3⟩
def F.mon_ctl_go (n : Nat) : FRef := ⟨R.mon_ctl n, 0, 1⟩
def F.mon_stat_cmd_err (n : Nat) : FRef := ⟨R.mon_stat n, 3, 1⟩
def F.mon_stat_stale (n : Nat) : FRef := ⟨R.mon_stat n, 2, 1⟩
def F.mon_stat_done (n : Nat) : FRef := ⟨R.mon_stat n, 1, 1⟩
def F.mon_stat_busy (n : Nat) : FRef := ⟨R.mon_stat n, 0, 1⟩
def F.mon_result_uv (n : Nat) : FRef := ⟨R.mon_result n, 0, 32⟩

-- Express lane block (R165).
def R.xl_rateLo (k : Nat) : Nat := xlaneBase k
def R.xl_rateHi (k : Nat) : Nat := xlaneBase k + 0x4
def R.xl_ofsLo (k : Nat) : Nat := xlaneBase k + 0x8
def R.xl_ofsHi (k : Nat) : Nat := xlaneBase k + 0xc
def R.xl_cfg (k : Nat) : Nat := xlaneBase k + 0x10
def R.xl_txeq (k : Nat) : Nat := xlaneBase k + 0x14
def R.xl_rxeq (k : Nat) : Nat := xlaneBase k + 0x18
def R.xl_synccfg (k : Nat) : Nat := xlaneBase k + 0x1c
def R.xl_xstat (k : Nat) : Nat := xlaneBase k + 0x20
def R.xl_syncstat (k : Nat) : Nat := xlaneBase k + 0x24
def R.xl_runRateLo (k : Nat) : Nat := xlaneBase k + 0x28
def R.xl_runRateHi (k : Nat) : Nat := xlaneBase k + 0x2c
def R.xl_failLo (k : Nat) : Nat := xlaneBase k + 0x30
def R.xl_failHi (k : Nat) : Nat := xlaneBase k + 0x34
def R.xl_cmpLo (k : Nat) : Nat := xlaneBase k + 0x38
def R.xl_cmpHi (k : Nat) : Nat := xlaneBase k + 0x3c
def R.xl_cntctl (k : Nat) : Nat := xlaneBase k + 0x40
def R.xl_capBase (k : Nat) : Nat := xlaneBase k + 0x50
def R.xl_capLen (k : Nat) : Nat := xlaneBase k + 0x54
def R.xl_capWptr (k : Nat) : Nat := xlaneBase k + 0x58
def R.xl_capCnt (k : Nat) : Nat := xlaneBase k + 0x5c
def R.xl_capDrop (k : Nat) : Nat := xlaneBase k + 0x60
def R.xl_capStat (k : Nat) : Nat := xlaneBase k + 0x64
def R.xl_rxstat (k : Nat) : Nat := xlaneBase k + 0x7c
def F.xl_rateLo_rate_lo (k : Nat) : FRef := ⟨R.xl_rateLo k, 0, 32⟩
def F.xl_rateHi_rate_hi (k : Nat) : FRef := ⟨R.xl_rateHi k, 0, 4⟩
def F.xl_ofsLo_ofs_lo (k : Nat) : FRef := ⟨R.xl_ofsLo k, 0, 32⟩
def F.xl_ofsHi_ofs_hi (k : Nat) : FRef := ⟨R.xl_ofsHi k, 0, 16⟩
def F.xl_cfg_clr_on_arm (k : Nat) : FRef := ⟨R.xl_cfg k, 6, 1⟩
def F.xl_cfg_rx_inv (k : Nat) : FRef := ⟨R.xl_cfg k, 5, 1⟩
def F.xl_cfg_tx_inv (k : Nat) : FRef := ⟨R.xl_cfg k, 4, 1⟩
def F.xl_cfg_cmpm (k : Nat) : FRef := ⟨R.xl_cfg k, 0, 4⟩
def F.xl_txeq_amp (k : Nat) : FRef := ⟨R.xl_txeq k, 16, 7⟩
def F.xl_txeq_post (k : Nat) : FRef := ⟨R.xl_txeq k, 8, 5⟩
def F.xl_txeq_pre (k : Nat) : FRef := ⟨R.xl_txeq k, 0, 5⟩
def F.xl_rxeq_freeze (k : Nat) : FRef := ⟨R.xl_rxeq k, 16, 1⟩
def F.xl_rxeq_ctle (k : Nat) : FRef := ⟨R.xl_rxeq k, 8, 4⟩
def F.xl_rxeq_ctle_auto (k : Nat) : FRef := ⟨R.xl_rxeq k, 4, 1⟩
def F.xl_rxeq_dfe_en (k : Nat) : FRef := ⟨R.xl_rxeq k, 0, 1⟩
def F.xl_synccfg_search (k : Nat) : FRef := ⟨R.xl_synccfg k, 16, 6⟩
def F.xl_synccfg_lat (k : Nat) : FRef := ⟨R.xl_synccfg k, 0, 16⟩
def F.xl_xstat_cfg_rej (k : Nat) : FRef := ⟨R.xl_xstat k, 11, 1⟩
def F.xl_xstat_rate_rej (k : Nat) : FRef := ⟨R.xl_xstat k, 10, 1⟩
def F.xl_xstat_retune_hit (k : Nat) : FRef := ⟨R.xl_xstat k, 9, 1⟩
def F.xl_xstat_fail_sat (k : Nat) : FRef := ⟨R.xl_xstat k, 8, 1⟩
def F.xl_xstat_cmp_sat (k : Nat) : FRef := ⟨R.xl_xstat k, 7, 1⟩
def F.xl_xstat_lost (k : Nat) : FRef := ⟨R.xl_xstat k, 6, 1⟩
def F.xl_xstat_slipped (k : Nat) : FRef := ⟨R.xl_xstat k, 5, 1⟩
def F.xl_xstat_rx_idle (k : Nat) : FRef := ⟨R.xl_xstat k, 4, 1⟩
def F.xl_xstat_shuttered (k : Nat) : FRef := ⟨R.xl_xstat k, 3, 1⟩
def F.xl_xstat_sync (k : Nat) : FRef := ⟨R.xl_xstat k, 0, 2⟩
def F.xl_syncstat_loss_cnt (k : Nat) : FRef := ⟨R.xl_syncstat k, 24, 8⟩
def F.xl_syncstat_slip_cnt (k : Nat) : FRef := ⟨R.xl_syncstat k, 8, 16⟩
def F.xl_syncstat_offset (k : Nat) : FRef := ⟨R.xl_syncstat k, 0, 7⟩
def F.xl_runRateLo_v (k : Nat) : FRef := ⟨R.xl_runRateLo k, 0, 32⟩
def F.xl_runRateHi_v (k : Nat) : FRef := ⟨R.xl_runRateHi k, 0, 4⟩
def F.xl_failLo_cnt_lo (k : Nat) : FRef := ⟨R.xl_failLo k, 0, 32⟩
def F.xl_failHi_cnt_hi (k : Nat) : FRef := ⟨R.xl_failHi k, 0, 16⟩
def F.xl_cmpLo_cnt_lo (k : Nat) : FRef := ⟨R.xl_cmpLo k, 0, 32⟩
def F.xl_cmpHi_cnt_hi (k : Nat) : FRef := ⟨R.xl_cmpHi k, 0, 16⟩
def F.xl_cntctl_clr (k : Nat) : FRef := ⟨R.xl_cntctl k, 0, 1⟩
def F.xl_capBase_gran (k : Nat) : FRef := ⟨R.xl_capBase k, 0, 32⟩
def F.xl_capLen_wrap (k : Nat) : FRef := ⟨R.xl_capLen k, 31, 1⟩
def F.xl_capLen_len (k : Nat) : FRef := ⟨R.xl_capLen k, 0, 28⟩
def F.xl_capWptr_slot (k : Nat) : FRef := ⟨R.xl_capWptr k, 28, 2⟩
def F.xl_capWptr_gran (k : Nat) : FRef := ⟨R.xl_capWptr k, 0, 28⟩
def F.xl_capCnt_n (k : Nat) : FRef := ⟨R.xl_capCnt k, 0, 32⟩
def F.xl_capDrop_n (k : Nat) : FRef := ⟨R.xl_capDrop k, 0, 32⟩
def F.xl_capStat_bad_region (k : Nat) : FRef := ⟨R.xl_capStat k, 4, 1⟩
def F.xl_capStat_open (k : Nat) : FRef := ⟨R.xl_capStat k, 3, 1⟩
def F.xl_capStat_wrapped (k : Nat) : FRef := ⟨R.xl_capStat k, 2, 1⟩
def F.xl_capStat_full (k : Nat) : FRef := ⟨R.xl_capStat k, 1, 1⟩
def F.xl_capStat_rate_drop (k : Nat) : FRef := ⟨R.xl_capStat k, 0, 1⟩
def F.xl_rxstat_ctle_now (k : Nat) : FRef := ⟨R.xl_rxstat k, 0, 4⟩

-- DFE taps 0-7 of each express lane (R165).
def R.dfe_tap (k : Nat) (i : Nat) : Nat := xlaneBase k + 0x80 + 4 * i
def F.dfe_tap_tap (k : Nat) (i : Nat) : FRef := ⟨R.dfe_tap k i, 0, 8⟩

-- Quad rate target and retune status (R166).
def R.xq_rateLo (q : Nat) : Nat := quadBase q + 0x41000
def R.xq_rateHi (q : Nat) : Nat := quadBase q + 0x41000 + 0x4
def R.xq_stat (q : Nat) : Nat := quadBase q + 0x41000 + 0x8
def F.xq_rateLo_v (q : Nat) : FRef := ⟨R.xq_rateLo q, 0, 32⟩
def F.xq_rateHi_v (q : Nat) : FRef := ⟨R.xq_rateHi q, 0, 4⟩
def F.xq_stat_retunes (q : Nat) : FRef := ⟨R.xq_stat q, 16, 16⟩
def F.xq_stat_requester (q : Nat) : FRef := ⟨R.xq_stat q, 2, 2⟩
def F.xq_stat_retuning (q : Nat) : FRef := ⟨R.xq_stat q, 0, 1⟩

-- Segment descriptors: rooms t = 0-31 (16,384 each), quads t = 32-47 (8,192 each) (R32).
def R.seg_base (t : Nat) (i : Nat) : Nat := segBase t + 16 * i
def R.seg_len (t : Nat) (i : Nat) : Nat := segBase t + 16 * i + 0x4
def R.seg_ctl (t : Nat) (i : Nat) : Nat := segBase t + 16 * i + 0x8
def R.seg_aux (t : Nat) (i : Nat) : Nat := segBase t + 16 * i + 0xc
def F.seg_base_base (t : Nat) (i : Nat) : FRef := ⟨R.seg_base t i, 0, 32⟩
def F.seg_len_length (t : Nat) (i : Nat) : FRef := ⟨R.seg_len t i, 0, 32⟩
def F.seg_ctl_pan_off (t : Nat) (i : Nat) : FRef := ⟨R.seg_ctl t i, 16, 15⟩
def F.seg_ctl_pin_state (t : Nat) (i : Nat) : FRef := ⟨R.seg_ctl t i, 12, 2⟩
def F.seg_ctl_reload (t : Nat) (i : Nat) : FRef := ⟨R.seg_ctl t i, 11, 1⟩
def F.seg_ctl_filler (t : Nat) (i : Nat) : FRef := ⟨R.seg_ctl t i, 10, 1⟩
def F.seg_ctl_streaming (t : Nat) (i : Nat) : FRef := ⟨R.seg_ctl t i, 9, 1⟩
def F.seg_ctl_resident (t : Nat) (i : Nat) : FRef := ⟨R.seg_ctl t i, 8, 1⟩
def F.seg_ctl_suite_log2 (t : Nat) (i : Nat) : FRef := ⟨R.seg_ctl t i, 4, 3⟩
def F.seg_ctl_valid (t : Nat) (i : Nat) : FRef := ⟨R.seg_ctl t i, 3, 1⟩
def F.seg_ctl_format (t : Nat) (i : Nat) : FRef := ⟨R.seg_ctl t i, 0, 3⟩
def F.seg_aux_cmp_en (t : Nat) (i : Nat) : FRef := ⟨R.seg_aux t i, 31, 1⟩
def F.seg_aux_cmp_seg (t : Nat) (i : Nat) : FRef := ⟨R.seg_aux t i, 16, 13⟩
def F.seg_aux_slice_cnt (t : Nat) (i : Nat) : FRef := ⟨R.seg_aux t i, 8, 8⟩
def F.seg_aux_slice_first (t : Nat) (i : Nat) : FRef := ⟨R.seg_aux t i, 0, 7⟩

-- Pantry status (R53).
def R.pan_stat (t : Nat) : Nat := pantryBase t
def R.pan_free (t : Nat) : Nat := pantryBase t + 0x4
def F.pan_stat_fail_idx (t : Nat) : FRef := ⟨R.pan_stat t, 16, 14⟩
def F.pan_stat_conflict (t : Nat) : FRef := ⟨R.pan_stat t, 5, 1⟩
def F.pan_stat_pin_fail (t : Nat) : FRef := ⟨R.pan_stat t, 4, 1⟩
def F.pan_stat_poisoned (t : Nat) : FRef := ⟨R.pan_stat t, 3, 1⟩
def F.pan_stat_loading (t : Nat) : FRef := ⟨R.pan_stat t, 2, 1⟩
def F.pan_stat_held (t : Nat) : FRef := ⟨R.pan_stat t, 1, 1⟩
def F.pan_free_largest_run (t : Nat) : FRef := ⟨R.pan_free t, 16, 13⟩
def F.pan_free_free_units (t : Nat) : FRef := ⟨R.pan_free t, 0, 13⟩

-- Lockstep of each room and quad (R78).
def R.lstep_word (t : Nat) : Nat := lstepBase t
def F.lstep_word_mismatches (t : Nat) : FRef := ⟨R.lstep_word t, 16, 16⟩
def F.lstep_word_retired_valid (t : Nat) : FRef := ⟨R.lstep_word t, 13, 1⟩
def F.lstep_word_retired_slot (t : Nat) : FRef := ⟨R.lstep_word t, 8, 5⟩
def F.lstep_word_mode (t : Nat) : FRef := ⟨R.lstep_word t, 4, 2⟩
def F.lstep_word_visiting (t : Nat) : FRef := ⟨R.lstep_word t, 0, 4⟩

-- MSI-X table (layout of the PCIe specification, PRESUMED) (R313).
def R.msix_addrLo (v : Nat) : Nat := 0x03F20000 + 16 * v
def R.msix_addrHi (v : Nat) : Nat := 0x03F20000 + 16 * v + 0x4
def R.msix_data (v : Nat) : Nat := 0x03F20000 + 16 * v + 0x8
def R.msix_ctl (v : Nat) : Nat := 0x03F20000 + 16 * v + 0xc
def F.msix_addrLo_a (v : Nat) : FRef := ⟨R.msix_addrLo v, 0, 32⟩
def F.msix_addrHi_a (v : Nat) : FRef := ⟨R.msix_addrHi v, 0, 32⟩
def F.msix_data_d (v : Nat) : FRef := ⟨R.msix_data v, 0, 32⟩
def F.msix_ctl_mask (v : Nat) : FRef := ⟨R.msix_ctl v, 0, 1⟩

-- MSI-X pending-bit array (R313).
def R.pba_word (w : Nat) : Nat := 0x03F20800 + 4 * w
def F.pba_word_pend (w : Nat) : FRef := ⟨R.pba_word w, 0, 32⟩

-- Porch, host end (R320).
def R.porch_stat : Nat := 0x03F30000
def R.porch_xmap : Nat := 0x03F30000 + 0x4
def R.porch_xfail : Nat := 0x03F30000 + 0x8
def R.porch_cfg : Nat := 0x03F30000 + 0xc
def R.porch_retry : Nat := 0x03F30000 + 0x10
def R.porch_drop : Nat := 0x03F30000 + 0x14
def R.porch_lostwr : Nat := 0x03F30000 + 0x18
def F.porch_stat_ver : FRef := ⟨R.porch_stat, 16, 4⟩
def F.porch_stat_used : FRef := ⟨R.porch_stat, 11, 5⟩
def F.porch_stat_ver_err : FRef := ⟨R.porch_stat, 3, 1⟩
def F.porch_stat_went_down : FRef := ⟨R.porch_stat, 2, 1⟩
def F.porch_stat_degraded : FRef := ⟨R.porch_stat, 1, 1⟩
def F.porch_stat_up : FRef := ⟨R.porch_stat, 0, 1⟩
def F.porch_xmap_in_use : FRef := ⟨R.porch_xmap, 0, 18⟩
def F.porch_xfail_failed : FRef := ⟨R.porch_xfail, 0, 18⟩
def F.porch_cfg_max_ver : FRef := ⟨R.porch_cfg, 0, 4⟩
def F.porch_retry_n : FRef := ⟨R.porch_retry, 0, 32⟩
def F.porch_drop_n : FRef := ⟨R.porch_drop, 0, 32⟩
def F.porch_lostwr_n : FRef := ⟨R.porch_lostwr, 0, 32⟩

-- Host interface (R320).
def R.hif_aperBase : Nat := 0x03F40000
def R.hif_aperStat : Nat := 0x03F40000 + 0x4
def R.hif_roomEn : Nat := 0x03F40000 + 0x8
def R.hif_quadEn : Nat := 0x03F40000 + 0xc
def F.hif_aperBase_base : FRef := ⟨R.hif_aperBase, 0, 18⟩
def F.hif_aperStat_range : FRef := ⟨R.hif_aperStat, 2, 1⟩
def F.hif_aperStat_part_wr : FRef := ⟨R.hif_aperStat, 1, 1⟩
def F.hif_aperStat_poisoned : FRef := ⟨R.hif_aperStat, 0, 1⟩
def F.hif_roomEn_room : FRef := ⟨R.hif_roomEn, 0, 32⟩
def F.hif_quadEn_wing : FRef := ⟨R.hif_quadEn, 0, 4⟩

-- DMA queues (R320).
def R.dmaq_baseLo (i : Nat) : Nat := 0x03F40100 + 0x40 * i
def R.dmaq_baseHi (i : Nat) : Nat := 0x03F40100 + 0x40 * i + 0x4
def R.dmaq_size (i : Nat) : Nat := 0x03F40100 + 0x40 * i + 0x8
def R.dmaq_tail (i : Nat) : Nat := 0x03F40100 + 0x40 * i + 0xc
def R.dmaq_head (i : Nat) : Nat := 0x03F40100 + 0x40 * i + 0x10
def R.dmaq_ctl (i : Nat) : Nat := 0x03F40100 + 0x40 * i + 0x14
def R.dmaq_stat (i : Nat) : Nat := 0x03F40100 + 0x40 * i + 0x18
def F.dmaq_baseLo_a (i : Nat) : FRef := ⟨R.dmaq_baseLo i, 6, 26⟩
def F.dmaq_baseHi_a (i : Nat) : FRef := ⟨R.dmaq_baseHi i, 0, 32⟩
def F.dmaq_size_size_log2 (i : Nat) : FRef := ⟨R.dmaq_size i, 0, 4⟩
def F.dmaq_tail_tail (i : Nat) : FRef := ⟨R.dmaq_tail i, 0, 12⟩
def F.dmaq_head_head (i : Nat) : FRef := ⟨R.dmaq_head i, 0, 12⟩
def F.dmaq_ctl_restart (i : Nat) : FRef := ⟨R.dmaq_ctl i, 2, 1⟩
def F.dmaq_ctl_abort (i : Nat) : FRef := ⟨R.dmaq_ctl i, 1, 1⟩
def F.dmaq_ctl_en (i : Nat) : FRef := ⟨R.dmaq_ctl i, 0, 1⟩
def F.dmaq_stat_err (i : Nat) : FRef := ⟨R.dmaq_stat i, 12, 4⟩
def F.dmaq_stat_abort_res (i : Nat) : FRef := ⟨R.dmaq_stat i, 8, 3⟩
def F.dmaq_stat_halted (i : Nat) : FRef := ⟨R.dmaq_stat i, 4, 1⟩
def F.dmaq_stat_busy (i : Nat) : FRef := ⟨R.dmaq_stat i, 0, 1⟩

-- Instruction stores (R80).
def R.imem_lo (e : Nat) (i : Nat) : Nat := imemBase e + 8 * i
def R.imem_hi (e : Nat) (i : Nat) : Nat := imemBase e + 8 * i + 0x4
def F.imem_lo_w (e : Nat) (i : Nat) : FRef := ⟨R.imem_lo e i, 0, 32⟩
def F.imem_hi_w (e : Nat) (i : Nat) : FRef := ⟨R.imem_hi e i, 0, 32⟩

end Sys2Proof.Machine
end

