-- ==== Sys2Proof/Machine/Ops.lean ====
section
/-! DEFINITION. The named operations over the state: registers and their fields, engines, lanes, tables, the pattern store,
the clocks and free values. -/

namespace Sys2Proof.Machine

/-- The register at byte address a: its value, or its reset value where nothing is listed (Layout.resetWord). -/
def State.reg (s : State) (a : Nat) : Word := tget resetWord s.regs a
/-- Put w into the register at byte address a. -/
def State.setReg (s : State) (a : Nat) (w : Word) : State := { s with regs := tset resetWord s.regs a w }
/-- A field's value. -/
def State.f (s : State) (r : FRef) : Nat := bitsOf (s.reg r.addr) r.lo r.w
/-- Give a field a value (modulo its width); the other fields of its register are left. -/
def State.put (s : State) (r : FRef) (v : Nat) : State := s.setReg r.addr (putBits (s.reg r.addr) r.lo r.w v)
/-- A field is not 0. -/
def State.on (s : State) (r : FRef) : Bool := s.f r != 0
/-- Apply f where c holds. -/
def State.when (s : State) (c : Bool) (f : State → State) : State := if c then f s else s
/-- A 64-bit value held as a _LO and a _HI register (R286). -/
def State.pair (s : State) (lo hi : Nat) : Nat := (s.reg lo).toNat + (s.reg hi).toNat * 2 ^ 32
/-- Put a 64-bit value into a _LO and a _HI register. -/
def State.putPair (s : State) (lo hi : Nat) (v : Nat) : State :=
  (s.setReg lo (BitVec.ofNat 32 v)).setReg hi (BitVec.ofNat 32 (v / 2 ^ 32))

/-- Engine e. -/
def State.engine (s : State) (e : Nat) : Engine := tget (fun _ => ({} : Engine)) s.eng e
/-- Replace engine e. -/
def State.setEngine (s : State) (e : Nat) (x : Engine) : State := { s with eng := tset (fun _ => ({} : Engine)) s.eng e x }
/-- Change engine e. -/
def State.modE (s : State) (e : Nat) (g : Engine → Engine) : State := s.setEngine e (g (s.engine e))
/-- Lane of engine e. -/
def State.laneOf (s : State) (e : Nat) : Lane := tget (fun _ => ({} : Lane)) s.lane e
/-- Replace the lane of engine e. -/
def State.setLane (s : State) (e : Nat) (x : Lane) : State := { s with lane := tset (fun _ => ({} : Lane)) s.lane e x }
/-- Change the lane of engine e. -/
def State.modL (s : State) (e : Nat) (g : Lane → Lane) : State := s.setLane e (g (s.laneOf e))
/-- Room or quad t. -/
def State.table (s : State) (t : Nat) : Table := tget (fun _ => ({} : Table)) s.tab t
/-- Replace room or quad t. -/
def State.setTable (s : State) (t : Nat) (x : Table) : State := { s with tab := tset (fun _ => ({} : Table)) s.tab t x }
/-- Change room or quad t. -/
def State.modT (s : State) (t : Nat) (g : Table → Table) : State := s.setTable t (g (s.table t))
/-- PLL id. -/
def State.pllOf (s : State) (i : Nat) : Pll := tget (fun _ => ({} : Pll)) s.pll i
/-- Change PLL id. -/
def State.modPll (s : State) (i : Nat) (g : Pll → Pll) : State :=
  { s with pll := tset (fun _ => ({} : Pll)) s.pll i (g (s.pllOf i)) }
/-- The collector of a side. -/
def State.flt (s : State) : Side → Collector
  | .field => s.fltF
  | .host => s.fltH
/-- Replace the collector of a side. -/
def State.setFlt (s : State) (sd : Side) (c : Collector) : State :=
  match sd with
  | .field => { s with fltF := c }
  | .host => { s with fltH := c }
/-- Change the collector of a side. -/
def State.modF (s : State) (sd : Side) (g : Collector → Collector) : State := s.setFlt sd (g (s.flt sd))
/-- Change the hallway. -/
def State.modH (s : State) (g : Hall → Hall) : State := { s with hall := g s.hall }
/-- Change the porch. -/
def State.modP (s : State) (g : Porch → Porch) : State := { s with porch := g s.porch }
/-- DMA queue i. -/
def State.dmaOf (s : State) (i : Nat) : Dma := tget (fun _ => ({} : Dma)) s.dma i
/-- Change DMA queue i. -/
def State.modD (s : State) (i : Nat) (g : Dma → Dma) : State := { s with dma := tset (fun _ => ({} : Dma)) s.dma i (g (s.dmaOf i)) }
/-- Monitor counter i. -/
def State.monOf (s : State) (i : Nat) : Mon := tget (fun _ => ({} : Mon)) s.mon i
/-- Change monitor counter i. -/
def State.modMon (s : State) (i : Nat) (g : Mon → Mon) : State := { s with mon := tset (fun _ => ({} : Mon)) s.mon i (g (s.monOf i)) }
/-- The walk of room or quad t. -/
def State.walkOf (s : State) (t : Nat) : Walk := tget (fun _ => ({} : Walk)) s.walk t
/-- Change the walk of room or quad t. -/
def State.modW (s : State) (t : Nat) (g : Walk → Walk) : State := { s with walk := tset (fun _ => ({} : Walk)) s.walk t (g (s.walkOf t)) }
/-- Part i of lane e. -/
def State.partOf (s : State) (e i : Nat) : CalPart := tget (fun _ => ({} : CalPart)) s.part (32 * e + i)
/-- Change part i of lane e. -/
def State.modPart (s : State) (e i : Nat) (g : CalPart → CalPart) : State :=
  { s with part := tset (fun _ => ({} : CalPart)) s.part (32 * e + i) (g (s.partOf e i)) }
/-- Change every listed part. -/
def State.mapParts (s : State) (g : CalPart → CalPart) : State :=
  { s with part := s.part.filterMap (fun p => if g p.2 = {} then none else some (p.1, g p.2)) }
/-- Calibration's view of lane e. -/
def State.claneOf (s : State) (e : Nat) : CalLane := tget (fun _ => ({} : CalLane)) s.clane e
/-- Change calibration's view of lane e. -/
def State.modC (s : State) (e : Nat) (g : CalLane → CalLane) : State :=
  { s with clane := tset (fun _ => ({} : CalLane)) s.clane e (g (s.claneOf e)) }
/-- A value the spec does not state: the next free value (log entry 13). -/
def State.draw (s : State) : BitVec 32 × State := (Config.freeWord s.free, { s with free := s.free + 1 })

/-! ### Numbers of units -/

/-- An engine that serves a pin lane (R12). -/
def isPin (e : Nat) : Bool := decide (e < 512)
/-- Room or quad of engine e (32 + q for quad q). -/
def tableOf (e : Nat) : Nat := if e < 512 then e / 16 else 32 + (e - 512) / 4
/-- Number of engine e within its room or quad. -/
def localOf (e : Nat) : Nat := if e < 512 then e % 16 else e % 4
/-- The engines of room or quad t. -/
def enginesOf (t : Nat) : List Nat :=
  if t < 32 then (List.range 16).map (fun k => 16 * t + k) else (List.range 4).map (fun k => 512 + 4 * (t - 32) + k)
/-- Wing of engine e (R15). -/
def wingOf (e : Nat) : Nat := if e < 512 then e / 128 else (e - 512) / 16
/-- PLL id of the room or quad of table t (R233). -/
def pllOfTable (t : Nat) : Nat := t + 1
/-- Vectors or UI in a granule of a lane (R29). -/
def perGranule (e : Nat) : Nat := if e < 512 then 128 else 512
/-- Capacity of the prefetch queue in granules (R16). -/
def queueCap (e : Nat) : Nat := if e < 512 then 100 else 227
/-- Number of descriptors of a table (R31). -/
def segCountN (t : Nat) : Nat := if t < 32 then 16384 else 8192
/-- Every engine. -/
def allEngines : List Nat := List.range 576

/-! ### Clocks -/

/-- 1/196,608 beat units in a core cycle of 1.2 GHz (R199: 16/3 beats). -/
def coreU : Nat := 1048576
/-- The same units in a beat. -/
def beatU : Nat := 196608
/-- The same units in 2^-16 beat (R106). -/
def t16U : Nat := 3
/-- The same units in an infrastructure cycle of 400 MHz (R245: 16 beats). -/
def infraU : Nat := 3145728
/-- The same units in 1 microsecond. -/
def usU : Nat := 6400 * beatU
/-- The house, core and HREF clocks run (R247). -/
def houseOpen (s : State) : Bool := s.on F.clk_shutOther_house
/-- Core cycle K that contains the present instant (R199). -/
def coreNow (s : State) : Nat := s.clk.house / coreU
/-- House-logic cycle (1.6 GHz, 4 beats) of the present instant (R233). -/
def logicNow (s : State) : Nat := s.clk.house / (4 * beatU)
/-- House time in 2^-16 beat. -/
def t16Now (s : State) : Nat := s.clk.house / t16U
/-- House time in whole beats, modulo 2^64 (R106). -/
def beatsNow (s : State) : Nat := s.clk.house / beatU % 2 ^ 64
/-- Instant, in 2^-16 beat, of a programmed house time: the count wraps with house time after 2^64 beats (R106). A programmed time lies in
the present turn of the count (DESIGN CHOICE, log entry 64). -/
def absT (s : State) (b : Nat) : Nat := (s.clk.house / beatU / 2 ^ 64 * 2 ^ 64 + b) * 2 ^ 16
/-- Core cycle that contains the instant t (2^-16 beat). -/
def coreOf (t : Nat) : Nat := t * t16U / coreU
/-- First instant of core cycle k, in 2^-16 beat. -/
def coreStart (k : Nat) : Nat := divUp (k * coreU) t16U
/-- Infrastructure cycle of the present instant. -/
def infraNow (s : State) : Nat := s.clk.now / infraU
/-- Cycle of a side's infrastructure clock (R245, R246): 400 MHz on the field side, 200 MHz on the host side. -/
def infraOf (s : State) : Side → Nat
  | .field => infraNow s
  | .host => s.clk.now / (2 * infraU)
/-- The core clock of power states F2 and F3 runs at 300 MHz (R199). -/
def coreSlow (s : State) : Bool := decide (2 ≤ s.f F.pwr_stat_state)
/-- Units of one cycle of the running core clock. -/
def cycleU (s : State) : Nat := if coreSlow s then 4 * coreU else coreU
/-- Grid cycles that one cycle of the running core clock covers (R199). -/
def gridStep (s : State) : Nat := cycleU s / coreU
/-- First grid cycle of the running core clock's cycle that contains grid cycle c (R199). -/
def gridOf (s : State) (c : Nat) : Nat := c / gridStep s * gridStep s
/-- Let true time pass by n units; house time counts only while the house shutter is open (R108). -/
def passTime (s : State) (n : Nat) : State :=
  { s with clk := { s.clk with now := s.clk.now + n, house := if houseOpen s then s.clk.house + n else s.clk.house } }


/-! ### Updates by hardware -/

/-- A window of the infrastructure domain (R296). -/
def infraWindow (a : Nat) : Bool := decide (a < 0x28000) || (decide (0x30000 ≤ a) && decide (a < 0x50000))
/-- A register of the host tile (R296). -/
def hostReg (a : Nat) : Bool := decide (0x03F00000 ≤ a)
/-- The present cycle of the domain of the register at byte address a (R285, R296). -/
def regCycle (s : State) (a : Nat) : Nat :=
  if hostReg a then infraOf s .host else if infraWindow a then infraNow s else s.clk.house / cycleU s
/-- Note that hardware has set bits of a status field, or added n to a counter, in the present cycle (R285). -/
def State.noteHw (s : State) (r : FRef) (bits n : Nat) : State :=
  { s with hw := s.hw.filter (fun u => u.cyc == regCycle s u.addr) ++
    [⟨regCycle s r.addr, r.addr, r.lo, bits % 2 ^ r.w * 2 ^ r.lo, n⟩] }
/-- Hardware's updates of a register in the present cycle. -/
def State.hwOf (s : State) (a : Nat) : List HwUpd := s.hw.filter (fun u => u.cyc == regCycle s a && u.addr == a)
/-- Status bits of a field that hardware has set in the present cycle: a write of this cycle does not clear them (R285). -/
def State.hwSet (s : State) (r : FRef) : Nat := 
  (s.hwOf r.addr).foldl (fun a u => a ||| u.bits) 0 / 2 ^ r.lo % 2 ^ r.w
/-- What hardware has added to a counter in the present cycle: a write of this cycle does not take it back (R285). -/
def State.hwSum (s : State) (r : FRef) : Nat := 
  ((s.hwOf r.addr).filter (fun u => u.lo == r.lo)).foldl (fun a u => a + u.n) 0
/-- Set a bit. -/
def State.raise (s : State) (r : FRef) : State := (s.put r 1).noteHw r 1 0
/-- Set the bits of m in a field of flags. -/
def State.raiseBits (s : State) (r : FRef) (m : Nat) : State := (s.put r (s.f r ||| m)).noteHw r m 0
/-- Add n to a counter that wraps. -/
def State.count (s : State) (r : FRef) (n : Nat) : State := (s.put r (s.f r + n)).noteHw r 0 n
/-- Add n to a counter that saturates (R182, R202, R280). -/
def State.countSat (s : State) (r : FRef) (n : Nat) : State := (s.put r (satAdd r.w (s.f r) n)).noteHw r 0 n
/-- Clear a status field by command, but for the bits that hardware set in this cycle (R285). -/
def State.clearBits (s : State) (r : FRef) : State := s.put r (s.hwSet r &&& s.f r)
/-- Clear a counter by command, but for this cycle's increment (R285). -/
def State.clearCount (s : State) (r : FRef) : State := s.put r (s.hwSum r)

/-- The side is held in reset: its boot stage reads RESET (R358, R360, R364). -/
def heldSide (s : State) : Side → Bool
  | .field => s.f F.id_bootStat_stage == 0
  | .host => s.f F.hboot_stat_stage == 0

/-! ### Pattern store bytes -/

/-- Granules of the store (R29). -/
def storeGranules : Nat := 3221225472
/-- A byte of the store that nothing has written reads 0 (DESIGN CHOICE, log entry 4). -/
def storeDefault (_ : Nat) : BitVec 8 := 0

end Sys2Proof.Machine
end

