-- ==== Sys2Proof/Machine/Timeline.lean ====
section
/-! DEFINITION. The lane timeline (R116-R120): phases in 2^-64 period, offsets in 2^-48 period, instants in 2^-16 beat. -/

namespace Sys2Proof.Machine

/-- Phase of a lane at instant t, in 2^-64 vector or UI (R117, R118). -/
def phaseAt (x : Settings) (epoch t : Nat) : Int := (x.freq : Int) * ((t : Int) - (epoch : Int)) + x.ofs * 2 ^ 16

/-- Instant of boundary k, to the nearest 2^-16 beat (R117, R119). -/
def boundaryT (x : Settings) (epoch : Nat) (k : Int) : Nat :=
  ((epoch : Int) + idivRound (k * 2 ^ 64 - x.ofs * 2 ^ 16) (max x.freq 1)).toNat

/-- Instant of boundary k as the device places it: at the nearest 1/256 beat of the exact instant (R117). -/
def placedT (x : Settings) (epoch : Nat) (k : Int) : Nat :=
  let f := max x.freq 1
  (idivRound ((epoch : Int) * (f : Int) + (k * 2 ^ 64 - x.ofs * 2 ^ 16)) (f * 256) * 256).toNat

/-- First whole phase at or after a phase given in 2^-n period. -/
def ceilPhase (n : Nat) (p : Int) : Int := -((-p) / (2 ^ n : Int))

/-- First boundary at or after instant t (R120). -/
def firstBoundary (x : Settings) (epoch t : Nat) : Int := ceilPhase 64 (phaseAt x epoch t)

/-- Keep the whole part of an offset modulo 2^48 periods (R117); the phase count of the boundaries moves with it. -/
def normOfs (o : Int) : Int := o % (2 ^ 96 : Int)

/-- The settings after the chain's SETP and SETF, at the switch instant ts where the old timeline has phase k (R119), and the
phase of the first boundary of the new timeline (R120). -/
def switchSettings (x : Settings) (epoch ts : Nat) (k : Int) (phase : Option Int) (freq : Option (Nat × Nat × Bool)) :
    Settings × Int :=
  let ofs1 := phase.getD x.ofs
  let mid : Int := k * 2 ^ 48 + (ofs1 - x.ofs)
  match freq with
  | none => if ofs1 = x.ofs then (x, k) else
    let o := normOfs ofs1
    ({ x with ofs := o }, ceilPhase 48 mid - (ofs1 - o) / 2 ^ 48)
  | some (fw, rate, false) =>
    let o := normOfs ofs1
    let y := { x with freq := fw, rate := rate, ofs := o }
    if fw = x.freq then ({ y with ofs := o }, ceilPhase 48 mid - (ofs1 - o) / 2 ^ 48)
    else (y, firstBoundary y epoch ts)
  | some (fw, rate, true) =>
    -- OFS = mid - FREQ' * (ts - E), to the nearest 2^-48, half-way cases upward (R119)
    let u := idivRound (mid * 2 ^ 16 - (fw : Int) * ((ts : Int) - (epoch : Int))) (2 ^ 16)
    let o := normOfs u
    ({ x with freq := fw, rate := rate, ofs := o }, ceilPhase 48 mid - (u - o) / 2 ^ 48)

/-- XFREQ of a line rate (R118). -/
def xfreqOf (rate : Nat) : Nat := divRound (rate * 2 ^ 48) 6400000000

/-- Frequency word of a held value: 0 stands for 2^48 (R116). -/
def freqOf (v : Nat) : Nat := if v = 0 then 2 ^ 48 else v

/-- Apply a play's pending settings to engine e at switch instant ts, where the old timeline has phase k (R86, R119): the
settings in force, and the phase of the first boundary of the new timeline. -/
def applyPend (x : Settings) (e epoch ts : Nat) (k : Int) (p : Pend) : Settings × Int :=
  let (y, k') := switchSettings x epoch ts k p.phase
    (p.freq.map (fun v => if e < 512 then (freqOf v.1, 0, v.2) else (xfreqOf v.1, v.1, v.2)))
  ({ y with a := (p.tset.getD (y.a, y.b)).1, b := (p.tset.getD (y.a, y.b)).2, lvl := p.lvl.getD y.lvl
            cmpm := p.cmpm.getD y.cmpm }, k')

/-- Phase of the start of granule g of the play in progress. -/
def granK (e : Nat) (p : Play) (g : Nat) : Int := p.k0 + (perGranule e * g : Nat)

/-- Instant of the start of granule g of the play in progress. -/
def granT (s : State) (e : Nat) (p : Play) (g : Nat) : Nat :=
  if g = 0 then p.t0 else boundaryT (s.engine e).set (s.engine e).epoch (granK e p g)

/-- Granule of the play in progress that contains the present instant. -/
def granAt (s : State) (e : Nat) (p : Play) : Nat :=
  let x := s.engine e
  ((phaseAt x.set x.epoch (t16Now s) / 2 ^ 64 - p.k0) / (perGranule e : Int)).toNat

/-- Position (vector or UI) of the play in progress at the present instant. -/
def posAt (s : State) (e : Nat) (p : Play) : Nat :=
  let x := s.engine e
  (phaseAt x.set x.epoch (t16Now s) / 2 ^ 64 - p.k0).toNat

/-- The first granule of the play that starts after instant t. -/
def granAfter (s : State) (e : Nat) (p : Play) (t : Nat) : Nat :=
  let x := s.engine e
  let ph := phaseAt x.set x.epoch t / 2 ^ 64 - p.k0
  if ph < 0 then 0 else (ph / (perGranule e : Int)).toNat + 1

/-- Instant at which the play in progress ends. -/
def endT (s : State) (e : Nat) (p : Play) : Nat := granT s e p p.endAt

/-- Length of the lane's two-granule window in core cycles, less 8 (R62); a suite leader has 6 less. -/
def chainLimit (s : State) (e : Nat) (leader : Bool) : Nat :=
  let x := (s.engine e).set
  let win := 2 * perGranule e * 2 ^ 48 * 3 / (16 * max x.freq 1)
  win - 8 - (if leader then 6 else 0)

end Sys2Proof.Machine
end

