-- ==== Sys2Proof/Machine/Monitor.lean ====
section
/-! DEFINITION. Words as they stood in a cycle (R187), and the counting of the events that monitor counters select (R300, R301). -/

namespace Sys2Proof.Machine

/-- A word of the hallway or of a counter's CFG as it stood at the start of cycle c: a word written in cycle c applies from c + 1
(R187, R301). -/
def matWord (s : State) (c a : Nat) : Word :=
  match s.hall.old.find? (fun x => x.1 == c && x.2.1 == a) with
  | some (_, _, w) => w
  | none => s.reg a

/-- Note the word an address held before a write in the present cycle (R187, R301). -/
def noteOld (s : State) (a : Nat) : State :=
  let c := coreNow s
  if s.hall.old.any (fun x => x.1 == c && x.2.1 == a) then s
  else s.modH (fun h => { h with old := h.old.filter (fun x => x.1 == c) ++ [(c, a, s.reg a)] })

/-- VAL of counter i. -/
def monVal (s : State) (i : Nat) : Nat := s.pair (R.mcnt_valLo i) (R.mcnt_valHi i)

/-- Give VAL of counter i a value; a wrap past 2^48 - 1 sets ovf (R301). -/
def setMonVal (s : State) (i v : Nat) : State :=
  (s.putPair (R.mcnt_valLo i) (R.mcnt_valHi i) (v % 2 ^ 48)).when (decide (2 ^ 48 ≤ v)) (·.raise (F.mcnt_stat_ovf i))

/-- Counter i takes n counts of core cycle c; a snapshot of that cycle takes them too (R301). -/
def monAdd (s : State) (i c n : Nat) : State :=
  let m := s.monOf i
  let s1 := setMonVal s i (monVal s i + n)
  let s2 := s1.modMon i (fun x => { x with cyc := c, cycN := (if x.cyc = c then x.cycN else 0) + n })
  s2.when (m.snapC == some c) (fun u =>
    u.putPair (R.mcnt_snapLo i) (R.mcnt_snapHi i) ((u.pair (R.mcnt_snapLo i) (R.mcnt_snapHi i) + n) % 2 ^ 48))

/-- Counter i counts the events of core cycle c: from the cycle after a start to the cycle of a stop (R301). -/
def monCounts (s : State) (i c : Nat) : Bool :=
  let m := s.monOf i
  decide (m.startC < c) && (s.on (F.mcnt_stat_running i) || decide (c ≤ m.stopC))

/-- Source src gives n events in core cycle c (R300). -/
def monEventAt (s : State) (src c n : Nat) : State :=
  (List.range 256).foldl (fun u i =>
    u.when (bitsOf (matWord u c (R.mcnt_cfg i)) 0 10 == src && monCounts u i c) (monAdd · i c n)) s

/-- Source src gives n events now. -/
def monEvent (s : State) (src n : Nat) : State := monEventAt s src (coreNow s) n

end Sys2Proof.Machine
end

