-- ==== Sys2Proof/Machine/Irq.lean ====
section
/-! DEFINITION. Frames put on the porch and MSI-X vectors (R305, R313, R316). -/

namespace Sys2Proof.Machine

/-- The field end sees the porch up (R309). -/
def porchUpF (s : State) : Bool := s.on F.regf_fporchStat_up
/-- The host end sees the porch up (R309). -/
def porchUpH (s : State) : Bool := s.on F.porch_stat_up

/-- The field end puts a frame on the porch, behind those of its priority (R306); while the porch is down nothing is sent or kept (R310). -/
def sendToHost (s : State) (m : Msg) : State :=
  if porchUpF s then (monEvent s 917 1).modP (fun p => { p with toHost := queueMsg p.toHost m }) else s
/-- The host end puts a frame on the porch; after a host FATAL it sends nothing (R272). -/
def sendToField (s : State) (m : Msg) : State :=
  if porchUpH s && !s.porch.halt then s.modP (fun p => { p with toField := queueMsg p.toField m }) else s

/-- The host tile raises MSI-X vector v: masked, it stays pending; a pending vector takes a further request into the same
bit (R313, R316). -/
def raiseVector (s : State) (v : Nat) : State :=
  if s.on (F.msix_ctl_mask v) then s.put ⟨R.pba_word (v / 32), v % 32, 1⟩ 1
  else { s with msi := s.msi ++ [v] }

/-- The field end requests vector v: one IRQ message per vector per 1 us, further requests stay pending (R316). -/
def irqField (s : State) (v : Nat) : State :=
  if !porchUpF s then s
  else
    match s.porch.irqSent.find? (fun p => p.1 == v) with
    | some (_, t) =>
      if s.clk.now < t + usU then s.modP (fun p => { p with irqPend := p.irqPend.filter (· != v) ++ [v] })
      else (sendToHost s (.irq (Fin.ofNat 64 v))).modP (fun p =>
        { p with irqSent := p.irqSent.filter (fun q => q.1 != v) ++ [(v, s.clk.now)], irqPend := p.irqPend.filter (· != v) })
    | none => (sendToHost s (.irq (Fin.ofNat 64 v))).modP (fun p => { p with irqSent := p.irqSent ++ [(v, s.clk.now)] })

/-- Send the requests whose microsecond is over (R316). -/
def irqFlush (s : State) : State := s.porch.irqPend.foldl irqField s

/-- An engine of table t entered HALTED, ABORTED, FAULTED or LOST_CLOCK: vector 16-51 (R316). The host tile holds the enable bits, so that the
field end sends the message and the host tile judges it (R2). -/
def irqEngine (s : State) (t : Nat) : State := irqField s (if t < 32 then 16 + t else 48 + (t - 32) / 4)

/-- The host tile's enable bit of vector v is 1, where it has one (R316). -/
def irqEnabled (s : State) (v : Nat) : Bool :=
  if 16 ≤ v ∧ v < 48 then s.on ⟨R.hif_roomEn, v - 16, 1⟩ else if 48 ≤ v ∧ v < 52 then s.on ⟨R.hif_quadEn, v - 48, 1⟩ else true

/-- The field ALIVE state changed or is due: one ALIVE_STATE with house time and its validity (R305, R391). -/
def sendAliveField (s : State) : State :=
  sendToHost s (.aliveState (Fin.ofNat 4 (s.f (F.flt_alive_own .field))) (BitVec.ofNat 64 (beatsNow s)) (s.on F.time_stat_valid))
/-- The host side's ALIVE_STATE. -/
def sendAliveHost (s : State) : State :=
  sendToField s (.aliveState (Fin.ofNat 4 (s.f (F.flt_alive_own .host))) 0 false)

end Sys2Proof.Machine
end

