-- ==== Sys2Proof/Machine/EngBase.lean ====
section
/-! DEFINITION. What the rules do to engines and lanes from outside their programs: states (R54, R55), clocks (R77, R140),
park states (R139), the data of a play, segment activity (R178), suites (R70). -/

namespace Sys2Proof.Machine

/-- State codes of R54. -/
def stIdle : Nat := 0
def stArmed : Nat := 1
def stRun : Nat := 2
def stWait : Nat := 3
def stHalted : Nat := 4
def stAborted : Nat := 5
def stLost : Nat := 6
def stFaulted : Nat := 7

/-- State code of engine e. -/
def est (s : State) (e : Nat) : Nat := s.f (F.eng_stat_state e)
/-- Engine e is ARMED, RUN or WAIT. -/
def active3 (s : State) (e : Nat) : Bool := decide (1 ≤ est s e) && decide (est s e ≤ 3)
/-- Engine e is RUN or WAIT. -/
def running (s : State) (e : Nat) : Bool := est s e == stRun || est s e == stWait
/-- Engine e is arming (R54). -/
def arming (s : State) (e : Nat) : Bool := s.on (F.eng_stat_arming e)

/-- Engine e's room or quad clock and the core clock have open shutters (R58). -/
def clockOpen (s : State) (e : Nat) : Bool :=
  houseOpen s && (if e < 512 then s.on ⟨R.clk_shutRoom, e / 16, 1⟩ else s.on ⟨R.clk_shutOther, 1 + (e - 512) / 4, 1⟩)

/-- Members of the suite led by engine l, from the registers read at its arm (R70): the leader and its followers. -/
def membersOf (s : State) (l : Nat) : List Nat :=
  let x := s.engine l
  if bitsOf (BitVec.ofNat 32 x.suite) 0 1 = 0 then [l]
  else (allEngines.filter (fun e => wingOf e == wingOf l && ((s.engine e).suite % 2 == 1) && ((s.engine e).suite / 2 ^ 22 == l)))

/-- Leader of the suite that engine e armed with; e itself outside a suite. -/
def leaderOf (s : State) (e : Nat) : Nat := if (s.engine e).suite % 2 = 1 then (s.engine e).suite / 2 ^ 22 else e
/-- Engine e armed as a follower. -/
def isFollower (s : State) (e : Nat) : Bool := (s.engine e).suite % 2 == 1 && (s.engine e).suite / 2 % 2 == 0

/-- Engine e's lane enters a code that ends a run: vectors of R316. -/
def enterState (s : State) (e st : Nat) : State :=
  let s1 := s.put (F.eng_stat_state e) st
  s1.when (decide (4 ≤ st) && est s e != st) (irqEngine · (tableOf e))

/-! ### Data of a play -/

/-- Granule g of the play, within its segment. -/
def segGran (p : Play) (g : Nat) : Nat := if p.len = 0 then 0 else g % p.len
/-- Ring position of granule g of a STRM play, modulo 2^32 (R169). -/
def strmPos (p : Play) (g : Nat) : Nat := (p.first + g) % 2 ^ 32
/-- Store granule of granule g of the play's slice (R42, R168). -/
def storeGran (p : Play) (g : Nat) : Nat :=
  let i := match p.kind with
    | .strm _ => if p.len = 0 then 0 else strmPos p g % p.len
    | _ => segGran p g
  p.base + i * 2 ^ p.wlog2 + p.pos

/-- The pantry copy with an identity. -/
def copyOf (s : State) (t id : Nat) : Option PanCopy := (s.table t).copies.find? (fun c => c.id == id)

/-- Granule g of a play: from its pantry copy, else from a prefetch queue; none while it is missing. -/
def granIn (s : State) (e : Nat) (q : List (Nat × Granule × Bool)) (p : Play) (g : Nat) : Option (Granule × Bool) :=
  match p.copy with
  | some (id, off) =>
    (copyOf s (tableOf e) id).map fun c =>
      let o := off + segGran p g
      (tget (fun _ => (0 : Granule)) c.data o, c.poison.contains o || tget (fun _ => 0) c.err o == 2)
  | none => (q.find? (fun x => x.1 == g)).map (fun x => x.2)

/-- Error that struck granule g in a queue of the play in progress: 1 one symbol, 2 more (R25). -/
def queueErr (x : Engine) (cmp : Bool) (g : Nat) : Nat :=
  ((x.qErr.find? (fun y => !y.1 && y.2.1 == cmp && y.2.2.1 == g)).map (·.2.2.2)).getD 0

/-- Granule g of the play in progress; poisoned too where more than a symbol of it is wrong (R25). -/
def granData (s : State) (e : Nat) (p : Play) (g : Nat) : Option (Granule × Bool) :=
  (granIn s e (s.engine e).queue p g).map (fun q => (q.1, q.2 || p.copy.isNone && queueErr (s.engine e) false g == 2))

/-- Vector code n of a pin granule (R36). -/
def vcode (d : Granule) (n : Nat) : Nat := bitsOf d (4 * n) 4

/-! ### Edges and levels (R122, R123) -/

/-- Drive format and window bit of a timing set (R122, R128). -/
def tsDrive (s : State) (l i : Nat) : Nat := s.f (F.ts_fmt_drive l i)
/-- Window compare (R122). -/
def tsWindow (s : State) (l i : Nat) : Bool := s.on (F.ts_fmt_window l i)
/-- The word of edge slot n of a timing set. -/
def tsEdge (s : State) (l i n : Nat) : Word := s.reg (R.ts_e0 l i + 4 * n)
/-- An edge's instant after the vector's boundary, in 1/(256,000 × FREQ) beat (R122). -/
def edgeAt (s : State) (freq l i n : Nat) : Int :=
  let w := tsEdge s l i n
  (bitsOf w 16 16 * 2 ^ 40 * 1000 : Nat) + signed 14 (bitsOf w 0 14) * ((freq * 1000 : Nat) : Int)
/-- The timing set that a vector code selects from the pair in force (R36). -/
def setOf (x : Settings) (code : Nat) : Nat := if code / 8 % 2 = 1 then x.b else x.a
/-- Rest level of a drive vector from D_ON, by the format: NRZ the data, RZ low, RO high, SBC the data's complement (R123). It is also
the level that the vector leaves. -/
def restLevel (fmt data : Nat) : Nat :=
  match fmt with
  | 0 => data
  | 1 => 0
  | 2 => 1
  | _ => 1 - data
/-- The driver condition that a vector state leaves, in its set's drive format: 0 low, 1 high, 2 off; none for X (R37, R39, R123). -/
def driveOf (fmt code : Nat) : Option Nat :=
  match code % 8 with
  | 0 => some (restLevel fmt 0)
  | 1 => some (restLevel fmt 1)
  | 3 => none
  | _ => some 2

/-- Condition left by the vectors n-1, n-2, … of a granule, if any of them sets one (R39); fmt gives the format that a code selects. -/
def lastDrive (fmt : Nat → Nat) (d : Granule) : Nat → Option Nat
  | 0 => none
  | n + 1 => match driveOf (fmt (vcode d n)) (vcode d n) with
    | some c => some c
    | none => lastDrive fmt d n

/-- Format that a vector code selects on lane e. -/
def fmtOf (s : State) (e code : Nat) : Nat := tsDrive s e (setOf (s.engine e).set code)

/-- Level of a transmitted bit of express lane e, inverted under tx_inv as read at arm (R151). -/
def txLevel (s : State) (e b : Nat) : Nat := if (s.laneOf e).xcfg / 16 % 2 = 1 then 1 - b % 2 else b % 2

/-- Condition of lane e's driver dt (2^-16 beat) after the boundary of a vector with a code, where the vector before left `prev`: by the
edges that have come (R123), each by the declared path deskew earlier than computed (R261). -/
def levelAt (s : State) (e : Nat) (x : Settings) (code : Nat) (dt : Int) (prev : Nat) : Nat :=
  let i := setOf x code
  let freq := x.freq
  let dsk := (s.laneOf e).offv * ((freq * 1000 : Nat) : Int)
  let past (n : Nat) : Bool := decide ((edgeAt s freq e i n - dsk) * 2 ^ 16 ≤ dt * ((256000 * freq : Nat) : Int))
  let data := code % 2
  match code % 8 with
  | 3 => prev
  | 0 | 1 =>
    let rest := restLevel (tsDrive s e i) data
    if tsDrive s e i = 0 then (if past (if prev = 2 then 0 else 1) then data else prev)
    else if !past 0 then prev else if past 1 && !past 2 then data else rest
  | _ => if past 0 then 2 else prev

/-- Condition of the driver after the first n positions of granule g of the play, looking back over at most `fuel` granules to
`from`, and else the condition `base` (R39). -/
def driveBack (s : State) (e : Nat) (p : Play) (base lo : Nat) : Nat → Nat → Nat → Nat
  | 0, _, _ => base
  | fuel + 1, g, n =>
    if g < lo then base else
    match granData s e p g with
    | none => base
    | some (d, _) =>
      match (if e < 512 then lastDrive (fmtOf s e) d n else if n = 0 then none else some (txLevel s e (bitsOf d (n - 1) 1))) with
      | some c => c
      | none => if g = 0 then base else driveBack s e p base lo fuel (g - 1) (perGranule e)

/-- Condition of lane e's driver once the first n positions of the play have played, where granule `lo` began in condition `base`. -/
def driveFrom (s : State) (e : Nat) (p : Play) (base lo n : Nat) : Nat :=
  if n = 0 then base else driveBack s e p base lo (p.grans + 1) ((n - 1) / perGranule e) ((n - 1) % perGranule e + 1)

/-- Condition of lane e's driver at the end of position n of the play (all earlier positions played). -/
def driveAfter (s : State) (e : Nat) (p : Play) (n : Nat) : Nat := driveFrom s e p (s.laneOf e).drv (s.laneOf e).condFrom n

/-- A granule of 128 vectors of one code. -/
def codeGran (code : Nat) : Granule := BitVec.ofNat 512 (code * ((2 ^ 512 - 1) / 15))

/-- The j-th filler granule from now of engine e, and whether it is poisoned (R50): a poisoned one plays on a pin lane as vectors of its park
state in timing set A (R51). -/
def fillerGran (s : State) (e j : Nat) : Option (Granule × Bool) :=
  ((s.engine e).fillCopy.bind (copyOf s (tableOf e))).map fun c =>
    let i := if c.len = 0 then 0 else ((s.engine e).fillIdx + j) % c.len
    let bad := c.poison.contains i || tget (fun _ => 0) c.err i == 2
    (if bad && e < 512 then codeGran (s.laneOf e).park else tget (fun _ => (0 : Granule)) c.data i, bad)

/-- Condition of lane e's driver after the first n positions of a filler granule, where the granule before left `prev` (R39): a poisoned one is
electrical idle on an express lane (R51). -/
def fillerAfter (s : State) (e : Nat) (d : Granule) (idle : Bool) (n prev : Nat) : Nat :=
  if e < 512 then (lastDrive (fmtOf s e) d n).getD prev
  else if n = 0 then prev else if idle then 2 else txLevel s e (bitsOf d (n - 1) 1)

/-- Condition that a whole filler granule leaves on lane e's driver, where the granule before left `prev` (R39, R51). -/
def fillerLeaves (s : State) (e : Nat) (g : Option (Granule × Bool)) (prev : Nat) : Nat :=
  match g with
  | none => prev
  | some (d, bad) => fillerAfter s e d bad (perGranule e) prev

/-- Granules of the play in progress that began before instant t. -/
def gransBefore (s : State) (e : Nat) (p : Play) (t : Nat) : Nat :=
  if t ≤ p.t0 then 0
  else min (if (s.engine e).holding then min p.due p.endAt else p.endAt) (granAfter s e p (t - 1))

/-- Phase of the first vector or UI of a filler run that began at instant t. -/
def runK (s : State) (e t : Nat) : Int := (phaseAt (s.engine e).set (s.engine e).epoch t + 2 ^ 63) / 2 ^ 64

/-- The filler run of engine e that has begun: its first phase, and granules of the play before it. -/
def runBegun (s : State) (e : Nat) (p : Play) : Option (Int × Nat) :=
  ((s.engine e).fillEnd.filter (fun f => decide (f.2 ≤ t16Now s))).map (fun f => (runK s e f.2, gransBefore s e p f.2))

/-- What lane e plays at phase k of its timeline: the granule, the place in it, and whether it is electrical idle: of the filler run, of a
granule that filler or a hold replaced, else of the play in progress; none where the lane holds (R39, R50, R174). -/
def playedAt (s : State) (e : Nat) (p : Play) (k : Int) : Option (Granule × Nat × Bool) :=
  let per : Int := perGranule e
  match (runBegun s e p).filter (fun r => decide (r.1 ≤ k)) with
  | some (k0, _) =>
    if 2 * per ≤ k - k0 then none
    else (fillerGran s e ((k - k0) / per).toNat).map (fun g => (g.1, ((k - k0) % per).toNat, g.2 && decide (512 ≤ e)))
  | none =>
    match (s.engine e).fills.find? (fun f => decide (f.k ≤ k) && decide (k < f.k + per)) with
    | some f => some (f.d, (k - f.k).toNat, f.idle)
    | none =>
      if k < p.k0 ∨ p.k0 + per * ((if (s.engine e).holding then min p.due p.endAt else p.endAt : Nat) : Int) ≤ k then none
      else
        let n := (k - p.k0).toNat
        (granData s e p (n / perGranule e)).bind (fun q => if q.2 then none else some (q.1, n % perGranule e, false))

/-- Condition of lane e's driver with every vector or UI before phase k played, and none after (R39). -/
def conditionAt (s : State) (e : Nat) (p : Play) (k : Int) : Nat :=
  let per : Int := perGranule e
  let ofPlay (k : Int) : Nat :=
    match (s.engine e).fills.find? (fun f => decide (f.k < k) && decide (k ≤ f.k + per)) with
    | some f => fillerAfter s e f.d f.idle (k - f.k).toNat f.before
    | none =>
      match ((s.engine e).fills.filter (fun f => decide (k ≤ f.k))).getLast? with
      | some f => driveFrom s e p f.drv0 f.from0 (k - p.k0).toNat
      | none => driveAfter s e p (k - p.k0).toNat
  match (runBegun s e p).filter (fun r => decide (r.1 < k)) with
  | some (k0, _) =>
    let m := min (k - k0).toNat (2 * perGranule e)
    let start := ofPlay k0
    let leaves (j n prev : Nat) : Nat := match fillerGran s e j with
      | some (d, bad) => fillerAfter s e d bad n prev
      | none => prev
    if m ≤ perGranule e then leaves 0 m start else leaves 1 (m - perGranule e) (leaves 0 (perGranule e) start)
  | none => ofPlay k

/-- Condition of pin lane e's driver at the present instant after the n vectors from phase k on, by the edges of each that have come, where
those before left `base` (R123). -/
def edgesFrom (s : State) (e : Nat) (x : Settings) (code : Int → Option Nat) : Nat → Int → Nat → Nat
  | 0, _, base => base
  | n + 1, k, base =>
    edgesFrom s e x code n (k + 1) (match code k with
      | some c => levelAt s e x c ((t16Now s : Int) - (placedT x (s.engine e).epoch k : Int)) base
      | none => base)

/-- Vectors that n beats span on a timeline, and 2 more. -/
def vectorsIn (x : Settings) (n : Nat) : Nat := n * x.freq / 2 ^ 48 + 2

/-- Vectors before the present one whose edges may still come: an edge lies up to a period and 6,553/256 beats after its boundary (R122). -/
def lateSpan (x : Settings) : Nat := vectorsIn x 26
/-- Vectors after the present one whose edges may have come (R122, R261). -/
def earlySpan (s : State) (e : Nat) (x : Settings) : Nat := vectorsIn x (26 + (s.laneOf e).offv.natAbs / 256)

/-- Condition that the play before has left at the present instant, whose last edges may still come (R122, R123). -/
def tailLevel (s : State) (e : Nat) : Option Nat :=
  (s.engine e).tail.map fun w =>
    edgesFrom s e w.set (fun k => w.codes[(k - w.k).toNat]?) w.codes.length w.k w.before

/-- Condition at the present instant with the first edges of the named play that have come (R122), where the play in progress leaves
`base`. -/
def nextLevel (s : State) (e : Nat) (p : Play) (base : Nat) : Nat :=
  let x := s.engine e
  match x.next with
  | some q =>
    if !p.decided || x.fillEnd.isSome || x.holding || q.pend.synct then base
    else
      let y := applyPend x.set e x.epoch (endT s e p) (granK e p p.endAt) q.pend
      edgesFrom s e y.1 (fun k => if k < y.2 then none else
        let n := (k - y.2).toNat
        (granIn s e x.nextQueue q (n / 128)).bind (fun g => if g.2 then none else some (vcode g.1 (n % 128)))) (earlySpan s e y.1) y.2 base
  | none => base

/-- Condition of lane e's driver at the present instant (R123, R140): what the edges have left that the play, or the filler in it or after
it, has brought; before the play's first boundary, in the gap of R120, what the play before leaves; on a lane that does not play, its
state (R139, R140, R158). -/
def driveNow (s : State) (e : Nat) : Nat :=
  let x := s.engine e
  if (s.laneOf e).mode == .shuttered then 2
  else if (s.laneOf e).mode != .playing then (s.laneOf e).drv
  else match x.play with
  | none => (s.laneOf e).drv
  | some p =>
    if t16Now s < p.t0 then (tailLevel s e).getD (s.laneOf e).drv
    else
      let k := phaseAt x.set x.epoch (t16Now s) / 2 ^ 64
      if 512 ≤ e then conditionAt s e p (k + 1)
      else
        let lo := max p.k0 (k - (lateSpan x.set : Nat))
        let base := if lo = p.k0 then (tailLevel s e).getD (conditionAt s e p lo) else conditionAt s e p lo
        nextLevel s e p (edgesFrom s e x.set (fun j => (playedAt s e p j).map (fun g => vcode g.1 g.2.1))
          ((k - lo).toNat + earlySpan s e x.set) lo base)

/-- Termination of lane e's pin at the present instant (R37, R131, R137): on while the driver is off, else as drv_term has it. -/
def termNow (s : State) (e : Nat) : Bool := driveNow s e == 2 || (s.laneOf e).term == 1

/-- Note on lane e the condition its driver has after the first g granules of the play in progress; granules from `from_` on do not
change it (R39). -/
def foldDrive (s : State) (e : Nat) (p : Play) (g from_ : Nat) : State :=
  let d := driveAfter s e p (g * perGranule e)
  s.modL e (fun l => if l.mode == .playing then { l with drv := d, condFrom := from_ } else { l with condFrom := from_ })

/-! ### What a play shows -/

/-- GRAN of the play in progress: the granule now playing (R78); in a hold the last that played (R175). -/
def granShown (s : State) (e : Nat) (p : Play) : Nat :=
  min (granAt s e p) ((if (s.engine e).holding then min p.due p.endAt else p.endAt) - 1)

/-- Show the settings in force on lane e (R128, R149, R165). -/
def showSettings (s : State) (e : Nat) : State :=
  let x := (s.engine e).set
  let o := (x.ofs / 2 ^ 32 % 2 ^ 48).toNat
  if e < 512 then
    (((((s.setReg (R.lt_runFreqLo e) (BitVec.ofNat 32 x.freq)).put (F.lt_runFreqHi_v e) (x.freq / 2 ^ 32)).setReg
      (R.lt_runOfsLo e) (BitVec.ofNat 32 o)).put (F.lt_runOfsHi_v e) (o / 2 ^ 32)).put (F.lt_tstat_a_now e) x.a).put
        (F.lt_tstat_b_now e) x.b |>.put (F.le_lstat_lvl_now e) x.lvl
  else
    (s.setReg (R.xl_runRateLo (e - 512)) (BitVec.ofNat 32 x.rate)).put (F.xl_runRateHi_v (e - 512)) (x.rate / 2 ^ 32)

/-- The play in progress of engine e has passed its first boundary, and its naming has executed (R62, R68): its settings are in force on the
lane, and its granules count (R78, R128). -/
def begunPlay (s : State) (e : Nat) : Option Play :=
  match (s.engine e).play with
  | some p => if p.t0 ≤ t16Now s ∧ !p.void ∧ (p.late → coreStart (p.namedAt + 1) ≤ t16Now s) then some p else none
  | none => none

/-- Write what the play in progress shows into the registers: until the next play's first boundary they keep it (R78, R128). -/
def bakePlay (s : State) (e : Nat) : State :=
  match begunPlay s e with
  | some p =>
    if est s e = stLost then s
    else showSettings (((s.setReg (R.eng_gran e) (BitVec.ofNat 32 (granShown s e p))).put (F.eng_seg_seg e) p.seg).put
      (F.eng_pc_play_pc e) p.pc) e
  | none => s

/-- XSTAT.sync of an express lane (R160): OFF while compare is off, else SYNC or SEARCH. -/
def showSync (s : State) (e : Nat) : State :=
  if e < 512 then s
  else if (s.engine e).set.cmpm % 2 = 0 then (s.modL e (fun l => { l with sync := none })).put (F.xl_xstat_sync (e - 512)) 0
  else s.put (F.xl_xstat_sync (e - 512)) (if (s.laneOf e).sync.isSome then 2 else 1)

/-- The receiver of express lane e leaves synchronisation for a reason of R160 that counts no loss: it searches on, where its lane plays
with compare on. -/
def dropSync (s : State) (e : Nat) : State :=
  if e < 512 then s else (s.modL e (fun l => { l with sync := none })).put (F.xl_xstat_sync (e - 512))
    (if (s.engine e).set.cmpm % 2 = 1 && (s.laneOf e).mode != .parked && (s.laneOf e).mode != .lossState then 1 else 0)

/-- The receiver of lane k leaves synchronisation (R161): the loss counts and the search restarts. -/
def syncLoss (s : State) (k : Nat) : State :=
  if (s.laneOf (512 + k)).sync.isSome then
    (((s.modL (512 + k) (fun l => { l with sync := none })).countSat (F.xl_syncstat_loss_cnt k) 1).raise (F.xl_xstat_lost k)).put
      (F.xl_xstat_sync k) 1
  else s

/-! ### Lanes -/

/-- The lane takes its park state: CFG.park with the park level set on a pin lane, electrical idle on an express lane
(R139, R158). -/
def parkLane (s : State) (e : Nat) : State :=
  if e < 512 then
    let k := s.f (F.le_cfg_park e)
    s.modL e (fun l => { l with mode := .parked, drv := k, park := k, parkLvl := s.f (F.le_cfg_park_lvl e), condFrom := 0 })
  else ((s.modL e (fun l => { l with mode := .parked, drv := 2, condFrom := 0, sync := none, shutT := none })).put
    (F.xl_xstat_shuttered (e - 512)) 0).put (F.xl_xstat_sync (e - 512)) 0

/-- The initial walks of lane e's room or quad, or a host full walk, hold its lanes (R257, R262). -/
def walkHeld (s : State) (e : Nat) : Bool :=
  let w := s.walkOf (tableOf e)
  decide (8 ≤ s.f F.id_bootStat_stage) && (decide (0 < w.initial) || decide (0 < w.full))

/-- The lane takes its park state, or DZ while a walk holds it there (R139, R257). -/
def restLane (s : State) (e : Nat) : State :=
  let u := parkLane s e
  if walkHeld s e then u.modL e (fun l => { l with drv := 2 }) else u

/-- The loss choice in effect: a CFG write of the present core cycle acts from the next (R139). -/
def lossNow (s : State) (e : Nat) : Nat :=
  match (s.laneOf e).lossWr with
  | some (c, v) => if coreNow s ≤ c then v else (s.laneOf e).loss
  | none => (s.laneOf e).loss

/-- The lane takes its loss state: KEEP holds a driven level, else DZ; express lanes go to electrical idle (R140, R158). -/
def loseLane (s : State) (e : Nat) (fatal : Bool) : State :=
  let d := if (s.laneOf e).mode == .lossState then (s.laneOf e).drv else driveNow s e
  let keep := decide (e < 512) && lossNow s e == 0 && !fatal
  (s.modL e (fun l => { l with mode := .lossState, drv := if keep then d else 2, sync := none })).when (decide (512 ≤ e))
    (·.put (F.xl_xstat_sync (e - 512)) 0)

/-- Granules of the play in progress of engine e that have begun by instant `by_` and play from data (R300): not those replaced, nor
those of a filler run or a hold. -/
def dataGransAt (s : State) (e by_ : Nat) : Nat :=
  let x := s.engine e
  match x.play with
  | none => 0
  | some p =>
    let t := match x.fillEnd with
      | some (_, tf) => min by_ (tf - 1)
      | none => by_
    if (!running s e && x.fillEnd.isNone) || decide (t < p.t0) then 0
    else min (if x.holding then min p.due p.endAt else p.endAt) (granAfter s e p t) - x.fillN

/-- Note what the play in progress has played (R300). -/
def notePlayed (s : State) (e : Nat) : State :=
  s.modE e (fun x => { x with played := x.played + dataGransAt s e (t16Now s), fillN := 0 })

/-- Forget what an engine was doing: play, named play, queues, pending settings, marks, filler run (R244, R268). -/
def quiet (x : Engine) : Engine :=
  { x with
      play := none, next := none, halting := false, queue := [], cmpQueue := [], nextQueue := [], nextCmpQueue := [],
      pend := {}, sample := 0, fillEnd := none, abortPend := false, missK := none, holding := false, retune := false,
      retuneArm := false, dec := none, disagree := none, fillCopy := none,
      fillK := none, missCause := 0, fills := [], tail := none, masked := [] }

/-- Withdraw engine e's prefetch requests that are still in its port. -/
def dropReqs (s : State) (e : Nat) : State :=
  { s with ctl := { s.ctl with reqs := s.ctl.reqs.filter (fun r => !(r.eng == e && r.cls == 2)) } }

/-- An arm fails with a code: the engine stays IDLE, arming and a pending start clear, and what it was to prefetch is withdrawn
(R55, R58, R59, R77). -/
def failArm (s0 : State) (e code : Nat) : State :=
  let s := dropReqs s0 e
  let s1 := ((s.put (F.eng_stat_arming e) 0).put (F.eng_stat_arm_err e) code).put (F.eng_stat_start_pending e) 0
  s1.modE e (fun x => { x with play := none, next := none, queue := [], cmpQueue := [], nextQueue := [], nextCmpQueue := [],
                               pend := {}, retuneArm := false, fillCopy := none })

/-- Instant two granules (or n) after instant t on the lane's timeline. -/
def granulesOn (s : State) (e t n : Nat) : Nat :=
  let x := s.engine e
  boundaryT x.set x.epoch ((phaseAt x.set x.epoch t + 2 ^ 63) / 2 ^ 64 + (perGranule e * n : Nat))

/-- Instant at which the play in progress of engine e ends after a HALT: the end of the play, or the first boundary after a HALT
that executed later (R67, R62). -/
def haltT (s : State) (e : Nat) (p : Play) : Nat :=
  let x := s.engine e
  let t := endT s e p
  let h := coreStart (x.chainCyc + 1)
  if t < h then boundaryT x.set x.epoch (firstBoundary x.set x.epoch h) else t

/-- Completion cycle of engine e, if its HALT has executed (R67). -/
def completionCycle (s : State) (e : Nat) : Option Nat :=
  let x := s.engine e
  match x.fillEnd with
  | some (.halted, t) => some (coreOf (granulesOn s e t 2))
  | some _ => none
  | none => if x.halting then x.play.map (fun p => coreOf (haltT s e p)) else none

/-- Engine e loses its clock (R77, R140, R242): arming fails with NO_CLOCK; ARMED, RUN and WAIT enter LOST_CLOCK, unless this is
the core cycle in which HALT completes; its queues freeze as they are, and a pending abort reports NONE_ACTIVE. Where a suite arms and only a follower's clock is lost, only that
follower's arm fails (log entry 55). -/
def loseClock (s : State) (e : Nat) : State :=
  let s0 := dropReqs (loseLane (notePlayed (bakePlay s e) e) e false) e
  if arming s e then failArm s0 e 5
  else if active3 s e then
    let x := s.engine e
    if running s e && completionCycle s e == some (coreNow s) then
      ((enterState s0 e stHalted).modE e (fun y => { y with play := none, halting := false, fillEnd := none, abortPend := false })).when
        (s.f (F.eng_stat_abort_res e) == 1) (·.put (F.eng_stat_abort_res e) 3)
    else
      let s1 := ((enterState s0 e stLost).modE e (fun y => { y with fillEnd := none })).modL e (fun l => { l with lossHold := true })
      s1.when x.abortPend (fun u => (u.put (F.eng_stat_abort_res e) 3).modE e (fun y => { y with abortPend := false }))
  else s0

/-- A FATAL record stops engine e: ARMED, RUN and WAIT enter FAULTED, arming fails with NO_CLOCK (R270). -/
def fatalEngine (s : State) (e : Nat) : State :=
  let s0 := dropReqs (loseLane (notePlayed (bakePlay s e) e) e true) e
  if arming s e then failArm s0 e 5
  else if active3 s e then
    (enterState s0 e stFaulted).modE e (fun y => { y with abortPend := false, next := none, pend := {}, fillEnd := none })
  else s0

/-- The shutter of lane e's clock reopened: a lane whose engine did not enter LOST_CLOCK takes its park state; the others wait for the
reset and the next arm (R140, R77). -/
def reopenLane (s : State) (e : Nat) : State :=
  if (s.laneOf e).mode == .lossState && !(s.laneOf e).lossHold then restLane s e else s

/-! ### Activity -/

/-- Engine e takes part in R178: its arm was accepted and it has not left ARMED, RUN and WAIT. -/
def engaged (s : State) (e : Nat) : Bool := arming s e || active3 s e

/-- Ring r is enabled and bound to engine e, or to the leader of its suite, with a segment index (R167). -/
def boundSeg (s : State) (r e : Nat) : Option Nat :=
  let k := s.f (F.ring_cfg_engine r)
  if s.on (F.ring_cfg_en r) && (k == e || k == leaderOf s e) then some (s.f (F.ring_cfg_seg r)) else none

/-- Segments of engine e's table that are active through engine e (R178): those that it refers to itself, and those that its leader refers
to. -/
def activeSegs (s : State) (e : Nat) : List Nat :=
  if engaged s e then
    let own (x : Engine) : List Nat := (x.play.map (·.seg)).toList ++ (x.next.map (·.seg)).toList ++ [x.filler % 16384]
    own (s.engine e) ++ (if leaderOf s e = e then [] else own (s.engine (leaderOf s e))) ++
      (List.range 256).filterMap (fun r => boundSeg s r e)
  else []

/-- Segment i of table t is active (R178). -/
def segActive (s : State) (t i : Nat) : Bool := (enginesOf t).any (fun e => (activeSegs s e).contains i)

/-- Ring r is active: its segment is (R178). -/
def ringActive (s : State) (r : Nat) : Bool :=
  let e := s.f (F.ring_cfg_engine r)
  s.on (F.ring_cfg_en r) && decide (e < 576) &&
    (membersOf s (leaderOf s e)).any (fun m => segActive s (tableOf m) (s.f (F.ring_cfg_seg r)))

end Sys2Proof.Machine
end

