-- ==== Sys2Proof/Machine/Trace.lean ====
section
/-! DEFINITION. Calibration's parts and walks as other rules see them (R251, R253, R257, R262), and the trace status of the lanes
(R256). Parts of a lane are numbered 0-16 driver slices, 17-18 delay lines, 19-20 comparator pairs; on an express lane 0 and 16 swing
DACs, 17-18 skew interpolators, 19-20 receiver samplers. -/

namespace Sys2Proof.Machine

/-- Number of a part. -/
def partNo : PartKind → Nat
  | .slice i => i.val
  | .delay i => 17 + i.val
  | .cmp i => 19 + i.val
  | .swing i => 16 * i.val
  | .skew i => 17 + i.val
  | .sampler i => 19 + i.val

/-- The part belongs to the kind of lane e. -/
def partFits (e : Nat) : PartKind → Bool
  | .slice _ => isPin e
  | .delay _ => isPin e
  | .cmp _ => isPin e
  | .swing _ => !isPin e
  | .skew _ => !isPin e
  | .sampler _ => !isPin e

/-- Kind of part n: 0 slice or swing, 1 delay line or skew, 2 comparator or sampler (R258). -/
def partGroup (n : Nat) : Nat := if n < 17 then 0 else if n < 19 then 1 else 2

/-- Every part of lane e. -/
def partsOf (e : Nat) : List Nat := if e < 512 then List.range 21 else [0, 16, 17, 18, 19, 20]

/-- The part of a kind that is out of service on lane e (R129, R133, R252). -/
def outPart (s : State) (e grp : Nat) : Nat :=
  let c := s.claneOf e
  if grp = 0 then c.slice else if grp = 1 then 17 + c.delay else 19 + c.cmp

/-- Part n of lane e is in service. -/
def inService (s : State) (e n : Nat) : Bool := outPart s e (partGroup n) != n

/-- The room whose converters and sensor serve table t (R250). -/
def convRoom (t : Nat) : Nat := if t < 32 then t else 2 * (t - 32)

/-- Temperature that the room's sensor reads. -/
def roomTemp (s : State) (t : Nat) : Int := signed 16 (s.f (F.calRoom_temp_temp (convRoom t)))

/-- Put a field of STAT of room or quad t's walk: bits lo and up, n wide (R263). -/
def walkStat (t lo n : Nat) : FRef := ⟨if t < 32 then R.calRoom_stat t else R.calQuad_stat (t - 32), lo, n⟩
/-- STAT.res of table t. -/
def walkRes (t : Nat) : FRef := walkStat t 8 3

/-- STAT.mode of table t (R263): 2 FULL, 0 INITIAL, 3 PAUSED, else 1 BACKGROUND. -/
def showMode (s : State) (t : Nat) : State :=
  let w := s.walkOf t
  s.put (walkStat t 6 2)
    (if 0 < w.full then 2 else if 0 < w.initial then 0 else if s.on F.cal_ctl_pause then 3 else 1)

/-- CAL.STAT.initial (R263). -/
def showInitial (s : State) : State :=
  s.put F.cal_stat_initial (bit ((List.range 48).any (fun t => decide (0 < (s.walkOf t).initial))))

/-- 10 s (R256). -/
def staleU : Nat := 10000000 * usU

/-- Acceptance times of the trims in service of lane e (none: a birth value). -/
def inTrims (s : State) (e : Nat) : List CalPart := ((partsOf e).filter (inService s e)).map (s.partOf e)

/-- The first row of R256's table: lane e is UNTRACED. -/
def untraced (s : State) (e : Nat) : Bool :=
  let w := s.walkOf (tableOf e)
  (inTrims s e).any (fun p => p.atT.isNone || p.decl != s.cal.decl) || w.refFail || w.need ||
    (partsOf e).any (fun n => let p := s.partOf e n; p.retired || p.held || decide (0 < p.unable)) ||
    (decide (e < 512) && s.on (F.dskLane_cfg_path_en e) && decide (0 < (s.claneOf e).dskUnable))

/-- The oldest trim in service of lane e. -/
def oldestTrim (s : State) (e : Nat) : Option (Nat × Int) :=
  ((inTrims s e).filterMap (fun p => p.atT.map (fun t => (t, p.temp)))).foldl
    (fun m x => match m with
      | none => some x
      | some y => if x.1 < y.1 then some x else some y) none

/-- The second row: lane e is STALE, where it is not UNTRACED. -/
def stale (s : State) (e : Nat) : Bool :=
  let t := tableOf e
  decide (0 < (s.walkOf t).back) ||
    match oldestTrim s e with
    | none => false
    | some (a, c) => decide (a + staleU < s.clk.now) || decide (80 < (roomTemp s t - c).natAbs)

/-- Trace status of lane e (R256): 0 UNTRACED, 1 TRACED, 2 STALE. -/
def traceOf (s : State) (e : Nat) : Nat := if untraced s e then 0 else if stale s e then 2 else 1

/-- Lane e's two bits of CAL.TRACE or CAL.XTRACE (R263). -/
def traceBits (e : Nat) : FRef := ⟨R.trace_word (e / 16), 2 * (e % 16), 2⟩

/-- Re-evaluate the trace status of lane e. -/
def showTrace (s : State) (e : Nat) : State := s.put (traceBits e) (traceOf s e)

/-- Re-evaluate the trace status of the lanes of table t. -/
def traceTable (s : State) (t : Nat) : State := (enginesOf t).foldl showTrace s

/-- Every lane is UNTRACED (R248, R258). -/
def allUntraced (s : State) : State := (List.range 36).foldl (fun u w => u.setReg (R.trace_word w) 0) s

/-- Stale flags of table t's converters, which the even room's quad shows too, and of the stack served by rooms 0, 8, 16 and 24
(R251, R263); that of the temperature stays until its first reading. -/
def setStale (s : State) (t : Nat) (b : Bool) : State :=
  if 32 ≤ t then s
  else
    let v := if b then 7 else bit (!(s.walkOf t).seen)
    let s1 := (s.put (walkStat t 3 3) v).put (F.mon_stat_stale t) (bit b)
    let s2 := s1.when (t % 2 == 0) (·.put (walkStat (32 + t / 2) 3 3) v)
    s2.when (t % 8 == 0) (·.put (F.stTemp_word_stale (t / 8)) (bit (b || !s2.ctl.tempOk.contains (t / 8))))

/-- The recalibration of room t's sensor is over, at the latest 0.5 ms into the walk: its temperature shows (R251, R263). -/
def tempOver (s : State) (t : Nat) : Bool :=
  let w := s.walkOf t
  w.recal && decide (t < 32) && decide (w.startAt + 500 * usU ≤ s.clk.now)

/-- The room's measured temperature shows, and the trace status of the lanes that it serves is evaluated again (R256). -/
def showTemp (s : State) (t : Nat) : State :=
  let s1 := (s.modW t (fun x => { x with seen := true })).put (F.calRoom_temp_temp t) (unsigned 16 (s.walkOf t).temp)
  (traceTable s1 t).when (t % 2 == 0) (traceTable · (32 + t / 2))

/-- The results of the walk in progress of table t are discarded (R262). -/
def dropResults (s : State) (t : Nat) : State :=
  (enginesOf t).foldl (fun u e => (partsOf e).foldl (fun v n => v.modPart e n (fun p => { p with cur := none })) u) s

/-- A walk stops, and its unfinished results are discarded (R262); a recalibration that it was in is over (R148). -/
def stopWalk (s0 : State) (t : Nat) : State :=
  let w := s0.walkOf t
  if w.on then
    let s := dropResults (s0.when (tempOver s0 t) (showTemp · t)) t
    (s.modW t (fun x => { x with on := false, keep := false, recal := false })).when w.recal (setStale · t false)
  else s0

/-- The clock of room or quad t was lost (R256, R262): its walk stops, and two complete walks must pass again. -/
def walkLost (s : State) (t : Nat) : State := traceTable ((stopWalk s t).modW t (fun w => { w with back := 2 })) t

/-- The initial walks or the host full walk of table t end (R257, R262): the lanes whose engines rest take their park state. -/
def releaseLanes (s : State) (t : Nat) : State :=
  (enginesOf t).foldl (fun u e => if (u.laneOf e).mode = .parked ∧ !active3 u e then parkLane u e else u) s

/-- The lanes of table t are held at DZ or electrical idle during an initial or full walk (R257). -/
def holdLanes (s : State) (t : Nat) : State :=
  (enginesOf t).foldl (fun u e => if (u.laneOf e).mode = .parked then u.modL e (fun l => { l with drv := 2 }) else u) s

/-- CTL.arm accepted for an engine of table t (R257, R262): initial walks end, a host full walk is aborted, and the room goes on with
background walks. -/
def armWalk (s : State) (t : Nat) : State :=
  let w := s.walkOf t
  if w.initial = 0 ∧ w.full = 0 then s
  else
    let s1 := s.when (decide (0 < w.full)) (·.put (walkRes t) 4)
    let s2 := (stopWalk s1 t).modW t (fun x => { x with initial := 0, full := 0 })
    releaseLanes (showMode (showInitial s2) t) t

/-- The lanes that a deskew measures return to their park state (R259). -/
def endMeasure (s : State) : State := s.cal.dsk.foldl (fun u l => if (u.laneOf l).mode == .measuring then restLane u l else u) s

/-- A FATAL record stops the walks and the deskew (R262, R270). -/
def stopCal (s : State) : State :=
  let s1 := (List.range 48).foldl (fun u t =>
    let v := stopWalk u t
    if 0 < (v.walkOf t).full then showMode ((v.put (walkRes t) 4).modW t (fun w => { w with full := 0 })) t else v) s
  s1.when (s1.on F.cal_dskStat_busy) (fun u =>
    let v := ((endMeasure u).put F.cal_dskStat_busy 0).put F.cal_dskStat_res 4
    { v with cal := { v.cal with dsk := [] } })

end Sys2Proof.Machine
end

