-- ==== Sys2Proof/Machine/Route.lean ====
section
/-! DEFINITION. The fabric as this device sees it: neighbours, the census, shortest paths, the tree of time parents and the sending of
packets (R326, R328, R333, R334). -/

namespace Sys2Proof.Machine

/-- Own house number (R331). -/
def ownHouse (s : State) : Nat := s.f F.fab_stat_house
/-- State of census entry h (R346): 0 EMPTY, 1 MEMBER, 2 GUEST, 3 ABSENT. -/
def entryState (s : State) (h : Nat) : Nat := s.f (F.cens_state_state h)
/-- UID of census entry h. -/
def entryUid (s : State) (h : Nat) : Nat := s.pair (R.cens_uidLo h) (R.cens_uidHi h)
/-- UID of this device (R298). -/
def ownUid (s : State) : Nat := s.pair R.id_uidLo R.id_uidHi
/-- UID of the census keeper. -/
def keeperUid (s : State) : Nat := s.pair R.fab_keeperLo R.fab_keeperHi
/-- UID of the neighbour on port p. -/
def nbrUid (s : State) (p : Nat) : Nat := s.pair (R.fport_nbrLo p) (R.fport_nbrHi p)
/-- Houses of the census whose device is present: MEMBER or GUEST. -/
def presentHouses (s : State) : List Nat := (List.range 1024).filter (fun h => entryState s h == 1 || entryState s h == 2)
/-- House of the present device with a UID: the GUEST that holds a house (R344), else a MEMBER's entry. -/
def houseOfUid (s : State) (u : Nat) : Option Nat :=
  match s.fab.guests.find? (fun g => g.2.1.toNat == u && entryState s g.1 == 2) with
  | some g => some g.1
  | none => (List.range 1024).find? (fun h => entryState s h == 1 && entryUid s h == u)

/-- Ports that are up. -/
def upPorts (s : State) : List Nat := (List.range 8).filter (fun p => s.f (F.fport_stat_state p) == 3)
/-- Up ports with the house of the neighbour. -/
def ownLinks (s : State) : List (Nat × Nat) := (upPorts s).filterMap (fun p => (houseOfUid s (nbrUid s p)).map (fun h => (p, h)))
/-- Houses linked to house h: by this device's own ports, or by its latest LSA (R333). -/
def linked (s : State) (own : List (Nat × Nat)) (h : Nat) : List Nat :=
  if h = ownHouse s then own.map (·.2)
  else match s.fab.lsas.find? (fun x => x.1 == h) with
    | some (_, _, ls) => ls.map (fun l => l.house.val)
    | none => (own.filter (fun x => x.2 == h)).map (fun _ => ownHouse s)

/-- Breadth-first distances: `seen` holds houses with their distance, `edge` those at the largest one. -/
def bfs (adj : Nat → List Nat) : Nat → Nat → List Nat → List (Nat × Nat) → List (Nat × Nat)
  | 0, _, _, seen => seen
  | fuel + 1, d, edge, seen =>
    let new := ((edge.flatMap adj).filter (fun h => !seen.any (fun x => x.1 == h))).eraseDups
    if new.isEmpty then seen else bfs adj fuel (d + 1) new (seen ++ new.map (fun h => (h, d + 1)))

/-- Distances in hops from house h, at most 16 (R333). -/
def distances (s : State) (h : Nat) : List (Nat × Nat) :=
  let own := ownLinks s
  bfs (linked s own) 16 0 [h] [(h, 0)]

/-- The distance that a list of distances gives a house. -/
def distTo (d : List (Nat × Nat)) (h : Nat) : Option Nat := (d.find? (fun x => x.1 == h)).map (·.2)

/-- House of the census keeper. -/
def keeperHouse (s : State) : Option Nat :=
  if s.on F.fab_stat_keeper then some (ownHouse s) else houseOfUid s (keeperUid s)

/-- Time parent of house h in the fabric, by R334: the member neighbour one hop nearer the root with the lowest house number. -/
def parentNode (s : State) (root h : Nat) : Option Nat :=
  let d := distances s root
  match distTo d h with
  | none => none
  | some n => ((linked s (ownLinks s) h).filter (fun x => entryState s x == 1 && distTo d x == some (n - 1) && n != 0)).min?

/-- Ports on which this device may have its time parent, best first (R334): lowest house number, then lowest port. -/
def parentPorts (s : State) : List Nat :=
  match keeperHouse s with
  | none => []
  | some root =>
    let d := distances s root
    match distTo d (ownHouse s) with
    | none => []
    | some n =>
      let c := (ownLinks s).filter (fun x => entryState s x.2 == 1 && n != 0 && distTo d x.2 == some (n - 1))
      (c.mergeSort (fun a b => decide (a.2 < b.2 ∨ (a.2 = b.2 ∧ a.1 ≤ b.1)))).map (·.1)

/-- Next hops toward a house: up ports on a shortest path (R333). -/
def nextHops (s : State) (dest : Nat) : List Nat :=
  let d := distances s dest
  match distTo d (ownHouse s) with
  | none => []
  | some n => ((ownLinks s).filter (fun x => distTo d x.2 == some (n - 1) && n != 0)).map (·.1)

/-- Class of a packet (R327): 0 time, 1 event, 2 register, 3 stream. -/
def classOf : Packet → Nat
  | .lsa .. => 2
  | .census .. => 2
  | .admitted .. => 2
  | .nonce .. => 2
  | .epoch .. => 0
  | .event .. => 1
  | .faultNotice .. => 1
  | .regRd .. => 2
  | .regWr .. => 2
  | .regCpl .. => 2
  | .stream .. => 3
  | .credit .. => 3

/-- Flow number of a packet (R333). -/
def flowOf : Packet → Nat
  | .stream r .. => r.val
  | .credit r .. => r.val
  | .event i _ => i.val
  | _ => 0

/-- Port to a destination (R333): among equal-cost next hops by the hash of the flow. -/
def routePort (s : State) (dest : Nat) (m : Packet) : Option Nat :=
  let hops := nextHops s dest
  hops[Config.flowHash (ownHouse s) dest (classOf m) (flowOf m) % max 1 hops.length]?

/-- Ports of the census tree (R333): to the time parent, and to the devices whose time parent this one is. -/
def treePorts (s : State) : List Nat :=
  let up := if s.fab.parentOn then [s.f F.fab_stat_parent] else []
  match keeperHouse s with
  | none => up
  | some root =>
    let kids := (ownLinks s).filter (fun x => parentNode s root x.2 == some (ownHouse s) &&
      ((ownLinks s).find? (fun y => y.2 == x.2)).map (·.1) == some x.1)
    up ++ kids.map (·.1)

/-- A packet goes out. Of those that fall due at one instant the higher class goes first, each class in its order (R27, R328). -/
def fabPut (s : State) (x : Option Nat × Packet) : State :=
  let k := match s.fab.burst with
    | some (t, k) => if t = s.clk.now then k else s.fab.out.length
    | none => s.fab.out.length
  { s with fab := { s.fab with
    out := s.fab.out.take k ++ enqueue (fun y => classOf y.2) x (s.fab.out.drop k), burst := some (s.clk.now, k) } }

/-- Send a packet to a house, or to every device (R326): none is sent where no route leads there. -/
def fabSend (s : State) (dest : Option Nat) (m : Packet) : State :=
  let ports := match dest with
    | some h => (routePort s h m).toList
    | none => treePorts s
  if ports.isEmpty then s
  else
    let s1 := ports.foldl (fun u p => monEvent u (901 + p) 1) s
    fabPut s1 (dest, m)

/-- Flood a packet on every up link (R330, R333). -/
def fabFlood (s : State) (m : Packet) : State :=
  if (upPorts s).isEmpty then s
  else
    let s1 := (upPorts s).foldl (fun u p => monEvent u (901 + p) 1) s
    fabPut s1 (none, m)

end Sys2Proof.Machine
end

