-- ==== Sys2Proof/Machine/Faults.lean ====
section
/-! DEFINITION. Closing shutters (R237, R240, R270) and the fault collectors: classing, queueing and the reactions of a record
(R264-R278, R390). -/

namespace Sys2Proof.Machine

/-- The bit of SHUT.ROOM or SHUT.OTHER of PLL id (R233, R247). -/
def shutBit (id : Nat) : FRef :=
  if id = 0 then F.clk_shutOther_house
  else if id ≤ 32 then ⟨R.clk_shutRoom, id - 1, 1⟩
  else ⟨R.clk_shutOther, id - 32, 1⟩

/-- PLL id's shutter is open. -/
def pllOpen (s : State) (id : Nat) : Bool := s.on (F.pll_stat_open id)

/-- Close PLL id's shutter and leave its STAT.state at st (R237); where the house shutter was open, house time has a gap (R108). -/
def closeShutter (s : State) (id st : Nat) : State :=
  (((s.put (F.pll_stat_open id) 0).put (shutBit id) 0).put (F.pll_stat_state id) st).when (id == 0 && pllOpen s 0) (·.raise F.time_stat_gap)

/-- House time stops (R108): time is lost, so that a member may step it again (R336). -/
def stopHouse (s : State) : State :=
  let s1 := (s.put F.time_stat_valid 0).put F.clk_oscStat_valid 0
  { s1 with fab := { s1.fab with hadTime := false, sinceStep := 0 } }

/-- Engines served by PLL id. -/
def pllEngines (id : Nat) : List Nat :=
  if id = 0 then allEngines else if id ≤ 48 then enginesOf (id - 1) else []

/-- Stack st admits requests (R228). -/
def stackUp (s : State) (st : Nat) : Bool := s.on ⟨R.st_stat, 8 + st, 1⟩

/-- A stack enters self-refresh and admits no requests (R243): from now on the age of those that wait for it does not count (R206, R240). -/
def stackOff (s : State) (st : Nat) : State :=
  let s1 := s.put ⟨R.st_stat, 8 + st, 1⟩ 0
  if stackUp s st then { s1 with ctl := { s1.ctl with offAt := tset (fun _ => 0) s1.ctl.offAt st s.clk.now } } else s1

/-- A stack admits requests: the age of those that waited for it goes on (R206, R240, R243). -/
def stackOn (s : State) (st : Nat) : State :=
  let s1 := s.put ⟨R.st_stat, 8 + st, 1⟩ 1
  let off := tget (fun _ => 0) s.ctl.offAt st
  if stackUp s st then s1
  else { s1 with ctl := { s1.ctl with
    reqs := s1.ctl.reqs.map (fun r => if r.gran / 4 % 256 / 64 = st then { r with entered := r.entered + (s.clk.now - max r.entered off) } else r) } }

/-- A fabric port announces DOWN with a reason; a disabled port stays OFF (R325). -/
def portAnnounceDown (s : State) (p reason : Nat) : State :=
  let st := s.f (F.fport_stat_state p)
  if st = 0 ∨ st = 4 then s
  else (((s.put (F.fport_stat_state p) 4).put (F.fport_stat_reason p) reason).put (F.fport_stat_lanes p) 0).put (F.fport_stat_ver p) 0

/-- The streaming phase becomes RECOVERY from NORMAL or TEST by a hardware cause; factory test mode holds TEST. A host request that acts in
this cycle is dropped (R180). -/
def phaseRecovery (s : State) : State :=
  if s.on F.rings_phase_test_forced then s
  else (s.when (s.phaseAct == some (coreNow s)) (·.raise F.rings_phase_req_err)).when
    (s.f F.rings_phase_phase == 1 || s.f F.rings_phase_phase == 2) (·.put F.rings_phase_phase 3)

/-- A side's ALIVE pin stops in a state (2 ERRPIN, 3 FATAL); the change is reported (R273, R391). -/
def aliveStop (s : State) (sd : Side) (st : Nat) : State :=
  let own := s.f (F.flt_alive_own sd)
  if own = 3 ∨ own = st ∨ (own = 0 ∧ st = 2) then s
  else
    let s1 := s.put (F.flt_alive_own sd) st
    match sd with
    | .field => sendAliveField s1
    | .host => sendAliveHost s1

/-- The field side enters its safe state (R270), which takes in the BLOCK_RESETs that wait (R269): every shutter closes, lanes go to DZ and electrical idle, engines stop, ports
announce DOWN, stacks enter self-refresh, calibration stops. -/
def safeState (s : State) : State :=
  let s1 := allEngines.foldl fatalEngine s
  let s2 := (List.range 61).foldl (fun u id => ((closeShutter u id 0).put (F.pll_stat_planned id) 0).modPll id (fun _ => {})) s1
  let s3 := stopHouse s2
  let s4 := (List.range 4).foldl stackOff s3
  let s5 := (List.range 8).foldl (fun u p => portAnnounceDown u p 7) s4
  let s6 := stopCal s5
  (aliveStop s6 .field 3).modF .field (fun c => { c with fatalOn := true, blocks := [] })

/-- A host FATAL halts the host controller and stops its sending; the endpoint reports an uncorrectable internal error through AER (R272). -/
def hostSafe (s : State) : State :=
  ((aliveStop s .host 3).modP (fun p => { p with halt := true, aer := p.aer + bit p.pcie })).modF .host (fun c =>
    { c with fatalOn := true, blocks := [] })

/-- Field house time in whole beats at the start of the present infrastructure cycle (R274). -/
def stampF (s : State) : Nat :=
  if houseOpen s then (s.clk.house - s.clk.now % infraU) / beatU % 2 ^ 64 else beatsNow s

/-- Core cycle that contains the time of a record made now, and the cycle of its fault group's activity, in the running core clock
(R199, R278). -/
def groupCycle (s : State) : Nat := gridOf s ((s.clk.house - s.clk.now % infraU) / beatU * beatU / coreU + 16)

/-- The host tile's copy of field house time: 32 beats per host infrastructure cycle of 5 ns since the last frame (R391). -/
def stampH (s : State) : Nat := (s.porch.hostTime + (s.clk.now - s.porch.hostAt) / infraU / 2 * 32) % 2 ^ 64

/-- Code of a class (R264). -/
def classCode : FaultClass → Nat
  | .corrected => 1
  | .contained => 2
  | .fatal => 3

/-- Order of records of one cycle: class, then source, then unit (R275). -/
def recBefore (a b : FRec) : Bool :=
  decide (b.cls < a.cls) || (a.cls == b.cls && (decide (a.src < b.src) || (a.src == b.src && decide (a.unit ≤ b.unit))))

/-- Enter a record into its place among those of its cycle. -/
def recInsert (r : FRec) : List FRec → List FRec
  | [] => [r]
  | x :: xs => if recBefore x r then x :: recInsert r xs else r :: x :: xs

/-- Word 3 of a record (R274). -/
def recWord3 (r : FRec) (seq : Nat) (same : Bool) : Word :=
  BitVec.ofNat 32 (r.src % 256 * 2 ^ 24 + seq % 256 * 2 ^ 16 + r.unit % 1024 * 2 ^ 6 + bit r.inj * 32 + bit r.tinv * 16
    + bit same * 8 + r.cls % 4)

/-- The four words of a record (R274). -/
def recWords (r : FRec) (seq : Nat) (same : Bool) : Word × Word × Word × Word :=
  (r.time.extractLsb' 0 32, r.time.extractLsb' 32 32, r.syn, recWord3 r seq same)

/-- Write a record into attic slot seq mod 16 (R274). -/
def putSlot (s : State) (sd : Side) (r : FRec) (seq : Nat) (same : Bool) : State :=
  let w := recWords r seq same
  let i := seq % 16
  (((s.setReg (R.attic_w0 sd i) w.1).setReg (R.attic_w1 sd i) w.2.1).setReg (R.attic_w2 sd i) w.2.2.1).setReg (R.attic_w3 sd i) w.2.2.2

/-- Write the records of a cycle into their slots, from sequence number q on. -/
def putSlots (s : State) (sd : Side) (same : Bool) : Nat → List FRec → State
  | _, [] => s
  | q, r :: rs => putSlots (putSlot s sd r q same) sd same (q + 1) rs

/-- The notices of the records of a cycle, from sequence number q on. -/
def noticesOf (same : Bool) : Nat → List FRec → List (Word × Word × Word × Word)
  | _, [] => []
  | q, r :: rs => recWords r q same :: noticesOf same (q + 1) rs

/-- Replace the notices of a cycle by those of its records as they now stand: FAULT_NOTICE to the host while the porch is up
(R390), and to house fn_dest where FAB.CFG.fn_en is 1 (R342). -/
def sendNotices (s : State) (old new : List (Word × Word × Word × Word)) : State :=
  let gone (w : Word × Word × Word × Word) : Bool := old.contains w
  let s1 := if porchUpF s then s.modP (fun p =>
      { p with toHost := new.foldl (fun q w => queueMsg q (.faultNotice w.1 w.2.1 w.2.2.1 w.2.2.2))
                 (p.toHost.filter (fun m => match m with | .faultNotice a b c d => !gone (a, b, c, d) | _ => true)) }) else s
  let dest := s1.f F.fab_cfg_fn_dest
  if s1.on F.fab_cfg_fn_en then
    match routePort s1 dest (.faultNotice 0 0 0 0) with
    | none => s1
    | some p =>
      let stays (m : Option Nat × Packet) : Bool := match m.2 with | .faultNotice a b c d => !gone (a, b, c, d) | _ => true
      let s2 := { s1 with fab := { s1.fab with
        out := s1.fab.out.filter stays, burst := s1.fab.burst.map (fun b => (b.1, ((s1.fab.out.take b.2).filter stays).length)) } }
      monEvent (new.foldl (fun u w => fabPut u (some dest, .faultNotice w.1 w.2.1 w.2.2.1 w.2.2.2)) s2) (901 + p) (new.length - old.length)
  else s1

/-- Queue a record in a side's attic (R274-R276): among the records of its infrastructure cycle it takes its place by R275, with
samecyc on each; beyond the 16th it is lost. FIRST keeps the first record queued since the last clear. -/
def queueRec (s : State) (sd : Side) (r : FRec) : State :=
  let c0 := s.flt sd
  let cyc := infraOf s sd
  let c := if c0.cyc = cyc then c0
    else { c0 with cyc := cyc, batch := [], batchFirst := false, overWas := s.f (F.flt_atticStat_overwritten sd) }
  if 16 ≤ c.batch.length ∧ (c.batch.getLast?.map (fun x => recBefore x r)).getD false then
    (s.setFlt sd c).countSat (F.flt_lost_n sd) 1
  else
    let full := recInsert r c.batch
    let b := full.take 16
    let lostN := full.length - b.length
    let q0 := c.seq + 256 - c.batch.length
    let same := decide (2 ≤ b.length)
    let grown := b.length - c.batch.length
    let first := c.batchFirst || !s.on (F.flt_atticStat_first_valid sd)
    let s1 := s.setFlt sd { c with batch := b, seq := (c.seq + grown) % 256, batchFirst := first }
    let s2 := putSlots s1 sd same q0 b
    let s3 := s2.countSat (F.flt_lost_n sd) lostN
    let n := s3.f (F.flt_atticStat_count sd)
    let s4 := if grown = 0 then s3 else if n < 16 then s3.put (F.flt_atticStat_count sd) (n + 1)
      else s3.countSat (F.flt_atticStat_overwritten sd) 1
    let s5 := s4.put (F.flt_atticStat_newest sd) ((q0 + b.length - 1) % 16)
    let s6 := if first then
        match b with
        | [] => s5
        | h :: _ =>
          let w := recWords h q0 same
          ((((s5.setReg (R.flt_first0 sd) w.1).setReg (R.flt_first1 sd) w.2.1).setReg (R.flt_first2 sd) w.2.2.1).setReg
            (R.flt_first3 sd) w.2.2.2).put (F.flt_atticStat_first_valid sd) 1
      else s5
    match sd with
    | .field => sendNotices s6 (noticesOf (decide (2 ≤ c.batch.length)) q0 c.batch) (noticesOf same q0 b)
    | .host => s6

/-- The fatal latch takes the first FATAL record of the side; an injected one sets inj_fatal instead (R271, R279). -/
def latchFatal (s : State) (sd : Side) (r : FRec) : State :=
  if r.inj then s.put (F.flt_stat_inj_fatal sd) 1
  else if s.on (F.flt_fatalSrc_valid sd) then s.put (F.flt_stat_fatal sd) 1
  else
    ((((s.put (F.flt_stat_fatal sd) 1).put (F.flt_fatalSrc_valid sd) 1).put (F.flt_fatalSrc_unit sd) r.unit).put
      (F.flt_fatalSrc_source sd) r.src).putPair (R.flt_fatalTimeLo sd) (R.flt_fatalTimeHi sd) r.time.toNat

/-- The reactions that the source's mask selects (R268). -/
def reactions (s : State) (sd : Side) (r : FRec) : State :=
  let s1 := s.when (s.on (F.src_cfg_int sd r.src)) (fun u =>
    match sd with
    | .field => irqField (u.modF .field (fun c => { c with int := c.int.filter (· != r.src) ++ [r.src] })) (1 + r.src / 16)
    | .host => raiseVector u 0)
  let s2 := s1.when (s1.on (F.src_cfg_nmi sd r.src) && !s1.on (F.flt_atticStat_hold sd))
    (·.modF sd (fun c => { c with nmi := c.nmi.filter (· != r.src) ++ [r.src] }))
  let s3 := s2.when (s2.on (F.src_cfg_block_reset sd r.src))
    (·.modF sd (fun c => { c with blocks := c.blocks ++ [(r.src, r.unit)] }))
  let s4 := s3.when (s3.on (F.src_cfg_chip_reset sd r.src) && sd == .field) (·.modF sd (fun c => { c with chip := c.chip + 1 }))
  s4.when (s4.on (F.src_cfg_errpin sd r.src)) (aliveStop · sd 2)

/-- A record that reaches a side's collector (R274), which runs from the end of the side's reset (R358): counted whatever the attic's state; lost while the attic is held (R277);
its fault group becomes active 16 core cycles on (R278); its reactions act (R268), a FATAL's fixed ones too (R270, R272). -/
def recordRaw (s : State) (sd : Side) (src unit cls : Nat) (syn : Word) (inj : Bool) : State :=
  if heldSide s sd ∨ srcDefault (match sd with | .field => 0 | .host => 1) src = none then s
  else
    let r : FRec := match sd with
      | .field => ⟨BitVec.ofNat 64 (stampF s), !s.on F.time_stat_valid, inj, src, unit, cls, syn⟩
      | .host => ⟨BitVec.ofNat 64 (stampH s), !(porchUpH s && s.porch.hostValid), inj, src, unit, cls, syn⟩
    let s1 := ((s.countSat (F.src_stat_count sd src) 1).raise (F.src_stat_active sd src)).count (F.flt_count_n sd) 1
    let s2 := if s1.on (F.flt_atticStat_hold sd) then (s1.countSat (F.flt_lost_n sd) 1).modF sd (fun c => { c with
          lostCyc := infraOf s sd, lostNow := (if c.lostCyc = infraOf s sd then c.lostNow else []) ++ [r]
          lostWas := if c.lostCyc = infraOf s sd then c.lostWas else s.f (F.flt_lost_n sd) })
      else queueRec s1 sd r
    let s3 := s2.when (sd == .field && houseOpen s2) (·.modH (fun h => { h with fgrp := h.fgrp ++ [(groupCycle s2, src / 16)] }))
    let s4 := if cls = 3 then
        let u := latchFatal s3 sd r
        match sd with
        | .field => safeState u
        | .host => hostSafe u
      else s3
    reactions s4 sd r

/-- A field record. -/
def fault (s : State) (src unit : Nat) (c : FaultClass) (syn : Nat) : State :=
  recordRaw s .field src unit (classCode c) (BitVec.ofNat 32 syn) false
/-- A host record. -/
def hostFault (s : State) (src unit : Nat) (c : FaultClass) (syn : Nat) : State :=
  recordRaw s .host src unit (classCode c) (BitVec.ofNat 32 syn) false

/-- Some source of the side is active with ERRPIN in its mask (R273). -/
def errpinActive (s : State) (sd : Side) : Bool :=
  (List.range 128).any (fun n => s.on (F.src_stat_active sd n) && s.on (F.src_cfg_errpin sd n))

/-- The field side is in its safe state. -/
def inSafe (s : State) : Bool := s.fltF.fatalOn

end Sys2Proof.Machine
end

