-- ==== Sys2Proof/Machine/HallBase.lean ====
section
/-! DEFINITION. Forming channels and routes cycle by cycle (R187-R194), fault groups (R278), and letting time pass. -/

namespace Sys2Proof.Machine

/-- Producer p is active in grid cycle c (R185); at 300 MHz, in the cycle that contains it (R199). -/
def produce (s : State) (c0 p : Nat) : State :=
  let c := gridOf s c0
  s.modH (fun h => if h.acts.contains (c, p) then h else { h with acts := h.acts ++ [(c, p)] })

/-- The group is held by the storm detector or the fault collector (R192). -/
def groupHeld (s : State) (g : Nat) : Bool := s.on (F.grpStat_stat_storm g) || s.on (F.grpStat_stat_fault_dis g)

/-- Insert a number into a rising list without repeats. -/
def insNat (n : Nat) : List Nat → List Nat
  | [] => [n]
  | m :: ms => if n < m then n :: m :: ms else if n = m then m :: ms else m :: insNat n ms

/-- One group change of those that apply from the same cycle (R190, R191): a disarm beats an arm, and every arm of a held group is
ignored. The hold counts that stands in the cycle from which the arm applies, not in that of the channel's activity (DESIGN CHOICE, log
entry 69). -/
def oneChg (now : List (Nat × Nat × Bool)) (u : State) (x : Nat × Nat × Bool) : State :=
  if x.2.2 then
    if groupHeld u x.2.1 || now.contains (x.1, x.2.1, false) then u else u.put (F.grpStat_stat_armed x.2.1) 1
  else u.put (F.grpStat_stat_armed x.2.1) 0

/-- Bring the register changes and group tasks into force that apply from cycle c or before, cycle by cycle (R190, R191). -/
def applyChg (s : State) (c : Nat) : State :=
  let now := s.hall.chg.filter (fun x => decide (x.1 ≤ c))
  let s1 := s.modH (fun h => { h with chg := h.chg.filter (fun x => decide (c < x.1)) })
  let ks := now.foldl (fun l x => insNat x.1 l) []
  (ks.flatMap (fun k => now.filter (fun x => x.1 == k))).foldl (oneChg now) s1

/-- Channels that a list of producers makes active in cycle c (R187). -/
def channelsOf (s : State) (c : Nat) (ps : List Nat) : List Nat :=
  (List.range 256).filter (fun k => ps.any (fun p => (matWord s c (R.pmat_word p (k / 32))).getLsbD (k % 32)))

/-- Storm limit in force (R194). -/
def stormLimit (s : State) : Nat := min 4096 (max 4 (s.f F.hall_cfg_storm_limit))

/-- Length of channel k's run of active cycles that ends in cycle c, given the cycle before. -/
def runLen (s : State) (c k : Nat) : Nat :=
  match s.hall.runs.find? (fun x => x.1 == k) with
  | some (_, c', n) => if c' + gridStep s = c then n + 1 else if c' = c then n else 1
  | none => 1

/-- The channels of ks whose run reaches storm_limit + 1 cycles in cycle c (R194). -/
def hotIn (s : State) (c : Nat) (ks : List Nat) : List Nat := ks.filter (fun k => runLen s c k == stormLimit s + 1)

/-- Channels of cycle c: the producer of each group that storms in it is active in it (R194), until no further group storms (at most 16
can). -/
def formLoop : Nat → State → Nat → List Nat → List Nat
  | 0, s, c, ps => channelsOf s c ps
  | n + 1, s, c, ps =>
    let ks := channelsOf s c ps
    let extra := ((List.range 16).filter (fun g => (hotIn s c ks).any (fun k => k / 16 == g))).map (3008 + 34 + ·)
    if extra.all ps.contains then ks else formLoop n s c (ps ++ extra)

/-- The storm detector in cycle c over its active channels (R194): each group that reaches the limit is disarmed and held, and one record is
made with its lowest channel. -/
def stormPass (s : State) (c : Nat) (ks : List Nat) : State :=
  (List.range 16).foldl (fun u g =>
    match (hotIn s c ks).find? (fun k => k / 16 == g) with
    | none => u
    | some k =>
      fault (((u.put (F.grpStat_stat_armed g) 0).raise (F.grpStat_stat_storm g)).put (F.grpStat_stat_storm_ch g) k) 80 g .contained k) s

/-- Listed words of the task matrix in cycle c: task input and word number. -/
def tmatListed (s : State) : List (Nat × Nat) :=
  (s.regs.filter (fun p => decide (0xA0000 ≤ p.1) && decide (p.1 < 0xA0000 + 32 * 4752))).map
    (fun p => ((p.1 - 0xA0000) / 32, (p.1 - 0xA0000) / 4 % 8)) ++
  (s.hall.old.filter (fun x => decide (0xA0000 ≤ x.2.1) && decide (x.2.1 < 0xA0000 + 32 * 4752))).map
    (fun x => ((x.2.1 - 0xA0000) / 32, (x.2.1 - 0xA0000) / 4 % 8))

/-- What the channels ks of cycle c leave: storms, the length of every run, group tasks, and the arrivals 12 cycles on (R187, R190, R194). -/
def formWith (s2 : State) (c : Nat) (ks : List Nat) : State :=
  let s4 := (stormPass s2 c ks).modH (fun h => { h with
    runs := h.runs.filter (fun x => !ks.contains x.1) ++ ks.map (fun k => (k, c, runLen s2 c k)) })
  let span := 12 * gridStep s4
  let s5 := (List.range 16).foldl (fun u g =>
    let u1 := u.when (u.on (F.grpCtl_ctl_arm_en g) && ks.contains (u.f (F.grpCtl_ctl_arm_ch g)))
      (·.modH (fun h => { h with chg := h.chg ++ [(c + span, g, true)] }))
    u1.when (u1.on (F.grpCtl_ctl_dis_en g) && ks.contains (u1.f (F.grpCtl_ctl_dis_ch g)))
      (·.modH (fun h => { h with chg := h.chg ++ [(c + span, g, false)] }))) s4
  let live := ks.filter (fun k => s5.on (F.grpStat_stat_armed (k / 16)))
  let hits := (tmatListed s5).eraseDups.flatMap (fun x =>
    let w := matWord s5 c (R.tmat_word x.1 x.2)
    (live.filter (fun k => k / 32 == x.2 && w.getLsbD (k % 32))).map (fun _ => (c + span, x.1, c)))
  ks.foldl (fun u k => monEventAt u k c 1) (s5.modH (fun h => { h with due := h.due ++ hits }))

/-- The fault groups fs of a cycle disarm and hold the groups of their masks (R278). -/
def disarmAll (s : State) (fs : List Nat) : State :=
  fs.foldl (fun u f => (List.range 16).foldl (fun v g =>
    v.when (v.on ⟨R.fgd_word f, g, 1⟩) (fun y => (y.put (F.grpStat_stat_armed g) 0).raise (F.grpStat_stat_fault_dis g))) u) s

/-- Form the channels and routes of cycle c (R187): group changes, fault groups and producers first. arm_ch, dis_ch, the FGD mask and
storm_limit are those in force at the formation, so a write of cycle c acts on the channels of cycle c: the rule dates matrix words only
(DESIGN CHOICE, log entry 71). -/
def formCycle (s0 : State) (c : Nat) : State :=
  let s := applyChg s0 c
  let fs := (s.hall.fgrp.filter (fun x => x.1 == c)).map (·.2)
  let s1 := disarmAll s fs
  let ps := (s1.hall.acts.filter (fun x => x.1 == c)).map (·.2) ++ fs.map (2992 + ·)
  let s2 := s1.modH (fun h => { h with acts := h.acts.filter (fun x => x.1 != c), fgrp := h.fgrp.filter (fun x => x.1 != c) })
  formWith s2 c (formLoop 17 s2 c ps)

/-- TRIG_OUT[i] takes marker m of engine e through its timed route (R198). -/
def timedBy (s : State) (e m i : Nat) : Bool :=
  s.f (F.trigOut_cfg_mode i) == 3 && s.f (F.trigOut_timed_engine i) == e && s.f (F.trigOut_timed_marker i) + 4 == m

/-- The firings at the instants up to t take the routes as they stand (R198). -/
def routeFired (s : State) (t : Nat) : State :=
  let now := s.hall.fired.filter (fun x => decide (x.2.2 ≤ t))
  s.modH (fun h => { h with
    fired := h.fired.filter (fun x => decide (t < x.2.2))
    timed := h.timed ++ now.flatMap (fun x => ((List.range 16).filter (timedBy s x.1 x.2.1)).map (fun i => (i, x.2.2))) })

/-- Marker m (4-7) of engine e fires at instant t (2^-16 beat), which may lie ahead: the TRIG_OUT pins whose timed route names it at that
instant take it (R198). -/
def fireTimed (s : State) (e m t : Nat) : State :=
  if t ≤ t16Now s then
    s.modH (fun h => { h with timed := h.timed ++ ((List.range 16).filter (timedBy s e m)).map (fun i => (i, t)) })
  else s.modH (fun h => { h with fired := h.fired ++ [(e, m, t)] })

/-- Let the start of core cycle c be reached, if it lies ahead: its events take place in it. -/
def reachCycle (s : State) (c : Nat) : State := if houseOpen s then passTime s (c * coreU - s.clk.house) else s

/-- Form, in order and each in its cycle, the cycles before k that have an active producer or fault group. -/
def settleLoop : Nat → State → Nat → State
  | 0, s, _ => s
  | n + 1, s, k =>
    match (((s.hall.acts ++ s.hall.fgrp).map (·.1)).filter (fun c => decide (c < k))).min? with
    | none => s
    | some c => settleLoop n (formCycle (reachCycle s c) c) k

/-- Form every cycle before the one that contains grid cycle k (R187, R199), and bring the group changes of those cycles into force. -/
def settle (s : State) (k : Nat) : State := applyChg (settleLoop k s (gridOf s k)) (gridOf s k - 1)

/-- Let the house clock reach h (1/196,608 beat), if it lies ahead; the cycles before it are formed. -/
def advanceHouse (s : State) (h : Nat) : State :=
  if houseOpen s && decide (s.clk.house < h) then
    let s1 := settle (routeFired s (h / t16U)) (h / coreU)
    passTime s1 (h - s1.clk.house)
  else s

/-- Let house time reach instant t (2^-16 beat), if it lies ahead (log entry 2). -/
def advanceT (s : State) (t : Nat) : State := advanceHouse s (t * t16U)

/-- Let the start of core cycle k be reached. -/
def advanceCycle (s : State) (k : Nat) : State := advanceHouse s (k * coreU)

/-- Let true time reach t, if it lies ahead: the instants of rules on the infrastructure clock. -/
def advanceNow (s : State) (t : Nat) : State :=
  if s.clk.now < t then
    let h := s.clk.house + (t - s.clk.now)
    let s1 := if houseOpen s then settle (routeFired s (h / t16U)) (h / coreU) else s
    passTime s1 (t - s1.clk.now)
  else s

/-- One cycle of the core clock passes: what step does on an empty queue (log entry 1). -/
def tick (s : State) : State := advanceNow s (s.clk.now + cycleU s)

end Sys2Proof.Machine
end

