-- ==== Sys2Proof/Machine/StoreBase.lean ====
section
/-! DEFINITION. The pattern store's bytes and granules, the address map (R204), and a checked read (R219, R220). -/

namespace Sys2Proof.Machine

/-- Pseudo-channel of a granule (R204). -/
def pcOfGran (g : Nat) : Nat := g / 4 % 256
/-- Local byte address of a granule in its pseudo-channel (R204). -/
def localAddr (g : Nat) : Nat := g / 4 / 256 * 256 + g * 64 % 256
/-- Bank of a granule (R204). -/
def bankOfGran (g : Nat) : Nat := localAddr g / 1024 % 48
/-- Row of a granule (R204). -/
def rowOfGran (g : Nat) : Nat := localAddr g / (1024 * 48)
/-- Stack of a granule (R204). -/
def stackOfGran (g : Nat) : Nat := pcOfGran g / 64
/-- Number of a bank of a pseudo-channel. -/
def bankNo (pc b : Nat) : Nat := pc * 48 + b
/-- Number of a row of a bank. -/
def rowNo (pc b r : Nat) : Nat := bankNo pc b * 16384 + r
/-- Lowest-addressed granule that lies in a row (R221): the inverse of R204 at column 0. -/
def rowFirstGran (pc b r : Nat) : Nat := (r * 48 + b) * 4 * 256 * 4 + pc * 4

/-- A byte of the store. -/
def storeByte (s : State) (a : Nat) : BitVec 8 := tget storeDefault s.store a
/-- Write a byte of the store. -/
def putByte (s : State) (a : Nat) (v : BitVec 8) : State := { s with store := tset storeDefault s.store a v }

/-- Granule from bytes a .. a + n - 1, the lowest first (R6). -/
def bytesAt (s : State) (a : Nat) : Nat → Nat
  | 0 => 0
  | n + 1 => (storeByte s a).toNat + 256 * bytesAt s (a + 1) n

/-- A granule's data bits. -/
def granBits (s : State) (g : Nat) : Granule := BitVec.ofNat 512 (bytesAt s (64 * g) 64)

/-- Write n bytes of v from address a, the lowest first. -/
def putBytes (s : State) (a v : Nat) : Nat → State
  | 0 => s
  | n + 1 => putBytes (putByte s a (BitVec.ofNat 8 v)) (a + 1) (v / 256) n

/-- Error state of a granule: 0 clean, 1 one bad symbol, 2 uncorrectable, 3 poisoned, 4 one bad symbol that a write-back does not remove
(R219, R220). -/
def errOf (s : State) (g : Nat) : Nat := tget (fun _ => 0) s.granErr g
/-- Set the error state of a granule. -/
def setErr (s : State) (g v : Nat) : State := { s with granErr := tset (fun _ => 0) s.granErr g v }

/-- Write a whole granule: fresh data with fresh check bits; it clears poison, and a waiting write-back of the granule is
dropped (R219, R220, R222). -/
def writeGran (s : State) (g : Nat) (d : Granule) : State :=
  let s1 := setErr (putBytes s (64 * g) d.toNat 64) g 0
  { s1 with ctl := { s1.ctl with wb := s1.ctl.wb.filter (· != g) } }

/-- Spare rows of a pseudo-channel already given (R221). -/
def sparesUsed (s : State) (pc : Nat) : Nat :=
  ((s.ctl.remap ++ s.ctl.copying).filter (fun r => r / 16384 / 48 == pc)).length

/-- A row is to be spared: its copy begins, while its pseudo-channel has a spare row left (R221). -/
def startSparing (s : State) (g : Nat) : State :=
  let r := rowNo (pcOfGran g) (bankOfGran g) (rowOfGran g)
  if s.ctl.remap.contains r || s.ctl.copying.contains r || decide (4 ≤ sparesUsed s (pcOfGran g)) then s
  else { s with ctl := { s.ctl with copying := s.ctl.copying ++ [r] } }

/-- Read granule g through the code (R219, R220): its data and whether it is poisoned. A correction counts, is recorded when
ce_seen was 0, and is written back later; an uncorrectable granule is poisoned, counted and recorded, and its row is spared. -/
def readGran (s : State) (g : Nat) : (Granule × Bool) × State :=
  let d := granBits s g
  let st := stackOfGran g
  match errOf s g with
  | 0 => ((d, false), s)
  | 1 | 4 =>
    let s1 := s.countSat (F.ecc_ce_n st) 1
    let s2 := if s1.on (F.ecc_spare_ce_seen st) then s1
      else fault (s1.raise (F.ecc_spare_ce_seen st)) 64 (pcOfGran g) .corrected g
    ((d, false), { s2 with ctl := { s2.ctl with wb := s2.ctl.wb.filter (· != g) ++ [g] } })
  | 2 =>
    let s1 := (setErr s g 3).countSat (F.ecc_ue_n st) 1
    let s2 := s1.setReg (R.ecc_last st) (BitVec.ofNat 32 g)
    ((d, true), startSparing (fault s2 65 (pcOfGran g) .contained g) g)
  | _ => ((d, true), s)

end Sys2Proof.Machine
end

