-- ==== Sys2Proof/Machine/Desc.lean ====
section
/-! DEFINITION. Segment descriptors (R30-R35), the pantry (R44-R53) and the timing-set check (R122, R124). -/

namespace Sys2Proof.Machine

/-- A descriptor as its table holds it (R32). -/
structure Desc where
  base : Nat
  len : Nat
  format : Nat
  valid : Bool
  wlog2 : Nat
  resident : Bool
  streaming : Bool
  filler : Bool
  cmpEn : Bool
  cmpSeg : Nat
  cnt : Nat
  first : Nat
  pin : Nat
  deriving DecidableEq, Repr

/-- The state as a naming in core cycle c sees descriptors, timing sets and level sets: as they stood before the writes of that cycle
(R34, R125, R135). -/
def beforeWrites (s : State) (c : Nat) : State :=
  (s.hall.old.filter (fun x => x.1 == c)).foldl (fun u x => u.setReg x.2.1 x.2.2) s

/-- Read descriptor i of table t. -/
def descOf (s : State) (t i : Nat) : Desc :=
  { base := s.f (F.seg_base_base t i), len := s.f (F.seg_len_length t i), format := s.f (F.seg_ctl_format t i)
    valid := s.on (F.seg_ctl_valid t i), wlog2 := s.f (F.seg_ctl_suite_log2 t i), resident := s.on (F.seg_ctl_resident t i)
    streaming := s.on (F.seg_ctl_streaming t i), filler := s.on (F.seg_ctl_filler t i)
    cmpEn := s.on (F.seg_aux_cmp_en t i) && decide (32 ≤ t), cmpSeg := s.f (F.seg_aux_cmp_seg t i)
    cnt := s.f (F.seg_aux_slice_cnt t i), first := s.f (F.seg_aux_slice_first t i), pin := s.f (F.seg_ctl_pin_state t i) }

/-- R30: at least 8 granules, and the extent lies in the store. -/
def descFits (d : Desc) : Bool := decide (8 ≤ d.len) && decide (d.base + d.len * 2 ^ d.wlog2 ≤ storeGranules)

/-- The companion's rules (R41): a valid express-compare descriptor of the same width and slices and twice the length. -/
def companionOk (d c : Desc) : Bool :=
  c.valid && c.format == 2 && descFits c && c.wlog2 == d.wlog2 && (d.wlog2 == 0 || (c.first == d.first && c.cnt == d.cnt)) &&
    c.len == 2 * d.len

/-- The descriptor check of a naming by engine e at suite position pos (R35). -/
def descCheck (s : State) (e i : Nat) (inSuite : Bool) (pos : Nat) : Bool :=
  let t := tableOf e
  let d := descOf s t i
  decide (i < segCountN t) && d.valid && descFits d && (if e < 512 then d.format == 0 else d.format == 1) &&
    (d.wlog2 == 0 || inSuite) &&
    (d.wlog2 == 0 || (decide (d.first ≤ pos) && decide (pos < d.first + d.cnt))) &&
    (!d.cmpEn || (decide (d.cmpSeg < segCountN t) && companionOk d (descOf s t d.cmpSeg)))

/-- The conditions on a declared filler (R49), which is a valid segment (R30). -/
def fillerOk (s : State) (e i : Nat) : Bool :=
  let t := tableOf e
  let d := descOf s t i
  decide (i < segCountN t) && d.valid && descFits d && d.wlog2 == 0 && d.filler && !d.streaming && d.pin == 2 &&
    (if e < 512 then d.format == 0 else d.format == 1) && !d.cmpEn

/-- The copy in service of segment i in the pantry of table t. -/
def serving (s : State) (t i : Nat) : Option PanCopy :=
  (s.table t).copies.find? (fun c => c.seg == i && (c.state == 1))

/-- Pantry copy and first granule that serve slice pos of segment i named now: only while it is RESIDENT (R45, R58). -/
def residentAt (s : State) (t i pos : Nat) : Option (Nat × Nat) :=
  if s.f (F.seg_ctl_pin_state t i) = 2 then
    (serving s t i).map (fun c => (c.id, if c.wlog2 = 0 then 0 else (pos - c.first) * c.len))
  else none

/-! ### The pantry -/

/-- Units of 4 granules in a resident area (R44). -/
def panUnits (t : Nat) : Nat := if t < 32 then 7792 else 3415

/-- Copies in order of their place. -/
def insCopy (c : PanCopy) : List PanCopy → List PanCopy
  | [] => [c]
  | x :: xs => if c.unit ≤ x.unit then c :: x :: xs else x :: insCopy c xs

/-- Copies sorted by place. -/
def sortCopies (l : List PanCopy) : List PanCopy := l.foldl (fun a c => insCopy c a) []

/-- Free runs between sorted copies, from unit u to the end: first unit and length (R53). -/
def freeRuns (total : Nat) : Nat → List PanCopy → List (Nat × Nat)
  | u, [] => if u < total then [(u, total - u)] else []
  | u, c :: cs => (if u < c.unit then [(u, c.unit - u)] else []) ++ freeRuns total (c.unit + c.units) cs

/-- Free runs of the pantry of table t. -/
def panFree (s : State) (t : Nat) : List (Nat × Nat) := freeRuns (panUnits t) 0 (sortCopies (s.table t).copies)

/-- The lowest free run that holds n units (R44). -/
def panFit (s : State) (t n : Nat) : Option Nat := ((panFree s t).find? (fun r => decide (n ≤ r.2))).map (·.1)

/-- Show the pantry's runs and states in STAT and FREE (R53). -/
def panShow (s : State) (t : Nat) : State :=
  let rs := (panFree s t).map (·.2)
  let s1 := (s.put (F.pan_free_free_units t) (rs.foldl (· + ·) 0)).put (F.pan_free_largest_run t) (rs.foldl max 0)
  let cs := (s.table t).copies
  (s1.put (F.pan_stat_loading t) (bit (cs.any (·.state == 0)))).put (F.pan_stat_held t) (bit (cs.any (·.state == 2)))

/-- Units that a segment needs (R44). -/
def panNeed (d : Desc) : Nat := divUp (d.len * (if d.wlog2 = 0 then 1 else d.cnt)) 4

/-- A play (current, or named by now) of an engine of table t, or a filler in use, is served from copy id: a naming whose core cycle is
still to come is made anew when what it read changes (R34, R46). -/
def copyUsed (s : State) (t id : Nat) : Bool :=
  (enginesOf t).any fun e =>
    let x := s.engine e
    let uses (p : Option Play) : Bool := match p with
      | some q => q.copy.map (·.1) == some id || q.cmpCopy.map (·.1) == some id
      | none => false
    uses x.play || uses (x.next.filter (fun q => decide (q.namedAt ≤ coreNow s))) || x.fillCopy == some id

/-- Segment i of table t failed to find a run (R44): no copy is described, so pan_off reads 0 (R46, log entry 41). -/
def pinFail (s : State) (t i : Nat) : State :=
  (((s.put (F.seg_ctl_pin_state t i) 3).put (F.seg_ctl_pan_off t i) 0).raise (F.pan_stat_pin_fail t)).put (F.pan_stat_fail_idx t) i

/-- Store granule that pantry offset o of a copy holds (R42, R44). -/
def copyGran (c : PanCopy) (o : Nat) : Nat :=
  if c.wlog2 = 0 then c.base + o else c.base + o % c.len * 2 ^ c.wlog2 + (c.first + o / c.len)

/-- The pantry asks its store port, at FIRM class, for the next granule of copy c (R44). -/
def askLoad (s : State) (t : Nat) (c : PanCopy) : State :=
  let r : Req := ⟨t, 576, false, false, 1, copyGran c c.loaded, 1, c.loaded, none, 6, c.id, s.clk.now, false, 0⟩
  { s with ctl := { s.ctl with reqs := s.ctl.reqs ++ [r] } }

/-- Begin to load segment i of table t into a fresh run: true where one fits (R44, R45). -/
def startLoad (s : State) (t i : Nat) (reload : Bool) (place : Option Nat) : State :=
  let d := descOf s t i
  match place with
  | none => s
  | some u =>
    let c : PanCopy :=
      { id := (s.table t).nextId, seg := i, unit := u, units := panNeed d, base := d.base, len := d.len, wlog2 := d.wlog2, first := d.first
        cnt := if d.wlog2 = 0 then 1 else d.cnt, loaded := 0, state := 0, reload := reload, data := [], poison := [] }
    let s1 := askLoad (s.modT t (fun x => { x with nextId := x.nextId + 1, copies := x.copies ++ [c] })) t c
    (s1.put (F.seg_ctl_pin_state t i) 1).when (!reload) (·.put (F.seg_ctl_pan_off t i) (4 * u))

/-- Pin segment i (R44): LOADING at the lowest run that fits, else FAILED. -/
def pinSeg (s : State) (t i : Nat) : State :=
  match panFit s t (panNeed (descOf s t i)) with
  | some u => panShow (startLoad s t i false (some u)) t
  | none => panShow (pinFail s t i) t

/-- Give up the copies of segment i (R45, R46): at once where no play holds them, else held until those plays end. -/
def releaseSeg (s : State) (t i : Nat) : State :=
  let s1 := s.modT t (fun x => { x with
    copies := (x.copies.filter (fun c => c.seg != i || copyUsed s t c.id)).map
      (fun c => if c.seg == i then { c with state := 2 } else c) })
  panShow s1 t

/-- Release the held copies of segment i that no play named before and no filler in use holds any longer (R45, R46). -/
def dropHeld (s : State) (t i : Nat) : State :=
  panShow (s.modT t (fun x => { x with copies := x.copies.filter (fun c => !(c.seg == i && c.state == 2 && !copyUsed s t c.id)) })) t

/-- Release every held copy of table t that nothing holds. -/
def dropHeldAll (s : State) (t : Nat) : State :=
  if (s.table t).copies.any (fun c => c.state == 2 && !copyUsed s t c.id) then
    panShow (s.modT t (fun x => { x with copies := x.copies.filter (fun c => !(c.state == 2 && !copyUsed s t c.id)) })) t
  else s

/-! ### Timing sets -/

/-- A time of n/1,000 beat in the same unit. -/
def milliBeat (freq n : Nat) : Int := ((n * 256 * freq : Nat) : Int)
/-- The period in the same unit. -/
def periodAt : Int := 2 ^ 48 * 256000

/-- R124, code 1: window mode is legal only with NRZ. -/
def chkFormat (s : State) (l i : Nat) : Bool := !(tsWindow s l i && tsDrive s l i != 0)
/-- R124, code 2. -/
def chkOrder (s : State) (freq l i : Nat) : Bool :=
  let on := edgeAt s freq l i 0
  let data := edgeAt s freq l i 1
  let ret := edgeAt s freq l i 2
  let stb := edgeAt s freq l i 3
  decide (on ≤ data) && (tsDrive s l i == 0 || decide (data + milliBeat freq 384 ≤ ret)) &&
    (!tsWindow s l i || decide (ret + milliBeat freq 320 ≤ stb))
/-- R124, code 3: the last driver edge of set i, then D_ON of set j one period on. -/
def chkDrive (s : State) (freq l i j : Nat) : Bool :=
  let last := if tsDrive s l i = 0 then edgeAt s freq l i 1 else edgeAt s freq l i 2
  decide (last + milliBeat freq 384 ≤ periodAt + edgeAt s freq l j 0)
/-- R124, code 4: STROBE or WIN_CLOSE of set i, then STROBE or WIN_OPEN of set j one period on. -/
def chkCmp (s : State) (freq l i j : Nat) : Bool :=
  decide (edgeAt s freq l i 3 + milliBeat freq 640 ≤ periodAt + edgeAt s freq l j (if tsWindow s l j then 2 else 3))

/-- The first failing check of pair (a, b) on lane l: its code and the set it names (R124). -/
def pairCheck (s : State) (freq l a b : Nat) : Option (Nat × Nat) :=
  let sets := [a, b]
  let orders := [(a, a), (a, b), (b, a), (b, b)]
  match sets.find? (fun i => !chkFormat s l i) with
  | some i => some (1, i)
  | none =>
    match sets.find? (fun i => !chkOrder s freq l i) with
    | some i => some (2, i)
    | none =>
      match orders.find? (fun o => !chkDrive s freq l o.1 o.2) with
      | some o => some (3, o.1)
      | none =>
        match orders.find? (fun o => !chkCmp s freq l o.1 o.2) with
        | some o => some (4, o.1)
        | none => none

end Sys2Proof.Machine
end

