-- ==== Sys2Proof/Machine/ProgWord.lean ====
section
/-! DEFINITION. The engines' own instruction words (R79, R83, R87): their operations, encoder and decoder. -/

namespace Sys2Proof.Machine

/-- The operations of R87 with their operands. -/
inductive ProgOp where
  | nop | halt | ret | synct | ldtStart
  | jmp (addr : BitVec 12) | call (addr : BitVec 12)
  | br (mask : BitVec 8) (addr : BitVec 12)
  | djnz (x : BitVec 3) (addr : BitVec 12)
  | play (seg : BitVec 14) (n : BitVec 16)
  | playc (seg : BitVec 14) (x : BitVec 3)
  | wait (mask : BitVec 8) (seg : BitVec 14)
  | strmImm (ring : BitVec 8) (g : BitVec 32)
  | strmCtr (ring : BitVec 8) (x : BitVec 3)
  | ldt (hi : Bool) (imm : BitVec 32)
  | addt (imm : BitVec 48)
  | ldc (x : BitVec 3) (imm : BitVec 32) | addc (x : BitVec 3) (imm : BitVec 32)
  | mark (m : BitVec 3) (offset : BitVec 40)
  | sig (m : BitVec 3)
  | setf (idx : BitVec 4) (cont : Bool)
  | ldf (idx : BitVec 4) (value : BitVec 48)
  | setp (rel : Bool) (phase : BitVec 48)
  | tset (a b : BitVec 4)
  | lvl (n : BitVec 3)
  | cmpm (mode : BitVec 4)
  deriving DecidableEq, Repr

/-- A word from its opcode, modifier and operands (R79). -/
def word64 (op md : Nat) (operands : Nat) : BitVec 64 := BitVec.ofNat 64 (op * 2 ^ 56 + md * 2 ^ 48 + operands)

/-- The word of an operation (R87). -/
def encodeWord : ProgOp → BitVec 64
  | .nop => word64 0x00 0 0
  | .halt => word64 0x01 0 0
  | .jmp a => word64 0x08 0 a.toNat
  | .call a => word64 0x09 0 a.toNat
  | .ret => word64 0x0A 0 0
  | .br m a => word64 0x0B m.toNat a.toNat
  | .djnz x a => word64 0x0C x.toNat a.toNat
  | .play sg n => word64 0x10 0 (n.toNat * 2 ^ 32 + sg.toNat)
  | .playc sg x => word64 0x11 x.toNat sg.toNat
  | .wait m sg => word64 0x12 m.toNat sg.toNat
  | .strmImm r g => word64 0x13 0 (r.toNat * 2 ^ 40 + g.toNat)
  | .strmCtr r x => word64 0x13 (0x80 + x.toNat) (r.toNat * 2 ^ 40)
  | .synct => word64 0x18 0 0
  | .ldt hi i => word64 0x19 (bit hi) i.toNat
  | .ldtStart => word64 0x19 2 0
  | .addt i => word64 0x1A 0 i.toNat
  | .ldc x i => word64 0x20 x.toNat i.toNat
  | .addc x i => word64 0x21 x.toNat i.toNat
  | .mark m o => word64 0x28 m.toNat o.toNat
  | .sig m => word64 0x29 m.toNat 0
  | .setf i c => word64 0x30 (bit c * 0x80 + i.toNat) 0
  | .ldf i v => word64 0x31 i.toNat v.toNat
  | .setp r p => word64 0x32 (bit r) p.toNat
  | .tset a b => word64 0x38 (b.toNat * 16 + a.toNat) 0
  | .lvl n => word64 0x39 n.toNat 0
  | .cmpm m => word64 0x3A m.toNat 0

/-- The operation that a word's opcode and fields name, reserved bits not yet looked at. -/
def opFields (w : BitVec 64) : Option ProgOp :=
  let a := w.extractLsb' 0 12
  let sg := w.extractLsb' 0 14
  let x := w.extractLsb' 48 3
  let md := w.extractLsb' 48 8
  let i32 := w.extractLsb' 0 32
  match (w.extractLsb' 56 8).toNat with
  | 0x00 => some .nop
  | 0x01 => some .halt
  | 0x08 => some (.jmp a)
  | 0x09 => some (.call a)
  | 0x0A => some .ret
  | 0x0B => some (.br md a)
  | 0x0C => some (.djnz x a)
  | 0x10 => some (.play sg (w.extractLsb' 32 16))
  | 0x11 => some (.playc sg x)
  | 0x12 => some (.wait md sg)
  | 0x13 => some (if w.getLsbD 55 then .strmCtr (w.extractLsb' 40 8) x else .strmImm (w.extractLsb' 40 8) i32)
  | 0x18 => some .synct
  | 0x19 => if w.getLsbD 49 then some .ldtStart else some (.ldt (w.getLsbD 48) i32)
  | 0x1A => some (.addt (w.extractLsb' 0 48))
  | 0x20 => some (.ldc x i32)
  | 0x21 => some (.addc x i32)
  | 0x28 => some (.mark x (w.extractLsb' 0 40))
  | 0x29 => some (.sig x)
  | 0x30 => some (.setf (w.extractLsb' 48 4) (w.getLsbD 55))
  | 0x31 => some (.ldf (w.extractLsb' 48 4) (w.extractLsb' 0 48))
  | 0x32 => some (.setp (w.getLsbD 48) (w.extractLsb' 0 48))
  | 0x38 => some (.tset (w.extractLsb' 48 4) (w.extractLsb' 52 4))
  | 0x39 => some (.lvl x)
  | 0x3A => some (.cmpm (w.extractLsb' 48 4))
  | _ => none

/-- The lowest ISA level that contains an operation (R82, R87). -/
def opLevel : ProgOp → Nat
  | .strmImm _ _ | .strmCtr _ _ | .ldtStart | .addt _ => 2
  | .mark m _ | .sig m => if 4 ≤ m.toNat then 2 else 1
  | .setf _ c => if c then 2 else 1
  | .setp r _ => if r then 2 else 1
  | _ => 1

/-- The ranges of R87 and its further rules: a PLAY count of at least 1, an immediate STRM count of at least 8, segment indexes
below 8,192 and neither TSET nor LVL in a quad engine. -/
def opInRange (quad : Bool) : ProgOp → Bool
  | .play sg n => decide (1 ≤ n.toNat) && (!quad || decide (sg.toNat < 8192))
  | .playc sg _ | .wait _ sg => !quad || decide (sg.toNat < 8192)
  | .strmImm _ g => decide (8 ≤ g.toNat)
  | .tset _ _ | .lvl _ => !quad
  | _ => true

/-- An operation is defined in an image of a level on a room or quad engine (R82, R83, R87). -/
def opDefined (level : Nat) (quad : Bool) (o : ProgOp) : Bool := decide (opLevel o ≤ level) && opInRange quad o

/-- The operation of a word; none where the word is undefined (R83): an opcode outside the table, a reserved bit that is 1
(the word is not the operation's own), a higher level, or a field out of range. -/
def decodeWord (level : Nat) (quad : Bool) (w : BitVec 64) : Option ProgOp :=
  match opFields w with
  | none => none
  | some o => if encodeWord o = w ∧ opDefined level quad o = true then some o else none

/-- The program header of word 0 (R81): level and index of the last word; none where arm check LEVEL fails. -/
def headerOf (w : BitVec 64) : Option (Nat × Nat) :=
  let lv := bitsOf w 48 8
  let last := bitsOf w 32 12
  if bitsOf w 56 8 = 0xFE ∧ (lv = 1 ∨ lv = 2) ∧ bitsOf w 44 4 = 0 ∧ 1 ≤ last then some (lv, last) else none

end Sys2Proof.Machine
end

