-- ==== Sys2Proof/Machine/Engine.lean ====
section
/-! DEFINITION. Engines: task arrivals and consumption (R61, R63, R64), prefetching (R17, R168), namings (R34, R35, R88-R91,
R169), the instructions (R79-R104) and running a chain (R57, R60-R62, R83). -/

namespace Sys2Proof.Machine

/-! ### Tasks -/

/-- Live task flags of engine e. -/
def flagsOf (s : State) (e : Nat) : Nat := s.f (F.eng_task_flag e)

/-- One arrival at flag t of engine e in the present core cycle (R63, R61): a second arrival of the cycle merges; an arrival at a
flag that was already set overlaps; one that meets a consumption of the same cycle finds the flag not set, and one that comes
before the chain's consumption is taken away with it. -/
def taskArrive (s : State) (e t : Nat) : State :=
  let x0 := s.engine e
  let c := coreNow s
  let x := if x0.arrCyc = c then x0 else { x0 with arrCyc := c, arrNow := 0, mrgNow := 0, ovNow := 0, ovSet := 0 }
  let b := 2 ^ t
  let fl := flagsOf s e
  if x.arrNow.testBit t then
    let s1 := (s.put (F.eng_task_merged e) (s.f (F.eng_task_merged e) ||| b)).raise (F.eng_stat_merged e)
    let s2 := if x.mrgNow.testBit t then s1 else s1.count (F.eng_coinc_count e) 1
    s2.setEngine e { x with mrgNow := x.mrgNow ||| b }
  else
    let later := x.cons.any (fun y => y.1 == t && decide (c < y.2))
    if fl.testBit t || later then
      let ov := s.f (F.eng_task_overlap e)
      let fresh := !ov.testBit t
      (s.put (F.eng_task_overlap e) (ov ||| b)).setEngine e
        { x with arrNow := x.arrNow ||| b, ovNow := if fresh then x.ovNow ||| b else x.ovNow, ovSet := x.ovSet ||| b }
    else (s.put (F.eng_task_flag e) (fl ||| b)).setEngine e { x with arrNow := x.arrNow ||| b }

/-- Arrivals at every flag of a mask. -/
def taskArrivals (s : State) (e mask : Nat) : State :=
  (List.range 8).foldl (fun u t => if mask.testBit t then taskArrive u e t else u) s

/-- Clear flags of engine e in core cycle c; an arrival in that cycle wins, and then sets no overlap bit (R61, R64). -/
def clearFlags (s : State) (e mask c : Nat) : State :=
  let x := s.engine e
  let won := if x.arrCyc = c then x.arrNow &&& mask else 0
  let s1 := s.put (F.eng_task_flag e) (flagsOf s e &&& (255 - (mask &&& 255) + won))
  let undo := won &&& x.ovNow
  let s2 := s1.when (undo != 0) (·.put (F.eng_task_overlap e) (s.f (F.eng_task_overlap e) &&& (255 - undo)))
  s2.when (won != 0) (·.modE e (fun y => { y with ovNow := y.ovNow &&& (255 - won), ovSet := y.ovSet &&& (255 - won) }))

/-- Consume the masked flags that were set in the sample, in core cycle c (R61). -/
def consume (s : State) (e mask c : Nat) : State :=
  let x := s.engine e
  let m := mask &&& x.sample
  let s1 := clearFlags s e m c
  s1.modE e (fun y => { y with
    sample := y.sample &&& (255 - m)
    cons := y.cons ++ ((List.range 8).filter (fun t => m.testBit t)).map (fun t => (t, c)) })

/-! ### Prefetch -/

/-- Granule g of the play p of engine e is not yet in a queue nor under way, and may be fetched: a ring position only once it
has been written (R168). -/
def fetchable (s : State) (p : Play) (g : Nat) : Bool :=
  match p.kind with
  | .strm r => decide (0 < signed 32 ((s.f (F.ring_wptr_p r) + 2 ^ 32 - strmPos p g) % 2 ^ 32))
  | _ => true

/-- Granules of a queue that have not been played. -/
def ahead (q : List (Nat × Granule × Bool)) (g : Nat) : Nat := (q.filter (fun x => decide (g ≤ x.1))).length

/-- Urgency of an RT prefetch by the fill of the lane queue that it will refill (R206). -/
def rtUrgency (s : State) (e : Nat) (cmp : Bool) : Nat :=
  let x := s.engine e
  let g := match x.play with
    | some p => if t16Now s < p.t0 then 0 else granAt s e p
    | none => 0
  let n := if cmp then ahead x.cmpQueue (2 * g) + x.nextCmpQueue.length else ahead x.queue g + x.nextQueue.length
  let cap := if cmp then 454 else queueCap e
  if 3 * cap ≤ 4 * n then 0 else if 2 * cap ≤ 4 * n then 1 else if cap ≤ 4 * n then 2 else 3

/-- Enter the prefetch requests of a play for granules fetched .. fetched + n - 1 (R17, R205). -/
def reqPlay (s : State) (e : Nat) (p : Play) (nxt : Bool) : Nat → Nat → State
  | 0, _ => s
  | n + 1, g =>
    if g < p.endAt && fetchable s p g then
      let r : Req := ⟨tableOf e, e, false, nxt, 2, storeGran p g, 1, g, none, 0, 0, s.clk.now, false, rtUrgency s e false⟩
      reqPlay { s with ctl := { s.ctl with reqs := s.ctl.reqs ++ [r] } } e p nxt n (g + 1)
    else s

/-- Enter the prefetch requests of a play's companion (R16, R41). -/
def reqCmp (s : State) (e : Nat) (p : Play) (base : Nat) (nxt : Bool) : Nat → Nat → State
  | 0, _ => s
  | n + 1, g =>
    if g < 2 * p.endAt then
      let a := base + (if p.len = 0 then 0 else g % (2 * p.len)) * 2 ^ p.wlog2 + p.pos
      let r : Req := ⟨tableOf e, e, true, nxt, 2, a, 1, g, none, 0, 0, s.clk.now, false, rtUrgency s e true⟩
      reqCmp { s with ctl := { s.ctl with reqs := s.ctl.reqs ++ [r] } } e p base nxt n (g + 1)
    else s

/-- Requests of engine e under way for a play's queue. -/
def underWay (s : State) (e : Nat) (cmp nxt : Bool) : Nat :=
  (s.ctl.reqs.filter (fun r => r.eng == e && r.cmp == cmp && r.nxt == nxt && r.cls == 2)).length

/-- Granules that stay after they have played, for judgement: on an express lane as long as the receiver keeps the compare stream,
65,567 UI (R159). -/
def keepGrans (e : Nat) : Nat := if e < 512 then 4 else 130

/-- Drop granules of the play in progress that have been played and judged; what they leave on the driver is noted (R39). -/
def pruneQueue (s : State) (e : Nat) : State :=
  match (s.engine e).play with
  | none => s
  | some p =>
    let g := granAt s e p
    let lo := g - keepGrans e
    let s1 := if p.copy.isNone && (s.engine e).fillEnd.isNone && decide ((s.laneOf e).condFrom < lo) then foldDrive s e p lo lo else s
    s1.modE e (fun x => { x with queue := x.queue.filter (fun q => decide (lo ≤ q.1)),
                                 cmpQueue := x.cmpQueue.filter (fun q => decide (2 * lo ≤ q.1)) })

/-- The engine's store port keeps issuing prefetches until its queues are full: for the play in progress, then for the named
play (R16, R17, R218); none once the engine has left ARMED, RUN and WAIT (R77), nor while its arm waits for a retune (R157). -/
def topUp (s0 : State) (e : Nat) : State :=
  if !engaged s0 e || (s0.engine e).retuneArm then s0 else
  let s := pruneQueue s0 e
  let x := s.engine e
  let cap := queueCap e
  let g := match x.play with | some p => if t16Now s < p.t0 then 0 else granAt s e p | none => 0
  let used := ahead x.queue g + x.nextQueue.length + underWay s e false false + underWay s e false true
  let s1 := match x.play with
    | some p => if p.copy.isSome then s else reqPlay s e p false (cap - used) (p.fetched + underWay s e false false)
    | none => s
  let used1 := ahead x.queue g + x.nextQueue.length + underWay s1 e false false + underWay s1 e false true
  let s2 := match x.next with
    | some p => if p.copy.isSome then s1 else reqPlay s1 e p true (cap - used1) (p.fetched + underWay s1 e false true)
    | none => s1
  if e < 512 then s2 else
  let usedC := ahead x.cmpQueue (2 * g) + x.nextCmpQueue.length + underWay s2 e true false + underWay s2 e true true
  let s3 := match x.play with
    | some p => match p.cmp with
      | some (_, b) => if p.cmpCopy.isSome then s2 else reqCmp s2 e p b false (454 - usedC) (p.cmpFetched + underWay s2 e true false)
      | none => s2
    | none => s2
  let usedD := ahead x.cmpQueue (2 * g) + x.nextCmpQueue.length + underWay s3 e true false + underWay s3 e true true
  match x.next with
  | some p => match p.cmp with
    | some (_, b) => if p.cmpCopy.isSome then s3 else reqCmp s3 e p b true (454 - usedD) (p.cmpFetched + underWay s3 e true true)
    | none => s3
  | none => s3

/-- The first segment's queue is primed (R58, R169): its copy is resident, or its queue is full or holds the whole segment, or
what its ring holds. -/
def primed (s : State) (e : Nat) (p : Play) : Bool :=
  p.copy.isSome ||
  match p.kind with
  | .strm r =>
    let lvl := signed 32 ((s.f (F.ring_wptr_p r) + 2 ^ 32 - p.first) % 2 ^ 32)
    decide ((min (min (queueCap e) p.grans) lvl.toNat) ≤ (s.engine e).nextQueue.length)
  | _ => decide (min (queueCap e) p.len ≤ (s.engine e).nextQueue.length)

/-! ### Namings -/

/-- Why a naming does not name a segment. -/
inductive NameErr where
  | desc | pair (code set : Nat) | range
  deriving DecidableEq, Repr

/-- Suite position and membership of engine e as armed (R70). -/
def posOf (s : State) (e : Nat) : Nat := (s.engine e).suite / 2 ^ 12 % 128
def inSuite (s : State) (e : Nat) : Bool := (s.engine e).suite % 2 == 1

/-- The pair, frequency word and level set that a play with these pending settings uses (R86, R124). -/
def willUse (x : Engine) (p : Pend) (e : Nat) : Nat × Nat × Nat × Nat :=
  let ab := p.tset.getD (x.set.a, x.set.b)
  let f := match p.freq with | some (v, _) => if e < 512 then freqOf v else xfreqOf v | none => x.set.freq
  (ab.1, ab.2, f, p.lvl.getD x.set.lvl)

/-- The first granule of play q, at its end or after it, that its queue does not hold (R169). -/
def unfetched (q : Play) (queue : List (Nat × Granule × Bool)) : Nat :=
  q.endAt + (firstBelow (queue.length + 1) (fun i => !queue.any (fun g => g.1 == q.endAt + i))).getD 0

/-- The first position the next STRM names (R169): after the positions named for earlier plays; behind the early end of one, the first not
yet fetched. -/
def strmFirst (s : State) (e r : Nat) : Nat :=
  let x := s.engine e
  let tail (p : Option Play) (queue : List (Nat × Granule × Bool)) : Option Nat := match p with
    | some q => match q.kind with
      | .strm r' => if r' = r then some ((q.first + unfetched q queue) % 2 ^ 32) else none
      | _ => none
    | none => none
  match tail x.next x.nextQueue with
  | some v => v
  | none => match tail x.play x.queue with
    | some v => v
    | none => s.f (F.ring_rptr_p r)

/-- Shared fields of a descriptor, whose digest the suite bus carries (R43). -/
def sharedOf (d : Desc) : List Nat := [d.base, d.len, d.format, d.wlog2, bit d.cmpEn, d.cmpSeg]

/-- Build the play that a naming names, from the descriptor as it stands (R34). -/
def mkPlay (s : State) (e : Nat) (kind : PlayKind) (pc seg reps grans first : Nat) : Play :=
  let x := s.engine e
  let t := tableOf e
  let d := descOf s t seg
  let pos := if d.wlog2 = 0 then 0 else posOf s e
  let copy := match kind with | .strm _ => none | _ => residentAt s t seg pos
  let cmp := if d.cmpEn then some (d.cmpSeg, (descOf s t d.cmpSeg).base) else none
  let cmpCopy := if d.cmpEn then residentAt s t d.cmpSeg pos else none
  { kind := kind, pc := pc, seg := seg, base := d.base, len := d.len, wlog2 := d.wlog2, pos := pos, cmp := cmp, copy := copy
    cmpCopy := cmpCopy, reps := reps, grans := grans, first := first, pend := x.pend, tt := x.tt
    target := x.cond && (copy.isNone || (cmp.isSome && cmpCopy.isNone)), late := false, namedAt := x.chainCyc, k0 := 0, t0 := 0
    fetched := 0, cmpFetched := 0, due := 0, marks := x.pend.marks, decided := false, endAt := grans, jmask := 0, jmaskAt := 0
    digest := sharedOf d, cond := x.cond, void := false }

/-- Show a failed pair check on lane l (R124). -/
def showPair (s : State) (l code set : Nat) : State :=
  (s.put (F.lt_tstat_fail_code l) code).put (F.lt_tstat_fail_set l) set

/-- A naming by engine e: the descriptor check (R35) and on a pin lane the pair check (R124); the play, or why there is none. Words
written in the naming's core cycle count from the next (R34, R125). -/
def tryName (s0 : State) (e : Nat) (kind : PlayKind) (pc seg reps grans first : Nat) : Except NameErr Play :=
  let s := beforeWrites s0 (s0.engine e).chainCyc
  let x := s.engine e
  if !descCheck s e seg (inSuite s e) (posOf s e) then .error .desc
  else
    let (a, b, f, _) := willUse x x.pend e
    match (if e < 512 then pairCheck s f e a b else none) with
    | some (c, i) => .error (.pair c i)
    | none => .ok (mkPlay s e kind pc seg reps grans first)

/-! ### Chains -/

/-- What an instruction does to its chain. -/
inductive ChainEnd where
  | go | named | stopped
  deriving DecidableEq, Repr

/-- A record against engine e of what its chain meets, in the core cycle in which the chain meets it (R83, R85). -/
def chainFault (s : State) (e src : Nat) (c : FaultClass) (syn : Nat) : State :=
  fault (advanceCycle s (s.engine e).chainCyc) src e c syn

/-- An entry into filler: from granule 0, and from the copy of the filler that now serves it (R50). -/
def enterFiller (s : State) (e : Nat) : State :=
  let c := (serving s (tableOf e) (s.engine e).filler).map (·.id)
  s.modE e (fun x => { x with fillIdx := 0, fillCopy := match c with | some i => some i | none => x.fillCopy })

/-- Begin a run of two filler granules from instant t, after which the engine takes a final state (R35, R68, R73, R174): an entry into
filler, unless the granule before was filler (R50). -/
def beginFillRun (s : State) (e : Nat) (k : FillEnd) (t : Nat) : State :=
  let x := s.engine e
  let in_ := match x.play with
    | some p => x.holding && decide (4 ≤ x.missCause) || x.fillK == some (granK e p (gransBefore s e p t) - (perGranule e : Int))
    | none => false
  ((dropReqs s e).when (!in_) (enterFiller · e)).modE e (fun x => { x with
    fillEnd := some (k, t), next := none, pend := {}, halting := false, dec := none, disagree := none
    nextQueue := [], nextCmpQueue := [], play := x.play.map (fun p => { p with marks := [] }) })

/-- Instant at which the granule in play of engine e ends; the present one where none is in play. -/
def granuleEnd (s : State) (e : Nat) : Nat :=
  match (s.engine e).play with
  | some p => if t16Now s < p.t0 then t16Now s else granT s e p (granAfter s e p (t16Now s))
  | none => t16Now s

/-- Engine e enters FAULTED: its lanes finish the granule in play, play filler for 2 granules and park (R35, R57, R62). -/
def faultEngine (s : State) (e : Nat) : State :=
  let x := s.engine e
  let s1 := enterState s e stFaulted
  (beginFillRun (s1.when x.abortPend (·.put (F.eng_stat_abort_res e) 3)) e .faulted (granuleEnd s e)).modE e (fun y => { y with
    abortPend := false })

/-- The chain ends as HALT does (R67, R83): pending settings and marks are discarded and the current play runs to its end. In the
setup chain the arm fails with CHAIN. -/
def haltChain (s : State) (e addr : Nat) (cause : Option Nat) : State :=
  if arming s e then failArm s e 6
  else
    let s1 := s.modE e (fun x => { x with halting := true, next := none, pend := {}, chainN := 0, nextQueue := [], nextCmpQueue := []
                                          dec := if (x.suite % 2 == 1) then some x.chainCyc else none })
    match cause with
    | some c => chainFault s1 e 21 .contained (c * 2 ^ 28 + addr)
    | none => s1

/-- A naming fails its descriptor check (R35): FAULTED, or a failed arm; SEG_DESC is recorded either way. -/
def descFail (s : State) (e seg : Nat) : State :=
  let s1 := chainFault s e 23 .contained (tableOf e * 2 ^ 16 + seg)
  if arming s1 e then failArm s1 e 6 else faultEngine s1 e

/-- Words of the chain's instruction store. -/
def imemWord (s : State) (e i : Nat) : BitVec 64 := s.reg (R.imem_hi e i) ++ s.reg (R.imem_lo e i)

/-- Masks of the BR and WAIT words that a chain can reach before its next naming or HALT (R66): a worklist over addresses; the words read
come with them, the last first. The mask of a WAIT word that is itself the chain's next naming is none of them (DESIGN CHOICE, log entry 62). -/
def jumpMask (s : State) (e level last top : Nat) : Nat → List Nat → List Nat → Nat → Nat × List Nat
  | 0, _, seen, m => (m, seen)
  | _, [], seen, m => (m, seen)
  | fuel + 1, a :: todo, seen, m =>
    if seen.contains a then jumpMask s e level last top fuel todo seen m
    else
      let nx := (a + 1) % 4096
      let go (l : List Nat) (k : Nat) := jumpMask s e level last top fuel (l ++ todo) (a :: seen) (m ||| k)
      if a = 0 ∨ last < a then go [] 0 else
      match decodeWord level (decide (512 ≤ e)) (imemWord s e a) with
      | none => go [] 0
      | some .halt => go [] 0
      | some (.play _ _) => go [] 0
      | some (.playc _ _) => go [nx] 0
      | some (.wait _ _) => go [] 0
      | some (.strmImm _ _) => go [] 0
      | some (.strmCtr _ _) => go [nx] 0
      | some (.jmp t) => go [t.toNat] 0
      | some (.call t) => go [t.toNat] 0
      | some .ret => go [top] 0
      | some (.br k t) => go [t.toNat, nx] k.toNat
      | some (.djnz _ t) => go [t.toNat, nx] 0
      | some _ => go [nx] 0

/-- The jump mask of a play that engine e has named, and the words read for it; none outside granule-jump mode (R66). -/
def jumpOf (s : State) (e : Nat) (p : Play) : Nat × List Nat :=
  let x := s.engine e
  if x.cfg / 32 % 2 = 0 then (0, []) else
  jumpMask s e x.level (bitsOf (imemWord s e 0) 32 12) (x.stack.headD 0) 20000 [(p.pc + 1) % 4096] []
    (match p.kind with | .wait k => k | _ => 0)

/-- Form the jump mask of a named play, at one word per core cycle: the cycles count from the naming, where R66 says both 'when the play is
named' and 'during the play' (DESIGN CHOICE, log entry 61). -/
def withMask (s : State) (e : Nat) (p : Play) : Play :=
  if (s.engine e).cfg / 32 % 2 = 0 then p else
  { p with jmask := (jumpOf s e p).1, jmaskAt := (s.engine e).chainCyc + (jumpOf s e p).2.length + 1 }

/-- Fetch the word at pc through its check bits (R57): a single-bit error is corrected in place and recorded, and one that the
write-back does not repair (3) is found again; a double-bit error stops the engine, or fails the arm. -/
def fetchWord (s : State) (e pc : Nat) : Option (BitVec 64) × State :=
  let k := 4096 * e + pc
  match tget (fun _ => 0) s.imemErr k with
  | 0 => (some (imemWord s e pc), s)
  | 1 => (some (imemWord s e pc), chainFault { s with imemErr := tset (fun _ => 0) s.imemErr k 0 } e 19 .corrected pc)
  | 3 => (some (imemWord s e pc), chainFault s e 19 .corrected pc)
  | _ =>
    let s1 := chainFault s e 19 .contained pc
    (none, if arming s1 e then failArm s1 e 6 else faultEngine s1 e)

/-- The words at the addresses are read through their check bits, up to one that cannot be corrected (R57). -/
def readWords (e : Nat) : List Nat → State → State
  | [], s => s
  | a :: as, s => match fetchWord s e a with
    | (some _, u) => readWords e as u
    | (none, u) => u

/-- The one of timing sets a and b of lane e that holds the word at an address. -/
def setAt (e a b x : Nat) : Option Nat := [a, b].find? (fun i => decide (R.ts_fmt e i ≤ x) && decide (x < R.ts_fmt e i + 20))

/-- A write that found `old` in the word at an address, dropped where the word belongs to timing set a or b or to level set lvl of lane e, as
a write to a busy set is (R125, R135). -/
def dropOne (e a b lvl : Nat) (s : State) (addr : Nat) (old : Word) : State :=
  match setAt e a b addr with
  | some i => fault ((s.setReg addr old).raise (F.lt_tstat_ts_busy e)) 25 e .contained i
  | none =>
    if R.ls_drv e lvl ≤ addr ∧ addr < R.ls_drv e lvl + 8 then
      fault ((s.setReg addr old).raise (F.le_lstat_ls_busy e)) 35 e .contained lvl
    else s

/-- Writes of core cycle c to sets that a naming of that cycle by engine e makes busy, dropped (R125, R135). -/
def dropRaced (s : State) (e c a b lvl : Nat) : State :=
  if 512 ≤ e then s
  else (s.hall.old.filter (fun x => x.1 == c)).foldl (fun u x => dropOne e a b lvl u x.2.1 x.2.2) s

/-- The chain has named play p: it becomes the named play, and the chain ends. A naming later than the limit of R62 sets
chain_late; a leader's decision goes to the suite bus (R72). -/
def nameDone (s : State) (e : Nat) (p0 : Play) : State :=
  let x := s.engine e
  let leader := inSuite s e
  let late := !arming s e && decide (x.chainD + chainLimit s e leader < x.chainCyc)
  let p := withMask s e { p0 with late := late }
  let s1 := s.modE e (fun y => { y with
    next := some p, pend := {}, nextPc := (p.pc + 1) % 4096, chainN := 0, nameCyc := y.chainCyc
    wasLate := s.on (F.eng_stat_chain_late e), dec := if leader then some y.chainCyc else none })
  let s2 := s1.when late (·.raise (F.eng_stat_chain_late e))
  readWords e (jumpOf s e p0).2.reverse (topUp ((membersOf s2 e).foldl (fun u m =>
    let w := willUse (u.engine m) p.pend m
    dropRaced u m x.chainCyc w.1 w.2.1 w.2.2.2) s2) e)

/-- A naming word at address pc. -/
def execName (s : State) (e pc : Nat) (kind : PlayKind) (seg reps grans first : Nat) : State × ChainEnd :=
  match tryName s e kind pc seg reps grans first with
  | .ok p => (nameDone s e p, .named)
  | .error .desc => (descFail s e seg, .stopped)
  | .error (.pair c i) => (haltChain (showPair s e c i) e pc (some 2), .stopped)
  | .error .range => (haltChain s e pc (some 2), .stopped)

/-- STRM (R90, R169): the count, then the ring's binding, then the naming. -/
def strmOp (s : State) (e pc ring g : Nat) : State × ChainEnd :=
  if g = 0 then (s.modE e (fun x => { x with nextPc := (pc + 1) % 4096 }), .go)
  else if g < 8 ∨ !s.on (F.ring_cfg_en ring) ∨ s.f (F.ring_cfg_engine ring) ≠ e ∨ isFollower s e then
    (haltChain s e pc (some 2), .stopped)
  else execName s e pc (.strm ring) (s.f (F.ring_cfg_seg ring)) 1 g (strmFirst s e ring)

/-- Continue the chain at an address. -/
def goTo (s : State) (e pc : Nat) : State × ChainEnd := (s.modE e (fun x => { x with nextPc := pc % 4096 }), .go)
/-- Change the pending settings, and continue with the next word. -/
def pendTo (s : State) (e pc : Nat) (g : Pend → Pend) : State × ChainEnd :=
  (s.modE e (fun x => { x with nextPc := (pc + 1) % 4096, pend := g x.pend }), .go)

/-- A marker pulse of SIG in core cycle c (R65, R104, R198). -/
def pulse (s : State) (e m c : Nat) : State :=
  if m < 4 then produce s c (4 * e + m) else fireTimed s e m (coreStart c)

/-- One instruction at address pc (R88-R104): its effect in the core cycle Engine.chainCyc. -/
def execOp (s : State) (e pc : Nat) (op : ProgOp) : State × ChainEnd :=
  let x := s.engine e
  let nx := pc + 1
  let ctr (i : BitVec 3) : Nat := x.ctr.getD i.toNat 0
  let setCtr (u : State) (i : BitVec 3) (v : Nat) : State := u.modE e (fun y => { y with ctr := y.ctr.set i.toNat (v % 2 ^ 32) })
  match op with
  | .nop => goTo s e nx
  | .halt => (haltChain s e pc none, .stopped)
  | .jmp a => goTo s e a.toNat
  | .call a =>
    if 8 ≤ x.stack.length then (haltChain s e pc (some 3), .stopped)
    else goTo (s.modE e (fun y => { y with stack := (nx % 4096) :: y.stack })) e a.toNat
  | .ret =>
    match x.stack with
    | [] => (haltChain s e pc (some 4), .stopped)
    | a :: r => goTo (s.modE e (fun y => { y with stack := r })) e a
  | .br m a =>
    if m.toNat &&& x.sample ≠ 0 then
      goTo ((consume s e m.toNat x.chainCyc).modE e (fun y => { y with cond := true })) e a.toNat
    else goTo s e nx
  | .djnz i a =>
    let v := (ctr i + 2 ^ 32 - 1) % 2 ^ 32
    let s1 := (setCtr s i v).modE e (fun y => { y with ctrLast := some i.toNat, ctrLeft := v })
    if v ≠ 0 then goTo s1 e a.toNat else goTo s1 e nx
  | .play sg n =>
    let len := (descOf (beforeWrites s x.chainCyc) (tableOf e) sg.toNat).len
    execName s e pc .seg sg.toNat n.toNat (n.toNat * len) 0
  | .playc sg i =>
    if ctr i = 0 then goTo s e nx
    else
      let len := (descOf (beforeWrites s x.chainCyc) (tableOf e) sg.toNat).len
      execName s e pc .seg sg.toNat (ctr i) (ctr i * len) 0
  | .wait m sg =>
    let len := (descOf (beforeWrites s x.chainCyc) (tableOf e) sg.toNat).len
    execName s e pc (.wait m.toNat) sg.toNat 1 len 0
  | .strmImm r g => strmOp s e pc r.toNat g.toNat
  | .strmCtr r i => strmOp s e pc r.toNat (ctr i)
  | .synct => pendTo s e pc (fun p => { p with synct := true })
  | .ldt hi imm =>
    goTo (s.modE e (fun y => { y with
      tt := if hi then y.tt % 2 ^ 32 + imm.toNat * 2 ^ 32 else y.tt / 2 ^ 32 * 2 ^ 32 + imm.toNat })) e nx
  | .ldtStart => goTo (s.modE e (fun y => { y with tt := y.startT })) e nx
  | .addt imm => goTo (s.modE e (fun y => { y with tt := (y.tt + imm.toNat) % 2 ^ 64 })) e nx
  | .ldc i imm => goTo (setCtr s i imm.toNat) e nx
  | .addc i imm => goTo (setCtr s i (ctr i + imm.toNat)) e nx
  | .mark m o => pendTo s e pc (fun p => { p with marks := p.marks.filter (fun q => q.1 != m.toNat) ++ [(m.toNat, o.toNat)] })
  | .sig m => goTo (pulse s e m.toNat x.chainCyc) e nx
  | .setf i cont => pendTo s e pc (fun p => { p with freq := some (x.ftab.getD i.toNat 0, cont) })
  | .ldf i v =>
    let ok := if e < 512 then v.toNat = 0 ∨ 43981 ≤ v.toNat else 1250000000 ≤ v.toNat ∧ v.toNat ≤ 58000000000
    if ok then goTo (s.modE e (fun y => { y with ftab := y.ftab.set i.toNat v.toNat })) e nx
    else (haltChain s e pc (some 2), .stopped)
  | .setp rel ph =>
    let d : Int := ph.toInt * 2 ^ 32
    pendTo s e pc (fun p => { p with phase := some (if rel then p.phase.getD x.set.ofs + d else d) })
  | .tset a b => pendTo s e pc (fun p => { p with tset := some (a.toNat, b.toNat) })
  | .lvl n => pendTo s e pc (fun p => { p with lvl := some n.toNat })
  | .cmpm m => pendTo s e pc (fun p => { p with cmpm := some m.toNat })

/-- An undefined word, or a word after last or at index 0 (R83): it executes as HALT and ENG_OPCODE is recorded; in the setup
chain the arm fails and nothing is recorded. -/
def execUndef (s : State) (e pc cause : Nat) : State × ChainEnd := (haltChain s e pc (some cause), .stopped)

/-- A write that falls before the cycle in which engine e's chain names its segment: the naming, whose effect was noted ahead of its cycle,
is made anew from what the tables hold now (R34, R125). -/
def renameLater (s : State) (e : Nat) : State :=
  let x := s.engine e
  match x.next with
  | none => s
  | some p =>
    if p.namedAt ≤ coreNow s ∨ isFollower s e then s
    else
      let u := { s with ctl := { s.ctl with reqs := s.ctl.reqs.filter (fun r => !(r.eng == e && r.cls == 2 && r.nxt)) } }
      let v := (u.modE e (fun y => { y with next := none, dec := none, pend := p.pend, tt := p.tt, nextQueue := [], nextCmpQueue := [] })).put
        (F.eng_stat_chain_late e) (if p.late then bit x.wasLate else s.f (F.eng_stat_chain_late e))
      let grans := match p.kind with
        | .seg => p.reps * (descOf v (tableOf e) p.seg).len
        | .wait _ => (descOf v (tableOf e) p.seg).len
        | .strm _ => p.grans
      (execName v e p.pc p.kind p.seg p.reps grans p.first).1

/-- 4,096 instructions without a naming or HALT (R62): FAULTED with ENG_CHAIN; in the setup chain the arm fails (R58). -/
def overrun (s : State) (e : Nat) : State :=
  if arming s e then failArm s e 6
  else faultEngine (chainFault s e 22 .contained (s.f (F.eng_pc_pc e))) e

/-- The next word of engine e's chain takes one core cycle (R85). -/
def chainStep (s : State) (e : Nat) : State × ChainEnd :=
  let x := s.engine e
  let pc := x.nextPc
  let s1 := (s.modE e (fun y => { y with
    chainCyc := y.chainCyc + 1, chainN := y.chainN + 1, trail := y.trail ++ [pc] })).put (F.eng_pc_pc e) pc
  let last := bitsOf (imemWord s e 0) 32 12
  if pc = 0 then execUndef s1 e pc 1
  else if last < pc then execUndef s1 e pc 5
  else
    match fetchWord s1 e pc with
    | (none, s2) => (s2, .stopped)
    | (some w, s2) =>
      match decodeWord x.level (decide (512 ≤ e)) w with
      | none => execUndef s2 e pc 1
      | some op => execOp s2 e pc op

/-- Run the chain to its naming or its end; the 4,096th instruction without either overruns (R62). -/
def runChain : Nat → State → Nat → State
  | 0, s, e => overrun s e
  | n + 1, s, e =>
    match chainStep s e with
    | (s1, .go) => runChain n s1 e
    | (s1, _) => s1

/-- The chain after the current play begins in decision cycle d (R60). -/
def startChain (s : State) (e d : Nat) : State :=
  s.modE e (fun y => { y with
    chainD := d, chainCyc := d, chainN := 0, cond := false, cons := [], trail := [s.f (F.eng_pc_pc e)] })

/-- The WAIT word of the repetition in progress executes again, in cycle d + 1 (R91): the chain goes on after it where its mask meets the
sample, else it names its segment again. -/
def waitWord (s : State) (e : Nat) (p : Play) (m : Nat) : State × ChainEnd :=
  let s1 := (s.modE e (fun y => { y with
    chainCyc := y.chainCyc + 1, chainN := 1, trail := y.trail ++ [p.pc] })).put (F.eng_pc_pc e) p.pc
  match fetchWord s1 e p.pc with
  | (none, s2) => (s2, .stopped)
  | (some _, s2) =>
    let x := s2.engine e
    if m &&& x.sample ≠ 0 then
      ((consume s2 e m x.chainCyc).modE e (fun y => { y with cond := true, nextPc := (p.pc + 1) % 4096 }), .go)
    else execName s2 e p.pc (.wait m) p.seg 1 (descOf (beforeWrites s2 x.chainCyc) (tableOf e) p.seg).len 0

/-- Mask of the WAIT whose repetition is in progress. -/
def waitMask (s : State) (e : Nat) : Option (Play × Nat) :=
  match (s.engine e).play with
  | some p => match p.kind with
    | .wait m => some (p, m)
    | _ => none
  | none => none

/-- Run the chain after the current play from decision cycle d: a WAIT repetition first executes its own word again (R91). -/
def decide_ (s : State) (e d : Nat) : State :=
  let s0 := startChain s e d
  match waitMask s0 e with
  | some (p, m) =>
    match waitWord s0 e p m with
    | (s1, .go) => runChain 4095 s1 e
    | (s1, _) => s1
  | none => runChain 4096 s0 e

end Sys2Proof.Machine
end

