-- ==== Sys2Proof/Machine/Capture.lean ====
section
/-! DEFINITION. Capture: the rooms' and quads' capture queues, the open granule of each lane and its region (R143, R145, R146,
R163). -/

namespace Sys2Proof.Machine

/-- A granule of records, slot 0 lowest (R145). -/
def slotsGran (l : List Record) : Granule := (l.foldr (fun (r : Record) (a : Nat) => r.toNat + a * 2 ^ 128) 0 : Nat)

/-- Base address of the capture registers of lane e (R149, R165): CAP_BASE. -/
def capReg (e : Nat) : Nat := if e < 512 then R.le_capBase e else R.xl_capBase (e - 512)

/-- Write the open granule of lane e to the store, at FIRM class (R145). -/
def flushOpen (s : State) (e : Nat) : State :=
  let l := s.laneOf e
  if l.unwritten then
    let r : Req := ⟨50, e, false, false, 1, l.capBase + l.capG, 1, l.capG, some (slotsGran l.slots), 2, 0, s.clk.now, false, 0⟩
    ({ s with ctl := { s.ctl with reqs := s.ctl.reqs ++ [r] } }.modL e (fun x => { x with unwritten := false })).put
      ⟨capReg e + 20, 3, 1⟩ 0
  else s

/-- A record is not stored: CAP_DROP adds one and a bit of CAPSTAT is set (R146). -/
def capDrop (s : State) (e b : Nat) : State := (s.countSat ⟨capReg e + 16, 0, 32⟩ 1).raise ⟨capReg e + 20, b, 1⟩

/-- A record of lane e takes the next slot of its region (R143, R145, R146); what one that is not written was to say of a drop or a slip before
it, the next one says. CAP_WPTR.gran of a WRAP region that is exactly full reads 0 at once,
before the next record sets wrapped: R146 does not say when it turns (DESIGN CHOICE, log entry 65). -/
def placeRecord (s : State) (e : Nat) (r : Record) : State :=
  let l := s.laneOf e
  let cap := 4 * l.capLen
  if l.capLen = 0 then s
  else if !l.capWrap && decide (cap ≤ l.capN) then
    (capDrop s e 1).modL e (fun x => { x with
      gap := x.gap || decide (512 ≤ e) || r.getLsbD 1, slip := x.slip || decide (512 ≤ e) && r.getLsbD 3 })
  else
    let n := l.capN + 1
    let s1 := s.when (l.capWrap && l.capN != 0 && l.capN % cap == 0) (·.raise ⟨capReg e + 20, 2, 1⟩)
    let s2 := s1.modL e (fun x => { x with
      slots := (if l.capN % 4 = 0 then [] else x.slots) ++ [r], capG := l.capN / 4 % l.capLen, unwritten := true
      lastRec := coreNow s, capN := n })
    let s3 := ((s2.put ⟨capReg e + 20, 3, 1⟩ 1).count ⟨capReg e + 12, 0, 32⟩ 1).put ⟨capReg e + 8, 0, 28⟩
      (if l.capWrap then n / 4 % l.capLen else n / 4)
    let s4 := s3.put ⟨capReg e + 8, 28, 2⟩ (n % 4)
    if n % 4 = 0 then flushOpen s4 e else s4

/-- Records of lane e that wait in its room's or quad's capture queue. -/
def queued (s : State) (e : Nat) : List Record := ((s.table (tableOf e)).capQ.filter (fun x => x.1 == e)).map (·.2)

/-- Remove the first n records of lane e from a capture queue. -/
def dropFirst (e : Nat) : Nat → List (Nat × Record) → List (Nat × Record)
  | 0, l => l
  | _, [] => []
  | n + 1, x :: xs => if x.1 = e then dropFirst e n xs else x :: dropFirst e (n + 1) xs

/-- The capture port takes the first n records of lane e from its queue. -/
def drainSome (s : State) (e n : Nat) : State :=
  ((queued s e).take n).foldl (fun u r => placeRecord u e r) (s.modT (tableOf e) (fun x => { x with capQ := dropFirst e n x.capQ }))

/-- The capture port takes every waiting record of lane e. -/
def drainCap (s : State) (e : Nat) : State := drainSome s e (queued s e).length

/-- A record joins the capture queue, which holds 256 records in a room and 128 in a quad (R146, R163). -/
def queueRecord (s : State) (e : Nat) (r : Record) : State :=
  if (if e < 512 then 256 else 128) ≤ (s.table (tableOf e)).capQ.length then (capDrop s e 0).modL e (fun l => { l with gap := true })
  else (s.modT (tableOf e) (fun x => { x with capQ := x.capQ ++ [(e, r)] })).modL e (fun l => { l with gap := false, slip := false })

/-- The block of 8 UI that lane e was judging is over: its record joins the capture queue (R163). -/
def flushBlk (s : State) (e : Nat) : State :=
  let l := s.laneOf e
  match l.blk with
  | none => s
  | some (_, r) =>
    queueRecord (s.modL e (fun y => { y with blk := none })) e (r ||| BitVec.ofNat 128 (bit l.gap * 16 + bit l.slip * 8))

end Sys2Proof.Machine
end

