-- ==== Sys2Proof/Machine/Arm.lean ====
section
/-! DEFINITION. Arming (R58, R84), starting (R59), beginning a play (R96, R119, R120), retunes (R156, R157). -/

namespace Sys2Proof.Machine

/-- BOOT.STAT.stage reads READY (R366). -/
def ready (s : State) : Bool := s.f F.id_bootStat_stage == 11

/-- Clear FAILCNT, CMPCNT and CAP_DROP of lane e (R141). -/
def clearCounts (s : State) (e : Nat) : State :=
  let b := if e < 512 then R.le_failLo e else R.xl_failLo (e - 512)
  ((s.putPair b (b + 4) (s.hwSum ⟨b, 0, 32⟩)).putPair (b + 8) (b + 12) (s.hwSum ⟨b + 8, 0, 32⟩)).clearCount ⟨capReg e + 16, 0, 32⟩

/-- The engine's arm is accepted: the lane's counters clear where clr_on_arm is 1 (R141). -/
def clearOnArm (s : State) (e : Nat) : State :=
  s.when (if e < 512 then s.on (F.le_cfg_clr_on_arm e) else s.on (F.xl_cfg_clr_on_arm (e - 512))) (clearCounts · e)

/-- What lane e reads at arm: the capture region, the park and loss fields, and the deskew declared to it (R139, R143, R261). A region of
length 0 is off and not checked (log entry 42). -/
def armLane (s0 : State) (e : Nat) : State :=
  let s := flushOpen (drainCap (flushBlk s0 e) e) e
  let base := (s.reg (capReg e)).toNat
  let len := bitsOf (s.reg (capReg e + 4)) 0 28
  let bad := decide (storeGranules < base + len) && decide (0 < len)
  let s1 := ((s.setReg (capReg e + 8) 0).setReg (capReg e + 12) 0).when bad (·.raise ⟨capReg e + 20, 4, 1⟩)
  let s1 := if e < 512 then s1 else (s1.put (F.xl_syncstat_loss_cnt (e - 512)) 0).put (F.xl_syncstat_slip_cnt (e - 512)) 0
  let s2 := s1.modL e (fun l => { l with
    capBase := base, capLen := if bad then 0 else len, capWrap := (s.reg (capReg e + 4)).getLsbD 31, capG := 0, slots := []
    xcfg := if e < 512 then 0 else (s.reg (R.xl_cfg (e - 512))).toNat, capN := 0, term := if e < 512 then s.f (F.le_cfg_drv_term e) else 0
    offv := if e < 512 ∧ s.on (F.dskLane_cfg_path_en e) ∧ s.f (F.dskLane_result_status e) = 1
      then (s.f (F.dskLane_result_path e) : Int) else 0 })
  (s2.when ((s2.laneOf e).mode == .lossState) (parkLane · e)).modL e (fun l => { l with lossHold := false })

/-- Settings that engine e takes from its lane's registers at arm (R84). -/
def armSettings (s : State) (e : Nat) : Settings :=
  if e < 512 then
    let f := s.f (F.lt_freqLo_freq_lo e) + s.f (F.lt_freqHi_freq_hi e) * 2 ^ 32
    let o := s.f (F.lt_ofsLo_ofs_lo e) + s.f (F.lt_ofsHi_ofs_hi e) * 2 ^ 32
    ⟨freqOf f, 0, normOfs (signed 48 o * 2 ^ 32), s.f (F.lt_tsel_a e), s.f (F.lt_tsel_b e), s.f (F.le_lsel_lvl e), 0⟩
  else
    let k := e - 512
    let r := s.f (F.xl_rateLo_rate_lo k) + s.f (F.xl_rateHi_rate_hi k) * 2 ^ 32
    let o := s.f (F.xl_ofsLo_ofs_lo k) + s.f (F.xl_ofsHi_ofs_hi k) * 2 ^ 32
    ⟨xfreqOf r, r, normOfs (signed 48 o * 2 ^ 32), 0, 0, 0, s.f (F.xl_cfg_cmpm k)⟩

/-- Frequency value that fills the frequency table at arm: the frequency word, or the line rate (R84, R97). -/
def ftabValue (e : Nat) (x : Settings) : Nat := if e < 512 then x.freq % 2 ^ 48 else x.rate

/-- The epoch in force, in 2^-16 beat (R110). -/
def epochNow (s : State) : Nat := s.pair R.time_epochLo R.time_epochHi * 2 ^ 16 + s.f F.time_epochFrac_frac

/-- Members that the SUITE registers give leader l (R70). -/
def regMembers (s : State) (l : Nat) : List Nat :=
  if s.on (F.eng_suite_member l) then
    allEngines.filter (fun e => s.on (F.eng_suite_member e) && s.f (F.eng_suite_leader e) == l)
  else [l]

/-- Engine e can be armed from its state (R55). -/
def armable (s : State) (e : Nat) : Bool :=
  !arming s e && (est s e == stIdle || est s e == stHalted || est s e == stAborted)

/-- Arm check SUITE (R15, R70): W members in one wing, one width, positions 0 to W - 1 each once, one leader at position 0. A suite that mixes
pin and express engines fails it: R15 and R70 name no such condition, and a leader's frequency word stands for no line rate (DESIGN CHOICE, log entry 60). -/
def suiteOk (s : State) (l : Nat) : Bool :=
  if !s.on (F.eng_suite_member l) then true
  else
    let ms := regMembers s l
    let w := s.f (F.eng_suite_width_log2 l)
    s.on (F.eng_suite_is_leader l) && s.f (F.eng_suite_leader l) == l && s.f (F.eng_suite_position l) == 0 &&
      decide (1 ≤ w) && ms.length == 2 ^ w &&
      ms.all (fun e => wingOf e == wingOf l && s.f (F.eng_suite_width_log2 e) == w && (e == l || !s.on (F.eng_suite_is_leader e)) &&
        (e == l || armable s e) && (isPin e == isPin l)) &&
      (List.range (2 ^ w)).all (fun p => ms.any (fun e => s.f (F.eng_suite_position e) == p))

/-- The first arm check that engine e fails, of LEVEL, FILLER, SUITE, POLICY and NO_CLOCK (R58). An image header that its check bits cannot
correct carries no level (R57; DESIGN CHOICE, log entry 72). -/
def armCheck (s : State) (e : Nat) : Option Nat :=
  let ms := regMembers s e
  if (headerOf (imemWord s e 0)).isNone || tget (fun _ => 0) s.imemErr (4096 * e) == 2 then some 1
  else if !(if suiteOk s e then ms else [e]).all (fun m => fillerOk s m (s.f (F.eng_filler_seg m))) then some 2
  else if !suiteOk s e then some 3
  else if s.f (F.eng_cfg_urun_pol e) = 3 ∨ s.f (F.eng_cfg_start_src e) = 3 ∨
      (s.on (F.eng_cfg_timeline e) ∧ (s.f (F.eng_cfg_urun_pol e) ≠ 1 ∨ s.on (F.eng_suite_member e))) then some 4
  else if !ms.all (clockOpen s) then some 5
  else none

/-- The image header of engine e is read through its check bits (R57). -/
def readHeader (s : State) (e : Nat) : State :=
  match tget (fun _ => 0) s.imemErr (4096 * e) with
  | 0 => s
  | 1 => fault { s with imemErr := tset (fun _ => 0) s.imemErr (4096 * e) 0 } 19 e .corrected 0
  | 3 => fault s 19 e .corrected 0
  | _ => fault s 19 e .contained 0

/-- A member takes its settings and its registers for a run armed by leader l (R56, R71, R84). -/
def armMember (s : State) (l m : Nat) : State :=
  let y := armSettings s m
  let lead := armSettings s l
  let st : Settings := { y with freq := lead.freq, rate := lead.rate, ofs := lead.ofs }
  let lv := ((headerOf (imemWord s l 0)).map (·.1)).getD 1
  let s1 := s.setEngine m { quiet (s.engine m) with
    ctr := [0, 0, 0, 0, 0, 0, 0, 0], tt := 0, stack := [], ftab := List.replicate 16 (ftabValue m st)
    sample := flagsOf s m, set := st, cfg := (s.reg (R.eng_cfg l)).toNat, filler := s.f (F.eng_filler_seg m)
    entry := s.f (F.eng_entry_addr m), suite := (s.reg (R.eng_suite m)).toNat
    startT := s.pair (R.eng_startLo m) (R.eng_startHi m), epoch := epochNow s, level := lv, nextPc := s.f (F.eng_entry_addr m)
    chainCyc := coreNow s, chainD := coreNow s, chainN := 0, ctrLast := none, ctrLeft := 0, armCyc := coreNow s, cons := []
    trail := [s.f (F.eng_pc_pc m)]
    cond := false
    fillCopy := (serving s (tableOf m) (s.f (F.eng_filler_seg m))).map (·.id), fillIdx := 0 }
  let s2 := ((((s1.setReg (R.eng_urunCnt m) 0).setReg (R.eng_urunMiss m) 0).setReg (R.eng_poisonCnt m) 0).put
    (F.eng_firstWhere_valid m) 0).when (decide (m < 512)) (·.put (F.le_lstat_lvl_now m) st.lvl)
  armLane (((s2.put (F.eng_stat_arming m) 1).put (F.eng_stat_state m) stIdle).put (F.eng_stat_abort_res m) 0) m

/-- Quad PLL target of engine e's quad (R155). -/
def quadOf (e : Nat) : Nat := (e - 512) / 4
def quadTarget (s : State) (q : Nat) : Nat := s.pair (R.xq_rateLo q) (R.xq_rateHi q)
/-- A rate lies within 1,000 ppm of the quad's target (R155). -/
def inBand (s : State) (q rate : Nat) : Bool :=
  let t := quadTarget s q
  decide (rate * 1000000 ≤ t * 1001000) && decide (t * 999000 ≤ rate * 1000000)

/-- Lane f is shuttered by a retune of its quad that its own suite did not ask for (R156). -/
def shutLane (s : State) (f : Nat) : State :=
  ((s.modL f (fun l => { l with mode := .shuttered, shutT := some (l.shutT.getD (t16Now s)) })).put
    (F.xl_xstat_shuttered (f - 512)) 1).raise (F.xl_xstat_retune_hit (f - 512))

/-- Retune quad q's PLL for engine e to a rate (R156): a planned closure; every receiver of the quad loses synchronisation, and the lanes
that play for other engines are shuttered. -/
def retuneQuad (s : State) (e rate : Nat) : State :=
  let q := quadOf e
  let id := 33 + q
  let s1 := ((s.putPair (R.xq_rateLo q) (R.xq_rateHi q) rate).put (F.xq_stat_retuning q) 1).put (F.xq_stat_requester q) (localOf e)
  let s2 := s1.count (F.xq_stat_retunes q) 1
  let lost := !pllOpen s2 id && (s2.pllOf id).lossOpen
  let s3 := (if lost then s2.put (F.pll_stat_state id) 2 else (closeShutter s2 id 2).put (F.pll_stat_planned id) 1).modPll id
    (fun p => { p with wait := 1, since := s.clk.now, qualAt := s.clk.now })
  (enginesOf (32 + q)).foldl (fun u f =>
    let v := syncLoss u (f - 512)
    if f ≠ e ∧ running v f ∧ !(v.engine f).retune ∧ !(membersOf v (leaderOf v e)).contains f then shutLane v f else v) s3

/-- A retuned lane's loss ends at instant t: XQ_RETUNE with the granules lost, rounded up (R156). -/
def endLoss (s : State) (e t : Nat) : State :=
  match (s.laneOf e).shutT with
  | none => s
  | some t0 =>
    let x := (s.engine e).set
    let ui := (t - t0) * x.freq / 2 ^ 64
    fault (s.modL e (fun l => { l with shutT := none })) 37 e .contained (divUp ui 512)

/-- An accepted arm has passed its checks: every member takes its settings and registers (R56, R71, R84), and the members of the leader's
last arm are released; a start written with it is kept where `keep`. -/
def armPrep (s : State) (e : Nat) (keep : Bool) : State :=
  let s0 := (membersOf s e).foldl (fun u m => u.modE m (fun x => { x with suite := 0 })) s
  let s1 := (regMembers s0 e).foldl (fun u m => armWalk u (tableOf m)) s0
  let s2 := (regMembers s1 e).foldl (fun u m => armMember u e m) s1
  s2.put (F.eng_stat_start_pending e) (bit keep)

/-- The quad PLL of member m is retuned where its rate lies outside the band (R157): priming waits for the reopening, so nothing is
prefetched until then. -/
def retuneMember (s : State) (m : Nat) : State :=
  let rate := (s.engine m).set.rate
  if 512 ≤ m ∧ !inBand s (quadOf m) rate then
    (dropReqs (retuneQuad s m rate) m).modE m (fun y => { y with retuneArm := true })
  else if 512 ≤ m ∧ s.on (F.xq_stat_retuning (quadOf m)) then (dropReqs s m).modE m (fun y => { y with retuneArm := true })
  else s

/-- The setup chain runs (R58): a chain that fails fails the arm of the whole suite (R71); express lanes out of their quad's band wait
for a retune (R157). -/
def armChain (s : State) (e : Nat) : State :=
  let s1 := runChain 4096 s e
  let s2 := if arming s1 e then s1 else (regMembers s1 e).foldl (fun u m => if arming u m then failArm u m 6 else u) s1
  if arming s2 e then (membersOf s2 e).foldl retuneMember s2 else s2

/-- Store granule g lies in the extent of an active segment. -/
def inActive (s : State) (g : Nat) : Bool :=
  allEngines.any (fun e => (activeSegs s e).any (fun i =>
    let d := descOf s (tableOf e) i
    d.valid && decide (d.base ≤ g) && decide (g < d.base + d.len * 2 ^ d.wlog2)))

/-- The descriptor that ring r is bound to (R167). -/
def ringDesc (s : State) (r : Nat) : Desc := descOf s (tableOf (s.f (F.ring_cfg_engine r))) (s.f (F.ring_cfg_seg r))

/-- LEVEL of ring r (R168). -/
def ringLevel (s : State) (r : Nat) : Int := signed 32 ((s.f (F.ring_wptr_p r) + 2 ^ 32 - s.f (F.ring_rptr_p r)) % 2 ^ 32)

/-- The written, unconsumed position of ring r that lies in store granule g: positions count on from 0 after 0xFFFF_FFFF (R168). -/
def heldPos (s : State) (r g : Nat) : Option Nat :=
  let d := ringDesc s r
  if d.len = 0 ∨ g < d.base ∨ d.base + d.len * 2 ^ d.wlog2 ≤ g then none
  else
    let slot := (g - d.base) / 2 ^ d.wlog2
    let rp := s.f (F.ring_rptr_p r)
    let k := (slot + d.len - rp % d.len) % d.len
    if rp + k < 2 ^ 32 ∧ (k : Int) < ringLevel s r then some (rp + k)
    else if ((2 ^ 32 - rp + slot : Nat) : Int) < ringLevel s r then some slot
    else none

/-- A write of granule g, or its drop, is noted: an arm accepted in this cycle comes before it (R179). -/
def noteWrite (s : State) (port g : Nat) : State :=
  { s with ctl := { s.ctl with
    wrNow := s.ctl.wrNow.filter (fun w => w.1 == coreNow s) ++ [(coreNow s, port, g, granBits s g, errOf s g)] } }

/-- A write of granule g through a port reaches its check (R179): whether it is made, and what is recorded where it is dropped. -/
def writeCheck (s : State) (port g : Nat) : Option State :=
  if s.f F.rings_phase_phase = 1 then
    match (List.range 256).findSome? (fun r => if ringActive s r then (heldPos s r g).map (fun p => (r, p)) else none) with
    | some (r, p) => some (fault s 52 r .contained p)
    | none => none
  else if inActive s g then some (fault s 51 port .contained g)
  else none

/-- A write that its port's check let through in the core cycle in which an arm is accepted is judged with that arm in force (R179): where it is
then dropped, the granule is as it was, and the drop is recorded. -/
def undoWrites (s : State) : State :=
  (s.ctl.wrNow.reverse.filter (fun w => w.1 == coreNow s)).foldl (fun u w =>
    match writeCheck u w.2.1 w.2.2.1 with
    | some t => setErr (writeGran t w.2.2.1 w.2.2.2.1) w.2.2.1 w.2.2.2.2
    | none => u) s

/-- CTL.arm on engine e that the state allows (R55, R58, R59, R71): the checks in order, the setup chain, and the beginning of priming. A
start written with it is kept until ARMED where start_src is REG, else it is dropped with cmd_err. -/
def armAccepted (s0 : State) (e : Nat) (start : Bool) : State :=
    let s := (if suiteOk s0 e then regMembers s0 e else [e]).foldl clearOnArm s0
    let reg := s.f (F.eng_cfg_start_src e) == 0
    let s1 := ((s.put (F.eng_stat_state e) stIdle).put (F.eng_stat_abort_res e) 0).when (start && !reg) (·.raise (F.eng_stat_cmd_err e))
    let s2 := readHeader s1 e
    match armCheck s1 e with
    | some c => (s2.put (F.eng_stat_arm_err e) c).put (F.eng_stat_start_pending e) 0
    | none => undoWrites (armChain (armPrep s2 e (start && reg)) e)

/-! ### Plays on the timeline -/

/-- Addresses of the FIRST_* registers of engine e (R184). -/
def firstRegs (e : Nat) : List Nat :=
  [R.eng_firstTimeLo e, R.eng_firstTimeHi e, R.eng_firstWhere e, R.eng_firstGran e, R.eng_firstLoop e, R.eng_firstRep e, R.eng_firstCtr e]

/-- A host clear of FIRST_WHERE.valid in the core cycle of an occurrence that found it set: the registers take that occurrence, whose valid
bit stands (R181). -/
def takeOcc (s : State) (e : Nat) : State :=
  match (s.engine e).occ with
  | some (c, ws) => if c = coreNow s then ws.foldl (fun u w => u.setReg w.1 w.2) s else s
  | none => s

/-- A first occurrence of an under-run or JUMP_MISS (R181, R184): counted, captured where no capture is held (else kept for a clear of the
same cycle), and recorded when its status bit was 0. `jm` tells JUMP_MISS from UNDERRUN; `c` is its class. -/
def occurrence (s : State) (e : Nat) (p : Play) (cause g t : Nat) (jm : Bool) (c : FaultClass) : State :=
  let x := s.engine e
  let ring := match p.kind with | .strm r => if cause = 1 ∨ cause = 3 then r else 0 | _ => 0
  let s1 := s.countSat (F.eng_urunCnt_n e) 1
  let u := s1.putPair (R.eng_firstTimeLo e) (R.eng_firstTimeHi e) (t / 2 ^ 16 % 2 ^ 64)
  let u1 := u.setReg (R.eng_firstWhere e) (BitVec.ofNat 32 (2 ^ 31 + cause * 2 ^ 28 + ring * 2 ^ 20 + p.seg))
  let u2 := u1.setReg (R.eng_firstGran e) (BitVec.ofNat 32 g)
  let u3 := u2.setReg (R.eng_firstLoop e) (BitVec.ofNat 32 (match x.ctrLast with | some i => 128 + i * 16 | none => 0) |>.setWidth 32)
  let u4 := u3.put (F.eng_firstLoop_depth e) x.stack.length
  let u5 := u4.setReg (R.eng_firstRep e) (BitVec.ofNat 32 (match p.kind with | .seg => if p.len = 0 then 0 else g / p.len | _ => 0))
  let u6 := u5.setReg (R.eng_firstCtr e) (BitVec.ofNat 32 x.ctrLeft)
  let s2 := (if s1.on (F.eng_firstWhere_valid e) then s1.modE e (fun y => { y with
      occ := some (coreNow s, (firstRegs e).map (fun a => (a, u6.reg a))) }) else u6).noteHw (F.eng_firstWhere_valid e) 1 0
  let st := if jm then F.eng_stat_jump_miss e else F.eng_stat_underrun e
  let was := s2.on st
  let s3 := s2.raise st
  if was then s3 else fault s3 (if jm then 49 else 48) e c (s3.reg (R.eng_firstWhere e)).toNat

/-- The play begins at boundary k of the settings now in force, or at its SYNCT boundary (R96): up to a later SYNCT boundary the lane
holds its park state; an earlier one makes the start late, and JUMP_MISS with cause SYNC is recorded. What the registers show of the play
they show from its first boundary on (begunPlay). A lane that a retune has shuttered stays so. The lateness of a SYNCT shifts the play, and the
run offset stays as it is: R96 does not say that the shift enters it, as R175 says of SLIP (DESIGN CHOICE, log entry 63). -/
def placePlay (s : State) (e : Nat) (p : Play) (k : Int) (t : Nat) : State :=
  let x := s.engine e
  let kS := if p.pend.synct then firstBoundary x.set x.epoch (absT s p.tt) else k
  let late := p.pend.synct && decide (kS < k)
  let k0 := if late then k else kS
  let t0 := if k0 = k then t else boundaryT x.set x.epoch k0
  let q := { p with k0 := k0, t0 := t0 }
  let s0 := if k < k0 && (s.laneOf e).mode == .playing then parkLane s e else s
  let s1 := s0.setEngine e { x with
    play := some q, next := none, queue := x.nextQueue, cmpQueue := x.nextCmpQueue, nextQueue := [], nextCmpQueue := []
    retune := false, holding := false, holdN := 0, cons := x.cons.filter (fun c => decide (coreNow s < c.2)), fills := [], masked := []
    qErr := (x.qErr.filter (·.1)).map (fun y => (false, y.2))
    tail := if k < k0 then none else x.tail }
  let s2 := s1.put (F.eng_stat_state e) stRun
  let s3 := s2.modL e (fun l => { l with mode := if l.mode = .shuttered then .shuttered else .playing, condFrom := 0 })
  let s4 := showSync s3 e
  topUp (s4.when late (fun u => occurrence u e q 6 0 t0 true .corrected)) e

/-- Queue requests entered for the named play now serve the play in progress. -/
def promoteReqs (s : State) (e : Nat) : State :=
  { s with ctl := { s.ctl with
    reqs := (s.ctl.reqs.filter (fun r => !(r.eng == e && r.cls == 2 && !r.nxt))).map
      (fun r => if r.eng == e && r.cls == 2 then { r with nxt := false } else r) } }

/-- A SETF to a line rate holds engine e, with its whole suite, for a retune: the rate lies outside the band of a member's quad, or such a
quad is being retuned (R98, R102, R155, R156). -/
def needsRetune (s : State) (e rate : Nat) : Bool :=
  decide (512 ≤ e) && (membersOf s (leaderOf s e)).any (fun m =>
    decide (512 ≤ m) && (!inBand s (quadOf m) rate || s.on (F.xq_stat_retuning (quadOf m))))

/-- Engine e is held in WAIT with its lane shuttered until the retune that a SETF asked for is over (R98, R102, R156): its quad is retuned
where the rate lies outside the band. -/
def holdRetune (s : State) (e : Nat) (p : Play) (rate : Nat) : State :=
  let s1 := if inBand s (quadOf e) rate then dropSync s e else retuneQuad s e rate
  let s2 := (s1.modL e (fun l => { l with mode := .shuttered })).put (F.xl_xstat_shuttered (e - 512)) 1
  (s2.put (F.eng_stat_state e) stWait).modE e (fun z => { z with retune := true, play := none, next := some p })

/-- Begin play p of engine e at switch instant ts, where the old timeline has phase k (R119, R120, R121): within the quad's band
by interpolation, outside it by a retune, whose lane starts the play after it reopens (R98, R156). A lane that a retune left outside the
band reopens at once where its own SETF brings it in and no retune runs (R156). Of synchronisation R160 names a SETF as a loss and boundaries
that change neither rate nor timeline as keeping it; a boundary with SETP alone is in neither list, and keeps it here (DESIGN CHOICE, log entry 67). -/
def beginPlay (s0 : State) (e : Nat) (p : Play) (ts : Nat) (k : Int) : State :=
  let own := p.pend.freq.isSome && decide (512 ≤ e)
  let s := (promoteReqs s0 e).when own (endLoss · e ts)
  let x := s.engine e
  let (y, k1) := applyPend x.set e x.epoch ts k p.pend
  let s1 := s.setEngine e { x with set := y }
  if own && needsRetune s1 e y.rate then holdRetune s1 e p y.rate
  else
    let s2 := s1.when own (fun u => ((dropSync u e).modL e (fun l => { l with mode := .playing })).put
      (F.xl_xstat_shuttered (e - 512)) 0)
    placePlay s2 e p k1 (if k1 = k ∧ y.freq = x.set.freq ∧ y.ofs = x.set.ofs then ts else boundaryT y x.epoch k1)

/-- Member m of a suite that starts begins its first play at the first boundary at or after instant t (R59). Pending settings of the setup
chain apply at the start, a SETF in mode CONT as in mode COH, for no play ends there whose phase it could carry on (R98, R119, log entry
43); a line rate outside the quad's band retunes the quad at that boundary (R98), and a lane whose quad is being retuned, or has been retuned
to another band, starts shuttered (R155, R156). -/
def startMember (t : Nat) (u : State) (m : Nat) : State :=
  let x := u.engine m
  match x.next with
  | none => u
  | some p =>
    let (y, _) := applyPend x.set m x.epoch t (firstBoundary x.set x.epoch t) { p.pend with freq := p.pend.freq.map (fun v => (v.1, false)) }
    let k := firstBoundary y x.epoch t
    let v := (promoteReqs (u.setEngine m { x with set := y }) m).put (F.eng_stat_start_pending m) 0
    let w := v.put (F.eng_stat_state m) stRun
    if p.pend.freq.isSome && needsRetune w m y.rate then holdRetune (advanceT w (boundaryT y x.epoch k)) m p y.rate
    else placePlay (w.when (decide (512 ≤ m) && (w.on (F.xq_stat_retuning (quadOf m)) || !inBand w (quadOf m) y.rate)) (shutLane · m)) m p k
      (boundaryT y x.epoch k)

/-- Engine e starts: its first play begins at the first boundary at or after instant t (R59). -/
def startAt (s : State) (e t : Nat) : State := (membersOf s e).foldl (startMember t) s

/-- Start an ARMED engine by the REG or TASK rule from core cycle c: at least 64 core cycles on (R59). -/
def startFrom (s : State) (e c : Nat) : State := startAt s e (coreStart (c + 64))

/-- An ARMED engine with start_src TASK whose flag is set starts and consumes it (R59). -/
def taskStart (s : State) (e : Nat) : State :=
  let x := s.engine e
  let t := x.cfg / 4 % 8
  if est s e = stArmed ∧ x.cfg % 4 = 1 ∧ !isFollower s e ∧ (flagsOf s e).testBit t then
    startFrom (clearFlags s e (2 ^ t) (coreNow s + 1)) e (coreNow s)
  else s

/-- CTL.start alone (R59): accepted in ARMED with start_src REG, on no follower. -/
def startCmd (s : State) (e : Nat) : State :=
  if est s e = stArmed ∧ (s.engine e).cfg % 4 = 0 ∧ !isFollower s e then startFrom s e (coreNow s)
  else s.raise (F.eng_stat_cmd_err e)

/-- CTL.arm on engine e: dropped with cmd_err before READY, on a follower and in a state that does not allow it (R55, R71, R366); a start
written with an arm that is dropped in ARMED acts as a start alone (R59). -/
def armEngine (s : State) (e : Nat) (start : Bool) : State :=
  if !ready s then s.raise (F.eng_stat_cmd_err e)
  else if !armable s e || (s.on (F.eng_suite_member e) && !s.on (F.eng_suite_is_leader e)) then
    (s.raise (F.eng_stat_cmd_err e)).when (start && est s e == stArmed) (startCmd · e)
  else armAccepted s e start

/-- The first segment is primed (R58, R71): every member enters ARMED in one cycle; a pending start, or a set task flag, starts
the run from that cycle. -/
def primeDone (s : State) (e : Nat) : State :=
  let s1 := (membersOf s e).foldl (fun u m =>
    ((((u.put (F.eng_stat_state m) stArmed).put (F.eng_stat_arming m) 0).put (F.eng_stat_arm_err m) 0).modE m
      (fun y => { y with armedAt := t16Now u }))) s
  if s1.on (F.eng_stat_start_pending e) then startFrom (s1.put (F.eng_stat_start_pending e) 0) e (coreNow s1)
  else taskStart s1 e

/-- Every member's first play is named and primed, and no retune is under way (R58, R157). -/
def canPrime (s : State) (e : Nat) : Bool :=
  arming s e && !isFollower s e && (s.engine e).dec.isNone && (s.engine e).disagree.isNone &&
    (membersOf s e).all (fun m => !(s.engine m).retuneArm &&
      match (s.engine m).next with | some p => primed s m p | none => false)

end Sys2Proof.Machine
end

