-- ==== Sys2Proof/Machine/Power.lean ====
section
/-! DEFINITION. The power states of the field side: idleness, entry and waking (R347-R354). -/

namespace Sys2Proof.Machine

/-- Exit latency of a power state, in microseconds (R347). -/
def exitUs (st : Nat) : Nat := if st = 1 then 2 else if st = 2 then 40 else if st = 3 then 1500 else 0

/-- Idle time after which a state is entered, in microseconds (R351). -/
def idleUs (st : Nat) : Nat := if st = 1 then 1 else if st = 2 then 400 else 15000

/-- The idle conditions of R350 that do not hold: PWR.STAT.block. Register accesses are whole commands, so bit 20 is never seen. -/
def powerBlock (s : State) : Nat :=
  bit (allEngines.any (fun e => engaged s e)) +
  2 * bit (!s.ctl.reqs.isEmpty || s.lane.any (fun x => x.2.unwritten) || s.tab.any (fun x => x.2.copies.any (fun c => c.state == 0))) +
  4 * bit (s.on F.st_opStat_state || s.on F.st_trainStat_pass_busy || s.on F.cal_dskStat_busy ||
    s.walk.any (fun x => x.2.full != 0) || (List.range 32).any (fun n => s.on (F.mon_stat_busy n))) +
  8 * bit (s.on F.time_epochStat_state) +
  32 * bit s.boot.jtag

/-- Deepest state that the latency tolerance and max_state allow (R351). -/
def allowedState (s : State) : Nat :=
  let t := s.f F.pwr_ltr_tol_us
  min (if t < 2 then 0 else if t < 40 then 1 else if t < 1500 then 2 else 3) (s.f F.pwr_cfg_max_state)

/-- Cycles of the running core clock so far (R300, R348). -/
def coreTotal (s : State) : Nat := s.clk.coreN + (s.clk.house - s.clk.coreAt) / cycleU s

/-- Note the count of core cycles where the clock's rate changes. -/
def markCore (s : State) : State := { s with clk := { s.clk with coreN := coreTotal s, coreAt := s.clk.house } }

/-- The time in power state st counts in whole milliseconds (R357). -/
def residency (s : State) (st : Nat) : State :=
  if 1 ≤ st ∧ st ≤ 3 then s.countSat (F.pwrRes_ms_n st) ((s.clk.now - s.boot.stateAt) / (1000 * usU)) else s

/-- A planned closure of PLL id for F3, or its end (R347, R238): a PLL closed by a loss is left. -/
def powerPll (s : State) (id : Nat) (off : Bool) : State :=
  if off then
    if pllOpen s id then (closeShutter s id 0).put (F.pll_stat_planned id) 1 else s
  else if s.on (F.pll_stat_planned id) && s.f (F.pll_stat_state id) == 0 && houseOpen s then
    (((s.put (F.pll_stat_open id) 1).put (shutBit id) 1).put (F.pll_stat_state id) 4).put (F.pll_stat_planned id) 0
  else s

/-- Enter the next deeper power state st (R347, R348). -/
def enterPower (s0 : State) (st : Nat) : State :=
  let s := residency (markCore s0) (st - 1)
  let s1 := (s.put F.pwr_stat_state st)
  let s2 := { s1 with boot := { s1.boot with stateAt := s1.clk.now } }
  match st with
  | 1 => (List.range 48).foldl stopWalk s2
  | 2 =>
    let up := (List.range 4).filter (fun k => s2.on ⟨R.st_stat, 8 + k, 1⟩)
    let s3 := up.foldl stackOff s2
    -- a lane that rests in its loss state takes its park state (R140)
    allEngines.foldl (fun u e => if (u.laneOf e).mode == .lossState then parkLane u e else u)
      { s3 with ctl := { s3.ctl with srf := s3.ctl.srf.filter (fun k => !up.contains k) ++ up } }
  | 3 =>
    let s3 := (List.range 52).foldl (fun u i => powerPll u (i + 1) true) s2
    (List.range 8).foldl (fun u p => u.when (u.f (F.fport_stat_state p) == 3) (·.put (F.fport_stat_lanes p) 1)) s3
  | _ => s2

/-- An event that ends a power state (R353): the device is in F0 one exit latency later. -/
def wake (s : State) (src : Nat) : State :=
  let st := s.f F.pwr_stat_state
  if st = 0 ∨ s.boot.f4 then s
  else
    let s1 := residency s st
    let s2 := ((s1.put F.pwr_stat_wake_src src).count F.pwr_exits_n 1)
    let s3 := markCore (advanceNow s2 (s2.clk.now + exitUs st * usU))
    let s4 := (s3.put F.pwr_stat_state 0)
    let s5 := { s4 with boot := { s4.boot with stateAt := s4.clk.now, idleAt := none } }
    let s6 := if st = 3 then
        (List.range 8).foldl (fun u p => u.when (u.f (F.fport_stat_state p) == 3) (·.put (F.fport_stat_lanes p) 15))
          ((List.range 52).foldl (fun u i => powerPll u (i + 1) false) s5)
      else s5
    if 2 ≤ st then
      let back := s6.ctl.srf.filter (fun k => pllOpen s6 (49 + k))
      let s7 := back.foldl stackOn s6
      { s7 with ctl := { s7.ctl with srf := s7.ctl.srf.filter (fun k => !back.contains k)
                                     owed := s7.ctl.owed.filter (fun x => !back.contains (x.1 / 48 / 64)) } }
    else s6

/-- Idleness that ends without an event of R353's table (a host full walk or a deskew begins) returns the field side to F0 too (R351);
the table gives no code for it, so wake_src is a free value (log entry 13). -/
def endIdle (s : State) : State :=
  if s.f F.pwr_stat_state = 0 ∨ powerBlock s = 0 then s
  else
    let (v, s1) := s.draw
    wake s1 (v.toNat % 16)

end Sys2Proof.Machine
end

