-- ==== Sys2Proof/Machine/Play.lean ====
section
/-! DEFINITION. Engine control (R55-R59, R67-R69, R80), the words of a chain as commands (R83, R87), and the events of a play:
decision points, ends, marks, missing and poisoned granules (R60, R66, R103, R174-R177). -/

namespace Sys2Proof.Machine

/-! ### Who a command acts on -/

/-- A loss has frozen the core domain (R237, R291). -/
def frozen (s : State) : Bool := s.clk.started && !houseOpen s

/-- The controller of a side runs house firmware: the field's freezes with the core clock once it has moved to it (R11, R240), the host's
with the host-core clock, and it halts at a host FATAL (R246, R272). -/
def ctlRuns (s : State) : Side → Bool
  | .field => !frozen s
  | .host => !s.porch.halt && !s.boot.hcoreLost

/-- A command of host software to a unit of the core domain: dropped while a loss has frozen the domain (R291); else it wakes the
device (R353). While the field side is held in reset no command acts (R358). -/
def coreCmd (s : State) (g : State → State) : State :=
  if heldSide s .field then s else if frozen s then s.raise F.regf_stat_frozen_wr else g (wake s 1)

/-- A write of configuration outside the infrastructure domain: it wakes the device (R353); a loss does not drop it (R291). -/
def cfgCmd (s : State) (g : State → State) : State :=
  if heldSide s .field then s else if frozen s then g s else g (wake s 1)

/-- A command to a unit of the infrastructure domain, which runs in every power state (R22); it ends a power state only where it ends
idleness (R351). -/
def infraCmd (s : State) (g : State → State) : State := if heldSide s .field then s else endIdle (g s)

/-- Engine e is a follower by its SUITE register (R70). -/
def regFollower (s : State) (e : Nat) : Bool := s.on (F.eng_suite_member e) && !s.on (F.eng_suite_is_leader e)

/-- Engine e holds to the SUITE register that it read at its last arm: until it is IDLE again (R56). -/
def suiteLatched (s : State) (e : Nat) : Bool := arming s e || est s e != stIdle

/-- The engine that commands written to e act on: its leader, where e is a follower (R71). -/
def cmdLeader (s : State) (e : Nat) : Nat :=
  if suiteLatched s e then leaderOf s e
  else if regFollower s e && decide (s.f (F.eng_suite_leader e) < 576) then s.f (F.eng_suite_leader e) else e

/-- The members that a command to leader l acts on. -/
def cmdMembers (s : State) (l : Nat) : List Nat :=
  let ms := if suiteLatched s l then membersOf s l else regMembers s l
  if ms.contains l then ms else l :: ms

/-! ### Filler (R50-R52) -/

/-- Offset o of pantry copy id of table t is read (R25): a wrong symbol is corrected and PANTRY_CE recorded; more of them poison the
granule, with PANTRY_UE. -/
def pantryRead (s : State) (t id o : Nat) : State :=
  match copyOf s t id with
  | none => s
  | some c =>
    let k := tget (fun _ => 0) c.err o
    if k = 0 then s
    else
      let s1 := s.modT t (fun x => { x with copies := x.copies.map (fun y => if y.id == id
        then { y with err := tset (fun _ => 0) y.err o 0, poison := if k = 1 then y.poison else o :: y.poison } else y) })
      if k = 1 then fault s1 69 t .corrected (4 * c.unit + o) else fault s1 70 t .contained (4 * c.unit + o)

/-- A granule of lane e from phase k on is not the play's: filler g, or, where there is none, what the lane held before it (R50, R174). The
lane stood in condition `before`, which was noted as drv0 from granule from0 on. -/
def noteFill (s : State) (e : Nat) (k : Int) (g : Option (Granule × Bool)) (before drv0 from0 : Nat) : State :=
  let f : Granule × Bool := match g with
    | some (d, bad) => (d, bad && decide (512 ≤ e))
    | none => (if e < 512 then codeGran 3 else if txLevel s e before = 1 then BitVec.allOnes 512 else 0, decide (512 ≤ e) && before == 2)
  s.modE e (fun x => { x with fills := (⟨k, f.1, f.2, before, drv0, from0⟩ :: x.fills).take 2 })

/-- Lane e plays the next filler granule (R50): the condition it leaves on the driver. A poisoned filler granule plays as the
park state and records POISON against the filler segment (R51); whether it adds to POISON_CNT, whose count R177 states for pattern granules
that play as filler, R51 leaves open, and here it does (DESIGN CHOICE, log entry 59). A lane in its loss state or shuttered puts no filler out, and the
engine plays none (R140, R158). -/
def fillGranule (s0 : State) (e : Nat) : State :=
  let x := s0.engine e
  match x.fillCopy.bind (copyOf s0 (tableOf e)) with
  | none => s0
  | some c =>
    if (s0.laneOf e).mode != .playing then s0
    else
      let s := pantryRead s0 (tableOf e) c.id (if c.len = 0 then 0 else x.fillIdx % c.len)
      let g := fillerGran s e 0
      let s1 := (s.modE e (fun y => { y with fillIdx := y.fillIdx + 1 })).modL e (fun y => { y with drv := fillerLeaves s e g y.drv })
      if (g.map (·.2)).getD false then (fault s1 50 e .contained x.filler).countSat (F.eng_poisonCnt_n e) 1 else s1

/-- The lane of engine e plays filler now (R78, in_filler): a filler run, a granule replaced, or the filler of a JUMP_MISS that waits for
its granule. -/
def inFiller (s : State) (e : Nat) : Bool :=
  let x := s.engine e
  (s.laneOf e).mode == .playing &&
  match x.fillEnd with
  | some (_, t) => decide (t ≤ t16Now s)
  | none => match x.play, x.fillK with
    | some p, k => decide (p.t0 ≤ t16Now s) && (x.holding && decide (4 ≤ x.missCause) || k == some (granK e p (granAt s e p)))
    | _, _ => false

/-- What is kept of the play in progress for the judgements that are still to come (R137, R159): its last granules as they were played,
without those that filler or a hold replaced. -/
def pastOf (s : State) (e : Nat) (p : Play) : PastPlay :=
  let x := s.engine e
  let top := match x.fillEnd with
    | some (_, t) => gransBefore s e p (min t (t16Now s))
    | none => p.endAt
  let gs := ((List.range (keepGrans e)).map (fun i => top - 1 - i)).eraseDups.filter (fun g => decide (g < top) && !x.filled.contains g)
  let cmpAt (g : Nat) : Option (Nat × Granule × Bool) :=
    match p.cmpCopy with
    | some (id, off) => (copyOf s (tableOf e) id).map (fun c =>
        let o := off + (if p.len = 0 then 0 else g % (2 * p.len))
        (g, tget (fun _ => (0 : Granule)) c.data o, c.poison.contains o || tget (fun _ => 0) c.err o == 2))
    | none => (x.cmpQueue.find? (fun q => q.1 == g)).map (fun q => (q.1, q.2.1, q.2.2 || queueErr x true g == 2))
  { play := { p with copy := none, cmpCopy := none }, set := x.set
    queue := gs.filterMap (fun g => (granData s e p g).map (fun d => (g, d)))
    cmpQueue := if x.set.cmpm % 2 = 0 ∨ p.cmp.isNone then []
      else ((gs.filter (fun g => !x.masked.contains g)).map (fun g => [2 * g, 2 * g + 1])).flatten.filterMap cmpAt }

/-- Of plays that have ended, newest first, those that began less than `lim` granules before the end of the newest (R159). -/
def keepPast (lim : Nat) : Nat → List PastPlay → List PastPlay
  | _, [] => []
  | n, w :: ws => if lim ≤ n then [] else w :: keepPast lim (n + max 1 w.play.endAt) ws

/-- The play in progress of engine e joins the plays that have ended; as many stay as can still be judged (R137, R159). -/
def pushPast (s : State) (e : Nat) : State :=
  match begunPlay s e with
  | some p => s.modE e (fun x => { x with past := keepPast (keepGrans e) 0 (pastOf s e p :: x.past), filled := [] })
  | none => s

/-- Engine e stops playing: its lane parks, its queues empty, nothing is named (R67, R68); what a lane that a retune had shuttered has lost
by now is recorded (R156). -/
def parkEngine (s : State) (e : Nat) : State :=
  let lost := (s.laneOf e).mode == .lossState
  let s0 := flushBlk (notePlayed (pushPast (bakePlay (endLoss s e (t16Now s)) e) e) e) e
  let s1 := (if lost then s0 else parkLane s0 e).modE e quiet
  dropHeldAll (dropReqs s1 e) (tableOf e)

/-- First granule boundary of engine e's timeline that starts after core cycle c, in 2^-16 beat. -/
def boundaryAfter (s : State) (e c : Nat) : Nat :=
  match (s.engine e).play with
  | none => coreStart (c + 1)
  | some p => granT s e p (granAfter s e p (coreStart (c + 1) - 1))

/-- What engine e's chain was to do after core cycle a does not happen (R68): flags it would consume stay set, its naming or HALT and the
markers it would pulse fall away, PC.pc shows the last word that executed. Of a play whose late naming was to come, only the timeline is
left. -/
def undoChain (s : State) (e a : Nat) : State :=
  let x := s.engine e
  if x.chainCyc ≤ a then s
  else
    let back := (x.cons.filter (fun c => decide (a < c.2))).foldl (fun m c => m ||| 2 ^ c.1) 0
    let s1 := (s.put (F.eng_task_flag e) (flagsOf s e ||| back)).put (F.eng_pc_pc e) (x.trail.getD (a - x.chainD) (s.f (F.eng_pc_pc e)))
    let here (p : Play) : Bool := p.late && decide (a < p.namedAt)
    let s2 := s1.when ((x.next.map (·.late)).getD false || (x.play.map here).getD false) (·.put (F.eng_stat_chain_late e) (bit x.wasLate))
    let s3 := s2.modH (fun h => { h with
      acts := h.acts.filter (fun y => !(decide (a < y.1) && y.2 / 4 == e))
      timed := h.timed.filter (fun y => !(decide (coreStart (a + 1) ≤ y.2) && s.f (F.trigOut_timed_engine y.1) == e))
      fired := h.fired.filter (fun y => !(decide (coreStart (a + 1) ≤ y.2.2) && y.1 == e)) })
    { s3 with ctl := { s3.ctl with reqs := s3.ctl.reqs.filter (fun r => !(r.eng == e && r.cls == 2 && r.nxt)) } }.modE e (fun y => { y with
      next := none, pend := {}, halting := false, dec := none, nextQueue := [], nextCmpQueue := []
      play := y.play.map (fun p => if here p then { p with void := true, marks := [] } else p) })

/-! ### Control commands (R58, R59, R68, R69, R71) -/

/-- CTL.arm, with CTL.start in the same write or not: before READY it is dropped (R366). -/
def armWrite (s : State) (e : Nat) (start : Bool) : State :=
  if heldSide s .field then s else if !ready s then s.raise (F.eng_stat_cmd_err e) else coreCmd s (armEngine · e start)

/-- R58, R59, R366. -/
def execArm (e : Eng) (start : Bool) (s : State) : Host.Outcome State Fault Refusal :=
  .next (armWrite s e start)

/-- The event of R58: the first segment of every member is primed. -/
def execPrimeComplete (e : Eng) (s : State) : Host.Outcome State Fault Refusal :=
  .next (if canPrime s e then primeDone s e else s)

/-- CTL.start: before READY it is dropped (R366). -/
def startWrite (s : State) (e : Nat) : State :=
  if heldSide s .field then s else if !ready s then s.raise (F.eng_stat_cmd_err e) else coreCmd s (startCmd · e)

/-- R59, R366. -/
def execStart (e : Eng) (s : State) : Host.Outcome State Fault Refusal :=
  .next (startWrite s e)

/-- Instant at which the first play of engine e begins when it starts at instant t (R59). -/
def startBoundary (s : State) (e t : Nat) : Nat :=
  let x := s.engine e
  match x.next with
  | none => t
  | some p =>
    let y := (applyPend x.set e x.epoch t (firstBoundary x.set x.epoch t)
      { p.pend with freq := p.pend.freq.map (fun v => (v.1, false)) }).1
    boundaryT y x.epoch (firstBoundary y x.epoch t)

/-- START_TIME reached (R59): the first boundary at or after it, or the REG rule from the arming where that is too near. -/
def timeStart (s : State) (e : Nat) : State :=
  let x := s.engine e
  if est s e = stArmed ∧ x.cfg % 4 = 2 ∧ !isFollower s e then
    let t := absT s x.startT
    let c := coreOf x.armedAt
    if startBoundary s e t < coreStart (c + 64) then startFrom (s.raise (F.eng_stat_start_late e)) e c
    else startAt (advanceT s t) e t
  else s

/-- R59. -/
def execTimeStart (e : Eng) (s : State) : Host.Outcome State Fault Refusal := .next (timeStart s e)

/-- HALT completes on every member of leader l (R67). -/
def haltMembers (s : State) (l res : Nat) : State :=
  (membersOf s l).foldl (fun u m =>
    let v := enterState (parkEngine u m) m stHalted
    v.when (u.f (F.eng_stat_abort_res m) == 1 || res != 0) (·.put (F.eng_stat_abort_res m) 3)) s

/-- CTL.abort as it reaches leader l in the present core cycle (R68, R69, R71): what its chain was to do later does not happen. A second
abort while one is pending changes nothing. -/
def abortCmd (s0 : State) (l : Nat) : State :=
  let ms := cmdMembers s0 l
  let a := coreNow s0
  let s := if running s0 l && s0.f (F.eng_stat_abort_res l) != 1 then undoChain s0 l a else s0
  let toAborted (u : State) (m : Nat) : State :=
    let v := (u.put (F.eng_stat_arming m) 0).put (F.eng_stat_start_pending m) 0
    (enterState (parkEngine v m) m stAborted).put (F.eng_stat_abort_res m) 2
  if arming s l && ms.any (fun m => (s.engine m).retuneArm) then
    ms.foldl (fun u m => (u.put (F.eng_stat_abort_res m) 1).modE m (fun x => { x with abortPend := true })) s
  else if arming s l || est s l == stArmed then ms.foldl toAborted s
  else if running s l then
    if s.f (F.eng_stat_abort_res l) = 1 then s
    else match completionCycle s l with
      | some c =>
        if c ≤ a then haltMembers s l 3
        else
          ms.foldl (fun u m => (u.put (F.eng_stat_abort_res m) 1).modE m (fun x =>
            match x.fillEnd with
            | some (_, t) => { x with fillEnd := some (.aborted, t) }
            | none => { x with abortPend := true, abortAt := a + (if 1 < ms.length then 6 else 0) })) s
      | none =>
        ms.foldl (fun u m => (u.put (F.eng_stat_abort_res m) 1).modE m (fun x =>
          { x with abortPend := true, abortAt := a + (if 1 < ms.length then 6 else 0) })) s
  else ms.foldl (fun u m => u.put (F.eng_stat_abort_res m) 3) s

/-- R68. -/
def execAbort (e : Eng) (s : State) : Host.Outcome State Fault Refusal :=
  .next (coreCmd s (fun u => abortCmd u (cmdLeader u e)))

/-- A pending abort acts on each member at the first granule boundary that starts after its cycle (R68, R71): a filler run that a member is in
gets no second one, and a member that waits for a retune aborts at the reopening. -/
def abortActs (s : State) (e : Nat) : State :=
  (membersOf s (leaderOf s e)).foldl (fun u m =>
    let x := u.engine m
    if running u m && x.abortPend && x.fillEnd.isNone && !x.retune then
      let t := boundaryAfter u m x.abortAt
      (dropSync (beginFillRun (advanceT u t) m .aborted t) m).modE m (fun z => { z with abortPend := false })
    else u) s

/-- R68. -/
def execAbortActs (e : Eng) (s : State) : Host.Outcome State Fault Refusal := .next (abortActs s e)

/-- A filler granule of a run plays from instant t: a STOP under-run replaces a granule with it (R174, R181). -/
def runGranule (s : State) (e t : Nat) (stop : Bool) : State :=
  (fillGranule (advanceT s t) e).when stop (·.countSat (F.eng_urunMiss_n e) 1)

/-- The two filler granules of a run from instant t: what the play left on the driver is noted first (R39, R50). A lane that is shuttered or
has lost its clock sends none of them (R158); when its engine then takes its final state R158 leaves open, and here it is two granule times
on, as with the others (DESIGN CHOICE, log entry 66). -/
def playRun (s0 : State) (e t : Nat) : State :=
  let s := advanceT s0 t
  let x := s.engine e
  let s1 := match x.play with
    | some p => foldDrive s e p (gransBefore s e p t) (2 ^ 64)
    | none => s
  let stop := match x.play with
    | some p => x.missK == some (granK e p (gransBefore s e p t)) && decide (x.missCause < 4) && x.cfg / 64 % 4 == 2
    | none => false
  let s2 := runGranule (runGranule (dropSync s1 e) e t stop) e (granulesOn s e t 1) stop
  advanceT s2 (granulesOn s e t 2)

/-- The two filler granules of a run are over: the lane parks and the engine takes its final state (R50, R68, R73, R174). -/
def fillerEndPark (s : State) (e : Nat) : State :=
  match (s.engine e).fillEnd with
  | none => s
  | some (k, t) =>
    let s3 := playRun s e t
    let pendAb := s3.f (F.eng_stat_abort_res e) == 1
    let s4 := parkEngine s3 e
    match k with
    | .aborted => (enterState s4 e stAborted).put (F.eng_stat_abort_res e) 2
    | .halted => (enterState s4 e stHalted).when pendAb (·.put (F.eng_stat_abort_res e) 3)
    | .faulted => (enterState s4 e stFaulted).when pendAb (·.put (F.eng_stat_abort_res e) 3)
    | .lostClock => (enterState s4 e stLost).when pendAb (·.put (F.eng_stat_abort_res e) 3)
    | .idle => (s4.put (F.eng_stat_state e) stIdle).put (F.eng_stat_abort_res e) 0

/-- R50, R68. -/
def execFillerEndPark (e : Eng) (s : State) : Host.Outcome State Fault Refusal := .next (fillerEndPark s e)

/-- One engine returns to IDLE (R55). -/
def idleEngine (s : State) (m : Nat) : State :=
  ((parkEngine s m).put (F.eng_stat_state m) stIdle).put (F.eng_stat_start_pending m) 0

/-- CTL.reset on engine e (R55, R71): allowed in ARMED, HALTED, ABORTED, LOST_CLOCK and FAULTED. -/
def resetCmd (s : State) (e : Nat) : State :=
  let l := cmdLeader s e
  let st := est s l
  if st = stArmed ∨ stHalted ≤ st then (cmdMembers s l).foldl idleEngine s
  else s.raise (F.eng_stat_cmd_err e)

/-- R55, R71. -/
def execEngineReset (e : Eng) (s : State) : Host.Outcome State Fault Refusal := .next (coreCmd s (resetCmd · e))

/-- The states in which the instruction store may be written (R57). -/
def imemWritable (s : State) (e : Nat) : Bool := !arming s e && !active3 s e

/-- A write of the instruction store that is dropped (R57). -/
def imemDrop (s : State) (e i : Nat) : State := fault (s.raise (F.eng_stat_imem_drop e)) 20 e .contained i

/-- A low half is staged with its index (R80). -/
def imemStage (s : State) (e i : Nat) (w : Word) : State :=
  if imemWritable s e then { s with imemStage := s.imemStage.filter (fun x => x.1 != e) ++ [(e, i, w)] } else imemDrop s e i

/-- R80. -/
def execImemStage (e : Eng) (idx : BitVec 12) (low : Word) (s : State) : Host.Outcome State Fault Refusal :=
  .next (cfgCmd s (imemStage · e idx.toNat low))

/-- A high half commits the word, with fresh check bits (R80). -/
def imemCommit (s : State) (e i : Nat) (w : Word) : State :=
  if imemWritable s e then
    let low := match s.imemStage.find? (fun x => x.1 == e) with
      | some (_, j, v) => if j = i then v else s.reg (R.imem_lo e i)
      | none => s.reg (R.imem_lo e i)
    let s1 := (s.setReg (R.imem_lo e i) low).setReg (R.imem_hi e i) w
    { s1 with imemStage := s1.imemStage.filter (fun x => x.1 != e), imemErr := tset (fun _ => 0) s1.imemErr (4096 * e + i) 0 }
  else imemDrop s e i

/-- R57, R80. -/
def execImemCommit (e : Eng) (idx : BitVec 12) (high : Word) (s : State) : Host.Outcome State Fault Refusal :=
  .next (cfgCmd s (imemCommit · e idx.toNat high))

/-! ### Words of a chain (log entry 9) -/

/-- Engine e's chain can take a word: nothing is named, it arms or its play's decision has been taken. -/
def chainOpen (s : State) (e : Nat) : Bool :=
  let x := s.engine e
  x.next.isNone && !x.halting && !x.abortPend && x.fillEnd.isNone && x.dec.isNone && x.disagree.isNone && !isFollower s e &&
    (arming s e || (running s e && (x.play.map (·.decided)).getD false && !x.retune))

/-- Engine e plays: its play in progress, with no filler run, hold or retune. -/
def playing (s : State) (e : Nat) : Option Play :=
  let x := s.engine e
  if running s e && x.fillEnd.isNone && !x.retune then x.play else none

/-- Change the play in progress of engine e. -/
def modPlay (s : State) (e : Nat) (g : Play → Play) : State := s.modE e (fun x => { x with play := x.play.map g })

/-- The flags become the sample in the present core cycle, every member's play is decided, and nothing more of it than endAt granules is
fetched (R60, R66). -/
def takeSample (s : State) (e endAt : Nat) : State :=
  let s1 := s.modE e (fun x => { x with sample := flagsOf s e })
  let s2 := (membersOf s1 e).foldl (fun u m => modPlay u m (fun p => { p with decided := true, endAt := endAt })) s1
  { s2 with ctl := { s2.ctl with
    reqs := s2.ctl.reqs.filter (fun r => !((membersOf s1 e).contains r.eng && r.cls == 2 && !r.nxt && !r.cmp && decide (endAt ≤ r.idx))) } }

/-- The play in progress of engine e whose decision is still to come, where the engine takes decisions (R60, R72). -/
def undecided (s : State) (e : Nat) : Option Play :=
  match playing s e with
  | some p => if p.decided || (s.engine e).holding || isFollower s e then none else some p
  | none => none

/-- The decision point of play p is reached: the sample is taken and the chain begins, where no abort is pending and nothing has been
named; a WAIT repetition executes its own word again (R60, R91). -/
def openChain (s0 : State) (e : Nat) (p : Play) : State :=
  let s := takeSample (advanceT s0 (granT s0 e p (p.endAt - 2))) e p.endAt
  let x := s.engine e
  if x.abortPend || x.next.isSome || x.halting then s
  else
    let s1 := startChain s e (coreNow s)
    match waitMask s1 e with
    | some (q, m) => (waitWord s1 e q m).1
    | none => s1

/-- The next word of the chain: its address, its core cycle and its number are noted (R62, R85); the 4,096th ends the chain. -/
def chainWord (s : State) (e : Nat) (g : State → Nat → State) : State :=
  if chainOpen s e then
    let x := s.engine e
    let c := max (x.chainCyc + 1) (coreNow s)
    let s1 := advanceCycle s c
    let s2 := (s1.modE e (fun y => { y with chainCyc := c, chainN := y.chainN + 1 })).put (F.eng_pc_pc e) x.nextPc
    let s3 := g s2 x.nextPc
    let y := s3.engine e
    if 4096 ≤ y.chainN && chainOpen s3 e then overrun s3 e else s3
  else s

/-- A word executes in engine e's chain; where the play's decision is still to come, it is taken first (R60, log entry 9). -/
def wordStep (s : State) (e : Nat) (g : State → Nat → State) : State :=
  chainWord (match undecided s e with | some p => openChain s e p | none => s) e g

/-- A word is fetched through its check bits before it executes (R57): one that cannot be corrected does not execute. -/
def withFetch (s : State) (e pc : Nat) (g : State → State) : State :=
  match fetchWord s e pc with
  | (some _, u) => g u
  | (none, u) => u

/-- A word of the instruction set in engine e's chain: a word at index 0 or after last, and an undefined word, act as HALT (R83). -/
def runWord (s : State) (e : Nat) (op : ProgOp) : State :=
  wordStep s e (fun u pc =>
    if pc = 0 then (execUndef u e pc 1).1
    else if bitsOf (imemWord u e 0) 32 12 < pc then (execUndef u e pc 5).1
    else withFetch u e pc (fun v =>
      if opDefined (v.engine e).level (decide (512 ≤ e)) op then (execOp v e pc op).1 else (execUndef v e pc 1).1))

/-- R94. -/
def execNop (e : Eng) (s : State) : Host.Outcome State Fault Refusal := .next (runWord s e .nop)
/-- R67. -/
def execHalt (e : Eng) (s : State) : Host.Outcome State Fault Refusal := .next (runWord s e .halt)
/-- R92. -/
def execJmp (e : Eng) (addr : BitVec 12) (s : State) : Host.Outcome State Fault Refusal := .next (runWord s e (.jmp addr))
/-- R92. -/
def execCall (e : Eng) (addr : BitVec 12) (s : State) : Host.Outcome State Fault Refusal := .next (runWord s e (.call addr))
/-- R92. -/
def execRet (e : Eng) (s : State) : Host.Outcome State Fault Refusal := .next (runWord s e .ret)
/-- R93. -/
def execBr (e : Eng) (mask : BitVec 8) (addr : BitVec 12) (s : State) : Host.Outcome State Fault Refusal :=
  .next (runWord s e (.br mask addr))
/-- R94. -/
def execDjnz (e : Eng) (x : Fin 8) (addr : BitVec 12) (s : State) : Host.Outcome State Fault Refusal :=
  .next (runWord s e (.djnz (BitVec.ofNat 3 x) addr))
/-- R88. -/
def execPlay (e : Eng) (seg : BitVec 14) (n : BitVec 16) (s : State) : Host.Outcome State Fault Refusal :=
  .next (runWord s e (.play seg n))
/-- R89. -/
def execPlayc (e : Eng) (seg : BitVec 14) (x : Fin 8) (s : State) : Host.Outcome State Fault Refusal :=
  .next (runWord s e (.playc seg (BitVec.ofNat 3 x)))
/-- R91. -/
def execWait (e : Eng) (mask : BitVec 8) (seg : BitVec 14) (s : State) : Host.Outcome State Fault Refusal :=
  .next (runWord s e (.wait mask seg))
/-- R90, R169. -/
def execStrm (e : Eng) (ring : Fin 256) (g : StrmCount) (s : State) : Host.Outcome State Fault Refusal :=
  .next (runWord s e (match g with
    | .imm n => .strmImm (BitVec.ofNat 8 ring) n
    | .ctr x => .strmCtr (BitVec.ofNat 8 ring) (BitVec.ofNat 3 x)))
/-- R96. -/
def execSynct (e : Eng) (s : State) : Host.Outcome State Fault Refusal := .next (runWord s e .synct)
/-- R95. -/
def execLdt (e : Eng) (hi : Bool) (imm : Word) (s : State) : Host.Outcome State Fault Refusal := .next (runWord s e (.ldt hi imm))
/-- R95. -/
def execLdtStart (e : Eng) (s : State) : Host.Outcome State Fault Refusal := .next (runWord s e .ldtStart)
/-- R95. -/
def execAddt (e : Eng) (imm : BitVec 48) (s : State) : Host.Outcome State Fault Refusal := .next (runWord s e (.addt imm))
/-- R94. -/
def execLdc (e : Eng) (x : Fin 8) (imm : Word) (s : State) : Host.Outcome State Fault Refusal :=
  .next (runWord s e (.ldc (BitVec.ofNat 3 x) imm))
/-- R94. -/
def execAddc (e : Eng) (x : Fin 8) (imm : Word) (s : State) : Host.Outcome State Fault Refusal :=
  .next (runWord s e (.addc (BitVec.ofNat 3 x) imm))
/-- R103. -/
def execMark (e : Eng) (m : Fin 8) (offset : BitVec 40) (s : State) : Host.Outcome State Fault Refusal :=
  .next (runWord s e (.mark (BitVec.ofNat 3 m) offset))
/-- R104. -/
def execSig (e : Eng) (m : Fin 8) (s : State) : Host.Outcome State Fault Refusal := .next (runWord s e (.sig (BitVec.ofNat 3 m)))
/-- R98. -/
def execSetf (e : Eng) (idx : Fin 16) (cont : Bool) (s : State) : Host.Outcome State Fault Refusal :=
  .next (runWord s e (.setf (BitVec.ofNat 4 idx) cont))
/-- R97. -/
def execLdf (e : Eng) (idx : Fin 16) (value : BitVec 48) (s : State) : Host.Outcome State Fault Refusal :=
  .next (runWord s e (.ldf (BitVec.ofNat 4 idx) value))
/-- R99. -/
def execSetp (e : Eng) (rel : Bool) (phase : BitVec 48) (s : State) : Host.Outcome State Fault Refusal :=
  .next (runWord s e (.setp rel phase))
/-- R100. -/
def execTset (e : Eng) (a b : Fin 16) (s : State) : Host.Outcome State Fault Refusal :=
  .next (runWord s e (.tset (BitVec.ofNat 4 a) (BitVec.ofNat 4 b)))
/-- R100. -/
def execLvl (e : Eng) (n : Fin 8) (s : State) : Host.Outcome State Fault Refusal := .next (runWord s e (.lvl (BitVec.ofNat 3 n)))
/-- R101. -/
def execCmpm (e : Eng) (mode : BitVec 4) (s : State) : Host.Outcome State Fault Refusal := .next (runWord s e (.cmpm mode))

/-- Code of a cause in the syndrome of ENG_OPCODE (R83). -/
def causeCode : OpCause → Nat
  | .undefined => 1
  | .range => 2
  | .stackOvf => 3
  | .stackUnf => 4
  | .beyondLast => 5

/-- R83. -/
def execUndefinedWord (e : Eng) (cause : OpCause) (s : State) : Host.Outcome State Fault Refusal :=
  .next (wordStep s e (fun u pc => (execUndef u e pc (causeCode cause)).1))

/-- R62. -/
def execChainOverrun (e : Eng) (s : State) : Host.Outcome State Fault Refusal :=
  .next (if chainOpen s e then overrun s e else s)

/-! ### The events of a play -/

/-- The decision of engine e in the present core cycle (R60): the sample is taken, and the chain runs unless an abort is pending (R68) or
its naming has been made. -/
def decideNow (s : State) (e endAt : Nat) : State :=
  let s1 := takeSample s e endAt
  let x := s1.engine e
  if x.abortPend || x.next.isSome || x.halting then s1 else decide_ s1 e (coreNow s)

/-- R60: the start of the play's last two granules. -/
def decisionPoint (s : State) (e : Nat) : State :=
  match undecided s e with
  | some p => decideNow (advanceT s (granT s e p (p.endAt - 2))) e p.endAt
  | none => s

/-- R60. -/
def execDecisionPoint (e : Eng) (s : State) : Host.Outcome State Fault Refusal := .next (decisionPoint s e)

/-- Start of the first granule of the play at or after the present instant. -/
def nextGran (s : State) (e : Nat) (p : Play) : Nat :=
  if t16Now s ≤ p.t0 then 0
  else
    let g := granAt s e p
    if t16Now s ≤ granT s e p g then g else g + 1

/-- A sample of granule-jump mode at the start of a granule before the decision point (R66). -/
def granuleSample (s : State) (e : Nat) : State :=
  match undecided s e with
  | some p =>
    let g := nextGran s e p
    if (s.engine e).cfg / 32 % 2 == 0 || decide (p.endAt ≤ g + 2) then s
    else
      let s1 := advanceT s (granT s e p g)
      let fl := flagsOf s1 e
      if fl &&& p.jmask ≠ 0 ∧ coreStart p.jmaskAt ≤ granT s e p g then decideNow s1 e (g + 2)
      else s1.modE e (fun x => { x with sample := fl })
  | none => s

/-- R66. -/
def execGranuleSample (e : Eng) (s : State) : Host.Outcome State Fault Refusal := .next (granuleSample s e)

/-- Position (ring positions fetched or skipped) that member m has reached in ring r (R168): from the first position of the play in progress,
one for each position fetched or skipped for it and for the named play. -/
def ringReached (s : State) (m r : Nat) : Option Nat :=
  let x := s.engine m
  let at_ (p : Option Play) : Option (Nat × Nat) := match p with
    | some q => match q.kind with
      | .strm r' => if r' = r then some (q.first, q.fetched) else none
      | _ => none
    | none => none
  match at_ x.play, at_ x.next with
  | some (f, n), nx => some ((f + n + (nx.map (·.2)).getD 0) % 2 ^ 32)
  | none, some (f, n) => some ((f + n) % 2 ^ 32)
  | none, none => none

/-- Advance RPTR of ring r to the position that every member of leader l's suite has fetched or skipped (R168). -/
def syncRptr (s : State) (l r : Nat) : State :=
  let rp := s.f (F.ring_rptr_p r)
  let ds : List Int := (membersOf s l).map (fun m => match ringReached s m r with
    | some v => signed 32 ((v + 2 ^ 32 - rp) % 2 ^ 32)
    | none => 0)
  let d : Int := ds.foldl min (2 ^ 31)
  if 0 < d ∧ d < 2 ^ 31 then
    let s1 := s.put (F.ring_rptr_p r) (rp + d.toNat)
    { s1 with ctl := { s1.ctl with
        cred := s1.ctl.cred.map (fun x => if x.1 = r then (x.1, x.2.1, some (x.2.2.getD s.clk.now)) else x)
        hwPtr := s1.ctl.hwPtr.filter (fun x => x.1 != r || x.2.1) ++ [(r, false, coreNow s)] } }
  else s

/-- The play of engine e is over at its end: unfetched positions of a ring have been skipped (R168, R175). -/
def closeStream (s : State) (e : Nat) (p : Play) : State :=
  match p.kind with
  | .strm r => syncRptr (modPlay s e (fun q => { q with fetched := max q.fetched q.endAt })) (leaderOf s e) r
  | _ => s

/-- The last vectors of play p on pin lane m, whose edges may come after its end (R122, R123). -/
def tailOf (s : State) (m : Nat) (p : Play) : Option Tail :=
  if 512 ≤ m ∨ (s.laneOf m).mode ≠ .playing then none
  else
    let x := s.engine m
    let n := min (lateSpan x.set) (p.endAt * 128)
    let k := granK m p p.endAt - (n : Int)
    some ⟨x.set, k, (List.range n).map (fun i => ((playedAt s m p (k + (i : Int))).map (fun g => vcode g.1 g.2.1)).getD 3), conditionAt s m p k⟩

/-- The play of member m ends and its named play begins at that boundary (R119, R120): what it showed and what may still be judged of it
is kept. -/
def turnPlay (s0 : State) (m : Nat) : State :=
  match (s0.engine m).play, (s0.engine m).next with
  | some p, some q =>
    let t := endT s0 m p
    let k := granK m p p.endAt
    let s := advanceT s0 t
    let cont := (s.engine m).missK == some (granK m p (p.endAt - 1))
    let fcont := (s.engine m).fillK == some (granK m p (p.endAt - 1))
    let drv := driveAfter s m p (p.endAt * perGranule m)
    let tl := tailOf s m p
    let s1 := (closeStream (notePlayed (pushPast (bakePlay s m) m) m) m p).modL m (fun l =>
      if l.mode == .playing then { l with drv := drv } else l)
    let s2 := beginPlay (s1.modE m (fun x => { x with tail := tl })) m q t k
    s2.modE m (fun x => { x with
      missK := match x.play with | some w => if cont then some (w.k0 - (perGranule m : Int)) else none | none => none
      fillK := match x.play with | some w => if fcont then some (w.k0 - (perGranule m : Int)) else none | none => none })
  | _, _ => s0

/-- The end of the play in progress of a single engine or a suite leader (R119): not while a decision is on the suite bus, and not
where a pending abort acts at this boundary (R68). -/
def playEnd (s : State) (e : Nat) : State :=
  match playing s e with
  | some p =>
    let x := s.engine e
    if isFollower s e || !p.decided || x.next.isNone || x.halting || x.dec.isSome || x.disagree.isSome || x.holding ||
        (x.abortPend && decide (x.abortAt < coreOf (endT s e p))) then s
    else (membersOf s e).foldl (fun u m => dropHeldAll (turnPlay u m) (tableOf m)) s
  | none => s

/-- R119. -/
def execPlayEnd (e : Eng) (s : State) : Host.Outcome State Fault Refusal := .next (playEnd s e)

/-- The completion of HALT (R67). -/
def haltComplete (s : State) (e : Nat) : State :=
  match playing s e with
  | some p =>
    let x := s.engine e
    let t := haltT s e p
    if isFollower s e || !x.halting || x.holding || x.dec.isSome || (x.abortPend && decide (x.abortAt < coreOf t)) then s
    else
      let s1 := advanceT s t
      haltMembers ((membersOf s1 e).foldl (fun u m => match (u.engine m).play with | some q => closeStream u m q | none => u) s1)
        e (if x.abortPend then 3 else 0)
  | none => s

/-- R67. -/
def execHaltComplete (e : Eng) (s : State) : Host.Outcome State Fault Refusal := .next (haltComplete s e)

/-- Marker m of the play in progress fires when the lane reaches its position (R103): M0-M3 in the core cycle that contains it
(R65), M4-M7 at its instant (R198). -/
def markFire (s : State) (e m : Nat) : State :=
  match playing s e with
  | some p =>
    match p.marks.find? (fun q => q.1 == m) with
    | some (_, off) =>
      if p.endAt * perGranule e ≤ off ∨ ((s.engine e).holding ∧ p.due * perGranule e ≤ off) then s
      else
        let t := if off = 0 then p.t0 else boundaryT (s.engine e).set (s.engine e).epoch (p.k0 + (off : Int))
        let s1 := modPlay (advanceT s t) e (fun q => { q with marks := q.marks.filter (fun y => y.1 != m) })
        if m < 4 then produce s1 (coreOf t) (4 * e + m) else fireTimed s1 e m t
    | none => s
  | none => s

/-- R103. -/
def execMarkFire (e : Eng) (m : Fin 8) (s : State) : Host.Outcome State Fault Refusal := .next (markFire s e m)

/-- Granule g of the play is not there at instant t (R174): not in its queue or pantry copy, or before a late naming executed
(R62). -/
def missingAt (s : State) (e : Nat) (p : Play) (g t : Nat) : Bool :=
  (granData s e p g).isNone || (p.late && decide (t < coreStart (p.namedAt + 1)))

/-- Granule g of the play is not there at its due time. -/
def isMissing (s : State) (e : Nat) (p : Play) (g : Nat) : Bool := missingAt s e p g (granT s e p g)

/-- Cause of granule g's miss at its due time (R174, R47, R62): 1 RING, 2 STORE, 3 ARRIVAL, 4 TARGET, 5 CHAIN. -/
def missCauseOf (s : State) (p : Play) (g : Nat) (first : Bool) : Nat :=
  if first && p.late then 5
  else match p.kind with
    | .strm r =>
      if signed 32 ((strmPos p g + 2 ^ 32 - s.f (F.ring_wptr_p r)) % 2 ^ 32) < 0 then 3 else 1
    | _ => if p.target then 4 else 2

/-- One granule is replaced by filler (R50): granule 0 of the filler where the granule before was not. -/
def fillFor (s : State) (e : Nat) (p : Play) (g : Nat) : State :=
  let k := granK e p g
  let entry := (s.engine e).fillK != some (k - (perGranule e : Int))
  let drv := driveAfter s e p (g * perGranule e)
  let s0 := s.modL e (fun l => if l.mode == .playing then { l with drv := drv } else l)
  let s1 := if entry then enterFiller s0 e else s0
  let s2 := fillGranule (noteFill s1 e k (fillerGran s1 e 0) drv (s.laneOf e).drv (s.laneOf e).condFrom) e
  (s2.modE e (fun x => { x with fillK := some k, fillN := x.fillN + 1, filled := (g :: x.filled).take (keepGrans e) })).modL e (fun l =>
    { l with condFrom := g + 1 })

/-- While a JUMP_MISS waits under SLIP for granule g, the lane plays the next filler granule of that wait (R47, R175, R181). -/
def waitFiller (s0 : State) (e : Nat) : State :=
  let x := s0.engine e
  let l := s0.laneOf e
  let s := match x.play with
    | some p => noteFill s0 e (granK e p p.due + (perGranule e * x.holdN : Nat)) (fillerGran s0 e 0) l.drv l.drv l.condFrom
    | none => s0
  ((fillGranule s e).modE e (fun x => { x with holdN := x.holdN + 1 })).countSat (F.eng_urunMiss_n e) 1

/-- Position g of a ring is stepped over, and counts as taken unless it was in the queue (R168, R175). -/
def skipGran (s : State) (e : Nat) (p : Play) (g : Nat) : State :=
  let s1 := { s with ctl := { s.ctl with
    reqs := s.ctl.reqs.filter (fun r => !(r.eng == e && r.cls == 2 && !r.nxt && !r.cmp && r.idx == g)) } }
  let have_ := (s.engine e).queue.any (fun q => q.1 == g)
  let s2 := modPlay s1 e (fun q => { q with due := g + 1, fetched := if have_ then q.fetched else q.fetched + 1 })
  match p.kind with
  | .strm r => syncRptr s2 (leaderOf s2 e) r
  | _ => s2

/-- A granule of a target's companion is not in the compare queue at its due time: that compare is masked (R47). -/
def cmpMissing (s : State) (e : Nat) (p : Play) (g : Nat) : Bool :=
  p.target && p.cmp.isSome && p.cmpCopy.isNone &&
    !((s.engine e).cmpQueue.any (fun q => q.1 == 2 * g) && (s.engine e).cmpQueue.any (fun q => q.1 == 2 * g + 1))

/-- A granule of a target plays with its compare masked (R47): JUMP_MISS, once per run. -/
def maskGran (s0 : State) (e : Nat) (p : Play) (g : Nat) : State :=
  let t := granT s0 e p g
  let s := advanceT s0 t
  let k := granK e p g
  let cont := (s.engine e).missK == some (k - (perGranule e : Int)) && (s.engine e).missCause == 4
  let s1 := if cont then s else occurrence s e p 4 g t true .corrected
  modPlay (s1.modE e (fun y => { y with missK := some k, missCause := 4, masked := (g :: y.masked).take (keepGrans e) })) e
    (fun q => { q with due := g + 1 })

/-- Granule g of the play is not the play's: lane e holds the condition that the granule before left (R174). -/
def holdGran (s : State) (e : Nat) (p : Play) (g from_ : Nat) : State :=
  let l := s.laneOf e
  foldDrive (noteFill s e (granK e p g) none (driveAfter s e p (g * perGranule e)) l.drv l.condFrom) e p g from_

/-- A granule falls due and is missing (R174-R177, R181): the occurrence where a run begins, then the policy for the granule. A run is of
missing granules that follow each other: a poisoned granule between two ends it, where R174 says both 'consecutive missing granules' and
'ends at the first granule that plays from data' (DESIGN CHOICE, log entry 68). -/
def granuleMissing (s0 : State) (e : Nat) : State :=
  match playing s0 e with
  | some p =>
    let g := max p.due (nextGran s0 e p)
    if (s0.engine e).holding then
      let t := boundaryT (s0.engine e).set (s0.engine e).epoch (granK e p p.due + (perGranule e * (s0.engine e).holdN : Nat))
      if decide (4 ≤ (s0.engine e).missCause) && missingAt s0 e p p.due t then waitFiller (advanceT s0 t) e else s0
    else if decide (p.endAt ≤ g) then s0
    else if !isMissing s0 e p g then (if cmpMissing s0 e p g then maskGran s0 e p g else s0)
    else
      let t := granT s0 e p g
      let s := advanceT s0 t
      let x := s.engine e
      let k := granK e p g
      let cont := x.missK == some (k - (perGranule e : Int))
      let first := g == 0 || (cont && decide (4 ≤ x.missCause))
      let cause := missCauseOf s p g first
      let jm := decide (4 ≤ cause)
      let fresh := !(cont && (jm == decide (4 ≤ x.missCause)))
      let pol := x.cfg / 64 % 4
      let slip := x.cfg / 256 % 2 == 1
      let cls : FaultClass := if !jm && pol == 2 then .contained else .corrected
      let s1 := if fresh then occurrence s e p cause g t jm cls else s
      let s2 := s1.modE e (fun y => { y with missK := some k, missCause := cause })
      if !jm && pol == 2 then dropSync (beginFillRun (skipGran s2 e p g) e .halted t) e
      else if slip then
        let s3 := (modPlay (if jm then foldDrive s2 e p g g else holdGran s2 e p g g) e (fun q => { q with due := g })).modE e (fun y => { y with holding := true, holdN := 0 })
        if jm then waitFiller (if x.fillK == some (k - (perGranule e : Int)) then s3 else enterFiller s3 e) e else s3
      else if jm || pol == 0 then skipGran ((fillFor s2 e p g).countSat (F.eng_urunMiss_n e) 1) e p g
      else
        skipGran (((holdGran s2 e p g (g + 1)).modE e (fun y => { y with
          fillN := y.fillN + 1, filled := (g :: y.filled).take (keepGrans e) })).countSat (F.eng_urunMiss_n e) 1) e p g
  | none => s0

/-- R174. -/
def execGranuleMissing (e : Eng) (s : State) : Host.Outcome State Fault Refusal := .next (granuleMissing s e)

/-- Filler granules n of a JUMP_MISS's wait up to the m-th, at their instants (R47, R50). -/
def waitFillers (s : State) (e : Nat) (k : Int) : Nat → Nat → State
  | 0, _ => s
  | n + 1, m => waitFillers (waitFiller (advanceT s (boundaryT (s.engine e).set (s.engine e).epoch (k + (perGranule e * m : Nat)))) e) e k n (m + 1)

/-- Under SLIP the awaited granule has reached the queue (R175): the lane resumes at the next boundary, a JUMP_MISS at the next
granule boundary after the filler granules that have begun (R47, R66), and the run offset decreases by the shift. -/
def slipResume (s : State) (e : Nat) : State :=
  match playing s e with
  | some p =>
    let x := s.engine e
    if !x.holding || (granData s e p p.due).isNone then s
    else
      let k := granK e p p.due
      let now := max (t16Now s) (if p.late then coreStart (p.namedAt + 1) else 0)
      let kv := max k (firstBoundary x.set x.epoch now)
      let per : Int := perGranule e
      let shift := if 4 ≤ x.missCause then max ((kv - k + per - 1) / per) (x.holdN : Int) * per else kv - k
      let t := boundaryT x.set x.epoch (k + shift)
      let o := x.set.ofs - shift * 2 ^ 48
      let o' := normOfs o
      let turn := (o' - o) / 2 ^ 48
      let s1 := advanceT (if 4 ≤ x.missCause then waitFillers s e k ((shift / per).toNat - x.holdN) x.holdN else s) t
      s1.modE e (fun y => { y with
        set := { y.set with ofs := o' }, holding := false, holdN := 0, missK := none, fillK := none
        fills := y.fills.map (fun f => { f with k := f.k - shift + turn })
        play := y.play.map (fun q => { q with k0 := q.k0 + turn, t0 := if q.due = 0 then t else q.t0 }) })
  | none => s

/-- R175. -/
def execSlipResume (e : Eng) (s : State) : Host.Outcome State Fault Refusal := .next (slipResume s e)

/-- Error in a pantry copy or in a queue at an offset: 1 one wrong symbol, 2 more (R25). -/
def placeErr (s : State) (e : Nat) (cmp : Bool) (copy : Option Nat) (o : Nat) : Nat :=
  match copy with
  | some id => match copyOf s (tableOf e) id with
    | some c => tget (fun _ => 0) c.err o
    | none => 0
  | none => queueErr (s.engine e) cmp o

/-- Where granule g of the play stands, and the two of its companion (R16, R41): compare, the pantry copy (none: its queue), the offset. -/
def dueReads (p : Play) (g : Nat) : List (Bool × Option Nat × Nat) :=
  (false, p.copy.map (·.1), (match p.copy with | some (_, off) => off + segGran p g | none => g)) ::
    (if p.cmp.isNone then [] else [2 * g, 2 * g + 1].map (fun c => (true, p.cmpCopy.map (·.1),
      match p.cmpCopy with | some (_, off) => off + (if p.len = 0 then 0 else c % (2 * p.len)) | none => c)))

/-- Granule g of the play or its companion has an error in the pantry (R25). -/
def pantryErr (s : State) (e : Nat) (p : Play) (g : Nat) : Bool := (dueReads p g).any (fun r => placeErr s e r.1 r.2.1 r.2.2 != 0)

/-- Granule g of a queue of engine e is read (R25): a wrong symbol is corrected; more of them poison it. The syndrome counts the prefetch area
behind the resident area (DESIGN CHOICE, log entry 70). -/
def queueRead (s : State) (e : Nat) (cmp : Bool) (g : Nat) : State :=
  let k := queueErr (s.engine e) cmp g
  if k = 0 then s
  else
    let spoil (q : List (Nat × Granule × Bool)) : List (Nat × Granule × Bool) := q.map (fun y => if y.1 = g ∧ k = 2 then (y.1, y.2.1, true) else y)
    let s1 := s.modE e (fun x => { x with
      qErr := x.qErr.filter (fun y => y.1 || y.2.1 != cmp || y.2.2.1 != g)
      queue := if cmp then x.queue else spoil x.queue, cmpQueue := if cmp then spoil x.cmpQueue else x.cmpQueue })
    let o := 4 * panUnits (tableOf e) + localOf e * (if e < 512 then 100 else 681) + (if cmp then 227 + g % 454 else g % queueCap e)
    if k = 1 then fault s1 69 (tableOf e) .corrected o else fault s1 70 (tableOf e) .contained o

/-- Granule g of the play in progress falls due: the pantry's check bits are read (R25). -/
def pantryDue (s : State) (e : Nat) (p : Play) (g : Nat) : State :=
  (dueReads p g).foldl (fun u r => match r.2.1 with
    | some id => pantryRead u (tableOf e) id r.2.2
    | none => queueRead u e r.1 r.2.2) s

/-- A granule with an error in its pantry falls due: one symbol is corrected (R25); a poisoned granule plays as filler (R177). -/
def poisonPlay (s0 : State) (e : Nat) : State :=
  match playing s0 e with
  | some p =>
    let g := max p.due (nextGran s0 e p)
    match granData s0 e p g with
    | some (_, bad) =>
      if (s0.engine e).holding || decide (p.endAt ≤ g) || isMissing s0 e p g then s0
      else if !bad then
        if !pantryErr s0 e p g then s0 else pantryDue (advanceT s0 (granT s0 e p g)) e p g
      else
        let s := pantryDue (advanceT s0 (granT s0 e p g)) e p g
        let s1 := (fault s 50 e .contained p.seg).countSat (F.eng_poisonCnt_n e) 1
        modPlay (fillFor s1 e p g) e (fun q => { q with due := g + 1 })
    | none => s0
  | none => s0

/-- R177. -/
def execPoisonPlay (e : Eng) (s : State) : Host.Outcome State Fault Refusal := .next (poisonPlay s e)

/-! ### Tasks from the host (R63, R64) -/

/-- R63: writing 1 to a flag's bit of TASKSET is an arrival. -/
def execTaskset (e : Eng) (flags : BitVec 8) (s : State) : Host.Outcome State Fault Refusal :=
  .next (coreCmd s (fun u => taskStart (taskArrivals u e flags.toNat) e))

/-- A W1C write of TASK (R64, R285): an arrival of the same cycle wins. -/
def taskClear (s : State) (e v : Nat) : State :=
  let x := s.engine e
  let here := x.arrCyc == coreNow s
  let mgKeep := if here then x.mrgNow else 0
  let s1 := clearFlags s e (v % 256) (coreNow s)
  let ovKeep := if here then (s1.engine e).ovSet else 0
  let s2 := s1.put (F.eng_task_merged e) (s1.f (F.eng_task_merged e) &&& (255 - v / 256 % 256 + (mgKeep &&& (v / 256 % 256))))
  s2.put (F.eng_task_overlap e) (s2.f (F.eng_task_overlap e) &&& (255 - v / 65536 % 256 + (ovKeep &&& (v / 65536 % 256))))

/-- R64. -/
def execTaskClear (e : Eng) (val : Word) (s : State) : Host.Outcome State Fault Refusal :=
  .next (coreCmd s (taskClear · e val.toNat))

end Sys2Proof.Machine
end

