-- ==== Sys2Proof/Machine/Suite.lean ====
section
/-! DEFINITION. Suites (R43, R70-R73, R102) and rotating lockstep (R74-R76). -/

namespace Sys2Proof.Machine

/-! ### The suite bus -/

/-- The slice fields of a descriptor cover exactly the slices of the suite's members in its table (R43). -/
def slicesOk (s : State) (l t i : Nat) : Bool :=
  let d := descOf s t i
  let ps := ((membersOf s l).filter (fun m => tableOf m == t)).map (posOf s)
  d.wlog2 == 0 || (ps.length == d.cnt && ps.all (fun p => decide (d.first ≤ p) && decide (p < d.first + d.cnt)))

/-- The check of follower m's own table against the digest that the leader's decision q carries (R43), and its naming check (R35). -/
def followerDesc (s : State) (l m : Nat) (q : Play) : Bool :=
  sharedOf (descOf s (tableOf m) q.seg) == q.digest && slicesOk s l (tableOf m) q.seg && descCheck s m q.seg true (posOf s m)

/-- The check of follower m's own pair (R102, R124): the failing code and set. -/
def followerPair (s : State) (m : Nat) (p : Pend) : Option (Nat × Nat) :=
  let (a, b, f, _) := willUse (s.engine m) p m
  if m < 512 then pairCheck s f m a b else none

/-- Follower m takes the leader's naming q: its own slice and its own pantry copy, and the leader's pending settings (R72, R102);
the leader's marks stay the leader's. Of a conditional target each member looks to its own copies (R47). -/
def giveNaming (s : State) (m : Nat) (q : Play) (cond : Bool) : State :=
  let y := s.engine m
  let s1 := s.setEngine m { y with pend := { q.pend with marks := [] }, cond := cond, chainCyc := q.namedAt }
  let p := mkPlay (beforeWrites s1 (coreNow s)) m q.kind q.pc q.seg q.reps q.grans q.first
  let p' := { p with tt := q.tt, late := q.late, namedAt := q.namedAt, jmask := 0, jmaskAt := 0 }
  topUp (s1.modE m (fun z => { z with next := some p', pend := {}, cond := false, nextPc := (s.engine m).nextPc, nameCyc := q.namedAt })) m

/-- The leader's decision reaches the followers 6 core cycles after the naming (R72): a HALT halts them; a naming is checked in
each, and a disagreement is on its way back. -/
def suiteDecision (s0 : State) (l : Nat) : State :=
  match (s0.engine l).dec with
  | none => s0
  | some c =>
    let s := advanceCycle s0 (c + 6)
    let b := beforeWrites s (coreNow s)
    let x := s.engine l
    let fs := (membersOf s l).filter (· != l)
    let s1 := s.modE l (fun y => { y with dec := none })
    match x.next with
    | none => fs.foldl (fun u m => u.modE m (fun y => { y with halting := x.halting })) s1
    | some q =>
      let s2 := fs.foldl (fun u m => match followerPair b m q.pend with
        | some (code, set) => showPair u m code set
        | none => u) s1
      if slicesOk b l (tableOf l) q.seg && fs.all (fun m => followerDesc b l m q) then
        if fs.all (fun m => (followerPair b m q.pend).isNone) then fs.foldl (fun u m => giveNaming u m q q.cond) s2
        else s2.modE l (fun y => { y with disagree := some true })
      else s2.modE l (fun y => { y with disagree := some false })

/-- R72. -/
def execSuiteDecision (e : Eng) (s : State) : Host.Outcome State Fault Refusal := .next (suiteDecision s e)

/-- A disagreement reaches the leader 6 core cycles later (R43, R102): every member acts as under R35, with SEG_DESC recorded once
against the leader; a failed pair stops the naming as R124 stops it. -/
def suiteDisagree (s0 : State) (l : Nat) : State :=
  match (s0.engine l).disagree with
  | none => s0
  | some pair =>
    let s := advanceCycle s0 ((s0.engine l).nameCyc + 12)
    let ms := membersOf s l
    let seg := ((s.engine l).next.map (·.seg)).getD 0
    let pc := ((s.engine l).next.map (·.pc)).getD 0
    let s1 := s.modE l (fun y => { y with disagree := none })
    if arming s l then
      let s2 := if pair then s1 else fault s1 23 l .contained (tableOf l * 2 ^ 16 + seg)
      ms.foldl (fun u m => failArm u m 6) s2
    else if pair then
      let s2 := ms.foldl (fun u m => u.modE m (fun y => { y with
        halting := true, next := none, pend := {}, nextQueue := [], nextCmpQueue := [] })) s1
      fault s2 21 l .contained (2 * 2 ^ 28 + pc)
    else ms.foldl faultEngine (fault s1 23 l .contained (tableOf l * 2 ^ 16 + seg))

/-- R43. -/
def execSuiteDisagree (e : Eng) (s : State) : Host.Outcome State Fault Refusal := .next (suiteDisagree s e)

/-- A member entered LOST_CLOCK or FAULTED (R73): every other member with a running clock plays filler for 2 granules and parks at
its next granule boundary, and takes the failing member's state; a filler run in progress ends in that state, and members that do not play
take it at once. -/
def suiteMemberFail (s : State) (e : Nat) : State :=
  let st := est s e
  if (s.engine e).suite % 2 = 1 ∧ (st = stLost ∨ st = stFaulted) then
    let k : FillEnd := if st = stLost then .lostClock else .faulted
    ((membersOf s (leaderOf s e)).filter (· != e)).foldl (fun u m =>
      if arming u m then failArm u m 5
      else if est u m = stArmed then enterState (parkEngine u m) m st
      else if est u m = stHalted ∨ est u m = stAborted then enterState u m st
      else if running u m then
        match (u.engine m).fillEnd with
        | some (_, t) => u.modE m (fun y => { y with fillEnd := some (k, t) })
        | none => beginFillRun u m k (granuleEnd u m)
      else u) s
  else s

/-- R73. -/
def execSuiteMemberFail (e : Eng) (s : State) : Host.Outcome State Fault Refusal := .next (suiteMemberFail s e)

/-! ### Lockstep -/

/-- Number of the spare's physical slot in the room or quad of table t: the highest (R78). -/
def spareSlot (t : Nat) : Nat := if t < 32 then 16 else 4
/-- The physical slot that serves local engine k of table t (R24, R75). -/
def slotOf (s : State) (t k : Nat) : Nat := (((s.table t).slots.find? (fun x => x.1 == k)).map (·.2)).getD k
/-- The slot that shadows the others: the spare, or the retired slot that became a checker (R76). -/
def shadowSlot (s : State) (t : Nat) : Nat :=
  if s.f (F.lstep_word_mode t) = 0 then spareSlot t else s.f (F.lstep_word_retired_slot t)

/-- The room or quad runs without lockstep from now on (R76). -/
def lstepOff (s : State) (t : Nat) : State := (s.put (F.lstep_word_mode t) 2).modT t (fun x => { x with lsOn := false })

/-- The next visit of the round (R74): 1 ms after the last, on the infrastructure clock. The shadowing slot runs its self-test in
the gap; one that fails ends lockstep in the room or quad (R76). Nothing visits while it runs UNCHECKED. -/
def lockstepVisit (s0 : State) (t : Nat) (pass : Bool) : State :=
  if s0.f (F.lstep_word_mode t) = 2 then s0
  else
    let x := s0.table t
    let s := if x.lsAt = 0 then s0 else advanceNow s0 (x.lsAt + 1000 * usU)
    let k := x.lsNext
    let s1 := (s.put (F.lstep_word_visiting t) k).modT t (fun y => { y with lsNext := (k + 1) % spareSlot t, lsAt := s.clk.now, lsOn := pass })
    if pass then s1
    else if s1.f (F.lstep_word_mode t) = 0 then fault (lstepOff s1 t) 18 t .corrected (spareSlot t)
    else fault (lstepOff s1 t) 17 t .corrected (s1.f (F.lstep_word_retired_slot t))

/-- R74. -/
def execLockstepVisit (t : TableId) (bistPass : Bool) (s : State) : Host.Outcome State Fault Refusal :=
  .next (lockstepVisit s t bistPass)

/-- Engine number of local engine k of table t. -/
def engineOf (t k : Nat) : Nat := if t < 32 then 16 * t + k else 512 + 4 * (t - 32) + k

/-- Syndrome of ENG_LOCKSTEP (R75, log entry 44): the local engine number in [31:28], the signature difference in [27:0]. -/
def lockstepSyn (k : Nat) (diff : Word) : Nat := k % 16 * 2 ^ 28 + diff.toNat % 2 ^ 28

/-- A mismatch in the present visit (R75, R76). Against the spare: the spare takes over the visited engine, its slot retires and,
where it passes its self-test, becomes a checker. Against a checker: the visited engine is FAULTED and the checker retires. -/
def lockstepMismatch (s : State) (t : Nat) (diff : Word) (pass : Bool) : State :=
  if !(s.table t).lsOn then s
  else
    let k := s.f (F.lstep_word_visiting t)
    let s1 := s.countSat (F.lstep_word_mismatches t) 1
    if s.f (F.lstep_word_mode t) = 0 then
      let slot := slotOf s t k
      let s2 := ((s1.put (F.lstep_word_retired_valid t) 1).put (F.lstep_word_retired_slot t) slot).modT t (fun x =>
        { x with slots := x.slots.filter (fun y => y.1 != k) ++ [(k, spareSlot t)], lsOn := false })
      let s3 := fault s2 16 t .corrected (lockstepSyn k diff)
      if pass then s3.put (F.lstep_word_mode t) 1 else fault (lstepOff s3 t) 17 t .corrected slot
    else
      let e := engineOf t k
      let s2 := fault s1 16 t .contained (lockstepSyn k diff)
      lstepOff (if active3 s2 e then faultEngine s2 e else s2) t

/-- R75. -/
def execLockstepMismatch (t : TableId) (diff : Word) (slotBistPass : Bool) (s : State) : Host.Outcome State Fault Refusal :=
  .next (lockstepMismatch s t diff slotBistPass)

end Sys2Proof.Machine
end

