-- ==== Sys2Proof/Machine/Rows.lean ====
section
/-! DEFINITION. Requests as the store's arbiters see them (R205-R208), the rows that they open and activate (R211, R215). -/

namespace Sys2Proof.Machine

/-- n ns in clock units. -/
def nsU (n : Nat) : Nat := n * usU / 1000

/-- Class of a request as the arbiters see it (R207, R208): 2 RT, 1 FIRM, 0 BULK. -/
def effClass (r : Req) : Nat := if r.promo then 2 else r.cls

/-- Age of a request: it counts from its entry, but not while its stack admits none, in an operating-point change or without its clock
(R206, R240, R243). -/
def ageOf (s : State) (r : Req) : Nat :=
  let st := r.gran / 4 % 256 / 64
  (if stackUp s st then s.clk.now else tget (fun _ => 0) s.ctl.offAt st) - r.entered

/-- Urgency of another request by its age against its port's target (R206). -/
def ageUrgency (s : State) (r : Req) : Nat :=
  let t := nsU (max 100 (s.f (F.stPort_cfg_target r.port)))
  let a := ageOf s r
  if 4 * a < t then 0 else if 2 * a < t then 1 else if 4 * a < 3 * t then 2 else 3

/-- Urgency of a request, 0 to 3 (R206, R208). -/
def urgency (s : State) (r : Req) : Nat := if r.promo then 3 else if r.cls = 2 then r.urg else ageUrgency s r

/-- Number of the bank that a request goes to. -/
def reqBank (r : Req) : Nat := bankNo (pcOfGran r.gran) (bankOfGran r.gran)

/-- Physical row that a request reaches: one of its pseudo-channel's four spare rows, numbered from 16,384 on, where its row has been
remapped (R215, R221). -/
def physRow (s : State) (r : Req) : Nat :=
  let n := rowNo (pcOfGran r.gran) (bankOfGran r.gran) (rowOfGran r.gran)
  if s.ctl.remap.contains n then 16384 + (s.ctl.remap.filter (fun x => x / 16384 / 48 == pcOfGran r.gran)).findIdx (· == n)
  else rowOfGran r.gran

/-- The request hits the open row of its bank (R207, R211). -/
def rowHit (s : State) (r : Req) : Bool := tget (fun _ => 0) s.ctl.openRow (reqBank r) == physRow s r + 1

/-- A miss of equal class and urgency waits in the request's bank. -/
def missWaits (s : State) (all : List Req) (r : Req) : Bool :=
  all.any (fun q => reqBank q == reqBank r && !rowHit s q && effClass q == effClass r && urgency s q == urgency s r)

/-! ### Activates (R211, R215) -/

/-- Threshold in force (R215, R228). -/
def rhThreshold (s : State) : Nat := min 32768 (max 512 (s.f F.st_rhCfg_threshold))

/-- The entry with the least count, and of those the lowest row. -/
def leastRow : List (Nat × Nat) → Option (Nat × Nat)
  | [] => none
  | x :: xs => some (xs.foldl (fun a y => if y.2 < a.2 ∨ (y.2 = a.2 ∧ y.1 < a.1) then y else a) x)

/-- One activate of row r in a bank's table with its spill counter (R215). -/
def rhCount (tab : List (Nat × Nat)) (spill r : Nat) : List (Nat × Nat) × Nat :=
  if tab.any (fun x => x.1 == r) then (tab.map (fun x => if x.1 = r then (r, x.2 + 1) else x), spill)
  else if tab.length < 32 then (tab ++ [(r, spill + 1)], spill)
  else match leastRow tab with
    | some (r0, n) => (tab.filter (fun x => x.1 != r0) ++ [(r, n + 1)], n)
    | none => (tab, spill)

/-- Row r of bank b is activated (R215): at the threshold its neighbours are to be refreshed and its entry takes the spill value. -/
def activate (s : State) (b r : Nat) : State :=
  let (tab, spill) := match s.ctl.rows.find? (fun x => x.1 == b) with
    | some (_, t, k) => (t, k)
    | none => ([], 0)
  let (tab1, spill1) := rhCount tab spill r
  let hot := tab1.any (fun x => x.1 == r && decide (rhThreshold s ≤ x.2))
  let tab2 := if hot then tab1.map (fun x => if x.1 = r then (r, spill1) else x) else tab1
  { s with ctl := { s.ctl with
      rows := s.ctl.rows.filter (fun x => x.1 != b) ++ [(b, tab2, spill1)]
      pairs := if hot then s.ctl.pairs ++ [(b, r, 1), (b, r, 2)] else s.ctl.pairs } }

/-- Close the open row of bank b. -/
def closeRow (s : State) (b : Nat) : State := { s with ctl := { s.ctl with openRow := tset (fun _ => 0) s.ctl.openRow b 0 } }

/-- Serving a request to row r of bank b opens the row where it was not open, and leaves it by the port's page hint (R211). -/
def touchRow (s : State) (q : Req) (rest : List Req) : State :=
  let b := reqBank q
  let row := physRow s q
  let hit := rowHit s q
  let s1 := if hit then s else activate s b row
  let keep := decide (q.port < 50) || rest.any (fun x => reqBank x == b && physRow s x == row)
  let waits := missWaits s rest q
  let n := if hit && waits then tget (fun _ => 0) s.ctl.hits b + 1 else 0
  { s1 with ctl := { s1.ctl with
      openRow := tset (fun _ => 0) s1.ctl.openRow b (if keep then row + 1 else 0)
      lastUse := tset (fun _ => 0) s1.ctl.lastUse b s1.clk.now
      hits := tset (fun _ => 0) s1.ctl.hits b n } }

/-- A granule is read or written through a port whose request is served as it comes (log entry 18): its bank serves it as any request (R205,
R211, R215). A granule that is not the `first` of its access in its 256-byte unit belongs to the request of the one before. -/
def portServe (s : State) (port g : Nat) (first : Bool := true) : State :=
  if !first && g % 4 != 0 then s else touchRow s ⟨port, 576, false, false, if port < 50 then 1 else 0, g, 1, 0, none, 4, 0, s.clk.now, false, 0⟩
    (s.ctl.reqs.filter (fun q => pcOfGran q.gran == pcOfGran g))

end Sys2Proof.Machine
end

