-- ==== Sys2Proof/Machine/DescCmds.lean ====
section
/-! DEFINITION. Commands on segment descriptors and pantries (R33, R44-R48, R52). -/

namespace Sys2Proof.Machine

/-- A written word 2, reserved bits 0 (R32). -/
def ctlMask (v : Word) : Word := v &&& 0x77F#32
/-- A word 3 of a descriptor whose word 2 is ctl, reserved bits 0 (R32): a pin descriptor has no compare fields, a single-lane one no slice
fields. -/
def auxMask (ctl v : Word) : Word :=
  let a := if ctl.toNat % 8 = 0 then v &&& 0x0000FFFF#32 else v &&& 0x9FFFFFFF#32
  if ctl.toNat / 16 % 8 = 0 then a &&& 0xFFFF0000#32 else a &&& 0xFFFFFF7F#32

/-- A staged word with its tag (R33). -/
def descStage (s : State) (t i n : Nat) (v : Word) : State :=
  s.modT t (fun x => match n with
    | 0 => { x with st0 := some (i, v) }
    | 1 => { x with st1 := some (i, v) }
    | 3 => { x with st3 := some (i, v) }
    | _ => x)

/-- R33. -/
def execDescStage (t : TableId) (i : BitVec 14) (word : Fin 4) (val : Word) (s : State) : Host.Outcome State Fault Refusal :=
  .next (cfgCmd s (descStage · t i.toNat word val))

/-- Segment i is the declared filler of an armed or running engine of table t (R52). -/
def fillerUsed (s : State) (t i : Nat) : Bool := (enginesOf t).any (fun e => active3 s e && (s.engine e).filler == i)

/-- A staged word, where its tag is the committed index; else the committed word (R33). -/
def stagedOr (st : Option (Nat × Word)) (i : Nat) (old : Word) : Word :=
  match st with
  | some (j, w) => if j = i then w else old
  | none => old

/-- Store the words of a commit (R33): words 0, 1 and 3 staged for this index, and the RW fields of word 2; pin_state and pan_off are
the pantry's. -/
def putDesc (s : State) (t i : Nat) (v : Word) : State :=
  let x := s.table t
  let c := s.reg (R.seg_ctl t i)
  (((s.setReg (R.seg_base t i) (stagedOr x.st0 i (s.reg (R.seg_base t i)))).setReg (R.seg_len t i)
    (stagedOr x.st1 i (s.reg (R.seg_len t i)))).setReg (R.seg_aux t i) (auxMask v (stagedOr x.st3 i (s.reg (R.seg_aux t i))))).setReg
      (R.seg_ctl t i) ((c &&& ~~~0x77F#32) ||| ctlMask v)

/-- Note the words of descriptor i as they stood in the present core cycle (R34). -/
def noteDesc (s : State) (t i : Nat) : State :=
  noteOld (noteOld (noteOld (noteOld s (R.seg_base t i)) (R.seg_len t i)) (R.seg_ctl t i)) (R.seg_aux t i)

/-- Namings of segment i, or of a segment with it as companion, whose core cycle is still to come read the descriptor as it is now (R34). -/
def renameAll (s : State) (t i : Nat) : State :=
  (enginesOf t).foldl (fun u e => match (u.engine e).next with
    | some p => if p.seg = i ∨ p.cmp.map (·.1) = some i then renameLater u e else u
    | none => u) s

/-- The pantry takes part in a descriptor: resident, and not streaming (R48). -/
def pinned (d : Desc) : Bool := d.resident && !d.streaming

/-- A commit changes what a pantry copy holds (R46). -/
def copyChanged (a b : Desc) : Bool :=
  a.base != b.base || a.len != b.len || a.format != b.format || a.wlog2 != b.wlog2 || a.first != b.first || a.cnt != b.cnt

/-- A commit to the filler of an armed or running engine would take it away (R52). -/
def fillerTaken (a b : Desc) : Bool :=
  !b.valid || !b.filler || !b.resident || b.streaming || a.base != b.base || a.len != b.len || a.format != b.format || a.wlog2 != b.wlog2

/-- Clear a table's staging (R33). -/
def clearStage (s : State) (t : Nat) : State := s.modT t (fun x => { x with st0 := none, st1 := none, st3 := none })

/-- A commit of descriptor i (R33, R44, R46, R48, R52). A commit that R52 drops clears the staging as any commit does (log entry 46); reload
acts on a copy that is RESIDENT and that the commit keeps, else it has nothing to reload and is dropped (log entry 47). -/
def descCommit (s0 : State) (t i : Nat) (v : Word) : State :=
  let old := descOf s0 t i
  let s1 := clearStage (putDesc (noteDesc s0 t i) t i v) t
  let new := descOf s1 t i
  if fillerUsed s0 t i && fillerTaken old new then fault (clearStage s0 t) 24 t .contained i
  else
    let had := decide (old.pin = 1 ∨ old.pin = 2)
    let s2 := s1.when (new.streaming && new.resident) (·.raise (F.pan_stat_conflict t))
    let keep := had && pinned new && !copyChanged old new
    let s3 := if had && !keep then releaseSeg s2 t i else s2
    let s4 := if keep then s3
      else if pinned new then pinSeg s3 t i
      else (s3.put (F.seg_ctl_pin_state t i) 0).put (F.seg_ctl_pan_off t i) 0
    -- reload is a command bit (R32): it acts on the copy that the commit keeps, and a frozen domain drops it (R291)
    let s5 := renameAll s4 t i
    if v.getLsbD 11 then
      if frozen s5 then s5.raise F.regf_stat_frozen_wr
      else if keep && decide (old.pin = 2) then s5.put (F.seg_ctl_reload t i) 1 else s5
    else s5

/-- R33. -/
def execDescCommit (t : TableId) (i : BitVec 14) (val : Word) (s : State) : Host.Outcome State Fault Refusal :=
  .next (cfgCmd s (descCommit · t i.toNat val))

/-- A reload starts (R45, R52), and namings whose core cycle is still to come find the segment LOADING: into a fresh run; where none fits, into the same place if no play holds the copy, else the segment
is FAILED; a reload of a filler in use is then dropped. -/
def descReload (s : State) (t i : Nat) : State :=
  if !s.on (F.seg_ctl_reload t i) then s
  else
    let s1 := s.put (F.seg_ctl_reload t i) 0
    if s1.f (F.seg_ctl_pin_state t i) ≠ 2 then s1
    else
      match serving s1 t i with
      | none => s1
      | some c =>
        match panFit s1 t (panNeed (descOf s1 t i)) with
        | some u =>
          let s2 := s1.modT t (fun x => { x with copies := x.copies.map (fun y => if y.id == c.id then { y with state := 2 } else y) })
          dropHeld (renameAll (startLoad s2 t i true (some u)) t i) t i
        | none =>
          if fillerUsed s1 t i then s1.raise (F.pan_stat_pin_fail t)
          else if copyUsed s1 t c.id then renameAll (releaseSeg (pinFail s1 t i) t i) t i
          else
            let s2 := s1.modT t (fun x => { x with copies := x.copies.filter (fun y => y.id != c.id) })
            renameAll (panShow (startLoad s2 t i true (some c.unit)) t) t i

/-- R45. -/
def execDescReload (t : TableId) (i : BitVec 14) (s : State) : Host.Outcome State Fault Refusal := .next (coreCmd s (descReload · t i.toNat))

/-- Replace copy c of table t. -/
def setCopy (s : State) (t : Nat) (c : PanCopy) : State :=
  s.modT t (fun x => { x with copies := x.copies.map (fun y => if y.id == c.id then c else y) })

/-- Granules of a whole copy (R44). -/
def copyLen (c : PanCopy) : Nat := c.len * c.cnt

/-- The last granule of copy c is in place (R44, R45): its segment is RESIDENT, also for namings whose core cycle is still to come. -/
def finishLoad (s : State) (t : Nat) (c : PanCopy) : State :=
  let s1 := setCopy s t { c with state := 1 }
  renameAll (panShow ((s1.put (F.seg_ctl_pin_state t c.seg) 2).put (F.seg_ctl_pan_off t c.seg) (4 * c.unit)) t) t c.seg

/-- The next granule of copy c, as the store gave it (R44, R45): a granule that failed its code is kept poisoned. -/
def withGran (c : PanCopy) (d : Granule) (bad : Bool) : PanCopy :=
  { c with loaded := c.loaded + 1, data := tset (fun _ => (0 : Granule)) c.data c.loaded d
           poison := if bad then c.poison ++ [c.loaded] else c.poison }

/-- A granule of copy id reaches the pantry of table t: the next is asked for, until the last is in place (R44). -/
def loadGran (s : State) (t id : Nat) (d : Granule) (bad : Bool) : State :=
  match copyOf s t id with
  | none => s
  | some c =>
    if c.state ≠ 0 then s
    else
      let c' := withGran c d bad
      let s1 := (setCopy s t c').when bad (·.raise (F.pan_stat_poisoned t))
      if c'.loaded < copyLen c then askLoad s1 t c' else finishLoad s1 t c'

/-- Read n granules of a copy in order, each through its bank (R44, R45): the copy, and the state after it. -/
def loadRest (t : Nat) : Nat → PanCopy → State → PanCopy × State
  | 0, c, s => (c, s)
  | n + 1, c, s =>
    let g := copyGran c c.loaded
    let ((d, bad), s1) := readGran (portServe s t g) g
    loadRest t n (withGran c d bad) (monEvent (s1.when bad (·.raise (F.pan_stat_poisoned t))) (832 + stackOfGran g) 1)

/-- The load of segment i runs to its end (R44, R45): the granules still to come are read, and it is RESIDENT. -/
def pinLoadComplete (s : State) (t i : Nat) : State :=
  match (s.table t).copies.find? (fun c => c.seg == i && c.state == 0) with
  | none => s
  | some c =>
    if !(List.range (copyLen c)).all (fun o => stackUp s (stackOfGran (copyGran c o))) then s
    else
      let s1 := { s with ctl := { s.ctl with reqs := s.ctl.reqs.filter (fun r => !(r.use == 6 && r.port == t && r.ring == c.id)) } }
      let (c', s2) := loadRest t (copyLen c - c.loaded) c s1
      finishLoad s2 t c'

/-- R44. -/
def execPinLoadComplete (t : TableId) (i : BitVec 14) (s : State) : Host.Outcome State Fault Refusal :=
  .next (pinLoadComplete s t i.toNat)

/-- R46: a held copy of segment i that nothing holds any longer is released. -/
def execHeldCopyRelease (t : TableId) (i : BitVec 14) (s : State) : Host.Outcome State Fault Refusal :=
  .next (dropHeld s t i.toNat)

end Sys2Proof.Machine
end

