-- ==== Sys2Proof/Machine/Clocks.lean ====
section
/-! DEFINITION. PLLs and shutters (R230-R247), quad retunes reopening (R156), self-refresh and recovery of the stacks (R243). -/

namespace Sys2Proof.Machine

/-- Bound from the start of a search to the opening of the shutter, in microseconds (R234). -/
def pllBound (id : Nat) : Nat :=
  if id = 0 then 200 else if id ≤ 32 then 50 else if id ≤ 48 then 150 else if id ≤ 52 then 15 else 100

/-- The PLL's reference is present (R233, R239). -/
def refPresent (s : State) (id : Nat) : Bool :=
  if id = 0 then s.on F.clk_refStat_present && s.on F.clk_refStat_in_window else houseOpen s

/-- 256 cycles of the PLL's reference, in 1/196,608 beat (R234): REFCLK cycles of MUL/DIV beats, or HREF cycles of 64 beats. -/
def lockSpan (s : State) (id : Nat) : Nat :=
  if id = 0 then 256 * beatU * s.clk.mul / (max s.clk.div 1) else 256 * 64 * beatU

/-- A search starts (R234), not in the safe state (R270): now where the reference is present, else when it returns. -/
def startSearch (s : State) (id : Nat) : State :=
  let up := refPresent s id
  if inSafe s then s else
  (s.put (F.pll_stat_state id) (if up then 2 else 1)).modPll id (fun p => { p with
    since := s.clk.now, wait := if up then 1 else 2, qualAt := s.clk.now, rangeHold := false })

/-- The registers of an open shutter (R247). -/
def markOpen (s : State) (id : Nat) : State :=
  let s1 := (((s.put (F.pll_stat_open id) 1).put (shutBit id) 1).put (F.pll_stat_state id) 4).put (F.pll_stat_planned id) 0
  let s2 := s1.when (s.pllOf id).lossOpen (·.countSat (F.pll_losses_relocks id) 1)
  s2.modPll id (fun p => { p with wait := 0, lossOpen := false, rangeHold := false })

/-- House time starts or goes on at the opening of the house shutter (R107, R108): valid at once on a device that follows no other, a lone
device or the time root (log entry 48). A boot that waited for
REFCLK goes on, and its err returns to 0 (R362). -/
def startHouse (s : State) : State :=
  let s1 := { s.when (s.f F.id_bootStat_err == 2) (·.put F.id_bootStat_err 0) with clk := { s.clk with started := true } }
  let s2 := s1.put F.clk_oscStat_valid 1
  let s3 := s2.when (!s2.on F.time_stat_src) (·.put F.time_stat_valid 1)
  (List.range 61).foldl (fun u i => u.when (decide (0 < i) && (u.pllOf i).wait == 2) (startSearch · i)) s3

/-- Every quad that serves a member of engine f's suite has reopened (R102). -/
def suiteReopened (s : State) (f : Nat) : Bool :=
  (membersOf s (leaderOf s f)).all (fun m => decide (m < 512) || !s.on (F.xq_stat_retuning (quadOf m)))

/-- An engine whose retune is over starts its named play at the first boundary from the present instant (R156); its lane stays shuttered where
a later retune has left its rate outside the band. -/
def startRetuned (s : State) (f : Nat) : State :=
  let x := s.engine f
  match x.next with
  | none => s
  | some p =>
    let t := t16Now s
    let k := firstBoundary x.set x.epoch t
    let s1 := ((s.put (F.xl_xstat_shuttered (f - 512)) 0).modL f (fun l => { l with mode := .playing })).modE f (fun y =>
      { y with retune := false })
    placePlay (if inBand s (quadOf f) x.set.rate then s1 else shutLane s1 f) f p k (boundaryT x.set x.epoch k)

/-- Engine f is ABORTED at the reopening (R68, R157). -/
def abortRetuned (s : State) (f : Nat) : State :=
  let s1 := (s.put (F.eng_stat_arming f) 0).put (F.eng_stat_start_pending f) 0
  (enterState (parkEngine s1 f) f stAborted).put (F.eng_stat_abort_res f) 2

/-- A pending abort of engine f's suite acts at the reopening of its last quad: on every member (R68, R71, R157). -/
def abortSuite (s : State) (f : Nat) : State :=
  if suiteReopened s f then
    (membersOf s (leaderOf s f)).foldl (fun u m => if (u.engine m).abortPend then abortRetuned u m else u) s
  else s

/-- What one engine of a retuned quad does at the reopening (R156, R157): an arming engine primes from now on, a lane whose rate lies in
the band plays what falls due on its timeline. -/
def reopenRetuned (s : State) (f : Nat) : State :=
  let x := s.engine f
  if x.retuneArm then
    if x.abortPend then abortSuite s f else topUp (s.modE f (fun y => { y with retuneArm := false })) f
  else if x.retune && running s f then
    if x.abortPend then abortSuite s f
    else if !suiteReopened s f then s
    else (membersOf s (leaderOf s f)).foldl (fun u m => if (u.engine m).retune && running u m then startRetuned u m else u) s
  else if running s f ∧ (s.laneOf f).mode = .shuttered ∧ inBand s (quadOf f) x.set.rate then
    (endLoss s f (t16Now s)).modL f (fun l => { l with mode := .playing }) |>.put (F.xl_xstat_shuttered (f - 512)) 0
  else s

/-- The retuned quad PLL is locked and qualified (R156): its shutter reopens, not before 256 reference cycles without a short period
(R234, R236). -/
def quadReopen (s0 : State) (q : Nat) : State :=
  if s0.on (F.xq_stat_retuning q) && !pllOpen s0 (33 + q) && !inSafe s0 && houseOpen s0 then
    let s := advanceNow s0 ((s0.pllOf (33 + q)).qualAt + lockSpan s0 (33 + q))
    let s1 := (enginesOf (32 + q)).foldl reopenRetuned ((markOpen s (33 + q)).put (F.xq_stat_retuning q) 0)
    (enginesOf (32 + q)).foldl (fun u e => if clockOpen u e then reopenLane u e else u) s1
  else s0

/-- R156. -/
def execQuadReopen (q : Quad) (s : State) : Host.Outcome State Fault Refusal := .next (quadReopen s q)

/-- A PLL's shutter opens (R234): lock held, output in the window, reference present. -/
def shutterOpen (s0 : State) (id : Nat) : State :=
  let x := s0.pllOf id
  if s0.f (F.pll_stat_state id) ≠ 3 ∨ x.rangeHold ∨ !refPresent s0 id ∨ inSafe s0 then s0
  else
    let s := advanceNow s0 (x.qualAt + lockSpan s0 id)
    if 33 ≤ id ∧ id ≤ 48 ∧ s.on (F.xq_stat_retuning (id - 33)) then quadReopen s (id - 33)
    else
      let s1 := markOpen s id
      let s2 := if id = 0 then startHouse s1 else s1
      (if id = 0 then allEngines else pllEngines id).foldl (fun u e => if clockOpen u e then reopenLane u e else u) s2

/-- A PLL is lost (R239, R241): its shutter closes, the loss counts, and a search starts when its reference is there. -/
def markLost (s : State) (id cause : Nat) : State :=
  let s1 := ((closeShutter s id 2).put (F.pll_stat_planned id) 0).raise (F.pll_stat_lost id)
  let s2 := ((s1.put (F.pll_stat_cause id) cause).countSat (F.pll_losses_losses id) 1).when (cause == 3) (·.raise (F.pll_stat_overfreq id))
  let s4 := s2.modPll id (fun p => { p with lossOpen := true, lossAt := some (infraNow s) })
  if cause = 5 then (s4.put (F.pll_stat_state id) 1).modPll id (fun p => { p with wait := 2, since := s.clk.now })
  else startSearch s4 id

/-- A loss of PLL id stands from this very cycle: a second cause of the cycle is no second loss (R242). -/
def lostNow (s : State) (id : Nat) : Bool := (s.pllOf id).lossAt == some (infraNow s) && (s.pllOf id).lossOpen

/-- A stack loses its interface clock (R240, R243): it admits no requests; an operating-point change in progress ends. -/
def stackLost (s : State) (st : Nat) : State :=
  let s1 := (stackOff s st).put F.st_opStat_state 0
  { s1 with ctl := { s1.ctl with chg := [] } }

/-- A PLL that the house clock drives closes with it (R241): its shutter is open, or it is to open in a planned closure or a search; one
that is off, or that waits for its reference since an earlier loss, closes no more. -/
def cascades (s : State) (id : Nat) : Bool :=
  pllOpen s id || s.on (F.pll_stat_planned id) || decide (2 ≤ s.f (F.pll_stat_state id))

/-- PLL id's reference is withdrawn with the house clock (R241): cause CASCADE, once where it was lost in this very cycle (R242). -/
def cascade (s : State) (id : Nat) : State :=
  if lostNow s id then ((s.put (F.pll_stat_cause id) 5).put (F.pll_stat_state id) 1).modPll id (fun p => { p with wait := 2, since := s.clk.now })
  else if cascades s id then markLost s id 5
  else s

/-- A fabric port announces DOWN for its PLL, and records it (R240, R325). -/
def portPll (s : State) (p : Nat) : State :=
  let st := s.f (F.fport_stat_state p)
  if st = 0 ∨ st = 4 then s else fault (portAnnounceDown s p 4) 99 p .contained 4

/-- The other effects of the loss of PLL id (R240). -/
def lossEffects (s : State) (id : Nat) : State :=
  if id = 0 then
    let s1 := allEngines.foldl loseClock s
    let s2 := stopHouse s1
    let s3 := (List.range 60).foldl (fun u i => cascade u (i + 1)) s2
    let s4 := (List.range 48).foldl walkLost ((List.range 4).foldl stackLost s3)
    phaseRecovery ((List.range 8).foldl portPll s4)
  else if id ≤ 48 then walkLost ((enginesOf (id - 1)).foldl loseClock s) (id - 1)
  else if id ≤ 52 then phaseRecovery (stackLost s (id - 49))
  else portPll s (id - 53)

/-- A loss of PLL id with its record (R239, R240): PLL_UNLOCK for causes 1, 3 and 4, REF_LOSS for cause 2. -/
def losePll (s : State) (id cause : Nat) : State :=
  fault (lossEffects (markLost s id cause) id) (if cause = 2 then 2 else 1) id .contained (id + cause * 256)

/-- A PLL has not opened within its bound (R234): a loss with cause QUAL_TIMEOUT, and a new search. The house PLL held by the range
check is exempt. -/
def qualTimeout (s0 : State) (id : Nat) : State :=
  let x := s0.pllOf id
  if pllOpen s0 id || x.wait != 1 || x.rangeHold || inSafe s0 then s0
  else losePll (advanceNow s0 (x.since + pllBound id * usU)) id 4

/-- R234. -/
def execQualTimeout (id : PllId) (s : State) : Host.Outcome State Fault Refusal := .next (qualTimeout s id)

/-- Code of a cause that a detector finds (R239). -/
def lossCode : LossCause → Nat
  | .unlock => 1
  | .refLoss => 2
  | .overfreq => 3

/-- Which losses a detector finds (R239): a loss of reference wherever the PLL searches, holds lock or is closed by plan; a loss of lock
while it holds lock, but not in a planned closure or in the hold of R231 (R231, R238); a short period behind an open shutter (R236). -/
def detects (s : State) (id : Nat) : LossCause → Bool
  | .refLoss => pllOpen s id || decide (1 < s.f (F.pll_stat_state id)) || s.on (F.pll_stat_planned id)
  | .unlock => pllOpen s id ||
      s.f (F.pll_stat_state id) == 3 && !s.on (F.pll_stat_planned id) && !(s.pllOf id).rangeHold
  | .overfreq => pllOpen s id

/-- A loss of this cycle takes the lowest of its causes (R242). The causes of one cycle come lowest first, and the house PLL's loss before those
of the PLLs below it (DESIGN CHOICE, log entry 58). -/
def lowerCause (s : State) (id cause : Nat) : State :=
  if cause < s.f (F.pll_stat_cause id) then s.put (F.pll_stat_cause id) cause else s

/-- The reference of PLL id is gone until REFERENCE_PRESENT (R239). -/
def refGone (s : State) (id : Nat) : State :=
  let s1 := (s.put (F.pll_stat_state id) 1).modPll id (fun p => { p with wait := 3 })
  if id = 0 then
    let (w, u) := s1.draw
    (u.put F.clk_refStat_in_window 0).put F.clk_refStat_present (bitsOf w 0 1)
  else s1

/-- A detector finds a loss of PLL id (R239). -/
def pllLoss (s : State) (id : Nat) (c : LossCause) : State :=
  let cause := lossCode c
  if inSafe s then s
  else if lostNow s id then (lowerCause s id cause).when (cause == 2) (refGone · id)
  else if detects s id c then (losePll s id cause).when (cause == 2) (refGone · id)
  else s

/-- A PLL's search ends in fine lock (R234): QUALIFY, in a band. The house clock must lie within 3 % of 6.4 GHz, or the shutter stays
closed until the next accepted apply (R231). -/
def pllLock (s : State) (id band : Nat) (dev : Int) : State :=
  if s.f (F.pll_stat_state id) ≠ 2 ∨ inSafe s then s
  else
    let s1 := ((s.put (F.pll_stat_state id) 3).put (F.pll_stat_band id) band).modPll id (fun p => { p with qualAt := s.clk.now })
    if id = 0 ∧ (dev < -300 ∨ 300 < dev) then
      fault ((s1.raise F.clk_refStat_ratio_rej).modPll 0 (fun p => { p with rangeHold := true })) 3 0 .contained (unsigned 32 dev)
    else s1

/-- R231, R234. -/
def execPllLock (id : PllId) (band : BitVec 6) (dev : Int) (s : State) : Host.Outcome State Fault Refusal :=
  .next (pllLock s id band.toNat dev)

/-- A lost reference returns (R239): the PLL leaves NO_REF and starts a search. REF.FREQ takes the measured frequency, which the spec
leaves to the measurement. -/
def referencePresent (s : State) (id : Nat) : State :=
  if s.f (F.pll_stat_state id) ≠ 1 ∨ inSafe s ∨ (id ≠ 0 ∧ !houseOpen s) then s
  else
    let s1 := if id = 0 then
        let (w, u) := s.draw
        ((u.put F.clk_refStat_present 1).put F.clk_refStat_in_window 1).setReg R.clk_refFreq w
      else s
    startSearch s1 id

/-- R239. -/
def execReferencePresent (id : PllId) (s : State) : Host.Outcome State Fault Refusal := .next (referencePresent s id)

/-- A short period behind a closed shutter restarts the 256-cycle lock count, and nothing is recorded (R236). -/
def overfreqClosed (s : State) (id : Nat) : State :=
  if pllOpen s id then s else s.modPll id (fun p => { p with qualAt := s.clk.now })

/-- R236. -/
def execOverfreqWhileClosed (id : PllId) (s : State) : Host.Outcome State Fault Refusal := .next (overfreqClosed s id)

/-- A planned closure of PLL id (R238): not where it is already closed by a loss, whose loss stands. -/
def planClose (s : State) (id : Nat) : State :=
  if inSafe s then s else
  let lost := !pllOpen s id && (s.pllOf id).lossOpen
  let s1 := if lost then s else (closeShutter s id 2).put (F.pll_stat_planned id) 1
  startSearch s1 id

/-- A planned closure of the house shutter (R232, R238): house time stops, and every PLL below that is not off closes with it. -/
def planHouse (s : State) : State :=
  let s1 := stopHouse (planClose s 0)
  let s2 := (List.range 48).foldl stopWalk
    ((List.range 60).foldl (fun u i => if u.f (F.pll_stat_state (i + 1)) = 0 && !u.on (F.pll_stat_planned (i + 1)) then u
      else planClose u (i + 1)) s1)
  let s3 := (List.range 4).foldl stackOff s2
  (List.range 8).foldl portPll s3

/-- MUL and DIV of a valid pair (R230). -/
def validRatio (m d : Nat) : Bool := decide (8 ≤ m) && decide (1 ≤ d) && decide (8 * d ≤ m) && decide (m ≤ 640 * d)

/-- REF.CTL.apply (R232); in the safe state, which holds every shutter closed, nothing follows (R270). -/
def refApply (s : State) : State :=
  let busy := allEngines.any (fun e => active3 s e || arming s e)
  let m := s.f F.clk_refMul_n
  let d := s.f F.clk_refDiv_d
  let bad := !validRatio m d
  if inSafe s then s
  else if busy || bad then
    (s.when busy (·.raise F.clk_refStat_apply_err)).when bad (·.raise F.clk_refStat_ratio_rej)
  else
    planHouse { s with clk := { s.clk with mul := m, div := d } }

/-- R232. -/
def execRefApply (s : State) : Host.Outcome State Fault Refusal := .next (infraCmd s refApply)

/-- The fallback path puts stack st into self-refresh, within 1 us of its interface clock's closure (R243). -/
def selfRefresh (s : State) (st : Nat) : State :=
  if pllOpen s (49 + st) && houseOpen s then s
  else { s with ctl := { s.ctl with srf := s.ctl.srf.filter (· != st) ++ [st] } }

/-- R243. -/
def execStackSelfRefresh (st : Stack) (s : State) : Host.Outcome State Fault Refusal := .next (selfRefresh s st)

/-- Pseudo-channels of a stack. -/
def pcsOf (st : Nat) : List Nat := (List.range 64).map (fun k => 64 * st + k)

/-- The owed counts of a stack's banks return to 0 at self-refresh exit (R227, R243). -/
def clearOwed (s : State) (st : Nat) : State :=
  { s with ctl := { s.ctl with owed := s.ctl.owed.filter (fun x => x.1 / 48 / 64 != st) } }

/-- The centre that gathering found for a delay of a set (R224): within the window it replaces the value, else the delay keeps it, and this is
recorded with the delay's index. -/
def gatherCentre (s : State) (x : Nat) (c : DelayCentre) : State :=
  if 2816 ≤ c.word.val then s
  else
    let old : Int := s.f (F.dly_word_delay x c.stack c.word)
    let w : Int := s.f F.st_trainCtl_window
    if old - w ≤ c.centre ∧ c.centre ≤ old + w then s.put (F.dly_word_delay x c.stack c.word) (unsigned 8 (max 0 (min 255 c.centre)))
    else fault (s.raise F.st_trainStat_out_of_window) 67 c.stack .corrected c.word

/-- The stack's interface clock is back: it exits self-refresh, its delays of the set in force are gathered, command, address and write delays
too, and it admits requests (R224, R243). -/
def recoveryGather (s : State) (st : Nat) (cs : List DelayCentre := []) : State :=
  if pllOpen s (49 + st) && houseOpen s && !stackUp s st && s.f F.st_opStat_state == 0 && !inSafe s &&
      !s.boot.resets.any (fun b => b == .stack (Fin.ofNat 4 st)) then
    let s1 := clearOwed { s with ctl := { s.ctl with srf := s.ctl.srf.filter (· != st) } } st
    stackOn ((cs.filter (fun c => c.stack.val == st)).foldl (fun u c => gatherCentre u (u.f F.st_stat_point) c) s1) st
  else s

/-- R243. -/
def execStoreRecoveryGather (g : Gathering) (s : State) : Host.Outcome State Fault Refusal :=
  .next (recoveryGather s g.stack g.centres)

/-- The watchdog oscillator measures the infrastructure oscillator (R245, R246): beyond +-10 % it records OSC_FAIL. The field's deviation
shows in OSC.STAT while the house shutter is open. An oscillator that stops entirely, here a deviation
of -100 % (DESIGN CHOICE, log entry 74), records nothing and stops its ALIVE pin. -/
def oscFail (s0 : State) (sd : Side) (dev : Int) : State :=
  let s := s0.when (sd == .field && houseOpen s0 && !heldSide s0 .field) (·.put F.clk_oscStat_dev (unsigned 16 (max (-32768) (min 32767 dev))))
  if -1000 ≤ dev ∧ dev ≤ 1000 then s
  else if dev ≤ -10000 then s.modF sd (fun c => { c with dead := true })
  else recordRaw s sd 0 0 3 (BitVec.ofInt 32 dev) false

/-- R245. -/
def execOscFail (sd : Side) (dev : Int) (s : State) : Host.Outcome State Fault Refusal := .next (oscFail s sd dev)

end Sys2Proof.Machine
end

