-- ==== Sys2Proof/Machine/LaneCmds.lean ====
section
/-! DEFINITION. Commands on the lanes' registers: staged pairs (R128, R165, R286), timing and level sets (R122, R125, R135, R136),
configuration (R139), counters (R141), captures (R145), the level monitor (R148), equalisation (R152, R153), synchronisation
(R154, R160, R161) and judgements (R38, R41, R141-R144, R159, R162, R163). -/

namespace Sys2Proof.Machine

/-! ### Staged pairs -/

/-- Address of the low register of a staged pair (R128, R165, R195). -/
def pairLo : PairRef → Nat
  | .freq l => R.lt_freqLo l
  | .ofs l => R.lt_ofsLo l
  | .rate k => R.xl_rateLo k
  | .xofs k => R.xl_ofsLo k
  | .tmrStart i => R.tmr_startLo i
  | .tmrPeriod i => R.tmr_periodLo i

/-- A low half is staged (R286). -/
def stagedLo (s : State) (p : PairRef) (v : Word) : State :=
  { s with pairStage := s.pairStage.filter (fun x => x.1 != pairLo p) ++ [(pairLo p, v)] }

/-- R286. -/
def execStagedLoWrite (p : PairRef) (val : Word) (s : State) : Host.Outcome State Fault Refusal := .next (cfgCmd s (stagedLo · p val))

/-- START of timer i, and its PERIOD, in 2^-16 beat; a PERIOD below 16 beats is taken as 16 (R195). -/
def tmrStartT (s : State) (i : Nat) : Nat := absT s (s.pair (R.tmr_startLo i) (R.tmr_startHi i))
def tmrPeriodT (s : State) (i : Nat) : Nat :=
  max (16 * 2 ^ 16) ((s.f (F.tmr_periodLo_v i) + s.f (F.tmr_periodHi_whole_hi i) * 2 ^ 32) * 2 ^ 16 + s.f (F.tmr_periodHi_frac i))

/-- The first firing of a PERIODIC timer at or after the present core cycle (R195). -/
def tmrFirst (s : State) (i : Nat) : Nat :=
  let t := coreStart (coreNow s)
  let st := tmrStartT s i
  if t ≤ st then 0 else divUp (t - st) (tmrPeriodT s i)

/-- A write to a timer's CFG or a commit of START or PERIOD resets its state and CNT; a PERIODIC timer fires next at the first
instant at or after the cycle of the write (R195). -/
def tmrReset (s : State) (i : Nat) : State :=
  (s.setReg (R.tmr_cnt i) 0).modH (fun h => { h with
    tmr := h.tmr.filter (fun x => x.1 != i)
    tmrNext := h.tmrNext.filter (fun x => x.1 != i) ++ (if s.f (F.tmr_cfg_mode i) = 1 then [(i, tmrFirst s i)] else []) })

/-- The values a commit may not take: FREQ from 1 to 43,980 (R126), and RATE outside 1.25 to 58.0 Gbit/s (R165). -/
def pairBad (p : PairRef) (v : Nat) : Bool :=
  match p with
  | .freq _ => decide (1 ≤ v) && decide (v ≤ 43980)
  | .rate _ => decide (v < 1250000000) || decide (58000000000 < v)
  | _ => false

/-- Width of the high half of a pair (R128, R165, R195). -/
def pairHiBits : PairRef → Nat
  | .freq _ | .ofs _ | .xofs _ => 16
  | .rate _ => 4
  | .tmrStart _ | .tmrPeriod _ => 32

/-- A high half commits the pair with the low half staged since the last commit, or else the committed one (R286). -/
def stagedHi (s : State) (p : PairRef) (v : Word) : State :=
  let a := pairLo p
  let lo := match s.pairStage.find? (fun x => x.1 == a) with
    | some (_, w) => w
    | none => s.reg a
  let hi := BitVec.ofNat 32 (v.toNat % 2 ^ pairHiBits p)
  let s1 := { s with pairStage := s.pairStage.filter (fun x => x.1 != a) }
  if pairBad p (lo.toNat + hi.toNat * 2 ^ 32) then
    match p with
    | .freq l => s1.raise (F.lt_tstat_freq_rej l)
    | .rate k => s1.raise (F.xl_xstat_rate_rej k)
    | _ => s1
  else
    let s2 := (s1.setReg a lo).setReg (a + 4) hi
    match p with
    | .tmrStart i => tmrReset s2 i
    | .tmrPeriod i => tmrReset s2 i
    | _ => s2

/-- R286. -/
def execStagedHiCommit (p : PairRef) (val : Word) (s : State) : Host.Outcome State Fault Refusal := .next (cfgCmd s (stagedHi · p val))

/-! ### Timing and level sets -/

/-- The pending settings of the naming that has fixed engine e's next play by now (R125): its own naming, or its leader's that is on the
suite bus. -/
def namedPend (s : State) (e : Nat) : Option Pend :=
  match (s.engine e).next with
  | some q => if q.namedAt ≤ coreNow s then some q.pend else none
  | none => match (s.engine (leaderOf s e)).next with
    | some q => if isFollower s e && (s.engine (leaderOf s e)).dec.isSome && decide (q.namedAt ≤ coreNow s) then some q.pend else none
    | none => none

/-- Timing set i belongs to the pair of the play in progress or of the named play (R125). -/
def tsBusy (s : State) (l i : Nat) : Bool :=
  let x := s.engine l
  (x.play.isSome && (x.set.a == i || x.set.b == i)) ||
    (match namedPend s l with
      | some q => let ab := q.tset.getD (x.set.a, x.set.b); ab.1 == i || ab.2 == i
      | none => false)

/-- A word of a timing set or level set of lane l takes a value: a naming of this core cycle has the word before (R125), and one of a later
cycle is checked with the new one. -/
def putSetWord (s : State) (l a : Nat) (v : Word) : State := renameLater ((noteOld s a).setReg a v) l

/-- A write to word n of timing set i (0 FMT, 1-4 E0-E3) of lane l (R125, R126). -/
def timingSet (s : State) (l i n : Nat) (v : Word) : State :=
  if tsBusy s l i then fault (s.raise (F.lt_tstat_ts_busy l)) 25 l .contained i
  else if n = 0 then putSetWord s l (R.ts_fmt l i) (v &&& 0x13#32)
  else
    let o := signed 14 (bitsOf v 0 14)
    if o < -6553 ∨ 6553 < o then s.raise (F.lt_tstat_ts_rej l)
    else putSetWord s l (R.ts_e0 l i + 4 * (n - 1)) (v &&& 0xFFFF3FFF#32)

/-- R125. -/
def execTimingSetWrite (l : PinLane) (set : Fin 16) (word : Fin 5) (val : Word) (s : State) : Host.Outcome State Fault Refusal :=
  .next (cfgCmd s (timingSet · l set word val))

/-- Level set i of lane l is busy (R135). -/
def lsBusy (s : State) (l i : Nat) : Bool :=
  let x := s.engine l
  (x.play.isSome && x.set.lvl == i) ||
    (match namedPend s l with | some q => q.lvl.getD x.set.lvl == i | none => false) ||
    (s.f (F.le_cfg_park_lvl l) == i && active3 s l)

/-- A DRV word is legal (R130): in 0.25 mV, swing 400-3,200, vcm 800-3,600, and both legs from 100 to 1,000 mV. -/
def drvLegal (v : Word) : Bool :=
  let vcm := bitsOf v 16 12
  let sw := bitsOf v 0 12
  decide (400 ≤ sw) && decide (sw ≤ 3200) && decide (800 ≤ vcm) && decide (vcm ≤ 3600) &&
    decide (800 + sw ≤ 2 * vcm) && decide (2 * vcm + sw ≤ 8000)

/-- A THR word is legal (R132, R136): VTL at most VTH, both within +-1,000 mV. -/
def thrLegal (v : Word) : Bool :=
  let h := signed 16 (bitsOf v 16 16)
  let l := signed 16 (bitsOf v 0 16)
  decide (l ≤ h) && decide (-8000 ≤ l) && decide (l ≤ 8000) && decide (-8000 ≤ h) && decide (h ≤ 8000)

/-- A write to a word of level set i of lane l (R135, R136). -/
def levelSet (s : State) (l i : Nat) (thr : Bool) (v : Word) : State :=
  if lsBusy s l i then fault (s.raise (F.le_lstat_ls_busy l)) 35 l .contained i
  else if (if thr then thrLegal v else drvLegal v) then
    if thr then putSetWord s l (R.ls_thr l i) v else putSetWord s l (R.ls_drv l i) (v &&& 0x0FFF0FFF#32)
  else s.raise (F.le_lstat_ls_rej l)

/-- R135. -/
def execLevelSetWrite (l : PinLane) (set : Fin 8) (thr : Bool) (val : Word) (s : State) : Host.Outcome State Fault Refusal :=
  .next (cfgCmd s (levelSet · l set thr val))

/-! ### Lane configuration and counters -/

/-- The lane is parked with its engine IDLE, arming or not, HALTED, ABORTED or FAULTED (R54, R139). -/
def parkedIdle (s : State) (l : Nat) : Bool := (s.laneOf l).mode == .parked && !active3 s l && est s l != stLost

/-- A write of the loss choice: the choice before it stands for the rest of the present core cycle (R139). -/
def setLoss (s : State) (l v : Nat) : State :=
  s.modL l (fun x => { x with
    loss := v, lossWr := match x.lossWr with
      | some (c, w) => if c = coreNow s then some (c, w) else some (coreNow s, x.loss)
      | none => some (coreNow s, x.loss) })

/-- A write to the lane CFG register (R139): park = 3 drops it; loss acts in every state, park and termination at once on a lane that
is parked with its engine not armed. -/
def laneCfg (s : State) (l : Nat) (v : Word) : State :=
  if bitsOf v 0 2 = 3 then s.raise (F.le_lstat_cfg_rej l)
  else
    let s1 := s.setReg (R.le_cfg l) (v &&& 0x773#32)
    let s2 := setLoss s1 l (bitsOf v 8 1)
    if parkedIdle s l then (restLane s2 l).modL l (fun x => { x with term := bitsOf v 9 1 }) else s2

/-- R139. -/
def execLaneCfgWrite (l : PinLane) (val : Word) (s : State) : Host.Outcome State Fault Refusal := .next (cfgCmd s (laneCfg · l val))

/-- The clock of lane e's block is closed by a loss (R291, R296). -/
def frozenLane (s : State) (e : Nat) : Bool :=
  let id := pllOfTable (tableOf e)
  frozen s || (!pllOpen s id && (s.pllOf id).lossOpen)

/-- A command to the block of lane e: dropped while a loss has frozen it (R291). -/
def laneCmd (s : State) (e : Nat) (g : State → State) : State :=
  if heldSide s .field then s else if frozenLane s e then s.raise F.regf_stat_frozen_wr else g (wake s 1)

/-- R141. -/
def execCounterClear (e : Eng) (s : State) : Host.Outcome State Fault Refusal :=
  .next (laneCmd s e (clearCounts · e))

/-- UI between a transmit boundary of express lane e and the arrival of the received UI that is judged against it (R159); 0 on a pin
lane. -/
def loopUi (s : State) (e : Nat) : Int :=
  if e < 512 then 0 else (s.f (F.xl_synccfg_lat (e - 512)) : Int) + ((s.laneOf e).sync).getD 0

/-- The block of 8 UI that lane e was judging is over (R163). -/
def blkOver (s : State) (e : Nat) : Bool :=
  match (s.laneOf e).blk with
  | some (k, _) => !running s e || decide (boundaryT (s.engine e).set (s.engine e).epoch (k + 8 + loopUi s e) ≤ t16Now s)
  | none => false

/-- Records that wait for lane e fill its open granule; it is written when its fourth slot fills, 1 us after its last record, or once
the engine has left RUN and WAIT (R145). -/
def captureWrite (s0 : State) (e : Nat) : State :=
  let s := s0.when (blkOver s0 e) (flushBlk · e)
  let s1 := drainSome s e (4 - (s.laneOf e).capN % 4)
  if (s1.laneOf e).unwritten then
    flushOpen (if running s1 e then advanceCycle s1 ((s1.laneOf e).lastRec + 1200) else s1) e
  else s1

/-- R145. -/
def execCaptureGranuleWrite (e : Eng) (s : State) : Host.Outcome State Fault Refusal := .next (captureWrite s e)

/-! ### Level monitor -/

/-- MON.CTL.go of room n (R147, R148, R150): a reserved node or a measurement in progress drops it. -/
def monGo (s : State) (n : Nat) (v : Word) : State :=
  let s1 := s.setReg (R.mon_ctl n) (v &&& 0xFF1C#32)
  if s.on (F.mon_stat_busy n) || decide (5 ≤ bitsOf v 2 3) then s1.raise (F.mon_stat_cmd_err n)
  else s1.put (F.mon_stat_busy n) 1

/-- R148. -/
def execMonGo (n : Room) (val : Word) (s : State) : Host.Outcome State Fault Refusal := .next (coreCmd s (monGo · n val))

/-! ### Express lanes -/

/-- The TXEQ word in force on express lane k (R152). -/
def txNow (s : State) (k : Nat) : Word :=
  match (s.laneOf (512 + k)).txWr with
  | some (t, old) => if t16Now s < t then old else s.reg (R.xl_txeq k)
  | none => s.reg (R.xl_txeq k)

/-- V(n) in 1/64 mV under TXEQ word w, with the data values of UI n, of the one before and of the one after (R152). -/
def txOutput (w : Word) (b before after : Int) : Int :=
  let pre : Int := bitsOf w 0 5
  let post : Int := bitsOf w 8 5
  10 * (bitsOf w 16 7 : Nat) * ((64 - pre - post) * b - pre * after - post * before)

/-- Data value of a condition of the driver (R152): none of electrical idle. -/
def dataValue (c : Nat) : Int := if c = 1 then 1 else if c = 0 then -1 else 0

/-- Condition of express lane e in the first UI of the named play, where the play in progress ends in time for it. -/
def nextUi (s : State) (e : Nat) (p : Play) : Option Nat :=
  let x := s.engine e
  if !p.decided || x.fillEnd.isSome || x.holding then none
  else x.next.bind (fun q => (granIn s e x.nextQueue q 0).bind (fun g => if g.2 then none else some (txLevel s e (bitsOf g.1 0 1))))

/-- Differential output of express lane k at the present instant, in 1/64 mV (R152): 0 in electrical idle (R158). -/
def txWave (s : State) (k : Nat) : Int :=
  let e := 512 + k
  let x := s.engine e
  let d := driveNow s e
  let b := dataValue d
  if d = 2 then 0
  else match playing s e with
  | some p =>
    let n := phaseAt x.set x.epoch (t16Now s) / 2 ^ 64
    let last := p.k0 + (perGranule e * p.endAt : Nat) ≤ n + 1
    txOutput (txNow s k) b (dataValue (conditionAt s e p n))
      (dataValue ((if last then nextUi s e p else none).getD (conditionAt s e p (n + 2))))
  | none => txOutput (txNow s k) b b b

/-- A TXEQ write (R152): a valid one takes effect at the next UI boundary. -/
def txeq (s : State) (k : Nat) (v : Word) : State :=
  let amp := bitsOf v 16 7
  if amp < 20 ∨ 100 < amp ∨ 24 < bitsOf v 8 5 ∨ 16 < bitsOf v 0 5 then s.raise (F.xl_xstat_cfg_rej k)
  else
    let x := s.engine (512 + k)
    let t := boundaryT x.set x.epoch (firstBoundary x.set x.epoch (t16Now s + 1))
    (s.modL (512 + k) (fun l => { l with txWr := some (t, txNow s k) })).setReg (R.xl_txeq k)
      (v &&& 0x7F1F1F#32)

/-- R152. -/
def execTxeqWrite (k : XLane) (val : Word) (s : State) : Host.Outcome State Fault Refusal := .next (cfgCmd s (txeq · k val))

/-- The CTLE of express lane k adapts (R153). -/
def ctleAdapts (s : State) (k : Nat) : Bool := s.on (F.xl_rxeq_ctle_auto k) && !s.on (F.xl_rxeq_freeze k)
/-- The DFE taps of express lane k adapt (R153). -/
def dfeAdapts (s : State) (k : Nat) : Bool := s.on (F.xl_rxeq_dfe_en k) && !s.on (F.xl_rxeq_freeze k)
/-- The CTLE peaking in force (R153): while it adapts, a free value of the present instant. -/
def ctleNow (s : State) (k : Nat) : Nat :=
  if ctleAdapts s k then (Config.adapted s.clk.now (R.xl_rxstat k)).toNat else s.f (F.xl_rxstat_ctle_now k)
/-- DFE tap i in force (R153): while it adapts, a free value of the present instant. -/
def tapNow (s : State) (k i : Nat) : Nat :=
  if dfeAdapts s k then (Config.adapted s.clk.now (R.dfe_tap k i)).toNat else s.f (F.dfe_tap_tap k i)

/-- An RXEQ write takes effect at once (R153): what was adapting stands as it is where it no longer adapts, and a fixed CTLE value holds
unless freeze keeps the value in force. -/
def rxeq (s : State) (k : Nat) (v : Word) : State :=
  let s1 := s.put (F.xl_rxstat_ctle_now k) (ctleNow s k)
  let s2 := (List.range 8).foldl (fun u i => u.put (F.dfe_tap_tap k i) (tapNow s k i)) s1
  let s3 := s2.setReg (R.xl_rxeq k) (v &&& 0x10F11#32)
  s3.when (!s3.on (F.xl_rxeq_freeze k) && !s3.on (F.xl_rxeq_ctle_auto k)) (·.put (F.xl_rxstat_ctle_now k) (s3.f (F.xl_rxeq_ctle k)))

/-- R153. -/
def execRxeqWrite (k : XLane) (val : Word) (s : State) : Host.Outcome State Fault Refusal := .next (cfgCmd s (rxeq · k val))

/-- R161. -/
def execSyncLoss (k : XLane) (s : State) : Host.Outcome State Fault Refusal := .next (syncLoss s k)

/-- R154, R161: rx_idle, which ends synchronisation when it becomes 1. -/
def execRxIdleChange (k : XLane) (idle : Bool) (s : State) : Host.Outcome State Fault Refusal :=
  .next (let s1 := s.put (F.xl_xstat_rx_idle k) (bit idle)
         if idle then syncLoss s1 k else s1)

/-- Half-width of the search in force (R159, R165). -/
def searchWidth (s : State) (k : Nat) : Nat := min 32 (s.f (F.xl_synccfg_search k))

/-- The offset nearest 0, and the negative one of two equal distances (R160). -/
def nearest (os : List Int) : Option Int :=
  os.foldl (fun b o => match b with
    | none => some o
    | some c => if o.natAbs < c.natAbs ∨ (o.natAbs = c.natAbs ∧ o < c) then some o else some c) none

/-- Offsets completed a run of 64 unmasked UI in one UI (R160). -/
def syncAcquired (s : State) (k : Nat) (os : List Int) : State :=
  let e := 512 + k
  let w : Int := searchWidth s k
  match nearest (os.filter (fun o => decide (-w ≤ o) && decide (o ≤ w))) with
  | none => s
  | some o =>
    if (s.laneOf e).mode == .playing && (s.laneOf e).sync.isNone && (s.engine e).set.cmpm % 2 == 1 then
      ((s.modL e (fun l => { l with sync := some o })).put (F.xl_syncstat_offset k) (unsigned 7 o)).put (F.xl_xstat_sync k) 2
    else s

/-- R160. -/
def execSyncAcquired (k : XLane) (offsets : List Int) (s : State) : Host.Outcome State Fault Refusal :=
  .next (syncAcquired s k offsets)

/-- The locked offset moves to a neighbour (R161). -/
def syncSlip (s : State) (k : Nat) (up : Bool) : State :=
  let e := 512 + k
  match (s.laneOf e).sync with
  | none => s
  | some o =>
    let o' := if up then o + 1 else o - 1
    (((s.modL e (fun l => { l with sync := some o', slip := true })).put (F.xl_syncstat_offset k) (unsigned 7 o')).countSat
      (F.xl_syncstat_slip_cnt k) 1).raise (F.xl_xstat_slipped k)

/-- R161. -/
def execSyncSlip (k : XLane) (up : Bool) (s : State) : Host.Outcome State Fault Refusal := .next (syncSlip s k up)

/-! ### Judgements -/

/-- A vector that expects `exp` (bits [2:0] of its code, 4 to 7) fails on an observation (R38). A window that saw more than one state
met the fail condition of each compare state at some instant (DEDUCED, log entry 20). -/
def vectorFails (exp : Nat) : Observed → Bool
  | .low => exp == 5 || exp == 6
  | .high => exp == 4 || exp == 6
  | .mid => exp == 4 || exp == 5 || exp == 7
  | .mixed => true

/-- Code of an observation in a record (R144). -/
def obsCode : Observed → Nat
  | .low => 0
  | .high => 1
  | .mid => 2
  | .mixed => 3

/-- A play whose positions may be judged: the play in progress, or one that has ended (R137, R159). -/
structure JPlay where
  now : Bool
  w : PastPlay
  deriving DecidableEq, Repr

/-- The plays of engine e, newest first. -/
def jplays (s : State) (e : Nat) : List JPlay :=
  let x := s.engine e
  (x.play.map (fun p => JPlay.mk true ⟨p, x.set, [], []⟩)).toList ++ x.past.map (JPlay.mk false)

/-- Instant at which position n of a play comes to be judged: its boundary, on a pin lane later by the declared path deskew (R261), and on an
express lane by L UI (R159). -/
def judgeT (s : State) (e : Nat) (j : JPlay) (n : Nat) : Int :=
  boundaryT j.w.set (s.engine e).epoch (j.w.play.k0 + (n : Int) + loopUi s e) + (s.laneOf e).offv * 256

/-- The play to which a judgement of position n in the present core cycle belongs: that whose position comes nearest to the present
instant. -/
def playFor (s : State) (e n : Nat) : Option JPlay :=
  let far (j : JPlay) : Nat := (judgeT s e j n - (t16Now s : Int)).natAbs
  ((jplays s e).filter (fun j => decide (n < j.w.play.endAt * perGranule e))).foldl (fun b j => match b with
    | none => some j
    | some c => if far j < far c then some j else some c) none

/-- Data of granule g of a play, where the lane played them: not a granule replaced by filler or a hold, nor one that was missing, nor one
after the start of a filler run (R50, R138). -/
def judgedData (s : State) (e : Nat) (j : JPlay) (g : Nat) : Option Granule :=
  let p := j.w.play
  let x := s.engine e
  if p.endAt ≤ g then none
  else if !j.now then match j.w.queue.find? (fun q => q.1 == g) with
    | some (_, d, false) => some d
    | _ => none
  else if x.filled.contains g || isMissing s e p g || (match x.fillEnd with | some (_, t) => decide (t ≤ granT s e p g) | none => false) ||
      (x.holding && decide (p.due ≤ g)) then none
  else match granData s e p g with
    | some (d, false) => some d
    | _ => none

/-- House time of position n's boundary, in whole beats (R117, R144, R163). -/
def posBeat (s : State) (e : Nat) (w : PastPlay) (n : Nat) : Nat :=
  placedT w.set (s.engine e).epoch (w.play.k0 + (n : Int)) / 2 ^ 16 % 2 ^ 64

/-- A 48-bit counter at a pair of registers adds n and stops at 2^48 - 1 (R141). -/
def count48 (s : State) (a n : Nat) (sat : FRef) : State :=
  let v := s.pair a (a + 4) + n
  let top := 2 ^ 48 - 1
  ((s.putPair a (a + 4) (min v top)).noteHw ⟨a, 0, 32⟩ 0 n).when (decide (top ≤ v) && n != 0) (·.raise sat)

/-- The counters of lane e take j judgements and f fails (R141, R162). -/
def countJudged (s : State) (e j f : Nat) : State :=
  if e < 512 then count48 (count48 s (R.le_cmpLo e) j (F.le_lstat_cmp_sat e)) (R.le_failLo e) f (F.le_lstat_fail_sat e)
  else count48 (count48 s (R.xl_cmpLo (e - 512)) j (F.xl_xstat_cmp_sat (e - 512))) (R.xl_failLo (e - 512)) f (F.xl_xstat_fail_sat (e - 512))

/-- A fail record of a pin lane (R144). -/
def pinRecord (s : State) (e : Nat) (w : PastPlay) (n code : Nat) (o : Observed) : Record :=
  let set := if code / 8 % 2 = 1 then w.set.b else w.set.a
  BitVec.ofNat 128 (posBeat s e w n * 2 ^ 64 + n % 2 ^ 32 * 2 ^ 32 + w.play.seg % 2 ^ 14 * 2 ^ 18 + e % 512 * 2 ^ 9 + code / 8 % 2 * 256
    + code % 8 * 32 + obsCode o * 8 + bit (tsWindow s e set) * 4 + bit (s.laneOf e).gap * 2)

/-- Judgements of a pin lane in the present core cycle (R38, R137, R141-R143). -/
def judgePin (s : State) (e : Nat) (items : List Judged) : State :=
  let m := (s.engine e).set.cmpm
  let js := items.filterMap (fun i => (playFor s e i.pos).bind (fun j => match judgedData s e j (i.pos / 128) with
    | some d => let c := vcode d (i.pos % 128); if 4 ≤ c % 8 then some (i, c, j.w) else none
    | none => none))
  let fs := js.filter (fun x => vectorFails (x.2.1 % 8) x.1.obs)
  let s1 := if m / 2 % 2 = 1 then countJudged s e js.length fs.length else s
  let s2 := if m / 4 % 2 = 1 ∧ !fs.isEmpty then produce s1 (coreNow s + 6) (2304 + e) else s1
  if m / 8 % 2 = 1 ∧ 0 < (s2.laneOf e).capLen then
    fs.foldl (fun u x => queueRecord u e (pinRecord u e x.2.2 x.1.pos x.2.1 x.1.obs)) s2
  else s2

/-- Compare code of UI n of a play (R41): expect in bit 0, mask in bit 1; masked where the companion's granule is not there, came late
(R47) or is poisoned. -/
def compareCode (s : State) (e : Nat) (j : JPlay) (n : Nat) : Nat :=
  let p := j.w.play
  let g := n / 256
  let at_ (d : Granule) : Nat := bitsOf d (2 * (n % 256)) 2
  match p.cmp with
  | none => 2
  | some _ =>
    if j.now && (s.engine e).masked.contains (n / 512) then 2
    else if !j.now then match j.w.cmpQueue.find? (fun q => q.1 == g) with
      | some (_, d, false) => at_ d
      | _ => 2
    else
    match p.cmpCopy with
    | some (id, off) =>
      match copyOf s (tableOf e) id with
      | some c => let o := off + (if p.len = 0 then 0 else g % (2 * p.len))
                  if c.poison.contains o || tget (fun _ => 0) c.err o == 2 then 2 else at_ (tget (fun _ => (0 : Granule)) c.data o)
      | none => 2
    | none =>
      match (s.engine e).cmpQueue.find? (fun q => q.1 == g) with
      | some (_, d, false) => if queueErr (s.engine e) true g = 2 then 2 else at_ d
      | _ => 2

/-- A received UI: 1 for high, 0 for low (the operands of an express judgement), inverted under rx_inv as read at arm (R151, R153). -/
def received (s : State) (e : Nat) : Observed → Option Nat
  | .high => some (if (s.laneOf e).xcfg / 32 % 2 = 1 then 0 else 1)
  | .low => some (if (s.laneOf e).xcfg / 32 % 2 = 1 then 1 else 0)
  | _ => none

/-- A record of an express lane: block b of 8 UI with its failing UI; gap and slip are added when the block is over (R163). -/
def expressRecord (s : State) (e : Nat) (w : PastPlay) (b mask : Nat) : Record :=
  BitVec.ofNat 128 (posBeat s e w (8 * b) * 2 ^ 64 + 8 * b % 2 ^ 32 * 2 ^ 32 + mask % 256 * 2 ^ 24 + (e - 512) % 64 * 2 ^ 18
    + w.play.seg % 2 ^ 13 * 32)

/-- UI n of a play has been judged (R163): a block that it leaves behind is over, a fail joins its block's record, and the eighth UI ends
its block. -/
def blockUi (s : State) (e : Nat) (w : PastPlay) (n : Nat) (fails : Bool) : State :=
  let k : Int := w.play.k0 + ((n / 8 * 8 : Nat) : Int)
  let s1 := match (s.laneOf e).blk with
    | some (k', _) => if k' = k then s else flushBlk s e
    | none => s
  let old := match (s1.laneOf e).blk with
    | some (_, r) => r
    | none => 0
  let s2 := s1.when fails (·.modL e (fun l => { l with blk := some (k, old ||| expressRecord s e w (n / 8) (2 ^ (n % 8))) }))
  s2.when (n % 8 == 7) (flushBlk · e)

/-- Judgements of an express lane (R159, R162, R163): none while it is not synchronised. -/
def judgeExpress (s : State) (e : Nat) (items : List Judged) : State :=
  if (s.laneOf e).sync.isNone then s
  else
    let m := (s.engine e).set.cmpm
    let js := items.filterMap (fun i => (playFor s e i.pos).bind (fun j =>
      let c := compareCode s e j i.pos
      match received s e i.obs with
      | some r => if c < 2 ∧ (judgedData s e j (i.pos / 512)).isSome then some (i.pos, decide (r ≠ c), j.w) else none
      | none => none))
    let fs := js.filter (·.2.1)
    let s1 := if m / 2 % 2 = 1 then countJudged s e js.length fs.length else s
    let s2 := if m / 4 % 2 = 1 ∧ !fs.isEmpty then produce s1 (coreNow s + 6) (2304 + e) else s1
    if m / 8 % 2 = 1 ∧ 0 < (s2.laneOf e).capLen then js.foldl (fun u x => blockUi u e x.2.2 x.1 x.2.1) s2 else s2

/-- The judgements that fall in the present core cycle (R38, R141, R162): nothing is judged while compare is off, and nothing on a lane
that is parked, shuttered or in its loss state (R139, R140, R158). -/
def compareJudgement (s : State) (e : Nat) (items : List Judged) : State :=
  if (s.engine e).set.cmpm % 2 = 0 ∨ (s.laneOf e).mode ≠ .playing then s
  else if e < 512 then judgePin s e items else judgeExpress s e items

/-- R141, R162. -/
def execCompareJudgement (e : Eng) (items : List Judged) (s : State) : Host.Outcome State Fault Refusal :=
  .next (compareJudgement s e items)

end Sys2Proof.Machine
end

