-- ==== Sys2Proof/Machine/Rings.lean ====
section
/-! DEFINITION. Streaming rings (R167-R173, R178), the streaming phase (R179, R180), checked store writes and the BAR2 aperture
(R179, R315, R366). -/

namespace Sys2Proof.Machine

/-- The producer of ring r is told its RPTR (R172): the host in a STREAM_CREDIT, a fabric peer in a CREDIT. Not in a restricted
phase, and not for a ring that is not enabled. -/
def sendCredit (s : State) (r : Nat) : State :=
  if s.f F.rings_phase_phase ≠ 1 ∨ !s.on (F.ring_cfg_en r) then s
  else
    let d := ringDesc s r
    let rp := s.f (F.ring_rptr_p r)
    let s1 := { s with ctl := { s.ctl with cred := s.ctl.cred.filter (fun x => x.1 != r) ++ [(r, rp, none)] } }
    match s.f (F.ring_cfg_prod r) with
    | 1 => sendToHost s1 (.streamCredit (Fin.ofNat 256 r) (BitVec.ofNat 32 rp) (BitVec.ofNat 32 (rp + d.len)) (Fin.ofNat 8 d.wlog2))
    | 2 => fabSend s1 (some (s1.f (F.ring_peer_house r))) (.credit (Fin.ofNat 256 r) (BitVec.ofNat 32 rp) (s1.reg (R.ring_wptr r)))
    | _ => s1

/-- Credit for every enabled ring, at the return to NORMAL (R172). -/
def creditAll (s : State) : State := (List.range 256).foldl sendCredit s

/-- A credit update falls due (R172): at once where RPTR has advanced by credit_step, else 1 us after the first advance that has not
been reported. -/
def creditUpdate (s : State) (r : Nat) : State :=
  if s.f F.rings_phase_phase ≠ 1 ∨ !s.on (F.ring_cfg_en r) then s
  else match s.ctl.cred.find? (fun x => x.1 == r) with
    | none => sendCredit s r
    | some (_, v, t) =>
      let d := signed 32 ((s.f (F.ring_rptr_p r) + 2 ^ 32 - v) % 2 ^ 32)
      if d ≤ 0 then s
      else if (max 1 (s.f (F.ring_peer_credit_step r)) : Nat) ≤ d then sendCredit s r
      else sendCredit (advanceNow s (t.getD s.clk.now + usU)) r

/-- R172. -/
def execCreditUpdate (r : Fin 256) (s : State) : Host.Outcome State Fault Refusal := .next (creditUpdate s r)

/-- A CFG word may enable its ring (R167, R170). -/
def ringOk (s : State) (v : Word) : Bool :=
  let e := bitsOf v 14 10
  let i := bitsOf v 0 14
  let d := descOf s (tableOf e) i
  decide (bitsOf v 29 2 ≠ 3) && decide (e < 576) && decide (i < segCountN (tableOf e)) && d.valid && d.streaming && !d.resident &&
    !d.cmpEn && decide ((if e < 512 then 256 else 512) ≤ d.len)

/-- A write to RING[r].CFG (R167, R170, R178). -/
def ringCfg (s : State) (r : Nat) (v : Word) : State :=
  if ringActive s r then s.raise (F.ring_stat_wr_rej r)
  else if v.getLsbD 31 && !ringOk s v then s.raise (F.ring_stat_cfg_rej r)
  else
    let fresh := v.getLsbD 31 && !s.on (F.ring_cfg_en r)
    let s1 := s.setReg (R.ring_cfg r) (v &&& 0xE0FFFFFF)
    let s2 := { s1 with parts := s1.parts.filter (fun x => x.1 != r) }
    if fresh then sendCredit s2 r else s2

/-- R167. -/
def execRingCfgWrite (r : Fin 256) (val : Word) (s : State) : Host.Outcome State Fault Refusal := .next (cfgCmd s (ringCfg · r val))

/-- A write to WPTR or RPTR of ring r (R178): not while the ring is active; a hardware update of the same cycle wins. -/
def ringPtr (s : State) (r : Nat) (w : Bool) (v : Word) : State :=
  if ringActive s r then s.raise (F.ring_stat_wr_rej r)
  else if s.ctl.hwPtr.any (fun x => x.1 == r && x.2.1 == w && x.2.2 == coreNow s) then s.raise (F.ring_stat_wlost r)
  else
    let a := if w then R.ring_wptr r else R.ring_rptr r
    { s.setReg a v with ctl := { s.ctl with
      top := if w then s.ctl.top.filter (fun x => x.1 != r) else s.ctl.top
      swPtr := s.ctl.swPtr.filter (fun x => x.1 != r || x.2.1 != w) ++ [(r, w, coreNow s, s.reg a)] } }

/-- R178. -/
def execRingPtrWrite (r : Fin 256) (wptr : Bool) (val : Word) (s : State) : Host.Outcome State Fault Refusal :=
  .next (coreCmd s (ringPtr · r wptr val))

/-! ### Checked writes (R179) -/

/-- Write granule g through a port, counted at its stack (R211, R300). -/
def portWrite (s : State) (port g : Nat) (d : Granule) (first : Bool := true) : State :=
  monEvent (writeGran (portServe s port g first) g d) (836 + stackOfGran g) 1

/-- A write of granule g through a port (R179): it is made, or it is dropped and recorded. -/
def checkedWrite (s : State) (port g : Nat) (d : Granule) (first : Bool := true) : State :=
  match writeCheck s port g with
  | some t => t
  | none => portWrite (noteWrite s port g) port g d first

/-- A request for granule g is granted as it reaches its port (R207): its stack admits requests, and none other waits at its pseudo-channel
(log entry 18). -/
def pcIdle (s : State) (g : Nat) : Bool := stackUp s (stackOfGran g) && !s.ctl.reqs.any (fun r => pcOfGran r.gran == pcOfGran g)

/-! ### Stream granules (R171) -/

/-- Store granule of slice k of position p of ring r (R42, R168). -/
def slotGran (s : State) (r p k : Nat) : Nat :=
  let d := ringDesc s r
  d.base + (if d.len = 0 then 0 else p % d.len) * 2 ^ d.wlog2 + k

/-- Stream port through which ring r's producer writes (R170, R205). -/
def streamPort (s : State) (r : Nat) : Nat := if s.f (F.ring_cfg_prod r) = 2 then 49 else 48

/-- Write the granules of position p from slice k on. -/
def putSlices (r p : Nat) : List Granule → State → Nat → State
  | [], s, _ => s
  | d :: ds, s, k => putSlices r p ds (portWrite s (streamPort s r) (slotGran s r p k) d) (k + 1)

/-- n store granules of ring r are dropped, with a bit of STAT (R171). -/
def ringDrop (s : State) (r n : Nat) (b : FRef) : State := (s.countSat (F.ring_drop_n r) n).raise b

/-- The source is ring r's producer (R170). -/
def fromProducer (s : State) (r : Nat) : StreamSrc → Bool
  | .host => s.f (F.ring_cfg_prod r) == 1
  | .fabric h => s.f (F.ring_cfg_prod r) == 2 && s.f (F.ring_peer_house r) == h.val

/-- A hardware update of WPTR, noted for R178; the bound engine's port goes on prefetching. -/
def setWptr (s : State) (r p : Nat) : State :=
  let s1 := s.put (F.ring_wptr_p r) p
  let s2 := { s1 with ctl := { s1.ctl with
    hwPtr := s1.ctl.hwPtr.filter (fun x => x.1 != r || !x.2.1) ++ [(r, true, coreNow s)] } }
  (membersOf s2 (leaderOf s2 (s2.f (F.ring_cfg_engine r)))).foldl (fun u m => if running u m || arming u m then topUp u m else u) s2

/-- The position after the last that ring r's port has accepted, where some of its granules still wait for the store (R168). -/
def strmTop (s : State) (r : Nat) : Option Nat := (s.ctl.top.find? (fun x => x.1 == r)).map (·.2)

/-- Ring r's port has accepted the positions before t, of which some still wait. -/
def setTop (s : State) (r t : Nat) : State := { s with ctl := { s.ctl with top := s.ctl.top.filter (fun x => x.1 != r) ++ [(r, t)] } }

/-- The write request of slice granule i of an accepted position (R173, R205): FIRM, at the ring's stream port. -/
def strmReq (s : State) (r p i : Nat) (d : Granule) : Req :=
  ⟨streamPort s r, 576, false, false, 1, slotGran s r p i, 1, p, some d, 1, r, s.clk.now, false, 0⟩

/-- An accepted position is written (R171, R173): at once where its port's requests are granted as they come, and WPTR passes it; else its
granules wait at the port, and WPTR passes it when the store has them (R168). -/
def writePos (s : State) (r p : Nat) (data : List Granule) : State :=
  if (strmTop s r).isNone && (List.range data.length).all (fun i => pcIdle s (slotGran s r p i)) then
    setWptr (putSlices r p data s 0) r (p + 1)
  else
    { setTop s r ((p + 1) % 2 ^ 32) with ctl := { (setTop s r ((p + 1) % 2 ^ 32)).ctl with
      reqs := s.ctl.reqs ++ data.mapIdx (fun i d => strmReq s r p i d) } }

/-- A granule of ring r has reached the store (R168): WPTR passes the positions of which no granule waits any more. -/
def strmServed (s : State) (r : Nat) : State :=
  match strmTop s r with
  | none => s
  | some t =>
    match s.ctl.reqs.find? (fun q => q.use == 1 && q.ring == r) with
    | none => setWptr { s with ctl := { s.ctl with top := s.ctl.top.filter (fun x => x.1 != r) } } r t
    | some q => if q.idx = s.f (F.ring_wptr_p r) then s else setWptr s r q.idx

/-- A position that RPTR has passed arrives late (R171): the producer goes on behind it. -/
def passLate (s : State) (r p : Nat) : State :=
  match strmTop s r with
  | some t => if 0 < signed 32 ((p + 1 + 2 ^ 32 - t) % 2 ^ 32) then setTop s r ((p + 1) % 2 ^ 32) else s
  | none => if 0 < signed 32 ((p + 1 + 2 ^ 32 - s.f (F.ring_wptr_p r)) % 2 ^ 32) then setWptr s r (p + 1) else s

/-- The stream port judges position p of an enabled ring with its producer's whole data (R171): positions that it has accepted and that
wait for the store count as written. -/
def judgeRow (s : State) (r p : Nat) (data : List Granule) : State :=
  let d := ringDesc s r
  let wp := (strmTop s r).getD (s.f (F.ring_wptr_p r))
  let rp := s.f (F.ring_rptr_p r)
  let big := if signed 32 ((wp + 2 ^ 32 - rp) % 2 ^ 32) < 0 then rp else wp
  let rel := signed 32 ((p + 2 ^ 32 - rp) % 2 ^ 32)
  let w := 2 ^ d.wlog2
  if p = big ∧ rel < (d.len : Int) then writePos s r p data
  else if rel < 0 then passLate (s.countSat (F.ring_late_n r) w) r p
  else if (d.len : Int) ≤ rel then
    let s1 := if s.on (F.ring_stat_over r) then s else fault s 52 r .contained p
    ringDrop s1 r w (F.ring_stat_over r)
  else ringDrop s r w (F.ring_stat_seq_err r)

/-- Hardware updated WPTR of ring r in the present core cycle. -/
def wptrMoved (s : State) (r : Nat) : Bool := s.ctl.hwPtr.any (fun x => x.1 == r && x.2.1 && x.2.2 == coreNow s)

/-- The stream port judges position p (R171); where host software wrote WPTR in this cycle and the port updates it, the port's update stands
on the value before, and the write is discarded (R178). -/
def judgePos (s : State) (r p : Nat) (data : List Granule) : State :=
  match s.ctl.swPtr.find? (fun x => x.1 == r && x.2.1 && x.2.2.1 == coreNow s) with
  | none => judgeRow s r p data
  | some x =>
    let t := judgeRow (s.setReg (R.ring_wptr r) x.2.2.2) r p data
    if wptrMoved t r then { t.raise (F.ring_stat_wlost r) with ctl := { t.ctl with swPtr := t.ctl.swPtr.filter (· != x) } }
    else t.setReg (R.ring_wptr r) (s.reg (R.ring_wptr r))

/-- A restricted phase drops stream granules (R171); one that would have reached an active segment is recorded (R179). -/
def phaseDrop (s : State) (r n p k : Nat) : State :=
  let s1 := ringDrop s r n (F.ring_stat_phase_drop r)
  match ((List.range n).map (fun i => slotGran s r p (k + i))).find? (inActive s) with
  | some g => if (ringDesc s r).valid then fault s1 51 (streamPort s r) .contained g else s1
  | none => if (ringDesc s r).valid then (List.range n).foldl (fun u i => noteWrite u (streamPort s r) (slotGran s r p (k + i))) s1 else s1

/-- The first three steps of R171 for n granules, from slice k of position p on, that reach a stream port; else go on. -/
def streamGate (s : State) (r n p k : Nat) (src : StreamSrc) (g : State → State) : State :=
  if s.f F.rings_phase_phase ≠ 1 then phaseDrop s r n p k
  else if !s.on (F.ring_cfg_en r) then ringDrop s r n (F.ring_stat_dis_drop r)
  else if !fromProducer s r src then ringDrop s r n (F.ring_stat_seq_err r)
  else g s

/-- A whole position p of ring r reaches its stream port (R171); one with fewer or more granules than the ring's width is incomplete
(R341). -/
def streamGranule (s : State) (r p : Nat) (src : StreamSrc) (data : List Granule) : State :=
  streamGate s r data.length p 0 src (fun u =>
    if data.length = 2 ^ (ringDesc u r).wlog2 then judgePos u r p data
    else ringDrop u r data.length (F.ring_stat_seq_err r))

/-- Slices of a frame or packet (R305, R341): those of position p received so far are kept, until its last comes and it is judged. -/
def streamSlices (r : Nat) : List Granule → State → Nat → List Granule → State
  | [], s, _, _ => s
  | d :: ds, s, p, got =>
    let s1 := { s with parts := s.parts.filter (fun x => x.1 != r) }
    if got.length + 1 < 2 ^ (ringDesc s r).wlog2 then
      streamSlices r ds { s1 with parts := s1.parts ++ [(r, p, got ++ [d])] } p (got ++ [d])
    else streamSlices r ds (judgePos s1 r p (got ++ [d])) ((p + 1) % 2 ^ 32) []

/-- Granules of ring r arrive from slice k of position p (R305, R341): a position left incomplete by another is dropped, and so is a
position whose first slices did not come. -/
def streamArrive (s : State) (r p k : Nat) (src : StreamSrc) (data : List Granule) : State :=
  streamGate s r data.length p k src (fun u =>
    match u.parts.find? (fun x => x.1 == r) with
    | some (_, p', got) =>
      if p' = p ∧ got.length = k then streamSlices r data u p got
      else
        let v := ringDrop { u with parts := u.parts.filter (fun x => x.1 != r) } r got.length (F.ring_stat_seq_err r)
        if k = 0 then streamSlices r data v p [] else ringDrop v r data.length (F.ring_stat_seq_err r)
    | none => if k = 0 then streamSlices r data u p [] else ringDrop u r data.length (F.ring_stat_seq_err r))

/-- A frame of stream granules is judged: a STREAM_DATA frame's width against its ring's segment first (R305). -/
def streamFrame (s : State) (f : StreamFrame) : State :=
  if s.on (F.ring_cfg_en f.ring) && (match f.slog with | some k => (ringDesc s f.ring).wlog2 != k | none => false) then
    ringDrop s f.ring f.data.length (F.ring_stat_seq_err f.ring)
  else if f.whole then streamGranule s f.ring f.pos f.src f.data
  else streamArrive s f.ring f.pos f.slice f.src f.data

/-- Stream granules reach their port: they wake the device (R353). While a loss has frozen the core domain they wait, and none is lost
(R21, R173, R237). -/
def streamIn (s : State) (f : StreamFrame) : State :=
  if frozen s then { s with stalled := s.stalled ++ [f] }
  else streamFrame (wake s (match f.src with | .host => 4 | .fabric _ => 3)) f

/-- R171. -/
def execStreamGranule (r : Fin 256) (p : Word) (src : StreamSrc) (data : List Granule) (s : State) :
    Host.Outcome State Fault Refusal :=
  .next (streamIn s ⟨r, p.toNat, 0, none, true, src, data⟩)

/-- A PLL's shutter opens (R234); with the house clock the stream ports take what waited for it. -/
def shutterOpens (s : State) (id : Nat) : State :=
  let t := shutterOpen s id
  if frozen t || t.stalled.isEmpty then t else t.stalled.foldl streamFrame { t with stalled := [] }

/-! ### The streaming phase (R180) -/

/-- A request is dropped (R180). -/
def phaseErr (s : State) : State := s.raise F.rings_phase_req_err

/-- A request for a phase acts in the cycle after it is written (R179, R180). -/
def phaseReq (s : State) (dst : Nat) (allowed : State → Bool) : State :=
  let s1 := advanceCycle s (coreNow s + 1)
  if !s1.on F.rings_phase_test_forced && allowed s1 then
    let s2 := { s1.put F.rings_phase_phase dst with phaseAct := some (coreNow s1) }
    if dst = 1 then creditAll s2 else s2
  else phaseErr s1

/-- House firmware requests only RECOVERY (R180). -/
def byHost (req : Requester) : Bool := req != .firmware

/-- R180. -/
def execPhaseReqNormal (req : Requester) (s : State) : Host.Outcome State Fault Refusal :=
  .next (coreCmd s (phaseReq · 1 (fun u => byHost req && decide (2 ≤ u.f F.rings_phase_phase))))

/-- R180. -/
def execPhaseReqTest (req : Requester) (s : State) : Host.Outcome State Fault Refusal :=
  .next (coreCmd s (phaseReq · 2 (fun u => byHost req && u.f F.rings_phase_phase == 1)))

/-- R180. -/
def execPhaseReqRecovery (_req : Requester) (s : State) : Host.Outcome State Fault Refusal :=
  .next (coreCmd s (phaseReq · 3 (fun u => u.f F.rings_phase_phase == 1 || u.f F.rings_phase_phase == 2)))

/-- Factory test mode is entered (R180, R279): the phase is TEST and stays so. The one command stands for the JTAG instruction on the chain
of each side; a side held in reset does not take it, and a side's reset ends its mode (log entry 51). -/
def execFactoryTestEnter (s : State) : Host.Outcome State Fault Refusal :=
  let s := if heldSide s .host then s else { s with boot := { s.boot with hjtag := true } }
  .next (if heldSide s .field then s else
    let s0 := s.when (s.phaseAct == some (coreNow s)) (·.raise F.rings_phase_req_err)
    let s1 := (s0.put F.rings_phase_test_forced 1).put F.rings_phase_phase 2
    { s1 with boot := { s1.boot with jtag := true } })

/-! ### The aperture (R315, R366) -/

/-- Size of the store in bytes (R315). -/
def storeBytes : Nat := 64 * storeGranules

/-- BAR2 reaches the field side (R310, R355): the porch is up and the function decodes its BARs. -/
def aperOpen (s : State) : Bool := porchUpH s && porchUpF s && s.porch.pcie && !s.porch.d3

/-- The store is not yet to be accessed (R366): refused, with early_acc. -/
def storeEarly (s : State) : Bool := decide (s.f F.id_bootStat_stage < 7)

/-- All-ones data. -/
def allOnes (n : Nat) : List (BitVec 8) := List.replicate n 0xFF

/-- Byte i of a granule (R6). -/
def granByte (d : Granule) (i : Nat) : BitVec 8 := d.extractLsb' (8 * i) 8

/-- Read the granules g .. g + n - 1 through the code (R219, R220), one request for each 256-byte unit (R205, R211). -/
def readGrans (first : Bool) : Nat → State → Nat → List (Granule × Bool) × State
  | 0, s, _ => ([], s)
  | n + 1, s, g =>
    let (x, s1) := readGran s g
    let (xs, s2) := readGrans false n (monEvent (portServe s1 52 g first) (832 + stackOfGran g) 1) (g + 1)
    (x :: xs, s2)

/-- The bytes [a, a + n) from the granules that hold them. -/
def bytesOf (xs : List (Granule × Bool)) (a n : Nat) : List (BitVec 8) :=
  ((xs.flatMap (fun x => (List.range 64).map (granByte x.1))).drop (a % 64)).take n

/-- An access to the n bytes at a is served as it comes: port 52 holds no other, and each of its requests is granted at once (R205, R227). -/
def aperIdle (s : State) (a n : Nat) : Bool :=
  s.porch.wait.isEmpty && !frozen s && (List.range ((a + n - 1) / 64 - a / 64 + 1)).all (fun k => pcIdle s (a / 64 + k))

/-- The bytes [a, a + n) of the store, and whether a granule of them is poisoned (R315). -/
def readBytes (s : State) (a n : Nat) : List (BitVec 8) × Bool × State :=
  let g0 := a / 64
  let (xs, s1) := readGrans true ((a + n - 1) / 64 - g0 + 1) s g0
  (bytesOf xs a n, xs.any (·.2), s1)

/-- A BAR2 read returns data to the host, with a completion status: 0 normal, 1 with the EP bit, 2 UR. -/
def aperReturn (s : State) (d : List (BitVec 8)) (st : Fin 3) : State := s.modP (fun p => { p with aper := p.aper ++ [(d, st)] })

/-! The register messages of the host end (R314): a BAR2 access whose frames no earlier access precedes is carried out with its frames in
one command; one that finds earlier accesses under way, or a store that does not serve it at once (R227, R237), goes as frames of its own
(log entry 50). -/

/-- Register messages in flight (R314). -/
def inFlight (s : State) : Nat := s.porch.reads.length + s.porch.writes

/-- The host tile sends a register message, and keeps its tag or counts the write. -/
def launch (s : State) (m : Msg) : State :=
  match m with
  | .regRd tag sp n _ =>
    (sendToField s m).modP (fun p => { p with reads := p.reads ++ [(tag, match sp with | .bar0 => none | .store => some n)] })
  | _ => (sendToField s m).modP (fun p => { p with writes := p.writes + 1 })

/-- A register message goes out, or waits for one of the 64 in flight (R314). -/
def offer (s : State) (m : Msg) : State :=
  if inFlight s < 64 ∧ s.porch.held.isEmpty then launch s m else s.modP (fun p => { p with held := p.held ++ [m] })

/-- No access of the host is under way on the porch. -/
def settled (s : State) : Bool := s.porch.reads.isEmpty && s.porch.writes == 0 && s.porch.held.isEmpty

/-- A tag that no read under way holds. -/
def freeTag (s : State) : BitVec 8 :=
  let used (k : Nat) : Bool := s.porch.reads.any (fun x => x.1.toNat == k) ||
    s.porch.held.any (fun m => match m with | .regRd tag _ _ _ => tag.toNat == k | _ => false)
  BitVec.ofNat 8 ((firstBelow 256 (fun k => !used k)).getD 0)

/-- The store messages of n bytes at a (R314): at most 256 bytes each, split at 256-byte boundaries. -/
def storePieces : Nat → Nat → Nat → List (Nat × Nat)
  | 0, _, _ => []
  | fuel + 1, a, n => if n = 0 then [] else
    let k := min n (256 - a % 256)
    (a, k) :: storePieces fuel (a + k) (n - k)

/-- The pieces of an access. -/
def piecesOf (a n : Nat) : List (Nat × Nat) := storePieces (n / 256 + 2) a n

/-- Request frames and their completions cross the porch within one command. -/
def crossFrames (s : State) (k : Nat) : State :=
  (monEvent (monEvent s 918 k) 917 k).modP (fun p => { p with seqH := p.seqH + BitVec.ofNat 16 k, seqF := p.seqF + BitVec.ofNat 16 k })

/-- A BAR2 read of len bytes at offset off (R314, R315). -/
def aperRead (s0 : State) (off len : Nat) : State :=
  let a := s0.f F.hif_aperBase_base * 2 ^ 20 + off
  let ps := piecesOf a len
  let s := crossFrames s0 ps.length
  if s0.porch.d3 || !s0.porch.pcie then s0
  else if !aperOpen s0 then aperReturn s0 (allOnes len) 0
  else if !settled s0 || decide (a + len ≤ storeBytes) && !storeEarly s && !aperIdle s0 a len then
    ps.foldl (fun u x => offer u (.regRd (freeTag u) .store x.2 (BitVec.ofNat 40 x.1))) s0
  else if storeBytes < a + len then aperReturn (s.raise F.hif_aperStat_range) (allOnes len) 2
  else if storeEarly s then aperReturn (s.raise F.id_bootStat_early_acc) (allOnes len) 0
  else
    let (d, bad, s1) := readBytes s a len
    if bad then aperReturn (s1.raise F.hif_aperStat_poisoned) (allOnes len) 1 else aperReturn s1 d 0

/-- R315. -/
def execAperRead (off : BitVec 30) (len : Nat) (s : State) : Host.Outcome State Fault Refusal :=
  .next (aperRead (if aperOpen s && settled s then wake s 1 else s) off.toNat len)

/-- Granule of 64 bytes, the lowest first (R6). -/
def granOf (bs : List (BitVec 8)) : Granule := BitVec.ofNat 512 ((bs.take 64).foldr (fun b a => b.toNat + 256 * a) 0)

/-- Write whole granules from g on through a port, each under R179, one request for each 256-byte unit (R205). -/
def writeGrans (first : Bool) : Nat → State → Nat → Nat → List (BitVec 8) → State
  | 0, s, _, _, _ => s
  | n + 1, s, port, g, bs => writeGrans false n (checkedWrite s port g (granOf bs) first) port (g + 1) (bs.drop 64)

/-- A BAR2 write at offset off (R314, R315, R366). -/
def aperWrite (s0 : State) (off : Nat) (data : List (BitVec 8)) : State :=
  let a := s0.f F.hif_aperBase_base * 2 ^ 20 + off
  let ps := piecesOf a data.length
  let s := crossFrames s0 ps.length
  if !aperOpen s0 then s0
  else if a % 64 ≠ 0 ∨ data.length % 64 ≠ 0 then s0.raise F.hif_aperStat_part_wr
  else if !settled s0 || decide (a + data.length ≤ storeBytes) && !storeEarly s && !aperIdle s0 a data.length then
    ps.foldl (fun u x => offer u (.regWr (freeTag u) .store (BitVec.ofNat 40 x.1) ((data.drop (x.1 - a)).take x.2))) s0
  else if storeBytes < a + data.length then s.raise F.hif_aperStat_range
  else if storeEarly s then s.raise F.id_bootStat_early_acc
  else writeGrans true (data.length / 64) s 52 (a / 64) data

/-- R315. -/
def execAperWrite (off : BitVec 30) (data : List (BitVec 8)) (s : State) : Host.Outcome State Fault Refusal :=
  .next (aperWrite (if aperOpen s && settled s then wake s 1 else s) off.toNat data)

end Sys2Proof.Machine
end

