-- ==== Sys2Proof/Machine/Counters.lean ====
section
/-! DEFINITION. Monitor counters (R300, R301): controls, running totals and their registers. -/

namespace Sys2Proof.Machine

/-- Total of a source that grows with time, at the end of core cycle c (R300): granules that an engine has played, cycles of the core
clock, beats. -/
def monTotal (s : State) (src c : Nat) : Option Nat :=
  let h := (c + 1) * coreU
  if 256 ≤ src ∧ src < 832 then some ((s.engine (src - 256)).played + dataGransAt s (src - 256) (coreStart (c + 1) - 1))
  else if src = 920 then some (s.clk.coreN + divUp (h - s.clk.coreAt) (cycleU s))
  else if src = 921 then some (h / beatU)
  else none

/-- Bring VAL of a running counter up to the end of the present core cycle, where its source is a running total. -/
def monSync (s : State) (i : Nat) : State :=
  let m := s.monOf i
  match monTotal s (s.f (F.mcnt_cfg_src i)) (coreNow s) with
  | some t =>
    if s.on (F.mcnt_stat_running i) && decide (m.base < t) then
      (setMonVal s i (monVal s i + (t - m.base))).modMon i (fun x => { x with base := t })
    else s
  | none => s

/-- Start counter i: it counts from the next cycle on, unless a stop acts in this one (R301). -/
def monStart (s : State) (i : Nat) : State :=
  if s.on (F.mcnt_stat_running i) || (s.monOf i).stopC == coreNow s && (s.monOf i).startC != 0 then s
  else (s.put (F.mcnt_stat_running i) 1).modMon i (fun x => { x with
    startC := coreNow s, base := (monTotal s (s.f (F.mcnt_cfg_src i)) (coreNow s)).getD 0 })

/-- Stop counter i: it still counts the events of this cycle (R301). -/
def monStop (s : State) (i : Nat) : State :=
  ((monSync s i).put (F.mcnt_stat_running i) 0).modMon i (fun x => { x with stopC := coreNow s, startC := max x.startC 1 })

/-- Snapshot of counter i, the events of this cycle included (R301). -/
def monSnap (s : State) (i : Nat) : State :=
  let s1 := monSync s i
  (s1.putPair (R.mcnt_snapLo i) (R.mcnt_snapHi i) (monVal s1 i)).modMon i (fun x => { x with snapC := some (coreNow s) })

/-- Clear VAL of counter i: what this cycle counts is then added (R285, R301). -/
def monClear (s : State) (i : Nat) : State :=
  let s1 := monSync s i
  let m := s1.monOf i
  let c := coreNow s
  let here := match monTotal s (s.f (F.mcnt_cfg_src i)) c, monTotal s (s.f (F.mcnt_cfg_src i)) (c - 1) with
    | some a, some b => if s.on (F.mcnt_stat_running i) && decide (m.startC < c) then a - b else 0
    | _, _ => if m.cyc = c then m.cycN else 0
  s1.putPair (R.mcnt_valLo i) (R.mcnt_valHi i) here

/-- A write to CFG of counter i (R301): it takes effect in the next cycle and leaves VAL and the running state. -/
def monCfg (s : State) (i : Nat) (v : Word) : State :=
  let s1 := (noteOld (monSync s i) (R.mcnt_cfg i)).setReg (R.mcnt_cfg i) (v &&& 0xFFFFC3FF)
  s1.modMon i (fun x => { x with base := (monTotal s1 (s1.f (F.mcnt_cfg_src i)) (coreNow s1)).getD 0 })

/-- R301. -/
def execMcntStart (i : Fin 256) (s : State) : Host.Outcome State Fault Refusal := .next (coreCmd s (monStart · i))
/-- R301. -/
def execMcntStop (i : Fin 256) (s : State) : Host.Outcome State Fault Refusal := .next (coreCmd s (monStop · i))
/-- R301. -/
def execMcntSnap (i : Fin 256) (s : State) : Host.Outcome State Fault Refusal := .next (coreCmd s (monSnap · i))
/-- R301. -/
def execMcntClr (i : Fin 256) (s : State) : Host.Outcome State Fault Refusal := .next (coreCmd s (monClear · i))

/-- Monitor control line n is pulsed (R186, R301). -/
def pulseMcl (s : State) (n : Nat) : State :=
  (List.range 256).foldl (fun u i =>
    let c := coreNow u
    let w := matWord u c (R.mcnt_cfg i)
    let hit (lo en : Nat) : Bool := w.getLsbD en && bitsOf w lo 5 == n
    ((u.when (hit 20 25) (monStop · i)).when (hit 14 19) (monStart · i)).when (hit 26 31) (monSnap · i)) s

end Sys2Proof.Machine
end

