-- ==== Sys2Proof/Machine/Hallway.lean ====
section
/-! DEFINITION. The hallway's commands: deliveries, groups, timers, trigger pins, exports and imports (R185-R202). -/

namespace Sys2Proof.Machine

/-- Bit n of NTASK.MERGED is set and NTASK.COINC[n] adds one (R188). -/
def mergeNt (s : State) (n : Nat) : State := (s.raise ⟨R.ntMerged_word (n / 32), n % 32, 1⟩).count (F.ntCoinc_n_count n) 1

/-! ### Imports and exports (R200, R201) -/

/-- This device may take and send hallway events over the fabric (R200, R201). -/
def eventsOk (s : State) : Bool := s.on F.time_stat_valid && !s.on F.fab_stat_guest

/-- An event for import j with apply cycle c is decoded (R201). -/
def importEvent (s : State) (j c : Nat) : State :=
  if !eventsOk s then (s.raise (F.imp_stat_dropped j)).countSat (F.imp_drop_n j) 1
  else if c ≤ coreNow s then
    let s1 := if s.on (F.imp_stat_late j) then s else fault s 81 j .corrected (coreNow s + 1 - c)
    produce ((s1.raise (F.imp_stat_late j)).countSat (F.imp_late_n j) 1) (coreNow s + 1) (2896 + j)
  else if s.hall.imp.contains (j, c) then s.raise (F.imp_stat_merged j)
  else if 8 ≤ (s.hall.imp.filter (fun x => x.1 == j)).length then (s.raise (F.imp_stat_ovf j)).countSat (F.imp_drop_n j) 1
  else s.modH (fun h => { h with imp := h.imp ++ [(j, c)] })

/-- Export j receives an arrival whose channel was formed in grid cycle f (R200). -/
def exportEvent (s : State) (j f : Nat) : State :=
  if !s.on (F.exp_cfg_en j) then s
  else if !eventsOk s then s.count (F.exp_unsent_n j) 1
  else
    let c := f + s.f F.hall_fabLead_lead
    let dest := if s.on (F.exp_cfg_bcast j) then none else some (s.f (F.exp_cfg_dest j))
    let s1 := s.count (F.exp_sent_n j) 1
    let s2 := fabSend s1 dest (.event (Fin.ofNat 64 (s1.f (F.exp_cfg_imp j))) (BitVec.ofNat 58 c))
    if s2.on (F.exp_cfg_self j) then importEvent s2 (s2.f (F.exp_cfg_imp j)) c else s2

/-- An EVENT packet is decoded (R201): it wakes the device (R353), whose hallway keeps running meanwhile. -/
def execEventPacket (_src : House) (imp : Fin 64) (cycle : Nat) (s : State) : Host.Outcome State Fault Refusal :=
  .next (wake (importEvent s imp cycle) 3)

/-- The earliest pending event of import j applies (R201). -/
def importApply (s : State) (j : Nat) : State :=
  match ((s.hall.imp.filter (fun x => x.1 == j)).map (·.2)).min? with
  | some c =>
    if houseOpen s then
      let s1 := produce (advanceCycle s c) c (2896 + j)
      s1.modH (fun h => { h with imp := h.imp.filter (fun x => x != (j, c)) })
    else s
  | none => s

/-- R201. -/
def execImportApply (j : Fin 64) (s : State) : Host.Outcome State Fault Refusal := .next (importApply s j)

/-! ### Timers (R195) -/

/-- Timer i fires in core cycle c. -/
def timerFires (s : State) (i c : Nat) : State := produce s c (2960 + i)

/-- An arrival at timer i's control input in cycle a (R195). -/
def timerTask (s : State) (i a : Nat) : State :=
  match s.f (F.tmr_cfg_mode i) with
  | 2 =>
    let s1 := match s.hall.tmr.find? (fun x => x.1 == i) with
      | some (_, t) => if gridOf s (t / coreU) ≤ a then (timerFires s i (t / coreU)).count (F.tmr_cnt_n i) 1 else s
      | none => s
    s1.modH (fun h => { h with tmr := h.tmr.filter (fun x => x.1 != i) ++ [(i, a * coreU + tmrPeriodT s i * t16U)] })
  | 3 =>
    let n := max 1 (s.f (F.tmr_periodLo_v i))
    let v := s.f (F.tmr_cnt_n i) + 1
    if n ≤ v then (timerFires s i (a + gridStep s)).put (F.tmr_cnt_n i) 0 else s.put (F.tmr_cnt_n i) v
  | _ => s

/-- Timer i reaches its next instant (R195). -/
def timerFire (s : State) (i : Nat) : State :=
  if !houseOpen s then s
  else match s.f (F.tmr_cfg_mode i) with
  | 1 =>
    match s.hall.tmrNext.find? (fun x => x.1 == i) with
    | some (_, k) =>
      let t := tmrStartT s i + k * tmrPeriodT s i
      let s1 := timerFires (advanceCycle s (coreOf t)) i (coreOf t)
      (s1.count (F.tmr_cnt_n i) 1).modH (fun h => { h with tmrNext := h.tmrNext.filter (fun x => x.1 != i) ++ [(i, k + 1)] })
    | none => s
  | 2 =>
    match s.hall.tmr.find? (fun x => x.1 == i) with
    | some (_, t) =>
      let s1 := timerFires (advanceCycle s (t / coreU)) i (t / coreU)
      (s1.count (F.tmr_cnt_n i) 1).modH (fun h => { h with tmr := h.tmr.filter (fun x => x.1 != i) })
    | none => s
  | _ => s

/-- R195. -/
def execTimerFire (i : Fin 32) (s : State) : Host.Outcome State Fault Refusal := .next (timerFire s i)

/-- A write to TMR[i].CFG sets the mode and resets the timer (R195). -/
def timerCfg (s : State) (i : Nat) (v : Word) : State := tmrReset (s.put (F.tmr_cfg_mode i) (bitsOf v 0 2)) i

/-- R195. -/
def execTimerCfgWrite (i : Fin 32) (val : Word) (s : State) : Host.Outcome State Fault Refusal := .next (cfgCmd s (timerCfg · i val))

/-! ### Trigger pins (R196-R198) -/

/-- Drop the levels of TRIG_OUT pins that have ended. -/
def oldPins (s : State) : List (Nat × Nat × Nat) := s.hall.pins.filter (fun x => x.2.2 == 0 || decide (t16Now s < x.2.2))

/-- An arrival at TRIG_OUT[i] in cycle a (R197); the 2 cycles and pw are grid cycles (R199). -/
def trigTask (s : State) (i a : Nat) : State :=
  let from_ := coreStart (a + 2)
  match s.f (F.trigOut_cfg_mode i) with
  | 1 =>
    let end_ := coreStart (a + 2 + max 1 (s.f (F.trigOut_cfg_pw i)))
    let ps := oldPins s
    let qs := match ps.find? (fun x => x.1 == i && decide (from_ ≤ x.2.2)) with
      | some (_, b, _) => ps.filter (fun x => x.1 != i) ++ [(i, b, end_)]
      | none => ps ++ [(i, from_, end_)]
    s.modH (fun h => { h with pins := qs })
  | 2 =>
    let ps := oldPins s
    let qs := if ps.any (fun x => x.1 == i && x.2.2 == 0) then ps.map (fun x => if x.1 = i ∧ x.2.2 = 0 then (i, x.2.1, from_) else x)
      else ps ++ [(i, from_, 0)]
    s.modH (fun h => { h with pins := qs })
  | _ => s

/-- TRIG_OUT[i] is at its active level now (R197). -/
def trigActive (s : State) (i : Nat) : Bool :=
  s.f (F.trigOut_cfg_mode i) != 0 && s.hall.pins.any (fun x => x.1 == i && decide (x.2.1 ≤ t16Now s) && (x.2.2 == 0 || decide (t16Now s < x.2.2)))

/-- The level of the TRIG_OUT[i] ball (R197): active low where pol is 1. -/
def trigLevel (s : State) (i : Nat) : Bool := trigActive s i != s.on (F.trigOut_cfg_pol i)

/-- A write to TRIGOUT[i].CFG by its field types: a new mode begins at the inactive level (R197, log entry 40). -/
def trigOutCfg (s t : State) (i : Nat) : State :=
  t.when (s.f (F.trigOut_cfg_mode i) != t.f (F.trigOut_cfg_mode i)) (·.modH (fun h => { h with
    pins := h.pins.filter (fun x => x.1 != i) }))

/-- The pulse of TRIG_OUT[i] that ends first ends (R197, R198). -/
def pulseEnd (s : State) (i : Nat) : State :=
  match ((s.hall.pins.filter (fun x => x.1 == i && x.2.2 != 0)).map (fun x => x.2.2)).min? with
  | some t =>
    if houseOpen s then (advanceT s t).modH (fun h => { h with pins := h.pins.filter (fun x => !(x.1 == i && x.2.2 == t)) }) else s
  | none => s

/-- R197. -/
def execTrigOutPulseEnd (i : Fin 16) (s : State) : Host.Outcome State Fault Refusal := .next (pulseEnd s i)
/-- R198. -/
def execTimedTrigEnd (i : Fin 16) (s : State) : Host.Outcome State Fault Refusal := .next (pulseEnd s i)

/-- The next firing of the timed route of TRIG_OUT[i], by the markers' instants, reaches the pin: 128 beats and TOFS after the marker,
for tw beats (R198). -/
def timedEdge (s : State) (i : Nat) : State :=
  let drop (u : State) (t : Nat) : State := u.modH (fun h => { h with timed := h.timed.erase (i, t) })
  match (((s.hall.timed.filter (fun x => x.1 == i)).map (·.2)) ++
    (s.hall.fired.filter (fun x => timedBy s x.1 x.2.1 i)).map (fun x => x.2.2)).min? with
  | some t =>
    if s.f (F.trigOut_cfg_mode i) ≠ 3 then drop s t
    else if houseOpen s then
      let b := t + 128 * 2 ^ 16 + s.f (F.trigOut_tofs_tofs i) * 2 ^ 8
      let end_ := b + max 8 (s.f (F.trigOut_timed_tw i)) * 2 ^ 16
      let s1 := drop (advanceT s b) t
      let ps := s1.hall.pins.filter (fun x => x.2.2 == 0 || decide (b ≤ x.2.2))
      let qs := match ps.find? (fun x => x.1 == i) with
        | some (_, b0, _) => ps.filter (fun x => x.1 != i) ++ [(i, b0, end_)]
        | none => ps ++ [(i, b, end_)]
      s1.modH (fun h => { h with pins := qs })
    else s
  | none => s

/-- R198. -/
def execTimedTrigEdge (i : Fin 16) (s : State) : Host.Outcome State Fault Refusal := .next (timedEdge s i)

/-- An edge on TRIG_IN[i] (R196): a late one lies within 200 ps before the end of its cycle, which is reached first. -/
def trigIn (s0 : State) (i : Nat) (rising late : Bool) : State :=
  let m := s0.f (F.trigIn_cfg_edge i)
  if houseOpen s0 && (m == 3 || m == (if rising then 1 else 2)) then
    let s := if late then advanceHouse s0 ((coreNow s0 + 1) * coreU - beatU) else s0
    let s1 := (s.putPair (R.trigIn_stampLo i) (R.trigIn_stampHi i) (beatsNow s)).count (F.trigIn_edges_n i) 1
    produce s1 (coreNow s + (if late then 5 else 4)) (2880 + i)
  else s0

/-- R196. -/
def execTrigInEdge (i : Fin 16) (rising late : Bool) (s : State) : Host.Outcome State Fault Refusal := .next (trigIn s i rising late)

/-! ### Delivery (R187, R188) -/

/-- Task input t receives an arrival in cycle a, brought by n channels formed in grid cycle f (R186, R188). -/
def deliver (s : State) (a t n f : Nat) : State :=
  if t < 4608 then
    let e := t / 8
    let s1 := taskArrive s e (t % 8)
    taskStart (if 2 ≤ n then taskArrive s1 e (t % 8) else s1) e
  else
    let k := t - 4608
    let s1 := s.when (decide (2 ≤ n)) (mergeNt · k)
    if k < 16 then trigTask s1 k a
    else if k < 80 then exportEvent s1 (k - 16) f
    else if k < 112 then timerTask s1 (k - 80) a
    else pulseMcl s1 (k - 112)

/-- The next cycle in which arrivals may fall: of those in the pipeline, or of events not yet formed. -/
def nextArrival (s : State) : Option Nat :=
  ((s.hall.due.map (·.1)) ++ ((s.hall.acts ++ s.hall.fgrp).map (fun x => x.1 + 12 * gridStep s))).min?

/-- The next arrivals are delivered, all of one cycle (R187, R188); they wake the device (R353). -/
def hallwayDelivery (s : State) : State :=
  match nextArrival s with
  | none => s
  | some k =>
    if !houseOpen s then s
    else
      let s1 := advanceCycle s k
      let now := s1.hall.due.filter (fun x => x.1 == k)
      if now.isEmpty then s1
      else
        let s2 := s1.modH (fun h => { h with due := h.due.filter (fun x => x.1 != k) })
        let ts := (now.map (·.2.1)).foldl (fun l t => insNat t l) []
        wake (ts.foldl (fun u t =>
          let xs := now.filter (fun x => x.2.1 == t)
          deliver u k t xs.length ((xs.map (·.2.2)).headD k)) s2) 2

/-- R187. -/
def execHallwayDelivery (s : State) : Host.Outcome State Fault Refusal := .next (hallwayDelivery s)

/-- Form every cycle that has a producer or a fault group waiting (R187, R194, R278). -/
def formAll (s : State) : State :=
  match ((s.hall.acts ++ s.hall.fgrp).map (·.1)).max? with
  | some c => if houseOpen s then advanceCycle s (c + gridStep s) else s
  | none => s

/-- The storm detector finds a run of storm_limit + 1 cycles, as the cycles are formed (R194). -/
def execStormDetect (_ch : Fin 256) (s : State) : Host.Outcome State Fault Refusal := .next (formAll s)

/-- Fault group f is active in its cycle (R278). -/
def execFaultGroupActive (_f : Fin 16) (s : State) : Host.Outcome State Fault Refusal := .next (formAll s)

/-- A group is armed or disarmed by register in the present cycle, for channels formed from the next (R190); an arm written while the
group is held is ignored (R191, R192). -/
def groupChg (s : State) (g : Nat) (arm : Bool) : State :=
  if arm && groupHeld s g then s else s.modH (fun h => { h with chg := h.chg ++ [(gridOf s (coreNow s) + gridStep s, g, arm)] })

/-- R190. -/
def execGroupArm (g : Fin 16) (s : State) : Host.Outcome State Fault Refusal := .next (coreCmd s (groupChg · g true))
/-- R190. -/
def execGroupDisarm (g : Fin 16) (s : State) : Host.Outcome State Fault Refusal := .next (coreCmd s (groupChg · g false))

/-- A write to HALL.SWPULSE: each bit's producer is active in the next cycle (R185). -/
def swpulse (s : State) (v : Word) : State :=
  (List.range 32).foldl (fun u x => u.when (v.getLsbD x) (produce · (coreNow s + gridStep s) (3008 + x))) s

/-- R185. -/
def execSwpulse (val : Word) (s : State) : Host.Outcome State Fault Refusal := .next (coreCmd s (swpulse · val))

end Sys2Proof.Machine
end

