-- ==== Sys2Proof/Machine/Epoch.lean ====
section
/-! DEFINITION. The epoch (R110-R115): go, cancel, the SYNC edge, the fabric's epoch command, and the apply time. -/

namespace Sys2Proof.Machine

/-- APPLY_AT as the registers hold it. -/
def applyReg (s : State) : Nat := s.pair R.time_applyLo R.time_applyHi

/-- The new value of a change is known: it is sent over the fabric where bcast is 1 (R113). -/
def bcastEpoch (s : State) (p : PendEpoch) : State :=
  if p.bcast then
    fabSend s none (.epoch (BitVec.ofNat 64 p.applyAt) (BitVec.ofNat 64 (p.value / 2 ^ 16)) (BitVec.ofNat 16 p.value))
  else s

/-- A change becomes the pending one (R114). -/
def pendEpoch (s : State) (p : PendEpoch) (st : Nat) : State :=
  let s1 := s.when s.epoch.isSome (·.raise F.time_epochStat_replaced)
  { s1.put F.time_epochStat_state st with epoch := some p }

/-- The packet carries an epoch command. -/
def isEpoch : Packet → Bool
  | .epoch _ _ _ => true
  | _ => false

/-- A list without the elements of a kind that follow its first n of them. -/
def firstOf {α : Type} (p : α → Bool) : Nat → List α → List α
  | _, [] => []
  | n, x :: xs => if p x then (match n with | 0 => firstOf p 0 xs | k + 1 => x :: firstOf p k xs) else x :: firstOf p n xs

/-- Note what the present house-logic cycle found before an epoch command or a SYNC edge (R114). -/
def noteEpoch (s : State) (a : EpochAct) : State :=
  { s with epochWas := some ⟨logicNow s, a, s.on F.time_epochStat_late, (s.fab.out.filter (fun x => isEpoch x.2)).length, s.epoch,
      s.f F.time_epochStat_state⟩ }

/-- A go, an awaited SYNC edge or a fabric command acted last in the present house-logic cycle. -/
def actedNow (s : State) (a : EpochAct) : Bool :=
  match s.epochWas with
  | some n => n.cyc == logicNow s && n.act == a
  | none => false

/-- An epoch command or a SYNC edge of the present cycle has done nothing: neither late, nor a packet, nor a change is left of it (R114). -/
def undoEpoch (s : State) : State :=
  match s.epochWas with
  | some n =>
    { (s.put F.time_epochStat_late (bit n.late)).put F.time_epochStat_state n.st with
      epoch := n.was, fab := { s.fab with out := firstOf (fun x => isEpoch x.2) n.out s.fab.out }, epochWas := none }
  | none => s

/-- EPOCH_CTL.go (R110, R113, R114, R115): a go with source SYNC replaces a pending change as one with source REG does (log entry 49). APPLY_AT
is compared with the present count as it stands, so one just past the 2^64 wrap is late (DESIGN CHOICE, log entry 64). -/
def epochGo (s0 : State) : State :=
  let src := s0.f F.time_epochCtl_src
  if 2 ≤ src then s0.raise F.time_epochStat_cmd_err
  else if actedNow s0 .fabric then s0.raise F.time_epochStat_replaced
  else
    let s := noteEpoch s0 .go
    let bc := s.on F.time_epochCtl_bcast
    let a := applyReg s
    if src = 1 then pendEpoch s ⟨0, a, false, bc⟩ 1
    else if beatsNow s + 6400 ≤ a then
      let p : PendEpoch := ⟨s.pair R.time_newLo R.time_newHi * 2 ^ 16 + s.f F.time_newFrac_frac, a, false, bc⟩
      bcastEpoch (pendEpoch s p 2) p
    else s.raise F.time_epochStat_late

/-- R113, R114. -/
def execEpochGo (s : State) : Host.Outcome State Fault Refusal := .next (coreCmd s epochGo)

/-- The pending change applies (R110): from the core cycle that contains APPLY_AT. -/
def applyEpoch (s : State) (p : PendEpoch) : State :=
  let c := coreOf (absT s p.applyAt)
  let s1 := (advanceCycle s c).putPair R.time_epochLo R.time_epochHi (p.value / 2 ^ 16 % 2 ^ 64)
  let s2 := (s1.put F.time_epochFrac_frac p.value).put F.time_epochStat_from_fabric (bit p.fab)
  { (produce ((s2.raise F.time_epochStat_applied).put F.time_epochStat_state 0) c 3041) with epoch := none }

/-- APPLY_AT of the pending change is reached (R110). -/
def epochApply (s : State) : State :=
  match s.epoch with
  | some p => if s.f F.time_epochStat_state = 2 ∧ houseOpen s then applyEpoch s p else s
  | none => s

/-- R110. -/
def execEpochApply (s : State) : Host.Outcome State Fault Refusal := .next (epochApply s)

/-- EPOCH_CTL.cancel (R114): in the cycle in which the SYNC edge is stamped the cancel wins. -/
def epochCancel (s : State) : State :=
  if actedNow s .edge then { ((undoEpoch s).put F.time_epochStat_state 0).put F.time_epochStat_cancel_res 2 with epoch := none }
  else match s.epoch with
  | some p =>
    if s.f F.time_epochStat_state = 2 ∧ coreOf (absT s p.applyAt) ≤ coreNow s then (applyEpoch s p).put F.time_epochStat_cancel_res 3
    else { (s.put F.time_epochStat_state 0).put F.time_epochStat_cancel_res 2 with epoch := none }
  | none => s.put F.time_epochStat_cancel_res 3

/-- R114. -/
def execEpochCancel (s : State) : Host.Outcome State Fault Refusal := .next (coreCmd s epochCancel)

/-- A rising edge on SYNC_P/N (R112): stamped, counted, a producer 4 core cycles on, and the value of a change that waits for it. -/
def syncEdge (s : State) (frac : Nat) : State :=
  if !houseOpen s then s
  else
    let stamp := beatsNow s * 256 + frac
    let s1 := ((s.putPair R.time_syncCapLo R.time_syncCapHi (beatsNow s)).put F.time_syncCapFrac_frac (frac * 256)).count
      F.time_syncCapFrac_count 1
    let s3 := produce s1 (coreNow s + 4) 3040
    match s3.epoch with
    | some p =>
      if s3.f F.time_epochStat_state = 1 then
        let s2 := noteEpoch s3 .edge
        let margin := if p.bcast then s2.f F.hall_fabLead_lead * 16 * 256 else 6400 * 256 * 3
        if stamp * 3 + margin ≤ p.applyAt * 256 * 3 then
          let v := unsigned 80 (((stamp : Int) - signed 32 (s2.f F.time_syncDelay_delay)) * 256)
          let q := { p with value := v }
          bcastEpoch { s2.put F.time_epochStat_state 2 with epoch := some q } q
        else { (s2.put F.time_epochStat_state 0).raise F.time_epochStat_late with epoch := none }
      else s3
    | none => s3

/-- R112. -/
def execSyncEdge (frac : BitVec 8) (s : State) : Host.Outcome State Fault Refusal := .next (syncEdge s frac.toNat)

/-- A fabric epoch command arrives (R113, R114): not applied on a GUEST (R344). It goes before a go of its house-logic cycle. -/
def epochCommand (s0 : State) (a beats frac : Nat) : State :=
  if s0.on F.fab_stat_guest || !houseOpen s0 then s0
  else
    let s := noteEpoch (if actedNow s0 .go then (undoEpoch s0).raise F.time_epochStat_replaced else s0) .fabric
    if beatsNow s < a then pendEpoch s ⟨beats * 2 ^ 16 + frac, a, true, false⟩ 2
    else s.raise F.time_epochStat_late

/-- R113, R114, R340. -/
def execEpoch (_src : House) (applyAt beats : BitVec 64) (frac : BitVec 16) (s : State) : Host.Outcome State Fault Refusal :=
  .next (epochCommand s applyAt.toNat beats.toNat frac.toNat)

end Sys2Proof.Machine
end

