-- ==== Sys2Proof/Machine/Arbiter.lean ====
section
/-! DEFINITION. The store's arbiters (R205-R211) and serving a request (R168, R219, R220). -/

namespace Sys2Proof.Machine

/-- Add a deficit entry, or replace it (R210). -/
def getDef (l : List (Nat × Int)) (k : Nat) : Int := ((l.find? (fun x => x.1 == k)).map (·.2)).getD 0
/-- Give a deficit a value; 0 is not listed. -/
def setDef (l : List (Nat × Int)) (k : Nat) (v : Int) : List (Nat × Int) :=
  let r := l.filter (fun x => x.1 != k)
  if v = 0 then r else r ++ [(k, v)]

/-- Key 3 of R207: a hit ranks above a miss, unless its bank has served 16 hits in a row while an equal miss waited: that miss is
next. -/
def hitKey (s : State) (all : List Req) (r : Req) : Nat :=
  let full := decide (16 ≤ tget (fun _ => 0) s.ctl.hits (reqBank r))
  if rowHit s r then (if full && missWaits s all r then 0 else 1) else if full then 2 else 0

/-- Keys 1 to 3 of R207 in one number. -/
def keys (s : State) (all : List Req) (r : Req) : Nat := (effClass r * 4 + urgency s r) * 4 + hitKey s all r

/-- Key 5 of R207: r comes before q. -/
def older (r q : Req) : Bool := decide (r.entered < q.entered) || (r.entered == q.entered && decide (r.port ≤ q.port))

/-- The requester a request belongs to (R209): a lane queue, or a port from 48 on. -/
def requester (r : Req) : Nat := if 48 ≤ r.port then 1152 + r.port else 2 * r.eng + bit r.cmp

/-- Requesters of the given requests that hold one of class c (R209). -/
def census (l : List Req) (c : Nat) : Nat := (((l.filter (fun q => effClass q == c)).map requester).eraseDups).length

/-- The concentrator of a port (R209): its wing, or 4 for ports 48-52. -/
def concOf (port : Nat) : Nat := if port < 32 then port / 8 else if port < 48 then (port - 32) / 4 else 4

/-- Number of a deficit: level, node, pseudo-channel, class, input (R210). -/
def defKey (level node pc c input : Nat) : Nat := (((level * 64 + node) * 256 + pc) * 4 + c) * 2048 + input

/-- One arbiter (R207, R210): its inputs with their chosen requests and censuses; the granted input's request and the deficits. -/
def arbitrate (s : State) (all : List Req) (level node pc : Nat) (ins : List (Nat × Req × Nat)) (d : List (Nat × Int)) :
    Option (Req × List (Nat × Int)) :=
  match (ins.map (fun x => keys s all x.2.1)).max? with
  | none => none
  | some k =>
    let tied := ins.filter (fun x => keys s all x.2.1 == k)
    let key (x : Nat × Req × Nat) : Nat := defKey level node pc (effClass x.2.1) x.1
    let d1 := if tied.any (fun x => decide (1 ≤ getDef d (key x))) then d
      else tied.foldl (fun l x => setDef l (key x) (getDef l (key x) + x.2.2)) d
    let top := ((tied.map (fun x => getDef d1 (key x))).max?).getD 0
    let best := tied.filter (fun x => getDef d1 (key x) == top)
    match best with
    | [] => none
    | b :: bs =>
      let w := bs.foldl (fun a x => if older a.2.1 x.2.1 then a else x) b
      some (w.2.1, setDef d1 (key w) (getDef d1 (key w) - 1))

/-- The request that a requester offers: by keys 1 to 3, then by age (R207). -/
def headOf (s : State) (all : List Req) (l : List Req) : Option Req :=
  match l with
  | [] => none
  | r :: rs => some (rs.foldl (fun a x =>
      if keys s all x < keys s all a then a else if keys s all a < keys s all x then x else if older a x then a else x) r)

/-- The choice of a port among its lane queues (R209, level 1). -/
def portChoice (s : State) (all : List Req) (pc port : Nat) (d : List (Nat × Int)) : Option (Req × List (Nat × Int)) :=
  let mine := all.filter (fun r => r.port == port)
  let qs := (mine.map requester).eraseDups
  arbitrate s all 1 port pc (qs.filterMap (fun q => (headOf s all (mine.filter (fun r => requester r == q))).map (fun r => (q, r, 1)))) d

/-- The choice of a concentrator among its ports (R209, level 2); only the arbiter of the port that is granted charges its deficits (R210). -/
def concChoice (s : State) (all : List Req) (pc conc : Nat) (d : List (Nat × Int)) : Option (Req × List (Nat × Int)) :=
  let ports := ((all.filter (fun r => concOf r.port == conc)).map (·.port)).eraseDups
  let ins := ports.filterMap (fun p => (portChoice s all pc p d).map (fun x =>
    (p, x.1, if s.on F.st_census_wing then census (all.filter (fun q => q.port == p)) (effClass x.1) else 1)))
  match arbitrate s all 2 conc pc ins d with
  | some (r, d1) => portChoice s all pc r.port d1
  | none => none

/-- The choice of a pseudo-channel among the concentrators (R209, level 3). -/
def pcChoice (s : State) (all : List Req) (pc : Nat) (d : List (Nat × Int)) : Option (Req × List (Nat × Int)) :=
  let ins := (List.range 5).filterMap (fun c => (concChoice s all pc c d).map (fun x =>
    (c, x.1, if s.on F.st_census_pc then census (all.filter (fun q => concOf q.port == c)) (effClass x.1) else 1)))
  match arbitrate s all 3 pc pc ins d with
  | some (r, d1) => concChoice s all pc (concOf r.port) d1
  | none => none

/-! ### Serving -/

/-- A granule fetched for a lane queue reaches it (R16, R17, R168), while its engine holds a queue to fill (R77). -/
def queueGran (s : State) (r : Req) (d : Granule) (bad : Bool) : State :=
  let e := r.eng
  if !engaged s e then s else
  let s1 := s.modE e (fun x =>
    match r.nxt, r.cmp with
    | false, false => { x with queue := x.queue ++ [(r.idx, d, bad)], play := x.play.map (fun p => { p with fetched := p.fetched + 1 }) }
    | false, true => { x with cmpQueue := x.cmpQueue ++ [(r.idx, d, bad)],
                              play := x.play.map (fun p => { p with cmpFetched := p.cmpFetched + 1 }) }
    | true, false => { x with nextQueue := x.nextQueue ++ [(r.idx, d, bad)],
                              next := x.next.map (fun p => { p with fetched := p.fetched + 1 }) }
    | true, true => { x with nextCmpQueue := x.nextCmpQueue ++ [(r.idx, d, bad)],
                             next := x.next.map (fun p => { p with cmpFetched := p.cmpFetched + 1 }) })
  let play := if r.nxt then (s1.engine e).next else (s1.engine e).play
  let s2 := match play with
    | some p => match p.kind with
      | .strm k => if r.cmp then s1 else syncRptr s1 (leaderOf s1 e) k
      | _ => s1
    | none => s1
  topUp s2 e

/-- Data of granule k of the store write at the head of port 52's queue, where that is a write (R305). -/
def aperData (s : State) (k : Nat) : Option Granule :=
  match s.porch.wait with
  | (.regWr _ .store _ d, _) :: _ => some (granOf (d.drop (64 * k)))
  | _ => none

/-- A granule of a write reaches the store through a port, under R179. -/
def landGran (s : State) (port g : Nat) (d : Granule) : State :=
  match writeCheck s port g with
  | some t => t
  | none => monEvent (writeGran (noteWrite s port g) g d) (836 + stackOfGran g) 1

/-- Serve the first granule of a request: a write is stored, a prefetch reaches its queue, a pantry load its copy, an aperture read its
answer. -/
def serveOne (s : State) (r : Req) : State :=
  match r.data, if r.use = 3 then aperData s r.idx else none with
  | some d, _ =>
    let s1 := monEvent (writeGran s r.gran d) (836 + stackOfGran r.gran) 1
    if r.use = 1 then strmServed s1 r.ring else s1
  | none, some d => landGran s r.port r.gran d
  | none, none =>
    let ((d, bad), s1) := readGran s r.gran
    let s2 := monEvent s1 (832 + stackOfGran r.gran) 1
    if r.use = 6 then loadGran s2 r.port r.ring d bad
    else if r.use = 3 then { s2 with ctl := { s2.ctl with aperGot := s2.ctl.aperGot ++ [(d, bad)] } }
    else if r.cls = 2 then queueGran s2 r d bad else s2

/-- Serve n granules of a request. -/
def serveN : Nat → State → Req → State
  | 0, s, _ => s
  | n + 1, s, r => serveN n (serveOne s r) { r with gran := r.gran + 1, idx := r.idx + 1 }

/-- Deficits of inputs that hold no request of their class are 0 (R210). -/
def pruneDef (s : State) (pc : Nat) (l : List (Nat × Int)) : List (Nat × Int) :=
  let rs := s.ctl.reqs.filter (fun r => pcOfGran r.gran == pc)
  let live := rs.flatMap (fun r =>
    let c := effClass r
    [defKey 1 r.port pc c (requester r), defKey 2 (concOf r.port) pc c r.port, defKey 3 pc pc c (concOf r.port)])
  l.filter (fun x => x.1 / 2048 / 4 % 256 != pc || live.contains x.1)

/-- Age limit of a class (R208, R228). -/
def ageLimit (s : State) (c : Nat) : Nat := nsU (100 * max 1 (if c = 1 then s.f F.st_age_firm else s.f F.st_age_bulk))

/-- A request is past its age limit (R208). -/
def overAge (s : State) (r : Req) : Bool := decide (r.cls < 2) && !r.promo && decide (ageLimit s r.cls < ageOf s r)

/-- Promote the requests of pseudo-channel pc that are past their age limit (R208). -/
def promote (s : State) (pc : Nat) : State :=
  let hot := s.ctl.reqs.filter (fun r => pcOfGran r.gran == pc && overAge s r)
  let s1 := hot.foldl (fun u r => monEvent (u.countSat (F.stPromo_n_n r.port) 1) (848 + r.port) 1) s
  { s1 with ctl := { s1.ctl with
      reqs := s1.ctl.reqs.map (fun r => if pcOfGran r.gran = pc ∧ overAge s r then { r with promo := true } else r) } }

/-- Granules that a FIRM or BULK access may move within its 50 ns at the operating point in force (R217, log entry 45): those that take no
longer than four take at P0. -/
def accessGrans (s : State) : Nat := 4 - s.f F.st_stat_point

/-- Lane queues that have drained since they were filled ask for more (R218). -/
def refill (s : State) : State := (s.eng.map (·.1)).foldl (fun u e => if engaged u e then topUp u e else u) s

/-- The requests of a pseudo-channel that the grant of request r passed over take their urgency anew (R206). -/
def passOver (s : State) (pc : Nat) : State :=
  { s with ctl := { s.ctl with
      reqs := s.ctl.reqs.map (fun q => if pcOfGran q.gran = pc ∧ q.cls = 2 then { q with urg := rtUrgency s q.eng q.cmp } else q) } }

/-- Pseudo-channel pc grants a request (R207-R211): while an unpromoted RT request of urgency 3 waits, a promoted request gets one
granule at most once per 100 ns. Lane queues that have drained enter their prefetches: before the choice where no request waits, else with
the grant. -/
def storeGrant (s0 : State) (pc : Nat) : State :=
  if !stackUp s0 (pc / 64) then s0
  else
    let s1 := promote s0 pc
    let s := if s1.ctl.reqs.any (fun r => pcOfGran r.gran == pc) then s1 else refill s1
    let mine := s.ctl.reqs.filter (fun r => pcOfGran r.gran == pc)
    let urgent := mine.any (fun r => r.cls == 2 && urgency s r == 3)
    let recent := decide (s.clk.now < tget (fun _ => 0) s.ctl.promoAt pc + nsU 100)
    let all := if urgent && recent && mine.any (fun r => !r.promo) then mine.filter (fun r => !r.promo) else mine
    match pcChoice s all pc s.ctl.deficit with
    | none => s
    | some (r, d) =>
      let n := if r.promo && urgent then 1 else if r.cls = 2 then r.n else min r.n (accessGrans s)
      let rest := if n < r.n then s.ctl.reqs.map (fun q => if q = r then { r with gran := r.gran + n, idx := r.idx + n, n := r.n - n } else q)
        else s.ctl.reqs.erase r
      let s1 := touchRow s r (rest.filter (fun q => pcOfGran q.gran == pc))
      let pa := if r.promo then tset (fun _ => 0) s1.ctl.promoAt pc s1.clk.now else s1.ctl.promoAt
      let s2 := { s1 with ctl := { s1.ctl with reqs := rest, deficit := d, promoAt := pa } }
      let s3 := refill (serveN n (passOver s2 pc) r)
      { s3 with ctl := { s3.ctl with deficit := pruneDef s3 pc s3.ctl.deficit } }

/-- The next request of pseudo-channel pc passes its age limit and is promoted (R208); while the stack admits none, none does (R240, R243). -/
def agePromotion (s : State) (pc : Nat) : State :=
  if !stackUp s (pc / 64) then s
  else match ((s.ctl.reqs.filter (fun r => pcOfGran r.gran == pc && decide (r.cls < 2) && !r.promo)).map
      (fun r => r.entered + ageLimit s r.cls + 1)).min? with
  | some t => promote (advanceNow s t) pc
  | none => s

/-- R208. -/
def execAgePromotion (pc : PChan) (s : State) : Host.Outcome State Fault Refusal := .next (agePromotion s pc)

end Sys2Proof.Machine
end

