-- ==== Sys2Proof/Machine/StoreCmds.lean ====
section
/-! DEFINITION. The store controller's own work: refresh (R212-R216), page closing (R211), corrections and sparing (R219-R222),
training (R223-R225) and operating points (R226, R227). -/

namespace Sys2Proof.Machine

/-- An RT request waits for bank b. -/
def bankBusy (s : State) (b : Nat) : Bool := s.ctl.reqs.any (fun r => effClass r == 2 && reqBank r == b)

/-- Owed refreshes of bank b (R214). -/
def owedOf (s : State) (b : Nat) : Nat := tget (fun _ => 0) s.ctl.owed b
/-- Give bank b's owed count a value. -/
def setOwed (s : State) (b n : Nat) : State := { s with ctl := { s.ctl with owed := tset (fun _ => 0) s.ctl.owed b n } }

/-- A refresh of pseudo-channel pc's bank falls due (R214): issued at once where no RT request waits for the bank, else owed; the fourth
owed refresh is forced. -/
def refreshDue (s : State) (pc b : Nat) : State :=
  let k := bankNo pc b
  let st := pc / 64
  if !stackUp s st then s
  else if bankBusy s k then
    let n := owedOf s k + 1
    let s1 := s.put (F.stRef_stat_owed_max st) (max n (s.f (F.stRef_stat_owed_max st)))
    if 4 ≤ n then closeRow (monEvent ((setOwed s1 k 3).countSat (F.stRef_stat_forced st) 1) (840 + st) 1) k else setOwed s1 k n
  else closeRow s k

/-- R214. -/
def execRefreshDue (pc : PChan) (b : Bank) (s : State) : Host.Outcome State Fault Refusal := .next (refreshDue s pc b)

/-- An owed refresh is issued while its bank holds no RT request (R214). -/
def owedRefresh (s : State) (pc b : Nat) : State :=
  let k := bankNo pc b
  if stackUp s (pc / 64) && !bankBusy s k && decide (0 < owedOf s k) then closeRow (setOwed s k (owedOf s k - 1)) k else s

/-- R214. -/
def execOwedRefresh (pc : PChan) (b : Bank) (s : State) : Host.Outcome State Fault Refusal := .next (owedRefresh s pc b)

/-- The next pair of neighbours that waits for a row of a bank, which its table names by the row or by the spare row it was remapped to. -/
def nextPair (s : State) (pc b row : Nat) : Option (Nat × Nat × Nat) :=
  s.ctl.pairs.find? (fun x => x.1 == bankNo pc b && (x.2.1 == row || x.2.1 == physRow s ⟨51, 576, false, false, 0,
    rowFirstGran pc b row, 1, 0, none, 4, 0, 0, false, 0⟩))

/-- The next pair of neighbours of a row is refreshed (R215). -/
def neighbourRefresh (s : State) (pc b row : Nat) : State :=
  let k := bankNo pc b
  match nextPair s pc b row with
  | some x =>
    let s1 := { s with ctl := { s.ctl with pairs := s.ctl.pairs.erase x } }
    closeRow (monEvent (s1.countSat (F.rhCnt_n_n (pc / 64)) 1) (844 + pc / 64) 1) k
  | none => s

/-- R215. -/
def execNeighbourRefresh (pc : PChan) (b : Bank) (row : Fin 16384) (s : State) : Host.Outcome State Fault Refusal :=
  .next (neighbourRefresh s pc b row)

/-- The end of a full refresh window clears the bank's table and spill counter (R216). -/
def execRefreshWindowEnd (pc : PChan) (b : Bank) (s : State) : Host.Outcome State Fault Refusal :=
  .next { s with ctl := { s.ctl with rows := s.ctl.rows.filter (fun x => x.1 != bankNo pc b) } }

/-- An open row closes after PAGE.idle ns without a request to its bank (R211). -/
def rowIdleClose (s : State) (pc b : Nat) : State :=
  let k := bankNo pc b
  if tget (fun _ => 0) s.ctl.openRow k = 0 ∨ s.ctl.reqs.any (fun r => reqBank r == k) then s
  else closeRow (advanceNow s (tget (fun _ => 0) s.ctl.lastUse k + nsU (s.f F.st_page_idle))) k

/-- R211. -/
def execRowIdleClose (pc : PChan) (b : Bank) (s : State) : Host.Outcome State Fault Refusal := .next (rowIdleClose s pc b)

/-- A stack's temperature readout (R213, R251): a stale one holds its last value and leaves the refresh interval. -/
def stackTemp (s : State) (st : Nat) (c16 : Int) (stale : Bool) : State :=
  if stale then s.put (F.stTemp_word_stale st) 1
  else
    let first := !s.ctl.tempOk.contains st
    let s1 := (s.put (F.stTemp_word_stale st) 0).put (F.stTemp_word_temp st) (unsigned 16 c16)
    let s2 := { s1 with ctl := { s1.ctl with tempOk := s1.ctl.tempOk.filter (· != st) ++ [st] } }
    if 85 * 16 < c16 then s2.put (F.stRef_stat_halved st) 1
    else if first ∨ c16 < 80 * 16 then s2.put (F.stRef_stat_halved st) 0
    else s2

/-- R213. -/
def execStackTempRead (st : Stack) (c16 : Int) (stale : Bool) (s : State) : Host.Outcome State Fault Refusal :=
  .next (stackTemp s st c16 stale)

/-- The write-back of a corrected granule (R219, R221): it counts toward sparing its row. It is a write of the controller, under R179. -/
def ceWriteback (s0 : State) (g : Nat) : State :=
  if s0.ctl.wb.contains g && stackUp s0 (stackOfGran g) then
    match writeCheck s0 51 g with
    | some t => { t with ctl := { t.ctl with wb := t.ctl.wb.filter (· != g) } }
    | none =>
    let s := portServe (noteWrite s0 51 g) 51 g
    let r := rowNo (pcOfGran g) (bankOfGran g) (rowOfGran g)
    let n := tget (fun _ => 0) s.ctl.rowCe r + 1
    let s1 := if errOf s g = 1 then setErr s g 0 else s   -- an error of code 4 is found again at the next read
    let s2 := { s1 with ctl := { s1.ctl with wb := s1.ctl.wb.filter (· != g), rowCe := tset (fun _ => 0) s1.ctl.rowCe r n } }
    if max 1 (s2.f (F.ecc_spare_ce_thresh (stackOfGran g))) ≤ n then startSparing s2 g else s2
  else s0

/-- R219. -/
def execCeWriteback (gran : Nat) (s : State) : Host.Outcome State Fault Refusal := .next (ceWriteback s gran)

/-- The 16 granules of a row, in address order (R204). -/
def rowGrans (pc b row : Nat) : List Nat :=
  (List.range 16).map (fun i => rowFirstGran pc b row + i / 4 * 1024 + i % 4)

/-- A granule of a row is copied to the spare row (R220, R221): corrected data are written corrected, and a poisoned granule as poison. -/
def copyGran16 (s : State) (g : Nat) : State :=
  let s1 := monEvent (readGran s g).2 (832 + stackOfGran g) 1
  if errOf s g = 1 ∨ errOf s g = 4 then
    let s2 := setErr s1 g 0
    { s2 with ctl := { s2.ctl with wb := s2.ctl.wb.filter (· != g) } }
  else s1

/-- The copy of a row ends and its remap takes effect (R221); not while its stack admits no access. -/
def rowRemap (s0 : State) (pc b row : Nat) : State :=
  let r := rowNo pc b row
  if s0.ctl.copying.contains r && stackUp s0 (pc / 64) then
    let s := (rowGrans pc b row).foldl copyGran16 s0
    let s1 := { s with ctl := { s.ctl with copying := s.ctl.copying.filter (· != r), remap := s.ctl.remap ++ [r] } }
    fault (s1.countSat (F.ecc_spare_used (pc / 64)) 1) 66 pc .corrected (rowFirstGran pc b row)
  else s0

/-- R221. -/
def execRowRemap (pc : PChan) (b : Bank) (row : Fin 16384) (s : State) : Host.Outcome State Fault Refusal :=
  .next (rowRemap s pc b row)

/-- The patrol scrub reads its next granule (R222): it pauses in F1 to F3 (R348) and is off where the period is 0. -/
def scrubRead (s : State) (g : Nat) : State :=
  if s.f F.st_scrub_period = 0 ∨ s.ctl.scrub ≠ g ∨ storeGranules ≤ g ∨ !stackUp s (stackOfGran g) ∨ s.f F.pwr_stat_state ≠ 0 then s
  else
    let s1 := monEvent (readGran (portServe s 51 g) g).2 (832 + stackOfGran g) 1
    { s1 with ctl := { s1.ctl with scrub := (g + 1) % storeGranules } }

/-- R222. -/
def execScrubRead (gran : Nat) (s : State) : Host.Outcome State Fault Refusal := .next (scrubRead s gran)

/-! ### Operating points (R225-R227) -/

/-- A change to a point begins (R227): the stacks admit nothing and enter self-refresh, and the store PLLs retune, each within its bound of
R234; one closed by a loss searches anew toward the new point (R238). -/
def beginChange (s : State) (pt : Nat) : State :=
  let s1 := (List.range 4).foldl stackOff (s.put F.st_opStat_state 2)
  let s2 := (List.range 4).foldl (fun u k => planClose u (49 + k)) s1
  { s2 with train := { s2.train with chgAt := s2.clk.now, chgTo := pt }
            ctl := { s2.ctl with srf := [0, 1, 2, 3], chg := (List.range 4).filter (stackUp s) } }

/-- OP.CTL.point and go (R227). -/
def opGo (s0 : State) (pt : Nat) : State :=
  let s := s0.put F.st_opCtl_point pt
  match s.f F.st_opStat_state with
  | 2 => s.raise F.st_opStat_req_err
  | 1 => { s with train := { s.train with chgTo := pt } }
  | _ =>
    if pt = s.f F.st_stat_point then s
    else if s.on F.st_trainStat_pass_busy then
      { s.put F.st_opStat_state 1 with train := { s.train with reqAt := s.clk.now, chgTo := pt } }
    else beginChange s pt

/-- R227. -/
def execOpGo (point : Fin 4) (s : State) : Host.Outcome State Fault Refusal := .next (coreCmd s (opGo · point))

/-- A pass that an abort has put off is to start 1 ms from now (R225). -/
def passDue (s : State) : State :=
  { s with train := { s.train with nextAt := s.train.nextAt.map (fun _ => s.clk.now + 1000 * usU) } }

/-- The deferred change proceeds, where there is one; for the point in force it completes at once (R225, R227). -/
def proceed (s : State) : State :=
  if s.f F.st_opStat_state = 1 then
    if s.train.chgTo = s.f F.st_stat_point then passDue (s.put F.st_opStat_state 0) else beginChange s s.train.chgTo
  else s

/-- Instant at which the change's end finds its shutters ready: 25 us after it began (R227, log entry 22), and no shutter before its lock has
been held through a qualification (R234, R236). -/
def changeEnd (s : State) : Nat :=
  (List.range 4).foldl (fun t k =>
    if s.on (F.pll_stat_planned (49 + k)) then max t ((s.pllOf (49 + k)).qualAt + lockSpan s (49 + k)) else t)
    (s.train.chgAt + 25 * usU)

/-- The change's end at stack k (R227, R238, R243): the shutter that it closed opens, and a stack that it closed leaves self-refresh with nothing
owed; one without its clock before, or since a loss, waits for its own recovery. -/
def changeDone (s : State) (k : Nat) : State :=
  let s1 := s.when (s.on (F.pll_stat_planned (49 + k))) (markOpen · (49 + k))
  if s.ctl.chg.contains k then
    let s2 := clearOwed (stackOn s1 k) k
    { s2 with ctl := { s2.ctl with
      srf := s2.ctl.srf.filter (· != k), openRow := s2.ctl.openRow.filter (fun x => x.1 / 48 / 64 != k) } }
  else s1

/-- A change completes (R227): what waited at its ports waits for its grants. -/
def opComplete (s0 : State) : State :=
  if s0.f F.st_opStat_state ≠ 2 ∨ inSafe s0 then s0
  else
    let s := advanceNow s0 (changeEnd s0)
    let d := s.clk.now - s.train.chgAt
    let s1 := (List.range 4).foldl changeDone s
    let s2 := ((s1.put F.st_opStat_state 0).put F.st_stat_point s1.train.chgTo).put F.st_opStat_last_us (min 65535 (10 * d / usU))
    passDue { s2 with ctl := { s2.ctl with chg := [] } }

/-- R227. -/
def execOpChangeComplete (s : State) : Host.Outcome State Fault Refusal := .next (opComplete s)

/-! ### Training (R224, R225) -/

/-- House firmware starts an in-service gathering pass (R224): not while one runs or a change does, and not in F1 to F3 (R348). -/
def trainStart (s : State) : State :=
  if s.on F.st_trainStat_pass_busy || s.f F.st_opStat_state == 2 || s.f F.pwr_stat_state != 0 || !ctlRuns s .field then s
  else
    let s1 := match s.train.nextAt with
      | some t => advanceNow s t
      | none => s
    { s1.put F.st_trainStat_pass_busy 1 with train := { s1.train with passAt := s1.clk.now, nextAt := none } }

/-- R224. -/
def execTrainPassStart (s : State) : Host.Outcome State Fault Refusal := .next (trainStart s)

/-- A gathered centre of a read-side delay of the set in force (R224). -/
def takeCentre (s : State) (c : DelayCentre) : State :=
  if 2304 ≤ c.word.val then s else gatherCentre s (s.f F.st_stat_point) c

/-- A pass completes (R224, R225): its centres are taken, and a deferred change proceeds. -/
def trainComplete (s : State) (cs : List DelayCentre) : State :=
  if s.on F.st_trainStat_pass_busy && ctlRuns s .field then
    let s1 := cs.foldl takeCentre (s.put F.st_trainStat_pass_busy 0)
    let t := (List.range 4).map (fun k => (k, signed 16 (s1.f (F.stTemp_word_temp k))))
    proceed { s1 with train := { s1.train with temp := t.filter (fun x => x.2 != 0) } }
  else s

/-- R224. -/
def execTrainPassComplete (centres : List DelayCentre) (s : State) : Host.Outcome State Fault Refusal :=
  .next (trainComplete s centres)

/-- The pass still runs 2 ms after a change was requested (R225): it is aborted, and the change proceeds. -/
def trainAbort (s : State) : State :=
  if s.on F.st_trainStat_pass_busy && s.f F.st_opStat_state == 1 then
    let s1 := advanceNow s (s.train.reqAt + 2000 * usU)
    let s2 := (s1.put F.st_trainStat_pass_busy 0).raise F.st_trainStat_aborted
    let s3 := fault s2 68 0 .corrected s2.train.chgTo
    proceed { s3 with train := { s3.train with nextAt := some 0 } }
  else s

/-- R225. -/
def execTrainPassAbort (s : State) : Host.Outcome State Fault Refusal := .next (trainAbort s)

/-- TRAIN.CTL.lock (R223, R229, R288). -/
def execTrainLock (s : State) : Host.Outcome State Fault Refusal := .next (cfgCmd s (·.put F.st_trainCtl_lock 1))

end Sys2Proof.Machine
end

