-- ==== Sys2Proof/Machine/CalCmds.lean ====
section
/-! DEFINITION. The commands of background calibration and foreground path deskew (R248-R262). -/

namespace Sys2Proof.Machine

/-- Record CAL_UNABLE (R258). -/
def calUnable (s : State) (unit cause part lane : Nat) (express second : Bool) : State :=
  fault (s.raise F.cal_stat_unable) 36 unit (if second then .contained else .corrected)
    (cause * 2 ^ 28 + part * 2 ^ 26 + bit express * 2 ^ 15 + lane)

/-- CAL_UNABLE for lane e (R258). -/
def laneUnable (s : State) (e cause part : Nat) (second : Bool) : State :=
  calUnable s (tableOf e) cause part (if e < 512 then e else e - 512) (decide (512 ≤ e)) second

/-- Agreement tolerance of a part in trim steps (R254). -/
def tolOf (n : Nat) : Nat := if partGroup n = 1 then 8 else 10
/-- Trim range of a part from its birth value, in trim steps (R254). -/
def rangeOf (n : Nat) : Nat := if partGroup n = 0 then 400 else if partGroup n = 1 then 500 else 300
/-- Plausibility window of a part from its birth value, in trim steps (R254). -/
def windowOf (n : Nat) : Nat := 3 * rangeOf n + (if partGroup n = 1 then 100 else 0)

/-- Every value of a result lies within k steps of its birth value. -/
def allWithin (k : Nat) (v : List Int) : Bool := v.all (fun x => decide (x.natAbs ≤ k))
/-- Two results agree (R254). -/
def agree (k : Nat) (a b : List Int) : Bool := a.length == b.length && (a.zip b).all (fun p => decide ((p.1 - p.2).natAbs ≤ k))
/-- The mean of two results, rounded to the trim step (R254). -/
def meanOf (a b : List Int) : List Int := (a.zip b).map (fun p => idivRound (p.1 + p.2) 2)

/-! ### The reference checks (R249) -/

/-- REFSTAT for a reading (R249): REFV present, in window, stable; REFT present, in window, stable. -/
def refChecks (s : State) (rd : RefReading) : Bool × Bool × Bool × Bool × Bool × Bool :=
  let v := s.f F.cal_refvDecl_uv
  let h := s.f F.cal_reftDecl_hz
  (decide (0 < v) && decide (500000 ≤ rd.refvUv),
   decide (((rd.refvUv : Int) - v).natAbs * 100 ≤ 2 * v),
   decide (rd.refvSpanUv ≤ 200),
   decide (0 < h) && rd.reftEdge,
   decide (((rd.reftHz : Int) - h).natAbs * 10000 ≤ h),
   decide (((rd.reftHz : Int) - rd.reftHz2).natAbs * 100000 ≤ rd.reftHz))

/-- The room converters' results lie within range and window (R254, R255). -/
def convInRange (t : Nat) (rd : RefReading) : Bool :=
  let b := Config.tdcBirth (convRoom t)
  decide ((rd.adcPpm - Config.adcBirth (convRoom t)).natAbs ≤ 5000) && decide (((rd.tdcBin : Int) - b).natAbs * 100 ≤ 15 * b)

/-- A walk of table t is rejected for a reference with a cause, 1 REFV or 2 REFT (R256, R258): after the third in succession, one
CAL_UNABLE for the device, and a second after 10 further walks of that room or quad. -/
def refReject (s : State) (t cause : Nat) : State :=
  let s1 := s.modW t (fun w => { w with rej := w.rej + 1, refFail := true, okRun := 0, refOk := false })
  if (s1.walkOf t).rej < 3 then s1
  else
    match s1.cal.unable.find? (fun x => x.1 == cause) with
    | none =>
      let s2 := calUnable s1 0x3FF cause 0 0 false false
      let s3 := { s2 with cal := { s2.cal with unable := s2.cal.unable ++ [(cause, t, 0, false)] } }
      allUntraced ((List.range 48).foldl (fun u k => u.modW k (fun w => { w with need := true, okRun := 0 })) s3)
    | some (_, by_, n, second) =>
      if by_ ≠ t then s1
      else
        let due := decide (10 ≤ n + 1) && !second
        let entry := (cause, t, n + 1, second || due)
        let others := s1.cal.unable.filter (fun x => !(x.1 == cause))
        let s2 := { s1 with cal := { s1.cal with unable := others ++ [entry] } }
        s2.when due (calUnable · 0x3FF cause 0 0 false true)

/-- The clock of table t's lanes runs. -/
def tableClock (s : State) (t : Nat) : Bool :=
  houseOpen s && (if t < 32 then s.on ⟨R.clk_shutRoom, t, 1⟩ else s.on ⟨R.clk_shutOther, 1 + (t - 32), 1⟩)

/-- A walk of table t may begin: boot stage 8 is reached, its clock runs in F0, nothing of calibration is paused. -/
def walkMay (s : State) (t : Nat) : Bool :=
  let w := s.walkOf t
  !w.on && decide (8 ≤ s.f F.id_bootStat_stage) && tableClock s t && s.f F.pwr_stat_state == 0 && !inSafe s &&
    (decide (0 < w.initial) || decide (0 < w.full) || !s.on F.cal_ctl_pause)

/-- A walk begins (R249-R251): the references are checked, the converters and the sensor are recalibrated. -/
def walkStart (s : State) (t : Nat) (rd : RefReading) : State :=
  if !walkMay s t then s
  else
    let (vp, vw, vs, hp, hw, hs) := refChecks s rd
    let v := vp && vw && vs
    let h := hp && hw && hs
    let conv := if t < 32 then convInRange t rd else (s.walkOf (convRoom t)).convOk
    let s1 := (s.put F.cal_refvMeas_uv rd.refvUv).put F.cal_reftMeas_hz rd.reftHz
    let s2 := s1.setReg R.cal_refstat (BitVec.ofNat 32 (bit vp + 2 * bit vw + 4 * bit vs + 16 * bit hp + 32 * bit hw + 64 * bit hs))
    let s3 := s2.modW t (fun w => { w with
      on := true, startAt := s.clk.now, n := w.n + 1, ok := v && h && conv, keep := true, recal := true, refOk := v && h, temp := rd.tempC16
      adc := rd.adcPpm, tdc := rd.tdcBin, convOk := if t < 32 then conv else w.convOk })
    let s4 := (setStale s3 t true).put (walkStat t 12 4) 0
    let s5 := holdLanes s4 t
    let s6 := if 0 < (s5.walkOf t).initial ∨ 0 < (s5.walkOf t).full then s5 else s4
    let s7 := if v && h then { s6 with cal := { s6.cal with unable := [] } } else refReject s6 t (if v then 2 else 1)
    let s8 := if v && h && conv then s7
      else s7.countSat (walkStat t 0 3) 1
    traceTable s8 t

/-- R249. -/
def execWalkStart (t : TableId) (rd : RefReading) (s : State) : Host.Outcome State Fault Refusal := .next (walkStart s t rd)

/-- The recalibration at a walk's beginning is over (R251): the readouts are fresh, and the sensor's temperature shows. -/
def endRecal (s : State) (t : Nat) : State :=
  let w := s.walkOf t
  if !w.recal then s
  else
    let s1 := s.when (decide (t < 32)) (showTemp · t)
    setStale (s1.modW t (fun x => { x with recal := false })) t false

/-- A measurement of room n's level monitor completes (R148): one started while the ADC is being recalibrated begins when that is over, at
the latest 2 ms into the walk. -/
def monDone (s0 : State) (n : Nat) (uv : Word) : State :=
  if !s0.on (F.mon_stat_busy n) then s0
  else
    let s := if s0.on (F.mon_stat_stale n) then endRecal (advanceNow s0 ((s0.walkOf n).startAt + 2000 * usU)) n else s0
    ((s.setReg (R.mon_result n) uv).raise (F.mon_stat_done n)).put (F.mon_stat_busy n) 0

/-- R148. -/
def execMonDone (n : Room) (uv : Word) (s : State) : Host.Outcome State Fault Refusal := .next (monDone s n uv)

/-- The spare of a kind of part of lane e is spent (R23). -/
def spent (s : State) (e g : Nat) : Bool := (partsOf e).any (fun k => partGroup k == g && (s.partOf e k).retired)

/-- The walk measures part n of lane e (R252, R257): in a background walk the part out of service, in an initial or full walk every
part; not a kind of part whose spare is spent. -/
def measures (s : State) (e n : Nat) : Bool :=
  let w := s.walkOf (tableOf e)
  !spent s e (partGroup n) && (decide (0 < w.initial) || decide (0 < w.full) || !inService s e n)

/-- A walk visits lane e and measures one of its parts (R252): only while its room or quad walks and is not paused. -/
def calVisit (s : State) (e : Nat) (part : PartKind) (v : List Int) : State :=
  let t := tableOf e
  let w := s.walkOf t
  let paused := s.on F.cal_ctl_pause && w.initial == 0 && w.full == 0
  if !w.on || paused || !partFits e part then s
  else
    let s1 := (endRecal s t).put (walkStat t 12 4) (localOf e)
    s1.when (measures s1 e (partNo part)) (·.modPart e (partNo part) (fun p => { p with cur := some v }))

/-- R252. -/
def execCalVisit (e : Eng) (part : PartKind) (res : PartResult) (s : State) : Host.Outcome State Fault Refusal :=
  .next (calVisit s e part res.values)

/-! ### Acceptance (R254-R258) -/

/-- Slices that a result of slice n measures (R257): in an initial or full walk an in-service slice stands for the group of 16. -/
def measured (s : State) (e n : Nat) : List Nat :=
  if partGroup n = 0 ∧ e < 512 ∧ inService s e n then (List.range 17).filter (inService s e) else [n]

/-- A part's trim is accepted (R254): after initial and full walks it is applied at once (R257), else it waits for its exchange. -/
def acceptPart (s : State) (e n : Nat) (v : List Int) (now_ : Bool) : State :=
  let c := roomTemp s (tableOf e)
  let d := s.cal.decl
  let s1 := s.modPart e n (fun p => { p with bad := 0, unable := 0, cause := 0, since := 0, held := false })
  if now_ then (measured s1 e n).foldl (fun u k => u.modPart e k (fun p => { p with
      trim := v, atT := some s.clk.now, temp := c, decl := d, wait := none, unable := 0, bad := 0, since := 0 })) s1
  else s1.modPart e n (fun p => { p with wait := some (v, s.clk.now, c, d) })

/-- Fault source of a retired part (R266). -/
def retireSrc (n : Nat) : Nat := 32 + partGroup n
/-- Number of a part within its kind. -/
def partIdx (n : Nat) : Nat := if partGroup n = 0 then n else if partGroup n = 1 then n - 17 else n - 19

/-- Bit of LSTAT that shows the retirement of part n of lane e (R129, R133). -/
def retBit (e n : Nat) : FRef :=
  if partGroup n = 0 then F.le_lstat_slice_ret e else if partGroup n = 1 then F.le_lstat_delay_ret e else F.le_lstat_cmp_ret e

/-- A pin-lane part is retired (R23, R255): the other parts of its kind stay in service. -/
def retirePart (s : State) (e n : Nat) : State :=
  let s1 := (s.modPart e n (fun p => { p with retired := true, wait := none })).put (retBit e n) 1
  let s2 := s1.modC e (fun c =>
    if partGroup n = 0 then { c with slice := n } else if partGroup n = 1 then { c with delay := n - 17 } else { c with cmp := n - 19 })
  fault s2 (retireSrc n) e .corrected (partIdx n)

/-- An express part is held out (R255). -/
def holdPart (s : State) (e n : Nat) : State :=
  let p := s.partOf e n
  let s1 := s.modPart e n (fun q => { q with held := true, wait := none, bad := 0 })
  if p.unable = 0 ∨ p.cause ≠ 4 then
    laneUnable (s1.modPart e n (fun q => { q with unable := 1, cause := 4, since := 0 })) e 4 (partGroup n) false
  else s1

/-- A reject of a part (R254, R258): after the third in succession CAL_UNABLE with cause PART. -/
def rejectPart (s : State) (e n : Nat) : State :=
  let s1 := s.modPart e n (fun p => { p with bad := p.bad + 1 })
  let p := s1.partOf e n
  if p.bad = 3 ∧ (p.unable = 0 ∨ p.cause ≠ 3) then
    laneUnable (s1.modPart e n (fun q => { q with unable := 1, cause := 3, since := 0 })) e 3 (partGroup n) false
  else s1

/-- A walk without an acceptance after the first CAL_UNABLE of a part: the tenth makes the second record (R258). -/
def laterWalk (s : State) (e n was : Nat) : State :=
  let p := s.partOf e n
  if was = 0 ∨ p.unable ≠ 1 then s
  else
    let s1 := s.modPart e n (fun q => { q with since := q.since + 1 })
    if 10 ≤ p.since + 1 then laneUnable (s1.modPart e n (fun q => { q with unable := 2 })) e p.cause (partGroup n) true else s1

/-- Judge the result of part n of lane e at the end of walk number w (R254, R255). -/
def judgePart (s : State) (e n w : Nat) (full : Bool) : State :=
  let p := s.partOf e n
  let s0 := s.modPart e n (fun q => { q with cur := none })
  let s1 := match p.cur with
    | none => s0
    | some v =>
      if !allWithin (windowOf n) v then rejectPart (s0.modPart e n (fun q => { q with prev := none })) e n
      else
        let s1 := s0.modPart e n (fun q => { q with prev := some (w, v) })
        match p.prev with
        | some (w', u) =>
          if w' + 1 ≠ w then s1
          else if !agree (tolOf n) u v then rejectPart s1 e n
          else if !allWithin (rangeOf n) u && !allWithin (rangeOf n) v then
            if 512 ≤ e then holdPart s1 e n else if spent s1 e (partGroup n) then s1 else retirePart s1 e n
          else acceptPart s1 e n (meanOf u v) full
        | none => s1
  laterWalk s1 e n p.unable

/-- The mean of two bin widths in 1/1,024 ps, rounded to the trim step of 0.005 ps (R254), as the register holds it in 1/1,024 ps (R263). -/
def tdcMean (a b : Nat) : Nat := divRound (divRound ((a + b) * 25) 256 * 128) 25

/-- The converters of room t are judged at the end of a walk (R254, R255, R258). -/
def judgeConv (s : State) (t : Nat) : State :=
  let w := s.walkOf t
  let was := w.convUnable
  let good := w.convOk
  let s1 := s.modW t (fun x => { x with prevConv := if good then some (x.n, x.adc, x.tdc) else none })
  let s2 := match w.prevConv with
    | some (k, a, b) =>
      if !good ∨ k + 1 ≠ w.n then s1
      else if (a - w.adc).natAbs ≤ 20 ∧ ((b : Int) - w.tdc).natAbs * 100 ≤ 2048 then
        ((s1.put (F.calRoom_adc_gain t) (unsigned 32 (idivRound (a + w.adc) 2))).put (F.calRoom_tdc_bin t)
          (tdcMean b w.tdc)).modW t (fun x => { x with convBad := 0, convUnable := 0, convSince := 0 })
      else s1.modW t (fun x => { x with convBad := x.convBad + 1 })
    | none => s1
  let s3 := s2.when (!good) (·.modW t (fun x => { x with convBad := x.convBad + 1 }))
  let x := s3.walkOf t
  let rec_ (u : State) (second : Bool) : State :=
    let (r, v) := u.draw
    calUnable v t 3 3 (bitsOf r 0 9) false second
  if x.convBad = 3 ∧ x.convUnable = 0 then rec_ (s3.modW t (fun y => { y with convUnable := 1 })) false
  else if was = 1 ∧ x.convUnable = 1 then
    let s4 := s3.modW t (fun y => { y with convSince := y.convSince + 1 })
    if 10 ≤ x.convSince + 1 then rec_ (s4.modW t (fun y => { y with convUnable := 2 })) true else s4
  else s3

/-- A walk of table t ends, about 200 ms after it began (R251, R254-R258): its results are judged, and the trace status of its lanes
is re-evaluated. -/
def walkEnd (s0 : State) (t : Nat) : State :=
  let w0 := s0.walkOf t
  let paused := s0.on F.cal_ctl_pause && w0.initial == 0 && w0.full == 0
  if !w0.on || paused || inSafe s0 then s0
  else
    let s := endRecal (advanceNow s0 (w0.startAt + 200000 * usU)) t
    let w := s.walkOf t
    let counts := w.ok && w.keep
    let full := decide (0 < w.initial) || decide (0 < w.full)
    let s1 := if t < 32 ∧ w.keep ∧ w.refOk then judgeConv s t else s
    let s2 := (enginesOf t).foldl (fun u e => (partsOf e).foldl (fun v n =>
        if counts then judgePart v e n w.n full else laterWalk (v.modPart e n (fun q => { q with cur := none })) e n (v.partOf e n).unable) u) s1
    let s3 := s2.modW t (fun x => { x with
      on := false, back := if w.ok then x.back - 1 else x.back, initial := x.initial - 1, full := x.full - 1
      okRun := if w.ok then x.okRun + 1 else 0, need := x.need && !(w.ok && decide (2 ≤ x.okRun + 1))
      refFail := !w.refOk, rej := if w.refOk then 0 else x.rej })
    let s4 := (s3.count (walkStat t 24 8) 1).when w.ok (·.put (walkStat t 0 3) 0)
    let s5 := s4.when (decide (w.full = 1)) (·.put (walkRes t) 2)
    let s6 := showMode (showInitial s5) t
    let s7 := s6.when (decide (w.initial = 1) || decide (w.full = 1)) (releaseLanes · t)
    traceTable s7 t

/-- R254. -/
def execWalkEnd (t : TableId) (s : State) : Host.Outcome State Fault Refusal := .next (walkEnd s t)

/-- The part of lane e that part n replaces in service (R253): the slice whose trim is oldest, or the other one of its kind. -/
def counterpart (s : State) (e n : Nat) : Nat :=
  if partGroup n = 1 then 35 - n else if partGroup n = 2 then 39 - n
  else if 512 ≤ e then 16 - n
  else
    (((List.range 17).filter (fun k => inService s e k)).foldl (fun m k =>
      match m with
      | none => some k
      | some j =>
        let a := (s.partOf e k).atT
        let b := (s.partOf e j).atT
        if (match a, b with
          | none, some _ => true
          | some x, some y => decide (x < y)
          | _, none => false) then some k else some j) none).getD n

/-- 2 ns in 2^-16 beat. -/
def twoNs : Nat := 838861

/-- Lane e plays, with no filler run to come: what it plays in the next 2 ns can be told (R253). -/
def playsNow (s : State) (e : Nat) : Option Play :=
  match (s.engine e).play with
  | some p => if (s.laneOf e).mode == .playing && decide (p.t0 ≤ t16Now s) then some p else none
  | none => none

/-- Vectors or UI of lane e whose edges may fall in the next 2 ns, as instants of their boundaries and codes (R122). -/
def nearCodes (s : State) (e : Nat) (p : Play) : List (Int × Nat) :=
  let x := s.engine e
  let lo : Int := phaseAt x.set x.epoch (t16Now s) / 2 ^ 64 - (lateSpan x.set : Nat)
  (List.range (lateSpan x.set + earlySpan s e x.set + vectorsIn x.set 13)).filterMap (fun i =>
    (playedAt s e p (lo + (i : Int))).map (fun g => (placedT x.set x.epoch (lo + (i : Int)), vcode g.1 g.2.1)))

/-- Edge slot n of a vector at t with a code lies in the next 2 ns: at its instant, earlier by the declared path for a drive edge and later for a
strobe (R122, R261). -/
def edgeNear (s : State) (e : Nat) (x : Int × Nat) (n : Nat) (strobe : Bool) : Bool :=
  let st := (s.engine e).set
  let d := (s.laneOf e).offv * ((st.freq * 1000 : Nat) : Int)
  let at_ := edgeAt s st.freq e (setOf st x.2) n + (if strobe then d else -d)
  let from_ := ((t16Now s : Int) - x.1) * ((256000 * st.freq : Nat) : Int)
  decide (from_ ≤ at_ * 2 ^ 16) && decide (at_ * 2 ^ 16 ≤ from_ + (twoNs * 256000 * st.freq : Nat))

/-- A vector places a driver edge in the next 2 ns (R123); D_ON counts on every vector that could place it. -/
def driveEdge (s : State) (e : Nat) (x : Int × Nat) : Bool :=
  let c := x.2 % 8
  if c = 3 then false
  else if c < 2 then edgeNear s e x 0 false || edgeNear s e x 1 false || (tsDrive s e (setOf (s.engine e).set x.2) != 0 && edgeNear s e x 2 false)
  else edgeNear s e x 0 false

/-- A vector is judged in the next 2 ns: a strobe falls there, or a window of it opens, closes or is open (R123). -/
def judgeEdge (s : State) (e : Nat) (x : Int × Nat) : Bool :=
  let st := (s.engine e).set
  let i := setOf st x.2
  let w := tsWindow s e i
  let from_ := ((t16Now s : Int) - x.1) * ((256000 * st.freq : Nat) : Int)
  let d := (s.laneOf e).offv * ((st.freq * 1000 : Nat) : Int)
  decide (4 ≤ x.2 % 8) && (edgeNear s e x 3 true || w && (edgeNear s e x 2 true ||
    decide ((edgeAt s st.freq e i 2 + d) * 2 ^ 16 < from_) && decide (from_ < (edgeAt s st.freq e i 3 + d) * 2 ^ 16)))

/-- Lane e offers a quiet span of the kind of part n from the present instant (R253): a lane that does not play, or whose driver is off, does so at
any time for its driver's parts. That the new sampler decided as the old one on 1,024 UI is the event itself (DESIGN CHOICE, log entry 75). -/
def quietSpan (s : State) (e n : Nat) : Bool :=
  match playsNow s e with
  | none => true
  | some p =>
    if e < 512 then
      if partGroup n = 2 then (s.engine e).set.cmpm % 2 == 0 || !(nearCodes s e p).any (judgeEdge s e)
      else !(nearCodes s e p).any (driveEdge s e)
    else if partGroup n = 2 then true
    else
      let x := s.engine e
      let k : Int := phaseAt x.set x.epoch (t16Now s) / 2 ^ 64
      let c := conditionAt s e p (k + 1)
      [2, 3, 4].all (fun i => conditionAt s e p (k + i) == c)

/-- A quiet span occurs on lane e and an accepted part is exchanged with its in-service counterpart (R253): not in the core cycle of a
naming that changes the level set or the pair (R262), nor during a rejected walk (R258). -/
def trimExchange (s : State) (e n : Nat) : State :=
  let w := s.walkOf (tableOf e)
  let naming := match (s.engine e).next with
    | some p => p.namedAt == coreNow s && (p.pend.tset.isSome || p.pend.lvl.isSome)
    | none => false
  match (s.partOf e n).wait with
  | none => s
  | some (v, at_, c, d) =>
    if naming || (w.on && !w.ok) || inService s e n || inSafe s || !quietSpan s e n then s
    else
      let o := counterpart s e n
      let s1 := s.modPart e n (fun p => { p with trim := v, atT := some at_, temp := c, decl := d, wait := none, prev := none })
      let s2 := s1.modC e (fun x =>
        if partGroup n = 0 then { x with slice := o } else if partGroup n = 1 then { x with delay := o - 17 } else { x with cmp := o - 19 })
      showTrace s2 e

/-- R253. -/
def execTrimExchange (e : Eng) (part : PartKind) (s : State) : Host.Outcome State Fault Refusal :=
  .next (if partFits e part then trimExchange s e (partNo part) else s)

/-! ### Declarations, pause, full walks (R248, R262) -/

/-- A declared value of REFT or REFV out of its range (R248). -/
def badRef (reft : Bool) (x : Nat) : Bool :=
  x != 0 && (if reft then decide (x < 10000000) || decide (250000000 < x) else decide (x < 1000000) || decide (2500000 < x))

/-- House firmware loads a declaration from the parameter block (R248): one out of its range is dropped. -/
def loadDecl (s : State) (reft : Bool) (v : Word) : State :=
  if badRef reft v.toNat then s.raise F.cal_stat_decl_rej
  else if reft then s.put F.cal_reftDecl_hz v.toNat else s.put F.cal_refvDecl_uv v.toNat

/-- A reference declaration is written (R248): out of range it is dropped; else every lane becomes UNTRACED, and the walks in progress
and the results before count no longer. -/
def refDecl (s : State) (reft : Bool) (v : Nat) : State :=
  let x := if reft then v % 2 ^ 28 else v % 2 ^ 22
  if badRef reft x then s.raise F.cal_stat_decl_rej
  else
    let s1 := if reft then s.put F.cal_reftDecl_hz x else s.put F.cal_refvDecl_uv x
    let s2 := (List.range 48).foldl (fun u t => u.modW t (fun w => { w with keep := w.keep && !w.on, prevConv := none })) s1
    let s3 := { s2 with cal := { s2.cal with decl := s2.cal.decl + 1 } }
    allUntraced (s3.mapParts (fun p => { p with prev := none, cur := none }))

/-- R248. -/
def execRefDeclWrite (reft : Bool) (val : Word) (s : State) : Host.Outcome State Fault Refusal :=
  .next (infraCmd s (refDecl · reft val.toNat))

/-- CAL.CTL.pause (R262): background walks stop at the end of the visit and go on at the next lane. -/
def calPause (s : State) (on : Bool) : State := (List.range 48).foldl showMode (s.put F.cal_ctl_pause (bit on))

/-- R262. -/
def execCalPause (on : Bool) (s : State) : Host.Outcome State Fault Refusal := .next (infraCmd s (calPause · on))

/-- CTL.full of room or quad t (R262): refused while an engine of it is ARMED, RUN or WAIT; dropped while one runs. -/
def fullWalk (s : State) (t : Nat) : State :=
  if 0 < (s.walkOf t).full then s
  else if (enginesOf t).any (active3 s) then s.put (walkRes t) 3
  else
    let s1 := (stopWalk (s.put (walkRes t) 1) t).modW t (fun w => { w with full := 2, initial := 0 })
    holdLanes (showMode (showInitial s1) t) t

/-- R262. -/
def execFullWalk (t : TableId) (s : State) : Host.Outcome State Fault Refusal :=
  .next (infraCmd s (fullWalk · t))

/-- CTL.abort of room or quad t (R68, R262). -/
def fullWalkAbort (s : State) (t : Nat) : State :=
  if (s.walkOf t).full = 0 then s.put (walkRes t) 5
  else
    let s1 := (stopWalk (s.put (walkRes t) 4) t).modW t (fun w => { w with full := 0 })
    releaseLanes (showMode s1 t) t

/-- R262. -/
def execFullWalkAbort (t : TableId) (s : State) : Host.Outcome State Fault Refusal :=
  .next (infraCmd s (fullWalkAbort · t))

/-! ### Path deskew (R259-R261) -/

/-- Lane l is declared with a far end that cannot be measured (R259). -/
def badDecl (s : State) (l : Nat) : Bool :=
  let k := s.f (F.dskLane_cfg_far_end l)
  let r := s.f (F.dskLane_cfg_rterm l)
  k == 3 || (k == 2 && decide (27 ≤ r) && decide (r ≤ 92))

/-- DSK.CTL.go (R259): dropped while a deskew runs, and in the safe state (R270); busy and badly declared lanes are skipped, and the others leave
their park state: the driver launches its steps. -/
def deskewGo (s0 : State) (avg : Nat) : State :=
  let s := s0.put F.cal_dskCtl_avg_log2 avg
  if s.on F.cal_dskStat_busy || inSafe s then s
  else
    let lanes := (List.range 512).filter (fun l => s.on ⟨R.dskMask_mask (l / 32), l % 32, 1⟩)
    let s1 := lanes.foldl (fun u l =>
      if active3 u l then u.put (F.dskLane_result_status l) 5
      else if badDecl u l then u.put (F.dskLane_result_status l) 6 else u) s
    let go := lanes.filter (fun l => !active3 s l && !badDecl s l)
    let s2 := go.foldl (fun u l => u.modL l (fun x => if x.mode == .parked then { x with mode := .measuring, drv := 1 } else x)) s1
    (({ s2 with cal := { s2.cal with dsk := go } }).put F.cal_dskStat_busy 1).put F.cal_dskStat_res 1

/-- R259. -/
def execDeskewGo (avgLog2 : Fin 16) (s : State) : Host.Outcome State Fault Refusal :=
  .next (infraCmd s (deskewGo · avgLog2))

/-- DSK.CTL.abort (R68, R261): lanes not yet finished keep their results. -/
def deskewAbort (s : State) : State :=
  if !s.on F.cal_dskStat_busy then s.put F.cal_dskStat_res 3
  else
    let u := endMeasure s
    (({ u with cal := { u.cal with dsk := [] } }).put F.cal_dskStat_busy 0).put F.cal_dskStat_res 4

/-- R261. -/
def execDeskewAbort (s : State) : Host.Outcome State Fault Refusal := .next (infraCmd s deskewAbort)

/-- The measured Γ lies within 0.15 of the declared one (R260): +1 OPEN, -1 SHORT, (rterm - 50) / (rterm + 50) TERM. -/
def gammaOk (s : State) (r : DeskewResult) : Bool :=
  let k := s.f (F.dskLane_cfg_far_end r.lane)
  let t : Int := s.f (F.dskLane_cfg_rterm r.lane)
  let (num, den) : Int × Int := if k = 0 then (1, 1) else if k = 1 then (-1, 1) else (t - 50, t + 50)
  decide ((r.gamma * den - 1000 * num).natAbs ≤ 150 * den.natAbs)

/-- The one-way path of a result in 1/256 beat: half of the mean round trip, upward, as R261's example has it (DEDUCED, log entry 73). -/
def onePath (r : DeskewResult) : Nat := divUp ((r.trip1 + r.trip2) * 64) 156250

/-- The check of R260 that a result fails: 2 REJ_AGREE, where the passes lie more than 2 ps apart, 3 REJ_GAMMA, 4 REJ_RANGE, where the one-way
path is not from 0.1 to 10 ns; 1 where it is accepted. -/
def deskewStatus (s : State) (r : DeskewResult) : Nat :=
  if 2000 < ((r.trip1 : Int) - r.trip2).natAbs then 2 else if !gammaOk s r then 3
  else if r.trip1 + r.trip2 < 400000 ∨ 40000000 < r.trip1 + r.trip2 then 4 else 1

/-- A lane's deskew result is accepted or rejected (R258, R260). -/
def deskewLane (s : State) (r : DeskewResult) : State :=
  let l := r.lane.val
  if !s.cal.dsk.contains l then s
  else
    let st := deskewStatus s r
    let s1 := (s.put (F.dskLane_result_status l) st).put (F.dskLane_result_gamma l) (unsigned 8 (idivRound (r.gamma * 64) 1000))
    let s2 := if st = 1 then
        ((s1.put (F.dskLane_result_path l) (onePath r)).put (F.dskLane_result_rejects l) 0).modC l
          (fun c => { c with dskUnable := 0, dskSince := 0 })
      else
        let u := s1.countSat (F.dskLane_result_rejects l) 1
        let c := u.claneOf l
        if c.dskUnable = 0 then
          if u.f (F.dskLane_result_rejects l) = 3 then laneUnable (u.modC l (fun x => { x with dskUnable := 1, dskSince := 0 })) l 5 0 false
          else u
        else if c.dskUnable = 1 ∧ 10 ≤ c.dskSince + 1 then laneUnable (u.modC l (fun x => { x with dskUnable := 2 })) l 5 0 true
        else u.modC l (fun x => { x with dskSince := x.dskSince + 1 })
    showTrace s2 l

/-- The deskew ends (R260). -/
def deskewComplete (s : State) (rs : List DeskewResult) : State :=
  if !s.on F.cal_dskStat_busy then s
  else
    let s1 := endMeasure (rs.foldl deskewLane s)
    (({ s1 with cal := { s1.cal with dsk := [] } }).put F.cal_dskStat_busy 0).put F.cal_dskStat_res 2

/-- R260. -/
def execDeskewComplete (results : List DeskewResult) (s : State) : Host.Outcome State Fault Refusal := .next (deskewComplete s results)

/-- A TRACED lane becomes STALE (R256): now, where the temperature has moved, else when its oldest trim in service passes 10 s. -/
def traceStale (s : State) (e : Nat) : State :=
  if traceOf s e ≠ 1 then showTrace s e
  else match oldestTrim s e with
    | none => s
    | some (a, _) => showTrace (advanceNow s (a + staleU + 1)) e

/-- R256. -/
def execTraceStale (e : Eng) (s : State) : Host.Outcome State Fault Refusal := .next (traceStale s e)

end Sys2Proof.Machine
end

