-- ==== Sys2Proof/Machine/PorchLink.lean ====
section
/-! DEFINITION. The porch link (R302-R312, R390, R391) and the stream DMA of the host tile (R317-R319). -/

namespace Sys2Proof.Machine

/-! ### Frames that arrive -/

/-- A frame from the host end has reached the field end, in sequence (R304, R307). -/
def gotField (s : State) (m : Msg) : State :=
  (monEvent s 918 1).modP (fun p => { p with toField := p.toField.erase m, seqH := p.seqH + 1, fails := p.fails.filter (fun x => x.1) })

/-- A frame from the field end has reached the host end, in sequence (R304, R307). -/
def gotHost (s : State) (m : Msg) : State :=
  s.modP (fun p => { p with toHost := p.toHost.erase m, seqF := p.seqF + 1, fails := p.fails.filter (fun x => !x.1) })

/-! ### Stream DMA (R317-R319) -/

/-- Slots of queue i. -/
def dmaSize (s : State) (i : Nat) : Nat := 2 ^ (max 4 (min 12 (s.f (F.dmaq_size_size_log2 i))))

/-- Ring of a descriptor (R317). -/
def dmaRing (d : DmaDesc) : Nat := bitsOf d.w1 16 8

/-- Status with which a descriptor ends before it sends anything (R317, R318); none where it may send. -/
def dmaCheck (s : State) (d : DmaDesc) : Option Nat :=
  let v := bitsOf d.w0 24 8
  if !(decide (v < 32) && (s.reg R.hid_hcmdVer).getLsbD v) then some 3
  else if bitsOf d.w0 16 8 ≠ 1 ∨ bitsOf d.w0 9 7 ≠ 0 ∨ bitsOf d.w0 0 8 ≠ 0 ∨ d.w1 &&& 0xFF00FFF8 ≠ 0 then some 4
  else if bitsOf d.addr 0 6 ≠ 0 then some 5
  else none

/-- The latest credit of a ring at the host tile: limit, slices_log2. -/
def dmaCredit (s : State) (r : Nat) : Option (Nat × Nat) := (s.porch.credit.find? (fun x => x.1 == r)).map (·.2)

/-- The widths differ, where the porch version lets the host tile see it (R318). -/
def badWidth (s : State) (d : DmaDesc) : Bool :=
  match dmaCredit s (dmaRing d) with
  | some (_, w) => decide (2 ≤ s.f F.porch_stat_ver) && w != bitsOf d.w1 0 3
  | none => false

/-- Write word 6 of the descriptor in progress (R317). -/
def dmaWord6 (s : State) (i st sent : Nat) : State :=
  s.modD i (fun q => { q with
    done := q.done ++ [(s.f (F.dmaq_head_head i), BitVec.ofNat 32 (st * 2 ^ 24 + sent % 2 ^ 24))], cur := none, sent := 0 })

/-- The descriptor in progress ends with status 2 to 8 (R318): the queue halts at it. -/
def dmaHalt (s : State) (i st : Nat) : State :=
  let s1 := dmaWord6 s i st (s.dmaOf i).sent
  let s2 := ((s1.put (F.dmaq_stat_halted i) 1).put (F.dmaq_stat_err i) st).put (F.dmaq_stat_busy i) 0
  raiseVector s2 (10 + i)

/-- The descriptor in progress completes (R318). -/
def dmaDone (s : State) (i : Nat) (d : DmaDesc) : State :=
  let s1 := dmaWord6 s i 1 d.count.toNat
  let s2 := (s1.put (F.dmaq_head_head i) ((s.f (F.dmaq_head_head i) + 1) % dmaSize s i)).put (F.dmaq_stat_busy i) 0
  let s3 := s2.modD i (fun q => { q with descs := q.descs.tail })
  s3.when (d.w0.getLsbD 8) (raiseVector · (10 + i))

/-- Queue i executes descriptors from QHEAD in order while it is enabled (R317, R318): one that cannot send ends at once, one of no
positions completes at once; not in D3hot (R355). -/
def dmaRun (s : State) (i : Nat) : Nat → State
  | 0 => s
  | fuel + 1 =>
    let q := s.dmaOf i
    if !s.on (F.dmaq_ctl_en i) || s.on (F.dmaq_stat_halted i) || q.cur.isSome || s.porch.d3 || !s.porch.pcie then s
    else match q.descs with
      | [] => s
      | d :: _ =>
        let s1 := (s.modD i (fun x => { x with cur := some d, sent := 0 })).put (F.dmaq_stat_busy i) 1
        match dmaCheck s1 d with
        | some st => dmaHalt s1 i st
        | none => if d.count = 0 then dmaRun (dmaDone s1 i d) i fuel else if badWidth s1 d then dmaHalt s1 i 8 else s1

/-- Run queue i over what it holds. -/
def dmaGo (s : State) (i : Nat) : State := dmaRun s i ((s.dmaOf i).descs.length + 1)

/-- Descriptors of free words, for slots whose contents in host memory no command has given (log entry 13). -/
def drawDescs : Nat → State → List DmaDesc × State
  | 0, s => ([], s)
  | n + 1, s =>
    let (a, s1) := s.draw
    let (b, s2) := s1.draw
    let (c, s3) := s2.draw
    let (d, s4) := s3.draw
    let (e, s5) := s4.draw
    let (f, s6) := s5.draw
    let (ds, s7) := drawDescs n s6
    (⟨a, b, c, d, f ++ e⟩ :: ds, s7)

/-- QTAIL of queue i (R317): the slots up to it hold descriptors. -/
def dmaTail (s : State) (i tail : Nat) (descs : List DmaDesc) : State :=
  let n := dmaSize s i
  let new := (tail % n + n - s.f (F.dmaq_tail_tail i) % n) % n
  let (more, s1) := drawDescs (new - descs.length) s
  let s2 := (s1.put (F.dmaq_tail_tail i) tail).modD i (fun q => { q with descs := q.descs ++ (descs ++ more).take new })
  dmaGo s2 i

/-- R317. -/
def execDmaQtail (i : Fin 4) (tail : BitVec 12) (descs : List DmaDesc) (s : State) : Host.Outcome State Fault Refusal :=
  .next (dmaTail s i tail.toNat descs)

/-- Every position of the descriptor lies below the ring's limit (R318). -/
def dmaFits (s : State) (d : DmaDesc) : Bool :=
  match dmaCredit s (dmaRing d) with
  | some (l, _) => decide (signed 32 ((d.first.toNat + d.count.toNat + 2 ^ 32 - l % 2 ^ 32) % 2 ^ 32) ≤ 0)
  | none => false

/-- The last frame of queue i's descriptor is acknowledged, or its reads end in a PCIe error (R318). -/
def dmaComplete (s : State) (i : Nat) (err : Bool) : State :=
  match (s.dmaOf i).cur with
  | none => s
  | some d =>
    if err then
      let (w, s1) := s.draw
      hostFault (dmaHalt s1 i 7) 10 0 .contained w.toNat
    else if !porchUpH s || !dmaFits s d then s
    else dmaGo (dmaDone s i d) i

/-- R318. -/
def execDmaDescComplete (i : Fin 4) (err : Bool) (s : State) : Host.Outcome State Fault Refusal := .next (dmaComplete s i err)

/-- QCTL.restart (R318). -/
def dmaRestart (s : State) (i : Nat) : State :=
  if s.on (F.dmaq_stat_halted i) then dmaGo (s.put (F.dmaq_stat_halted i) 0) i else s

/-- R318. -/
def execDmaRestart (i : Fin 4) (s : State) : Host.Outcome State Fault Refusal := .next (dmaRestart s i)

/-- QCTL.abort (R319): after the frame in progress; idle or halted it reports NONE_ACTIVE. -/
def dmaAbort (s : State) (i : Nat) : State :=
  match (s.dmaOf i).cur with
  | none => s.put (F.dmaq_stat_abort_res i) 3
  | some _ => (dmaHalt s i 2).put (F.dmaq_stat_abort_res i) 2

/-- R319. -/
def execDmaAbort (i : Fin 4) (s : State) : Host.Outcome State Fault Refusal := .next (dmaAbort s i)

/-- QCTL.en of queue i. -/
def dmaEnable (s : State) (i : Nat) (on : Bool) : State := dmaGo (s.put (F.dmaq_ctl_en i) (bit on)) i

/-- Positions of the descriptor in progress that a frame has brought to the field end (R317). -/
def dmaSent (s : State) (r first k n : Nat) : State :=
  (List.range 4).foldl (fun u i =>
    let q := u.dmaOf i
    match q.cur with
    | some d =>
      if dmaRing d = r ∧ (d.first.toNat + q.sent) % 2 ^ 32 = first then
        u.modD i (fun x => { x with sent := min d.count.toNat (x.sent + (k + n) / 2 ^ bitsOf d.w1 0 3) })
      else u
    | none => u) s

/-! ### Messages -/

/-- A frame of another type, or of a length that does not match its type (R2, R305). -/
def foreignFrame (s : State) (dest : Side) (type : Nat) : State :=
  match dest with
  | .field => if porchUpF s then (monEvent s 918 1).countSat F.regf_fporchDrop_n 1 else s
  | .host => if porchUpH s then hostFault (s.countSat F.porch_drop_n 1) 6 0 .corrected type else s

/-- A STREAM_DATA frame reaches the field end (R305, R309): its width is checked against the ring's segment, and its granules are
judged under R171. -/
def streamData (s : State) (r first k slog : Nat) (data : List Granule) : State :=
  let m : Msg := .streamData (Fin.ofNat 256 r) (BitVec.ofNat 32 first) (BitVec.ofNat 7 k) (Fin.ofNat 8 slog) data
  if !porchUpF s then s
  else if !frameFits .field (msgHeader s.porch.seqH m) then foreignFrame s .field 0x10
  else
    let s1 := gotField s m
    if s1.f F.regf_fporchStat_ver = 1 ∧ 1 < data.length then s1.countSat F.regf_fporchDrop_n 1
    else streamIn (dmaSent s1 r first k data.length) ⟨r, first, k, some slog, false, .host, data⟩

/-- R305. -/
def execStreamData (ring : Fin 256) (first : Word) (firstSlice : BitVec 7) (slog : Fin 8) (data : List Granule) (s : State) :
    Host.Outcome State Fault Refusal := .next (streamData s ring first.toNat firstSlice.toNat slog data)

/-- A STREAM_CREDIT frame reaches the host tile (R305, R309, R318): at version 1 it carries no limit and no width; a queue that sends to
the ring at another width ends with BAD_WIDTH. -/
def streamCredit (s : State) (r : Nat) (rptr limit : Word) (slog : Fin 8) : State :=
  if !porchUpH s then s
  else
    let s1 := gotHost s (.streamCredit (Fin.ofNat 256 r) rptr limit slog)
    let l := if s1.f F.porch_stat_ver = 1 then (rptr.toNat + 2 ^ 31) % 2 ^ 32 else limit.toNat
    let s2 := s1.modP (fun p => { p with credit := p.credit.filter (fun x => x.1 != r) ++ [(r, l, slog.val)] })
    (List.range 4).foldl (fun u i =>
      match (u.dmaOf i).cur with
      | some d => if dmaRing d = r ∧ badWidth u d then dmaHalt u i 8 else u
      | none => u) s2

/-- R305. -/
def execStreamCredit (ring : Fin 256) (rptr limit : Word) (slog : Fin 8) (s : State) : Host.Outcome State Fault Refusal :=
  .next (streamCredit s ring rptr limit slog)

/-- R316: an IRQ frame reaches the host tile. -/
def execIrq (v : Fin 64) (s : State) : Host.Outcome State Fault Refusal :=
  .next (if porchUpH s then (gotHost s (.irq v)).when (irqEnabled s v) (raiseVector · v) else s)

/-- R390: a FAULT_NOTICE frame reaches the host. -/
def execFaultNotice (w0 w1 w2 w3 : Word) (s : State) : Host.Outcome State Fault Refusal :=
  .next (if porchUpH s then (gotHost s (.faultNotice w0 w1 w2 w3)).modP (fun p => { p with notices := p.notices ++ [(w0, w1, w2, w3)] })
    else s)

/-- An ALIVE_STATE frame arrives (R273, R391). -/
def aliveState (s : State) (dest : Side) (alive : Fin 4) (house : BitVec 64) (valid : Bool) : State :=
  match dest with
  | .host =>
    if !porchUpH s then s
    else ((gotHost s (.aliveState alive house valid)).modP (fun p => { p with
      hostTime := house.toNat, hostValid := valid, hostAt := s.clk.now, aliveF := alive.val })).put
        (F.flt_alive_other_run .host) (bit (alive.val == 1))
  | .field =>
    if !porchUpF s then s
    else ((gotField s (.aliveState alive house valid)).modP (fun p => { p with aliveH := alive.val })).put
        (F.flt_alive_other_run .field) (bit (alive.val == 1))

/-- R391. -/
def execAliveState (dest : Side) (alive : Fin 4) (house : BitVec 64) (valid : Bool) (s : State) :
    Host.Outcome State Fault Refusal := .next (aliveState s dest alive house valid)

/-- A VERSION_HELLO frame arrives during link-up (R309). -/
def versionHello (s : State) (dest : Side) (mask : Word) : State :=
  match dest with
  | .field => (gotField s (.versionHello mask)).modP (fun p => { p with helloF := some mask })
  | .host => (gotHost s (.versionHello mask)).modP (fun p => { p with helloH := some mask })

/-- R309. -/
def execVersionHello (dest : Side) (mask : Word) (s : State) : Host.Outcome State Fault Refusal := .next (versionHello s dest mask)

/-- R2. -/
def execForeignFrame (dest : Side) (type : BitVec 8) (s : State) : Host.Outcome State Fault Refusal :=
  .next (foreignFrame s dest type.toNat)

/-! ### Up and down (R309-R312) -/

/-- Versions that a side offers: those of its PORCH_VER up to max_ver, where 0 is taken as 1 (R309). -/
def offered (s : State) : Side → Word
  | .field => s.reg R.id_porchVer &&& BitVec.ofNat 32 (2 ^ (max 1 (s.f F.regf_fporchCfg_max_ver) + 1) - 1)
  | .host => s.reg R.hid_porchVer &&& BitVec.ofNat 32 (2 ^ (max 1 (s.f F.porch_cfg_max_ver) + 1) - 1)

/-- The highest version that two masks share, below 16. -/
def topVersion (m : Word) : Option Nat := ((List.range 16).filter (fun v => m.getLsbD v)).getLast?

/-- Both ends can bring the porch up (R309): out of reset, the field end enabled, the host tile past its boot. -/
def porchReady (s : State) : Bool :=
  s.boot.frst && s.boot.hrst && s.boot.porchOn && !s.boot.f4 && !s.porch.halt && decide (4 ≤ s.f F.hboot_stat_stage) &&
    !s.boot.resets.contains .porchHostEnd

/-- The porch comes up (R309, R312): crossings and a version are agreed; the field end sends credit, pending interrupts and its ALIVE
state, and the host tile raises vector 9. -/
def porchUp (s : State) : State :=
  if porchUpF s || porchUpH s || !porchReady s then s
  else
    let ok := (List.range 18).filter (fun x => !s.on ⟨R.porch_xfail, x, 1⟩)
    let use := ok.take 16
    match topVersion ((s.porch.helloF.getD (offered s .host)) &&& (s.porch.helloH.getD (offered s .field))) with
    | none => (s.raise F.porch_stat_ver_err).raise F.regf_fporchStat_ver_err
    | some v =>
      if use.isEmpty then s
      else
        let s1 := (((s.put F.porch_stat_up 1).put F.porch_stat_ver v).put F.porch_stat_used use.length).put F.porch_stat_degraded
          (bit (use.length < 16))
        let s2 := (((s1.put F.regf_fporchStat_up 1).put F.regf_fporchStat_ver v).put F.regf_fporchStat_used use.length).put
          F.regf_fporchStat_degraded (bit (use.length < 16))
        let s3 := (s2.put F.porch_xmap_in_use (use.foldl (fun a x => a + 2 ^ x) 0)).raise F.regf_fporchStat_went_down
        let s4 := s3.modP (fun p => { p with ver := some v, helloF := none, helloH := none, fails := [], seqF := 0, seqH := 0 })
        let s5 := (List.range 256).foldl (fun u r => u.when (u.f (F.ring_cfg_prod r) == 1) (sendCredit · r)) s4
        let s6 := (List.range 8).foldl (fun u g => u.when ((List.range 16).any (fun k =>
            u.on (F.src_stat_active .field (16 * g + k)) && u.on (F.src_cfg_int .field (16 * g + k)))) (irqField · (1 + g))) s5
        let s7 := sendAliveHost (sendAliveField s6)
        raiseVector (s7.raise F.porch_stat_went_down) 9

/-- R309. -/
def execPorchUp (s : State) : Host.Outcome State Fault Refusal := .next (porchUp s)

/-- The remaining granules of a store write that the store has in part: a REG_WR is applied whole or not at all (R311). -/
def finishWrite (s : State) : State :=
  match s.ctl.reqs.find? (fun r => r.use == 3), s.porch.wait with
  | some r, (.regWr _ .store _ d, _) :: _ => if 0 < r.idx then writeGrans true r.n s 52 r.gran (d.drop (64 * r.idx)) else s
  | _, _ => s

/-- Nothing waits at port 52 any more. -/
def dropWaiting (s : State) : State :=
  let s1 := finishWrite s
  { s1.modP (fun p => { p with wait := [] }) with ctl := { s1.ctl with reqs := s1.ctl.reqs.filter (fun r => r.use != 3), aperGot := [] } }

/-- The field end sees the porch go down (R310); the accesses that wait there are not answered (R311). -/
def porchDownF (s0 : State) : State :=
  if !porchUpF s0 then s0
  else
    let s := dropWaiting s0
    let s1 := (((s.put F.regf_fporchStat_up 0).put F.regf_fporchStat_ver 0).put F.regf_fporchStat_used 0).put F.regf_fporchStat_degraded 0
    ((s1.raise F.regf_fporchStat_went_down).put (F.flt_alive_other_run .field) 0).modP (fun p => { p with
      toHost := [], toField := [], irqPend := [], irqSent := [], ver := none, helloF := none, helloH := none, fails := [] })

/-- The host end sees the porch go down (R310, R311): LINK_DOWN is recorded, reads complete with all-ones, unacknowledged writes count,
and a DMA queue with a descriptor in progress halts. -/
def porchDownH (s : State) : State :=
  if !porchUpH s then s
  else
    let s1 := ((((s.put F.porch_stat_up 0).put F.porch_stat_ver 0).put F.porch_stat_used 0).put F.porch_stat_degraded 0).setReg R.porch_xmap 0
    let s2 := (s1.put (F.flt_alive_other_run .host) 0).countSat F.porch_lostwr_n s1.porch.writes
    let cp := s2.porch.reads.filterMap (fun r => match r.2 with
      | none => some (r.1, (0xFFFFFFFF : Word))
      | some _ => none)
    let hd := s2.porch.held.filterMap (fun m => match m with
      | .regRd tag .bar0 _ _ => some (tag, (0xFFFFFFFF : Word))
      | _ => none)
    let ap := s2.porch.reads.filterMap (fun r => r.2.map (fun n => (allOnes n, (0 : Fin 3))))
    let s3 := s2.modP (fun p => { p with
      toHost := [], toField := [], reads := [], writes := 0, held := [], ver := none, fails := []
      cpls := p.cpls ++ cp ++ hd, aper := p.aper ++ ap })
    let s4 := hostFault s3 3 0 .contained 0
    (List.range 4).foldl (fun u i => if (u.dmaOf i).cur.isSome then dmaHalt u i 6 else u) s4

/-- The porch goes down (R310). -/
def porchDown (s : State) : State := porchDownH (porchDownF s)

/-- The cause of a PORCH_DOWN holds (R310). -/
def downCause (s : State) : PorchDown → Bool
  | .sideReset => !s.boot.frst || !s.boot.hrst
  | .chipReset => !s.boot.porchOn
  | .hostFatal => s.porch.halt
  | .retryLimit => true
  | .silent => true
  | .noCrossing => true
  | .f4 => s.boot.f4

/-- R310. -/
def execPorchDown (why : PorchDown) (s : State) : Host.Outcome State Fault Refusal :=
  .next (if downCause s why then porchDown s else s)

/-- A crossing fails (R308): the lowest standby crossing takes its place, or the stripe goes on without it. -/
def crossingFail (s : State) (x : Nat) : State :=
  if !porchUpF s || !porchUpH s then s
  else
    let s1 := s.put ⟨R.porch_xfail, x, 1⟩ 1
    if !s.on ⟨R.porch_xmap, x, 1⟩ then s1
    else
      let s2 := s1.put ⟨R.porch_xmap, x, 1⟩ 0
      match firstBelow 18 (fun y => !s2.on ⟨R.porch_xmap, y, 1⟩ && !s2.on ⟨R.porch_xfail, y, 1⟩) with
      | some y =>
        hostFault (fault (s2.put ⟨R.porch_xmap, y, 1⟩ 1) 96 x .corrected 0) 4 x .corrected 0
      | none =>
        let n := s2.f F.porch_stat_used - 1
        if n = 0 then porchDown s2
        else
          let s3 := ((s2.put F.porch_stat_used n).put F.porch_stat_degraded 1)
          let s4 := (s3.put F.regf_fporchStat_used n).put F.regf_fporchStat_degraded 1
          hostFault (fault s4 97 0 .contained n) 5 0 .contained n

/-- R308. -/
def execCrossingFail (x : Fin 18) (s : State) : Host.Outcome State Fault Refusal := .next (crossingFail s x)

/-- Consecutive failures of the oldest frame from an end, this one included. -/
def failsOf (s : State) (field : Bool) : Nat := ((s.porch.fails.find? (fun x => x.1 == field)).map (·.2)).getD 0 + 1

/-- A frame that a side sent on the porch is sent again, with those after it (R307): the sixteenth failure in succession takes the porch
down. -/
def porchRetry (s : State) (sender : Side) : State :=
  let field := sender == .field
  if !(if field then porchUpF s else porchUpH s) then s
  else
    let n := failsOf s field
    let k := max 1 (min 64 s.porch.toHost.length)
    let s1 := s.modP (fun p => { p with fails := p.fails.filter (fun x => x.1 != field) ++ [(field, n)] })
    let s2 := if field then (monEvent s1 919 k).countSat F.regf_fporchRetry_n k else s1.countSat F.porch_retry_n 1
    if 16 ≤ n then porchDown s2 else s2

end Sys2Proof.Machine
end

