-- ==== Sys2Proof/Machine/Fabric.lean ====
section
/-! DEFINITION. The Abmir fabric: ports, census, routes, time transfer and services (R322-R345). Register accesses of other devices lie
in Machine/Bus.lean. -/

namespace Sys2Proof.Machine

/-- The fabric unit runs: boot stage 0x0A is reached and the house clock runs (R360). -/
def fabOn (s : State) : Bool := decide (10 ≤ s.f F.id_bootStat_stage) && houseOpen s && !inSafe s && !s.boot.f4

/-- A packet has arrived on port p. -/
def gotPacket (s : State) (p : Nat) : State :=
  let s1 := monEvent s (909 + p) 1
  { s1 with fab := { s1.fab with fails := s1.fab.fails.filter (fun x => x.1 != p) } }

/-- Port on which packets of house h arrive: the one toward it. -/
def portFrom (s : State) (h : Nat) : Nat := ((nextHops s h).head?.orElse (fun _ => (upPorts s).head?)).getD 0

/-- A packet of house h has arrived. -/
def gotFrom (s : State) (h : Nat) : State := gotPacket s (portFrom s h)

/-! ### The census (R330-R332, R343-R345) -/

/-- Record a change of entry h on this device (R332). -/
def censusRecord (s : State) (h : Nat) : State := fault (s.raise F.fab_evt_census_change) 100 h .corrected 0

/-- Put UID, fingerprint and STATE of entry h. -/
def putEntry (s : State) (h u : Nat) (f : Nat) (st : Nat) (v2 : Bool) : State :=
  let s1 := (s.putPair (R.cens_uidLo h) (R.cens_uidHi h) u).putPair (R.cens_fprLo h) (R.cens_fprHi h) f
  (s1.put (F.cens_state_state h) st).put (F.cens_state_v2 h) (bit v2)

/-- Entry h as a CENSUS packet carries it. -/
def entryOf (s : State) (h : Nat) : CensusEntry :=
  ⟨Fin.ofNat 1024 h, BitVec.ofNat 64 (entryUid s h), BitVec.ofNat 64 (s.pair (R.cens_fprLo h) (R.cens_fprHi h)),
    Fin.ofNat 4 (entryState s h), s.on (F.cens_state_v2 h), Fin.ofNat 32 (s.f (F.cens_state_hops h))⟩

/-- The keeper floods its changes (R330). -/
def floodCensus (s : State) (hs : List Nat) : State :=
  if !s.on F.fab_stat_keeper then s
  else
    let s1 := { s with fab := { s.fab with censusSeq := (s.fab.censusSeq + 1) % 2 ^ 32 } }
    fabFlood s1 (.census (BitVec.ofNat 32 s1.fab.censusSeq) (BitVec.ofNat 64 (ownUid s1)) (hs.map (entryOf s1)))

/-- Hops, depth, device count and absent entries after a change of links or census (R331, R333, R334). The keeper marks a device that it
cannot reach ABSENT. -/
def topology (s : State) : State :=
  if !s.on F.fab_stat_census_valid then s
  else
    let d := distances s (ownHouse s)
    let here := presentHouses s
    let gone := if s.on F.fab_stat_keeper then here.filter (fun h => (distTo d h).isNone) else []
    let s1 := here.foldl (fun u h => match distTo d h with
      | some n => u.put (F.cens_state_hops h) n
      | none => u) s
    let s2 := gone.foldl (fun u h => censusRecord (u.put (F.cens_state_state h) 3) h) s1
    let s3 := { s2 with fab := { s2.fab with guests := s2.fab.guests.filter (fun g => !gone.contains g.1) } }
    let s4 := s3.put F.fab_stat_devices (here.length - gone.length)
    let s5 := match keeperHouse s4 with
      | some k => match distTo d k with
        | some n => s4.put F.fab_stat_depth n
        | none => s4
      | none => s4
    if gone.isEmpty then s5 else floodCensus s5 gone

/-- Exchanges held for port p. -/
def exchOf (s : State) (p : Nat) : List (Int × Int) := ((s.fab.exch.find? (fun x => x.1 == p)).map (·.2)).getD []

/-- Take port p as the port to the time parent (R334, R338). -/
def takeParent (s : State) (p : Nat) : State :=
  { s.put F.fab_stat_parent p with fab := { s.fab with parentOn := true, sinceStep := (exchOf s p).length } }

/-- Choose the time parent (R334): the keeper and a GUEST have none; where the present one still qualifies, a better one replaces it only
once its exchanges are averaged; a lost one is left to PARENT_LOSS. -/
def chooseParent (s : State) : State :=
  if s.on F.fab_stat_keeper || s.on F.fab_stat_guest || !s.on F.fab_stat_census_valid then
    { s with fab := { s.fab with parentOn := false } }
  else
    let ps := parentPorts s
    match ps with
    | [] => s
    | p :: _ =>
      if !s.fab.parentOn then takeParent s p
      else if ps.contains (s.f F.fab_stat_parent) && p != s.f F.fab_stat_parent && decide (16 ≤ (exchOf s p).length) then takeParent s p
      else s

/-- After any change of links or census. -/
def fabChanged (s : State) : State := chooseParent (topology s)

/-- This device floods its LSA (R333). -/
def sendLsa (s : State) : State :=
  let s1 := { s with fab := { s.fab with lsaSeq := (s.fab.lsaSeq + 1) % 2 ^ 32 } }
  fabFlood s1 (.lsa s1.fab.lsaSeq ((ownLinks s1).map (fun x => ⟨Fin.ofNat 1024 x.2, s1.f (F.fport_delay_d x.1)⟩)))

/-- The lowest free house number (R331). -/
def freeHouse (s : State) : Option Nat := firstBelow 1024 (fun h => entryState s h == 0)

/-- A device becomes a GUEST at house h (R344); at an ABSENT device's house the entry keeps that device's identity until admission. -/
def makeGuest (s : State) (h : Nat) (u f : BitVec 64) (v2 : Bool) : State :=
  let s1 := if entryState s h = 3 then (s.put (F.cens_state_state h) 2).put (F.cens_state_v2 h) (bit v2)
    else putEntry s h u.toNat f.toNat 2 v2
  let s2 := { s1 with fab := { s1.fab with guests := s1.fab.guests.filter (fun (g : Nat × BitVec 64 × BitVec 64) => g.1 != h) ++ [(h, u, f)] } }
  censusRecord (s2.raise F.fab_evt_guest_seen) h

/-- A device becomes a MEMBER at house h (R331). -/
def makeMember (s : State) (h : Nat) (u f : BitVec 64) (v2 : Bool) : State := censusRecord (putEntry s h u.toNat f.toNat 1 v2) h

/-- The keeper takes the device that has appeared on port p into its census (R331, R343, R344). -/
def joinDevice (s : State) (p : Nat) : State :=
  let u := BitVec.ofNat 64 (nbrUid s p)
  let v2 := s.f (F.fport_stat_ver p) == 2
  let f := if v2 then 0 else ((s.fab.fprs.find? (fun x => x.1 == p)).map (·.2)).getD 0
  let same (h : Nat) : Bool := entryUid s h == u.toNat && (v2 || s.pair (R.cens_fprLo h) (R.cens_fprHi h) == f.toNat)
  let here := (List.range 1024).find? (fun h => entryState s h == 1 && entryUid s h == u.toNat)
  let back := (List.range 1024).find? (fun h => entryState s h == 3 && same h)
  let other := (List.range 1024).find? (fun h => entryState s h == 3 && s.fab.seen.contains (h, p) && !same h)
  let sigOk := v2 || Config.signatureOk u
  let note (v : State) (h : Nat) : State := floodCensus { v with fab := { v.fab with seen := v.fab.seen.filter (fun x => x != (h, p)) ++ [(h, p)] } } [h]
  if s.fab.guests.any (fun g => g.2.1 == u && g.2.2 == f && entryState s g.1 == 2) then s
  else
    match here with
    | some h =>
      if same h then { s with fab := { s.fab with seen := s.fab.seen.filter (fun x => x != (h, p)) ++ [(h, p)] } }
      else match freeHouse s with
        | some k => note (makeGuest s k u f v2) k
        | none => s
    | none =>
      match other with
      | some h => note (makeGuest s h u f v2) h
      | none =>
        let target := back.orElse (fun _ => freeHouse s)
        match target with
        | none => s
        | some h =>
          if !sigOk || (s.on F.fab_cfg_seal && back.isNone) then
            match freeHouse s with
            | some k => note (makeGuest s k u f v2) k
            | none => s
          else note (makeMember s h u f v2) h

/-- The time root keeps its own time, which is valid (R336). -/
def rootTime (s : State) : State :=
  let s1 := ((s.put F.time_stat_src 0).put F.time_stat_valid (bit (houseOpen s))).put F.fab_evt_step_wait 0
  { s1 with fab := { s1.fab with hadTime := true } }

/-- This device forms a census (R330, R331): it is keeper and time root, house 0, and its time is valid. -/
def formCensus (s : State) : State :=
  let f := s.pair R.fab_fprLo R.fab_fprHi
  let s1 := (((s.put F.fab_stat_census_valid 1).put F.fab_stat_keeper 1).put F.fab_stat_guest 0).put F.fab_stat_house 0
  let s2 := s1.putPair R.fab_keeperLo R.fab_keeperHi (ownUid s)
  let s3 := makeMember s2 0 (BitVec.ofNat 64 (ownUid s)) (BitVec.ofNat 64 f) false
  (upPorts s3).foldl joinDevice (rootTime s3)

/-- A link is new on port p (R329, R330, R333). -/
def linkNew (s : State) (p : Nat) : State :=
  let s1 := { s with fab := { s.fab with exch := s.fab.exch.filter (fun x => x.1 != p), reqs := s.fab.reqs.filter (fun x => x.1 != p) } }
  let s2 :=
    if s1.on F.fab_stat_keeper then joinDevice s1 p
    else if !s1.on F.fab_stat_census_valid && (upPorts s1).all (fun q => decide (ownUid s1 < nbrUid s1 q)) then formCensus s1
    else s1
  fabChanged (sendLsa s2)

/-! ### Ports (R323-R325, R329) -/

/-- What the fabric unit drops for a port whose link has ended (R333, R335): its exchanges and counts; the topology changes. -/
def portGone (s : State) (p : Nat) : State :=
  let s1 := { s with fab := { s.fab with
    exch := s.fab.exch.filter (fun x => x.1 != p), reqs := s.fab.reqs.filter (fun x => x.1 != p)
    fails := s.fab.fails.filter (fun x => x.1 != p) } }
  fabChanged (sendLsa s1)

/-- A port goes down with a reason (R325). -/
def downPort (s : State) (p r : Nat) : State :=
  let st := s.f (F.fport_stat_state p)
  if st = 0 ∨ (st = 4 ∧ r ≠ 6) then s
  else
    let s1 := portAnnounceDown s p r
    let s2 := if r = 6 then (s1.put (F.fport_stat_state p) 0).put (F.fport_stat_reason p) 6 else s1
    portGone (if 1 ≤ r ∧ r ≤ 5 then fault s2 99 p .contained r else s2) p

/-- Code of a reason (R325). -/
def downCode : DownReason → Nat
  | .noLane => 1
  | .version => 2
  | .silent => 3
  | .pll => 4
  | .retry => 5
  | .host => 6
  | .fatal => 7

/-- The reason of a PORT_DOWN holds. -/
def downHolds (s : State) (p : Nat) : DownReason → Bool
  | .noLane => true
  | .version => true
  | .silent => true
  | .pll => !pllOpen s (53 + p)
  | .retry => true
  | .host => !s.on (F.fport_cfg_en p)
  | .fatal => inSafe s

/-- R325. -/
def execPortDown (p : FPort) (why : DownReason) (s : State) : Host.Outcome State Fault Refusal :=
  .next (if downHolds s p why then downPort s p (downCode why) else s)

/-- A lane of port p fails (R323). -/
def fabLaneFail (s : State) (p lane : Nat) : State :=
  let l : FRef := ⟨R.fport_stat p, 8 + lane, 1⟩
  if s.f (F.fport_stat_state p) ≠ 3 ∨ !s.on l then s
  else
    let s1 := s.put l 0
    if s1.f (F.fport_stat_lanes p) = 0 then downPort s1 p 1 else fault s1 98 p .corrected lane

/-- R323. -/
def execFabLaneFail (p : FPort) (lane : Fin 4) (s : State) : Host.Outcome State Fault Refusal := .next (fabLaneFail s p lane)

/-- Port p's end of the link runs. -/
def portLive (s : State) (p : Nat) : Bool := fabOn s && s.on (F.fport_cfg_en p) && pllOpen s (53 + p)

/-- Highest fabric version that a mask shares with this device's, up to FAB.CFG.max_ver, where 0 and 1 are taken as 2 (R324). -/
def fabVersion (s : State) (mask : Word) : Option Nat :=
  topVersion (mask &&& s.reg R.id_fabVer &&& BitVec.ofNat 32 (2 ^ (max 2 (s.f F.fab_cfg_max_ver) + 1) - 1))

/-- A HELLO arrives on port p (R324, R329): it agrees a version; the first of a version-3 link retunes the port's PLL; one that names
another neighbour counts as a new link. -/
def hello (s : State) (p : Nat) (uid : BitVec 64) (mask : Word) (fpr : BitVec 64) (port : Nat) : State :=
  if !portLive s p then s
  else
    let s0 := gotPacket s p
    match fabVersion s mask with
    | none => downPort (if s0.f (F.fport_stat_state p) = 4 ∨ s0.f (F.fport_stat_state p) = 0 then s0.put (F.fport_stat_state p) 1 else s0) p 2
    | some v =>
      let st := s.f (F.fport_stat_state p)
      let other := nbrUid s p != uid.toNat
      let s1 := (s0.putPair (R.fport_nbrLo p) (R.fport_nbrHi p) uid.toNat).put (F.fport_stat_nbr_port p) port
      let s2 := { s1 with fab := { s1.fab with fprs := s1.fab.fprs.filter (fun x => x.1 != p) ++ [(p, fpr)] } }
      if st = 3 then (if other then linkNew s2 p else s2)
      else
        let again := st = 2 ∧ s.f (F.fport_stat_ver p) = v
        let s3 := (s2.put (F.fport_stat_state p) 2).put (F.fport_stat_ver p) v
        if v = 3 ∧ ¬again then planClose s3 (53 + p) else s3

/-- R329. -/
def execHello (p : FPort) (uid : BitVec 64) (mask : Word) (fpr : BitVec 64) (port : FPort) (s : State) :
    Host.Outcome State Fault Refusal := .next (hello s p uid mask fpr port)

/-- A port that has exchanged HELLO comes up (R324): its failed lanes are tried again; in F3 the link has one lane (R347). -/
def portLinkUp (s : State) (p : Nat) : State :=
  if !portLive s p || s.f (F.fport_stat_state p) != 2 then s
  else
    let s1 := (s.put (F.fport_stat_state p) 3).put (F.fport_stat_lanes p) (if s.f F.pwr_stat_state = 3 then 1 else 15)
    linkNew (monEvent s1 (901 + p) 1) p

/-- R324. -/
def execPortLinkUp (p : FPort) (s : State) : Host.Outcome State Fault Refusal := .next (portLinkUp s p)

/-! ### LSA, CENSUS, keeper, ADMIT -/

/-- An LSA arrives (R333): a newer one of its source replaces the one held. -/
def lsaIn (s : State) (src seq : Nat) (links : List LsaLink) : State :=
  if !fabOn s || (upPorts s).isEmpty || src == ownHouse s then s
  else
    let s1 := gotFrom s src
    let fresh := match s1.fab.lsas.find? (fun x => x.1 == src) with
      | some (_, q, _) => decide (0 < signed 32 ((seq + 2 ^ 32 - q) % 2 ^ 32))
      | none => true
    if fresh then fabChanged { s1 with fab := { s1.fab with lsas := s1.fab.lsas.filter (fun x => x.1 != src) ++ [(src, seq, links)] } }
    else s1

/-- R333. -/
def execLsa (src : House) (seq : Word) (links : List LsaLink) (s : State) : Host.Outcome State Fault Refusal :=
  .next (lsaIn s src seq.toNat links)

/-- An entry of a CENSUS packet replaces this device's copy (R330, R332). -/
def applyEntry (s : State) (e : CensusEntry) : State :=
  let h := e.house.val
  let old := entryState s h
  let moved := entryUid s h != e.uid.toNat
  let st := e.state.val
  let change := old != st || moved
  let s1 := putEntry s h e.uid.toNat e.fpr.toNat st e.v2
  let s2 := { s1 with fab := { s1.fab with
    guests := s1.fab.guests.filter (fun (g : Nat × BitVec 64 × BitVec 64) => g.1 != h) ++ (if st = 2 then [(h, e.uid, e.fpr)] else [])
    admits := s1.fab.admits.filter (fun a => a != h) } }
  let s3 := s2.when (s.fab.admits.contains h && (st == 0 || st == 3)) (·.raise F.fab_evt_admit_err)
  let s4 := s3.when (change && st == 2) (·.raise F.fab_evt_guest_seen)
  let rec_ := change && (st == 2 || st == 3 || (st == 1 && (old == 0 || moved)))
  if rec_ then censusRecord s4 h else s4.when change (·.raise F.fab_evt_census_change)

/-- Entries of a packet, with this device's standing in the census: its house number, and whether it is GUEST (R332, R344). -/
def applyCensus (s : State) (seq : Nat) (own : Nat) (entries : List CensusEntry) : State :=
  let joined := !s.on F.fab_stat_census_valid
  let s1 := entries.foldl applyEntry s
  let s2 := s1.when (!joined && ownHouse s != own) (·.raise F.fab_evt_renumbered)
  let s3 := (s2.put F.fab_stat_census_valid 1).put F.fab_stat_house own
  let g := entryState s3 own == 2
  let s4 := (s3.put F.fab_stat_guest (bit g)).put F.time_stat_src 1
  let s5 := s4.when (g || joined || s.on F.fab_stat_keeper) (fun u =>
    { u.put F.time_stat_valid 0 with fab := { u.fab with hadTime := false, sinceStep := 0 } })
  fabChanged { s5.put F.fab_stat_keeper 0 with fab := { s5.fab with censusSeq := seq } }

/-- The keeper of the census that stands takes the entries of another (R332): each keeps its number if it is free, else takes the lowest
free one. -/
def mergeEntry (s : State) (e : CensusEntry) : State :=
  if e.state.val = 0 ∨ (houseOfUid s e.uid.toNat).isSome then s
  else
    match (if entryState s e.house = 0 then some e.house.val else freeHouse s) with
    | none => s
    | some h => floodCensus (censusRecord (putEntry s h e.uid.toNat e.fpr.toNat e.state.val e.v2) h) [h]

/-- Remove the entries of the census that this device leaves (R332). -/
def dropCensus (s : State) : State :=
  let s1 := ((List.range 1024).filter (fun h => entryState s h != 0)).foldl (fun u h => putEntry u h 0 0 0 false) s
  { s1 with fab := { s1.fab with guests := [], admits := [] } }

/-- A CENSUS packet arrives (R330, R332): the census of the keeper with the lower UID stands. -/
def censusIn (s : State) (seq keeper own : Nat) (entries : List CensusEntry) : State :=
  if !fabOn s || (upPorts s).isEmpty then s
  else
    let s1 := gotPacket s ((upPorts s).headD 0)
    let mine := keeperUid s1
    let take (v : State) : State := applyCensus (v.putPair R.fab_keeperLo R.fab_keeperHi keeper) seq own entries
    if !s1.on F.fab_stat_census_valid then
      if keeper < ownUid s1 then take s1 else linkNew s1 ((upPorts s1).headD 0)
    else if keeper = mine then
      if s1.on F.fab_stat_keeper then s1
      else if 0 < signed 32 ((seq + 2 ^ 32 - s1.fab.censusSeq) % 2 ^ 32) then take s1 else s1
    else if keeper < mine then take (dropCensus s1)
    else if s1.on F.fab_stat_keeper then fabChanged (entries.foldl mergeEntry s1)
    else s1

/-- R330. -/
def execCensus (seq : Word) (keeper : BitVec 64) (own : House) (entries : List CensusEntry) (s : State) :
    Host.Outcome State Fault Refusal := .next (censusIn s seq.toNat keeper.toNat own entries)

/-- The keeper cannot be reached for 3 ms (R330): the reachable member with the lowest UID takes over the census as it stands. -/
def keeperTimeout (s : State) : State :=
  if !s.on F.fab_stat_census_valid || s.on F.fab_stat_keeper then s
  else
    let d := distances s (ownHouse s)
    let lost := match keeperHouse s with
      | some k => (distTo d k).isNone
      | none => true
    if !lost then s
    else
      let members := (presentHouses s).filter (fun h => entryState s h == 1 && (distTo d h).isSome)
      match (members.map (entryUid s)).min? with
      | none => s
      | some u =>
        let s1 := s.putPair R.fab_keeperLo R.fab_keeperHi u
        if u = ownUid s then
          let s2 := rootTime (s1.put F.fab_stat_keeper 1)
          fabChanged (floodCensus (s2.put F.fab_stat_depth 0) (presentHouses s2))
        else fabChanged s1

/-- R330. -/
def execKeeperTimeout (s : State) : Host.Outcome State Fault Refusal := .next (keeperTimeout s)

/-- The keeper admits a GUEST (R345); where nothing changes, `err` acts. -/
def admitGuest (s : State) (h : Nat) (err : State → State) : State :=
  match s.fab.guests.find? (fun g => g.1 == h) with
  | some (_, u, f) =>
    if entryState s h = 2 ∧ (distTo (distances s (ownHouse s)) h).isSome then
      let s1 := (putEntry s h u.toNat f.toNat 1 (s.on (F.cens_state_v2 h))).raise F.fab_evt_census_change
      fabChanged (floodCensus { s1 with fab := { s1.fab with guests := s1.fab.guests.filter (fun (g : Nat × BitVec 64 × BitVec 64) => g.1 != h) } } [h])
    else err s
  | none => err s

/-- An ADMIT packet arrives (R345): the keeper acts on it; at a device that is keeper no longer it is lost. -/
def admitIn (s : State) (h : Nat) : State := if fabOn s && s.on F.fab_stat_keeper then admitGuest (gotFrom s h) h id else s

/-- R345. -/
def execCensusAdmitOne (house : House) (s : State) : Host.Outcome State Fault Refusal := .next (admitIn s house)

/-- A census command that lets one device in (R345). -/
def censusAdmit (s0 : State) (h : Nat) : State :=
  let s := s0.put F.fab_censusCtl_house h
  let err (u : State) : State := u.raise F.fab_evt_admit_err
  if !s.on F.fab_stat_census_valid then err s
  else if s.on F.fab_stat_keeper then admitGuest s h err
  else
    let s1 := fabSend s (keeperHouse s) (.admitted (Fin.ofNat 1024 h))
    { s1 with fab := { s1.fab with admits := s1.fab.admits.filter (fun a => a != h) ++ [h] } }

/-- R345. -/
def execCensusAdmit (house : House) (s : State) : Host.Outcome State Fault Refusal := .next (coreCmd s (censusAdmit · house))

/-- CENSUS_CTL with forget (R331, R345). -/
def censusForget (s0 : State) (h : Nat) : State :=
  let s := s0.put F.fab_censusCtl_house h
  if entryState s h ≠ 3 then s.raise F.fab_evt_admit_err
  else floodCensus ((putEntry s h 0 0 0 false).raise F.fab_evt_census_change) [h]

/-- R331. -/
def execCensusForget (house : House) (s : State) : Host.Outcome State Fault Refusal := .next (coreCmd s (censusForget · house))

/-! ### Time transfer (R335-R338) -/

/-- A TIME_REQ leaves on port p (R335). -/
def timeReq (s : State) (p : Nat) : State :=
  if !fabOn s || s.f (F.fport_stat_state p) != 3 then s
  else
    let s1 := monEvent s (901 + p) 1
    { s1 with fab := { s1.fab with reqs := s1.fab.reqs.filter (fun x => x.1 != p) ++ [(p, s1.clk.now)] } }

/-- R335. -/
def execTimeReq (p : FPort) (s : State) : Host.Outcome State Fault Refusal := .next (timeReq s p)

/-- Average of offsets, to the nearest. -/
def meanOfs (l : List (Int × Int)) : Int := if l.isEmpty then 0 else idivRound ((l.map (·.1)).foldl (· + ·) 0) l.length

/-- The averaged offset to the time parent in 1/1,024 beat (R335, R336); TIME_OFS shows it modulo 2^32. -/
def parentOfs (s : State) : Int := meanOfs (exchOf s (s.f F.fab_stat_parent))

/-- Time becomes valid, or a step is to be made, after an exchange on the link to a valid parent (R336). -/
def discipline (s : State) (parentValid : Bool) : State :=
  let th := parentOfs s
  if s.on F.time_stat_valid || !parentValid || s.fab.sinceStep < 16 || s.on F.fab_stat_guest || !houseOpen s then s
  else if !s.fab.hadTime && decide (64 * 1024 < th.natAbs) then s.put F.fab_evt_step_wait 1
  else if th.natAbs ≤ 16 then
    { (s.put F.time_stat_valid 1).put F.fab_evt_step_wait 0 with fab := { s.fab with hadTime := true } }
  else s

/-- A TIME_RSP completes an exchange on port p (R335); instants are in 1/1,024 beat, and `valid` says that the time of the device that
answers is valid, which R336 asks of a parent and no field of R327 carries (log entry 26). -/
def timeRsp (s : State) (p : Nat) (t1 t2 t3 t4 : Int) (valid : Bool) : State :=
  if !fabOn s || s.f (F.fport_stat_state p) != 3 || !s.fab.reqs.any (fun x => x.1 == p) then s
  else
    let a : Int := 4 * signed 16 (s.f (F.fport_cfg_asym p))
    let th := ((t2 - t1) - (t4 - t3) - a) / 2
    let de := ((t2 - t1) + (t4 - t3)) / 2
    let l := ((th, de) :: exchOf s p).take 16
    let s0 := gotPacket s p
    let s1 := { s0 with fab := { s0.fab with
      exch := s0.fab.exch.filter (fun (x : Nat × List (Int × Int)) => x.1 != p) ++ [(p, l)], reqs := s0.fab.reqs.filter (fun (x : Nat × Nat) => x.1 != p) } }
    let s2 := (s1.put (F.fport_delay_d p) (unsigned 32 de)).count (F.fport_exch_n p) 1
    let s3 := chooseParent s2
    if s3.fab.parentOn && s3.f F.fab_stat_parent == p then
      discipline { s3.put F.fab_timeOfs_ofs (unsigned 32 (meanOfs l)) with fab := { s3.fab with sinceStep := min 16 (s3.fab.sinceStep + 1) } } valid
    else s3

/-- R335. -/
def execTimeRsp (p : FPort) (t1 t2 : Int) (t3 : HouseInstant) (t4 : Int) (s : State) : Host.Outcome State Fault Refusal :=
  .next (timeRsp s p t1 t2 t3.t t4 t3.valid)

/-- The step of house time (R336): only while no engine is ARMED, RUN or WAIT. A timer's instants that are stepped over never come (R195). -/
def timeStep (s : State) : State :=
  if !s.on F.fab_evt_step_wait || allEngines.any (active3 s) || !houseOpen s then s
  else
    let th := parentOfs s
    let s1 := markCore s
    let h := ((s1.clk.house : Int) + th * 192).toNat
    let s2 := { s1 with clk := { s1.clk with house := h, coreAt := h }, fab := { s1.fab with exch := [], reqs := [], sinceStep := 0 } }
    (s2.modH (fun x => { x with
      tmrNext := x.tmrNext.map (fun y => (y.1, tmrFirst s2 y.1)), tmr := x.tmr.filter (fun y => decide (h ≤ y.2)) })).put F.fab_evt_step_wait 0

/-- R336. -/
def execTimeStep (s : State) : Host.Outcome State Fault Refusal := .next (timeStep s)

/-- The time parent is lost (R338): the next neighbour that qualifies with averaged exchanges is taken, else time becomes invalid. -/
def parentLoss (s : State) : State :=
  if !s.fab.parentOn then s
  else
    let cur := s.f F.fab_stat_parent
    match (parentPorts s).find? (fun p => p != cur && decide (16 ≤ (exchOf s p).length)) with
    | some p => topology (takeParent s p)
    | none =>
      let s1 := { s with fab := { s.fab with parentOn := false, sinceStep := 0 } }
      if s.on F.time_stat_valid then
        let s2 := (s1.put F.time_stat_valid 0).raise F.fab_evt_time_lost
        fault { s2 with fab := { s2.fab with hadTime := false } } 101 cur .contained 0
      else s1

/-- R338. -/
def execParentLoss (s : State) : Host.Outcome State Fault Refusal := .next (parentLoss s)

/-! ### Services (R340-R342) -/

/-- An EVENT packet (R340): none is applied that a GUEST sent. -/
def execEvent (src : House) (imp : Fin 64) (cycle : BitVec 58) (s : State) : Host.Outcome State Fault Refusal :=
  .next (if entryState s src = 2 then s else wake (importEvent (gotFrom s src) imp cycle.toNat) 3)

/-- A fault notice of another device arrives (R342). -/
def noteIn (s : State) (src : Nat) (w0 w1 w2 w3 : Word) : State :=
  let n := s.f F.fab_rnoteStat_count
  if !fabOn s then s
  else if 16 ≤ n then (gotFrom s src).countSat F.fab_rnoteStat_lost 1
  else
    let s1 := (((gotFrom s src).setReg (R.rnote_w0 n) w0).setReg (R.rnote_w1 n) w1).setReg (R.rnote_w2 n) w2
    ((s1.setReg (R.rnote_w3 n) w3).put (F.rnote_w4_house n) src).put F.fab_rnoteStat_count (n + 1)

/-- R342. -/
def execFabFaultNotice (src : House) (w0 w1 w2 w3 : Word) (s : State) : Host.Outcome State Fault Refusal :=
  .next (noteIn s src w0 w1 w2 w3)

/-- RNOTE.STAT.clear (R342): the queue is empty. -/
def execRnoteClear (s : State) : Host.Outcome State Fault Refusal := .next (coreCmd s (·.put F.fab_rnoteStat_count 0))

/-- A STREAM packet arrives (R341): a GUEST's is dropped. -/
def fabStream (s : State) (src r k first : Nat) (data : List Granule) : State :=
  if !fabOn s then s
  else
    let u := gotFrom s src
    if entryState u src = 2 then ringDrop (wake u 3) r data.length (F.ring_stat_seq_err r)
    else streamIn u ⟨r, first, k, none, false, .fabric (Fin.ofNat 1024 src), data⟩

/-- R341. -/
def execFabStream (src : House) (ring : Fin 256) (firstSlice : BitVec 7) (first : Word) (data : List Granule) (s : State) :
    Host.Outcome State Fault Refusal := .next (fabStream s src ring firstSlice.toNat first.toNat data)

/-- A CREDIT packet gives this device, as a producer, a ring's RPTR and WPTR (R341). -/
def execFabCredit (ring : Fin 256) (rptr wptr : Word) (s : State) : Host.Outcome State Fault Refusal :=
  .next (if fabOn s then { s with fab := { s.fab with
    credit := s.fab.credit.filter (fun x => x.1 != ring.val) ++ [(ring.val, rptr, wptr)] } } else s)

/-! ### Retries (R307, R322, R325) -/

/-- A frame that this end sent on a link fails and is sent again; the sixteenth failure in succession takes the link down. -/
def linkRetry (s : State) (l : LinkRef) : State :=
  match l with
  | .porch sd => porchRetry s sd
  | .fabric p =>
    if s.f (F.fport_stat_state p) ≠ 3 then s
    else
      let n := ((s.fab.fails.find? (fun x => x.1 == p.val)).map (·.2)).getD 0 + 1
      let s1 := { s with fab := { s.fab with fails := s.fab.fails.filter (fun x => x.1 != p.val) ++ [(p.val, n)] } }
      if 16 ≤ n then downPort s1 p 5 else s1

/-- R307. -/
def execRetryRequest (l : LinkRef) (s : State) : Host.Outcome State Fault Refusal := .next (linkRetry s l)

/-- R307. -/
def execAckTimeout (l : LinkRef) (s : State) : Host.Outcome State Fault Refusal := .next (linkRetry s l)

end Sys2Proof.Machine
end

