-- ==== Sys2Proof/Machine/Resets.lean ====
section
/-! DEFINITION. What a reset of a side leaves (R268, R271, R358, R359): the shared operations of FRST_N, HRST_N, CHIP_RESET, F4 and power
cycles. -/

namespace Sys2Proof.Machine

/-- The fatal latch of a side is set (R271, R272). -/
def latched (s : State) (sd : Side) : Bool := s.on (F.flt_fatalSrc_valid sd)

/-- The always-on registers of a side: its fatal latch (R271). -/
def latchReg (sd : Side) (a : Nat) : Bool := decide (faultBase sd + 0x10 ≤ a) && decide (a ≤ faultBase sd + 0x18)

/-- The registers of the field collector that a CHIP_RESET keeps beside the latch (R268): LOST, COUNT, FIRST, the attic, every
SRC[n].STAT. -/
def warmReg (a : Nat) : Bool :=
  let o := a - faultBase .field
  decide (faultBase .field ≤ a) && (o == 0x8 || o == 0xC || (decide (0x20 ≤ o) && decide (o ≤ 0x2C)) || o == 0x44 ||
    (decide (0x100 ≤ o) && decide (o < 0x200)) || (decide (0x400 ≤ o) && decide (o < 0xC00) && o % 8 == 4))

/-- The field side is reset (R358, R268): everything but the always-on cell and, at a CHIP_RESET, the collector's history. The host tile,
the outputs already given, true time and the flash are not the field side's. The store's contents are as after power-on (log entry 4). -/
def fieldReset (s : State) (warm : Bool) : State :=
  let lt := latched s .field
  let s1 : State := { State.reset with
    regs := s.regs.filter (fun p => hostReg p.1 || (lt && latchReg .field p.1) || (warm && warmReg p.1))
    clk := { State.reset.clk with now := s.clk.now }
    fltF := { State.reset.fltF with seq := if warm then s.fltF.seq else 0, chipTimes := if warm then s.fltF.chipTimes else [],
                                    fatalOn := lt }
    fltH := s.fltH
    porch := { s.porch with toHost := [], toField := [], irqPend := [], irqSent := [], ver := none, helloF := none,
                            helloH := none, aliveH := 0, fails := [], wait := [] }
    fab := { State.reset.fab with out := s.fab.out }
    dma := s.dma
    boot := { s.boot with early := false, late := false, porchOn := false, idleAt := none, stateAt := s.clk.now, f4 := false,
                          resets := s.boot.resets.filter (· == .porchHostEnd), jtag := false, minF := [0, 0, 0],
                          high := s.boot.high.filter (·.1), crit := s.boot.crit.filter (·.1), stageAt := s.clk.now,
                          relAt := s.clk.now }
    msi := s.msi
    free := s.free
    pending := s.pending }
  let s2 := s1.when lt (·.put (F.flt_stat_fatal .field) 1)
  s2.when warm (fun u => (((u.raise (F.flt_stat_warm .field)).put (F.flt_atticStat_hold .field) 0).put
    (F.flt_atticStat_hold_timeout .field) 0).put (F.flt_atticStat_clr_err .field) 0)

/-- The host tile is reset (R358, R359): everything of it but its fatal latch; what it has returned to the host is history. -/
def hostReset (s : State) : State :=
  let lt := latched s .host
  let s1 : State := { s with
    regs := s.regs.filter (fun p => !hostReg p.1 || (lt && latchReg .host p.1))
    fltH := { State.reset.fltH with fatalOn := lt }
    porch := { s.porch with toHost := [], toField := [], ver := none, helloF := none, helloH := none, halt := lt, hostTime := 0,
                            hostValid := false, hostAt := s.clk.now, aliveF := 0, fails := [], pcie := false, d3 := false,
                            reads := [], writes := 0, held := [], notices := [], credit := [] }
    dma := []
    boot := { s.boot with hearly := false, resets := s.boot.resets.filter (· != .porchHostEnd), minH := [0, 0, 0], hjtag := false,
                          hcoreLost := false, pcieLost := false,
                          high := s.boot.high.filter (!·.1), crit := s.boot.crit.filter (!·.1) } }
  s1.when lt (·.put (F.flt_stat_fatal .host) 1)

/-- The fatal latch of a side clears: only its supply below 0.30 V does this (R271, R272). -/
def clearLatch (s : State) (sd : Side) : State :=
  let s1 := ((s.setReg (R.flt_fatalSrc sd) 0).putPair (R.flt_fatalTimeLo sd) (R.flt_fatalTimeHi sd) 0).put (F.flt_stat_fatal sd) 0
  match sd with
  | .field => s1.modF .field (fun c => { c with fatalOn := false })
  | .host => (s1.modF .host (fun c => { c with fatalOn := false })).modP (fun p => { p with halt := false })

/-- The ROM of a side has found its fatal latch clear and starts its ALIVE pin (R273), unless an ERRPIN source is active; else the pin
holds. -/
def startAlive (s : State) (sd : Side) : State :=
  if latched s sd then s.put (F.flt_alive_own sd) 3
  else
    let s1 := (s.put (F.flt_alive_own sd) (if errpinActive s sd then 2 else 1)).modF sd (fun c => { c with aliveAt := s.clk.now + 500 * usU })
    match sd with
    | .field => sendAliveField s1
    | .host => sendAliveHost s1

/-- Field boot enters a stage (R360), with what begins there: ALIVE_F at 0x03, the searches of room, quad and store PLLs at 0x07, the
initial walks at 0x08 (R257), the field end of the porch at 0x09, the fabric ports at 0x0A, NORMAL at READY (R180). -/
def enterStage (s : State) (n : Nat) : State :=
  let s1 := s.put F.id_bootStat_stage n
  let s2 := { s1 with boot := { s1.boot with stageAt := s1.clk.now, porchOn := s1.boot.porchOn || n == 9 } }
  match n with
  | 3 => startAlive s2 .field
  | 7 => (List.range 52).foldl (fun u i =>
      if pllOpen u (i + 1) || (u.pllOf (i + 1)).wait != 0 then u else startSearch u (i + 1)) s2
  | 8 => showInitial ((List.range 48).foldl holdLanes s2)
  | 10 => (List.range 8).foldl (fun u p =>
      let v := if pllOpen u (53 + p) || (u.pllOf (53 + p)).wait != 0 then u else startSearch u (53 + p)
      v.when (v.on (F.fport_cfg_en p)) (·.put (F.fport_stat_state p) 1)) s2
  | 11 =>
    let s3 := s2.setReg R.id_readyMs (BitVec.ofNat 32 ((s2.clk.now - s2.boot.relAt) / (1000 * usU)))
    if s3.on F.rings_phase_test_forced then s3 else creditAll (s3.put F.rings_phase_phase 1)
  | _ => s2

/-- A host boot stage begins (R364): ALIVE_H at ROM, the endpoint at 0x03. -/
def enterHostStage (s : State) (n : Nat) : State :=
  let s1 := s.put F.hboot_stat_stage n
  match n with
  | 1 => startAlive s1 .host
  | 3 => s1.modP (fun p => { p with pcie := s.boot.perst && !s.boot.pcieLost })
  | _ => s1

end Sys2Proof.Machine
end

