-- ==== Sys2Proof/Machine/PowerCmds.lean ====
section
/-! DEFINITION. The commands of the power states (R350-R354) and of D3hot (R355). -/

namespace Sys2Proof.Machine

/-- The field side descends one power state after continuous idle time (R351): idleness begins where the first entry finds it, and each
entry waits for its time since then. -/
def powerEntry (s : State) : State :=
  let st := s.f F.pwr_stat_state
  if heldSide s .field || powerBlock s != 0 || decide (allowedState s ≤ st) then s
  else
    let from_ := if st = 0 then s.clk.now else s.boot.idleAt.getD s.clk.now
    let s1 := advanceNow s (from_ + idleUs (st + 1) * usU)
    enterPower { s1 with boot := { s1.boot with idleAt := some from_ } } (st + 1)

/-- R351. -/
def execPowerEntry (s : State) : Host.Outcome State Fault Refusal := .next (powerEntry s)

/-- An event of R353's table: operand 0-4 for codes 1 REG to 5 LTR. -/
def execWakeEvent (src : Fin 5) (s : State) : Host.Outcome State Fault Refusal :=
  .next (if heldSide s .field then s else wake s (src.val + 1))

/-- PWR.CTL.wake (R353). -/
def execWakeCmd (s : State) : Host.Outcome State Fault Refusal := .next (if heldSide s .field then s else wake s 6)

/-- The field side enters F4 (R352): ports announce DOWN, the porch goes down, and everything outside the always-on cell is lost. -/
def enterF4 (s : State) : State :=
  let s1 := (List.range 8).foldl (fun u p => portAnnounceDown u p 0) s
  let s2 := fieldReset (porchDown s1) false
  { s2 with boot := { s2.boot with f4 := true } }

/-- PWR.CTL.f4_req (R352, R366): accepted only while the device is idle and READY. -/
def f4Request (s : State) : State :=
  if heldSide s .field then s
  else if powerBlock s ≠ 0 ∨ !ready s then s.raise F.pwr_stat_req_err
  else enterF4 s

/-- R352. -/
def execF4Request (s : State) : Host.Outcome State Fault Refusal := .next (f4Request s)

/-- PWR.LTR (R351, R353): a write that lowers T below the exit latency of the state in force wakes the device. -/
def ltrWrite (s : State) (v : Nat) : State :=
  if heldSide s .field then s
  else
    let old := s.f F.pwr_ltr_tol_us
    let s1 := s.put F.pwr_ltr_tol_us v
    let t := s1.f F.pwr_ltr_tol_us
    if t < old ∧ t < exitUs (s1.f F.pwr_stat_state) then wake s1 5 else s1

/-- R351. -/
def execLtrWrite (val : Word) (s : State) : Host.Outcome State Fault Refusal := .next (ltrWrite s val.toNat)

/-- The host moves the function into or out of D3hot (R355): the stream DMA stops at the descriptor boundary, and goes on after. -/
def d3hot (s : State) (enter : Bool) : State :=
  if heldSide s .host || !s.porch.pcie then s
  else
    let s1 := s.modP (fun p => { p with d3 := enter })
    if enter then s1 else (List.range 4).foldl dmaGo s1

/-- R355. -/
def execD3hotTransition (enter : Bool) (s : State) : Host.Outcome State Fault Refusal := .next (d3hot s enter)

end Sys2Proof.Machine
end

