-- ==== Sys2Proof/Machine/Boot.lean ====
section
/-! DEFINITION. Reset inputs, boot of both sides, power cycles (R271, R358-R368, R375-R377), the mission log (R389). -/

namespace Sys2Proof.Machine

/-! ### The mission log (R389) -/

/-- Registers of a side's mission log: hours of the three bands, and STAT. -/
def misReg (sd : Side) (i : Nat) : Nat := (match sd with | .field => R.id_hrs0 | .host => R.hid_hrs0) + 4 * i

/-- Hours of band i. -/
def misHours (s : State) (sd : Side) (i : Nat) : Nat := (s.reg (misReg sd i)).toNat

/-- MISSION.STAT.hot and over follow the hours (R389). -/
def misShow (s : State) (sd : Side) : State :=
  let h0 := misHours s sd 0
  let h12 := misHours s sd 1 + misHours s sd 2
  let much := decide (1000 ≤ h0 + h12) && decide (h0 + h12 < 10 * h12)
  (s.put ⟨misReg sd 3, 2, 1⟩ (bit (misHours s sd 2 != 0))).put ⟨misReg sd 3, 1, 1⟩ (bit much)

/-- The log is loaded from the side's flash, where it holds one (R389). -/
def misLoad (s : State) (sd : Side) (log : Option (Word × Word × Word)) : State :=
  match log with
  | none => misShow s sd
  | some (a, b, c) =>
    misShow ((((s.setReg (misReg sd 0) a).setReg (misReg sd 1) b).setReg (misReg sd 2) c).put ⟨misReg sd 3, 0, 1⟩ 1) sd

/-- The log of a side is kept: the field's after stage 0x05, the host's from stage 0x02 (R389). -/
def misOn (s : State) : Side → Bool
  | .field => decide (6 ≤ s.f F.id_bootStat_stage)
  | .host => decide (2 ≤ s.f F.hboot_stat_stage)

/-- A whole minute is credited to the band of the highest reading that is not stale; 60 credited minutes add an hour (R389). -/
def missionMinute (s : State) (sd : Side) (c16 : Int) : State :=
  if !misOn s sd || !ctlRuns s sd then s
  else
    let band := if c16 ≤ 85 * 16 then 0 else if c16 ≤ 105 * 16 then 1 else 2
    let ms := match sd with | .field => s.boot.minF | .host => s.boot.minH
    let m := ms.getD band 0 + 1
    let ms' := ms.set band (if m < 60 then m else 0)
    let s1 : State := match sd with
      | .field => { s with boot := { s.boot with minF := ms' } }
      | .host => { (s.put F.hid_htemp_temp (unsigned 16 c16)).put F.hid_htemp_stale 0 with boot := { s.boot with minH := ms' } }
    if m < 60 then s1 else misShow (s1.count ⟨misReg sd band, 0, 32⟩ 1) sd

/-- R389. -/
def execMissionMinute (sd : Side) (c16 : Int) (s : State) : Host.Outcome State Fault Refusal := .next (missionMinute s sd c16)

/-- The log is written to the side's flash (R389). -/
def missionWrite (s : State) (sd : Side) : State :=
  let log := (s.reg (misReg sd 0), s.reg (misReg sd 1), s.reg (misReg sd 2))
  if !misOn s sd || !ctlRuns s sd then s
  else match sd with
    | .field => { s with boot := { s.boot with flashF := some log } }
    | .host => { s with boot := { s.boot with flashH := some log } }

/-- R389. -/
def execMissionLogWrite (sd : Side) (s : State) : Host.Outcome State Fault Refusal := .next (missionWrite s sd)

/-! ### Reset inputs (R358, R359) -/

/-- FRST_N falls: the field side is reset, whatever else happens, and the CHIP_RESET count with it (R269, R358, R359). -/
def frstFall (s : State) : State :=
  let s1 := fieldReset (porchDown s) false
  { s1 with boot := { s1.boot with frst := false } }

/-- FRST_N is released: boot starts at stage 0x01, or waits until the supplies have been in range for 1 ms (R358, R360). -/
def frstRise (s : State) (ok : Bool) : State :=
  if s.boot.frst then s
  else
    let s1 := { s with boot := { s.boot with frst := true, early := !ok, relAt := s.clk.now } }
    if ok then enterStage s1 1 else s1

/-- R358. -/
def execFrstN (level suppliesOk : Bool) (s : State) : Host.Outcome State Fault Refusal :=
  .next (if level then frstRise s suppliesOk else frstFall s)

/-- HRST_N falls: the porch goes down and the field side runs on (R3, R359). -/
def hrstFall (s : State) : State :=
  let s1 := hostReset (porchDownF s)
  { s1 with boot := { s1.boot with hrst := false } }

/-- HRST_N is released: the host tile starts its ROM (R358, R364). -/
def hrstRise (s : State) (ok : Bool) : State :=
  if s.boot.hrst then s
  else
    let s1 := { s with boot := { s.boot with hrst := true, hearly := !ok } }
    if ok then enterHostStage s1 1 else s1

/-- R358. -/
def execHrstN (level suppliesOk : Bool) (s : State) : Host.Outcome State Fault Refusal :=
  .next (if level then hrstRise s suppliesOk else hrstFall s)

/-- The registers of the endpoint and of the stream DMA queues (R296, R317): the MSI-X table, its pending bits, DMAQ. -/
def endpointReg (a : Nat) : Bool :=
  (decide (0x03F20000 ≤ a) && decide (a < 0x03F30000)) || (decide (0x03F40100 ≤ a) && decide (a < 0x03F40200))

/-- The endpoint and the DMA queues reset: each descriptor in progress is abandoned without a status write, and
completions for the reset endpoint are discarded (R359). -/
def endpointReset (s : State) : State :=
  { s with
    regs := s.regs.filter (fun p => !endpointReg p.1)
    dma := []
    porch := { s.porch with pcie := false, d3 := false, reads := [], held := [] } }

/-- PERST_N falls (R358, R359). -/
def perstFall (s : State) : State := (endpointReset { s with boot := { s.boot with perst := false } })

/-- The endpoint runs: host stage 0x03 has enabled it, or both images have failed; PERST_N is high, and its clock runs (R246, R358, R364). -/
def endpointOn (s : State) : Bool :=
  s.boot.perst && !s.boot.pcieLost && (decide (3 ≤ s.f F.hboot_stat_stage) || s.f F.hboot_stat_err == 1)

/-- PERST_N is released: the endpoint runs once host stage 0x03 has enabled it (R358, R364). -/
def perstRise (s : State) : State :=
  let s1 := { s with boot := { s.boot with perst := true } }
  s1.modP (fun p => { p with pcie := endpointOn s1 })

/-- R358. -/
def execPerstN (level : Bool) (s : State) : Host.Outcome State Fault Refusal := .next (if level then perstRise s else perstFall s)

/-! ### The PLLs of the host tile (R246): 0 PCIe, 1 host core -/

/-- A PLL of the host tile is lost: PLL_UNLOCK is recorded with its cause. Without the PCIe clock the link is down, which resets the
endpoint as PERST_N does (log entry 52); without the host-core clock the host controller is frozen. -/
def hostPllLoss (s : State) (k cause : Nat) : State :=
  if heldSide s .host || (if k = 0 then s.boot.pcieLost else s.boot.hcoreLost) then s
  else
    let s1 := if k = 0 then endpointReset { s with boot := { s.boot with pcieLost := true } }
      else { s with boot := { s.boot with hcoreLost := true } }
    hostFault s1 2 k .contained cause

/-- A PLL of the host tile has locked again: its clock returns. -/
def hostPllOpen (s : State) (k : Nat) : State :=
  if k = 0 then
    if s.boot.pcieLost then
      let s1 := { s with boot := { s.boot with pcieLost := false } }
      s1.modP (fun p => { p with pcie := endpointOn s1 })
    else s
  else { s with boot := { s.boot with hcoreLost := false } }

/-- R239, R240, R246. -/
def execPllLoss (id : ClockId) (cause : LossCause) (s : State) : Host.Outcome State Fault Refusal :=
  .next (if id.val < 61 then pllLoss s id cause else hostPllLoss s (id.val - 61) (lossCode cause))

/-- R234, R246. -/
def execShutterOpen (id : ClockId) (s : State) : Host.Outcome State Fault Refusal :=
  .next (if id.val < 61 then shutterOpens s id else hostPllOpen s (id.val - 61))

/-- A side's always-on supply stays below 0.30 V for 1 ms: everything of the side is lost, its fatal latch too (R271, R272, R377). The
side's reset input is low while it is unpowered (R377). -/
def powerCycle (s : State) (sd : Side) : State :=
  match sd with
  | .field => clearLatch (frstFall s) .field
  | .host => clearLatch (hrstFall s) .host

/-- R271. -/
def execPowerCycle (sd : Side) (s : State) : Host.Outcome State Fault Refusal := .next (powerCycle s sd)

/-! ### Field boot (R360-R363) -/

/-- FW_VER of image i whose version is ver (R298): the reserved bits read 0 (R8). -/
def fwWord (ver : Word) (i : Nat) : Word := putBits (ver &&& fwMask) 0 1 i

/-- The image in use after verification (R361): where it is the second one tried, the first is recorded. -/
def takeImage (s : State) (i : Nat) (second : Bool) (ver : Word) : State :=
  let s1 := s.when second (fun u => fault (u.put F.id_bootStat_fallback 1) 8 (1 - i) .corrected 4)
  enterStage (s1.setReg R.id_fwVer (fwWord ver i)) 5

/-- The parameter block is loaded at stage 0x05 (R360, R389), and the house PLL's search starts: a block without a valid pair leaves the reset
values 64 and 1 (R231). -/
def loadParams (s : State) (mul div refv reft : Word) (hours : Option (Word × Word × Word)) : State :=
  if (s.pllOf 0).wait ≠ 0 ∨ houseOpen s then s
  else
    let ok := validRatio mul.toNat div.toNat && decide (mul.toNat < 2 ^ 24) && decide (div.toNat < 2 ^ 16)
    let s1 := (s.put F.clk_refMul_n (if ok then mul.toNat else 64)).put F.clk_refDiv_d (if ok then div.toNat else 1)
    let s2 := loadDecl (loadDecl s1 false refv) true reft
    let s3 := { s2 with clk := { s2.clk with mul := s2.f F.clk_refMul_n, div := s2.f F.clk_refDiv_d } }
    startSearch (misLoad s3 .field (s3.boot.flashF.orElse (fun _ => hours))) 0

/-- Spared rows of the flash are re-applied (R221, R360). -/
def spareRows (s : State) (rows : List (PChan × Bank × Fin 16384)) : State :=
  rows.foldl (fun u x => { u.countSat (F.ecc_spare_used (x.1 / 64)) 1 with
    ctl := { u.ctl with remap := u.ctl.remap ++ [rowNo x.1 x.2.1 x.2.2] } }) s

/-- The store verifies at a point (R224, R226, R360): the sets' delays are gathered, and it admits requests; a point other than P0 is recorded, with a stack and a delay index that
the spec does not state (free values, log entry 13). -/
def storeReady (s : State) (pt : Nat) (rows : List (PChan × Bank × Fin 16384)) (cs : List (Fin 4 × DelayCentre)) : State :=
  let s0 := cs.foldl (fun u c => gatherCentre u c.1 c.2) (((spareRows s rows).put F.st_stat_point pt).put F.st_trainStat_verified 1)
  let s1 := (List.range 4).foldl stackOn s0
  let s2 := if pt = 0 then s1 else
    let (u, a) := s1.draw
    let (v, b) := a.draw
    fault b 67 (u.toNat % 4) .contained v.toNat
  enterStage s2 7

/-- Some port has reached HELLO (R363). -/
def helloSeen (s : State) : Bool := (List.range 8).any (fun p => s.f (F.fport_stat_state p) == 2 || s.f (F.fport_stat_state p) == 3)

/-- Stage 0x0A ends (R363): no port reached HELLO within 20 ms, or census and time are valid, or its bound is over. -/
def fabricStage (s : State) (late : Bool) : State :=
  let ms := 1000 * usU
  if late then
    enterStage ((advanceNow s (s.boot.stageAt + (20 + 50 * s.f F.fab_stat_depth) * ms)).put F.id_bootStat_fab_late 1) 11
  else if !helloSeen s then enterStage (advanceNow s (s.boot.stageAt + 20 * ms)) 11
  else if s.on F.fab_stat_census_valid && s.on F.time_stat_valid then enterStage s 11
  else s

/-- A field boot stage completes (R360-R363). In the safe state boot goes no further (R271), nor while the field controller is frozen
(R11). -/
def bootAdvance (s : State) (info : BootInfo) : State :=
  let st := s.f F.id_bootStat_stage
  let ms := 1000 * usU
  if frozen s || inSafe s && decide (3 ≤ st) then s
  else match info with
    | .done =>
      if st = 0 then
        if s.boot.frst && s.boot.early then enterStage ((advanceNow s (s.clk.now + ms)).raise F.id_bootStat_early_rst) 1 else s
      else if st = 1 ∨ st = 2 ∨ st = 3 ∨ st = 7 ∨ st = 8 then enterStage s (st + 1)
      else if st = 5 ∧ houseOpen s then enterStage s 6
      else s
    | .image i second ver => if st = 4 then takeImage s i second ver else s
    | .params mul div refv reft hours => if st = 5 then loadParams s mul div refv reft hours else s
    | .store pt rows cs => if st = 6 then storeReady s pt rows cs else s
    | .porch late =>
      if st ≠ 9 then s
      else if porchUpF s then enterStage s 10
      else if s.boot.late then enterStage (s.put F.id_bootStat_porch_late 1) 10
      else if late then enterStage ((advanceNow s (s.boot.stageAt + 20 * ms)).put F.id_bootStat_porch_late 1) 10
      else s
    | .fabric late => if st = 10 then fabricStage s late else s
    | .failed _ => s

/-- R360. -/
def execBootStageAdvance (info : BootInfo) (s : State) : Host.Outcome State Fault Refusal := .next (bootAdvance s info)

/-- Error code of a stall (R362). -/
def errCode : BootErr → Nat
  | .noImage _ => 1
  | .noRefclk => 2
  | .ratio => 3
  | .noStore => 4
  | .fatal => 5

/-- The stage at which a stall's cause is found (R362), and that the cause holds. -/
def stallHolds (s : State) (e : BootErr) : Bool :=
  let st := s.f F.id_bootStat_stage
  match e with
  | .noImage _ => st == 4
  | .noRefclk => st == 5 && !houseOpen s && !refPresent s 0
  | .ratio => st == 5 && (s.pllOf 0).rangeHold
  | .noStore => st == 6
  | .fatal => st == 3 && latched s .field

/-- A stage stalls (R362): stalled and err, and the field end enables the porch at once. Both images failing are recorded (R361). -/
def bootStall (s : State) (e : BootErr) : State :=
  if !stallHolds s e || frozen s then s
  else
    let s1 := match e with
      | .noImage i => fault (fault s 8 i .corrected 4) 8 (1 - i.val) .corrected 4
      | _ => s
    let s2 := (s1.put F.id_bootStat_stalled 1).put F.id_bootStat_err (errCode e)
    { s2 with boot := { s2.boot with porchOn := true, late := true } }

/-- R362. -/
def execBootStall (err : BootErr) (s : State) : Host.Outcome State Fault Refusal := .next (bootStall s err)

/-! ### Host boot (R364) -/

/-- A host boot stage completes (R364). After a failed image check the endpoint enumerates and boot goes no further. -/
def hostBoot (s : State) (info : BootInfo) : State :=
  let st := s.f F.hboot_stat_stage
  if s.boot.hcoreLost then s else
  match info with
  | .done =>
    if st = 0 then
      if s.boot.hrst && s.boot.hearly then
        enterHostStage ((advanceNow s (s.clk.now + 1000 * usU)).raise F.hboot_stat_early_rst) 1
      else s
    else if st = 1 ∨ st = 3 then enterHostStage s (st + 1)
    else if st = 4 ∧ porchUpH s then enterHostStage s 5
    else s
  | .params _ _ _ _ hours => if st = 2 then misLoad s .host (s.boot.flashH.orElse (fun _ => hours)) else s
  | .image i second ver =>
    if st = 2 ∧ s.f F.hboot_stat_err = 0 then
      let s1 := s.when second (fun u => hostFault (u.put F.hboot_stat_fallback 1) 9 (1 - i.val) .corrected 2)
      enterHostStage (s1.setReg R.hid_fwVer (fwWord ver i)) 3
    else s
  | .failed i =>
    if st = 2 ∧ s.f F.hboot_stat_err = 0 then
      let s1 := hostFault (hostFault s 9 i .corrected 2) 9 (1 - i.val) .corrected 2
      ((s1.put F.hboot_stat_stalled 1).put F.hboot_stat_err 1).modP (fun p => { p with pcie := s.boot.perst && !s.boot.pcieLost })
    else s
  | _ => s

/-- R364. -/
def execHostBootStage (info : BootInfo) (s : State) : Host.Outcome State Fault Refusal := .next (hostBoot s info)

end Sys2Proof.Machine
end

