-- ==== Sys2Proof/Machine/FaultCmds.lean ====
section
/-! DEFINITION. The commands of the fault collectors (R268, R269, R273, R274, R276, R277, R279), of supplies and temperatures (R375,
R387). -/

namespace Sys2Proof.Machine

/-- R274. -/
def execFaultRecord (sd : Side) (src : BitVec 8) (unit : BitVec 10) (cls : FaultClass) (syn : Word) (s : State) :
    Host.Outcome State Fault Refusal := .next (recordRaw s sd src.toNat unit.toNat (classCode cls) syn false)

/-! ### NMI and the attic's hold (R268, R277) -/

/-- A side's controller can take a trap: the field core clock is open, the host controller runs (R246, R268, R272). -/
def canTrap (s : State) : Side → Bool
  | .field => houseOpen s
  | .host => ctlRuns s .host

/-- The controller takes its NMI, for sources that are still active, and the attic is held (R268, R277). -/
def nmiTrap (s : State) (sd : Side) : State :=
  let c := s.flt sd
  if c.nmi.isEmpty || s.on (F.flt_atticStat_hold sd) || !canTrap s sd then s
  else
    let live := c.nmi.any (fun n => s.on (F.src_stat_active sd n))
    let s1 := s.modF sd (fun c => { c with nmi := [], holdAt := if live then s.clk.now else c.holdAt })
    s1.when live (·.put (F.flt_atticStat_hold sd) 1)

/-- R268. -/
def execNmiTrap (sd : Side) (s : State) : Host.Outcome State Fault Refusal := .next (nmiTrap s sd)

/-- The hold ends (R277): a record that arrived in this cycle is queued after all, and its NMI is requested. -/
def endHold (s : State) (sd : Side) : State :=
  let c := s.flt sd
  let again := if c.lostCyc = infraOf s sd then c.lostNow else []
  let trap := (again.map (·.src)).filter (fun n => s.on (F.src_cfg_nmi sd n))
  let s1 := (s.put (F.flt_atticStat_hold sd) 0).modF sd (fun c => { c with
    lostNow := [], nmi := c.nmi.filter (fun n => !trap.contains n) ++ trap.eraseDups })
  again.foldl (fun u r => queueRec u sd r) (s1.when (!again.isEmpty) (·.put (F.flt_lost_n sd) c.lostWas))

/-- ATTIC.CTL.release (R277): from the side's own controller only, while the attic is held. -/
def atticRelease (s : State) (sd : Side) (req : Requester) : State :=
  if req = .firmware ∧ s.on (F.flt_atticStat_hold sd) ∧ canTrap s sd then endHold s sd else s

/-- R277. -/
def execAtticRelease (sd : Side) (req : Requester) (s : State) : Host.Outcome State Fault Refusal := .next (atticRelease s sd req)

/-- No release came within 10 ms of the hold (R277). -/
def holdTimeout (s0 : State) (sd : Side) : State :=
  if !s0.on (F.flt_atticStat_hold sd) then s0
  else
    let s := advanceNow s0 ((s0.flt sd).holdAt + 10000 * usU)
    (endHold s sd).raise (F.flt_atticStat_hold_timeout sd)

/-- R277. -/
def execAtticHoldTimeout (sd : Side) (s : State) : Host.Outcome State Fault Refusal := .next (holdTimeout s sd)

/-- Empty the 16 slots of a side's attic and its FIRST. -/
def emptyAttic (s : State) (sd : Side) : State :=
  let s1 := (List.range 16).foldl (fun u i =>
    (((u.setReg (R.attic_w0 sd i) 0).setReg (R.attic_w1 sd i) 0).setReg (R.attic_w2 sd i) 0).setReg (R.attic_w3 sd i) 0) s
  let s2 := (((s1.setReg (R.flt_first0 sd) 0).setReg (R.flt_first1 sd) 0).setReg (R.flt_first2 sd) 0).setReg (R.flt_first3 sd) 0
  (s2.put (F.flt_atticStat_count sd) 0).put (F.flt_atticStat_first_valid sd) 0

/-- ATTIC.CTL.clear (R276, R277): dropped during a hold; records of this cycle are queued after the clear. -/
def atticClear (s : State) (sd : Side) : State :=
  if heldSide s sd then s
  else if s.on (F.flt_atticStat_hold sd) then s.raise (F.flt_atticStat_clr_err sd)
  else
    let c := s.flt sd
    let s0 := emptyAttic s sd
    if c.cyc = infraOf s sd ∧ !c.batch.isEmpty then
      let s1 := s0.put (F.flt_atticStat_overwritten sd) c.overWas
      let q0 := c.seq + 256 - c.batch.length
      let same := decide (2 ≤ c.batch.length)
      let s2 := (putSlots s1 sd same q0 c.batch).put (F.flt_atticStat_count sd) c.batch.length
      match c.batch with
      | [] => s2
      | h :: _ =>
        let w := recWords h q0 same
        (((((s2.setReg (R.flt_first0 sd) w.1).setReg (R.flt_first1 sd) w.2.1).setReg (R.flt_first2 sd) w.2.2.1).setReg
          (R.flt_first3 sd) w.2.2.2).put (F.flt_atticStat_first_valid sd) 1).modF sd (fun c => { c with batchFirst := true })
    else s0

/-- R276. -/
def execAtticClear (sd : Side) (s : State) : Host.Outcome State Fault Refusal := .next (atticClear s sd)

/-! ### Masks, active bits, ALIVE (R268, R273) -/

/-- FAULT.CTL.lock (R268, R288). -/
def execFaultLock (sd : Side) (s : State) : Host.Outcome State Fault Refusal :=
  .next (if heldSide s sd then s else s.setReg (R.flt_ctl sd) 1)

/-- ALIVE follows the ERRPIN sources (R273): the pin stops, or the next edge comes 0.5 ms after the last of them is cleared. -/
def aliveEval (s : State) (sd : Side) : State :=
  let own := s.f (F.flt_alive_own sd)
  if own = 1 ∧ errpinActive s sd then aliveStop s sd 2
  else if own = 2 ∧ !errpinActive s sd then startAlive s sd
  else s

/-- A clear of SRC[n].STAT.active (R268): a record of the source in the same cycle leaves it at 1. -/
def srcClear (s : State) (sd : Side) (n : Nat) : State :=
  if heldSide s sd ∨ s.hwSet (F.src_stat_active sd n) ≠ 0 then s
  else aliveEval ((s.put (F.src_stat_active sd n) 0).modF sd (fun c => { c with int := c.int.filter (· != n) })) sd

/-- R268. -/
def execSrcActiveClear (sd : Side) (n : BitVec 8) (s : State) : Host.Outcome State Fault Refusal := .next (srcClear s sd n.toNat)

/-- A healthy side's ALIVE pin changes level every 0.5 ms (R273); its ALIVE_STATE is sent every 1 ms, with the rising edge (R391). -/
def aliveToggle (s0 : State) (sd : Side) : State :=
  if s0.f (F.flt_alive_own sd) ≠ 1 ∨ (s0.flt sd).dead then s0
  else
    let s := advanceNow s0 (s0.flt sd).aliveAt
    let up := !(s.flt sd).aliveLevel
    let s1 := s.modF sd (fun c => { c with aliveLevel := up, aliveAt := c.aliveAt + 500 * usU })
    if up then (match sd with | .field => sendAliveField s1 | .host => sendAliveHost s1) else s1

/-- R273. -/
def execAliveToggle (sd : Side) (s : State) : Host.Outcome State Fault Refusal := .next (aliveToggle s sd)

/-! ### Injection (R279) -/

/-- Factory test mode is active on a side (R279): each side has a JTAG chain of its own (log entry 51). -/
def testMode (s : State) : Side → Bool
  | .field => s.boot.jtag
  | .host => s.boot.hjtag

/-- INJ.CTL.go: only in factory test mode, dropped while a run lasts; a source that is not listed makes res NONE. -/
def injGo (s : State) (sd : Side) : State :=
  if heldSide s sd || !testMode s sd || decide (0 < (s.flt sd).injLeft) then s
  else if srcDefault (match sd with | .field => 0 | .host => 1) (s.f (F.flt_injCtl_source sd)) = none then s.put (F.flt_injStat_res sd) 0
  else (s.put (F.flt_injStat_res sd) 1).modF sd (fun c => { c with
    injLeft := max 1 (s.f (F.flt_injCtl_count sd)), injAt := s.clk.now + usU })

/-- R279. -/
def execInjGo (sd : Side) (s : State) : Host.Outcome State Fault Refusal := .next (injGo s sd)

/-- The next record of a run, every 1 us (R279). -/
def injRecord (s0 : State) (sd : Side) : State :=
  let c := s0.flt sd
  if c.injLeft = 0 then s0
  else
    let s := advanceNow s0 c.injAt
    let s1 := s.modF sd (fun c => { c with injLeft := c.injLeft - 1, injAt := c.injAt + usU })
    let s2 := s1.when (c.injLeft == 1) (·.put (F.flt_injStat_res sd) 2)
    recordRaw s2 sd (s.f (F.flt_injCtl_source sd)) (s.f (F.flt_injCtl_unit sd)) (max 1 (s.f (F.flt_injCtl_class sd)))
      (s.reg (R.flt_injSyn sd)) true

/-- R279. -/
def execInjRecord (sd : Side) (s : State) : Host.Outcome State Fault Refusal := .next (injRecord s sd)

/-- INJ.CTL.abort (R68, R279): the run ends before its next record, but for its last in this very cycle, which is made. -/
def injAbort (s : State) (sd : Side) : State :=
  if heldSide s sd || !testMode s sd then s
  else if (s.flt sd).injLeft = 0 then s.put (F.flt_injStat_res sd) 3
  else if (s.flt sd).injLeft = 1 ∧ (s.flt sd).injAt / (match sd with | .field => infraU | .host => 2 * infraU) = infraOf s sd then
    (injRecord s sd).put (F.flt_injStat_res sd) 3
  else (s.put (F.flt_injStat_res sd) 4).modF sd (fun c => { c with injLeft := 0 })

/-- R279. -/
def execInjAbort (sd : Side) (s : State) : Host.Outcome State Fault Refusal := .next (injAbort s sd)

/-! ### BLOCK_RESET (R268, R269) -/

/-- The block of a PLL id (R268): none for the house PLL. -/
def pllBlock (id : Nat) : Option ResetBlock :=
  if id = 0 then none else if id ≤ 48 then some (.table (Fin.ofNat 48 (id - 1)))
  else if id ≤ 52 then some (.stack (Fin.ofNat 4 (id - 49))) else if id ≤ 60 then some (.port (Fin.ofNat 8 (id - 53))) else none

/-- The block that a field record's unit names (R266, R268). -/
def blockOf (src unit : Nat) : Option ResetBlock :=
  if [19, 20, 21, 22, 23, 37, 48, 49, 50, 25, 32, 33, 34, 35].contains src then
    (if unit < 576 then some (.table (Fin.ofNat 48 (tableOf unit))) else none)
  else if [16, 17, 18, 24, 36, 69, 70].contains src then (if unit < 48 then some (.table (Fin.ofNat 48 unit)) else none)
  else if src = 1 ∨ src = 2 then pllBlock unit
  else if [64, 65, 66].contains src then (if unit < 256 then some (.stack (Fin.ofNat 4 (unit / 64))) else none)
  else if src = 67 ∨ src = 68 then (if unit < 4 then some (.stack (Fin.ofNat 4 unit)) else none)
  else if [98, 99, 101].contains src then (if unit < 8 then some (.port (Fin.ofNat 8 unit)) else none)
  else if src = 112 then
    (if unit < 48 then some (.table (Fin.ofNat 48 unit)) else if unit < 52 then some (.stack (Fin.ofNat 4 (unit - 48))) else none)
  else none

/-- The collector that answers for a block. -/
def blockSide : ResetBlock → Side
  | .porchHostEnd => .host
  | _ => .field

/-- The block that a waiting reaction names. -/
def reactionBlock (sd : Side) (x : Nat × Nat) : Option ResetBlock :=
  match sd with
  | .field => blockOf x.1 x.2
  | .host => some .porchHostEnd

/-- A member of an affected suite in another room or quad plays filler for 2 granules, parks and enters IDLE (R268). -/
def resetFellow (s : State) (m : Nat) : State :=
  if arming s m ∨ est s m = stArmed then
    idleEngine (s.put (F.eng_stat_arming m) 0) m
  else if running s m then
    let t := match (s.engine m).play with
      | some p => granT s m p (min (granAfter s m p (t16Now s)) p.endAt)
      | none => t16Now s
    let drv := match (s.engine m).play with
      | some p => driveAfter s m p (granAfter s m p (t16Now s) * perGranule m)
      | none => (s.laneOf m).drv
    beginFillRun (s.modL m (fun l => if l.mode == .playing then { l with drv := drv, condFrom := 2 ^ 64 } else l)) m .idle t
  else s

/-- Members in other rooms or quads of the suites that engines of table t play in. -/
def fellows (s : State) (t : Nat) : List Nat :=
  let ls := ((enginesOf t).filter (fun e => engaged s e && (s.engine e).suite % 2 == 1)).map (leaderOf s)
  (ls.eraseDups.flatMap (membersOf s)).filter (fun m => tableOf m != t)

/-- A room or quad begins its reset: every engine of it stops executing, lanes park without filler (R268). -/
def resetTable (s : State) (t : Nat) : State :=
  let fs := fellows s t
  let s1 := (enginesOf t).foldl (fun u e =>
    (parkEngine u e).put (F.eng_stat_arming e) 0 |>.put (F.eng_stat_start_pending e) 0) s
  fs.foldl resetFellow (s1.modT t (fun x => { x with resetOn := true, lsOn := false }))

/-- The reset of a room or quad ends: every engine reads IDLE (R268). -/
def endTable (s : State) (t : Nat) : State :=
  (enginesOf t).foldl (fun u e => (idleEngine (u.put (F.eng_stat_arming e) 0) e).put (F.eng_stat_abort_res e) 0)
    (s.modT t (fun x => { x with resetOn := false }))

/-- A block is being reset. -/
def blockOn (s : State) : ResetBlock → Bool
  | .table t => (s.table t).resetOn
  | b => s.boot.resets.contains b

/-- Note a stack, port or porch end as being reset. -/
def noteReset (s : State) (b : ResetBlock) (on : Bool) : State :=
  { s with boot := { s.boot with resets := s.boot.resets.filter (· != b) ++ (if on then [b] else []) } }

/-- A BLOCK_RESET begins on its block (R268). -/
def beginBlock (s : State) (b : ResetBlock) : State :=
  match b with
  | .table t => resetTable s t
  | .stack st => phaseRecovery (stackLost (noteReset s b true) st)
  | .port p =>
    let s1 := noteReset s b true
    let st := s1.f (F.fport_stat_state p)
    if st = 0 ∨ st = 4 then s1 else portGone (portAnnounceDown s1 p (s1.f (F.fport_stat_reason p))) p
  | .porchHostEnd => porchDown (noteReset s b true)

/-- BLOCK_RESET_BEGIN: a waiting reaction names the block, and no FATAL has taken it in; one that is already being reset takes in the further ones (R269). -/
def blockBegin (s : State) (b : ResetBlock) : State :=
  let sd := blockSide b
  let here := (s.flt sd).blocks.filter (fun x => reactionBlock sd x == some b)
  if here.isEmpty ∨ (s.flt sd).fatalOn then s
  else
    let s1 := s.modF sd (fun c => { c with blocks := c.blocks.filter (fun x => reactionBlock sd x != some b && (reactionBlock sd x).isSome) })
    if blockOn s1 b then s1 else beginBlock s1 b

/-- R268. -/
def execBlockResetBegin (b : ResetBlock) (s : State) : Host.Outcome State Fault Refusal := .next (blockBegin s b)

/-- A block reset ends (R268): engines read IDLE; a stack goes on by R243; an enabled port retrains (R325). -/
def blockEnd (s : State) (b : ResetBlock) : State :=
  if !blockOn s b then s
  else match b with
    | .table t => if inSafe s then s.modT t (fun x => { x with resetOn := false }) else endTable s t
    | .port p => (noteReset s b false).when (s.on (F.fport_cfg_en p) && !inSafe s) (·.put (F.fport_stat_state p) 1)
    | _ => noteReset s b false

/-- R268. -/
def execBlockResetEnd (b : ResetBlock) (s : State) : Host.Outcome State Fault Refusal := .next (blockEnd s b)

/-! ### CHIP_RESET (R268, R269) -/

/-- Five of the times at which CHIP_RESETs fell due lie within 1 s: from the fifth on they are ignored (R269). -/
def chipLimited (ts : List Nat) : Bool := (ts.zip (ts.drop 4)).any (fun p => decide (p.2 - p.1 < 1000000 * usU))

/-- A CHIP_RESET reaction acts (R268, R269): the warm reset, from stage 0x03, or reset_limit where it is ignored. A reset leaves an
injected safe state (R279); a set latch keeps the side in it (R271). -/
def chipReset (s : State) : State :=
  if s.fltF.chip = 0 then s
  else
    let ts := s.fltF.chipTimes ++ [s.clk.now]
    if chipLimited ts then
      (s.raise (F.flt_stat_reset_limit .field)).modF .field (fun c => { c with chip := 0, chipTimes := ts })
    else
      let s1 := fieldReset (porchDown s) true
      enterStage (s1.modF .field (fun c => { c with chipTimes := ts })) 3

/-- R268. -/
def execChipReset (s : State) : Host.Outcome State Fault Refusal := .next (chipReset s)

/-! ### Supplies and temperatures (R375, R387) -/

/-- A side's supply monitors record from the end of stage 0x01 (R375). -/
def monitorsOn (s : State) : Side → Bool
  | .field => decide (2 ≤ s.f F.id_bootStat_stage)
  | .host => decide (2 ≤ s.f F.hboot_stat_stage)

/-- A supply below its trip, or below its static minimum for more than 1 ms (R375). -/
def execSupplyUv (sd : Side) (supply : Fin 11) (mv : Nat) (s : State) : Host.Outcome State Fault Refusal :=
  .next (if monitorsOn s sd then recordRaw s sd (match sd with | .field => 4 | .host => 1) supply 3 (BitVec.ofNat 32 mv) false else s)

/-- VDD_F at a wing below its static minimum of 735 mV and above its trip of 715 mV (R375): the depth in whole mV, rounded up. -/
def droop (s : State) (wing lowestUv : Nat) : State :=
  if monitorsOn s .field && decide (715000 < lowestUv) && decide (lowestUv < 735000) then
    fault s 5 wing .corrected (divUp (735000 - lowestUv) 1000)
  else s

/-- R375. -/
def execDroop (wing : Fin 4) (lowestUv : Nat) (s : State) : Host.Outcome State Fault Refusal := .next (droop s wing lowestUv)

/-- Re-arm a sensor's reports by its reading (R387): TJ_HIGH at 100 degrees or lower, TJ_CRIT at 105 or lower. -/
def reArm (s : State) (h : Bool) (n : Nat) (c16 : Int) : State :=
  let s1 : State := if h then (s.put F.hid_htemp_temp (unsigned 16 c16)).put F.hid_htemp_stale 0 else s
  let hi := if c16 ≤ 1600 then s1.boot.high.filter (· != (h, n)) else s1.boot.high
  let cr := if c16 ≤ 1680 then s1.boot.crit.filter (· != (h, n)) else s1.boot.crit
  { s1 with boot := { s1.boot with high := hi, crit := cr } }

/-- A sensor reading as TJ_HIGH judges it (R387): recorded once per rise above 105 degrees. -/
def tjHigh (s0 : State) (sd : Side) (n : Nat) (c16 : Int) : State :=
  let h := sd == .host
  if heldSide s0 sd then s0
  else
    let s := reArm s0 h n c16
    if 1680 < c16 ∧ !s.boot.high.contains (h, n) then
      recordRaw { s with boot := { s.boot with high := s.boot.high ++ [(h, n)] } } sd (match sd with | .field => 6 | .host => 12) n 1
        (BitVec.ofInt 32 c16) false
    else s

/-- R387. -/
def execTjHigh (sd : Side) (sensor : Fin 36) (c16 : Int) (s : State) : Host.Outcome State Fault Refusal :=
  .next (tjHigh s sd sensor c16)

/-- A sensor reading as TJ_CRIT judges it (R387): recorded once per rise to 110 degrees. -/
def tjCrit (s0 : State) (sd : Side) (n : Nat) (c16 : Int) : State :=
  let h := sd == .host
  if heldSide s0 sd then s0
  else
    let s := reArm s0 h n c16
    if 1760 ≤ c16 ∧ !s.boot.crit.contains (h, n) then
      recordRaw { s with boot := { s.boot with crit := s.boot.crit ++ [(h, n)] } } sd (match sd with | .field => 7 | .host => 13) n 3
        (BitVec.ofInt 32 c16) false
    else s

/-- R387. -/
def execTjCrit (sd : Side) (sensor : Fin 36) (c16 : Int) (s : State) : Host.Outcome State Fault Refusal :=
  .next (tjCrit s sd sensor c16)

end Sys2Proof.Machine
end

