-- ==== Sys2Proof/Machine/Crc.lean ====
section
/-! DEFINITION. The configuration CRC (R292-R295, R349). -/

namespace Sys2Proof.Machine

/-! ### CRC-32C of a block (R292) -/

/-- One bit of a reflected CRC with polynomial 0x1EDC_6F41. -/
def crcBit (c : Word) : Word := if c.getLsbD 0 then (c >>> 1) ^^^ 0x82F63B78 else c >>> 1

/-- n bits. -/
def crcBits : Nat → Word → Word
  | 0, c => c
  | n + 1, c => crcBits n (crcBit c)

/-- A word fed as four bytes, the least significant first. -/
def crcWord (c w : Word) : Word :=
  (List.range 4).foldl (fun x k => crcBits 8 (x ^^^ (w >>> (8 * k) &&& 0xFF))) c

/-- The CRC of a list of words: initial value and final XOR 0xFFFF_FFFF. -/
def crc32c (ws : List Word) : Word := (ws.foldl crcWord 0xFFFFFFFF) ^^^ 0xFFFFFFFF

/-- The access types that the CRC covers (R292). -/
def covered : Access → Bool
  | .rw => true
  | .rwl => true
  | .wo1 => true
  | _ => false

/-- The covered bits of a word: none of the CRC block itself, and none of a source that the tables do not list (R265). -/
def coverMask (a : Nat) : Word :=
  if 0x8000 ≤ a ∧ a < 0x9000 then 0
  else match placeOf a with
    | none => 0
    | some p =>
      if p.blk = .src ∧ srcDefault p.unit p.sub = none then 0
      else p.reg.fields.foldl (fun m f => if covered f.acc then putBits m f.lo f.w (2 ^ f.w - 1) else m) 0

/-- First address and number of words of block b. -/
def crcSpan (b : Nat) : Nat × Nat :=
  if b < 256 then (b * 0x10000, 0x4000) else if b < 288 then (roomBase (b - 256), 0x40000) else (quadBase (b - 288), 0x20000)

/-- The covered words of block b, masked, in ascending address order. -/
def crcWords (s : State) (b : Nat) : List Word :=
  (List.range (crcSpan b).2).filterMap (fun i =>
    let a := (crcSpan b).1 + 4 * i
    let m := coverMask a
    if m = 0 then none else some (s.reg a &&& m))

/-- The result of block b. -/
def crcBlock (s : State) (b : Nat) : Word := crc32c (crcWords s b)

/-! ### Windows (R293, R295) -/

/-- The requester can make an access: house firmware only while the field controller runs (R11). -/
def reqRuns (s : State) (req : Requester) : Bool := req != .firmware || ctlRuns s .field

/-- House firmware has a window of its own; host, remote and JTAG share the host's. -/
def winBit (fw : Bool) : FRef := if fw then F.regf_crcStat_fw_open else F.regf_crcStat_host_open
/-- The requester's window is open. -/
def winOpen (s : State) (req : Requester) : Bool := s.on (winBit (req == .firmware))
/-- Some window is open. -/
def anyOpen (s : State) : Bool := s.on F.regf_crcStat_fw_open || s.on F.regf_crcStat_host_open

/-- CRC.CTL.open: an open window runs on (R295). -/
def crcOpen (s : State) (req : Requester) : State :=
  let fw := req == .firmware
  if winOpen s req then s
  else
    let s1 := s.put (winBit fw) 1
    { s1 with crc := { s1.crc with
        hostAt := if fw then s.crc.hostAt else s.clk.now, fwAt := if fw then s.clk.now else s.crc.fwAt
        hostLong := if fw then s.crc.hostLong else false, fwLong := if fw then false else s.crc.fwLong
        old := true } }

/-- R293. -/
def execCrcOpen (req : Requester) (s : State) : Host.Outcome State Fault Refusal :=
  .next (if heldSide s .field || !reqRuns s req then s else crcOpen s req)

/-- CRC.CTL.commit: dropped where the requester's window is not open; comparison is enabled from the first commit on (R293, R295). -/
def crcCommit (s : State) (req : Requester) : State :=
  if !winOpen s req then s.raise F.regf_crcStat_cmd_err
  else
    let s1 := (s.put (winBit (req == .firmware)) 0).put F.regf_crcStat_armed 1
    { s1 with crc := { s1.crc with seen := [], old := true } }

/-- R293. -/
def execCrcCommit (req : Requester) (s : State) : Host.Outcome State Fault Refusal :=
  .next (if heldSide s .field || !reqRuns s req then s else crcCommit s req)

/-- CRC.REF[b], inside the requester's window (R295). -/
def crcRefWrite (s : State) (req : Requester) (b : Nat) (v : Word) : State :=
  if winOpen s req then s.setReg (R.crcRef_ref b) v else s.raise F.regf_crcStat_cmd_err

/-- R295. -/
def execCrcRefWrite (req : Requester) (b : Fin 304) (val : Word) (s : State) : Host.Outcome State Fault Refusal :=
  .next (if heldSide s .field || !reqRuns s req then s else crcRefWrite s req b val)

/-- The limit of a window's age in ms (R299). -/
def windowMax (s : State) : Nat := max 1 (min 10000 (s.f F.regf_crcCfg_window_max))

/-- A window has been open for window_max ms (R293): recorded once, with its length. -/
def openLong (s0 : State) (fw : Bool) : State :=
  let t := if fw then s0.crc.fwAt else s0.crc.hostAt
  let done := if fw then s0.crc.fwLong else s0.crc.hostLong
  if !s0.on (winBit fw) || done then s0
  else
    let ms := 1000 * usU
    let s := advanceNow s0 (t + windowMax s0 * ms)
    let s1 := { s with crc := { s.crc with hostLong := !fw || s.crc.hostLong, fwLong := fw || s.crc.fwLong } }
    fault (s1.raise F.regf_crcStat_open_long) 84 0 .corrected ((s.clk.now - t) / ms)

/-- R293. -/
def execCfgOpenLong (fw : Bool) (s : State) : Host.Outcome State Fault Refusal :=
  .next (if heldSide s .field then s else openLong s fw)

/-! ### The scan (R292, R294, R349) -/

/-- A block with memories that have no shadow is skipped while its domain is gated (R349): a room's in F1 to F3, a quad's in F3, the delay
and timing sets in F2 and F3. -/
def crcSkip (s : State) (b : Nat) : Bool :=
  let st := s.f F.pwr_stat_state
  (decide (256 ≤ b) && decide (b < 288) && decide (1 ≤ st)) || (decide (288 ≤ b) && decide (3 ≤ st)) ||
    (decide (17 ≤ b) && decide (b ≤ 22) && decide (2 ≤ st))

/-- The next block of the scan from n on. -/
def crcNext (s : State) (n : Nat) : Nat :=
  (firstBelow 304 (fun k => !crcSkip s ((n + k) % 304))).map (fun k => (n + k) % 304) |>.getD (n % 304)

/-- The engines that a mismatch of block b contains (R294). -/
def crcEngines (b : Nat) : List Nat :=
  if b < 256 then allEngines else if b < 288 then enginesOf (b - 256) else enginesOf (32 + (b - 288))

/-- A block's result differs from its reference (R294): recorded once until the next commit, and every engine the block can affect that is
ARMED, RUN or WAIT enters FAULTED. -/
def crcMismatch (s : State) (b : Nat) : State :=
  if s.crc.seen.contains b then s
  else
    let s1 := s.when (!s.on F.regf_crcStat_mismatch) (·.put F.regf_crcStat_first_blk b)
    let s2 := { s1.raise F.regf_crcStat_mismatch with crc := { s1.crc with seen := s1.crc.seen ++ [b] } }
    (crcEngines b).foldl (fun u e => if active3 u e then faultEngine u e else u) (fault s2 83 0 .contained b)

/-- The pass of block b completes (R292, R293, R295). -/
def crcPass (s : State) (b : Nat) : State :=
  if crcNext s s.crc.next ≠ b then s
  else
    let v := crcBlock s b
    let judged := s.on F.regf_crcStat_armed && !anyOpen s && !s.crc.old
    let s1 := s.setReg (R.crcVal_val b) v
    let s2 := { s1 with crc := { s1.crc with next := (b + 1) % 304, old := false } }
    if judged && v != s.reg (R.crcRef_ref b) then crcMismatch s2 b else s2

/-- R292. -/
def execCrcBlockPass (b : Fin 304) (s : State) : Host.Outcome State Fault Refusal :=
  .next (if heldSide s .field then s else crcPass s b)

end Sys2Proof.Machine
end

