-- ==== Sys2Proof/Machine/Operands.lean ====
section
/-! DEFINITION. Operands of register accesses: words as the bytes of frames (R6, R305), the windows and domains of addresses (R288-R291,
R296), the target of a remote access (R339). -/

namespace Sys2Proof.Machine

/-- A word as four bytes, the least significant first (R6). -/
def wordBytes (w : Word) : List (BitVec 8) := (List.range 4).map (fun k => w.extractLsb' (8 * k) 8)

/-- The word that four bytes spell. -/
def bytesWord (bs : List (BitVec 8)) : Word := BitVec.ofNat 32 ((bs.take 4).foldr (fun b a => b.toNat + 256 * a) 0)

/-- All-ones. -/
def onesWord : Word := 0xFFFFFFFF

/-- The remote window (R339). -/
def remoteWindow (a : Nat) : Bool := decide (0x280000 ≤ a) && decide (a < 0x300000)

/-- The byte address that offset a of the remote window reaches at its target (R339). -/
def remoteTarget (s : State) (a : Nat) : Nat := s.f F.fab_rwinCfg_base * 0x80000 + (a - 0x280000)

/-- An address that no remote access may reach (R339): the host tile's, or the target's own remote window. -/
def remoteRange (a : Nat) : Bool := decide (0x03F00000 ≤ a) || remoteWindow a

/-- The PLL whose clock a field register's block runs on (R296): a lane's room or quad, a port's, a stack's; 0 for the rest. -/
def placePll (p : Place) : Nat :=
  match p.blk with
  | .lt => 1 + p.unit / 16
  | .ts => 1 + p.unit / 16
  | .le => 1 + p.unit / 16
  | .ls => 1 + p.unit / 16
  | .xl => 33 + p.unit / 4
  | .dfe => 33 + p.unit / 4
  | .fport => 53 + p.unit
  | .dly => 49 + p.unit % 4
  | _ => 0

/-- A loss has frozen the domain of a field register (R290, R291). -/
def placeFrozen (s : State) (p : Place) (a : Nat) : Bool :=
  let id := placePll p
  !infraWindow a && (frozen s || (id != 0 && !pllOpen s id && (s.pllOf id).lossOpen))

/-- A memory without a shadow whose domain a power state gates (R290, R347): its reads wake the device. -/
def gatedMemory (s : State) (p : Place) (a : Nat) : Bool :=
  let st := s.f F.pwr_stat_state
  let room := decide (0x01000000 ≤ a) && decide (a < 0x03000000)
  match p.blk with
  | .imem => decide ((if room then 1 else 3) ≤ st)
  | .seg => decide ((if room then 1 else 3) ≤ st)
  | .ts => decide (1 ≤ st)
  | .ls => decide (1 ≤ st)
  | .dly => decide (2 ≤ st)
  | _ => false

/-- After NO_IMAGE the field side serves the identity, fault and boot registers only (R361). -/
def served (s : State) (a : Nat) : Bool :=
  !(s.f F.id_bootStat_stage == 4 && s.f F.id_bootStat_err == 1) || decide (a < 0x8000) || (decide (0x10000 ≤ a) && decide (a < 0x20000))

/-- After both host images failed the host tile serves its identity registers and HBOOT only (R364). -/
def servedHost (s : State) (a : Nat) : Bool :=
  s.f F.hboot_stat_err != 1 || decide (a < 0x03F10000) || decide (0x03F50000 ≤ a)

end Sys2Proof.Machine
end

