-- ==== Sys2Proof/Machine/Flags.lean ====
section
/-! DEFINITION. Status fields that follow other state, computed where they are read: house time, engine positions, ring levels, active
bits, idle conditions (R78, R115, R182, R280, R301, R357). -/

namespace Sys2Proof.Machine

/-- GRAN (R78): the granule now playing, counted from granule 0 of the current play; when none plays, the last value. -/
def granFlag (s : State) (e : Nat) : Word := (bakePlay s e).reg (R.eng_gran e)

/-- State code of an engine (R54, R55): a play of a WAIT instruction that has begun is WAIT. -/
def stateFlag (s : State) (e : Nat) : Nat :=
  match begunPlay s e with
  | some p => match p.kind with
    | .wait _ => if est s e = stRun then stWait else est s e
    | _ => est s e
  | none => est s e

/-- STAT of an engine with its state and in_filler (R55, R78). -/
def engStatFlags (s : State) (e : Nat) : Word :=
  putBits (putBits (s.reg (R.eng_stat e)) 18 1 (bit (inFiller s e))) 0 3 (stateFlag s e)

/-- The engine at whose play's first boundary the register at offset o of a block changes (R78, R128, R149, R165). -/
def playShown (p : Place) : Option Nat :=
  let o := p.reg.off
  match p.blk with
  | .eng => if o = 0x24 ∨ o = 0x28 ∨ o = 0x2C then some p.unit else none
  | .lt => if 0x14 ≤ o then some p.unit else none
  | .le => if o = 8 then some p.unit else none
  | .xl => if o = 0x28 ∨ o = 0x2C then some (512 + p.unit) else none
  | _ => none

/-- Level of ring r (R182): WPTR - RPTR modulo 2^32. -/
def levelFlag (s : State) (r : Nat) : Word := s.reg (R.ring_wptr r) - s.reg (R.ring_rptr r)

/-- STAT of ring r with active (R178, R182). -/
def ringStatFlags (s : State) (r : Nat) : Word := putBits (s.reg (R.ring_stat r)) 0 1 (bit (ringActive s r))

/-- Active bits of sources 32w to 32w + 31 of a side (R280). -/
def srcActFlags (s : State) (sd : Side) (w : Nat) : Word :=
  (List.range 32).foldl (fun x b => putBits x b 1 (s.f (F.src_stat_active sd (32 * w + b)))) 0

/-- PWR.STAT with block (R350, R357). -/
def pwrFlags (s : State) : Word := putBits (s.reg R.pwr_stat) 16 6 (powerBlock s)

/-- The side of a collector's registers. -/
def placeSide (p : Place) : Side := if p.unit = 0 then .field else .host

/-- Stale bits of room t's converters, in the order of STAT [5:3] (R251): those of a recalibration last at most 0.5 ms for the temperature, 1 ms
for the TDC and 2 ms for the ADC. -/
def staleBits (s : State) (t : Nat) : Nat :=
  let w := s.walkOf t
  let old (us : Nat) : Bool := w.recal && decide (w.startAt + us * usU ≤ s.clk.now)
  let v := s.f (walkStat t 3 3)
  (if old 500 then 0 else v % 2) + (if old 1000 then 0 else v / 2 % 2 * 2) + (if old 2000 then 0 else v / 4 % 2 * 4)

/-- A register of room n's or quad q's walk, with its stale bits and temperature as they are now (R251, R263). -/
def roomFlags (s : State) (t off a : Nat) : Word :=
  if off = 4 then putBits (s.reg a) 3 3 (staleBits s (convRoom t))
  else if off = 0x10 ∧ tempOver s t then putBits (s.reg a) 0 16 (unsigned 16 (s.walkOf t).temp)
  else s.reg a

/-- The word that a read of a place returns (R284). -/
def placeRead (s0 : State) (p : Place) (a : Nat) : Word :=
  let s := match playShown p with
    | some e => bakePlay s0 e
    | none => s0
  match p.blk with
  | .time => if p.reg.off = 0 then BitVec.ofNat 32 (beatsNow s) else if p.reg.off = 4 then BitVec.ofNat 32 (beatsNow s / 2 ^ 32) else s.reg a
  | .eng => if p.reg.off = 0x20 then engStatFlags s p.unit else s.reg a
  | .xl => if p.reg.off = 0x7C then putBits (s.reg a) 0 4 (ctleNow s p.unit) else s.reg a
  | .dfe => putBits (s.reg a) 0 8 (tapNow s p.unit p.sub)
  | .ring => if a = R.ring_level p.unit then levelFlag s p.unit else if a = R.ring_stat p.unit then ringStatFlags s p.unit else s.reg a
  | .srcAct => srcActFlags s (placeSide p) p.sub
  | .calRoom => roomFlags s p.unit p.reg.off a
  | .calQuad => roomFlags s (32 + p.unit) p.reg.off a
  | .mon => if a = (F.mon_stat_stale p.unit).addr then putBits (s.reg a) (F.mon_stat_stale p.unit).lo 1 (bit (s.on (F.mon_stat_stale p.unit)) * (staleBits s p.unit / 4)) else s.reg a
  | .stTemp => if tempOver s (8 * p.unit) && s.ctl.tempOk.contains p.unit then putBits (s.reg a) 16 1 0 else s.reg a
  | .pwr => if p.reg.off = 0xC then pwrFlags s else s.reg a
  | .mcnt => (monSync s p.unit).reg a
  | .flt => if 0x1000 ≤ p.reg.off ∧ !testMode s (placeSide p) then 0 else s.reg a
  | .src => if srcDefault p.unit p.sub = none then 0 else s.reg a
  | _ => s.reg a

end Sys2Proof.Machine
end

