-- ==== Sys2Proof/Machine/Bus.lean ====
section
/-! DEFINITION. Register accesses (R7, R281-R291): a word read or written at a byte address of BAR0, by access type, lock and domain, and
the registers whose writes are commands with a meaning of their own. -/

namespace Sys2Proof.Machine

/-! ### Writes by access type (R284, R287, R288, R291) -/

/-- What a write of n does to a field that holds o: the value it then holds, whether LOCK_WR is due, and whether a frozen domain has
dropped it (R284, R287, R288, R291). st and inc: the status bits hardware set in the field, and what it added to it, in this cycle: a
clear leaves the former, a written counter takes the latter (R285). -/
def fieldWrite (f : FieldSpec) (locked frz : Bool) (st inc o n : Nat) : Nat × Bool × Bool :=
  match f.acc with
  | .rw => (n, false, false)
  | .rwl => if locked && n != o then (o, true, false) else (n, false, false)
  | .wo1 => if o = f.reset then (n, false, false) else (o, n != o, false)
  | .w1c => if frz then (o, false, n != 0) else (o - (o &&& (n - (n &&& st))), false, false)
  | .cntw => if frz then (o, false, true) else (n + inc, false, false)
  | .w1s => (o, false, frz && n != 0)
  | .wo => (o, false, frz && n != 0)
  | .ro => (o, false, false)
  | .hw => (o, false, false)
  | .cnt => (o, false, false)

/-- The word after a write by field types, whether LOCK_WR is due, and whether a frozen domain dropped a part; hw gives hardware's
updates of a field in this cycle (fieldWrite). -/
def wordWrite (fs : List FieldSpec) (hw : FieldSpec → Nat × Nat) (locked frz : Bool) (old v : Word) : Word × Bool × Bool :=
  fs.foldl (fun x f =>
    let r := fieldWrite f locked frz (hw f).1 (hw f).2 (bitsOf old f.lo f.w) (bitsOf v f.lo f.w)
    (putBits x.1 f.lo f.w r.1, x.2.1 || r.2.1, x.2.2 || r.2.2)) (old, false, false)

/-- The lock of a place's RWL fields is set (R223, R268). -/
def placeLocked (s : State) (p : Place) : Bool :=
  match p.blk with
  | .src => s.on (F.flt_ctl_lock (placeSide p))
  | .dly => s.on F.st_trainCtl_lock
  | .shadow => s.on F.st_trainCtl_lock
  | .st => s.on F.st_trainCtl_lock
  | _ => false

/-- What hardware has set in a field of the word at a, and added to it, in the present cycle (R285). -/
def hwAt (s : State) (a : Nat) (f : FieldSpec) : Nat × Nat := (s.hwSet ⟨a, f.lo, f.w⟩, s.hwSum ⟨a, f.lo, f.w⟩)

/-- A write by field types; LOCK_WR carries the word's byte address (R287). -/
def typedWrite (s : State) (p : Place) (a : Nat) (frz : Bool) (v : Word) : State :=
  let (w, lk, dr) := wordWrite p.reg.fields (hwAt s a) (placeLocked s p) frz (s.reg a) v
  let s1 := (s.setReg a w).when dr (·.raise F.regf_stat_frozen_wr)
  if lk then (if hostReg a then hostFault s1 7 0 .contained a else fault s1 82 0 .contained a) else s1

/-! ### Registers whose writes are commands -/

/-- A command bit: dropped in a frozen domain (R291). -/
def cmdBit (s : State) (frz c : Bool) (g : State → State) : State :=
  if !c then s else if frz then s.raise F.regf_stat_frozen_wr else g s

/-- ENG[k].CTL (R78, R366): abort prevails over reset and arm, reset over arm; what is dropped sets cmd_err, a start beside them too, which
R78 does not name (log entry 54). -/
def engCtl (s : State) (e : Nat) (v : Word) : State :=
  let arm := v.getLsbD 0
  let start := v.getLsbD 1
  let abort := v.getLsbD 2
  let reset := v.getLsbD 3
  if abort then (abortCmd s (cmdLeader s e)).when (reset || arm || start) (·.raise (F.eng_stat_cmd_err e))
  else if reset then (resetCmd s e).when (arm || start) (·.raise (F.eng_stat_cmd_err e))
  else if arm then armWrite s e start
  else if start then startWrite s e
  else s

/-- SRC[n].CFG and SRC[n].STAT (R265, R268): an unlisted source ignores writes; on the host side chip_reset is reserved. -/
def srcWrite (s : State) (p : Place) (a : Nat) (v : Word) : State :=
  let sd := placeSide p
  if srcDefault p.unit p.sub = none then s
  else if p.reg.off = 0 then aliveEval (typedWrite s p a false (if sd = .host then v &&& 0x17 else v)) sd
  else if v.getLsbD 0 then srcClear s sd p.sub else s

/-- FAULT, ATTIC and INJ registers of a side (R276, R277, R279). -/
def fltWrite (s : State) (req : Requester) (p : Place) (a : Nat) (v : Word) : State :=
  let sd := placeSide p
  if p.reg.off = 0x40 then (s.when (v.getLsbD 0) (atticClear · sd)).when (v.getLsbD 1) (atticRelease · sd req)
  else if 0x1000 ≤ p.reg.off then
    if !testMode s sd then s
    else if p.reg.off = 0x1000 then
      ((typedWrite s p a false v).when (v.getLsbD 1) (injAbort · sd)).when (v.getLsbD 0) (injGo · sd)
    else typedWrite s p a false v
  else typedWrite s p a false v

/-- FPORT.CFG (R324, R325): a port disabled goes down; one enabled trains once stage 0x0A has been reached. -/
def fportCfg (s : State) (p : Place) (a : Nat) (frz : Bool) (v : Word) : State :=
  let was := s.on (F.fport_cfg_en p.unit)
  let s1 := typedWrite s p a frz v
  let is := s1.on (F.fport_cfg_en p.unit)
  if was && !is then downPort s1 p.unit 6
  else if !was && is && decide (10 ≤ s1.f F.id_bootStat_stage) && !inSafe s1 then
    let s2 := if pllOpen s1 (53 + p.unit) || (s1.pllOf (53 + p.unit)).wait != 0 then s1 else startSearch s1 (53 + p.unit)
    s2.put (F.fport_stat_state p.unit) 1
  else s1

/-- A monitor counter's CTL: start, stop, snapshot and clear (R301). -/
def mcntCtl (s : State) (i : Nat) (v : Word) : State :=
  (((s.when (v.getLsbD 1) (monStop · i)).when (v.getLsbD 0) (monStart · i)).when (v.getLsbD 2) (monSnap · i)).when (v.getLsbD 3)
    (monClear · i)

/-- The phase request of a RINGS.PHASE write (R180, R182). -/
def phaseWrite (s : State) (req : Requester) (code : Nat) : State :=
  if code = 1 then phaseReq s 1 (fun u => byHost req && decide (2 ≤ u.f F.rings_phase_phase))
  else if code = 2 then phaseReq s 2 (fun u => byHost req && u.f F.rings_phase_phase == 1)
  else if code = 3 then phaseReq s 3 (fun u => u.f F.rings_phase_phase == 1 || u.f F.rings_phase_phase == 2)
  else s

/-- PWR.CTL (R352-R354): an f4_req in the write of a wake is dropped. -/
def pwrCtl (s : State) (v : Word) : State :=
  let w := v.getLsbD 0
  (s.when (v.getLsbD 1) (fun u => if w then u.raise F.pwr_stat_req_err else f4Request u)).when w (wake · 6)

/-- DSK.CTL (R259, R261). -/
def dskCtl (s : State) (v : Word) : State :=
  let avg := bitsOf v 12 4
  let s1 := s.put F.cal_dskCtl_avg_log2 avg
  (s1.when (v.getLsbD 1) deskewAbort).when (v.getLsbD 0) (deskewGo · avg)

/-- ROOM.CTL or QUAD.CTL of a table (R262, R263). -/
def walkCtl (s : State) (t : Nat) (v : Word) : State := (s.when (v.getLsbD 1) (fullWalkAbort · t)).when (v.getLsbD 0) (fullWalk · t)

/-- A lane's electrical block (R128-R149): its CFG, its counters' clear, the rest by type. -/
def leWrite (s : State) (p : Place) (a : Nat) (frz : Bool) (v : Word) : State :=
  if p.reg.off = 0 then laneCfg s p.unit v
  else if p.reg.off = 0xC then cmdBit s frz (v.getLsbD 0) (clearCounts · p.unit)
  else typedWrite s p a frz v

/-- An express lane's block (R152-R165). -/
def xlWrite (s : State) (p : Place) (a : Nat) (frz : Bool) (v : Word) : State :=
  let k : XLane := Fin.ofNat 64 p.unit
  if p.reg.off = 0 then stagedLo s (.rate k) v
  else if p.reg.off = 4 then stagedHi s (.rate k) v
  else if p.reg.off = 8 then stagedLo s (.xofs k) v
  else if p.reg.off = 0xC then stagedHi s (.xofs k) v
  else if p.reg.off = 0x14 then txeq s k v
  else if p.reg.off = 0x18 then rxeq s k v
  else if p.reg.off = 0x40 then cmdBit s frz (v.getLsbD 0) (clearCounts · (512 + k.val))
  else typedWrite s p a frz v

/-- A pin lane's timing block (R128). -/
def ltWrite (s : State) (p : Place) (a : Nat) (frz : Bool) (v : Word) : State :=
  let l : PinLane := Fin.ofNat 512 p.unit
  if p.reg.off = 0 then stagedLo s (.freq l) v
  else if p.reg.off = 4 then stagedHi s (.freq l) v
  else if p.reg.off = 8 then stagedLo s (.ofs l) v
  else if p.reg.off = 0xC then stagedHi s (.ofs l) v
  else typedWrite s p a frz v

/-- A timer (R195). -/
def tmrWrite (s : State) (p : Place) (a : Nat) (frz : Bool) (v : Word) : State :=
  let i : Fin 32 := Fin.ofNat 32 p.unit
  if p.reg.off = 0 then timerCfg s i v
  else if p.reg.off = 4 then stagedLo s (.tmrStart i) v
  else if p.reg.off = 8 then stagedHi s (.tmrStart i) v
  else if p.reg.off = 0xC then stagedLo s (.tmrPeriod i) v
  else if p.reg.off = 0x10 then stagedHi s (.tmrPeriod i) v
  else typedWrite s p a frz v

/-- An engine's registers (R78, R184). -/
def engWrite (s : State) (p : Place) (a : Nat) (frz : Bool) (v : Word) : State :=
  let e := p.unit
  if p.reg.off = 0 then cmdBit s frz (v.toNat % 16 != 0) (engCtl · e v)
  else if p.reg.off = 0x30 then cmdBit s frz (v != 0) (taskClear · e v.toNat)
  else if a = R.eng_firstWhere e then typedWrite (s.when (v.getLsbD 31 && !frz) (takeOcc · e)) p a frz v
  else if p.reg.off = 0x34 then cmdBit s frz (v.toNat % 256 != 0) (fun u => taskStart (taskArrivals u e (v.toNat % 256)) e)
  else typedWrite s p a frz v

/-- The store controller's registers (R223-R229). -/
def stWrite (s : State) (p : Place) (a : Nat) (frz : Bool) (v : Word) : State :=
  if p.reg.off = 4 then
    cmdBit (s.put F.st_opCtl_point (bitsOf v 1 2)) frz (v.getLsbD 0) (opGo · (bitsOf v 1 2))
  else typedWrite s p a frz v

/-- The fabric unit's registers (R328, R345). -/
def fabWrite (s : State) (p : Place) (a : Nat) (frz : Bool) (v : Word) : State :=
  if p.reg.off = 0xC then
    let h := bitsOf v 0 10
    let s1 := s.put F.fab_censusCtl_house h
    cmdBit (cmdBit s1 frz (v.getLsbD 11) (censusForget · h)) frz (v.getLsbD 10) (censusAdmit · h)
  else if p.reg.off = 0x40 then cmdBit s frz (v.getLsbD 15) (·.put F.fab_rnoteStat_count 0)
  else typedWrite s p a frz v

/-- A write to a place of the field side: a register whose write is a command of its own acts as that command does, any other by its field
types. frz: its domain is frozen (R291). -/
def placeWrite (s : State) (req : Requester) (p : Place) (a : Nat) (frz : Bool) (v : Word) : State :=
  let o := p.reg.off
  let u := p.unit
  match p.blk with
  | .regf => if o = 0x100 then (s.when (v.getLsbD 1) (crcCommit · req)).when (v.getLsbD 0) (crcOpen · req) else typedWrite s p a frz v
  | .crcRef => crcRefWrite s req u v
  | .flt => fltWrite s req p a v
  | .src => srcWrite s p a v
  | .clk => if o = 8 then s.when (v.getLsbD 0) refApply
    else if o = 4 ∧ bitsOf v 0 16 = 0 then s.raise F.clk_refStat_ratio_rej
    else typedWrite s p a frz v
  | .time =>
    let s1 := typedWrite s p a frz v
    if o = 0x38 ∧ !frz then (s1.when (v.getLsbD 1) epochCancel).when (v.getLsbD 0) epochGo else s1
  | .cal =>
    if o = 0 then calPause s (v.getLsbD 0)
    else if o = 8 then refDecl s false v.toNat
    else if o = 0xC then refDecl s true v.toNat
    else if o = 0x20 then dskCtl s v
    else typedWrite s p a frz v
  | .calRoom => if o = 0 then walkCtl s u v else typedWrite s p a frz v
  | .calQuad => if o = 0 then walkCtl s (32 + u) v else typedWrite s p a frz v
  | .dskLane => showTrace (typedWrite s p a frz v) u
  | .pwr => if o = 0 then ltrWrite s v.toNat else if o = 8 then pwrCtl s v else typedWrite s p a frz v
  | .mcnt => if o = 0 then monCfg s u v else if o = 4 then cmdBit s frz (v.toNat % 16 != 0) (mcntCtl · u v) else typedWrite s p a frz v
  | .pmat => typedWrite (noteOld s a) p a frz v
  | .tmat => typedWrite (noteOld s a) p a frz v
  | .trigOut => let t := typedWrite s p a frz v; if o = 0 then trigOutCfg s t u else t
  | .hall => if o = 4 ∧ (bitsOf v 0 21 < 240 ∨ 1200000 < bitsOf v 0 21) then s.raise F.hall_stat_cfg_rej else
    if o = 0xC then cmdBit s frz (v != 0) (swpulse · v) else typedWrite s p a frz v
  | .grpCtl =>
    let s1 := typedWrite s p a frz v
    if frz then s1 else (s1.when (v.getLsbD 0) (groupChg · u true)).when (v.getLsbD 1) (groupChg · u false)
  | .tmr => tmrWrite s p a frz v
  | .st => stWrite s p a frz v
  | .fab => fabWrite s p a frz v
  | .fport => fportCfg s p a frz v
  | .dly => if req = .firmware then typedWrite s p a frz v else s
  | .shadow => if req = .firmware then typedWrite s p a frz v else s
  | .ring =>
    if o = 0 then ringCfg s u v
    else if o = 8 then cmdBit s frz true (ringPtr · u true v)
    else if o = 0xC then cmdBit s frz true (ringPtr · u false v)
    else typedWrite s p a frz v
  | .rings => cmdBit (typedWrite s p a frz (v &&& 0x80)) frz (bitsOf v 4 2 != 0) (phaseWrite · req (bitsOf v 4 2))
  | .eng => engWrite s p a frz v
  | .lt => ltWrite s p a frz v
  | .ts => timingSet s u p.sub (o / 4) v
  | .le => leWrite s p a frz v
  | .ls => levelSet s u p.sub (o == 4) v
  | .mon => if o = 0 ∧ v.getLsbD 0 then cmdBit s frz true (monGo · u v) else typedWrite s p a frz v
  | .xl => xlWrite s p a frz v
  | .seg => if o = 8 then descCommit s u p.sub v else descStage s u p.sub (o / 4) v
  | .imem => if o = 0 then imemStage s u p.sub v else imemCommit s u p.sub v
  | _ => typedWrite s p a frz v

/-- The place of an address on the field side: the host tile's registers are none of it (R2, R296). -/
def fieldPlace (a : Nat) : Option Place := if hostReg a then none else placeOf a

/-- A word written to the field side's registers by a requester (R281-R291): unmapped addresses ignore it; a domain outside the
infrastructure domain wakes (R353); after NO_IMAGE most registers are not served (R361). -/
def fieldBusWrite (s : State) (req : Requester) (a : Nat) (v : Word) : State :=
  if heldSide s .field || !served s a || !reqRuns s req then s
  else match fieldPlace a with
    | none => s.raise F.regf_stat_unmapped
    | some p =>
      let frz := placeFrozen s p a
      if infraWindow a then endIdle (placeWrite s req p a frz v)
      else placeWrite (if frz then s else wake s 1) req p a frz v

/-- A word read from the field side's registers (R283, R284, R290). -/
def fieldBusRead (s : State) (a : Nat) : Word × State :=
  if heldSide s .field then (onesWord, s)
  else if !served s a then s.draw
  else match fieldPlace a with
    | none => (0, s.raise F.regf_stat_unmapped)
    | some p =>
      let s1 := if gatedMemory s p a && !placeFrozen s p a then wake s 1 else s
      (placeRead s1 p a, s1)

/-- A word written to a register of the host tile (R296, R313-R321). -/
def hostBusWrite (s : State) (a : Nat) (v : Word) : State :=
  if heldSide s .host || !servedHost s a then s
  else match placeOf a with
    | none => s
    | some p =>
      match p.blk with
      | .flt => fltWrite s .host p a v
      | .src => srcWrite s p a v
      | .msix =>
        let s1 := typedWrite s p a false v
        let pend : FRef := ⟨R.pba_word (p.unit / 32), p.unit % 32, 1⟩
        if s1.on pend && !s1.on (F.msix_ctl_mask p.unit) then
          let s2 := s1.put pend 0
          { s2 with msi := s2.msi ++ [p.unit] }
        else s1
      | .dmaq =>
        if p.reg.off = 0xC then dmaTail s p.unit (v.toNat % 4096) []
        else if p.reg.off = 0x14 then
          let s1 := dmaEnable s p.unit (v.getLsbD 0)
          (s1.when (v.getLsbD 1) (dmaAbort · p.unit)).when (v.getLsbD 2) (dmaRestart · p.unit)
        else typedWrite s p a false v
      | _ => typedWrite s p a false v

/-- A word read from a register of the host tile: it reads 0 at every other offset (R298). -/
def hostBusRead (s : State) (a : Nat) : Word × State :=
  if heldSide s .host || !servedHost s a then (onesWord, s)
  else match placeOf a with
    | none => (0, s)
    | some p => (placeRead s p a, s)

/-- REG_WRITE (R284): the requesters of the field fabric reach its registers; the host tile's are the host's. -/
def regWrite (s : State) (req : Requester) (a : Nat) (v : Word) : State :=
  if hostReg a then (if req = .host then hostBusWrite s a v else if heldSide s .field then s else s.raise F.regf_stat_unmapped)
  else fieldBusWrite s req a v

/-- R284. -/
def execRegWrite (req : Requester) (addr : BitVec 26) (val : Word) (s : State) : Host.Outcome State Fault Refusal :=
  .next (regWrite s req addr.toNat val)

end Sys2Proof.Machine
end

