-- ==== Sys2Proof/Machine/BusCmds.lean ====
section
/-! DEFINITION. Register accesses over the porch and the fabric (R305, R311, R314, R315, R339). -/

namespace Sys2Proof.Machine

/-! ### The remote window (R339) -/

/-- The field end answers a host access. -/
def answerHost (s : State) (tag : Option (BitVec 8)) (st : Fin 3) (d : List (BitVec 8)) : State :=
  match tag with
  | none => s
  | some t => sendToHost s (.regCpl t st d)

/-- Data of an answer: the word of a read, nothing for a write. -/
def answerData (write : Bool) (w : Word) : List (BitVec 8) := if write then [] else wordBytes w

/-- RWIN.STAT.busy follows the outstanding accesses (R339). -/
def rwinBusy (s : State) : State := s.put F.fab_rwinStat_busy (bit (!s.fab.rem.isEmpty))

/-- An access through the remote window (R339): local where the window names this device, refused in range, unreachable, or sent. -/
def remoteAccess (s : State) (req : Requester) (tag : Option (BitVec 8)) (write : Bool) (a : Nat) (v : Word) : State :=
  let t := remoteTarget s a
  let h := s.f F.fab_rwinCfg_house
  if h = ownHouse s then
    if remoteRange t then answerHost (s.raise F.fab_rwinStat_range) tag 2 (answerData write onesWord)
    else if write then answerHost (fieldBusWrite s req t v) tag 0 []
    else
      let (w, s1) := fieldBusRead s t
      answerHost s1 tag 0 (wordBytes w)
  else
    let m : Packet := if write then .regWr 0 (BitVec.ofNat 26 t) v else .regRd 0 (BitVec.ofNat 26 t)
    let free := firstBelow 256 (fun k => s.fab.rem.all (fun x => x.1 != BitVec.ofNat 8 k))
    match routePort s h m, free with
    | some _, some k =>
      let g := BitVec.ofNat 8 k
      let m' : Packet := if write then .regWr g (BitVec.ofNat 26 t) v else .regRd g (BitVec.ofNat 26 t)
      let s1 := fabSend s (some h) m'
      rwinBusy { s1 with fab := { s1.fab with rem := s1.fab.rem ++ [(g, write, s.clk.now, tag)] } }
    | _, _ => answerHost (s.raise F.fab_rwinStat_unreach) tag 0 (answerData write onesWord)

/-- An outstanding remote access ends with a status and a word. -/
def remoteEnd (s : State) (g : BitVec 8) (st : Fin 3) (w : Word) : State :=
  match s.fab.rem.find? (fun x => x.1 == g) with
  | none => s
  | some (_, write, _, tag) =>
    let s1 := rwinBusy { s with fab := { s.fab with rem := s.fab.rem.filter (fun x => x.1 != g) } }
    answerHost s1 tag st (answerData write w)

/-- A REG_CPL packet (R339): 0 OK, 1 RANGE, 2 REFUSED. A range error reads all-ones. -/
def fabRegCpl (s : State) (g : BitVec 8) (st : Fin 3) (w : Word) : State :=
  if !fabOn s || (s.fab.rem.find? (fun x => x.1 == g)).isNone then s
  else
    let s1 := gotFrom s (s.f F.fab_rwinCfg_house)
    if st = 1 then remoteEnd (s1.raise F.fab_rwinStat_range) g 2 onesWord
    else remoteEnd s1 g 0 w

/-- R339. -/
def execFabRegCpl (tag : BitVec 8) (status : Fin 3) (val : Word) (s : State) : Host.Outcome State Fault Refusal :=
  .next (fabRegCpl s tag status val)

/-- No completion came within 1.8 ms (R339): all-ones, and timeout. -/
def rwinTimeout (s0 : State) (g : BitVec 8) : State :=
  match s0.fab.rem.find? (fun x => x.1 == g) with
  | none => s0
  | some (_, _, t, _) => remoteEnd ((advanceNow s0 (t + 1800 * usU)).raise F.fab_rwinStat_timeout) g 0 onesWord

/-- R339. -/
def execRwinTimeout (tag : BitVec 8) (s : State) : Host.Outcome State Fault Refusal := .next (rwinTimeout s tag)

/-- A REG_RD packet at its target (R339): out of range, status RANGE. It wakes the device (R353). -/
def fabRegRd (s : State) (src : Nat) (tag : BitVec 8) (a : Nat) : State :=
  if !fabOn s then s
  else
    let s1 := wake (gotFrom s src) 3
    if remoteRange a then fabSend s1 (some src) (.regCpl tag 1 onesWord)
    else
      let (w, s2) := fieldBusRead s1 a
      fabSend s2 (some src) (.regCpl tag 0 w)

/-- R339. -/
def execFabRegRd (src : House) (tag : BitVec 8) (addr : BitVec 26) (s : State) : Host.Outcome State Fault Refusal :=
  .next (fabRegRd s src tag addr.toNat)

/-- A REG_WR packet at its target (R339): a GUEST's is dropped with status REFUSED and sets guest_wr. -/
def fabRegWr (s : State) (src : Nat) (tag : BitVec 8) (a : Nat) (v : Word) : State :=
  if !fabOn s then s
  else
    let s1 := wake (gotFrom s src) 3
    if entryState s1 src = 2 then fabSend (s1.raise F.fab_evt_guest_wr) (some src) (.regCpl tag 2 0)
    else if remoteRange a then fabSend s1 (some src) (.regCpl tag 1 0)
    else fabSend (fieldBusWrite s1 .remote a v) (some src) (.regCpl tag 0 0)

/-- R339. -/
def execFabRegWr (src : House) (tag : BitVec 8) (addr : BitVec 26) (val : Word) (s : State) : Host.Outcome State Fault Refusal :=
  .next (fabRegWr s src tag addr.toNat val)

/-! ### Register frames at the field end (R305, R315, R366) -/

/-- A BAR0 read or write that a frame carries. -/
def frameBar0 (s : State) (tag : BitVec 8) (write : Bool) (a : Nat) (v : Word) : State :=
  if remoteWindow a then remoteAccess s .host (some tag) write a v
  else if write then answerHost (fieldBusWrite s .host a v) (some tag) 0 []
  else
    let (w, s1) := fieldBusRead s a
    answerHost s1 (some tag) 0 (wordBytes w)

/-- A store access of the host that is not served as it comes enters port 52, whose queue it heads (R205): a BULK request of the granules of
its 256-byte unit, since time t0. -/
def askStore (s : State) (m : Msg) (a n t0 : Nat) : State :=
  let g := a / 64
  let r : Req := ⟨52, 576, false, false, 0, g, (a + n - 1) / 64 - g + 1, 0, none, 3, 0, t0, false, 0⟩
  { s.modP (fun p => { p with wait := [(m, t0)] }) with ctl := { s.ctl with reqs := s.ctl.reqs ++ [r], aperGot := [] } }

/-- The answer to a store read: OK or POISONED. -/
def answerRead (s : State) (tag : BitVec 8) (len : Nat) (d : List (BitVec 8)) (bad : Bool) : State :=
  if bad then answerHost s (some tag) 1 (allOnes len) else answerHost s (some tag) 0 d

/-- A store read that a frame carries, which arrived at t0: OK, POISONED or RANGE; it waits where the store does not serve it at once. -/
def frameStoreRead (s0 : State) (tag : BitVec 8) (a len t0 : Nat) : State :=
  let s := wake s0 1
  if storeBytes < a + len then answerHost s (some tag) 2 (allOnes len)
  else if storeEarly s then answerHost (s.raise F.id_bootStat_early_acc) (some tag) 0 (allOnes len)
  else if !aperIdle s a len then askStore s (.regRd tag .store len (BitVec.ofNat 40 a)) a len t0
  else
    let (d, bad, s1) := readBytes s a len
    answerRead s1 tag len d bad

/-- A store write that a frame carries, whole or not at all (R305, R311). -/
def frameStoreWrite (s0 : State) (tag : BitVec 8) (a : Nat) (d : List (BitVec 8)) (t0 : Nat) : State :=
  let s := wake s0 1
  if storeBytes < a + d.length then answerHost s (some tag) 2 []
  else if storeEarly s then answerHost (s.raise F.id_bootStat_early_acc) (some tag) 0 []
  else if !aperIdle s a d.length then askStore s (.regWr tag .store (BitVec.ofNat 40 a) d) a d.length t0
  else answerHost (writeGrans true (d.length / 64) s 52 (a / 64) d) (some tag) 0 []

/-- The field end serves a register message that arrived at t0 (R305). A BAR0 word with some byte enables clear is dropped, with size_err
(R283). -/
def serveMsg (s : State) (m : Msg) (t0 : Nat) : State :=
  match m with
  | .regRd tag .bar0 _ a => frameBar0 s tag false (a.toNat % 2 ^ 26) 0
  | .regRd tag .store len a => frameStoreRead s tag a.toNat len t0
  | .regWr tag .bar0 a d =>
    if d.length < 4 then answerHost (s.raise F.regf_stat_size_err) (some tag) 0 []
    else frameBar0 s tag true (a.toNat % 2 ^ 26) (bytesWord d)
  | .regWr tag .store a d => frameStoreWrite s tag a.toNat d t0
  | _ => s

/-- A register message reaches the field end: it waits behind a store access that waits, since a read never passes an earlier write (R314);
else it is served. -/
def takeMsg (s : State) (m : Msg) : State :=
  if s.porch.wait.isEmpty then serveMsg s m s.clk.now else s.modP (fun p => { p with wait := p.wait ++ [(m, s.clk.now)] })

/-- The messages behind a store access that is over, in their order, up to the next that waits for the store. -/
def serveWaiting (s : State) : List (Msg × Nat) → State
  | [] => s
  | (m, t0) :: ms =>
    let u := serveMsg s m t0
    if u.porch.wait.isEmpty then serveWaiting u ms else u.modP (fun p => { p with wait := p.wait ++ ms })

/-- The store access at the head of port 52's queue is over once its request is served: it is answered, and those behind it follow (R205,
R227). -/
def storeAnswers (s : State) : State :=
  match s.porch.wait with
  | [] => s
  | (m, _) :: ms =>
    if s.ctl.reqs.any (fun r => r.use == 3) then s
    else
      let s1 := s.modP (fun p => { p with wait := [] })
      let s2 := match m with
        | .regRd tag _ len a => answerRead s1 tag len (bytesOf s1.ctl.aperGot a.toNat len) (s1.ctl.aperGot.any (·.2))
        | .regWr tag _ _ _ => answerHost s1 (some tag) 0 []
        | _ => s1
      serveWaiting s2 ms

/-- R207. -/
def execStoreGrant (pc : PChan) (s : State) : Host.Outcome State Fault Refusal := .next (storeAnswers (storeGrant s pc))

/-- A REG_RD frame arrives at the field end (R305). -/
def regRd (s : State) (tag : BitVec 8) (space : RegSpace) (len a : Nat) : State :=
  if !porchUpF s || heldSide s .field then s
  else takeMsg (gotField s (.regRd tag space len (BitVec.ofNat 40 a))) (.regRd tag space len (BitVec.ofNat 40 a))

/-- R305. -/
def execRegRd (tag : BitVec 8) (space : RegSpace) (len : Nat) (addr : BitVec 40) (s : State) : Host.Outcome State Fault Refusal :=
  .next (regRd s tag space len addr.toNat)

/-- A REG_WR frame arrives at the field end (R305): one whose length does not match its type is dropped and counted (R2). -/
def regWr (s : State) (tag : BitVec 8) (space : RegSpace) (a : Nat) (d : List (BitVec 8)) : State :=
  if !porchUpF s || heldSide s .field then s
  else
    let got := gotField s (.regWr tag space (BitVec.ofNat 40 a) d)
    match space with
    | .bar0 => if 4 < d.length then foreignFrame s .field 2 else takeMsg got (.regWr tag .bar0 (BitVec.ofNat 40 a) d)
    | .store =>
      if frameFits .field (msgHeader s.porch.seqH (.regWr tag .store (BitVec.ofNat 40 a) d)) ∧ d.length % 64 = 0 ∧ 64 ≤ d.length ∧
        d.length ≤ 256 ∧ a % 64 = 0 then takeMsg got (.regWr tag .store (BitVec.ofNat 40 a) d) else foreignFrame s .field 2

/-- R305. -/
def execRegWr (tag : BitVec 8) (space : RegSpace) (addr : BitVec 40) (data : List (BitVec 8)) (s : State) :
    Host.Outcome State Fault Refusal := .next (regWr s tag space addr.toNat data)

/-! ### The host end (R310, R311, R314) -/

/-- Messages that wait for one of the 64 in flight go out, in order. -/
def launchHeld (s : State) : Nat → State
  | 0 => s
  | n + 1 =>
    match s.porch.held with
    | [] => s
    | m :: ms => if inFlight s < 64 then launchHeld (launch (s.modP (fun p => { p with held := ms })) m) n else s

/-- A REG_CPL frame reaches the host end (R305, R311, R315): it completes the read of its tag, or a write; a completion for an endpoint that
was reset is discarded (R359). -/
def regCpl (s : State) (tag : BitVec 8) (st : Fin 3) (d : List (BitVec 8)) : State :=
  if !porchUpH s then s
  else
    let s1 := gotHost s (.regCpl tag st d)
    let rest := s1.porch.reads.filter (fun x => x.1 != tag)
    let s2 := match s1.porch.reads.find? (fun x => x.1 == tag) with
      | some (_, none) => s1.modP (fun p => { p with reads := rest, cpls := p.cpls ++ [(tag, bytesWord d)] })
      | some (_, some n) =>
        let u := s1.modP (fun p => { p with reads := rest, aper := p.aper ++ [(if st = 0 then d else allOnes n, st)] })
        if st = 1 then u.raise F.hif_aperStat_poisoned else if st = 2 then u.raise F.hif_aperStat_range else u
      | none =>
        if d.isEmpty then
          (s1.modP (fun p => { p with writes := p.writes - 1 })).when (st == 2 && decide (0 < s1.porch.writes))
            (·.raise F.hif_aperStat_range)
        else s1
    launchHeld s2 s2.porch.held.length

/-- R305. -/
def execRegCpl (tag : BitVec 8) (status : Fin 3) (data : List (BitVec 8)) (s : State) : Host.Outcome State Fault Refusal :=
  .next (regCpl s tag status data)

/-- The endpoint returns a word to the host. -/
def hostReply (s : State) (tag : BitVec 8) (w : Word) : State := s.modP (fun p => { p with cpls := p.cpls ++ [(tag, w)] })

/-- The bytes of a word that its byte enables select. -/
def enabledBytes (be : BitVec 4) (v : Word) : List (BitVec 8) :=
  ((List.range 4).filter (fun k => be.getLsbD k)).map (fun k => v.extractLsb' (8 * k) 8)

/-- A BAR0 TLP of one word (R272, R283, R310, R314, R355): a host-tile register, all-ones or dropped while the porch is down, else a
register message; a partial write crosses as the bytes it enables (log entry 50). -/
def bar0Tlp (s : State) (write : Bool) (tag : BitVec 8) (addr : BitVec 26) (be : BitVec 4) (v : Word) : State :=
  let a := addr.toNat / 4 * 4
  if heldSide s .host || !s.porch.pcie || s.porch.d3 then s
  else if hostReg a then
    if write then (if be = 15 then hostBusWrite s a v else s)
    else
      let (w, s1) := hostBusRead s a
      hostReply s1 tag w
  else if !porchUpH s || s.porch.halt || !servedHost s a then
    if write then s else hostReply s tag onesWord
  else offer s (if write then .regWr tag .bar0 (BitVec.ofNat 40 a) (enabledBytes be v) else .regRd tag .bar0 4 (BitVec.ofNat 40 a))

/-- R314. -/
def execBar0Tlp (write : Bool) (tag : BitVec 8) (addr : BitVec 26) (be : BitVec 4) (val : Word) (s : State) :
    Host.Outcome State Fault Refusal := .next (bar0Tlp s write tag addr be val)

end Sys2Proof.Machine
end

