-- ==== Sys2Proof/Machine/Dispatch.lean ====
section
/-! DEFINITION. The meaning of every command: one arm per constructor of Instr. -/

namespace Sys2Proof.Machine

/-- The effect of a command on everything but the queue. -/
def exec (i : Instr) (s : State) : Host.Outcome State Fault Refusal :=
  match i with
  | .arm e start => Sys2Proof.Machine.execArm e start s
  | .primeComplete e => Sys2Proof.Machine.execPrimeComplete e s
  | .start e => Sys2Proof.Machine.execStart e s
  | .timeStart e => Sys2Proof.Machine.execTimeStart e s
  | .abort e => Sys2Proof.Machine.execAbort e s
  | .abortActs e => Sys2Proof.Machine.execAbortActs e s
  | .fillerEndPark e => Sys2Proof.Machine.execFillerEndPark e s
  | .engineReset e => Sys2Proof.Machine.execEngineReset e s
  | .imemStage e idx low => Sys2Proof.Machine.execImemStage e idx low s
  | .imemCommit e idx high => Sys2Proof.Machine.execImemCommit e idx high s
  | .nop e => Sys2Proof.Machine.execNop e s
  | .halt e => Sys2Proof.Machine.execHalt e s
  | .jmp e addr => Sys2Proof.Machine.execJmp e addr s
  | .call e addr => Sys2Proof.Machine.execCall e addr s
  | .ret e => Sys2Proof.Machine.execRet e s
  | .br e mask addr => Sys2Proof.Machine.execBr e mask addr s
  | .djnz e x addr => Sys2Proof.Machine.execDjnz e x addr s
  | .play e seg n => Sys2Proof.Machine.execPlay e seg n s
  | .playc e seg x => Sys2Proof.Machine.execPlayc e seg x s
  | .wait e mask seg => Sys2Proof.Machine.execWait e mask seg s
  | .strm e ring g => Sys2Proof.Machine.execStrm e ring g s
  | .synct e => Sys2Proof.Machine.execSynct e s
  | .ldt e hi imm => Sys2Proof.Machine.execLdt e hi imm s
  | .ldtStart e => Sys2Proof.Machine.execLdtStart e s
  | .addt e imm => Sys2Proof.Machine.execAddt e imm s
  | .ldc e x imm => Sys2Proof.Machine.execLdc e x imm s
  | .addc e x imm => Sys2Proof.Machine.execAddc e x imm s
  | .mark e m offset => Sys2Proof.Machine.execMark e m offset s
  | .sig e m => Sys2Proof.Machine.execSig e m s
  | .setf e idx cont => Sys2Proof.Machine.execSetf e idx cont s
  | .ldf e idx value => Sys2Proof.Machine.execLdf e idx value s
  | .setp e rel phase => Sys2Proof.Machine.execSetp e rel phase s
  | .tset e a b => Sys2Proof.Machine.execTset e a b s
  | .lvl e n => Sys2Proof.Machine.execLvl e n s
  | .cmpm e mode => Sys2Proof.Machine.execCmpm e mode s
  | .undefinedWord e cause => Sys2Proof.Machine.execUndefinedWord e cause s
  | .chainOverrun e => Sys2Proof.Machine.execChainOverrun e s
  | .decisionPoint e => Sys2Proof.Machine.execDecisionPoint e s
  | .granuleSample e => Sys2Proof.Machine.execGranuleSample e s
  | .playEnd e => Sys2Proof.Machine.execPlayEnd e s
  | .haltComplete e => Sys2Proof.Machine.execHaltComplete e s
  | .markFire e m => Sys2Proof.Machine.execMarkFire e m s
  | .granuleMissing e => Sys2Proof.Machine.execGranuleMissing e s
  | .slipResume e => Sys2Proof.Machine.execSlipResume e s
  | .poisonPlay e => Sys2Proof.Machine.execPoisonPlay e s
  | .taskset e flags => Sys2Proof.Machine.execTaskset e flags s
  | .taskClear e val => Sys2Proof.Machine.execTaskClear e val s
  | .suiteDecision e => Sys2Proof.Machine.execSuiteDecision e s
  | .suiteDisagree e => Sys2Proof.Machine.execSuiteDisagree e s
  | .suiteMemberFail e => Sys2Proof.Machine.execSuiteMemberFail e s
  | .lockstepVisit t bistPass => Sys2Proof.Machine.execLockstepVisit t bistPass s
  | .lockstepMismatch t diff slotBistPass => Sys2Proof.Machine.execLockstepMismatch t diff slotBistPass s
  | .descStage t ix word val => Sys2Proof.Machine.execDescStage t ix word val s
  | .descCommit t ix val => Sys2Proof.Machine.execDescCommit t ix val s
  | .descReload t ix => Sys2Proof.Machine.execDescReload t ix s
  | .pinLoadComplete t ix => Sys2Proof.Machine.execPinLoadComplete t ix s
  | .heldCopyRelease t ix => Sys2Proof.Machine.execHeldCopyRelease t ix s
  | .stagedLoWrite p val => Sys2Proof.Machine.execStagedLoWrite p val s
  | .stagedHiCommit p val => Sys2Proof.Machine.execStagedHiCommit p val s
  | .timingSetWrite l set word val => Sys2Proof.Machine.execTimingSetWrite l set word val s
  | .levelSetWrite l set thr val => Sys2Proof.Machine.execLevelSetWrite l set thr val s
  | .laneCfgWrite l val => Sys2Proof.Machine.execLaneCfgWrite l val s
  | .counterClear e => Sys2Proof.Machine.execCounterClear e s
  | .captureGranuleWrite e => Sys2Proof.Machine.execCaptureGranuleWrite e s
  | .monGo n val => Sys2Proof.Machine.execMonGo n val s
  | .monDone n uv => Sys2Proof.Machine.execMonDone n uv s
  | .txeqWrite k val => Sys2Proof.Machine.execTxeqWrite k val s
  | .rxeqWrite k val => Sys2Proof.Machine.execRxeqWrite k val s
  | .quadReopen q => Sys2Proof.Machine.execQuadReopen q s
  | .rxIdleChange k idle => Sys2Proof.Machine.execRxIdleChange k idle s
  | .syncAcquired k offsets => Sys2Proof.Machine.execSyncAcquired k offsets s
  | .syncSlip k up => Sys2Proof.Machine.execSyncSlip k up s
  | .syncLoss k => Sys2Proof.Machine.execSyncLoss k s
  | .ringCfgWrite r val => Sys2Proof.Machine.execRingCfgWrite r val s
  | .ringPtrWrite r wptr val => Sys2Proof.Machine.execRingPtrWrite r wptr val s
  | .streamGranule r p src data => Sys2Proof.Machine.execStreamGranule r p src data s
  | .creditUpdate r => Sys2Proof.Machine.execCreditUpdate r s
  | .phaseReqNormal req => Sys2Proof.Machine.execPhaseReqNormal req s
  | .phaseReqTest req => Sys2Proof.Machine.execPhaseReqTest req s
  | .phaseReqRecovery req => Sys2Proof.Machine.execPhaseReqRecovery req s
  | .factoryTestEnter => Sys2Proof.Machine.execFactoryTestEnter s
  | .aperRead off len => Sys2Proof.Machine.execAperRead off len s
  | .aperWrite off data => Sys2Proof.Machine.execAperWrite off data s
  | .hallwayDelivery => Sys2Proof.Machine.execHallwayDelivery s
  | .stormDetect ch => Sys2Proof.Machine.execStormDetect ch s
  | .groupArm g => Sys2Proof.Machine.execGroupArm g s
  | .groupDisarm g => Sys2Proof.Machine.execGroupDisarm g s
  | .swpulse val => Sys2Proof.Machine.execSwpulse val s
  | .timerCfgWrite ix val => Sys2Proof.Machine.execTimerCfgWrite ix val s
  | .timerFire ix => Sys2Proof.Machine.execTimerFire ix s
  | .trigInEdge ix rising late => Sys2Proof.Machine.execTrigInEdge ix rising late s
  | .trigOutPulseEnd ix => Sys2Proof.Machine.execTrigOutPulseEnd ix s
  | .timedTrigEdge ix => Sys2Proof.Machine.execTimedTrigEdge ix s
  | .eventPacket src imp cycle => Sys2Proof.Machine.execEventPacket src imp cycle s
  | .importApply j => Sys2Proof.Machine.execImportApply j s
  | .faultGroupActive f => Sys2Proof.Machine.execFaultGroupActive f s
  | .storeGrant pc => Sys2Proof.Machine.execStoreGrant pc s
  | .agePromotion pc => Sys2Proof.Machine.execAgePromotion pc s
  | .refreshDue pc b => Sys2Proof.Machine.execRefreshDue pc b s
  | .owedRefresh pc b => Sys2Proof.Machine.execOwedRefresh pc b s
  | .neighbourRefresh pc b row => Sys2Proof.Machine.execNeighbourRefresh pc b row s
  | .refreshWindowEnd pc b => Sys2Proof.Machine.execRefreshWindowEnd pc b s
  | .rowIdleClose pc b => Sys2Proof.Machine.execRowIdleClose pc b s
  | .stackTempRead stk c16 stale => Sys2Proof.Machine.execStackTempRead stk c16 stale s
  | .ceWriteback gran => Sys2Proof.Machine.execCeWriteback gran s
  | .rowRemap pc b row => Sys2Proof.Machine.execRowRemap pc b row s
  | .scrubRead gran => Sys2Proof.Machine.execScrubRead gran s
  | .trainPassStart => Sys2Proof.Machine.execTrainPassStart s
  | .trainPassComplete centres => Sys2Proof.Machine.execTrainPassComplete centres s
  | .trainPassAbort => Sys2Proof.Machine.execTrainPassAbort s
  | .trainLock => Sys2Proof.Machine.execTrainLock s
  | .opGo point => Sys2Proof.Machine.execOpGo point s
  | .opChangeComplete => Sys2Proof.Machine.execOpChangeComplete s
  | .refApply => Sys2Proof.Machine.execRefApply s
  | .shutterOpen id => Sys2Proof.Machine.execShutterOpen id s
  | .qualTimeout id => Sys2Proof.Machine.execQualTimeout id s
  | .pllLoss id cause => Sys2Proof.Machine.execPllLoss id cause s
  | .stackSelfRefresh stk => Sys2Proof.Machine.execStackSelfRefresh stk s
  | .storeRecoveryGather g => Sys2Proof.Machine.execStoreRecoveryGather g s
  | .oscFail sd dev => Sys2Proof.Machine.execOscFail sd dev s
  | .epochGo => Sys2Proof.Machine.execEpochGo s
  | .epochCancel => Sys2Proof.Machine.execEpochCancel s
  | .syncEdge frac => Sys2Proof.Machine.execSyncEdge frac s
  | .epochApply => Sys2Proof.Machine.execEpochApply s
  | .walkStart t rd => Sys2Proof.Machine.execWalkStart t rd s
  | .calVisit e part res => Sys2Proof.Machine.execCalVisit e part res s
  | .walkEnd t => Sys2Proof.Machine.execWalkEnd t s
  | .trimExchange e part => Sys2Proof.Machine.execTrimExchange e part s
  | .refDeclWrite reft val => Sys2Proof.Machine.execRefDeclWrite reft val s
  | .calPause on => Sys2Proof.Machine.execCalPause on s
  | .fullWalk t => Sys2Proof.Machine.execFullWalk t s
  | .fullWalkAbort t => Sys2Proof.Machine.execFullWalkAbort t s
  | .deskewGo avgLog2 => Sys2Proof.Machine.execDeskewGo avgLog2 s
  | .deskewAbort => Sys2Proof.Machine.execDeskewAbort s
  | .deskewComplete results => Sys2Proof.Machine.execDeskewComplete results s
  | .faultRecord sd src unit cls syn => Sys2Proof.Machine.execFaultRecord sd src unit cls syn s
  | .nmiTrap sd => Sys2Proof.Machine.execNmiTrap sd s
  | .blockResetBegin b => Sys2Proof.Machine.execBlockResetBegin b s
  | .blockResetEnd b => Sys2Proof.Machine.execBlockResetEnd b s
  | .chipReset => Sys2Proof.Machine.execChipReset s
  | .srcActiveClear sd n => Sys2Proof.Machine.execSrcActiveClear sd n s
  | .faultLock sd => Sys2Proof.Machine.execFaultLock sd s
  | .atticClear sd => Sys2Proof.Machine.execAtticClear sd s
  | .atticRelease sd req => Sys2Proof.Machine.execAtticRelease sd req s
  | .atticHoldTimeout sd => Sys2Proof.Machine.execAtticHoldTimeout sd s
  | .aliveToggle sd => Sys2Proof.Machine.execAliveToggle sd s
  | .injGo sd => Sys2Proof.Machine.execInjGo sd s
  | .injRecord sd => Sys2Proof.Machine.execInjRecord sd s
  | .injAbort sd => Sys2Proof.Machine.execInjAbort sd s
  | .regWrite req addr val => Sys2Proof.Machine.execRegWrite req addr val s
  | .crcOpen req => Sys2Proof.Machine.execCrcOpen req s
  | .crcCommit req => Sys2Proof.Machine.execCrcCommit req s
  | .crcRefWrite req b val => Sys2Proof.Machine.execCrcRefWrite req b val s
  | .crcBlockPass b => Sys2Proof.Machine.execCrcBlockPass b s
  | .cfgOpenLong fw => Sys2Proof.Machine.execCfgOpenLong fw s
  | .mcntStart ix => Sys2Proof.Machine.execMcntStart ix s
  | .mcntStop ix => Sys2Proof.Machine.execMcntStop ix s
  | .mcntSnap ix => Sys2Proof.Machine.execMcntSnap ix s
  | .mcntClr ix => Sys2Proof.Machine.execMcntClr ix s
  | .regRd tag space len addr => Sys2Proof.Machine.execRegRd tag space len addr s
  | .regWr tag space addr data => Sys2Proof.Machine.execRegWr tag space addr data s
  | .regCpl tag status data => Sys2Proof.Machine.execRegCpl tag status data s
  | .streamData ring first firstSlice slog data => Sys2Proof.Machine.execStreamData ring first firstSlice slog data s
  | .streamCredit ring rptr limit slog => Sys2Proof.Machine.execStreamCredit ring rptr limit slog s
  | .irq v => Sys2Proof.Machine.execIrq v s
  | .faultNotice w0 w1 w2 w3 => Sys2Proof.Machine.execFaultNotice w0 w1 w2 w3 s
  | .aliveState dest alive house valid => Sys2Proof.Machine.execAliveState dest alive house valid s
  | .versionHello dest mask => Sys2Proof.Machine.execVersionHello dest mask s
  | .foreignFrame dest typ => Sys2Proof.Machine.execForeignFrame dest typ s
  | .retryRequest l => Sys2Proof.Machine.execRetryRequest l s
  | .ackTimeout l => Sys2Proof.Machine.execAckTimeout l s
  | .crossingFail x => Sys2Proof.Machine.execCrossingFail x s
  | .porchUp => Sys2Proof.Machine.execPorchUp s
  | .porchDown why => Sys2Proof.Machine.execPorchDown why s
  | .bar0Tlp write tag addr be val => Sys2Proof.Machine.execBar0Tlp write tag addr be val s
  | .dmaQtail ix tail descs => Sys2Proof.Machine.execDmaQtail ix tail descs s
  | .dmaDescComplete ix err => Sys2Proof.Machine.execDmaDescComplete ix err s
  | .dmaRestart ix => Sys2Proof.Machine.execDmaRestart ix s
  | .dmaAbort ix => Sys2Proof.Machine.execDmaAbort ix s
  | .hello p uid mask fpr port => Sys2Proof.Machine.execHello p uid mask fpr port s
  | .portLinkUp p => Sys2Proof.Machine.execPortLinkUp p s
  | .fabLaneFail p lane => Sys2Proof.Machine.execFabLaneFail p lane s
  | .portDown p why => Sys2Proof.Machine.execPortDown p why s
  | .lsa src seq links => Sys2Proof.Machine.execLsa src seq links s
  | .census seq keeper own entries => Sys2Proof.Machine.execCensus seq keeper own entries s
  | .keeperTimeout => Sys2Proof.Machine.execKeeperTimeout s
  | .censusAdmitOne house => Sys2Proof.Machine.execCensusAdmitOne house s
  | .censusAdmit house => Sys2Proof.Machine.execCensusAdmit house s
  | .censusForget house => Sys2Proof.Machine.execCensusForget house s
  | .timeReq p => Sys2Proof.Machine.execTimeReq p s
  | .timeRsp p t1 t2 t3 t4 => Sys2Proof.Machine.execTimeRsp p t1 t2 t3 t4 s
  | .timeStep => Sys2Proof.Machine.execTimeStep s
  | .parentLoss => Sys2Proof.Machine.execParentLoss s
  | .epoch src applyAt beats frac => Sys2Proof.Machine.execEpoch src applyAt beats frac s
  | .event src imp cycle => Sys2Proof.Machine.execEvent src imp cycle s
  | .fabFaultNotice src w0 w1 w2 w3 => Sys2Proof.Machine.execFabFaultNotice src w0 w1 w2 w3 s
  | .rnoteClear => Sys2Proof.Machine.execRnoteClear s
  | .fabRegRd src tag addr => Sys2Proof.Machine.execFabRegRd src tag addr s
  | .fabRegWr src tag addr val => Sys2Proof.Machine.execFabRegWr src tag addr val s
  | .fabRegCpl tag status val => Sys2Proof.Machine.execFabRegCpl tag status val s
  | .rwinTimeout tag => Sys2Proof.Machine.execRwinTimeout tag s
  | .fabStream src ring firstSlice first data => Sys2Proof.Machine.execFabStream src ring firstSlice first data s
  | .fabCredit ring rptr wptr => Sys2Proof.Machine.execFabCredit ring rptr wptr s
  | .powerEntry => Sys2Proof.Machine.execPowerEntry s
  | .wakeEvent src => Sys2Proof.Machine.execWakeEvent src s
  | .wakeCmd => Sys2Proof.Machine.execWakeCmd s
  | .f4Request => Sys2Proof.Machine.execF4Request s
  | .ltrWrite val => Sys2Proof.Machine.execLtrWrite val s
  | .frstN level suppliesOk => Sys2Proof.Machine.execFrstN level suppliesOk s
  | .hrstN level suppliesOk => Sys2Proof.Machine.execHrstN level suppliesOk s
  | .perstN level => Sys2Proof.Machine.execPerstN level s
  | .bootStageAdvance info => Sys2Proof.Machine.execBootStageAdvance info s
  | .bootStall err => Sys2Proof.Machine.execBootStall err s
  | .hostBootStage info => Sys2Proof.Machine.execHostBootStage info s
  | .supplyUv sd supply mv => Sys2Proof.Machine.execSupplyUv sd supply mv s
  | .droop wing lowestUv => Sys2Proof.Machine.execDroop wing lowestUv s
  | .tjHigh sd sensor c16 => Sys2Proof.Machine.execTjHigh sd sensor c16 s
  | .tjCrit sd sensor c16 => Sys2Proof.Machine.execTjCrit sd sensor c16 s
  | .missionMinute sd c16 => Sys2Proof.Machine.execMissionMinute sd c16 s
  | .missionLogWrite sd => Sys2Proof.Machine.execMissionLogWrite sd s
  | .compareJudgement e items => Sys2Proof.Machine.execCompareJudgement e items s
  | .pllLock id band dev => Sys2Proof.Machine.execPllLock id band dev s
  | .referencePresent id => Sys2Proof.Machine.execReferencePresent id s
  | .overfreqWhileClosed id => Sys2Proof.Machine.execOverfreqWhileClosed id s
  | .timedTrigEnd ix => Sys2Proof.Machine.execTimedTrigEnd ix s
  | .traceStale e => Sys2Proof.Machine.execTraceStale e s
  | .powerCycle sd => Sys2Proof.Machine.execPowerCycle sd s
  | .d3hotTransition enter => Sys2Proof.Machine.execD3hotTransition enter s

end Sys2Proof.Machine
end

