-- ==== Sys2Proof/Machine/Step.lean ====
section
/-! DEFINITION. One step of the block: the command at the front of the queue is taken and executed; an empty queue is a tick
(log entry 1). Placing a command that a table word spells. -/

namespace Sys2Proof.Machine

/-- One step: the command that has waited longest acts on the state with the rest of the queue. On an empty queue time passes
by one core cycle and nothing else happens (DESIGN CHOICE, log entry 1). -/
def step (s : State) : Host.Outcome State Fault Refusal :=
  match s.pending with
  | [] => .next (tick s)
  | c :: cs => exec c { s with pending := cs }

/-- s with the command that a table word spells in front of its queue; no word spells one (Decode.lean), so s itself. -/
def State.withFetchWord (s : State) (nbits w : Nat) : State :=
  match decodeTableWord nbits w with
  | none => s
  | some c => { s with pending := c :: s.pending }

end Sys2Proof.Machine
end

