-- ==== Sys2Proof/Safety.lean ====
section
/-! DEFINITION. What counts as a safe run: the block never stops, and no side is in its safe state. -/

namespace Sys2Proof

/-- A step that answers a next state. -/
def Runs (s : Machine.State) : Prop := ∃ t, Machine.step s = .next t

/-- Neither side is in its safe state after a FATAL record (R270, R272). -/
def Unfailed (s : Machine.State) : Prop := s.fltF.fatalOn = false ∧ s.fltH.fatalOn = false

/-- A run of n steps that never stops and in which no side falls into its safe state. -/
def SafeFor : Nat → Machine.State → Prop
  | 0, s => Unfailed s
  | n + 1, s => Unfailed s ∧ ∃ t, Machine.step s = .next t ∧ SafeFor n t

/-- The field side runs undisturbed: out of reset, its clocks open, in power state F0. -/
def Awake (s : Machine.State) : Prop :=
  Machine.heldSide s .field = false ∧ Machine.houseOpen s = true ∧ s.f Machine.F.pwr_stat_state = 0

/-- exec answers a next state that satisfies P. -/
def Answers (c : Instr) (s : Machine.State) (P : Machine.State → Prop) : Prop := ∃ t, Machine.exec c s = .next t ∧ P t

/-- Only the listed registers differ, and the note of what hardware updated in this cycle: every other register and everything that is no
register is as before. -/
def RegsOnly (l : List Nat) (s t : Machine.State) : Prop :=
  (∀ a, a ∉ l → t.reg a = s.reg a) ∧ { t with regs := s.regs, hw := s.hw } = s

/-- Only the listed registers differ, the note of what hardware updated in this cycle and that of the words that configuration held before
it: every other register and everything that is no register is as before. -/
def ConfigOnly (l : List Nat) (s t : Machine.State) : Prop :=
  (∀ a, a ∉ l → t.reg a = s.reg a) ∧ { t with regs := s.regs, hw := s.hw, hall := { t.hall with old := s.hall.old } } = s

/-- No chain of engine e has a naming before it in the present core cycle: what it named was named by now. -/
def NamedByNow (s : Machine.State) (e : Nat) : Prop := ∀ q, (s.engine e).next = some q → q.namedAt ≤ Machine.coreNow s

/-- Only engine e differs, which is now x, the registers listed and the note of what hardware updated in this cycle: everything else is as
before. -/
def EngineOnly (e : Nat) (x : Machine.Engine) (l : List Nat) (s t : Machine.State) : Prop :=
  t.engine e = x ∧ (∀ j, j ≠ e → t.engine j = s.engine j) ∧ (∀ a, a ∉ l → t.reg a = s.reg a) ∧
  { t with eng := s.eng, regs := s.regs, hw := s.hw } = s

/-- Engine e's chain takes its next word in the present core cycle, and it is not the chain's 4,096th (R62, R85): it arms, or its play is
decided (R60). -/
def ChainTakes (s : Machine.State) (e : Nat) : Prop :=
  Machine.chainOpen s e = true ∧ Machine.undecided s e = none ∧ (s.engine e).chainCyc < Machine.coreNow s ∧
  (s.engine e).chainN + 1 < 4096

/-- Engine e's chain, of an image of level 1 or 2 (R82), takes its next word in the present core cycle, at an address of the image (R81,
R83), and the word's check bits hold (R57). -/
def ChainReady (s : Machine.State) (e : Nat) : Prop :=
  ChainTakes s e ∧ 1 ≤ (s.engine e).level ∧ 1 ≤ (s.engine e).nextPc ∧
  (s.engine e).nextPc ≤ Machine.bitsOf (Machine.imemWord s e 0) 32 12 ∧
  Machine.tget (fun _ => 0) s.imemErr (4096 * e + (s.engine e).nextPc) = 0

/-- Engine e as the word in the present core cycle finds it. -/
def begun (s : Machine.State) (e : Nat) : Machine.Engine :=
  { s.engine e with chainCyc := Machine.coreNow s, chainN := (s.engine e).chainN + 1 }

/-- The state in which that word acts: its address shows in PC.pc. -/
def wordAt (s : Machine.State) (e : Nat) : Machine.State :=
  (s.setEngine e (begun s e)).put (Machine.F.eng_pc_pc e) (s.engine e).nextPc

/-- The word of engine e's chain has run and left the engine x: only the engine and PC.pc differ, which shows the word's address. -/
def RanTo (s : Machine.State) (e : Nat) (x : Machine.Engine) (t : Machine.State) : Prop :=
  EngineOnly e x [Machine.R.eng_pc e] s t ∧ t.f (Machine.F.eng_pc_pc e) = (s.engine e).nextPc % 2 ^ 12

/-- The arm of engine e has failed with a code (R55, R58, R77): it stays IDLE, no longer arming, a start written with the arm is gone, and its
prefetch requests are withdrawn; only its STAT and PC registers, and the rest of engine e, may differ. -/
def ArmFailed (s : Machine.State) (e code : Nat) (t : Machine.State) : Prop :=
  Machine.arming t e = false ∧ t.f (Machine.F.eng_stat_arm_err e) = code ∧ t.f (Machine.F.eng_stat_start_pending e) = 0 ∧
  Machine.est t e = Machine.est s e ∧ (t.engine e).next = none ∧ (t.engine e).play = none ∧ (t.engine e).pend = {} ∧
  (∀ j, j ≠ e → t.engine j = s.engine j) ∧ (∀ a, a ∉ [Machine.R.eng_stat e, Machine.R.eng_pc e] → t.reg a = s.reg a) ∧
  { t with eng := s.eng, regs := s.regs, hw := s.hw } = Machine.dropReqs s e

/-- The state in which the arm checks of engine e, outside a suite, are made (R55, R58, R141). -/
def checkedAt (s : Machine.State) (e : Nat) (b : Bool) : Machine.State :=
  (((Machine.clearOnArm s e).put (Machine.F.eng_stat_state e) Machine.stIdle).put (Machine.F.eng_stat_abort_res e) 0).when
    (b && !(s.f (Machine.F.eng_cfg_start_src e) == 0)) (·.raise (Machine.F.eng_stat_cmd_err e))

/-- The state in which the setup chain of that arm begins (R56, R57, R84). -/
def setupAt (s : Machine.State) (e : Nat) (b : Bool) : Machine.State :=
  Machine.armPrep (Machine.readHeader (checkedAt s e b) e) e (b && s.f (Machine.F.eng_cfg_start_src e) == 0)

/-- The state in which the first word of that setup chain acts, at the entry address (R58, R81). -/
def setupWord (s : Machine.State) (e : Nat) (b : Bool) : Machine.State :=
  let a := setupAt s e b
  let pc := (a.engine e).nextPc
  (a.modE e (fun y => { y with chainCyc := y.chainCyc + 1, chainN := y.chainN + 1, trail := y.trail ++ [pc] })).put
    (Machine.F.eng_pc_pc e) pc

/-- A naming of segment seg by the next word of engine e's chain passes the descriptor check (R35) and, on a pin lane, the pair check
with the settings that its play will use (R124), on what the tables held before the writes of this core cycle, within the limit of R62. -/
def NameOk (s : Machine.State) (e seg : Nat) : Prop :=
  let u := Machine.beforeWrites (wordAt s e) (Machine.coreNow s)
  let x := begun s e
  let w := Machine.willUse x x.pend e
  Machine.descCheck u e seg (x.suite % 2 == 1) (x.suite / 2 ^ 12 % 128) = true ∧
  (e < 512 → Machine.pairCheck u w.2.2.1 e w.1 w.2.1 = none) ∧
  (Machine.arming s e = true ∨ Machine.coreNow s ≤ x.chainD + Machine.chainLimit s e (x.suite % 2 == 1)) ∧
  (x.cfg / 32 % 2 = 0 ∨ ∀ a, Machine.tget (fun _ => 0) s.imemErr (4096 * e + a) = 0)

/-- The descriptor of engine e's table that a naming of the present core cycle reads: as it stood before the cycle's writes (R34). -/
abbrev namedDesc (s : Machine.State) (e seg : Nat) : Machine.Desc :=
  Machine.descOf (Machine.beforeWrites (wordAt s e) (Machine.coreNow s)) (Machine.tableOf e) seg

/-- The chain of engine e has named segment seg in the present core cycle, for `reps` repetitions of `grans` granules in all: the
named play carries a copy of the descriptor and the chain's pending settings and marks (R34, R60, R86, R103). Only PC.pc changes among the
registers, unless a write of this cycle falls on a set that the naming makes busy (R125, R135). -/
def Named (s : Machine.State) (e : Nat) (kind : Machine.PlayKind) (seg reps grans first : Nat) (t : Machine.State) : Prop :=
  let x := begun s e
  let d := namedDesc s e seg
  (∃ p, (t.engine e).next = some p ∧ p.kind = kind ∧ p.pc = x.nextPc ∧ p.seg = seg ∧ p.base = d.base ∧ p.len = d.len ∧
    p.wlog2 = d.wlog2 ∧ p.reps = reps ∧ p.grans = grans ∧ p.endAt = grans ∧ p.first = first ∧ p.pend = x.pend ∧
    p.marks = x.pend.marks ∧ p.tt = x.tt ∧ p.namedAt = Machine.coreNow s ∧ p.late = false ∧ p.decided = false) ∧
  (t.engine e).pend = {} ∧ (t.engine e).nextPc = (x.nextPc + 1) % 4096 ∧ (t.engine e).chainN = 0 ∧
  (t.engine e).dec = (if x.suite % 2 = 1 then some (Machine.coreNow s) else none) ∧ (t.engine e).play = x.play ∧
  (t.engine e).set = x.set ∧ (t.engine e).ctr = x.ctr ∧ (t.engine e).stack = x.stack ∧
  (∀ j, j ≠ e → t.engine j = s.engine j) ∧
  ((∀ y ∈ s.hall.old, y.1 ≠ Machine.coreNow s) → ∀ a, a ≠ Machine.R.eng_pc e → t.reg a = s.reg a)

/-- Engine e outside a suite plays p from phase k of its timeline, which begins at house time t0: once that has come, and the naming has
executed, the state code and the registers of the play show it (R54, R55, R62, R78, R119, R120). -/
def Plays (s : Machine.State) (e : Nat) (p : Machine.Play) (set : Machine.Settings) (k : Int) (t0 : Nat) (t : Machine.State) : Prop :=
  (t.engine e).play = some { p with k0 := k, t0 := t0 } ∧ (t.engine e).next = none ∧ (t.engine e).set = set ∧
  Machine.est t e = Machine.stRun ∧ ((s.laneOf e).mode ≠ .shuttered → (t.laneOf e).mode = .playing) ∧
  (∀ j, j ≠ e → t.engine j = s.engine j) ∧
  (t0 ≤ Machine.t16Now t → p.void = false → (p.late = true → Machine.coreStart (p.namedAt + 1) ≤ Machine.t16Now t) →
    Machine.stateFlag t e = (match p.kind with | .wait _ => Machine.stWait | _ => Machine.stRun) ∧
    (Machine.bakePlay t e).f (Machine.F.eng_seg_seg e) = p.seg % 2 ^ 14 ∧
    (Machine.bakePlay t e).f (Machine.F.eng_pc_play_pc e) = p.pc % 2 ^ 12 ∧
    Machine.granFlag t e = BitVec.ofNat 32 (Machine.granShown t e { p with k0 := k, t0 := t0 }))

/-- The settings in force and the phase and instant of the first boundary where engine e's named play begins from instant t on
(R59, R119). -/
def firstPlay (s : Machine.State) (e t : Nat) (p : Machine.Play) : Machine.Settings × Int × Nat :=
  let x := s.engine e
  let y := (Machine.applyPend x.set e x.epoch t (Machine.firstBoundary x.set x.epoch t)
    { p.pend with freq := p.pend.freq.map (fun v => (v.1, false)) }).1
  let k := Machine.firstBoundary y x.epoch t
  (y, k, Machine.boundaryT y x.epoch k)

/-- Where a play begins with the settings y, engine e's quad PLL serves it (R155, R156): on an express lane no retune is in progress in the quad,
and the rate lies within the quad's band. -/
def QuadServes (s : Machine.State) (e : Nat) (y : Machine.Settings) : Prop :=
  512 ≤ e → s.on (Machine.F.xq_stat_retuning (Machine.quadOf e)) = false ∧ Machine.inBand s (Machine.quadOf e) y.rate = true

/-- Engine e, outside a suite, decides in the present core cycle: the flags become its sample, its play ends after `endAt` granules,
and the chain runs from there (R60). -/
def Decides (s : Machine.State) (e : Nat) (p : Machine.Play) (endAt : Nat) (t : Machine.State) : Prop :=
  ∃ u, t = Machine.runChain 4096 u e ∧
    u.engine e = { s.engine e with
      sample := Machine.flagsOf s e, play := some { p with decided := true, endAt := endAt }, chainD := Machine.coreNow s
      chainCyc := Machine.coreNow s, chainN := 0, cond := false, cons := [], trail := [s.f (Machine.F.eng_pc_pc e)] } ∧
    (∀ j, j ≠ e → u.engine j = s.engine j) ∧ { u with eng := s.eng, ctl := s.ctl } = s

/-- A register that records, interrupt requests and counted events never write: none of the collectors, the monitor counters or the
host tile. -/
def PlainReg (a : Nat) : Prop := ¬ (0x10000 ≤ a ∧ a < 0x20000) ∧ ¬ (0x50000 ≤ a ∧ a < 0x52000) ∧ a < 0x03F00000

/-- t is s but for records, requests, messages, counted events and what the hallway makes of them. -/
def PlainSame (s t : Machine.State) : Prop :=
  (∀ a, PlainReg a → t.reg a = s.reg a) ∧
  { t with
    regs := s.regs, hw := s.hw, hall := s.hall, fltF := s.fltF, fltH := s.fltH, porch := s.porch, fab := s.fab, mon := s.mon, msi := s.msi } = s

/-- Source n of a side's table is listed (R266). -/
abbrev srcKnown (sd : Side) (n : Nat) : Prop := Machine.srcDefault (match sd with | .field => 0 | .host => 1) n ≠ none

/-- A record of source n has reached the collector of a side: it is counted and active (R264, R274, R280). -/
def Recorded (sd : Side) (n : Nat) (s t : Machine.State) : Prop :=
  t.f (Machine.F.src_stat_active sd n) = 1 ∧
  t.f (Machine.F.src_stat_count sd n) = min (s.f (Machine.F.src_stat_count sd n) + 1) 65535 ∧
  t.f (Machine.F.flt_count_n sd) = (s.f (Machine.F.flt_count_n sd) + 1) % 2 ^ 32

/-- Every sparse table of the state is in its one canonical form: equal machines are equal data. -/
def Canonical (s : Machine.State) : Prop :=
  Machine.Tbl.wf Machine.resetWord s.regs ∧ Machine.Tbl.wf (fun _ => ({} : Machine.Engine)) s.eng ∧
  Machine.Tbl.wf (fun _ => ({} : Machine.Lane)) s.lane ∧ Machine.Tbl.wf (fun _ => ({} : Machine.Table)) s.tab ∧
  Machine.Tbl.wf (fun _ => ({} : Machine.Pll)) s.pll ∧ Machine.Tbl.wf Machine.storeDefault s.store ∧
  Machine.Tbl.wf (fun _ => 0) s.imemErr ∧ Machine.Tbl.wf (fun _ => 0) s.granErr ∧
  Machine.Tbl.wf (fun _ => ({} : Machine.Dma)) s.dma ∧ Machine.Tbl.wf (fun _ => ({} : Machine.Mon)) s.mon ∧
  Machine.Tbl.wf (fun _ => ({} : Machine.Walk)) s.walk ∧ Machine.Tbl.wf (fun _ => ({} : Machine.CalPart)) s.part ∧
  Machine.Tbl.wf (fun _ => ({} : Machine.CalLane)) s.clane

/-- The pattern store's canonical form: addresses strictly rising, and no byte listed that reads as an unlisted one does. -/
abbrev Machine.Memory.wf (m : List Host.Cell) : Prop := Machine.Tbl.wf Machine.storeDefault m

/-- Commands that may change what the pattern store holds: those that write it or grant a request, that read it through the code, that
write a register, deliver frames that waited for the core clock, copy a row, reset the field side or take the porch down, whose write in
progress ends, and an arm, which takes back an aperture write of its own cycle to an extent that it makes active (R179). -/
def Instr.mayWriteStore : Instr → Bool
  | .pinLoadComplete .. | .streamGranule .. | .aperRead .. | .aperWrite .. | .storeGrant .. | .ceWriteback .. | .scrubRead .. => true
  | .chipReset | .f4Request | .frstN .. | .powerCycle .. | .arm .. | .shutterOpen .. | .rowRemap .. => true
  | .porchDown .. | .crossingFail .. | .retryRequest .. | .ackTimeout .. | .hrstN .. | .blockResetBegin .. => true
  | .regWrite .. | .regRd .. | .regWr .. | .streamData .. | .fabRegWr .. | .fabStream .. => true
  | _ => false

end Sys2Proof
end

