-- ==== Sys2Proof/Certificates/Slice0/Obligations.lean ====
section
/-! DEFINITION. The statements about the block that the provers prove. -/

section

open Sys2Proof Machine

/-- R87, R92, R95: a word that only moves on or loads the time register, where the chain takes it: nothing else changes. -/
def Obligations.WordsThatMoveOn : Prop := ∀ (s : State) (e : Eng), ChainReady s e →
  let x := begun s e
  let nx := ((s.engine e).nextPc + 1) % 4096
  Answers (.nop e) s (RanTo s e { x with nextPc := nx }) ∧
  (∀ a, Answers (.jmp e a) s (RanTo s e { x with nextPc := a.toNat })) ∧
  (∀ a, x.stack.length < 8 →
    Answers (.call e a) s (RanTo s e { x with nextPc := a.toNat, stack := nx :: x.stack })) ∧
  (∀ a r, x.stack = a :: r → Answers (.ret e) s (RanTo s e { x with nextPc := a % 4096, stack := r })) ∧
  (∀ m a, m.toNat &&& x.sample = 0 → Answers (.br e m a) s (RanTo s e { x with nextPc := nx }))

/-- R94, R95: counters and the time register. -/
def Obligations.RegisterWords : Prop := ∀ (s : State) (e : Eng), ChainReady s e →
  let x := begun s e
  let nx := ((s.engine e).nextPc + 1) % 4096
  (∀ imm, Answers (.ldt e false imm) s (RanTo s e { x with nextPc := nx, tt := x.tt / 2 ^ 32 * 2 ^ 32 + imm.toNat })) ∧
  (∀ imm, Answers (.ldt e true imm) s (RanTo s e { x with nextPc := nx, tt := x.tt % 2 ^ 32 + imm.toNat * 2 ^ 32 })) ∧
  (2 ≤ x.level → Answers (.ldtStart e) s (RanTo s e { x with nextPc := nx, tt := x.startT })) ∧
  (∀ imm, 2 ≤ x.level → Answers (.addt e imm) s (RanTo s e { x with nextPc := nx, tt := (x.tt + imm.toNat) % 2 ^ 64 })) ∧
  (∀ i imm, Answers (.ldc e i imm) s (RanTo s e { x with nextPc := nx, ctr := x.ctr.set i imm.toNat })) ∧
  (∀ i imm, Answers (.addc e i imm) s
    (RanTo s e { x with nextPc := nx, ctr := x.ctr.set i ((x.ctr.getD i 0 + imm.toNat) % 2 ^ 32) })) ∧
  (∀ (i : Fin 8) a, let v := (x.ctr.getD i 0 + (2 ^ 32 - 1)) % 2 ^ 32
    Answers (.djnz e i a) s (RanTo s e { x with
      nextPc := if v = 0 then nx else a.toNat, ctr := x.ctr.set i v, ctrLast := some i, ctrLeft := v }))

/-- R96-R101, R103: settings and marks wait in the chain for its naming; LDF changes the frequency table. -/
def Obligations.PendingWords : Prop := ∀ (s : State) (e : Eng), ChainReady s e →
  let x := begun s e
  let nx := ((s.engine e).nextPc + 1) % 4096
  let p := x.pend
  Answers (.synct e) s (RanTo s e { x with nextPc := nx, pend := { p with synct := true } }) ∧
  (∀ m o, (m.val < 4 ∨ 2 ≤ x.level) → Answers (.mark e m o) s
    (RanTo s e { x with nextPc := nx, pend := { p with marks := p.marks.filter (fun q => q.1 != m.val) ++ [(m.val, o.toNat)] } })) ∧
  (∀ i c, (c = false ∨ 2 ≤ x.level) → Answers (.setf e i c) s
    (RanTo s e { x with nextPc := nx, pend := { p with freq := some (x.ftab.getD i 0, c) } })) ∧
  (∀ ph, Answers (.setp e false ph) s (RanTo s e { x with nextPc := nx, pend := { p with phase := some (ph.toInt * 2 ^ 32) } })) ∧
  (∀ ph, 2 ≤ x.level → Answers (.setp e true ph) s
    (RanTo s e { x with nextPc := nx, pend := { p with phase := some (p.phase.getD x.set.ofs + ph.toInt * 2 ^ 32) } })) ∧
  (∀ a b, e.val < 512 → Answers (.tset e a b) s (RanTo s e { x with nextPc := nx, pend := { p with tset := some (a.val, b.val) } })) ∧
  (∀ n, e.val < 512 → Answers (.lvl e n) s (RanTo s e { x with nextPc := nx, pend := { p with lvl := some n.val } })) ∧
  (∀ m, Answers (.cmpm e m) s (RanTo s e { x with nextPc := nx, pend := { p with cmpm := some m.toNat } })) ∧
  (∀ i v, (if e.val < 512 then v.toNat = 0 ∨ 43981 ≤ v.toNat else 1250000000 ≤ v.toNat ∧ v.toNat ≤ 58000000000) →
    Answers (.ldf e i v) s (RanTo s e { x with nextPc := nx, ftab := x.ftab.set i v.toNat }))

/-- R88-R91, R34, R60: a naming word names its segment; PLAYC and STRM with a counter of 0 name nothing. -/
def Obligations.NamingWords : Prop := ∀ (s : State) (e : Eng), ChainReady s e →
  let x := begun s e
  let nx := ((s.engine e).nextPc + 1) % 4096
  let len := fun g : Nat => (namedDesc s e g).len
  (∀ g n, 1 ≤ n.toNat → NameOk s e g.toNat → Answers (.play e g n) s (Named s e .seg g.toNat n.toNat (n.toNat * len g.toNat) 0)) ∧
  (∀ (g : BitVec 14) (i : Fin 8), x.ctr.getD i 0 = 0 → (e.val < 512 ∨ g.toNat < 8192) → Answers (.playc e g i) s (RanTo s e { x with nextPc := nx })) ∧
  (∀ (g : BitVec 14) (i : Fin 8), x.ctr.getD i 0 ≠ 0 → NameOk s e g.toNat →
    Answers (.playc e g i) s (Named s e .seg g.toNat (x.ctr.getD i 0) (x.ctr.getD i 0 * len g.toNat) 0)) ∧
  (∀ m g, NameOk s e g.toNat → Answers (.wait e m g) s (Named s e (.wait m.toNat) g.toNat 1 (len g.toNat) 0)) ∧
  (∀ (r : Fin 256) (i : Fin 8), 2 ≤ x.level → x.ctr.getD i 0 = 0 → Answers (.strm e r (.ctr i)) s (RanTo s e { x with nextPc := nx })) ∧
  (∀ (r : Fin 256) c n, n = (match c with | .imm g => g.toNat | .ctr i => x.ctr.getD i 0) → 8 ≤ n → 2 ≤ x.level → s.on (F.ring_cfg_en r) = true →
    s.f (F.ring_cfg_engine r) = e → NameOk s e (s.f (F.ring_cfg_seg r)) →
    Answers (.strm e r c) s (Named s e (.strm r) (s.f (F.ring_cfg_seg r)) 1 n (strmFirst (wordAt s e) e r)))

/-- R58, R61, R62, R67, R83, R93, R104: a taken branch consumes the flags it tested; HALT and an undefined word end the chain and let the
play end, a leader's reaching its suite over the bus (R72); SIG is a pulse in its core cycle; the 4,096th word without a naming or HALT
faults the engine. In the setup chain HALT, an undefined word and the overrun fail the arm with CHAIN. -/
def Obligations.WordsThatTestOrStop : Prop := ∀ (s : State) (e : Eng), ChainReady s e →
  let x := begun s e
  let nx := ((s.engine e).nextPc + 1) % 4096
  let halted : Engine :=
    { x with
      halting := true, next := none, pend := {}, chainN := 0, nextQueue := [], nextCmpQueue := []
      dec := if x.suite % 2 = 1 then some (coreNow s) else none }
  (∀ m a k, k = m.toNat &&& x.sample → k ≠ 0 → x.arrCyc ≠ coreNow s → Answers (.br e m a) s (fun t =>
      EngineOnly e { x with
        nextPc := a.toNat, sample := x.sample &&& (255 - k), cond := true
        cons := x.cons ++ ((List.range 8).filter (fun i => k.testBit i)).map (fun i => (i, coreNow s)) }
        [R.eng_pc e, R.eng_task e] s t ∧
      t.f (F.eng_task_flag e) = s.f (F.eng_task_flag e) &&& (255 - k) ∧
      t.f (F.eng_task_overlap e) = s.f (F.eng_task_overlap e) ∧ t.f (F.eng_task_merged e) = s.f (F.eng_task_merged e))) ∧
  (arming s e = false → Answers (.halt e) s (RanTo s e halted)) ∧
  (arming s e = true → Answers (.halt e) s (ArmFailed s e 6)) ∧
  (∀ m : Fin 8, m.val < 4 → Answers (.sig e m) s (fun t =>
    t.engine e = { x with nextPc := nx } ∧ (gridOf s (coreNow s), 4 * e.val + m.val) ∈ t.hall.acts ∧
    (∀ a, a ≠ R.eng_pc e → t.reg a = s.reg a) ∧ { t with eng := s.eng, regs := s.regs, hall := s.hall } = s)) ∧
  (∀ m : Fin 8, 4 ≤ m.val → 2 ≤ x.level → Answers (.sig e m) s (fun t =>
    t.engine e = { x with nextPc := nx } ∧
    (coreStart (coreNow s) ≤ t16Now s → ∀ i, i < 16 → s.f (F.trigOut_cfg_mode i) = 3 → s.f (F.trigOut_timed_engine i) = e →
      s.f (F.trigOut_timed_marker i) + 4 = m → (i, coreStart (coreNow s)) ∈ t.hall.timed) ∧
    (t16Now s < coreStart (coreNow s) → (e.val, m.val, coreStart (coreNow s)) ∈ t.hall.fired) ∧
    (∀ a, a ≠ R.eng_pc e → t.reg a = s.reg a) ∧ { t with eng := s.eng, regs := s.regs, hall := s.hall } = s)) ∧
  (arming s e = false → heldSide s .field = false → ∀ c, Answers (.undefinedWord e c) s (fun t =>
    t.engine e = halted ∧ (∀ j, j ≠ e.val → t.engine j = s.engine j) ∧ Recorded .field 21 s t ∧
    ∀ a, PlainReg a → a ≠ R.eng_pc e → t.reg a = s.reg a)) ∧
  (arming s e = true → ∀ c, Answers (.undefinedWord e c) s (ArmFailed s e 6)) ∧
  (arming s e = false → heldSide s .field = false → Answers (.chainOverrun e) s (fun t =>
    est t e = stFaulted ∧ (t.engine e).next = none ∧ (t.engine e).pend = {} ∧ (t.engine e).fillEnd.map (·.1) = some .faulted ∧
    Recorded .field 22 s t ∧ ∀ j, j ≠ e.val → t.engine j = s.engine j)) ∧
  (arming s e = true → Answers (.chainOverrun e) s (ArmFailed s e 6))

/-! ### Engine control -/

/-- R57, R80: a low half is staged with its index, a high half commits the word with fresh check bits; in ARMED, RUN, WAIT and while
arming the write is dropped, imem_drop is set and IMEM_WR is recorded. -/
def Obligations.InstructionStore : Prop := ∀ (s : State) (e : Eng) (i : BitVec 12) (w : Word), Awake s →
  let lo := R.imem_lo e i.toNat
  let hi := R.imem_hi e i.toNat
  (imemWritable s e = true →
    exec (.imemStage e i w) s =
      .next { s with imemStage := s.imemStage.filter (fun x => x.1 != e.val) ++ [(e.val, i.toNat, w)] } ∧
    Answers (.imemCommit e i w) s (fun t =>
      t.reg hi = w ∧ tget (fun _ => 0) t.imemErr (4096 * e.val + i.toNat) = 0 ∧ (∀ x, x ∈ t.imemStage → x.1 ≠ e.val) ∧
      (∀ v, s.imemStage.find? (fun x => x.1 == e.val) = some (e.val, i.toNat, v) → t.reg lo = v) ∧
      ((∀ v, (e.val, i.toNat, v) ∉ s.imemStage) → t.reg lo = s.reg lo) ∧
      (∀ a, a ≠ lo → a ≠ hi → t.reg a = s.reg a) ∧
      { t with regs := s.regs, imemErr := s.imemErr, imemStage := s.imemStage } = s)) ∧
  (imemWritable s e = false → ∀ c, c = .imemStage e i w ∨ c = .imemCommit e i w → Answers c s (fun t =>
    t.f (F.eng_stat_imem_drop e) = 1 ∧ Recorded .field 20 s t ∧ t.imemStage = s.imemStage ∧ t.imemErr = s.imemErr ∧
    ∀ a, PlainReg a → a ≠ R.eng_stat e → t.reg a = s.reg a))

/-- R55, R56, R58, R84, R141: an arm that passes its checks clears the lane's counters where clr_on_arm asks it, takes the engine's settings
and registers and runs the setup chain on them; a write that a restricted phase let through into its segments in the same core cycle is
undone (R179). -/
def Obligations.ArmRunsSetupChain : Prop := ∀ (s : State) (e : Eng) (b : Bool), Awake s → ready s = true → armable s e = true →
  s.on (F.eng_suite_member e) = false →
  let reg := s.f (F.eng_cfg_start_src e) == 0
  let s1 := (((clearOnArm s e).put (F.eng_stat_state e) stIdle).put (F.eng_stat_abort_res e) 0).when (b && !reg)
    (·.raise (F.eng_stat_cmd_err e))
  armCheck s1 e = none →
  exec (.arm e b) s = .next (undoWrites (armChain (armPrep (readHeader s1 e) e (b && reg)) e)) ∧
  let u := armPrep (readHeader s1 e) e (b && reg)
  let x := u.engine e
  x.ctr = [0, 0, 0, 0, 0, 0, 0, 0] ∧ x.tt = 0 ∧ x.stack = [] ∧ x.play = none ∧ x.next = none ∧ x.queue = [] ∧ x.pend = {} ∧
  x.ctrLast = none ∧ x.chainN = 0 ∧ x.fillIdx = 0 ∧ x.sample = flagsOf s e ∧ x.nextPc = s.f (F.eng_entry_addr e) ∧
  x.cfg = (s.reg (R.eng_cfg e)).toNat ∧ x.startT = s.pair (R.eng_startLo e) (R.eng_startHi e) ∧ x.set = armSettings s e ∧
  x.epoch = epochNow s ∧ x.ftab = List.replicate 16 (ftabValue e x.set) ∧ u.f (F.eng_stat_start_pending e) = (b && reg).toNat

/-- R55, R57, R58, R141: the first arm check that fails gives arm_err its code, and the engine stays IDLE; the arm was accepted, so that the
counters of the members' lanes clear where clr_on_arm asks it. An error in the image header, which the checks read, is recorded. -/
def Obligations.ArmFails : Prop := ∀ (s : State) (e : Eng) (b : Bool) (c : Nat), Awake s → ready s = true → armable s e = true →
  (s.on (F.eng_suite_member e) = true → s.on (F.eng_suite_is_leader e) = true) →
  let sc := (if suiteOk s e then regMembers s e else [e]).foldl clearOnArm s
  let s1 := ((sc.put (F.eng_stat_state e) stIdle).put (F.eng_stat_abort_res e) 0).when (b && !(s.f (F.eng_cfg_start_src e) == 0))
    (·.raise (F.eng_stat_cmd_err e))
  armCheck s1 e = some c →
  Answers (.arm e b) s (fun t => est t e = stIdle ∧ t.f (F.eng_stat_arm_err e) = c % 2 ^ 4 ∧ t.f (F.eng_stat_abort_res e) = 0 ∧
    t.f (F.eng_stat_start_pending e) = 0 ∧ arming t e = false ∧ (∀ a, PlainReg a → a ≠ R.eng_stat e → t.reg a = sc.reg a) ∧
    (tget (fun _ => 0) s.imemErr (4096 * e) = 0 → RegsOnly [R.eng_stat e] sc t) ∧
    (tget (fun _ => 0) s.imemErr (4096 * e) ≠ 0 → Recorded .field 19 s t))

/-- R58, R59, R119, R120: a primed engine outside a suite enters ARMED; a start begins its first play at the first boundary 64 core
cycles on, a start by time at the first boundary from START_TIME. -/
def Obligations.PrimeAndStart : Prop := ∀ (s : State) (e : Eng), (s.engine e).suite % 2 = 0 →
  (canPrime s e = true → s.on (F.eng_stat_start_pending e) = false → (s.engine e).cfg % 4 ≠ 1 →
    Answers (.primeComplete e) s (fun t => est t e = stArmed ∧ arming t e = false ∧ t.f (F.eng_stat_arm_err e) = 0 ∧
      EngineOnly e { s.engine e with armedAt := t16Now s } [R.eng_stat e] s t)) ∧
  (∀ p, (s.engine e).next = some p → p.pend.synct = false → est s e = stArmed →
    (Awake s → ready s = true → (s.engine e).cfg % 4 = 0 → let w := firstPlay s e (coreStart (coreNow s + 64)) p
      QuadServes s e w.1 → Answers (.start e) s (Plays s e p w.1 w.2.1 w.2.2)) ∧
    ((s.engine e).cfg % 4 = 2 → let t0 := absT s (s.engine e).startT
      let w := firstPlay s e t0 p
      t0 ≤ t16Now s → coreStart (coreOf (s.engine e).armedAt + 64) ≤ w.2.2 → QuadServes s e w.1 →
      Answers (.timeStart e) s (Plays s e p w.1 w.2.1 w.2.2)))

/-- R55, R67-R69: what ends a run. An abort of an ARMED engine acts at once; in RUN and WAIT it waits for a granule boundary, where two
granules of filler begin, after which the engine takes its final state; what its chain was to do after the abort's core cycle never
happens. -/
def Obligations.EngineStops : Prop := ∀ (s : State) (e : Eng), (s.engine e).suite % 2 = 0 →
  let x := s.engine e
  (Awake s → est s e = stArmed → arming s e = false → Answers (.abort e) s (fun t =>
    est t e = stAborted ∧ t.f (F.eng_stat_abort_res e) = 2 ∧ t.f (F.eng_stat_start_pending e) = 0 ∧ (t.engine e).play = none ∧
    (t.engine e).next = none ∧ (t.engine e).queue = [] ∧ ∀ j, j ≠ e.val → t.engine j = s.engine j)) ∧
  (Awake s → running s e = true → arming s e = false → s.f (F.eng_stat_abort_res e) ≠ 1 → x.fillEnd = none →
    (x.chainCyc ≤ coreNow s → x.halting = false →
      Answers (.abort e) s (fun t => t.f (F.eng_stat_abort_res e) = 1 ∧ est t e = est s e ∧
        EngineOnly e { x with abortPend := true, abortAt := coreNow s } [R.eng_stat e] s t)) ∧
    (coreNow s < x.chainCyc → Answers (.abort e) s (fun t => t.f (F.eng_stat_abort_res e) = 1 ∧ est t e = est s e ∧
      t.engine e = { x with
        abortPend := true, abortAt := coreNow s, next := none, pend := {}, halting := false, dec := none, nextQueue := [], nextCmpQueue := []
        play := x.play.map (fun p => if p.late && decide (coreNow s < p.namedAt) then { p with void := true, marks := [] } else p) } ∧
      (∀ j, j ≠ e.val → t.engine j = s.engine j) ∧
      ∀ a, a ∉ [R.eng_stat e, R.eng_task e, R.eng_pc e] → t.reg a = s.reg a))) ∧
  (running s e = true → x.abortPend = true → x.fillEnd = none → x.retune = false → Answers (.abortActs e) s (fun t =>
    (t.engine e).fillEnd = some (.aborted, boundaryAfter s e x.abortAt) ∧ (t.engine e).next = none ∧
    (t.engine e).abortPend = false ∧ (t.engine e).halting = false ∧ (t.engine e).pend = {})) ∧
  (∀ k t0, x.fillEnd = some (k, t0) → Answers (.fillerEndPark e) s (fun t =>
    (t.engine e).play = none ∧ (t.engine e).next = none ∧ (t.engine e).fillEnd = none ∧
    est t e = (match k with
      | .aborted => stAborted | .halted => stHalted | .faulted => stFaulted | .lostClock => stLost | .idle => stIdle) ∧
    (k = .aborted → t.f (F.eng_stat_abort_res e) = 2))) ∧
  (Awake s → (est s e = stArmed ∨ stHalted ≤ est s e) →
    Answers (.engineReset e) s (fun t => est t e = stIdle ∧ t.f (F.eng_stat_start_pending e) = 0 ∧ (t.engine e).play = none ∧
      (t.engine e).next = none ∧ ∀ j, j ≠ e.val → t.engine j = s.engine j)) ∧
  (∀ p, playing s e = some p → x.halting = true → x.holding = false → x.dec = none → x.abortPend = false → p.kind = .seg →
    haltT s e p ≤ t16Now s → Answers (.haltComplete e) s (fun t =>
      est t e = stHalted ∧ (t.engine e).play = none ∧ (t.engine e).halting = false ∧ ∀ j, j ≠ e.val → t.engine j = s.engine j))

/-! ### The events of a play -/

/-- R60, R66: at the start of the last two granules the engine samples its flags and runs its chain, unless an abort is pending; a sample of
granule-jump mode that meets no flag of the jump mask only replaces the sample, one that meets a flag decides at once. An event takes place
at its instant: the model's choice, log entry 2. -/
def Obligations.Decisions : Prop := ∀ (s : State) (e : Eng) (p : Play), (s.engine e).suite % 2 = 0 → playing s e = some p →
  p.decided = false → (s.engine e).holding = false → (∀ m, p.kind ≠ .wait m) →
  let x := s.engine e
  (granT s e p (p.endAt - 2) ≤ t16Now s →
    (x.abortPend = false → x.next = none → x.halting = false → Answers (.decisionPoint e) s (Decides s e p p.endAt)) ∧
    (x.abortPend = true ∨ x.next.isSome = true ∨ x.halting = true → Answers (.decisionPoint e) s (fun t =>
      t.engine e = { x with sample := flagsOf s e, play := some { p with decided := true } } ∧
      (∀ j, j ≠ e.val → t.engine j = s.engine j) ∧ { t with eng := s.eng, ctl := s.ctl } = s))) ∧
  (∀ g, g = nextGran s e p → granT s e p g = t16Now s → g + 2 < p.endAt → x.cfg / 32 % 2 = 1 →
    (flagsOf s e &&& p.jmask = 0 → Answers (.granuleSample e) s (EngineOnly e { x with sample := flagsOf s e } [] s)) ∧
    (flagsOf s e &&& p.jmask ≠ 0 → coreStart p.jmaskAt ≤ granT s e p g → x.abortPend = false → x.next = none → x.halting = false →
      Answers (.granuleSample e) s (Decides s e p (g + 2))))

/-- R86, R119, R120: where the play in progress of a pin lane's engine ends, the named play begins at that boundary with its pending pair,
level set and compare mode; without a pending frequency or phase the timeline goes on. An event takes place at its instant: the model's
choice, log entry 2. -/
def Obligations.PlayEnds : Prop := ∀ (s : State) (e : Eng) (p q : Play), e.val < 512 → (s.engine e).suite % 2 = 0 →
  playing s e = some p → (s.engine e).next = some q → p.decided = true → p.kind = .seg →
  (s.engine e).halting = false → (s.engine e).dec = none → (s.engine e).disagree = none → (s.engine e).holding = false →
  (s.engine e).abortPend = false → q.pend.freq = none → q.pend.phase = none → q.pend.synct = false → endT s e p ≤ t16Now s →
  let y := (s.engine e).set
  let ab := q.pend.tset.getD (y.a, y.b)
  Answers (.playEnd e) s (Plays s e q { y with a := ab.1, b := ab.2, lvl := q.pend.lvl.getD y.lvl, cmpm := q.pend.cmpm.getD y.cmpm }
    (granK e p p.endAt) (endT s e p))

/-- R65, R103: marker m of the play in progress fires in the core cycle in which its lane reaches the marked position. An event takes place
at its instant: the model's choice, log entry 2. -/
def Obligations.MarksFire : Prop := ∀ (s : State) (e : Eng) (p : Play) (m : Fin 8) (off : Nat), playing s e = some p →
  p.marks.find? (fun q => q.1 == m.val) = some (m.val, off) → off < p.endAt * perGranule e → (s.engine e).holding = false →
  let at_ := if off = 0 then p.t0 else boundaryT (s.engine e).set (s.engine e).epoch (p.k0 + (off : Int))
  at_ ≤ t16Now s → Answers (.markFire e m) s (fun t =>
    t.engine e = { s.engine e with play := some { p with marks := p.marks.filter (fun y => y.1 != m.val) } } ∧
    (∀ j, j ≠ e.val → t.engine j = s.engine j) ∧ { t with eng := s.eng, hall := s.hall } = s ∧
    (m.val < 4 → (gridOf s (coreOf at_), 4 * e.val + m.val) ∈ t.hall.acts) ∧
    (4 ≤ m.val → ∀ i, i < 16 → s.f (F.trigOut_cfg_mode i) = 3 → s.f (F.trigOut_timed_engine i) = e →
      s.f (F.trigOut_timed_marker i) + 4 = m → (i, at_) ∈ t.hall.timed))

/-- R174-R176, R181: under the policy HOLD a missing granule is counted and its play goes on at the next granule, with the under-run shown;
under SLIP (R175) the lane holds, and resumes when the awaited granule has come. An event takes place at its instant: the model's choice,
log entry 2. -/
def Obligations.MissingGranules : Prop := ∀ (s : State) (e : Eng) (p : Play) (g : Nat), playing s e = some p → (s.engine e).holding = false →
  g = max p.due (nextGran s e p) → g < p.endAt → isMissing s e p g = true → granT s e p g ≤ t16Now s → heldSide s .field = false →
  p.kind = .seg →
  let x := s.engine e
  let k := granK e p g
  (missCauseOf s p g (g == 0) = 2 →
    x.missK ≠ some (k - (perGranule e : Int)) →
    (x.cfg / 64 % 4 = 1 → x.cfg / 256 % 2 = 0 → Answers (.granuleMissing e) s (fun t =>
      (t.engine e).play = some { p with
        due := g + 1, fetched := if x.queue.any (fun q => q.1 == g) then p.fetched else p.fetched + 1 } ∧ (t.engine e).missK = some k ∧
      t.f (F.eng_urunMiss_n e) = min (s.f (F.eng_urunMiss_n e) + 1) (2 ^ 32 - 1) ∧ t.f (F.eng_stat_underrun e) = 1 ∧
      t.f (F.eng_urunCnt_n e) = min (s.f (F.eng_urunCnt_n e) + 1) (2 ^ 32 - 1))) ∧
    (x.cfg / 64 % 4 < 2 → x.cfg / 256 % 2 = 1 → Answers (.granuleMissing e) s (fun t =>
      (t.engine e).play = some { p with due := g } ∧ (t.engine e).holding = true ∧ (t.engine e).missK = some k ∧
      t.f (F.eng_stat_underrun e) = 1)))

/-- R47, R175: the awaited granule has come: the lane resumes, a play named late not before its naming (R62), and its phase offset takes up
the shift; under a JUMP_MISS the shift is whole granules, those that filler has played among them. -/
def Obligations.SlipResumes : Prop := ∀ (s : State) (e : Eng) (p : Play), playing s e = some p → (s.engine e).holding = true →
  (granData s e p p.due).isSome = true →
  let x := s.engine e
  let k := granK e p p.due
  let kv := max k (firstBoundary x.set x.epoch (max (t16Now s) (if p.late then coreStart (p.namedAt + 1) else 0)))
  let per : Int := perGranule e
  let shift := if 4 ≤ x.missCause then max ((kv - k + per - 1) / per) (x.holdN : Int) * per else kv - k
  Answers (.slipResume e) s (fun t => (t.engine e).holding = false ∧ (t.engine e).missK = none ∧ (t.engine e).fillK = none ∧
    (t.engine e).set.ofs = normOfs (x.set.ofs - shift * 2 ^ 48))

/-- R177: a poisoned granule plays as filler: POISON is recorded and counted, and the play goes on at the next granule. -/
def Obligations.PoisonPlays : Prop := ∀ (s : State) (e : Eng) (p : Play) (g : Nat) (d : Granule) (c : PanCopy), playing s e = some p →
  (s.engine e).holding = false → g = max p.due (nextGran s e p) → g < p.endAt → granData s e p g = some (d, true) →
  isMissing s e p g = false → granT s e p g ≤ t16Now s → heldSide s .field = false →
  (s.engine e).fillK = some (granK e p g - (perGranule e : Int)) →
  (s.engine e).fillCopy.bind (copyOf s (tableOf e)) = some c → c.poison = [] → c.err = [] → pantryErr s e p g = false →
  Answers (.poisonPlay e) s (fun t => (t.engine e).play = some { p with due := g + 1 } ∧ (t.engine e).fillK = some (granK e p g) ∧
    t.f (F.eng_poisonCnt_n e) = min (s.f (F.eng_poisonCnt_n e) + 1) (2 ^ 32 - 1) ∧
    t.f (F.src_stat_active .field 50) = 1)

/-- R61, R63, R64: a host arrival sets a clear flag and raises the overlap bit of a set one; a W1C write of TASK clears what no
arrival of the same cycle raised. -/
def Obligations.TaskFlags : Prop := ∀ (s : State) (e : Eng), Awake s → (s.engine e).arrCyc ≠ coreNow s →
  (∀ i : Fin 8, est s e ≠ stArmed → (s.engine e).cons = [] →
    Answers (.taskset e (BitVec.ofNat 8 (2 ^ i.val))) s (fun t =>
      let fl := s.f (F.eng_task_flag e)
      t.f (F.eng_task_flag e) = fl ||| 2 ^ i.val ∧ t.f (F.eng_task_merged e) = s.f (F.eng_task_merged e) ∧
      t.f (F.eng_task_overlap e) = (if fl.testBit i then s.f (F.eng_task_overlap e) ||| 2 ^ i.val else s.f (F.eng_task_overlap e)) ∧
      (∀ j, j ≠ e.val → t.engine j = s.engine j) ∧ (∀ a, a ≠ R.eng_task e → t.reg a = s.reg a) ∧
      { t with eng := s.eng, regs := s.regs } = s)) ∧
  (∀ v : Word, Answers (.taskClear e v) s (fun t =>
    t.f (F.eng_task_flag e) = s.f (F.eng_task_flag e) &&& (255 - v.toNat % 256) ∧
    t.f (F.eng_task_merged e) = s.f (F.eng_task_merged e) &&& (255 - v.toNat / 256 % 256) ∧
    t.f (F.eng_task_overlap e) = s.f (F.eng_task_overlap e) &&& (255 - v.toNat / 65536 % 256) ∧ RegsOnly [R.eng_task e] s t))

/-! ### Suites and lockstep -/

/-- R43, R72, R73, R102: the leader's decision reaches every follower; a pair that fails ends the chain of every member; a member
that lost its clock or faulted ends the run of the others. -/
def Obligations.Suites : Prop := ∀ (s : State) (l : Eng) (x : Engine), x = s.engine l → coreNow s ≥ x.nameCyc + 12 →
  (∀ c, x.dec = some c → c + 6 ≤ coreNow s → x.next = none → Answers (.suiteDecision l) s (fun t =>
    (t.engine l).dec = none ∧ (∀ m, m ∈ membersOf s l → m ≠ l.val → t.engine m = { s.engine m with halting := x.halting }) ∧
    (∀ m, m ∉ membersOf s l → m ≠ l.val → t.engine m = s.engine m) ∧ { t with eng := s.eng } = s)) ∧
  (∀ c q, x.dec = some c → c + 6 ≤ coreNow s → x.next = some q →
    let b := beforeWrites s (coreNow s)
    slicesOk b l (tableOf l) q.seg = true → (∀ m, m ∈ membersOf s l → m ≠ l.val → followerDesc b l m q = true ∧
      followerPair b m q.pend = none) → Answers (.suiteDecision l) s (fun t =>
    (t.engine l).dec = none ∧ (∀ m, m ∈ membersOf s l → m ≠ l.val → ∃ p, (t.engine m).next = some p ∧ p.kind = q.kind ∧ p.seg = q.seg ∧
      p.reps = q.reps ∧ p.grans = q.grans ∧ p.first = q.first ∧ p.tt = q.tt ∧ p.namedAt = q.namedAt ∧ p.marks = [] ∧
      p.pend = { q.pend with marks := [] } ∧ (t.engine m).pend = {}))) ∧
  (x.disagree = some true → arming s l = false → heldSide s .field = false → Answers (.suiteDisagree l) s (fun t =>
    (∀ m, m ∈ membersOf s l → (t.engine m).halting = true ∧ (t.engine m).next = none ∧ (t.engine m).pend = {}) ∧
    Recorded .field 21 s t)) ∧
  (∀ e : Eng, (s.engine e).suite % 2 = 1 → (s.engine e).suite / 2 ^ 22 = l.val → est s e = stLost ∨ est s e = stFaulted →
    (∀ m, m ∈ membersOf s l → m ≠ e.val → arming s m = false ∧ running s m = true ∧ (s.engine m).fillEnd = none) →
    Answers (.suiteMemberFail e) s (fun t => ∀ m, m ∈ membersOf s l → m ≠ e.val →
      (t.engine m).fillEnd.map (·.1) = some (if est s e = stLost then .lostClock else .faulted) ∧ (t.engine m).next = none))

/-- R74-R76, R78: a visit that begins, and one whose slots disagree. -/
def Obligations.Lockstep : Prop := ∀ (s : State) (t : TableId), heldSide s .field = false →
  let x := s.table t
  let m := s.f (F.lstep_word_mode t)
  let k := s.f (F.lstep_word_visiting t)
  ((x.lsAt = 0 ∨ x.lsAt + 1000 * usU ≤ s.clk.now) → m ≠ 2 →
    Answers (.lockstepVisit t true) s (fun u => u.f (F.lstep_word_visiting t) = x.lsNext % 2 ^ (F.lstep_word_visiting t).w ∧
      u.table t = { x with lsNext := (x.lsNext + 1) % spareSlot t, lsAt := s.clk.now, lsOn := true } ∧
      u.f (F.lstep_word_mode t) = m) ∧
    Answers (.lockstepVisit t false) s (fun u => u.f (F.lstep_word_mode t) = 2 ∧ (u.table t).lsOn = false ∧
      Recorded .field (if m = 0 then 18 else 17) s u)) ∧
  (x.lsOn = true → m = 0 → ∀ d, Answers (.lockstepMismatch t d true) s (fun u =>
    u.f (F.lstep_word_mode t) = 1 ∧ (k, spareSlot t) ∈ (u.table t).slots ∧ (u.table t).lsOn = false ∧
    u.f (F.lstep_word_retired_valid t) = 1 ∧ u.f (F.lstep_word_retired_slot t) = slotOf s t k % 2 ^ (F.lstep_word_retired_slot t).w ∧
    Recorded .field 16 s u)) ∧
  (x.lsOn = true → m = 1 → active3 s (engineOf t k) = true → (engineOf t k) < 576 → ∀ d b, Answers (.lockstepMismatch t d b) s (fun u =>
    u.f (F.lstep_word_mode t) = 2 ∧ (u.table t).lsOn = false ∧ (u.engine (engineOf t k)).next = none ∧
    est u (engineOf t k) = stFaulted ∧ Recorded .field 16 s u))

/-! ### Descriptors and the pantry -/

/-- R8, R31-R33: words 0, 1 and 3 of a descriptor are staged with their index; a write of word 2 commits them with it where the tag is
that index, keeps the committed word where it is not, and clears the staging. A commit that would take away the filler of an armed or
running engine is dropped (R52). -/
def Obligations.DescriptorWrites : Prop := ∀ (s : State) (t : TableId) (i : BitVec 14), Awake s →
  let x := s.table t
  (∀ (n : Fin 4) v, n ≠ 2 → Answers (.descStage t i n v) s (fun u =>
    u.table t = (if n = 0 then { x with st0 := some (i.toNat, v) } else if n = 1 then { x with st1 := some (i.toNat, v) }
      else { x with st3 := some (i.toNat, v) }) ∧
    (∀ j, j ≠ t.val → u.table j = s.table j) ∧ { u with tab := s.tab } = s)) ∧
  (∀ v : Word, v.getLsbD 11 = false → s.f (F.seg_ctl_pin_state t i.toNat) = 0 ∨ s.f (F.seg_ctl_pin_state t i.toNat) = 3 →
    v.getLsbD 8 = false → fillerUsed s t i.toNat = false →
    (∀ e, e ∈ enginesOf t → NamedByNow s e) → Answers (.descCommit t i v) s (fun u =>
      u.reg (R.seg_base t i.toNat) = stagedOr x.st0 i.toNat (s.reg (R.seg_base t i.toNat)) ∧
      u.reg (R.seg_len t i.toNat) = stagedOr x.st1 i.toNat (s.reg (R.seg_len t i.toNat)) ∧
      u.reg (R.seg_aux t i.toNat) = auxMask v (stagedOr x.st3 i.toNat (s.reg (R.seg_aux t i.toNat))) ∧
      u.f (F.seg_ctl_pin_state t i.toNat) = 0 ∧ u.f (F.seg_ctl_pan_off t i.toNat) = 0 ∧
      u.f (F.seg_ctl_valid t i.toNat) = (v.getLsbD 3).toNat ∧ u.f (F.seg_ctl_format t i.toNat) = v.toNat % 8 ∧
      u.table t = { x with st0 := none, st1 := none, st3 := none } ∧
      (∀ a, a ∉ [R.seg_base t i.toNat, R.seg_len t i.toNat, R.seg_ctl t i.toNat, R.seg_aux t i.toNat] → u.reg a = s.reg a) ∧
      { u with regs := s.regs, tab := s.tab, hall := { u.hall with old := s.hall.old } } = s)) ∧
  (∀ v : Word, fillerUsed s t i.toNat = true → fillerTaken (descOf s t i.toNat) (descOf (clearStage (putDesc s t i.toNat v) t) t i.toNat) = true →
    Answers (.descCommit t i v) s (fun u => Recorded .field 24 s u ∧ u.table t = { x with st0 := none, st1 := none, st3 := none } ∧
      ∀ a, PlainReg a → u.reg a = s.reg a))

/-- R44-R46, R53, where no chain of the table's engines has a naming still to come: the granules of a pinned segment that are still to come are read from the store where its stacks serve, and it becomes
RESIDENT: the copy holds what the store holds; a reload starts in the lowest
free run that holds it, and the old copy is held; a held copy that nothing holds is released. -/
def Obligations.PantryLoads : Prop := ∀ (s : State) (t : TableId) (i : BitVec 14), (∀ e, e ∈ enginesOf t → NamedByNow s e) →
  (∀ c, (s.table t).copies.find? (fun y => y.seg == i.toNat && y.state == 0) = some c →
    (∀ o, o < copyLen c → stackUp s (stackOfGran (copyGran c o)) = true) → Answers (.pinLoadComplete t i) s (fun u =>
      u.f (F.seg_ctl_pin_state t i.toNat) = 2 ∧ u.f (F.seg_ctl_pan_off t i.toNat) = 4 * c.unit % 2 ^ 15 ∧
      u.store = s.store ∧ u.eng = s.eng ∧
      ∃ y : PanCopy, (u.table t).copies = (s.table t).copies.map (fun z => if z.id == c.id then y else z) ∧ y.state = 1 ∧
        y.loaded = max c.loaded (copyLen c) ∧ y.id = c.id ∧ y.seg = c.seg ∧ y.unit = c.unit ∧
        ∀ o, c.loaded ≤ o → o < copyLen c → tget (fun _ => (0 : Granule)) y.data o = granBits s (copyGran c o))) ∧
  (Awake s → s.on (F.seg_ctl_reload t i.toNat) = true → s.f (F.seg_ctl_pin_state t i.toNat) = 2 → ∀ c n,
    serving s t i.toNat = some c → panFit s t (panNeed (descOf s t i.toNat)) = some n → Answers (.descReload t i) s (fun u =>
      u.f (F.seg_ctl_reload t i.toNat) = 0 ∧ u.f (F.seg_ctl_pin_state t i.toNat) = 1 ∧ u.eng = s.eng ∧ u.store = s.store ∧
      ∃ y, y ∈ (u.table t).copies ∧ y.seg = i.toNat ∧ y.unit = n ∧ y.state = 0 ∧ y.reload = true ∧ y.loaded = 0)) ∧
  Answers (.heldCopyRelease t i) s (fun u =>
    (u.table t).copies = (s.table t).copies.filter (fun c => !(c.seg == i.toNat && c.state == 2 && !copyUsed s t c.id)) ∧
    (∀ j, j ≠ t.val → u.table j = s.table j) ∧
    (∀ a, a ≠ R.pan_stat t → a ≠ R.pan_free t → u.reg a = s.reg a) ∧ { u with regs := s.regs, tab := s.tab } = s)

/-! ### Lanes -/

/-- R286, R126, R128, R165, R195: the low half of a pair is staged, and the high half commits the pair with the staged low half, or else
with the committed one, and ends the staging. A FREQ from 1 to 43,980 and a RATE outside 1.25 to 58.0 Gbit/s are rejected; a commit of
a timer's START or PERIOD resets its count. -/
def Obligations.StagedPairs : Prop := ∀ (s : State) (p : PairRef) (v : Word), Awake s →
  let a := pairLo p
  let rest := s.pairStage.filter (fun x => x.1 != a)
  let lo := match s.pairStage.find? (fun x => x.1 == a) with | some (_, w) => w | none => s.reg a
  let hi : Word := BitVec.ofNat 32 (v.toNat % 2 ^ pairHiBits p)
  let n := lo.toNat + hi.toNat * 2 ^ 32
  Answers (.stagedLoWrite p v) s (fun t => t.pairStage = rest ++ [(a, v)] ∧ { t with pairStage := s.pairStage } = s) ∧
  ((∀ l, p = .freq l → n = 0 ∨ 43980 < n) → (∀ k, p = .rate k → 1250000000 ≤ n ∧ n ≤ 58000000000) →
    Answers (.stagedHiCommit p v) s (fun t => t.reg a = lo ∧ t.reg (a + 4) = hi ∧ t.pairStage = rest ∧
      (∀ i, p = .tmrStart i ∨ p = .tmrPeriod i → t.reg (R.tmr_cnt i) = 0) ∧
      (∀ b, b ≠ a → b ≠ a + 4 → (∀ i, p = .tmrStart i ∨ p = .tmrPeriod i → b ≠ R.tmr_cnt i) → t.reg b = s.reg b) ∧
      { t with regs := s.regs, hall := s.hall, pairStage := s.pairStage } = s)) ∧
  (∀ l, p = .freq l → 1 ≤ n → n ≤ 43980 → Answers (.stagedHiCommit p v) s (fun t =>
    t.f (F.lt_tstat_freq_rej l) = 1 ∧ t.pairStage = rest ∧ RegsOnly [R.lt_tstat l] { s with pairStage := rest } t)) ∧
  (∀ k, p = .rate k → n < 1250000000 ∨ 58000000000 < n → Answers (.stagedHiCommit p v) s (fun t =>
    t.f (F.xl_xstat_rate_rej k) = 1 ∧ t.pairStage = rest ∧ RegsOnly [R.xl_xstat k] { s with pairStage := rest } t))

/-- R125, R126, R135, R136: a timing or level set that no play uses takes a legal word (log entry 2 has the namings of later core cycles
read it); one that belongs to the play in progress or the
named play is dropped and recorded; an illegal word is rejected. -/
def Obligations.LaneSets : Prop := ∀ (s : State) (l : PinLane) (i : Fin 16) (j : Fin 8) (v : Word), Awake s →
  (tsBusy s l i = false → NamedByNow s l →
    Answers (.timingSetWrite l i 0 v) s (fun t => t.reg (R.ts_fmt l i) = v &&& 0x13#32 ∧ ConfigOnly [R.ts_fmt l i] s t)) ∧
  (tsBusy s l i = false → ∀ n : Fin 5, n ≠ 0 → let o := signed 14 (v.toNat % 2 ^ 14)
    (-6553 ≤ o → o ≤ 6553 → NamedByNow s l → Answers (.timingSetWrite l i n v) s (fun t =>
      tsEdge t l i (n - 1) = v &&& 0xFFFF3FFF#32 ∧ ConfigOnly [R.ts_e0 l i + 4 * (n - 1)] s t)) ∧
    (o < -6553 ∨ 6553 < o → Answers (.timingSetWrite l i n v) s (fun t => t.f (F.lt_tstat_ts_rej l) = 1 ∧ RegsOnly [R.lt_tstat l] s t))) ∧
  (tsBusy s l i = true → ∀ n, Answers (.timingSetWrite l i n v) s (fun t => t.f (F.lt_tstat_ts_busy l) = 1 ∧ Recorded .field 25 s t ∧
    ∀ a, PlainReg a → a ≠ R.lt_tstat l → t.reg a = s.reg a)) ∧
  (lsBusy s l j = false →
    (thrLegal v = true → NamedByNow s l →
      Answers (.levelSetWrite l j true v) s (fun t => t.reg (R.ls_thr l j) = v ∧ ConfigOnly [R.ls_thr l j] s t)) ∧
    (drvLegal v = true → NamedByNow s l → Answers (.levelSetWrite l j false v) s (fun t =>
      t.reg (R.ls_drv l j) = v &&& 0x0FFF0FFF#32 ∧ ConfigOnly [R.ls_drv l j] s t)) ∧
    (∀ b, (if b then thrLegal v else drvLegal v) = false → Answers (.levelSetWrite l j b v) s (fun t =>
      t.f (F.le_lstat_ls_rej l) = 1 ∧ RegsOnly [R.le_lstat l] s t))) ∧
  (lsBusy s l j = true → ∀ b, Answers (.levelSetWrite l j b v) s (fun t => t.f (F.le_lstat_ls_busy l) = 1 ∧ Recorded .field 35 s t ∧
    ∀ a, PlainReg a → a ≠ R.le_lstat l → t.reg a = s.reg a))

/-- R139, R141, R148, R150, R152, R153, R257: the lane configuration, which a parked lane whose engine is not armed takes up at once, or once
no walk holds it at DZ; the counters, which a clear leaves at what they counted in its own core cycle; the level monitor; equalisation: a
transmitter goes on with its old word up to the next UI boundary. -/
def Obligations.LaneControls : Prop := ∀ (s : State), Awake s →
  (∀ (l : PinLane) v, v.toNat % 4 = 3 → Answers (.laneCfgWrite l v) s (fun t => t.f (F.le_lstat_cfg_rej l) = 1 ∧ RegsOnly [R.le_lstat l] s t)) ∧
  (∀ (l : PinLane) v, v.toNat % 4 ≠ 3 → Answers (.laneCfgWrite l v) s (fun t =>
    let y := { s.laneOf l with
      loss := v.toNat / 256 % 2
      lossWr := some (coreNow s, match (s.laneOf l).lossWr with
        | some (c, w) => if c = coreNow s then w else (s.laneOf l).loss
        | none => (s.laneOf l).loss) }
    t.reg (R.le_cfg l) = v &&& 0x773#32 ∧
    t.laneOf l = (if parkedIdle s l then { y with
      mode := .parked, drv := if walkHeld s l then 2 else v.toNat % 4, park := v.toNat % 4, parkLvl := v.toNat / 16 % 8, condFrom := 0
      term := v.toNat / 512 % 2 } else y) ∧
    (∀ j, j ≠ l.val → t.laneOf j = s.laneOf j) ∧
    (∀ a, a ≠ R.le_cfg l → t.reg a = s.reg a) ∧ { t with regs := s.regs, lane := s.lane } = s)) ∧
  (∀ e : Eng, frozenLane s e = false → Answers (.counterClear e) s (fun t =>
    let b := if e.val < 512 then R.le_failLo e else R.xl_failLo (e - 512)
    (s.hw = [] → (∀ k, k < 4 → t.reg (b + 4 * k) = 0) ∧ t.reg (capReg e + 16) = 0) ∧
    t.pair b (b + 4) = s.hwSum ⟨b, 0, 32⟩ % 2 ^ 64 ∧ t.pair (b + 8) (b + 12) = s.hwSum ⟨b + 8, 0, 32⟩ % 2 ^ 64 ∧
    t.f ⟨capReg e + 16, 0, 32⟩ = s.hwSum ⟨capReg e + 16, 0, 32⟩ % 2 ^ 32 ∧ RegsOnly [b, b + 4, b + 8, b + 12, capReg e + 16] s t)) ∧
  (∀ (n : Room) v, s.on (F.mon_stat_busy n) = false → v.toNat / 4 % 8 < 5 → Answers (.monGo n v) s (fun t =>
    t.reg (R.mon_ctl n) = v &&& 0xFF1C#32 ∧ t.f (F.mon_stat_busy n) = 1 ∧ RegsOnly [R.mon_ctl n, R.mon_stat n] s t)) ∧
  (∀ (n : Room) v, s.on (F.mon_stat_busy n) = true ∨ 5 ≤ v.toNat / 4 % 8 → Answers (.monGo n v) s (fun t =>
    t.f (F.mon_stat_cmd_err n) = 1 ∧ t.f (F.mon_stat_busy n) = s.f (F.mon_stat_busy n) ∧ RegsOnly [R.mon_ctl n, R.mon_stat n] s t)) ∧
  (∀ (n : Room) uv, s.on (F.mon_stat_busy n) = true → s.on (F.mon_stat_stale n) = false → Answers (.monDone n uv) s (fun t =>
    t.reg (R.mon_result n) = uv ∧ t.f (F.mon_stat_done n) = 1 ∧ t.f (F.mon_stat_busy n) = 0 ∧ RegsOnly [R.mon_result n, R.mon_stat n] s t)) ∧
  (∀ (n : Room) uv, s.on (F.mon_stat_busy n) = true → Answers (.monDone n uv) s (fun t =>
    t.reg (R.mon_result n) = uv ∧ t.f (F.mon_stat_done n) = 1 ∧ t.f (F.mon_stat_busy n) = 0)) ∧
  (∀ (k : XLane) v, let amp := v.toNat / 2 ^ 16 % 2 ^ 7
    let x := s.engine (512 + k)
    (20 ≤ amp → amp ≤ 100 → v.toNat / 256 % 32 ≤ 24 → v.toNat % 32 ≤ 16 → Answers (.txeqWrite k v) s (fun t =>
      t.reg (R.xl_txeq k) = v &&& 0x7F1F1F#32 ∧
      t.laneOf (512 + k) = { s.laneOf (512 + k) with
        txWr := some (boundaryT x.set x.epoch (firstBoundary x.set x.epoch (t16Now s + 1)), txNow s k) } ∧
      (∀ j, j ≠ 512 + k.val → t.laneOf j = s.laneOf j) ∧ (∀ a, a ≠ R.xl_txeq k → t.reg a = s.reg a) ∧
      { t with regs := s.regs, lane := s.lane } = s)) ∧
    (amp < 20 ∨ 100 < amp ∨ 24 < v.toNat / 256 % 32 ∨ 16 < v.toNat % 32 → Answers (.txeqWrite k v) s (fun t =>
      t.f (F.xl_xstat_cfg_rej k) = 1 ∧ RegsOnly [R.xl_xstat k] s t))) ∧
  (∀ (k : XLane) v, Answers (.rxeqWrite k v) s (fun t => t.reg (R.xl_rxeq k) = v &&& 0x10F11#32 ∧
    t.f (F.xl_rxstat_ctle_now k) = (if v.getLsbD 4 || v.getLsbD 16 then ctleNow s k % 16 else v.toNat / 256 % 16) ∧
    (∀ i : Fin 8, t.f (F.dfe_tap_tap k i) = tapNow s k i % 2 ^ 8) ∧
    RegsOnly (R.xl_rxeq k :: R.xl_rxstat k :: (List.range 8).map (R.dfe_tap k)) s t))

/-- R154, R160, R161: rx_idle shows the receiver; a search takes the offset nearest 0 within its width, the negative one of two equal
distances; a slip moves a locked offset by one; a loss, and rx_idle, end synchronisation and count. -/
def Obligations.ExpressReceivers : Prop := ∀ (s : State) (k : XLane),
  let e := 512 + k.val
  let l := s.laneOf e
  Answers (.rxIdleChange k false) s (fun t => t.f (F.xl_xstat_rx_idle k) = 0 ∧ RegsOnly [R.xl_xstat k] s t) ∧
  (l.sync = none → Answers (.rxIdleChange k true) s (fun t => t.f (F.xl_xstat_rx_idle k) = 1 ∧ RegsOnly [R.xl_xstat k] s t)) ∧
  (l.sync.isSome = true → ∀ c, c = .syncLoss k ∨ c = .rxIdleChange k true → Answers c s (fun t =>
    t.laneOf e = { l with sync := none } ∧ (∀ j, j ≠ e → t.laneOf j = s.laneOf j) ∧ t.f (F.xl_xstat_sync k) = 1 ∧
    t.f (F.xl_xstat_lost k) = 1 ∧ t.f (F.xl_syncstat_loss_cnt k) = min (s.f (F.xl_syncstat_loss_cnt k) + 1) 255 ∧
    (∀ a, a ≠ R.xl_xstat k → a ≠ R.xl_syncstat k → t.reg a = s.reg a) ∧ { t with regs := s.regs, hw := s.hw, lane := s.lane } = s)) ∧
  (∀ (os : List Int) o, o ∈ os → o.natAbs ≤ searchWidth s k →
    (∀ x, x ∈ os → x.natAbs ≤ searchWidth s k → o.natAbs < x.natAbs ∨ (o.natAbs = x.natAbs ∧ o ≤ x)) →
    l.mode = .playing → l.sync = none → (s.engine e).set.cmpm % 2 = 1 →
    Answers (.syncAcquired k os) s (fun t => t.laneOf e = { l with sync := some o } ∧ (∀ j, j ≠ e → t.laneOf j = s.laneOf j) ∧
      t.f (F.xl_syncstat_offset k) = unsigned 7 o % 2 ^ 7 ∧ t.f (F.xl_xstat_sync k) = 2 ∧
      (∀ a, a ≠ R.xl_xstat k → a ≠ R.xl_syncstat k → t.reg a = s.reg a) ∧ { t with regs := s.regs, lane := s.lane } = s)) ∧
  (∀ o up, l.sync = some o → let o' := if up then o + 1 else o - 1
    Answers (.syncSlip k up) s (fun t => t.laneOf e = { l with sync := some o', slip := true } ∧ (∀ j, j ≠ e → t.laneOf j = s.laneOf j) ∧
      t.f (F.xl_syncstat_offset k) = unsigned 7 o' % 2 ^ 7 ∧ t.f (F.xl_xstat_slipped k) = 1 ∧
      t.f (F.xl_syncstat_slip_cnt k) = min (s.f (F.xl_syncstat_slip_cnt k) + 1) 65535 ∧
      (∀ a, a ≠ R.xl_xstat k → a ≠ R.xl_syncstat k → t.reg a = s.reg a) ∧ { t with regs := s.regs, hw := s.hw, lane := s.lane } = s))

/-- R156, R234, R235, R247: a retuned quad PLL that is locked, and has been for 256 reference cycles without a short period, reopens its
shutter; with no engine of the quad in a retune or a run, and no lane in its loss state, nothing else changes. -/
def Obligations.QuadReopens : Prop := ∀ (s : State) (q : Quad), s.on (F.xq_stat_retuning q) = true → pllOpen s (33 + q) = false →
  inSafe s = false → houseOpen s = true → (s.pllOf (33 + q)).qualAt + lockSpan s (33 + q) ≤ s.clk.now →
  (∀ f, f ∈ enginesOf (32 + q) → (s.engine f).retuneArm = false ∧ (s.engine f).retune = false ∧ running s f = false ∧
    (s.laneOf f).mode ≠ .lossState) →
  Answers (.quadReopen q) s (fun t => t.f (F.xq_stat_retuning q) = 0 ∧ t.f (F.pll_stat_open (33 + q)) = 1 ∧
    t.f (F.pll_stat_state (33 + q)) = 4 ∧ t.f (shutBit (33 + q)) = 1 ∧ t.eng = s.eng ∧ t.lane = s.lane)

/-- R143, R145, R146: a waiting record takes the next slot of its lane's region, is counted, and goes to the store with its granule; a
granule that nothing waits for is written as it stands. -/
def Obligations.Captures : Prop := ∀ (s : State) (e : Eng), running s e = false → (s.laneOf e).blk = none →
  let l := s.laneOf e
  (queued s e = [] → l.unwritten = true → Answers (.captureGranuleWrite e) s (fun t =>
    (∃ r : Req, t.ctl.reqs = s.ctl.reqs ++ [r] ∧ r.port = 50 ∧ r.cls = 1 ∧ r.gran = l.capBase + l.capG ∧ r.n = 1 ∧
      r.data = some (slotsGran l.slots)) ∧
    t.laneOf e = { l with unwritten := false } ∧ t.f ⟨capReg e + 20, 3, 1⟩ = 0)) ∧
  (∀ r, queued s e = [r] → l.capLen ≠ 0 → l.capWrap = false → l.capN < 4 * l.capLen → Answers (.captureGranuleWrite e) s (fun t =>
    (∃ q : Req, t.ctl.reqs = s.ctl.reqs ++ [q] ∧ q.port = 50 ∧ q.cls = 1 ∧ q.gran = l.capBase + l.capN / 4 % l.capLen ∧ q.n = 1 ∧
      q.data = some (slotsGran ((if l.capN % 4 = 0 then [] else l.slots) ++ [r]))) ∧
    (t.laneOf e).capN = l.capN + 1 ∧ (t.laneOf e).unwritten = false ∧ queued t e = [] ∧
    t.f ⟨capReg e + 12, 0, 32⟩ = (s.f ⟨capReg e + 12, 0, 32⟩ + 1) % 2 ^ 32 ∧ t.f ⟨capReg e + 20, 3, 1⟩ = 0))

/-- R38, R41, R137, R139, R141, R159, R162: a lane that does not play, or compares nothing, judges nothing; else a judged position, of the
play in progress or of one that has ended, adds one to the compare counter, and one to the fail counter where it fails. -/
def Obligations.Judgements : Prop := ∀ (s : State) (e : Eng),
  let m := (s.engine e).set.cmpm
  ((s.laneOf e).mode ≠ .playing ∨ m % 2 = 0 → ∀ its, Answers (.compareJudgement e its) s (fun t => t = s)) ∧
  ∀ (j : JPlay) (it : Judged), playFor s e it.pos = some j → (s.laneOf e).mode = .playing → (s.laneOf e).capLen = 0 →
  let top := 2 ^ 48 - 1
  m % 2 = 1 → m / 2 % 2 = 1 → m / 4 % 2 = 0 →
  (∀ d, e.val < 512 → judgedData s e j (it.pos / 128) = some d → 4 ≤ vcode d (it.pos % 128) % 8 →
    Answers (.compareJudgement e [it]) s (fun t =>
      let bad := vectorFails (vcode d (it.pos % 128) % 8) it.obs
      t.pair (R.le_cmpLo e) (R.le_cmpLo e + 4) = min (s.pair (R.le_cmpLo e) (R.le_cmpLo e + 4) + 1) top ∧
      t.pair (R.le_failLo e) (R.le_failLo e + 4) = min (s.pair (R.le_failLo e) (R.le_failLo e + 4) + bad.toNat) top ∧
      RegsOnly [R.le_cmpLo e, R.le_cmpLo e + 4, R.le_failLo e, R.le_failLo e + 4, R.le_lstat e] s t)) ∧
  (∀ r, 512 ≤ e.val → (s.laneOf e).sync.isSome = true → received s e it.obs = some r → compareCode s e j it.pos < 2 →
    (judgedData s e j (it.pos / 512)).isSome = true → Answers (.compareJudgement e [it]) s (fun t =>
      let k := e.val - 512
      let bad : Bool := decide (r ≠ compareCode s e j it.pos)
      t.pair (R.xl_cmpLo k) (R.xl_cmpLo k + 4) = min (s.pair (R.xl_cmpLo k) (R.xl_cmpLo k + 4) + 1) top ∧
      t.pair (R.xl_failLo k) (R.xl_failLo k + 4) = min (s.pair (R.xl_failLo k) (R.xl_failLo k + 4) + bad.toNat) top ∧
      RegsOnly [R.xl_cmpLo k, R.xl_cmpLo k + 4, R.xl_failLo k, R.xl_failLo k + 4, R.xl_xstat k] s t))

/-! ### Streaming -/

/-- R167, R170, R178: what firmware writes to a ring. An active ring takes no write; what a pointer held before the write is noted, for an
update by hardware in the same cycle. -/
def Obligations.RingWrites : Prop := ∀ (s : State) (r : Fin 256) (v : Word), Awake s →
  (ringActive s r = true → ∀ c, (c = .ringCfgWrite r v ∨ ∃ b, c = .ringPtrWrite r b v) → Answers c s (fun t =>
    t.f (F.ring_stat_wr_rej r) = 1 ∧ RegsOnly [R.ring_stat r] s t)) ∧
  (ringActive s r = false → v.getLsbD 31 = true → ringOk s v = false → Answers (.ringCfgWrite r v) s (fun t =>
    t.f (F.ring_stat_cfg_rej r) = 1 ∧ RegsOnly [R.ring_stat r] s t)) ∧
  (ringActive s r = false → v.getLsbD 31 = false ∨ (ringOk s v = true ∧ s.on (F.ring_cfg_en r) = true) →
    Answers (.ringCfgWrite r v) s (fun t => t.reg (R.ring_cfg r) = v &&& 0xE0FFFFFF#32 ∧ (∀ x, x ∈ t.parts → x.1 ≠ r.val) ∧
      (∀ a, a ≠ R.ring_cfg r → t.reg a = s.reg a) ∧ { t with regs := s.regs, parts := s.parts } = s)) ∧
  (∀ b : Bool, ringActive s r = false → let hw := s.ctl.hwPtr.any (fun x => x.1 == r.val && x.2.1 == b && x.2.2 == coreNow s)
    let a := if b then R.ring_wptr r else R.ring_rptr r
    (hw = false → Answers (.ringPtrWrite r b v) s (fun t => t.reg a = v ∧ (∀ y, y ≠ a → t.reg y = s.reg y) ∧
      (∀ x, x ∈ t.ctl.top ↔ x ∈ s.ctl.top ∧ (b = true → x.1 ≠ r.val)) ∧
      { t with regs := s.regs, ctl := { t.ctl with swPtr := s.ctl.swPtr, top := s.ctl.top } } = s)) ∧
    (hw = true → Answers (.ringPtrWrite r b v) s (fun t => t.f (F.ring_stat_wlost r) = 1 ∧ RegsOnly [R.ring_stat r] s t)))

/-- R168, R171: the next position of a ring from its producer is written to its slot and moves WPTR on, at once where its pseudo-channel
takes it, else as a request that waits at the ring's port (the model's choice, log entry 18); one out of order is dropped and counted; in a
restricted phase, or while the ring is disabled, everything is, and in a restricted phase one that an active segment holds is recorded
(R179). -/
def Obligations.StreamGranules : Prop := ∀ (s : State) (r : Fin 256) (p : Word) (src : StreamSrc) (d : Granule),
  Awake s →
  let x := ringDesc s r
  let wp := s.f (F.ring_wptr_p r)
  let rp := s.f (F.ring_rptr_p r)
  let drop := fun (b : FRef) (t : State) => t.f (F.ring_drop_n r) = min (s.f (F.ring_drop_n r) + 1) (2 ^ 32 - 1) ∧ t.f b = 1 ∧
    RegsOnly [R.ring_drop r, R.ring_stat r] s t
  (s.f F.rings_phase_phase ≠ 1 →
    (inActive s (slotGran s r p.toNat 0) = false → Answers (.streamGranule r p src [d]) s (fun t =>
      drop (F.ring_stat_phase_drop r) { t with ctl := s.ctl } ∧ { t.ctl with wrNow := s.ctl.wrNow } = s.ctl)) ∧
    (inActive s (slotGran s r p.toNat 0) = true → x.valid = true → Answers (.streamGranule r p src [d]) s (fun t =>
      t.f (F.ring_drop_n r) = min (s.f (F.ring_drop_n r) + 1) (2 ^ 32 - 1) ∧ t.f (F.ring_stat_phase_drop r) = 1 ∧
      Recorded .field 51 s t ∧ t.store = s.store))) ∧
  (s.f F.rings_phase_phase = 1 →
    (s.on (F.ring_cfg_en r) = false → Answers (.streamGranule r p src [d]) s (drop (F.ring_stat_dis_drop r))) ∧
    (s.on (F.ring_cfg_en r) = true →
      (fromProducer s r src = false → Answers (.streamGranule r p src [d]) s (drop (F.ring_stat_seq_err r))) ∧
      (fromProducer s r src = true → x.wlog2 = 0 → 0 ≤ ringLevel s r → strmTop s r = none →
        s.ctl.swPtr.find? (fun y => y.1 == r.val && y.2.1 && y.2.2.1 == coreNow s) = none →
        (p.toNat = wp → ringLevel s r < x.len → pcIdle s (slotGran s r wp 0) = false →
          Answers (.streamGranule r p src [d]) s (fun t => t.ctl.reqs = s.ctl.reqs ++ [strmReq s r wp 0 d] ∧
            strmTop t r = some ((wp + 1) % 2 ^ 32) ∧ { t with ctl := s.ctl } = s)) ∧
        (p.toNat = wp → ringLevel s r < x.len → pcIdle s (slotGran s r wp 0) = true →
          let l := leaderOf s (s.f (F.ring_cfg_engine r))
          l < 576 → (∀ m, m ∈ membersOf s l → running s m = false ∧ arming s m = false) →
          Answers (.streamGranule r p src [d]) s (fun t => t.f (F.ring_wptr_p r) = (wp + 1) % 2 ^ 32 ∧
            t.store = (writeGran s (slotGran s r wp 0) d).store ∧ t.granErr = (writeGran s (slotGran s r wp 0) d).granErr)) ∧
        (p.toNat ≠ wp → let rel := signed 32 ((p.toNat + 2 ^ 32 - rp) % 2 ^ 32)
          0 ≤ rel → rel < x.len → Answers (.streamGranule r p src [d]) s (drop (F.ring_stat_seq_err r))))))

/-- R172: a credit update reports RPTR and becomes the last report. -/
def Obligations.Credits : Prop := ∀ (s : State) (r : Fin 256), s.f F.rings_phase_phase = 1 → s.on (F.ring_cfg_en r) = true →
  (s.ctl.cred.find? (fun x => x.1 == r.val) = none ∨ (∃ v t, s.ctl.cred.find? (fun x => x.1 == r.val) = some (r.val, v, t) ∧
    0 < signed 32 ((s.f (F.ring_rptr_p r) + 2 ^ 32 - v) % 2 ^ 32) ∧
    (max 1 (s.f (F.ring_peer_credit_step r)) : Nat) ≤ signed 32 ((s.f (F.ring_rptr_p r) + 2 ^ 32 - v) % 2 ^ 32))) →
  Answers (.creditUpdate r) s (fun t =>
    t.ctl = { s.ctl with cred := s.ctl.cred.filter (fun x => x.1 != r.val) ++ [(r.val, s.f (F.ring_rptr_p r), none)] } ∧
    ∀ a, PlainReg a → t.reg a = s.reg a)

/-- R179, R180, R279: a request for a phase that its table allows acts in the next cycle, and otherwise sets req_err; factory test forces
TEST, and drops with req_err a request that acts in its cycle. The one command acts on each side that is not held in reset (the model's
choice, log entry 51). -/
def Obligations.Phases : Prop := ∀ (s : State) (req : Requester), Awake s →
  let u := advanceCycle s (coreNow s + 1)
  let ph := u.f F.rings_phase_phase
  let err := fun t : State => t.f F.rings_phase_req_err = 1 ∧ RegsOnly [R.rings_phase] u t
  let now := fun (n : Nat) (t : State) => t.f F.rings_phase_phase = n ∧ t.phaseAct = some (coreNow u) ∧
    (∀ a, a ≠ R.rings_phase → t.reg a = u.reg a) ∧ { t with regs := u.regs, phaseAct := u.phaseAct } = u
  (u.on F.rings_phase_test_forced = false →
    (req ≠ .firmware → 2 ≤ ph → (∀ r, r < 256 → u.on (F.ring_cfg_en r) = false) → Answers (.phaseReqNormal req) s (now 1)) ∧
    (req ≠ .firmware → ph = 1 → Answers (.phaseReqTest req) s (now 2)) ∧
    (ph = 1 ∨ ph = 2 → Answers (.phaseReqRecovery req) s (now 3))) ∧
  (u.on F.rings_phase_test_forced = true ∨ req = .firmware ∨ ph < 2 → Answers (.phaseReqNormal req) s err) ∧
  (u.on F.rings_phase_test_forced = true ∨ req = .firmware ∨ ph ≠ 1 → Answers (.phaseReqTest req) s err) ∧
  (u.on F.rings_phase_test_forced = true ∨ (ph ≠ 1 ∧ ph ≠ 2) → Answers (.phaseReqRecovery req) s err) ∧
  Answers .factoryTestEnter s (fun t => t.f F.rings_phase_phase = 2 ∧ t.f F.rings_phase_test_forced = 1 ∧ 
    t.boot = { s.boot with jtag := true, hjtag := s.boot.hjtag || !heldSide s .host } ∧
    (s.phaseAct = some (coreNow s) → t.f F.rings_phase_req_err = 1) ∧
    (∀ a, a ≠ R.rings_phase → t.reg a = s.reg a) ∧ { t with regs := s.regs, hw := s.hw, boot := s.boot } = s)

/-- R179, R310, R314, R315, R366: BAR2 over the store. An access that none precedes, to pseudo-channels that take it at once, is carried out
with its frames in one command; one that finds earlier accesses on their way, or a store that does not take it, goes as frames of its own
(the model's choice, log entry 50). -/
def Obligations.Aperture : Prop := ∀ (s : State) (off : BitVec 30), Awake s → aperOpen s = true →
  let a := s.f F.hif_aperBase_base * 2 ^ 20 + off.toNat
  (∀ n, settled s = true → a + n ≤ storeBytes → storeEarly s = false → aperIdle s a n = true → let x := readBytes (crossFrames s (piecesOf a n).length) a n
    (x.2.1 = false → Answers (.aperRead off n) s (fun t => t = aperReturn x.2.2 x.1 0)) ∧
    (x.2.1 = true → Answers (.aperRead off n) s (fun t => t = aperReturn (x.2.2.raise F.hif_aperStat_poisoned) (allOnes n) 1))) ∧
  (∀ n, settled s = true → storeBytes < a + n → Answers (.aperRead off n) s (fun t =>
    t.porch.aper = s.porch.aper ++ [(allOnes n, 2)] ∧ t.f F.hif_aperStat_range = 1 ∧ t.store = s.store)) ∧
  (∀ n, settled s = true → a + n ≤ storeBytes → storeEarly s = true → Answers (.aperRead off n) s (fun t =>
    t.porch.aper = s.porch.aper ++ [(allOnes n, 0)] ∧ t.f F.id_bootStat_early_acc = 1 ∧ t.store = s.store)) ∧
  (∀ n, settled s = true → a + n ≤ storeBytes → storeEarly s = false → aperIdle s a n = false → Answers (.aperRead off n) s (fun t =>
    t.porch.reads.length + t.porch.held.length = (piecesOf a n).length ∧ t.porch.aper = s.porch.aper ∧ t.store = s.store ∧ t.ctl = s.ctl)) ∧
  (∀ n, s.porch.held ≠ [] → Answers (.aperRead off n) s (fun t =>
    t.porch.held.length = s.porch.held.length + (piecesOf a n).length ∧ { t with porch := { t.porch with held := s.porch.held } } = s)) ∧
  (∀ ds : List (BitVec 8), a % 64 = 0 → ds.length % 64 = 0 → s.porch.held ≠ [] → Answers (.aperWrite off ds) s (fun t =>
    t.porch.held.length = s.porch.held.length + (piecesOf a ds.length).length ∧
    { t with porch := { t.porch with held := s.porch.held } } = s)) ∧
  (∀ ds : List (BitVec 8), a % 64 = 0 → ds.length % 64 = 0 → settled s = true → storeBytes < a + ds.length →
    Answers (.aperWrite off ds) s (fun t => t.f F.hif_aperStat_range = 1 ∧ t.store = s.store)) ∧
  (∀ ds : List (BitVec 8), settled s = true → a % 64 = 0 → ds.length = 64 → a + 64 ≤ storeBytes → storeEarly s = false →
    aperIdle s a 64 = true → s.f F.rings_phase_phase = 1 →
    (∀ r, r < 256 → ringActive s r = false) → Answers (.aperWrite off ds) s (fun t =>
      t.store = (writeGran s (a / 64) (granOf ds)).store ∧ t.granErr = (writeGran s (a / 64) (granOf ds)).granErr ∧
      ∀ b, PlainReg b → t.reg b = s.reg b)) ∧
  (∀ ds : List (BitVec 8), a % 64 ≠ 0 ∨ ds.length % 64 ≠ 0 → Answers (.aperWrite off ds) s (fun t =>
    t.f F.hif_aperStat_part_wr = 1 ∧ RegsOnly [R.hif_aperStat] s t))

/-! ### The hallway -/

/-- R185, R190-R192, R195, R196: what software and the trigger pins give the hallway: producers of a later cycle, changes of groups, where an
arm of a held group is ignored, and the reset of a timer. A late edge falls into the last beat of its core cycle. -/
def Obligations.HallwayInputs : Prop := ∀ (s : State), Awake s →
  let next := coreNow s + gridStep s
  (∀ v : Word, Answers (.swpulse v) s (fun t =>
    (∀ y, y ∈ t.hall.acts ↔ y ∈ s.hall.acts ∨ ∃ x, x < 32 ∧ v.getLsbD x = true ∧ y = (gridOf s next, 3008 + x)) ∧
    { t with hall := { t.hall with acts := s.hall.acts } } = s)) ∧
  (∀ g : Fin 16,
    (groupHeld s g = false → Answers (.groupArm g) s (fun t =>
      t.hall = { s.hall with chg := s.hall.chg ++ [(gridOf s (coreNow s) + gridStep s, g.val, true)] } ∧ { t with hall := s.hall } = s)) ∧
    (groupHeld s g = true → Answers (.groupArm g) s (fun t => t = s)) ∧
    Answers (.groupDisarm g) s (fun t =>
      t.hall = { s.hall with chg := s.hall.chg ++ [(gridOf s (coreNow s) + gridStep s, g.val, false)] } ∧ { t with hall := s.hall } = s)) ∧
  (∀ (i : Fin 32) v, Answers (.timerCfgWrite i v) s (fun t =>
    t.f (F.tmr_cfg_mode i) = v.toNat % 4 ∧ t.reg (R.tmr_cnt i) = 0 ∧ (∀ x, x ∈ t.hall.tmr → x.1 ≠ i.val) ∧
    (v.toNat % 4 ≠ 1 → ∀ x, x ∈ t.hall.tmrNext → x.1 ≠ i.val) ∧
    (v.toNat % 4 = 1 → ∃ k, (i.val, k) ∈ t.hall.tmrNext ∧ coreStart (coreNow s) ≤ tmrStartT s i + k * tmrPeriodT s i ∧
      ∀ j, j < k → tmrStartT s i + j * tmrPeriodT s i < coreStart (coreNow s)) ∧
    RegsOnly [R.tmr_cfg i, R.tmr_cnt i] { s with hall := t.hall } t)) ∧
  (∀ (i : Fin 16) (up late : Bool), let m := s.f (F.trigIn_cfg_edge i)
    let u := if late then advanceHouse s ((coreNow s + 1) * coreU - beatU) else s
    (m = 3 ∨ m = (if up then 1 else 2) → Answers (.trigInEdge i up late) s (fun t =>
      t.pair (R.trigIn_stampLo i) (R.trigIn_stampHi i) = beatsNow u ∧ t.f (F.trigIn_edges_n i) = (u.f (F.trigIn_edges_n i) + 1) % 2 ^ 32 ∧
      (gridOf u (coreNow u + (if late then 5 else 4)), 2880 + i.val) ∈ t.hall.acts ∧
      RegsOnly [R.trigIn_stampLo i, R.trigIn_stampHi i, R.trigIn_edges i] { u with hall := t.hall } t)) ∧
    (m ≠ 3 → m ≠ (if up then 1 else 2) → Answers (.trigInEdge i up late) s (fun t => t = s)))

/-- R195, R197, R198, R201: the instants of the hallway: a timer fires, a pulse ends, a timed edge is driven, and an import is taken,
merged, refused or applied. An event takes place at its instant: the model's choice, log entry 2. -/
def Obligations.HallwayInstants : Prop := ∀ (s : State), Awake s →
  (∀ (i : Fin 32) k, s.f (F.tmr_cfg_mode i) = 1 → s.hall.tmrNext.find? (fun x => x.1 == i.val) = some (i.val, k) →
    let c := coreOf (tmrStartT s i + k * tmrPeriodT s i)
    c ≤ coreNow s → Answers (.timerFire i) s (fun t => (gridOf s c, 2960 + i.val) ∈ t.hall.acts ∧ (i.val, k + 1) ∈ t.hall.tmrNext ∧
      t.f (F.tmr_cnt_n i) = (s.f (F.tmr_cnt_n i) + 1) % 2 ^ 32 ∧ RegsOnly [R.tmr_cnt i] { s with hall := t.hall } t)) ∧
  (∀ (i : Fin 32) u, s.f (F.tmr_cfg_mode i) = 2 → s.hall.tmr.find? (fun x => x.1 == i.val) = some (i.val, u) → u / coreU ≤ coreNow s →
    Answers (.timerFire i) s (fun t => (gridOf s (u / coreU), 2960 + i.val) ∈ t.hall.acts ∧ (∀ x, x ∈ t.hall.tmr → x.1 ≠ i.val) ∧
      t.f (F.tmr_cnt_n i) = (s.f (F.tmr_cnt_n i) + 1) % 2 ^ 32 ∧ RegsOnly [R.tmr_cnt i] { s with hall := t.hall } t)) ∧
  (∀ (i : Fin 16) u, ((s.hall.pins.filter (fun x => x.1 == i.val && x.2.2 != 0)).map (fun x => x.2.2)).min? = some u → u ≤ t16Now s →
    ∀ c, c = .trigOutPulseEnd i ∨ c = .timedTrigEnd i → Answers c s (fun t =>
      t.hall = { s.hall with pins := s.hall.pins.filter (fun x => !(x.1 == i.val && x.2.2 == u)) } ∧ { t with hall := s.hall } = s)) ∧
  (∀ (i : Fin 16) u, s.f (F.trigOut_cfg_mode i) = 3 → ((s.hall.timed.filter (fun x => x.1 == i.val)).map (·.2)).min? = some u →
    let b := u + 128 * 2 ^ 16 + s.f (F.trigOut_tofs_tofs i) * 2 ^ 8
    b ≤ t16Now s → (∀ x, x ∈ s.hall.pins → x.1 ≠ i.val) → (∀ x, x ∈ s.hall.fired → timedBy s x.1 x.2.1 i = false) →
    Answers (.timedTrigEdge i) s (fun t =>
      (i.val, b, b + max 8 (s.f (F.trigOut_timed_tw i)) * 2 ^ 16) ∈ t.hall.pins ∧ t.hall.timed = s.hall.timed.erase (i.val, u) ∧
      { t with hall := s.hall } = s)) ∧
  (∀ (h : House) (j : Fin 64) c,
    (eventsOk s = false → Answers (.eventPacket h j c) s (fun t => t.f (F.imp_stat_dropped j) = 1 ∧
      t.f (F.imp_drop_n j) = min (s.f (F.imp_drop_n j) + 1) (2 ^ 32 - 1) ∧ RegsOnly [R.imp_stat j, R.imp_drop j] s t)) ∧
    (eventsOk s = true → c ≤ coreNow s → s.on (F.imp_stat_late j) = false → Answers (.eventPacket h j c) s (fun t =>
      t.f (F.imp_stat_late j) = 1 ∧ t.f (F.imp_late_n j) = min (s.f (F.imp_late_n j) + 1) (2 ^ 32 - 1) ∧ Recorded .field 81 s t ∧
      (gridOf s (coreNow s + 1), 2896 + j.val) ∈ t.hall.acts)) ∧
    (eventsOk s = true → coreNow s < c → (s.hall.imp.contains (j.val, c) = true → Answers (.eventPacket h j c) s (fun t =>
        t.f (F.imp_stat_merged j) = 1 ∧ RegsOnly [R.imp_stat j] s t)) ∧
      (s.hall.imp.contains (j.val, c) = false → 8 ≤ (s.hall.imp.filter (fun x => x.1 == j.val)).length →
        Answers (.eventPacket h j c) s (fun t => t.f (F.imp_stat_ovf j) = 1 ∧
          t.f (F.imp_drop_n j) = min (s.f (F.imp_drop_n j) + 1) (2 ^ 32 - 1) ∧ RegsOnly [R.imp_stat j, R.imp_drop j] s t)) ∧
      (s.hall.imp.contains (j.val, c) = false → (s.hall.imp.filter (fun x => x.1 == j.val)).length < 8 →
        Answers (.eventPacket h j c) s (fun t => t.hall = { s.hall with imp := s.hall.imp ++ [(j.val, c)] } ∧ { t with hall := s.hall } = s)))) ∧
  (∀ (j : Fin 64) c, ((s.hall.imp.filter (fun x => x.1 == j.val)).map (·.2)).min? = some c → c ≤ coreNow s →
    Answers (.importApply j) s (fun t => (gridOf s c, 2896 + j.val) ∈ t.hall.acts ∧ (j.val, c) ∉ t.hall.imp ∧ { t with hall := s.hall } = s))

/-- R186-R188, R197: the arrivals that fall due are delivered: a task input sets its flag, and a TRIG_OUT input begins a pulse of its width
two cycles on. An event takes place at its instant: the model's choice, log entry 2. -/
def Obligations.HallwayDelivers : Prop := ∀ (s : State) (k n f : Nat), Awake s → nextArrival s = some k → k ≤ coreNow s →
  s.hall.due.filter (fun x => x.1 == k) = [(k, n, f)] →
  (∀ (e : Eng) (i : Fin 8), n = 8 * e.val + i.val → (s.engine e).arrCyc ≠ coreNow s → est s e ≠ stArmed → (s.engine e).cons = [] →
    Answers .hallwayDelivery s (fun t => let fl := s.f (F.eng_task_flag e)
      t.f (F.eng_task_flag e) = fl ||| 2 ^ i.val ∧
      t.f (F.eng_task_overlap e) = (if fl.testBit i then s.f (F.eng_task_overlap e) ||| 2 ^ i.val else s.f (F.eng_task_overlap e)) ∧
      t.hall = { s.hall with due := s.hall.due.filter (fun x => x.1 != k) } ∧ ∀ j, j ≠ e.val → t.engine j = s.engine j)) ∧
  (∀ i : Fin 16, n = 4608 + i.val → s.f (F.trigOut_cfg_mode i) = 1 → (∀ x, x ∈ oldPins s → x.1 ≠ i.val) →
    Answers .hallwayDelivery s (fun t => t.hall = { s.hall with
        due := s.hall.due.filter (fun x => x.1 != k)
        pins := oldPins s ++ [(i.val, coreStart (k + 2), coreStart (k + 2 + max 1 (s.f (F.trigOut_cfg_pw i))))] } ∧
      { t with hall := s.hall } = s))

/-- R187, R194, R278: as the cycles that wait are formed, a channel whose run reaches the storm limit disarms and holds its group, and an
active fault group disables the groups of its mask. An event takes place at its instant: the model's choice, log entry 2. -/
def Obligations.HallwayForms : Prop := ∀ (s : State) (c : Nat), Awake s → c = coreNow s →
  (∀ x, x ∈ s.hall.acts ++ s.hall.fgrp → x.1 = c) → s.hall.chg = [] →
  (∀ (f : Fin 16) (g : Fin 16), (c, f.val) ∈ s.hall.fgrp → s.on ⟨R.fgd_word f, g, 1⟩ = true → Answers (.faultGroupActive f) s (fun t =>
    t.f (F.grpStat_stat_fault_dis g) = 1 ∧ t.f (F.grpStat_stat_armed g) = 0)) ∧
  (∀ k : Fin 256, s.hall.fgrp = [] → s.hall.acts ≠ [] → k.val ∈ channelsOf s c (s.hall.acts.map (·.2)) →
    runLen s c k = stormLimit s + 1 → Answers (.stormDetect k) s (fun t =>
    t.f (F.grpStat_stat_storm (k.val / 16)) = 1 ∧ t.f (F.grpStat_stat_armed (k.val / 16)) = 0))

/-! ### The pattern store -/

/-- R206-R208, R228: a pseudo-channel whose stack serves grants its waiting request: a write is stored; a stack that admits nothing grants
nothing; every request past its age limit is promoted. An event whose condition does not hold changes nothing: the model's choice, log entry
3. -/
def Obligations.StoreGrants : Prop := ∀ (s : State) (pc : PChan),
  (∀ (r : Req) d, s.ctl.reqs = [r] → stackUp s (pc / 64) = true → pcOfGran r.gran = pc → r.data = some d → r.use = 0 → r.n = 1 →
    overAge s r = false → s.porch.wait = [] → (∀ e, e ∈ s.eng.map (·.1) → engaged s e = false) → Answers (.storeGrant pc) s (fun t => t.ctl.reqs = [] ∧ t.store = (writeGran s r.gran d).store ∧ errOf t r.gran = 0 ∧ t.eng = s.eng ∧
      ∀ a, PlainReg a → t.reg a = s.reg a)) ∧
  (stackUp s (pc / 64) = false → Answers (.agePromotion pc) s (fun t => t = s) ∧
    (s.porch.wait = [] ∨ (∃ r, r ∈ s.ctl.reqs ∧ r.use = 3) → Answers (.storeGrant pc) s (fun t => t = s))) ∧
  (∀ u, stackUp s (pc / 64) = true → ((s.ctl.reqs.filter (fun r => pcOfGran r.gran == pc.val && decide (r.cls < 2) && !r.promo)).map
      (fun r => r.entered + ageLimit s r.cls + 1)).min? = some u → u ≤ s.clk.now → Answers (.agePromotion pc) s (fun t =>
    t.ctl.reqs = s.ctl.reqs.map (fun r => if pcOfGran r.gran = pc ∧ overAge s r then { r with promo := true } else r) ∧
    t.store = s.store ∧ t.eng = s.eng))

/-- R211-R216: refreshes and open rows. A refresh that falls due closes its bank, unless an RT request waits for it: then it is owed, and
the fourth owed one is forced. An event whose condition does not hold changes nothing: the model's choice, log entry 3. An event takes place
at its instant: the model's choice, log entry 2. -/
def Obligations.StoreRefresh : Prop := ∀ (s : State) (pc : PChan) (b : Bank),
  let k := bankNo pc b
  let st := pc.val / 64
  let row := fun (u : State) (j : Nat) => tget (fun _ => 0) u.ctl.openRow j
  let closed := fun (t : State) => row t k = 0 ∧ ∀ j, j ≠ k → row t j = row s j
  (stackUp s st = true → bankBusy s k = false → Answers (.refreshDue pc b) s (fun t => closed t ∧ { t with ctl := s.ctl } = s)) ∧
  (stackUp s st = true → bankBusy s k = true → owedOf s k < 3 → Answers (.refreshDue pc b) s (fun t => owedOf t k = owedOf s k + 1 ∧
    t.f (F.stRef_stat_owed_max st) = max (owedOf s k + 1) (s.f (F.stRef_stat_owed_max st)) ∧
    (∀ a, a ≠ R.stRef_stat st → t.reg a = s.reg a) ∧ { t with regs := s.regs, ctl := s.ctl } = s)) ∧
  (stackUp s st = true → bankBusy s k = true → owedOf s k = 3 → Answers (.refreshDue pc b) s (fun t => owedOf t k = 3 ∧ closed t ∧
    t.f (F.stRef_stat_forced st) = min (s.f (F.stRef_stat_forced st) + 1) 65535 ∧ ∀ a, PlainReg a → a ≠ R.stRef_stat st → t.reg a = s.reg a)) ∧
  (stackUp s st = true → bankBusy s k = false → 0 < owedOf s k → Answers (.owedRefresh pc b) s (fun t => owedOf t k = owedOf s k - 1 ∧
    closed t ∧ { t with ctl := s.ctl } = s)) ∧
  (∀ (r : Fin 16384) x, nextPair s pc b r = some x → Answers (.neighbourRefresh pc b r) s (fun t =>
    t.ctl.pairs = s.ctl.pairs.erase x ∧ closed t ∧ t.f (F.rhCnt_n_n st) = min (s.f (F.rhCnt_n_n st) + 1) (2 ^ 32 - 1) ∧
    ∀ a, PlainReg a → a ≠ R.rhCnt_n st → t.reg a = s.reg a)) ∧
  Answers (.refreshWindowEnd pc b) s (fun t => t.ctl = { s.ctl with rows := s.ctl.rows.filter (fun x => x.1 != k) } ∧ { t with ctl := s.ctl } = s) ∧
  (row s k ≠ 0 → (∀ r, r ∈ s.ctl.reqs → reqBank r ≠ k) → tget (fun _ => 0) s.ctl.lastUse k + nsU (s.f F.st_page_idle) ≤ s.clk.now →
    Answers (.rowIdleClose pc b) s (fun t => closed t ∧ { t with ctl := s.ctl } = s)) ∧
  (∀ (i : Stack) (c : Int), Answers (.stackTempRead i c true) s (fun t => t.f (F.stTemp_word_stale i) = 1 ∧
      t.f (F.stTemp_word_temp i) = s.f (F.stTemp_word_temp i) ∧ RegsOnly [R.stTemp_word i] s t) ∧
    Answers (.stackTempRead i c false) s (fun t => t.f (F.stTemp_word_stale i) = 0 ∧ t.f (F.stTemp_word_temp i) = unsigned 16 c % 2 ^ 16 ∧
      (1360 < c → t.f (F.stRef_stat_halved i) = 1) ∧ (c < 1280 → t.f (F.stRef_stat_halved i) = 0) ∧
      (1280 ≤ c → c ≤ 1360 → s.ctl.tempOk.contains i.val = true → t.f (F.stRef_stat_halved i) = s.f (F.stRef_stat_halved i)) ∧
      (∀ a, a ≠ R.stTemp_word i → a ≠ R.stRef_stat i → t.reg a = s.reg a)))

/-- R179, R219-R222: a corrected granule is written back, unless the check of R179 drops the write; a spared row's copy takes its place, with
its corrected data written corrected and an uncorrectable granule as poison, and the patrol scrub reads on. -/
def Obligations.StoreCorrections : Prop := ∀ (s : State),
  (∀ g, s.ctl.wb.contains g = true → stackUp s (stackOfGran g) = true → errOf s g = 1 →
    (writeCheck s 51 g = none → Answers (.ceWriteback g) s (fun t =>
      errOf t g = 0 ∧ t.ctl.wb = s.ctl.wb.filter (· != g) ∧ t.store = s.store ∧ t.regs = s.regs)) ∧
    (writeCheck s 51 g ≠ none → Answers (.ceWriteback g) s (fun t =>
      errOf t g = 1 ∧ t.ctl.wb = s.ctl.wb.filter (· != g) ∧ t.store = s.store ∧ ∀ a, PlainReg a → t.reg a = s.reg a))) ∧
  (∀ (pc : PChan) (b : Bank) (row : Fin 16384), let r := rowNo pc b row
    s.ctl.copying.contains r = true → stackUp s (pc / 64) = true → heldSide s .field = false →
      ((∀ g, g ∈ rowGrans pc b row → errOf s g = 0 ∨ errOf s g = 3) → Answers (.rowRemap pc b row) s (fun t =>
        t.ctl.remap = s.ctl.remap ++ [r] ∧ t.ctl.copying = s.ctl.copying.filter (· != r) ∧ Recorded .field 66 s t ∧
        t.f (F.ecc_spare_used (pc / 64)) = min (s.f (F.ecc_spare_used (pc / 64)) + 1) 255 ∧ t.granErr = s.granErr)) ∧
      Answers (.rowRemap pc b row) s (fun t => t.store = s.store ∧ ∀ g, g ∈ rowGrans pc b row →
        errOf t g = if errOf s g = 1 ∨ errOf s g = 4 then 0 else if errOf s g = 2 then 3 else errOf s g)) ∧
  (∀ g, s.f F.st_scrub_period ≠ 0 → s.ctl.scrub = g → g < storeGranules → stackUp s (stackOfGran g) = true → s.f F.pwr_stat_state = 0 →
    errOf s g = 0 ∨ errOf s g = 3 → Answers (.scrubRead g) s (fun t => t.ctl.scrub = (g + 1) % storeGranules ∧
      t.ctl.reqs = s.ctl.reqs ∧ t.ctl.wb = s.ctl.wb ∧ t.store = s.store ∧ t.granErr = s.granErr ∧ ∀ a, PlainReg a → t.reg a = s.reg a))

/-- R223-R225, R227: a gathering pass and an operating-point change exclude each other: the pass defers the change, and after 2 ms the
change aborts the pass. The 25 us of an operating-point change are the model's choice, log entry 22. -/
def Obligations.StoreTraining : Prop := ∀ (s : State), Awake s →
  (s.on F.st_trainStat_pass_busy = false → s.f F.st_opStat_state ≠ 2 → (∀ u, s.train.nextAt = some u → u ≤ s.clk.now) → Answers .trainPassStart s (fun t =>
    t.f F.st_trainStat_pass_busy = 1 ∧ t.train = { s.train with passAt := s.clk.now, nextAt := none } ∧
    (∀ a, a ≠ R.st_trainStat → t.reg a = s.reg a) ∧ { t with regs := s.regs, train := s.train } = s)) ∧
  (∀ c : DelayCentre, c.word.val < 2304 → s.on F.st_trainStat_pass_busy = true → s.f F.st_opStat_state = 0 →
    let x := s.f F.st_stat_point
    let old : Int := s.f (F.dly_word_delay x c.stack c.word)
    let w : Int := s.f F.st_trainCtl_window
    (old - w ≤ c.centre → c.centre ≤ old + w → 0 ≤ c.centre → c.centre ≤ 255 → Answers (.trainPassComplete [c]) s (fun t =>
      t.f F.st_trainStat_pass_busy = 0 ∧ (t.f (F.dly_word_delay x c.stack c.word) : Int) = c.centre ∧ t.f F.st_opStat_state = 0)) ∧
    (c.centre < old - w ∨ old + w < c.centre → Answers (.trainPassComplete [c]) s (fun t =>
      t.f F.st_trainStat_pass_busy = 0 ∧ t.f F.st_trainStat_out_of_window = 1 ∧ Recorded .field 67 s t ∧
      (t.f (F.dly_word_delay x c.stack c.word) : Int) = old))) ∧
  (s.on F.st_trainStat_pass_busy = true → s.f F.st_opStat_state = 1 → s.train.reqAt + 2000 * usU ≤ s.clk.now →
    s.train.chgTo = s.f F.st_stat_point → Answers .trainPassAbort s (fun t => t.f F.st_trainStat_pass_busy = 0 ∧
      t.f F.st_trainStat_aborted = 1 ∧ t.f F.st_opStat_state = 0 ∧ Recorded .field 68 s t)) ∧
  Answers .trainLock s (fun t => t.f F.st_trainCtl_lock = 1 ∧ RegsOnly [R.st_trainCtl] s t) ∧
  (∀ p : Fin 4, let op := fun (t : State) => t.f F.st_opCtl_point = p.val
    (s.f F.st_opStat_state = 2 → Answers (.opGo p) s (fun t => op t ∧ t.f F.st_opStat_req_err = 1 ∧ RegsOnly [R.st_opCtl, R.st_opStat] s t)) ∧
    (s.f F.st_opStat_state = 0 → p.val = s.f F.st_stat_point → Answers (.opGo p) s (fun t => op t ∧ RegsOnly [R.st_opCtl] s t)) ∧
    (s.f F.st_opStat_state = 0 → p.val ≠ s.f F.st_stat_point → s.on F.st_trainStat_pass_busy = true → Answers (.opGo p) s (fun t =>
      op t ∧ t.f F.st_opStat_state = 1 ∧ t.train = { s.train with reqAt := s.clk.now, chgTo := p } ∧
      (∀ a, a ∉ [R.st_opCtl, R.st_opStat] → t.reg a = s.reg a))) ∧
    (s.f F.st_opStat_state = 1 → Answers (.opGo p) s (fun t => op t ∧ t.train = { s.train with chgTo := p } ∧
      RegsOnly [R.st_opCtl] { s with train := t.train } t)) ∧
    (s.f F.st_opStat_state = 0 → p.val ≠ s.f F.st_stat_point → s.on F.st_trainStat_pass_busy = false → inSafe s = false →
      (∀ k, k < 4 → pllOpen s (49 + k) = true ∨ (s.pllOf (49 + k)).lossOpen = false) → Answers (.opGo p) s (fun t =>
      op t ∧ t.f F.st_opStat_state = 2 ∧ t.f F.st_stat_avail = 0 ∧ t.train = { s.train with chgAt := s.clk.now, chgTo := p } ∧
      (∀ k, k < 4 → t.f (F.pll_stat_open (49 + k)) = 0 ∧ t.f (F.pll_stat_state (49 + k)) = 2 ∧ t.f (F.pll_stat_planned (49 + k)) = 1)))) ∧
  (s.f F.st_opStat_state = 2 → inSafe s = false → changeEnd s ≤ s.clk.now → Answers .opChangeComplete s (fun t =>
    t.f F.st_opStat_state = 0 ∧ t.f F.st_stat_point = s.train.chgTo % 4 ∧ t.ctl.chg = [] ∧ t.store = s.store ∧
    (∀ k, k < 4 → s.on (F.pll_stat_planned (49 + k)) = true → t.f (F.pll_stat_open (49 + k)) = 1 ∧ t.f (F.pll_stat_state (49 + k)) = 4) ∧
    ∀ k : Stack, s.ctl.chg.contains k.val = true → stackUp t k = true ∧ k.val ∉ t.ctl.srf ∧
      ∀ b, b / 48 / 64 = k.val → owedOf t b = 0 ∧ tget (fun _ => 0) t.ctl.openRow b = 0))

/-! ### Clocks, house time and the epoch -/

/-- R231, R234, R236, R239, R246: a search ends in lock, then in an open shutter; one that takes too long is a loss with cause QUAL_TIMEOUT; a
reference that returns starts a search; a short period behind a closed shutter restarts qualification; the host tile's PLLs, ids 61 and 62
(the model's choice, log entry 52), lock again. An event whose condition does not
hold changes nothing: the model's choice, log entry 3. -/
def Obligations.ClockSearches : Prop := ∀ (s : State) (id : PllId), heldSide s .field = false → inSafe s = false →
  (∀ (band : BitVec 6) (dev : Int), s.f (F.pll_stat_state id) = 2 → Answers (.pllLock id band dev) s (fun t =>
    t.f (F.pll_stat_state id) = 3 ∧ t.f (F.pll_stat_band id) = band.toNat ∧ (t.pllOf id).qualAt = s.clk.now ∧
    (∀ j, j ≠ id.val → t.pllOf j = s.pllOf j) ∧
    (if id.val = 0 ∧ (dev < -300 ∨ 300 < dev) then
      t.f F.clk_refStat_ratio_rej = 1 ∧ (t.pllOf 0).rangeHold = true ∧ Recorded .field 3 s t
    else RegsOnly [R.pll_stat id] { s with pll := t.pll } t))) ∧
  (s.f (F.pll_stat_state id) = 3 → (s.pllOf id).rangeHold = false → refPresent s id = true →
    (s.pllOf id).qualAt + lockSpan s id ≤ s.clk.now → (∀ q : Quad, id.val = 33 + q.val → s.f (F.xq_stat_retuning q) = 0) → s.stalled = [] →
    Answers (.shutterOpen (id.castLE (by decide))) s (fun t => t.f (F.pll_stat_open id) = 1 ∧ t.f (shutBit id) = 1 ∧ t.f (F.pll_stat_state id) = 4 ∧
      t.f (F.pll_stat_planned id) = 0 ∧ (id.val = 0 → t.clk.started = true ∧ t.f F.clk_oscStat_valid = 1))) ∧
  (pllOpen s id = false → (s.pllOf id).wait = 1 → (s.pllOf id).rangeHold = false →
    (s.pllOf id).since + pllBound id * usU ≤ s.clk.now → Answers (.qualTimeout id) s (fun t =>
      t.f (F.pll_stat_cause id) = 4 ∧ t.f (F.pll_stat_lost id) = 1 ∧ t.f (F.pll_stat_open id) = 0 ∧
      t.f (F.src_stat_active .field 1) = 1 ∧ t.f (F.src_stat_count .field 1) = min (s.f (F.src_stat_count .field 1) + 1) 65535)) ∧
  (s.f (F.pll_stat_state id) = 1 → (id.val ≠ 0 → houseOpen s = true) → Answers (.referencePresent id) s (fun t =>
    t.f (F.pll_stat_state id) = 2 ∧ (t.pllOf id).wait = 1 ∧ (t.pllOf id).since = s.clk.now ∧ (t.pllOf id).rangeHold = false ∧
    (if id.val = 0 then t.f F.clk_refStat_present = 1 ∧ t.f F.clk_refStat_in_window = 1
    else RegsOnly [R.pll_stat id] { s with pll := t.pll } t))) ∧
  Answers (.overfreqWhileClosed id) s (fun t => { t with pll := s.pll } = s ∧ (∀ j, j ≠ id.val → t.pllOf j = s.pllOf j) ∧
    t.pllOf id = (if pllOpen s id then s.pllOf id else { s.pllOf id with qualAt := s.clk.now })) ∧
  (s.boot.pcieLost = true → Answers (.shutterOpen 61) s (fun t => t.boot = { s.boot with pcieLost := false } ∧
    t.porch = { s.porch with pcie := endpointOn { s with boot := t.boot } } ∧ { t with boot := s.boot, porch := s.porch } = s)) ∧
  Answers (.shutterOpen 62) s (fun t => t = { s with boot := { s.boot with hcoreLost := false } })

/-- R232, R237-R240, R243, R245, R246: a loss closes the PLL's shutter and is recorded; so is the loss of a PLL of the host tile, ids 61 and
62, of which the first resets the endpoint (the model's choice, log entry 52); an accepted apply closes the house; the stacks' fallback
path; an oscillator beyond 10 % is fatal. An event whose condition does not hold changes nothing: the model's choice, log entry 3. -/
def Obligations.ClockLosses : Prop := ∀ (s : State),
  (∀ (id : PllId) (c : LossCause), heldSide s .field = false → inSafe s = false →
    (lostNow s id = false → detects s id c = true → Answers (.pllLoss (id.castLE (by decide)) c) s (fun t =>
      let n := if c = .refLoss then 2 else 1
      t.f (F.pll_stat_open id) = 0 ∧ t.f (shutBit id) = 0 ∧ t.f (F.pll_stat_cause id) = lossCode c ∧ t.f (F.pll_stat_lost id) = 1 ∧
      t.f (F.src_stat_active .field n) = 1 ∧ t.f (F.src_stat_count .field n) = min (s.f (F.src_stat_count .field n) + 1) 65535 ∧
      (id.val = 0 → t.f F.time_stat_valid = 0 ∧ (pllOpen s 0 = true → t.f F.time_stat_gap = 1)))) ∧
    (lostNow s id = false → detects s id c = false → Answers (.pllLoss (id.castLE (by decide)) c) s (fun t => t = s))) ∧
  (∀ c : LossCause, heldSide s .host = false →
    (s.boot.pcieLost = false → Answers (.pllLoss 61 c) s (fun t => t.boot = { s.boot with pcieLost := true } ∧ t.porch.pcie = false ∧
      t.dma = [] ∧ Recorded .host 2 s t)) ∧
    (s.boot.hcoreLost = false → Answers (.pllLoss 62 c) s (fun t => t.boot = { s.boot with hcoreLost := true } ∧ Recorded .host 2 s t))) ∧
  (Awake s → pllOpen s 0 = true → inSafe s = false →
    let m := s.f F.clk_refMul_n
    let d := s.f F.clk_refDiv_d
    let busy := ∃ e : Eng, active3 s e = true ∨ arming s e = true
    (¬ busy → validRatio m d = true → Answers .refApply s (fun t => t.clk.mul = m ∧ t.clk.div = d ∧ houseOpen t = false ∧
      t.f (F.pll_stat_planned 0) = 1 ∧ t.f F.time_stat_valid = 0 ∧ t.f F.time_stat_gap = 1)) ∧
    (busy ∨ validRatio m d = false → Answers .refApply s (fun t => (busy → t.f F.clk_refStat_apply_err = 1) ∧
      (m < 8 ∨ d = 0 ∨ m < 8 * d ∨ 640 * d < m → t.f F.clk_refStat_ratio_rej = 1) ∧ RegsOnly [R.clk_refStat] s t))) ∧
  (∀ st : Stack,
    (pllOpen s (49 + st) = false ∨ houseOpen s = false → Answers (.stackSelfRefresh st) s (fun t =>
      (∀ k, k ∈ t.ctl.srf ↔ k = st.val ∨ k ∈ s.ctl.srf) ∧ { t with ctl := { t.ctl with srf := s.ctl.srf } } = s)) ∧
    (pllOpen s (49 + st) = true → houseOpen s = true → Answers (.stackSelfRefresh st) s (fun t => t = s)) ∧
    (pllOpen s (49 + st) = true → houseOpen s = true → stackUp s st = false → s.f F.st_opStat_state = 0 → inSafe s = false →
      (∀ b, b ∈ s.boot.resets → b ≠ .stack st) →
      Answers (.storeRecoveryGather ⟨st, []⟩) s (fun t => stackUp t st = true ∧
        st.val ∉ t.ctl.srf ∧ (∀ k, k / 48 / 64 = st.val → owedOf t k = 0) ∧ RegsOnly [R.st_stat] { s with ctl := t.ctl } t) ∧
      ∀ c : DelayCentre, c.stack = st → c.word.val < 2816 → 0 ≤ c.centre → c.centre ≤ 255 →
        let old : Int := s.f (F.dly_word_delay (s.f F.st_stat_point) st c.word)
        old - s.f F.st_trainCtl_window ≤ c.centre → c.centre ≤ old + s.f F.st_trainCtl_window →
        Answers (.storeRecoveryGather ⟨st, [c]⟩) s (fun t => stackUp t st = true ∧
          (t.f (F.dly_word_delay (s.f F.st_stat_point) st c.word) : Int) = c.centre))) ∧
  (∀ (sd : Side) (dev : Int),
    (-1000 ≤ dev → dev ≤ 1000 → sd = .host ∨ houseOpen s = false → Answers (.oscFail sd dev) s (fun t => t = s)) ∧
    (-1000 ≤ dev → dev ≤ 1000 → sd = .field → houseOpen s = true → heldSide s .field = false → Answers (.oscFail sd dev) s (fun t =>
      t.f F.clk_oscStat_dev = unsigned 16 dev % 2 ^ 16 ∧ RegsOnly [R.clk_oscStat] s t)) ∧
    (dev ≤ -10000 → Answers (.oscFail sd dev) s (fun t => (t.flt sd).dead = true ∧ t.f (F.flt_stat_fatal sd) = s.f (F.flt_stat_fatal sd))) ∧
    (-10000 < dev → dev < -1000 ∨ 1000 < dev → heldSide s sd = false → Answers (.oscFail sd dev) s (fun t => (t.flt sd).fatalOn = true ∧
      t.f (F.src_stat_active sd 0) = 1 ∧ t.f (F.flt_stat_fatal sd) = 1 ∧ t.f (F.flt_fatalSrc_valid sd) = 1)))

/-- R110, R112-R115: the epoch's commands: which change becomes the pending one, what a SYNC edge gives it, and what its apply time
leaves. -/
def Obligations.Epochs : Prop := ∀ (s : State), Awake s →
  let src := s.f F.time_epochCtl_src
  let a := applyReg s
  (2 ≤ src → Answers .epochGo s (fun t => t.f F.time_epochStat_cmd_err = 1 ∧ RegsOnly [R.time_epochStat] s t)) ∧
  (src < 2 → actedNow s .fabric = true → Answers .epochGo s (fun t => t.f F.time_epochStat_replaced = 1 ∧ RegsOnly [R.time_epochStat] s t)) ∧
  (src = 1 → actedNow s .fabric = false → s.epoch = none → Answers .epochGo s (fun t =>
    t.epoch = some ⟨0, a, false, s.on F.time_epochCtl_bcast⟩ ∧ t.f F.time_epochStat_state = 1 ∧
    RegsOnly [R.time_epochStat] { s with epoch := t.epoch, epochWas := t.epochWas } t)) ∧
  (src = 0 → actedNow s .fabric = false → s.epoch = none → s.on F.time_epochCtl_bcast = false →
    (beatsNow s + 6400 ≤ a → Answers .epochGo s (fun t =>
      t.epoch = some ⟨s.pair R.time_newLo R.time_newHi * 2 ^ 16 + s.f F.time_newFrac_frac, a, false, false⟩ ∧
      t.f F.time_epochStat_state = 2 ∧ RegsOnly [R.time_epochStat] { s with epoch := t.epoch, epochWas := t.epochWas } t)) ∧
    (a < beatsNow s + 6400 → Answers .epochGo s (fun t => t.f F.time_epochStat_late = 1 ∧
      RegsOnly [R.time_epochStat] { s with epochWas := t.epochWas } t))) ∧
  (actedNow s .edge = true → Answers .epochCancel s (fun t => t.epoch = none ∧ t.f F.time_epochStat_state = 0 ∧
    t.f F.time_epochStat_cancel_res = 2)) ∧
  (s.epoch = none → actedNow s .edge = false →
    Answers .epochCancel s (fun t => t.f F.time_epochStat_cancel_res = 3 ∧ RegsOnly [R.time_epochStat] s t)) ∧
  (∀ p, s.epoch = some p →
    (s.f F.time_epochStat_state ≠ 2 ∨ coreNow s < coreOf (absT s p.applyAt) → actedNow s .edge = false →
      Answers .epochCancel s (fun t => t.epoch = none ∧
        t.f F.time_epochStat_state = 0 ∧ t.f F.time_epochStat_cancel_res = 2 ∧ RegsOnly [R.time_epochStat] { s with epoch := none } t)) ∧
    (s.f F.time_epochStat_state = 2 → coreOf (absT s p.applyAt) ≤ coreNow s → Answers .epochApply s (fun t => t.epoch = none ∧
      t.pair R.time_epochLo R.time_epochHi = p.value / 2 ^ 16 % 2 ^ 64 ∧ t.f F.time_epochFrac_frac = p.value % 2 ^ 16 ∧
      t.f F.time_epochStat_applied = 1 ∧ t.f F.time_epochStat_state = 0 ∧ t.f F.time_epochStat_from_fabric = bit p.fab ∧
      (gridOf s (coreOf (absT s p.applyAt)), 3041) ∈ t.hall.acts)) ∧
    (s.f F.time_epochStat_state = 1 → p.bcast = false → ∀ frac : BitVec 8,
      let stamp := beatsNow s * 256 + frac.toNat
      (stamp * 3 + 6400 * 256 * 3 ≤ p.applyAt * 256 * 3 → Answers (.syncEdge frac) s (fun t => t.f F.time_epochStat_state = 2 ∧
        t.epoch = some { p with value := unsigned 80 (((stamp : Int) - signed 32 (s.f F.time_syncDelay_delay)) * 256) })) ∧
      (p.applyAt * 256 * 3 < stamp * 3 + 6400 * 256 * 3 → Answers (.syncEdge frac) s (fun t => t.epoch = none ∧
        t.f F.time_epochStat_state = 0 ∧ t.f F.time_epochStat_late = 1)))) ∧
  (s.epoch = none → ∀ frac : BitVec 8, Answers (.syncEdge frac) s (fun t =>
    t.pair R.time_syncCapLo R.time_syncCapHi = beatsNow s ∧ t.f F.time_syncCapFrac_frac = frac.toNat * 256 ∧
    t.f F.time_syncCapFrac_count = (s.f F.time_syncCapFrac_count + 1) % 2 ^ F.time_syncCapFrac_count.w ∧
    (gridOf s (coreNow s + 4), 3040) ∈ t.hall.acts)) ∧
  (∀ (h : House) (at_ beats : BitVec 64) (frac : BitVec 16),
    (s.on F.fab_stat_guest = true → Answers (.epoch h at_ beats frac) s (fun t => t = s)) ∧
    (s.on F.fab_stat_guest = false → actedNow s .go = true → Answers (.epoch h at_ beats frac) s (fun t =>
      t.f F.time_epochStat_replaced = 1)) ∧
    (s.on F.fab_stat_guest = false → actedNow s .go = false → s.epoch = none → beatsNow s < at_.toNat → Answers (.epoch h at_ beats frac) s (fun t =>
      t.epoch = some ⟨beats.toNat * 2 ^ 16 + frac.toNat, at_.toNat, true, false⟩ ∧ t.f F.time_epochStat_state = 2 ∧
      RegsOnly [R.time_epochStat] { s with epoch := t.epoch, epochWas := t.epochWas } t)) ∧
    (s.on F.fab_stat_guest = false → actedNow s .go = false → at_.toNat ≤ beatsNow s → Answers (.epoch h at_ beats frac) s (fun t =>
      t.f F.time_epochStat_late = 1 ∧ RegsOnly [R.time_epochStat] { s with epochWas := t.epochWas } t)))

/-! ### Calibration -/

/-- R248, R249, R252-R256, R259-R262: the commands of background calibration and path deskew: a walk from its beginning to its end, an
exchange of a trim, a declaration, pause, host full walks, and a deskew. The readings of log entry 25 are the model's. -/
def Obligations.Calibration : Prop := ∀ (s : State), Awake s →
  (∀ (t : TableId) rd, walkMay s t = true → Answers (.walkStart t rd) s (fun u => (u.walkOf t).on = true ∧
    (u.walkOf t).startAt = s.clk.now ∧ (u.walkOf t).n = (s.walkOf t).n + 1 ∧ u.f F.cal_refvMeas_uv = rd.refvUv % 2 ^ F.cal_refvMeas_uv.w ∧
    u.f F.cal_reftMeas_hz = rd.reftHz % 2 ^ F.cal_reftMeas_hz.w)) ∧
  (∀ (e : Eng) part res, (s.walkOf (tableOf e)).on = true → s.on F.cal_ctl_pause = false → partFits e part = true →
    measures s e (partNo part) = true → Answers (.calVisit e part res) s (fun u =>
      u.partOf e (partNo part) = { s.partOf e (partNo part) with cur := some res.values } ∧
      (u.walkOf (tableOf e)).recal = false ∧ u.eng = s.eng ∧ u.lane = s.lane)) ∧
  (∀ t : TableId, (s.walkOf t).on = true → s.on F.cal_ctl_pause = false → inSafe s = false →
    (s.walkOf t).startAt + 200000 * usU ≤ s.clk.now → Answers (.walkEnd t) s (fun u => (u.walkOf t).on = false ∧
      u.f (walkStat t 24 8) = (s.f (walkStat t 24 8) + 1) % 2 ^ 8 ∧ ((s.walkOf t).ok = true → u.f (walkStat t 0 3) = 0))) ∧
  (∀ (e : Eng) part v a c d, partFits e part = true → (s.partOf e (partNo part)).wait = some (v, a, c, d) → (s.engine e).next = none →
    (s.walkOf (tableOf e)).on = false → inService s e (partNo part) = false → inSafe s = false → quietSpan s e (partNo part) = true →
    Answers (.trimExchange e part) s (fun u => (u.partOf e (partNo part)).trim = v ∧ (u.partOf e (partNo part)).atT = some a ∧
      (u.partOf e (partNo part)).wait = none ∧ inService u e (partNo part) = true ∧ u.eng = s.eng ∧ u.lane = s.lane)) ∧
  (∀ v : Word, let x := v.toNat % 2 ^ 28
    (x = 0 ∨ (10000000 ≤ x ∧ x ≤ 250000000) → Answers (.refDeclWrite true v) s (fun u => u.f F.cal_reftDecl_hz = x ∧
      u.cal.decl = s.cal.decl + 1 ∧ ∀ t : TableId, (s.walkOf t).on = true → (u.walkOf t).keep = false)) ∧
    (x ≠ 0 → x < 10000000 ∨ 250000000 < x → Answers (.refDeclWrite true v) s (fun u =>
      u.f F.cal_stat_decl_rej = 1 ∧ RegsOnly [R.cal_stat] s u))) ∧
  (∀ on : Bool, Answers (.calPause on) s (fun u => u.f F.cal_ctl_pause = bit on ∧ u.walk = s.walk ∧ u.part = s.part ∧ u.eng = s.eng)) ∧
  (∀ t : TableId,
    ((s.walkOf t).full = 0 → (∀ e, e ∈ enginesOf t → active3 s e = false) → Answers (.fullWalk t) s (fun u =>
      u.f (walkRes t) = 1 ∧ (u.walkOf t).full = 2 ∧ (u.walkOf t).initial = 0)) ∧
    ((s.walkOf t).full = 0 → (∃ e, e ∈ enginesOf t ∧ active3 s e = true) → Answers (.fullWalk t) s (fun u =>
      u.f (walkRes t) = 3 ∧ RegsOnly [(walkRes t).addr] s u)) ∧
    (0 < (s.walkOf t).full → Answers (.fullWalk t) s (fun u => u = s) ∧
      Answers (.fullWalkAbort t) s (fun u => u.f (walkRes t) = 4 ∧ (u.walkOf t).full = 0)) ∧
    ((s.walkOf t).full = 0 → Answers (.fullWalkAbort t) s (fun u => u.f (walkRes t) = 5 ∧ RegsOnly [(walkRes t).addr] s u))) ∧
  (∀ avg : Fin 16, s.on F.cal_dskStat_busy = false → inSafe s = false → Answers (.deskewGo avg) s (fun u => u.f F.cal_dskStat_busy = 1 ∧
    u.f F.cal_dskStat_res = 1 ∧ u.f F.cal_dskCtl_avg_log2 = avg.val ∧
    (∀ l : PinLane, l.val ∈ u.cal.dsk ↔ s.on ⟨R.dskMask_mask (l / 32), l % 32, 1⟩ = true ∧ active3 s l = false ∧ badDecl s l = false) ∧
    ∀ l, l ∈ u.cal.dsk → (s.laneOf l).mode = .parked → (u.laneOf l).mode = .measuring)) ∧
  (if s.on F.cal_dskStat_busy then
    Answers .deskewAbort s (fun u => u.f F.cal_dskStat_busy = 0 ∧ u.f F.cal_dskStat_res = 4 ∧ u.cal.dsk = []) ∧
    (∀ r : DeskewResult, s.cal.dsk.contains r.lane.val = true → deskewStatus s r = 1 → Answers (.deskewComplete [r]) s (fun u =>
      u.f F.cal_dskStat_busy = 0 ∧ u.f F.cal_dskStat_res = 2 ∧ u.cal.dsk = [] ∧ u.f (F.dskLane_result_status r.lane) = 1 ∧
      u.f (F.dskLane_result_path r.lane) = onePath r ∧ u.f (F.dskLane_result_rejects r.lane) = 0))
  else Answers .deskewAbort s (fun u => u.f F.cal_dskStat_res = 3 ∧ RegsOnly [R.cal_dskStat] s u)) ∧
  (∀ e : Eng, traceOf s e ≠ 1 → Answers (.traceStale e) s (fun u => u.f (traceBits e) = traceOf s e ∧ RegsOnly [(traceBits e).addr] s u)) ∧
  (∀ e : Eng, traceOf s e = 1 → oldestTrim s e ≠ none → Answers (.traceStale e) s (fun u => u.f (traceBits e) = 2 ∧ s.clk.now < u.clk.now))

/-! ### Faults -/

/-- R264, R268, R273, R274, R276, R277, R279: a record, the NMI and the attic's hold, the attic's clear, active bits, masks, the ALIVE pin
and injection. An event whose condition does not hold changes nothing: the model's choice, log entry 3. -/
def Obligations.FaultCommands : Prop := ∀ (s : State) (sd : Side), heldSide s sd = false →
  let c := s.flt sd
  (∀ (n : BitVec 8) (u : BitVec 10) (syn : Word), srcKnown sd n.toNat →
    (∀ cls, cls ≠ .fatal → Answers (.faultRecord sd n u cls syn) s (fun t => Recorded sd n.toNat s t ∧ PlainSame s t)) ∧
    Answers (.faultRecord sd n u .fatal syn) s (fun t => (t.flt sd).fatalOn = true ∧ t.f (F.src_stat_active sd n.toNat) = 1 ∧
      t.f (F.flt_stat_fatal sd) = 1)) ∧
  (∀ n, c.nmi = [n] → s.on (F.src_stat_active sd n) = true → s.f (F.flt_atticStat_hold sd) = 0 → canTrap s sd = true →
    Answers (.nmiTrap sd) s (fun t => t.f (F.flt_atticStat_hold sd) = 1 ∧ t.flt sd = { c with nmi := [], holdAt := s.clk.now } ∧
      ∀ a, a ≠ R.flt_atticStat sd → t.reg a = s.reg a)) ∧
  (s.f (F.flt_atticStat_hold sd) = 1 → c.lostCyc ≠ infraOf s sd →
    (canTrap s sd = true → Answers (.atticRelease sd .firmware) s (fun t => t.f (F.flt_atticStat_hold sd) = 0 ∧
      ∀ a, a ≠ R.flt_atticStat sd → t.reg a = s.reg a)) ∧
    (∀ req, req ≠ .firmware → Answers (.atticRelease sd req) s (fun t => t = s)) ∧
    (c.holdAt + 10000 * usU ≤ s.clk.now → Answers (.atticHoldTimeout sd) s (fun t => t.f (F.flt_atticStat_hold sd) = 0 ∧
      t.f (F.flt_atticStat_hold_timeout sd) = 1))) ∧
  (s.f (F.flt_atticStat_hold sd) = 1 → Answers (.atticClear sd) s (fun t => t.f (F.flt_atticStat_clr_err sd) = 1 ∧
    RegsOnly [R.flt_atticStat sd] s t)) ∧
  (s.f (F.flt_atticStat_hold sd) = 0 → c.cyc ≠ infraOf s sd ∨ c.batch = [] → Answers (.atticClear sd) s (fun t =>
    t.f (F.flt_atticStat_count sd) = 0 ∧ t.f (F.flt_atticStat_first_valid sd) = 0 ∧
    ∀ i, i < 16 → t.reg (R.attic_w0 sd i) = 0 ∧ t.reg (R.attic_w1 sd i) = 0 ∧ t.reg (R.attic_w2 sd i) = 0 ∧ t.reg (R.attic_w3 sd i) = 0)) ∧
  (∀ n : BitVec 8, n.toNat < 128 →
    (s.hwSet (F.src_stat_active sd n.toNat) = 0 → Answers (.srcActiveClear sd n) s (fun t => t.f (F.src_stat_active sd n.toNat) = 0)) ∧
    (s.hwSet (F.src_stat_active sd n.toNat) ≠ 0 → Answers (.srcActiveClear sd n) s (fun t => t = s))) ∧
  Answers (.faultLock sd) s (fun t => t.reg (R.flt_ctl sd) = 1 ∧ RegsOnly [R.flt_ctl sd] s t) ∧
  (s.f (F.flt_alive_own sd) = 1 → c.dead = false → c.aliveAt ≤ s.clk.now → Answers (.aliveToggle sd) s (fun t =>
    (t.flt sd).aliveLevel = !c.aliveLevel ∧ (t.flt sd).aliveAt = c.aliveAt + 500 * usU ∧ PlainSame s t)) ∧
  (s.f (F.flt_alive_own sd) ≠ 1 → Answers (.aliveToggle sd) s (fun t => t = s)) ∧
  (testMode s sd = false → Answers (.injGo sd) s (fun t => t = s) ∧ Answers (.injAbort sd) s (fun t => t = s)) ∧
  (testMode s sd = true → c.injLeft = 0 → srcKnown sd (s.f (F.flt_injCtl_source sd)) → Answers (.injGo sd) s (fun t =>
    t.f (F.flt_injStat_res sd) = 1 ∧ (t.flt sd).injLeft = max 1 (s.f (F.flt_injCtl_count sd)) ∧
    (t.flt sd).injAt = s.clk.now + usU ∧ ∀ a, a ≠ R.flt_injStat sd → t.reg a = s.reg a)) ∧
  (∀ n, c.injLeft = n + 1 → c.injAt ≤ s.clk.now → srcKnown sd (s.f (F.flt_injCtl_source sd)) → s.f (F.flt_injCtl_class sd) ≠ 3 →
    Answers (.injRecord sd) s (fun t => (t.flt sd).injLeft = n ∧ (t.flt sd).injAt = c.injAt + usU ∧
      t.f (F.src_stat_active sd (s.f (F.flt_injCtl_source sd))) = 1 ∧ (n = 0 → t.f (F.flt_injStat_res sd) = 2))) ∧
  (testMode s sd = true →
    let last := c.injLeft = 1 ∧ c.injAt / (match sd with | .field => infraU | .host => 2 * infraU) = infraOf s sd
    (¬ last → Answers (.injAbort sd) s (fun t => (t.flt sd).injLeft = 0 ∧
      t.f (F.flt_injStat_res sd) = (if c.injLeft = 0 then 3 else 4) ∧ ∀ a, a ≠ R.flt_injStat sd → t.reg a = s.reg a)) ∧
    (last → c.injAt ≤ s.clk.now → srcKnown sd (s.f (F.flt_injCtl_source sd)) → s.f (F.flt_injCtl_class sd) ≠ 3 →
      Answers (.injAbort sd) s (fun t => (t.flt sd).injLeft = 0 ∧ t.f (F.flt_injStat_res sd) = 3 ∧
        t.f (F.src_stat_active sd (s.f (F.flt_injCtl_source sd))) = 1)))

/-- R268, R269: block resets begin on the block that a waiting reaction names, and end; a CHIP_RESET restarts boot at stage 3, unless five
fell due within 1 s. An event whose condition does not hold changes nothing: the model's choice, log entry 3. -/
def Obligations.ResetReactions : Prop := ∀ (s : State),
  (∀ b : ResetBlock, let w := (s.flt (blockSide b)).blocks.filter (fun x => reactionBlock (blockSide b) x == some b)
    (w = [] → Answers (.blockResetBegin b) s (fun t => t = s)) ∧
    (w ≠ [] → (s.flt (blockSide b)).fatalOn = false → Answers (.blockResetBegin b) s (fun t => blockOn t b = true)) ∧
    (w ≠ [] → (s.flt (blockSide b)).fatalOn = true → Answers (.blockResetBegin b) s (fun t => t = s)) ∧
    (blockOn s b = false → Answers (.blockResetEnd b) s (fun t => t = s)) ∧
    (blockOn s b = true → Answers (.blockResetEnd b) s (fun t => blockOn t b = false))) ∧
  (∀ (p : FPort), blockOn s (.port p) = true → s.on (F.fport_cfg_en p) = true → inSafe s = false →
    Answers (.blockResetEnd (.port p)) s (fun t => t.f (F.fport_stat_state p) = 1)) ∧
  (∀ (i : TableId) e, e ∈ enginesOf i → blockOn s (.table i) = true → inSafe s = false → Answers (.blockResetEnd (.table i)) s (fun t =>
    est t e = stIdle ∧ arming t e = false)) ∧
  (s.fltF.chip = 0 → Answers .chipReset s (fun t => t = s)) ∧
  (s.fltF.chip ≠ 0 → chipLimited (s.fltF.chipTimes ++ [s.clk.now]) = true → Answers .chipReset s (fun t =>
    t.f (F.flt_stat_reset_limit .field) = 1 ∧ t.fltF.chip = 0 ∧ RegsOnly [R.flt_stat .field] { s with fltF := t.fltF } t)) ∧
  (s.fltF.chip ≠ 0 → chipLimited (s.fltF.chipTimes ++ [s.clk.now]) = false → Answers .chipReset s (fun t =>
    t.f F.id_bootStat_stage = 3 ∧ t.f (F.flt_stat_warm .field) = 1 ∧ t.fltF.chipTimes = s.fltF.chipTimes ++ [s.clk.now] ∧
    t.eng = [] ∧ t.store = [] ∧ t.clk.now = s.clk.now))

/-- R11, R246, R271, R272, R358-R364, R377: the reset inputs, power cycles, and the stages of both boots, each while its controller runs. An unread byte of the store and an unwritten
instruction word read 0: log entries 4, 5. An event whose condition does not hold changes nothing: the model's choice, log entry 3. -/
def Obligations.ResetsAndBoot : Prop := ∀ (s : State),
  Answers (.frstN false true) s (fun t => heldSide t .field = true ∧ t.boot.frst = false ∧ t.eng = [] ∧ t.lane = [] ∧ t.tab = [] ∧
    t.pll = [] ∧ t.store = [] ∧ t.ctl = {} ∧ t.clk = { now := s.clk.now } ∧ porchUpF t = false) ∧
  (∀ ok, (s.boot.frst = true → Answers (.frstN true ok) s (fun t => t = s)) ∧
    (s.boot.frst = false → Answers (.frstN true ok) s (fun t => t.boot.frst = true ∧ t.boot.early = !ok ∧ t.boot.relAt = s.clk.now ∧
      t.f F.id_bootStat_stage = (if ok then 1 else s.f F.id_bootStat_stage)))) ∧
  Answers (.hrstN false true) s (fun t => heldSide t .host = true ∧ t.boot.hrst = false ∧ t.dma = [] ∧ t.porch.reads = [] ∧
    t.porch.pcie = false ∧ porchUpH t = false ∧ t.eng = s.eng ∧ t.lane = s.lane ∧ t.store = s.store ∧ t.clk = s.clk) ∧
  (∀ ok, (s.boot.hrst = true → Answers (.hrstN true ok) s (fun t => t = s)) ∧
    (s.boot.hrst = false → Answers (.hrstN true ok) s (fun t => t.boot.hrst = true ∧ t.boot.hearly = !ok ∧
      t.f F.hboot_stat_stage = (if ok then 1 else s.f F.hboot_stat_stage)))) ∧
  Answers (.perstN false) s (fun t => t.boot.perst = false ∧ t.porch.pcie = false ∧ t.porch.reads = [] ∧ t.dma = [] ∧
    (∀ a, endpointReg a = false → t.reg a = s.reg a) ∧ t.eng = s.eng ∧ t.store = s.store) ∧
  Answers (.perstN true) s (fun t => t.boot.perst = true ∧
    t.porch.pcie = (!s.boot.pcieLost && (decide (3 ≤ s.f F.hboot_stat_stage) || s.f F.hboot_stat_err == 1)) ∧ RegsOnly [] { s with boot := t.boot, porch := t.porch } t) ∧
  (∀ sd, Answers (.powerCycle sd) s (fun t => heldSide t sd = true ∧ latched t sd = false ∧ t.f (F.flt_stat_fatal sd) = 0 ∧
    (t.flt sd).fatalOn = false)) ∧
  (frozen s = false → inSafe s = false → s.f F.id_bootStat_stage ∈ [1, 2, 3, 7, 8] → Answers (.bootStageAdvance .done) s (fun t =>
    t.f F.id_bootStat_stage = s.f F.id_bootStat_stage + 1 ∧ t.clk = s.clk ∧ t.eng = s.eng ∧ t.store = s.store)) ∧
  (frozen s = false → inSafe s = false → s.f F.id_bootStat_stage = 5 → Answers (.bootStageAdvance .done) s (fun t =>
    t.f F.id_bootStat_stage = (if houseOpen s then 6 else 5))) ∧
  (∀ info, frozen s = true → Answers (.bootStageAdvance info) s (fun t => t = s)) ∧
  (∀ (i : Fin 2) ver, s.f F.id_bootStat_stage = 4 → frozen s = false → inSafe s = false → Answers (.bootStageAdvance (.image i false ver)) s (fun t =>
    t.f F.id_bootStat_stage = 5 ∧ t.reg R.id_fwVer = fwWord ver i ∧ RegsOnly [R.id_bootStat, R.id_fwVer] { s with boot := t.boot } t)) ∧
  (∀ e, stallHolds s e = true → frozen s = false → Answers (.bootStall e) s (fun t => t.f F.id_bootStat_stalled = 1 ∧ t.f F.id_bootStat_err = errCode e ∧
    t.boot.porchOn = true ∧ t.f F.id_bootStat_stage = s.f F.id_bootStat_stage)) ∧
  (∀ e, stallHolds s e = false ∨ frozen s = true → Answers (.bootStall e) s (fun t => t = s)) ∧
  (∀ info, s.boot.hcoreLost = true → Answers (.hostBootStage info) s (fun t => t = s)) ∧
  (s.boot.hcoreLost = false →
    (s.f F.hboot_stat_stage ∈ [1, 3] → Answers (.hostBootStage .done) s (fun t =>
      t.f F.hboot_stat_stage = s.f F.hboot_stat_stage + 1)) ∧
    (s.f F.hboot_stat_stage = 4 → porchUpH s = true → Answers (.hostBootStage .done) s (fun t => t.f F.hboot_stat_stage = 5)) ∧
    (∀ (i : Fin 2) ver, s.f F.hboot_stat_stage = 2 → s.f F.hboot_stat_err = 0 → Answers (.hostBootStage (.image i false ver)) s (fun t =>
      t.f F.hboot_stat_stage = 3 ∧ t.reg R.hid_fwVer = fwWord ver i ∧ t.porch.pcie = (s.boot.perst && !s.boot.pcieLost))))

/-! ### Registers -/

/-- R223, R281, R284, R285, R287, R292-R295, R301: a word written to the field side's registers; the configuration CRC; monitor counters. -/
def Obligations.RegisterPort : Prop := ∀ (s : State), Awake s →
  (∀ req (a : BitVec 26) v, hostReg a.toNat = false → served s a.toNat = true → placeOf a.toNat = none →
    Answers (.regWrite req a v) s (fun t => t.f F.regf_stat_unmapped = 1 ∧ RegsOnly [R.regf_stat] s t)) ∧
  (∀ req (a : BitVec 26) v p, placeOf a.toNat = some p → p.blk ∈ [.dly, .shadow, .trigIn, .trigOut, .exp, .imp, .stPort, .lstep] →
    served s a.toNat = true → infraWindow a.toNat = false → placeFrozen s p a.toNat = false → PlainReg a.toNat →
    (p.blk ∈ [.dly, .shadow] → req ≠ .firmware → Answers (.regWrite req a v) s (fun t => t = s)) ∧
    ((p.blk ∈ [.dly, .shadow] → req = .firmware) → let w := wordWrite p.reg.fields (hwAt s a.toNat) (placeLocked s p) false (s.reg a.toNat) v
    Answers (.regWrite req a v) s (fun t => t.reg a.toNat = w.1 ∧
      (w.2.1 = false → RegsOnly [a.toNat] { s with hall := t.hall } t ∧ (p.blk ≠ .trigOut → t.hall = s.hall)) ∧
      (w.2.1 = true → Recorded .field 82 s t ∧ ∀ b, PlainReg b → b ≠ a.toNat → t.reg b = s.reg b)))) ∧
  (∀ req,
    (winOpen s req = true → Answers (.crcOpen req) s (fun t => t = s) ∧
      Answers (.crcCommit req) s (fun t => winOpen t req = false ∧ t.f F.regf_crcStat_armed = 1 ∧
        t.crc = { s.crc with seen := [], old := true } ∧ RegsOnly [R.regf_crcStat] { s with crc := t.crc } t) ∧
      ∀ (b : Fin 304) v, Answers (.crcRefWrite req b v) s (fun t => t.reg (R.crcRef_ref b) = v ∧ RegsOnly [R.crcRef_ref b] s t)) ∧
    (winOpen s req = false →
      Answers (.crcOpen req) s (fun t => winOpen t req = true ∧ t.crc.old = true ∧
        (if req = .firmware then t.crc.fwAt else t.crc.hostAt) = s.clk.now ∧ RegsOnly [R.regf_crcStat] { s with crc := t.crc } t) ∧
      (∀ c, c = .crcCommit req ∨ (∃ (b : Fin 304) (v : Word), c = .crcRefWrite req b v) → Answers c s (fun t =>
        t.f F.regf_crcStat_cmd_err = 1 ∧ RegsOnly [R.regf_crcStat] s t)))) ∧
  (∀ b : Fin 304, crcNext s s.crc.next = b.val → Answers (.crcBlockPass b) s (fun t => t.reg (R.crcVal_val b) = crcBlock s b ∧
    t.crc.next = (b.val + 1) % 304 ∧
    (s.on F.regf_crcStat_armed = true → anyOpen s = false → s.crc.old = false → crcBlock s b ≠ s.reg (R.crcRef_ref b) → b.val ∉ s.crc.seen →
      t.f F.regf_crcStat_mismatch = 1 ∧ t.f (F.src_stat_active .field 83) = 1 ∧ t.crc.seen = s.crc.seen ++ [b.val]) ∧
    (s.on F.regf_crcStat_armed = false ∨ anyOpen s = true ∨ crcBlock s b = s.reg (R.crcRef_ref b) →
      RegsOnly [R.crcVal_val b] { s with crc := t.crc } t))) ∧
  (∀ fw : Bool, s.on (winBit fw) = true → (if fw then s.crc.fwLong else s.crc.hostLong) = false →
    (if fw then s.crc.fwAt else s.crc.hostAt) + windowMax s * (1000 * usU) ≤ s.clk.now → Answers (.cfgOpenLong fw) s (fun t =>
      t.f F.regf_crcStat_open_long = 1 ∧ Recorded .field 84 s t ∧ (if fw then t.crc.fwLong else t.crc.hostLong) = true)) ∧
  (∀ i : Fin 256,
    (s.on (F.mcnt_stat_running i) = false → (s.monOf i).stopC ≠ coreNow s → Answers (.mcntStart i) s (fun t =>
      t.f (F.mcnt_stat_running i) = 1 ∧ (t.monOf i).startC = coreNow s ∧ RegsOnly [R.mcnt_stat i] { s with mon := t.mon } t)) ∧
    (monTotal s (s.f (F.mcnt_cfg_src i)) (coreNow s) = none →
      Answers (.mcntStop i) s (fun t => t.f (F.mcnt_stat_running i) = 0 ∧ (t.monOf i).stopC = coreNow s ∧
        RegsOnly [R.mcnt_stat i] { s with mon := t.mon } t) ∧
      Answers (.mcntSnap i) s (fun t => t.pair (R.mcnt_snapLo i) (R.mcnt_snapHi i) = monVal s i ∧
        RegsOnly [R.mcnt_snapLo i, R.mcnt_snapHi i] { s with mon := t.mon } t) ∧
      Answers (.mcntClr i) s (fun t => monVal t i = (if (s.monOf i).cyc = coreNow s then (s.monOf i).cycN else 0) % 2 ^ 64 ∧
        RegsOnly [R.mcnt_valLo i, R.mcnt_valHi i] s t)))

/-! ### The porch and the host tile -/

/-- R2, R273, R305, R307, R309, R315, R316, R318, R390, R391: frames that arrive at the field end and at the host end. A store access that
the store does not take at once waits at port 52, and what comes after it waits behind it (the model's choice, log entry 50). -/
def Obligations.PorchFrames : Prop := (∀ h : Header, Header.decode h.encode = h) ∧ ∀ (s : State), Awake s →
  (porchUpF s = true →
    (∀ tag sp n (a : BitVec 40), s.porch.wait ≠ [] → Answers (.regRd tag sp n a) s (fun t =>
      t.porch.wait = s.porch.wait ++ [(.regRd tag sp n a, s.clk.now)] ∧ t.porch.toHost = s.porch.toHost ∧ t.store = s.store ∧
      t.ctl = s.ctl)) ∧
    (∀ tag n (a : BitVec 40), s.porch.wait = [] → remoteWindow (a.toNat % 2 ^ 26) = false → Answers (.regRd tag .bar0 n a) s (fun t =>
      t.porch.toHost = queueMsg s.porch.toHost
        (.regCpl tag 0 (wordBytes (fieldBusRead (gotField s (.regRd tag .bar0 n a)) (a.toNat % 2 ^ 26)).1)) ∧
      t.store = s.store ∧ t.eng = s.eng)) ∧
    (∀ tag n (a : BitVec 40), s.porch.wait = [] → storeBytes < a.toNat + n → Answers (.regRd tag .store n a) s (fun t =>
      t.porch.toHost = queueMsg s.porch.toHost (.regCpl tag 2 (allOnes n)) ∧ t.store = s.store)) ∧
    (∀ tag n (a : BitVec 40), s.porch.wait = [] → a.toNat + n ≤ storeBytes → storeEarly s = false → aperIdle s a.toNat n = false →
      Answers (.regRd tag .store n a) s (fun t => t.porch.wait = [(.regRd tag .store n a, s.clk.now)] ∧
        t.ctl.reqs = s.ctl.reqs ++ [⟨52, 576, false, false, 0, a.toNat / 64, (a.toNat + n - 1) / 64 - a.toNat / 64 + 1, 0, none, 3, 0,
          s.clk.now, false, 0⟩] ∧ t.porch.toHost = s.porch.toHost ∧ t.store = s.store)) ∧
    (∀ tag n (a : BitVec 40), a.toNat + n ≤ storeBytes → storeEarly s = false → aperIdle s a.toNat n = true →
      let x := readBytes (gotField s (.regRd tag .store n a)) a.toNat n
      x.2.1 = false → Answers (.regRd tag .store n a) s (fun t => t.porch.toHost = queueMsg x.2.2.porch.toHost (.regCpl tag 0 x.1))) ∧
    (∀ tag (a : BitVec 40) d p, s.porch.wait = [] → List.length d = 4 → placeOf (a.toNat % 2 ^ 26) = some p →
      p.blk ∈ [.trigIn, .trigOut, .exp, .imp, .stPort, .lstep] → remoteWindow (a.toNat % 2 ^ 26) = false →
      served s (a.toNat % 2 ^ 26) = true → infraWindow (a.toNat % 2 ^ 26) = false → placeFrozen s p (a.toNat % 2 ^ 26) = false →
      PlainReg (a.toNat % 2 ^ 26) →
      let w := wordWrite p.reg.fields (hwAt s (a.toNat % 2 ^ 26)) (placeLocked s p) false (s.reg (a.toNat % 2 ^ 26)) (bytesWord d)
      w.2.1 = false → Answers (.regWr tag .bar0 a d) s (fun t => t.reg (a.toNat % 2 ^ 26) = w.1 ∧
        t.porch.toHost = queueMsg s.porch.toHost (.regCpl tag 0 []))) ∧
    (∀ tag (a : BitVec 40) d, s.porch.wait = [] → List.length d < 4 → Answers (.regWr tag .bar0 a d) s (fun t => t.f F.regf_stat_size_err = 1 ∧
      t.porch.toHost = queueMsg s.porch.toHost (.regCpl tag 0 []) ∧ (∀ b, PlainReg b → b ≠ R.regf_stat → t.reg b = s.reg b) ∧
      t.store = s.store)) ∧
    (∀ tag (a : BitVec 40) d, 4 < List.length d → Answers (.regWr tag .bar0 a d) s (fun t =>
      t.f F.regf_fporchDrop_n = min (s.f F.regf_fporchDrop_n + 1) (2 ^ 32 - 1) ∧ t.porch = s.porch ∧ t.store = s.store)) ∧
    (∀ tag (a : BitVec 40) d, s.porch.wait = [] → storeBytes < a.toNat + List.length d → d.length = 64 → a.toNat % 64 = 0 →
      Answers (.regWr tag .store a d) s (fun t => t.porch.toHost = queueMsg s.porch.toHost (.regCpl tag 2 []) ∧ t.store = s.store)) ∧
    (∀ (r : Fin 256) (first : Word) d, s.ctl.swPtr.find? (fun y => y.1 == r.val && y.2.1 && y.2.2.1 == coreNow s) = none →
      s.f F.rings_phase_phase = 1 → s.on (F.ring_cfg_en r) = true → fromProducer s r .host = true →
      (ringDesc s r).wlog2 = 0 → 0 ≤ ringLevel s r → ringLevel s r < (ringDesc s r).len → first.toNat = s.f (F.ring_wptr_p r) →
      strmTop s r = none → pcIdle s (slotGran s r first.toNat 0) = true → let l := leaderOf s (s.f (F.ring_cfg_engine r))
      l < 576 → (∀ m, m ∈ membersOf s l → running s m = false ∧ arming s m = false) →
      (∀ x, x ∈ s.parts → x.1 ≠ r.val) → (∀ i, i < 4 → (s.dmaOf i).cur = none) → Answers (.streamData r first 0 0 [d]) s (fun t =>
        t.f (F.ring_wptr_p r) = (first.toNat + 1) % 2 ^ 32 ∧ t.store = (writeGran s (slotGran s r first.toNat 0) d).store)) ∧
    (∀ (k : Fin 4) h v, Answers (.aliveState .field k h v) s (fun t => t.porch.aliveH = k.val ∧
      t.f (F.flt_alive_other_run .field) = bit (k.val == 1) ∧ t.eng = s.eng ∧ t.store = s.store)) ∧
    (∀ ty, Answers (.foreignFrame .field ty) s (fun t => t.f F.regf_fporchDrop_n = min (s.f F.regf_fporchDrop_n + 1) (2 ^ 32 - 1) ∧
      t.porch = s.porch)) ∧
    (∀ c, c = .retryRequest (.porch .field) ∨ c = .ackTimeout (.porch .field) →
      (failsOf s true < 16 → Answers c s (fun t => (true, failsOf s true) ∈ t.porch.fails ∧ porchUpF t = true ∧
        t.f F.regf_fporchRetry_n = min (s.f F.regf_fporchRetry_n + max 1 (min 64 s.porch.toHost.length)) (2 ^ 32 - 1))) ∧
      (16 ≤ failsOf s true → Answers c s (fun t => porchUpF t = false ∧ t.f F.regf_fporchStat_went_down = 1)))) ∧
  (porchUpH s = true →
    (∀ tag d, s.porch.held = [] → s.porch.reads.find? (fun x => x.1 == tag) = some (tag, none) → Answers (.regCpl tag 0 d) s (fun t =>
      t.porch.cpls = s.porch.cpls ++ [(tag, bytesWord d)] ∧ t.porch.reads = s.porch.reads.filter (fun x => x.1 != tag) ∧
      t.regs = s.regs)) ∧
    (∀ (r : Fin 256) rp l (w : Fin 8), (∀ i, i < 4 → (s.dmaOf i).cur = none) → Answers (.streamCredit r rp l w) s (fun t =>
      t.porch.credit = s.porch.credit.filter (fun x => x.1 != r.val) ++
        [(r.val, if s.f F.porch_stat_ver = 1 then (rp.toNat + 2 ^ 31) % 2 ^ 32 else l.toNat, w.val)] ∧ t.regs = s.regs)) ∧
    (∀ v : Fin 64, Answers (.irq v) s (fun t => if irqEnabled s v = false then t.msi = s.msi ∧ t.regs = s.regs
      else if s.on (F.msix_ctl_mask v) then t.f ⟨R.pba_word (v / 32), v % 32, 1⟩ = 1 ∧ t.msi = s.msi
      else t.msi = s.msi ++ [v.val] ∧ t.regs = s.regs)) ∧
    (∀ a b c d, Answers (.faultNotice a b c d) s (fun t => t.porch.notices = s.porch.notices ++ [(a, b, c, d)] ∧ t.regs = s.regs)) ∧
    (∀ (k : Fin 4) (h : BitVec 64) v, Answers (.aliveState .host k h v) s (fun t => t.porch.hostTime = h.toNat ∧ t.porch.hostValid = v ∧
      t.porch.hostAt = s.clk.now ∧ t.porch.aliveF = k.val ∧ t.f (F.flt_alive_other_run .host) = bit (k.val == 1) ∧
      ∀ a, a ≠ R.flt_alive .host → t.reg a = s.reg a)) ∧
    (∀ ty, heldSide s .host = false → Answers (.foreignFrame .host ty) s (fun t =>
      t.f F.porch_drop_n = min (s.f F.porch_drop_n + 1) (2 ^ 32 - 1) ∧ Recorded .host 6 s t))) ∧
  (∀ (dest : Side) m, Answers (.versionHello dest m) s (fun t =>
    (match dest with | .field => t.porch.helloF | .host => t.porch.helloH) = some m ∧ t.eng = s.eng ∧ t.store = s.store))

/-- R308-R311, R313, R314, R317-R319, R355: the porch comes up, loses a crossing and goes down; what the PCIe host sends the host tile. -/
def Obligations.HostTile : Prop := ∀ (s : State),
  (∀ v, porchUpF s = false → porchUpH s = false → porchReady s = true → s.porch.helloF = none → s.porch.helloH = none →
    topVersion (offered s .host &&& offered s .field) = some v → (∀ x, x < 18 → s.on ⟨R.porch_xfail, x, 1⟩ = false) →
    Answers .porchUp s (fun t => porchUpF t = true ∧ porchUpH t = true ∧ t.f F.porch_stat_ver = v ∧ t.f F.regf_fporchStat_ver = v ∧
      t.porch.ver = some v ∧ t.f F.porch_stat_used = 16 ∧ t.f F.porch_stat_degraded = 0 ∧ t.f F.porch_stat_went_down = 1)) ∧
  (∀ x y : Fin 18, porchUpF s = true → porchUpH s = true → heldSide s .field = false → heldSide s .host = false →
    s.on ⟨R.porch_xmap, x, 1⟩ = true → x ≠ y → s.on ⟨R.porch_xmap, y, 1⟩ = false → s.on ⟨R.porch_xfail, y, 1⟩ = false →
    (∀ z, z < y.val → z = x.val ∨ s.on ⟨R.porch_xmap, z, 1⟩ = true ∨ s.on ⟨R.porch_xfail, z, 1⟩ = true) →
    Answers (.crossingFail x) s (fun t => t.f ⟨R.porch_xfail, x, 1⟩ = 1 ∧ t.f ⟨R.porch_xmap, x, 1⟩ = 0 ∧ t.f ⟨R.porch_xmap, y, 1⟩ = 1 ∧
      Recorded .field 96 s t ∧ Recorded .host 4 s t)) ∧
  (∀ why, downCause s why = true → porchUpF s = true → porchUpH s = true → heldSide s .host = false → Answers (.porchDown why) s (fun t =>
    porchUpF t = false ∧ porchUpH t = false ∧ t.porch.toHost = [] ∧ t.porch.toField = [] ∧ t.porch.reads = [] ∧ t.porch.writes = 0 ∧
    t.f F.porch_lostwr_n = min (s.f F.porch_lostwr_n + s.porch.writes) (2 ^ F.porch_lostwr_n.w - 1) ∧ Recorded .host 3 s t)) ∧
  (heldSide s .host = false → s.porch.pcie = true → s.porch.d3 = false → ∀ tag (addr : BitVec 26), let a := addr.toNat / 4 * 4
    (hostReg a = true → ∀ be v, Answers (.bar0Tlp false tag addr be v) s (fun t =>
      t.porch.cpls = s.porch.cpls ++ [(tag, (hostBusRead s a).1)] ∧ t.regs = s.regs)) ∧
    (hostReg a = false → porchUpH s = false → ∀ be v, Answers (.bar0Tlp false tag addr be v) s (fun t =>
      t.porch.cpls = s.porch.cpls ++ [(tag, onesWord)] ∧ t.regs = s.regs) ∧ Answers (.bar0Tlp true tag addr be v) s (fun t => t = s)) ∧
    (hostReg a = false → porchUpH s = true → s.porch.halt = false → servedHost s a = true → inFlight s < 64 → s.porch.held = [] → ∀ v,
      (∀ be, Answers (.bar0Tlp false tag addr be v) s (fun t => t.porch.reads = s.porch.reads ++ [(tag, none)] ∧
        t.porch.toField = queueMsg s.porch.toField (.regRd tag .bar0 4 (BitVec.ofNat 40 a)))) ∧
      Answers (.bar0Tlp true tag addr 15 v) s (fun t => t.porch.writes = s.porch.writes + 1 ∧
        t.porch.toField = queueMsg s.porch.toField (.regWr tag .bar0 (BitVec.ofNat 40 a) (wordBytes v))) ∧
      ∀ be, Answers (.bar0Tlp true tag addr be v) s (fun t => t.porch.writes = s.porch.writes + 1 ∧
        t.porch.toField = queueMsg s.porch.toField (.regWr tag .bar0 (BitVec.ofNat 40 a) (enabledBytes be v))))) ∧
  (∀ (i : Fin 4),
    (∀ (tail : BitVec 12) ds, s.on (F.dmaq_ctl_en i) = false →
      (tail.toNat % dmaSize s i + dmaSize s i - s.f (F.dmaq_tail_tail i) % dmaSize s i) % dmaSize s i = List.length ds →
      Answers (.dmaQtail i tail ds) s (fun t => t.f (F.dmaq_tail_tail i) = tail.toNat ∧ (t.dmaOf i).descs = (s.dmaOf i).descs ++ ds ∧
        (t.dmaOf i).cur = (s.dmaOf i).cur ∧ t.free = s.free)) ∧
    (∀ d, (s.dmaOf i).cur = some d →
      ((s.dmaOf i).descs = [d] → porchUpH s = true → dmaFits s d = true → Answers (.dmaDescComplete i false) s (fun t =>
        (t.dmaOf i).cur = none ∧ t.f (F.dmaq_head_head i) = (s.f (F.dmaq_head_head i) + 1) % dmaSize s i ∧ (t.dmaOf i).descs = [] ∧
        (t.dmaOf i).done = (s.dmaOf i).done ++ [(s.f (F.dmaq_head_head i), BitVec.ofNat 32 (2 ^ 24 + d.count.toNat % 2 ^ 24))])) ∧
      (heldSide s .host = false → Answers (.dmaDescComplete i true) s (fun t => t.f (F.dmaq_stat_halted i) = 1 ∧
        t.f (F.dmaq_stat_err i) = 7 ∧ (t.dmaOf i).cur = none ∧ Recorded .host 10 s t)) ∧
      Answers (.dmaAbort i) s (fun t => t.f (F.dmaq_stat_abort_res i) = 2 ∧ t.f (F.dmaq_stat_halted i) = 1 ∧
        t.f (F.dmaq_stat_err i) = 2 ∧ (t.dmaOf i).cur = none)) ∧
    ((s.dmaOf i).cur = none → Answers (.dmaAbort i) s (fun t => t.f (F.dmaq_stat_abort_res i) = 3 ∧ RegsOnly [R.dmaq_stat i] s t)) ∧
    (s.on (F.dmaq_stat_halted i) = true → (s.dmaOf i).descs = [] → Answers (.dmaRestart i) s (fun t =>
      t.f (F.dmaq_stat_halted i) = 0 ∧ RegsOnly [R.dmaq_stat i] s t))) ∧
  (heldSide s .host = false → s.porch.pcie = true → Answers (.d3hotTransition true) s (fun t => t.porch.d3 = true ∧ t.regs = s.regs) ∧
    ((∀ i, i < 4 → (s.dmaOf i).descs = []) → Answers (.d3hotTransition false) s (fun t => t.porch.d3 = false ∧ t.regs = s.regs)))

/-! ### The fabric -/

/-- R323-R325, R329-R333, R336, R344, R345: the links of the fabric and the census. -/
def Obligations.FabricLinks : Prop := ∀ (s : State), Awake s →
  (∀ (p : FPort) (u : BitVec 64) m f (q : FPort), portLive s p = true →
    (fabVersion s m = none → Answers (.hello p u m f q) s (fun t => t.f (F.fport_stat_state p) = 4 ∧ t.f (F.fport_stat_reason p) = 2)) ∧
    (∀ v, fabVersion s m = some v → s.f (F.fport_stat_state p) ≠ 3 → Answers (.hello p u m f q) s (fun t =>
      nbrUid t p = u.toNat ∧ t.f (F.fport_stat_nbr_port p) = q.val ∧ t.f (F.fport_stat_ver p) = v % 2 ^ (F.fport_stat_ver p).w ∧
      t.f (F.fport_stat_state p) = 2))) ∧
  (∀ p : FPort, portLive s p = true → s.f (F.fport_stat_state p) = 2 → Answers (.portLinkUp p) s (fun t =>
    t.f (F.fport_stat_state p) = 3 ∧ t.f (F.fport_stat_lanes p) = 15)) ∧
  (∀ (p : FPort) (l : Fin 4), s.f (F.fport_stat_state p) = 3 → s.on ⟨R.fport_stat p, 8 + l.val, 1⟩ = true →
    (s.f (F.fport_stat_lanes p) ≠ 2 ^ l.val → Answers (.fabLaneFail p l) s (fun t => t.f ⟨R.fport_stat p, 8 + l.val, 1⟩ = 0 ∧
      t.f (F.fport_stat_state p) = 3 ∧ Recorded .field 98 s t)) ∧
    (s.f (F.fport_stat_lanes p) = 2 ^ l.val → Answers (.fabLaneFail p l) s (fun t =>
      t.f (F.fport_stat_state p) = 4 ∧ t.f (F.fport_stat_reason p) = 1 ∧ t.f (F.src_stat_active .field 99) = 1))) ∧
  (∀ (p : FPort) why, downHolds s p why = true → s.f (F.fport_stat_state p) ≠ 0 → s.f (F.fport_stat_state p) ≠ 4 →
    Answers (.portDown p why) s (fun t => t.f (F.fport_stat_state p) = (if why = .host then 0 else 4) ∧
      t.f (F.fport_stat_reason p) = downCode why ∧ t.f (F.fport_stat_lanes p) = 0)) ∧
  (∀ p : FPort, s.f (F.fport_stat_state p) = 3 → ∀ c, c = .retryRequest (.fabric p) ∨ c = .ackTimeout (.fabric p) →
    let n := ((s.fab.fails.find? (fun x => x.1 == p.val)).map (·.2)).getD 0 + 1
    (n < 16 → Answers c s (fun t => (p.val, n) ∈ t.fab.fails ∧ t.regs = s.regs)) ∧
    (16 ≤ n → Answers c s (fun t => t.f (F.fport_stat_state p) = 4 ∧ t.f (F.fport_stat_reason p) = 5))) ∧
  (∀ (h : House) (q : Word) ls, fabOn s = true → upPorts s ≠ [] → h.val ≠ ownHouse s → (∀ x, x ∈ s.fab.lsas → x.1 ≠ h.val) →
    Answers (.lsa h q ls) s (fun t => t.fab.lsas = s.fab.lsas ++ [(h.val, q.toNat, ls)])) ∧
  (∀ (q : Word) (k : BitVec 64) (own : House) (e : CensusEntry), fabOn s = true → upPorts s ≠ [] →
    s.on F.fab_stat_census_valid = false → k.toNat < ownUid s → Answers (.census q k own [e]) s (fun t =>
      t.f F.fab_stat_census_valid = 1 ∧ ownHouse t = own.val ∧ keeperUid t = k.toNat ∧ t.f F.fab_stat_keeper = 0 ∧
      entryState t e.house = e.state.val ∧ entryUid t e.house = e.uid.toNat ∧ t.f F.time_stat_valid = 0)) ∧
  (s.on F.fab_stat_census_valid = true → s.on F.fab_stat_keeper = false → keeperHouse s = none → ∀ u,
    (((presentHouses s).filter (fun h => entryState s h == 1 && (distTo (distances s (ownHouse s)) h).isSome)).map (entryUid s)).min? = some u →
    Answers .keeperTimeout s (fun t => keeperUid t = u % 2 ^ 64 ∧ (u = ownUid s → t.f F.fab_stat_keeper = 1 ∧ t.f F.time_stat_src = 0 ∧
      t.f F.time_stat_valid = 1))) ∧
  (∀ (h : House) (u f : BitVec 64), s.on F.fab_stat_census_valid = true → s.on F.fab_stat_keeper = true → fabOn s = true →
    s.fab.guests.find? (fun g => g.1 == h.val) = some (h.val, u, f) → entryState s h = 2 →
    (distTo (distances s (ownHouse s)) h).isSome = true → ∀ c, c = .censusAdmitOne h ∨ c = .censusAdmit h → Answers c s (fun t =>
      entryUid t h = u.toNat ∧ (∀ g, g ∈ t.fab.guests → g.1 ≠ h.val) ∧ t.f F.fab_evt_census_change = 1)) ∧
  (∀ h : House, s.on F.fab_stat_census_valid = false → Answers (.censusAdmit h) s (fun t => t.f F.fab_evt_admit_err = 1 ∧
    RegsOnly [R.fab_censusCtl, R.fab_evt] s t)) ∧
  (∀ h : House,
    (entryState s h = 3 → Answers (.censusForget h) s (fun t => entryState t h = 0 ∧ entryUid t h = 0 ∧ t.f F.fab_evt_census_change = 1)) ∧
    (entryState s h ≠ 3 → Answers (.censusForget h) s (fun t => t.f F.fab_evt_admit_err = 1 ∧ RegsOnly [R.fab_censusCtl, R.fab_evt] s t)))

/-- R335-R342: time transfer, register accesses, event, stream and fault packets of the fabric. An event whose condition does not hold
changes nothing: the model's choice, log entry 3. -/
def Obligations.FabricServices : Prop := ∀ (s : State), Awake s → fabOn s = true →
  (∀ p : FPort, s.f (F.fport_stat_state p) = 3 → Answers (.timeReq p) s (fun t => (p.val, s.clk.now) ∈ t.fab.reqs ∧ PlainSame s t)) ∧
  (∀ (p : FPort) (t1 t2 t3 t4 : Int) (valid : Bool), s.f (F.fport_stat_state p) = 3 → (∃ n, (p.val, n) ∈ s.fab.reqs) →
    let th := ((t2 - t1) - (t4 - t3) - 4 * signed 16 (s.f (F.fport_cfg_asym p))) / 2
    let de := ((t2 - t1) + (t4 - t3)) / 2
    Answers (.timeRsp p t1 t2 ⟨t3, valid⟩ t4) s (fun t => t.f (F.fport_delay_d p) = unsigned 32 de % 2 ^ 32 ∧
      t.f (F.fport_exch_n p) = (s.f (F.fport_exch_n p) + 1) % 2 ^ (F.fport_exch_n p).w ∧
      exchOf t p = ((th, de) :: exchOf s p).take 16 ∧ (∀ n, (p.val, n) ∉ t.fab.reqs) ∧
      (valid = false → t.f F.time_stat_valid = s.f F.time_stat_valid))) ∧
  (s.f F.fab_evt_step_wait = 1 → (∀ e : Eng, active3 s e = false) → Answers .timeStep s (fun t =>
    t.clk.house = ((s.clk.house : Int) + parentOfs s * 192).toNat ∧ t.clk.now = s.clk.now ∧ t.fab.exch = [] ∧
    t.f F.fab_evt_step_wait = 0 ∧ RegsOnly [R.fab_evt] { s with clk := t.clk, fab := t.fab, hall := t.hall } t)) ∧
  (s.fab.parentOn = false → Answers .parentLoss s (fun t => t = s)) ∧
  (s.fab.parentOn = true → s.on F.time_stat_valid = true → (∀ q, q < 8 → (exchOf s q).length < 16) → Answers .parentLoss s (fun t =>
    t.fab.parentOn = false ∧ t.f F.time_stat_valid = 0 ∧ t.f F.fab_evt_time_lost = 1 ∧ Recorded .field 101 s t)) ∧
  (∀ (h : House) (j : Fin 64) (c : BitVec 58),
    (entryState s h = 2 → Answers (.event h j c) s (fun t => t = s)) ∧
    (entryState s h ≠ 2 → eventsOk s = true → coreNow s < c.toNat → s.hall.imp.contains (j.val, c.toNat) = false →
      (s.hall.imp.filter (fun x => x.1 == j.val)).length < 8 → Answers (.event h j c) s (fun t =>
        t.hall = { s.hall with imp := s.hall.imp ++ [(j.val, c.toNat)] } ∧ ∀ a, PlainReg a → t.reg a = s.reg a))) ∧
  (∀ (h : House) a b c d, let n := s.f F.fab_rnoteStat_count
    (n < 16 → Answers (.fabFaultNotice h a b c d) s (fun t => t.reg (R.rnote_w0 n) = a ∧ t.reg (R.rnote_w1 n) = b ∧
      t.reg (R.rnote_w2 n) = c ∧ t.reg (R.rnote_w3 n) = d ∧ t.f (F.rnote_w4_house n) = h.val ∧ t.f F.fab_rnoteStat_count = n + 1)) ∧
    (16 ≤ n → Answers (.fabFaultNotice h a b c d) s (fun t => t.f F.fab_rnoteStat_count = n ∧
      t.f F.fab_rnoteStat_lost = min (s.f F.fab_rnoteStat_lost + 1) (2 ^ F.fab_rnoteStat_lost.w - 1)))) ∧
  Answers .rnoteClear s (fun t => t.f F.fab_rnoteStat_count = 0 ∧ RegsOnly [R.fab_rnoteStat] s t) ∧
  (∀ (h : House) tag (a : BitVec 26), (routePort s h (.regCpl tag 0 0)).isSome = true →
    (remoteRange a.toNat = true → Answers (.fabRegRd h tag a) s (fun t =>
      t.fab.out = (fabPut s (some h.val, .regCpl tag 1 onesWord)).fab.out ∧ ∀ b, PlainReg b → t.reg b = s.reg b)) ∧
    (remoteRange a.toNat = false → Answers (.fabRegRd h tag a) s (fun t =>
      t.fab.out = (fabPut s (some h.val, .regCpl tag 0 (fieldBusRead (gotFrom s h) a.toNat).1)).fab.out)) ∧
    (∀ v, entryState s h = 2 → Answers (.fabRegWr h tag a v) s (fun t => t.fab.out = (fabPut s (some h.val, .regCpl tag 2 0)).fab.out ∧
      t.f F.fab_evt_guest_wr = 1)) ∧
    (∀ v, entryState s h ≠ 2 → remoteRange a.toNat = true → Answers (.fabRegWr h tag a v) s (fun t =>
      t.fab.out = (fabPut s (some h.val, .regCpl tag 1 0)).fab.out ∧ ∀ b, PlainReg b → t.reg b = s.reg b)) ∧
    (∀ v p, entryState s h ≠ 2 → remoteRange a.toNat = false → placeOf a.toNat = some p →
      p.blk ∈ [.trigIn, .trigOut, .exp, .imp, .stPort, .lstep] → served s a.toNat = true → infraWindow a.toNat = false →
      placeFrozen s p a.toNat = false → PlainReg a.toNat →
      let w := wordWrite p.reg.fields (hwAt s a.toNat) (placeLocked s p) false (s.reg a.toNat) v
      w.2.1 = false → Answers (.fabRegWr h tag a v) s (fun t => t.reg a.toNat = w.1 ∧
        t.fab.out = (fabPut s (some h.val, .regCpl tag 0 0)).fab.out))) ∧
  (∀ (g tag : BitVec 8) t0, s.fab.rem = [(g, false, t0, some tag)] → porchUpF s = true →
    (∀ v, Answers (.fabRegCpl g 0 v) s (fun t => t.fab.rem = [] ∧ t.f F.fab_rwinStat_busy = 0 ∧
      t.porch.toHost = queueMsg s.porch.toHost (.regCpl tag 0 (wordBytes v)))) ∧
    (t0 + 1800 * usU ≤ s.clk.now → Answers (.rwinTimeout g) s (fun t => t.fab.rem = [] ∧ t.f F.fab_rwinStat_timeout = 1 ∧
      t.porch.toHost = queueMsg s.porch.toHost (.regCpl tag 0 (wordBytes onesWord))))) ∧
  (∀ (h : House) (r : Fin 256) (first : Word) d, s.ctl.swPtr.find? (fun y => y.1 == r.val && y.2.1 && y.2.2.1 == coreNow s) = none →
    entryState s h ≠ 2 → s.f F.rings_phase_phase = 1 → s.on (F.ring_cfg_en r) = true →
    fromProducer s r (.fabric h) = true → (ringDesc s r).wlog2 = 0 → 0 ≤ ringLevel s r → ringLevel s r < (ringDesc s r).len →
    first.toNat = s.f (F.ring_wptr_p r) → strmTop s r = none → pcIdle s (slotGran s r first.toNat 0) = true →
    let l := leaderOf s (s.f (F.ring_cfg_engine r))
    l < 576 → (∀ m, m ∈ membersOf s l → running s m = false ∧ arming s m = false) → (∀ x, x ∈ s.parts → x.1 ≠ r.val) →
    Answers (.fabStream h r 0 first [d]) s (fun t => t.f (F.ring_wptr_p r) = (first.toNat + 1) % 2 ^ 32 ∧
      t.store = (writeGran s (slotGran s r first.toNat 0) d).store)) ∧
  (∀ (r : Fin 256) a b, Answers (.fabCredit r a b) s (fun t => (r.val, a, b) ∈ t.fab.credit ∧
    { t with fab := { t.fab with credit := s.fab.credit } } = s))

/-! ### Power, supplies and temperatures -/

/-- R347, R350-R354, R375, R387, R389: the power states are entered while the device is idle and left by an event; supplies, temperatures
and the mission log. An event whose condition does not hold changes nothing: the model's choice, log entry 3. Wake sources and latencies are
those of log entries 21 and 23. -/
def Obligations.PowerAndEnvironment : Prop := ∀ (s : State),
  (heldSide s .field = false →
    (powerBlock s = 0 → s.f F.pwr_stat_state < allowedState s → Answers .powerEntry s (fun t =>
      t.f F.pwr_stat_state = s.f F.pwr_stat_state + 1 ∧ (s.f F.pwr_stat_state = 1 → ∀ k, k < 4 → stackUp t k = false))) ∧
    (powerBlock s ≠ 0 ∨ allowedState s ≤ s.f F.pwr_stat_state → Answers .powerEntry s (fun t => t = s)) ∧
    (∀ c src, (∃ k : Fin 5, c = .wakeEvent k ∧ src = k.val + 1) ∨ (c = .wakeCmd ∧ src = 6) →
      (s.f F.pwr_stat_state = 0 → Answers c s (fun t => t = s)) ∧
      (s.f F.pwr_stat_state ≠ 0 → s.boot.f4 = false → Answers c s (fun t => t.f F.pwr_stat_state = 0 ∧ t.f F.pwr_stat_wake_src = src ∧
        t.f F.pwr_exits_n = (s.f F.pwr_exits_n + 1) % 2 ^ F.pwr_exits_n.w ∧
        s.clk.now + exitUs (s.f F.pwr_stat_state) * usU ≤ t.clk.now))) ∧
    (powerBlock s ≠ 0 ∨ ready s = false → Answers .f4Request s (fun t => t.f F.pwr_stat_req_err = 1 ∧ RegsOnly [R.pwr_stat] s t)) ∧
    (powerBlock s = 0 → ready s = true → Answers .f4Request s (fun t => t.boot.f4 = true ∧ heldSide t .field = true ∧ t.eng = [] ∧
      t.store = [] ∧ porchUpF t = false)) ∧
    (∀ v : Word, s.f F.pwr_stat_state = 0 → Answers (.ltrWrite v) s (fun t =>
      t.f F.pwr_ltr_tol_us = v.toNat % 2 ^ F.pwr_ltr_tol_us.w ∧ RegsOnly [R.pwr_ltr] s t))) ∧
  (∀ (sd : Side) (n : Fin 11) mv, monitorsOn s sd = true → Answers (.supplyUv sd n mv) s (fun t => (t.flt sd).fatalOn = true ∧
    t.f (F.src_stat_active sd (match sd with | .field => 4 | .host => 1)) = 1)) ∧
  (∀ (w : Fin 4) u, monitorsOn s .field = true → 715000 < u → u < 735000 → Answers (.droop w u) s (fun t =>
    Recorded .field 5 s t ∧ PlainSame s t)) ∧
  (∀ (sd : Side) (n : Fin 36) (c : Int), heldSide s sd = false → 1680 < c →
    let x := (sd == .host, n.val)
    ((x ∉ s.boot.high) → Answers (.tjHigh sd n c) s (fun t => Recorded sd (match sd with | .field => 6 | .host => 12) s t ∧
      x ∈ t.boot.high)) ∧
    (x ∈ s.boot.high → Answers (.tjHigh sd n c) s (fun t => t.boot = s.boot ∧ ∀ a, a ≠ R.hid_htemp → t.reg a = s.reg a)) ∧
    ((x ∉ s.boot.crit) → 1760 ≤ c → Answers (.tjCrit sd n c) s (fun t => (t.flt sd).fatalOn = true ∧ x ∈ t.boot.crit ∧
      t.f (F.src_stat_active sd (match sd with | .field => 7 | .host => 13)) = 1))) ∧
  (∀ (c : Int) m, misOn s .field = true → ctlRuns s .field = true → c ≤ 1360 → s.boot.minF = m → m.length = 3 → Answers (.missionMinute .field c) s (fun t =>
    if m.getD 0 0 + 1 < 60 then t.boot.minF = m.set 0 (m.getD 0 0 + 1) ∧ t.regs = s.regs
    else t.boot.minF = m.set 0 0 ∧ t.reg R.id_hrs0 = s.reg R.id_hrs0 + 1)) ∧
  (misOn s .field = true → ctlRuns s .field = true → Answers (.missionLogWrite .field) s (fun t =>
    t.boot.flashF = some (s.reg R.id_hrs0, s.reg (R.id_hrs0 + 4), s.reg (R.id_hrs0 + 8)) ∧ { t with boot := s.boot } = s)) ∧
  (misOn s .host = true → ctlRuns s .host = true → Answers (.missionLogWrite .host) s (fun t =>
    t.boot.flashH = some (s.reg R.hid_hrs0, s.reg (R.hid_hrs0 + 4), s.reg (R.hid_hrs0 + 8)) ∧ { t with boot := s.boot } = s))

/-! ### The block as a whole -/

/-- A step takes the command that has waited longest and executes it on the state with the rest of the queue. On an empty queue one cycle
of the core clock passes and nothing of the engines or the store changes: the model's choice, log entry 1. -/
def Obligations.StepRunsFront : Prop := ∀ (s : State),
  (∀ c cs, s.pending = c :: cs → step s = exec c { s with pending := cs }) ∧
  (s.pending = [] → ∃ t, step s = .next t ∧ t.clk.now = s.clk.now + cycleU s ∧ t.pending = [] ∧ t.eng = s.eng ∧ t.store = s.store)

/-- R298, R358, R360, R364, R183, R233: right after power-on both sides are held in reset, every shutter is closed, the streaming phase is
STARTUP, identity reads as the map says, nothing is armed, no command waits, and every table is in its canonical form. -/
def Obligations.ResetState : Prop :=
  let s := State.reset
  heldSide s .field = true ∧ heldSide s .host = true ∧ s.reg R.id_vendor = 0x444E5552 ∧ s.reg R.id_part = 0x5120 ∧
  s.reg R.id_step = 0x4201 ∧ s.reg R.id_isaVer = 6 ∧ s.reg R.id_porchVer = 6 ∧ s.reg R.id_fabVer = 12 ∧ s.reg R.id_hcmdVer = 2 ∧
  s.reg R.clk_shutRoom = 0 ∧ s.reg R.clk_shutOther = 0 ∧ s.f F.rings_phase_phase = 0 ∧ s.f F.time_stat_valid = 0 ∧
  s.f F.clk_refMul_n = 64 ∧ s.f F.clk_refDiv_d = 1 ∧ (∀ e : Eng, engaged s e = false) ∧ s.pending = [] ∧ s.clk.started = false ∧
  Unfailed s ∧ Canonical s

/-- R79, R82, R83, R87: the encoder and the decoder of the engines' own words agree: every operation that is defined for a level and a kind of
engine decodes from its word with every operand as it was, and a word decodes to an operation only where it is that operation's own. -/
def Obligations.WordsRoundTrip : Prop := ∀ (level : Nat) (quad : Bool),
  (∀ o, opDefined level quad o = true → decodeWord level quad (encodeWord o) = some o) ∧
  (∀ w o, decodeWord level quad w = some o → encodeWord o = w ∧ opDefined level quad o = true) ∧
  (∀ o, opDefined level quad o = false → decodeWord level quad (encodeWord o) = none) ∧
  ∀ o o', encodeWord o = encodeWord o' → o = o'

/-- Where arm, halt, sig, undefinedWord, chainOverrun, laneCfgWrite, counterClear, monGo, monDone, txeqWrite, rxeqWrite, swpulse, groupArm,
groupDisarm, timerCfgWrite, trigInEdge, timerFire, trigOutPulseEnd, timedTrigEdge, timedTrigEnd, eventPacket, importApply, hallwayDelivery,
phaseReqNormal, phaseReqTest, phaseReqRecovery, factoryTestEnter, aperRead and aperWrite complete, and the commands of the store's training and
operating points and the events of a PLL's search (trainPassStart, trainPassComplete, trainPassAbort, trainLock, opGo, opChangeComplete, pllLock,
shutterOpen, qualTimeout, referencePresent, overfreqWhileClosed), each with its own effect. An event takes place at its instant: the model's
choice, log entry 2; the 25 us of an operating-point change are the model's choice, log entry 22. -/
def Obligations.FormsComplete : Prop := ∀ (s : State), (Awake s →
  -- R55, R58: an arm whose checks pass, and whose entry word is a PLAY that names its segment.
  (∀ (e : Eng) b g n p, ready s = true → armable s e = true → s.on (F.eng_suite_member e) = false → armCheck (checkedAt s e b) e = none →
    let a := setupAt s e b
    let x := a.engine e
    let w := setupWord s e b
    1 ≤ x.nextPc → x.nextPc ≤ bitsOf (imemWord a e 0) 32 12 → tget (fun _ => 0) a.imemErr (4096 * e.val + x.nextPc) = 0 →
    (x.cfg / 32 % 2 = 0 ∨ ∀ k, tget (fun _ => 0) a.imemErr (4096 * e.val + k) = 0) →
    decodeWord x.level (decide (512 ≤ e.val)) (imemWord w e x.nextPc) = some (.play g n) →
    tryName w e .seg x.nextPc g.toNat n.toNat (n.toNat * (descOf (beforeWrites w (x.chainCyc + 1)) (tableOf e) g.toNat).len) 0 = .ok p →
    (512 ≤ e.val → inBand a (quadOf e) x.set.rate = true ∧ a.on (F.xq_stat_retuning (quadOf e)) = false) →
    Answers (.arm e b) s (fun t => arming t e = true ∧ est t e = stIdle ∧
      ∃ q, (t.engine e).next = some q ∧ q.kind = .seg ∧ q.seg = g.toNat ∧ q.reps = n.toNat)) ∧
  -- R62, R67, R83, R104: words that end a chain, or pulse a marker.
  (∀ e : Eng, ChainReady s e → arming s e = false →
    Answers (.halt e) s (fun t => (t.engine e).halting = true ∧ (t.engine e).next = none ∧ (t.engine e).pend = {}) ∧
    (∀ m : Fin 8, m.val < 4 ∨ 2 ≤ (s.engine e).level → Answers (.sig e m) s (fun t =>
      (t.engine e).nextPc = ((s.engine e).nextPc + 1) % 4096 ∧ (m.val < 4 → (gridOf s (coreNow s), 4 * e.val + m.val) ∈ t.hall.acts))) ∧
    (∀ c, Answers (.undefinedWord e c) s (fun t => (t.engine e).halting = true ∧ (t.engine e).next = none ∧ Recorded .field 21 s t)) ∧
    Answers (.chainOverrun e) s (fun t => est t e = stFaulted ∧ (t.engine e).next = none ∧ Recorded .field 22 s t)) ∧
  -- R139, R141, R148, R152, R153: lanes and their monitors.
  (∀ (l : PinLane) v, v.toNat % 4 ≠ 3 → Answers (.laneCfgWrite l v) s (fun t => t.reg (R.le_cfg l) = v &&& 0x773#32)) ∧
  (∀ e : Eng, frozenLane s e = false → s.hw = [] → Answers (.counterClear e) s (fun t =>
    let b := if e.val < 512 then R.le_failLo e else R.xl_failLo (e - 512)
    (∀ k, k < 4 → t.reg (b + 4 * k) = 0) ∧ t.reg (capReg e + 16) = 0)) ∧
  (∀ (n : Room) v, s.on (F.mon_stat_busy n) = false → v.toNat / 4 % 8 < 5 → Answers (.monGo n v) s (fun t =>
    t.reg (R.mon_ctl n) = v &&& 0xFF1C#32 ∧ t.f (F.mon_stat_busy n) = 1)) ∧
  (∀ (n : Room) uv, s.on (F.mon_stat_busy n) = true → Answers (.monDone n uv) s (fun t =>
    t.reg (R.mon_result n) = uv ∧ t.f (F.mon_stat_done n) = 1 ∧ t.f (F.mon_stat_busy n) = 0)) ∧
  (∀ (k : XLane) v, 20 ≤ v.toNat / 2 ^ 16 % 2 ^ 7 → v.toNat / 2 ^ 16 % 2 ^ 7 ≤ 100 → v.toNat / 256 % 32 ≤ 24 → v.toNat % 32 ≤ 16 →
    Answers (.txeqWrite k v) s (fun t => t.reg (R.xl_txeq k) = v &&& 0x7F1F1F#32)) ∧
  (∀ (k : XLane) v, Answers (.rxeqWrite k v) s (fun t => t.reg (R.xl_rxeq k) = v &&& 0x10F11#32)) ∧
  -- R185, R191, R195-R198, R201, R63: the hallway.
  (∀ v : Word, Answers (.swpulse v) s (fun t => ∀ x, x < 32 → v.getLsbD x = true →
    (gridOf s (coreNow s + gridStep s), 3008 + x) ∈ t.hall.acts)) ∧
  (∀ g : Fin 16, (groupHeld s g = false → Answers (.groupArm g) s (fun t =>
      (gridOf s (coreNow s) + gridStep s, g.val, true) ∈ t.hall.chg)) ∧
    Answers (.groupDisarm g) s (fun t => (gridOf s (coreNow s) + gridStep s, g.val, false) ∈ t.hall.chg)) ∧
  (∀ (i : Fin 32) v, Answers (.timerCfgWrite i v) s (fun t => t.f (F.tmr_cfg_mode i) = v.toNat % 4 ∧ t.reg (R.tmr_cnt i) = 0)) ∧
  (∀ (i : Fin 16) up, s.f (F.trigIn_cfg_edge i) = 3 ∨ s.f (F.trigIn_cfg_edge i) = (if up then 1 else 2) →
    Answers (.trigInEdge i up false) s (fun t => t.pair (R.trigIn_stampLo i) (R.trigIn_stampHi i) = beatsNow s ∧
      t.f (F.trigIn_edges_n i) = (s.f (F.trigIn_edges_n i) + 1) % 2 ^ 32 ∧ (gridOf s (coreNow s + 4), 2880 + i.val) ∈ t.hall.acts)) ∧
  (∀ (i : Fin 32) k, s.f (F.tmr_cfg_mode i) = 1 → s.hall.tmrNext.find? (fun x => x.1 == i.val) = some (i.val, k) →
    coreOf (tmrStartT s i + k * tmrPeriodT s i) ≤ coreNow s → Answers (.timerFire i) s (fun t =>
      (gridOf s (coreOf (tmrStartT s i + k * tmrPeriodT s i)), 2960 + i.val) ∈ t.hall.acts ∧
      t.f (F.tmr_cnt_n i) = (s.f (F.tmr_cnt_n i) + 1) % 2 ^ 32)) ∧
  (∀ (i : Fin 16) u, ((s.hall.pins.filter (fun x => x.1 == i.val && x.2.2 != 0)).map (fun x => x.2.2)).min? = some u → u ≤ t16Now s →
    Answers (.trigOutPulseEnd i) s (fun t => ∀ x, x ∈ t.hall.pins → x.1 = i.val → x.2.2 ≠ u) ∧
    Answers (.timedTrigEnd i) s (fun t => ∀ x, x ∈ t.hall.pins → x.1 = i.val → x.2.2 ≠ u)) ∧
  (∀ (i : Fin 16) u, s.f (F.trigOut_cfg_mode i) = 3 → ((s.hall.timed.filter (fun x => x.1 == i.val)).map (·.2)).min? = some u →
    u + 128 * 2 ^ 16 + s.f (F.trigOut_tofs_tofs i) * 2 ^ 8 ≤ t16Now s → (∀ x, x ∈ s.hall.pins → x.1 ≠ i.val) →
    (∀ x, x ∈ s.hall.fired → timedBy s x.1 x.2.1 i = false) →
    Answers (.timedTrigEdge i) s (fun t => ∃ b c, (i.val, b, c) ∈ t.hall.pins ∧ b = u + 128 * 2 ^ 16 + s.f (F.trigOut_tofs_tofs i) * 2 ^ 8)) ∧
  (∀ (h : House) (j : Fin 64) c, eventsOk s = true → coreNow s < c → s.hall.imp.contains (j.val, c) = false →
    (s.hall.imp.filter (fun x => x.1 == j.val)).length < 8 → Answers (.eventPacket h j c) s (fun t => (j.val, c) ∈ t.hall.imp)) ∧
  (∀ (j : Fin 64) c, ((s.hall.imp.filter (fun x => x.1 == j.val)).map (·.2)).min? = some c → c ≤ coreNow s →
    Answers (.importApply j) s (fun t => (gridOf s c, 2896 + j.val) ∈ t.hall.acts ∧ (j.val, c) ∉ t.hall.imp)) ∧
  (∀ k f (e : Eng) (i : Fin 8), nextArrival s = some k → k ≤ coreNow s → s.hall.due.filter (fun x => x.1 == k) = [(k, 8 * e.val + i.val, f)] →
    (s.engine e).arrCyc ≠ coreNow s → est s e ≠ stArmed → (s.engine e).cons = [] →
    Answers .hallwayDelivery s (fun t => t.f (F.eng_task_flag e) = s.f (F.eng_task_flag e) ||| 2 ^ i.val)) ∧
  -- R180, R279: the streaming phase.
  (∀ req : Requester, let u := advanceCycle s (coreNow s + 1)
    u.on F.rings_phase_test_forced = false →
    (req ≠ .firmware → 2 ≤ u.f F.rings_phase_phase → (∀ r, r < 256 → u.on (F.ring_cfg_en r) = false) →
      Answers (.phaseReqNormal req) s (fun t => t.f F.rings_phase_phase = 1)) ∧
    (req ≠ .firmware → u.f F.rings_phase_phase = 1 → Answers (.phaseReqTest req) s (fun t => t.f F.rings_phase_phase = 2)) ∧
    (u.f F.rings_phase_phase = 1 ∨ u.f F.rings_phase_phase = 2 →
      Answers (.phaseReqRecovery req) s (fun t => t.f F.rings_phase_phase = 3))) ∧
  Answers .factoryTestEnter s (fun t => t.f F.rings_phase_phase = 2 ∧ t.f F.rings_phase_test_forced = 1) ∧
  -- R310, R314, R315: BAR2 over the store.
  (∀ off : BitVec 30, aperOpen s = true → settled s = true → storeEarly s = false →
    let a := s.f F.hif_aperBase_base * 2 ^ 20 + off.toNat
    (∀ n, a + n ≤ storeBytes → aperIdle s a n = true → let x := readBytes (crossFrames s (piecesOf a n).length) a n
      x.2.1 = false → Answers (.aperRead off n) s (fun t => t = aperReturn x.2.2 x.1 0)) ∧
    (∀ ds : List (BitVec 8), a % 64 = 0 → ds.length = 64 → a + 64 ≤ storeBytes → aperIdle s a 64 = true → s.f F.rings_phase_phase = 1 →
      (∀ r, r < 256 → ringActive s r = false) → Answers (.aperWrite off ds) s (fun t =>
        t.store = (writeGran s (a / 64) (granOf ds)).store)))) ∧
  -- R223-R225, R227, R231, R233, R234, R236, R238, R239: training, operating points, and the search of a PLL.
  let busy := s.on F.st_trainStat_pass_busy
  let op := s.f F.st_opStat_state
  let after := if s.train.chgTo = s.f F.st_stat_point then 0 else 2
  (Awake s → busy = false → op ≠ 2 → (∀ u, s.train.nextAt = some u → u ≤ s.clk.now) → ∃ t, Machine.exec .trainPassStart s = .next t ∧
    t.f F.st_trainStat_pass_busy = 1 ∧ t.train.passAt = s.clk.now ∧ t.f F.st_opStat_state = op) ∧
  (∀ cs, Awake s → busy = true → ∃ t, Machine.exec (.trainPassComplete cs) s = .next t ∧ t.f F.st_trainStat_pass_busy = 0 ∧
    t.f F.st_opStat_state = (if op = 1 then after else op)) ∧
  (Awake s → busy = true → op = 1 → s.train.reqAt + 2000 * usU ≤ s.clk.now → ∃ t, Machine.exec .trainPassAbort s = .next t ∧
    t.f F.st_trainStat_pass_busy = 0 ∧ t.f F.st_trainStat_aborted = 1 ∧ t.f F.st_opStat_state = after) ∧
  (Awake s → ∃ t, Machine.exec .trainLock s = .next t ∧ t.f F.st_trainCtl_lock = 1 ∧ ∀ a, a ≠ R.st_trainCtl → t.reg a = s.reg a) ∧
  (∀ p : Fin 4, Awake s → ∃ t, Machine.exec (.opGo p) s = .next t ∧ t.f F.st_opCtl_point = p.val ∧ t.store = s.store ∧
    t.f F.st_opStat_state = (if op = 1 ∨ op = 2 ∨ p.val = s.f F.st_stat_point then op else if busy then 1 else 2)) ∧
  (op = 2 → inSafe s = false → changeEnd s ≤ s.clk.now → ∃ t, Machine.exec .opChangeComplete s = .next t ∧ t.f F.st_opStat_state = 0 ∧
    t.f F.st_stat_point = s.train.chgTo % 4) ∧
  (∀ id : PllId, inSafe s = false →
    (∀ (band : BitVec 6) (dev : Int), s.f (F.pll_stat_state id) = 2 → ∃ t, Machine.exec (.pllLock id band dev) s = .next t ∧
      t.f (F.pll_stat_state id) = 3 ∧ t.f (F.pll_stat_band id) = band.toNat ∧ (t.pllOf id).qualAt = s.clk.now) ∧
    (s.f (F.pll_stat_state id) = 3 → (s.pllOf id).rangeHold = false → refPresent s id = true → s.stalled = [] →
      (s.pllOf id).qualAt + lockSpan s id ≤ s.clk.now → (∀ q : Quad, id.val = 33 + q.val → s.f (F.xq_stat_retuning q) = 0) →
      ∃ t, Machine.exec (.shutterOpen (id.castLE (by decide))) s = .next t ∧ t.f (F.pll_stat_open id) = 1 ∧ t.f (F.pll_stat_state id) = 4) ∧
    (pllOpen s id = false → (s.pllOf id).wait = 1 → (s.pllOf id).rangeHold = false → (s.pllOf id).since + pllBound id * usU ≤ s.clk.now →
      ∃ t, Machine.exec (.qualTimeout id) s = .next t ∧ t.f (F.pll_stat_cause id) = 4 ∧ t.f (F.pll_stat_lost id) = 1 ∧
        t.f (F.pll_stat_open id) = 0) ∧
    (s.f (F.pll_stat_state id) = 1 → (id.val ≠ 0 → houseOpen s = true) → ∃ t, Machine.exec (.referencePresent id) s = .next t ∧
      t.f (F.pll_stat_state id) = 2 ∧ (t.pllOf id).since = s.clk.now) ∧
    (pllOpen s id = false → ∃ t, Machine.exec (.overfreqWhileClosed id) s = .next t ∧ t.pllOf id = { s.pllOf id with qualAt := s.clk.now } ∧
      t.regs = s.regs))

/-- Every command answers a next state from every state: none stops the block; it leaves the queue, never turns true time back, and only the
commands that write it change the pattern store or the errors it holds. -/
def Obligations.CommandsComplete : Prop := ∀ (c : Instr) (s : State), Answers c s (fun t =>
  t.pending = s.pending ∧ s.clk.now ≤ t.clk.now ∧ (c.mayWriteStore = false → t.store = s.store ∧ t.granErr = s.granErr))

/-- Every step keeps every sparse table of the state, the pattern store's bytes among them, in its one canonical form: whatever the state,
whatever commands wait. -/
def Obligations.StepKeepsCanonical : Prop := ∀ (s t : State), Canonical s → step s = .next t →
  Canonical t ∧ Machine.Memory.wf t.store

end
end

