-- ==== Sys2Proof/Laws/Table.lean ====
section
/-! SUPPORT. Sparse tables: a read after a write, the canonical form kept by every write, and bit fields. -/

namespace Sys2Proof.Machine

@[simp] theorem tget_nil {α : Type} (d : Nat → α) (k : Nat) : tget d [] k = d k := rfl

theorem tget_cons {α : Type} (d : Nat → α) (p : Nat × α) (t : Tbl α) (k : Nat) :
    tget d (p :: t) k = if p.1 = k then p.2 else tget d t k := rfl

/-- Entering another number leaves what k reads as. -/
theorem tget_tins_ne {α : Type} (d : Nat → α) (t : Tbl α) {k j : Nat} (v : α) (h : k ≠ j) :
    tget d (tins k v t) j = tget d t j := by
  induction t with
  | nil => simp [tins, tget, h]
  | cons p r ih =>
    obtain ⟨k', v'⟩ := p
    simp only [tins]
    split <;> simp [tget_cons, h, ih]

/-- An entered number reads as its value, where it was not listed before. -/
theorem tget_tins_self {α : Type} (d : Nat → α) (t : Tbl α) (k : Nat) (v : α) (h : ∀ p ∈ t, p.1 ≠ k) :
    tget d (tins k v t) k = v := by
  induction t with
  | nil => simp [tins, tget]
  | cons p r ih =>
    obtain ⟨k', v'⟩ := p
    have hk : k' ≠ k := h (k', v') (by simp)
    simp only [tins]
    split
    · simp [tget_cons]
    · simp [tget_cons, hk, ih (fun q hq => h q (by simp [hq]))]

theorem tget_filter_ne {α : Type} (d : Nat → α) (t : Tbl α) {k j : Nat} (h : k ≠ j) :
    tget d (t.filter (fun p => !(p.1 == k))) j = tget d t j := by
  induction t with
  | nil => rfl
  | cons p r ih =>
    by_cases hp : p.1 = k
    · have : p.1 ≠ j := by omega
      simp [hp, tget_cons, ih, h]
    · simp [hp, tget_cons, ih]

theorem tget_unlisted {α : Type} (d : Nat → α) (t : Tbl α) (k : Nat) (h : ∀ p ∈ t, p.1 ≠ k) : tget d t k = d k := by
  induction t with
  | nil => rfl
  | cons p r ih => simp [tget_cons, h p (by simp), ih (fun q hq => h q (by simp [hq]))]

/-- A read after a write: the written number reads as its value, every other as before. -/
theorem tget_tset {α : Type} [DecidableEq α] (d : Nat → α) (t : Tbl α) (k j : Nat) (v : α) :
    tget d (tset d t k v) j = if k = j then v else tget d t j := by
  have hu : ∀ p ∈ t.filter (fun p => !(p.1 == k)), p.1 ≠ k := by
    intro p hp; simpa using (List.mem_filter.mp hp).2
  by_cases h : k = j
  · subst h
    simp only [tset, if_true]
    split
    · rename_i hv; rw [tget_unlisted d _ k hu, hv]
    · exact tget_tins_self d _ k v hu
  · simp only [tset, if_neg h]
    split
    · exact tget_filter_ne d t h
    · rw [tget_tins_ne d _ v h, tget_filter_ne d t h]

theorem tins_mem {α : Type} (k : Nat) (v : α) (t : Tbl α) (p : Nat × α) : p ∈ tins k v t ↔ p = (k, v) ∨ p ∈ t := by
  induction t with
  | nil => simp [tins]
  | cons q r ih =>
    simp only [tins]
    split
    · simp
    · simp only [List.mem_cons, ih]; tauto

theorem tins_sorted {α : Type} (k : Nat) (v : α) (t : Tbl α) (hs : t.Pairwise (fun a b => a.1 < b.1)) (hk : ∀ p ∈ t, p.1 ≠ k) :
    (tins k v t).Pairwise (fun a b => a.1 < b.1) := by
  induction t with
  | nil => simp [tins]
  | cons q r ih =>
    have hq : q.1 ≠ k := hk q (by simp)
    rw [List.pairwise_cons] at hs
    simp only [tins]
    split
    · rename_i hlt
      refine List.pairwise_cons.mpr ⟨?_, List.pairwise_cons.mpr hs⟩
      intro p hp
      rcases List.mem_cons.mp hp with rfl | hp
      · exact hlt
      · exact Nat.lt_trans hlt (hs.1 p hp)
    · rename_i hge
      refine List.pairwise_cons.mpr ⟨?_, ih hs.2 (fun p hp => hk p (by simp [hp]))⟩
      intro p hp
      rcases (tins_mem k v r p).mp hp with rfl | hp
      · show q.1 < k; omega
      · exact hs.1 p hp

/-- Every write keeps the canonical form. -/
theorem wf_tset {α : Type} [DecidableEq α] (d : Nat → α) (t : Tbl α) (k : Nat) (v : α) (h : Tbl.wf d t) : Tbl.wf d (tset d t k v) := by
  have hf : (t.filter (fun p => !(p.1 == k))).Pairwise (fun a b => a.1 < b.1) := h.1.filter _
  have hm : ∀ p ∈ t.filter (fun p => !(p.1 == k)), p.1 ≠ k ∧ p.2 ≠ d p.1 := by
    intro p hp
    have := List.mem_filter.mp hp
    exact ⟨by simpa using this.2, h.2 p this.1⟩
  simp only [tset]
  split
  · exact ⟨hf, fun p hp => (hm p hp).2⟩
  · rename_i hv
    refine ⟨tins_sorted k v _ hf (fun p hp => (hm p hp).1), fun p hp => ?_⟩
    rcases (tins_mem k v _ p).mp hp with rfl | hp
    · exact hv
    · exact (hm p hp).2

/-- A second write of a number replaces the first. -/
theorem tset_tset {α : Type} [DecidableEq α] (d : Nat → α) (t : Tbl α) (k : Nat) (v w : α) : tset d (tset d t k v) k w = tset d t k w := by
  have h : ∀ u : Tbl α, (tins k v u).filter (fun p => !(p.1 == k)) = u.filter (fun p => !(p.1 == k)) := by
    intro u
    induction u with
    | nil => simp [tins]
    | cons q r ih =>
      simp only [tins]
      split
      · simp
      · simp only [List.filter_cons, ih]
  have h2 : (tset d t k v).filter (fun p => !(p.1 == k)) = t.filter (fun p => !(p.1 == k)) := by
    simp only [tset]
    split
    · simp
    · rw [h]; simp
  simp only [tset] at h2 ⊢
  rw [h2]

theorem wf_nil {α : Type} [DecidableEq α] (d : Nat → α) : Tbl.wf d ([] : Tbl α) := by simp [Tbl.wf]

/-- A part of a table is canonical where the table is. -/
theorem wf_filter {α : Type} [DecidableEq α] (d : Nat → α) (t : Tbl α) (p : Nat × α → Bool) (h : Tbl.wf d t) :
    Tbl.wf d (t.filter p) :=
  ⟨h.1.filter _, fun q hq => h.2 q (List.mem_filter.mp hq).1⟩

/-! ### Bit fields -/

theorem mask_bit (w lo n i : Nat) (hi : i < w) :
    (BitVec.ofNat w ((2 ^ n - 1) * 2 ^ lo)).getLsbD i = (decide (lo ≤ i) && decide (i < lo + n)) := by
  simp only [BitVec.getLsbD_ofNat, hi, decide_true, Bool.true_and, Nat.testBit_mul_two_pow, Nat.testBit_two_pow_sub_one]
  by_cases h : lo ≤ i
  · simp [h]; omega
  · simp [h]

theorem putBits_bit {w : Nat} (x : BitVec w) (lo n v i : Nat) (hi : i < w) :
    (putBits x lo n v).getLsbD i = if lo ≤ i ∧ i < lo + n then v.testBit (i - lo) else x.getLsbD i := by
  have hm := mask_bit w lo n i hi
  simp only [putBits, BitVec.getLsbD_or, BitVec.getLsbD_and, BitVec.getLsbD_not, hi, decide_true, Bool.true_and, hm,
    BitVec.getLsbD_ofNat, Nat.testBit_mul_two_pow, Nat.testBit_mod_two_pow]
  by_cases h : lo ≤ i ∧ i < lo + n
  · have : i - lo < n := by omega
    simp [h.1, h.2, this]
  · rw [if_neg h]
    have : (decide (lo ≤ i) && decide (i < lo + n)) = false := by simpa using h
    rw [this]; simp

theorem bitsOf_testBit {w : Nat} (x : BitVec w) (lo n i : Nat) : (bitsOf x lo n).testBit i = (decide (i < n) && x.getLsbD (lo + i)) := by
  simp [bitsOf, BitVec.testBit_toNat]

/-- A field reads as what was put into it, modulo its width. -/
theorem bitsOf_putBits {w : Nat} (x : BitVec w) (lo n v : Nat) (h : lo + n ≤ w) : bitsOf (putBits x lo n v) lo n = v % 2 ^ n := by
  apply Nat.eq_of_testBit_eq
  intro i
  rw [bitsOf_testBit, Nat.testBit_mod_two_pow]
  by_cases hi : i < n
  · rw [putBits_bit x lo n v (lo + i) (by omega)]; simp [hi]
  · simp [hi]

/-- Putting one field leaves another that shares no bit with it. -/
theorem bitsOf_putBits_ne {w : Nat} (x : BitVec w) (lo n v lo' n' : Nat) (h : lo' + n' ≤ lo ∨ lo + n ≤ lo') :
    bitsOf (putBits x lo n v) lo' n' = bitsOf x lo' n' := by
  apply Nat.eq_of_testBit_eq
  intro i
  rw [bitsOf_testBit, bitsOf_testBit]
  by_cases hi : i < n'
  · by_cases hw : lo' + i < w
    · rw [putBits_bit x lo n v _ hw, if_neg (by omega)]
    · simp only [BitVec.getLsbD_of_ge _ _ (Nat.le_of_not_lt hw)]
  · simp [hi]

end Sys2Proof.Machine
end

