-- ==== Sys2Proof/Laws/State.lean ====
section
/-! SUPPORT. What each named update of the state leaves alone, field by field, and what it writes: no later proof unfolds a
record update. -/

namespace Sys2Proof.Machine

@[simp] theorem State.setReg_frame (s : State) (a : Nat) (w : Word) :
    (s.setReg a w).clk = s.clk ∧ (s.setReg a w).eng = s.eng ∧ (s.setReg a w).lane = s.lane ∧ (s.setReg a w).tab = s.tab ∧
    (s.setReg a w).pll = s.pll ∧ (s.setReg a w).hall = s.hall ∧ (s.setReg a w).epoch = s.epoch ∧
    (s.setReg a w).epochWas = s.epochWas ∧ (s.setReg a w).fltF = s.fltF ∧ (s.setReg a w).fltH = s.fltH ∧
    (s.setReg a w).store = s.store ∧ (s.setReg a w).imemErr = s.imemErr ∧ (s.setReg a w).imemStage = s.imemStage ∧
    (s.setReg a w).pairStage = s.pairStage ∧ (s.setReg a w).ctl = s.ctl ∧ (s.setReg a w).granErr = s.granErr ∧
    (s.setReg a w).porch = s.porch ∧ (s.setReg a w).fab = s.fab ∧ (s.setReg a w).parts = s.parts ∧
    (s.setReg a w).stalled = s.stalled ∧ (s.setReg a w).phaseAct = s.phaseAct ∧ (s.setReg a w).dma = s.dma ∧
    (s.setReg a w).mon = s.mon ∧ (s.setReg a w).crc = s.crc ∧ (s.setReg a w).cal = s.cal ∧ (s.setReg a w).walk = s.walk ∧
    (s.setReg a w).part = s.part ∧ (s.setReg a w).clane = s.clane ∧ (s.setReg a w).train = s.train ∧
    (s.setReg a w).boot = s.boot ∧ (s.setReg a w).msi = s.msi ∧ (s.setReg a w).hw = s.hw ∧ (s.setReg a w).free = s.free ∧
    (s.setReg a w).pending = s.pending :=
  ⟨rfl, rfl, rfl, rfl, rfl, rfl, rfl, rfl, rfl, rfl, rfl, rfl, rfl, rfl, rfl, rfl, rfl, rfl, rfl, rfl, rfl, rfl, rfl, rfl,
    rfl, rfl, rfl, rfl, rfl, rfl, rfl, rfl, rfl, rfl⟩

@[simp] theorem State.put_frame (s : State) (r : FRef) (v : Nat) :
    (s.put r v).clk = s.clk ∧ (s.put r v).eng = s.eng ∧ (s.put r v).lane = s.lane ∧ (s.put r v).tab = s.tab ∧
    (s.put r v).pll = s.pll ∧ (s.put r v).hall = s.hall ∧ (s.put r v).epoch = s.epoch ∧ (s.put r v).epochWas = s.epochWas ∧
    (s.put r v).fltF = s.fltF ∧ (s.put r v).fltH = s.fltH ∧ (s.put r v).store = s.store ∧ (s.put r v).imemErr = s.imemErr ∧
    (s.put r v).imemStage = s.imemStage ∧ (s.put r v).pairStage = s.pairStage ∧ (s.put r v).ctl = s.ctl ∧
    (s.put r v).granErr = s.granErr ∧ (s.put r v).porch = s.porch ∧ (s.put r v).fab = s.fab ∧ (s.put r v).parts = s.parts ∧
    (s.put r v).stalled = s.stalled ∧ (s.put r v).phaseAct = s.phaseAct ∧ (s.put r v).dma = s.dma ∧ (s.put r v).mon = s.mon ∧
    (s.put r v).crc = s.crc ∧ (s.put r v).cal = s.cal ∧ (s.put r v).walk = s.walk ∧ (s.put r v).part = s.part ∧
    (s.put r v).clane = s.clane ∧ (s.put r v).train = s.train ∧ (s.put r v).boot = s.boot ∧ (s.put r v).msi = s.msi ∧
    (s.put r v).hw = s.hw ∧ (s.put r v).free = s.free ∧ (s.put r v).pending = s.pending :=
  ⟨rfl, rfl, rfl, rfl, rfl, rfl, rfl, rfl, rfl, rfl, rfl, rfl, rfl, rfl, rfl, rfl, rfl, rfl, rfl, rfl, rfl, rfl, rfl, rfl,
    rfl, rfl, rfl, rfl, rfl, rfl, rfl, rfl, rfl, rfl⟩

@[simp] theorem State.noteHw_frame (s : State) (r : FRef) (m n : Nat) :
    (s.noteHw r m n).regs = s.regs ∧ (s.noteHw r m n).clk = s.clk ∧ (s.noteHw r m n).eng = s.eng ∧
    (s.noteHw r m n).lane = s.lane ∧ (s.noteHw r m n).tab = s.tab ∧ (s.noteHw r m n).pll = s.pll ∧
    (s.noteHw r m n).hall = s.hall ∧ (s.noteHw r m n).epoch = s.epoch ∧ (s.noteHw r m n).epochWas = s.epochWas ∧
    (s.noteHw r m n).fltF = s.fltF ∧ (s.noteHw r m n).fltH = s.fltH ∧ (s.noteHw r m n).store = s.store ∧
    (s.noteHw r m n).imemErr = s.imemErr ∧ (s.noteHw r m n).imemStage = s.imemStage ∧
    (s.noteHw r m n).pairStage = s.pairStage ∧ (s.noteHw r m n).ctl = s.ctl ∧ (s.noteHw r m n).granErr = s.granErr ∧
    (s.noteHw r m n).porch = s.porch ∧ (s.noteHw r m n).fab = s.fab ∧ (s.noteHw r m n).parts = s.parts ∧
    (s.noteHw r m n).stalled = s.stalled ∧ (s.noteHw r m n).phaseAct = s.phaseAct ∧ (s.noteHw r m n).dma = s.dma ∧
    (s.noteHw r m n).mon = s.mon ∧ (s.noteHw r m n).crc = s.crc ∧ (s.noteHw r m n).cal = s.cal ∧
    (s.noteHw r m n).walk = s.walk ∧ (s.noteHw r m n).part = s.part ∧ (s.noteHw r m n).clane = s.clane ∧
    (s.noteHw r m n).train = s.train ∧ (s.noteHw r m n).boot = s.boot ∧ (s.noteHw r m n).msi = s.msi ∧
    (s.noteHw r m n).free = s.free ∧ (s.noteHw r m n).pending = s.pending :=
  ⟨rfl, rfl, rfl, rfl, rfl, rfl, rfl, rfl, rfl, rfl, rfl, rfl, rfl, rfl, rfl, rfl, rfl, rfl, rfl, rfl, rfl, rfl, rfl, rfl,
    rfl, rfl, rfl, rfl, rfl, rfl, rfl, rfl, rfl, rfl⟩

@[simp] theorem State.raise_frame (s : State) (r : FRef) :
    (s.raise r).clk = s.clk ∧ (s.raise r).eng = s.eng ∧ (s.raise r).lane = s.lane ∧ (s.raise r).tab = s.tab ∧
    (s.raise r).pll = s.pll ∧ (s.raise r).hall = s.hall ∧ (s.raise r).epoch = s.epoch ∧ (s.raise r).epochWas = s.epochWas ∧
    (s.raise r).fltF = s.fltF ∧ (s.raise r).fltH = s.fltH ∧ (s.raise r).store = s.store ∧ (s.raise r).imemErr = s.imemErr ∧
    (s.raise r).imemStage = s.imemStage ∧ (s.raise r).pairStage = s.pairStage ∧ (s.raise r).ctl = s.ctl ∧
    (s.raise r).granErr = s.granErr ∧ (s.raise r).porch = s.porch ∧ (s.raise r).fab = s.fab ∧ (s.raise r).parts = s.parts ∧
    (s.raise r).stalled = s.stalled ∧ (s.raise r).phaseAct = s.phaseAct ∧ (s.raise r).dma = s.dma ∧ (s.raise r).mon = s.mon ∧
    (s.raise r).crc = s.crc ∧ (s.raise r).cal = s.cal ∧ (s.raise r).walk = s.walk ∧ (s.raise r).part = s.part ∧
    (s.raise r).clane = s.clane ∧ (s.raise r).train = s.train ∧ (s.raise r).boot = s.boot ∧ (s.raise r).msi = s.msi ∧
    (s.raise r).free = s.free ∧ (s.raise r).pending = s.pending :=
  ⟨rfl, rfl, rfl, rfl, rfl, rfl, rfl, rfl, rfl, rfl, rfl, rfl, rfl, rfl, rfl, rfl, rfl, rfl, rfl, rfl, rfl, rfl, rfl, rfl,
    rfl, rfl, rfl, rfl, rfl, rfl, rfl, rfl, rfl⟩

@[simp] theorem State.raiseBits_frame (s : State) (r : FRef) (m : Nat) :
    (s.raiseBits r m).clk = s.clk ∧ (s.raiseBits r m).eng = s.eng ∧ (s.raiseBits r m).lane = s.lane ∧
    (s.raiseBits r m).tab = s.tab ∧ (s.raiseBits r m).pll = s.pll ∧ (s.raiseBits r m).hall = s.hall ∧
    (s.raiseBits r m).epoch = s.epoch ∧ (s.raiseBits r m).epochWas = s.epochWas ∧ (s.raiseBits r m).fltF = s.fltF ∧
    (s.raiseBits r m).fltH = s.fltH ∧ (s.raiseBits r m).store = s.store ∧ (s.raiseBits r m).imemErr = s.imemErr ∧
    (s.raiseBits r m).imemStage = s.imemStage ∧ (s.raiseBits r m).pairStage = s.pairStage ∧ (s.raiseBits r m).ctl = s.ctl ∧
    (s.raiseBits r m).granErr = s.granErr ∧ (s.raiseBits r m).porch = s.porch ∧ (s.raiseBits r m).fab = s.fab ∧
    (s.raiseBits r m).parts = s.parts ∧ (s.raiseBits r m).stalled = s.stalled ∧ (s.raiseBits r m).phaseAct = s.phaseAct ∧
    (s.raiseBits r m).dma = s.dma ∧ (s.raiseBits r m).mon = s.mon ∧ (s.raiseBits r m).crc = s.crc ∧
    (s.raiseBits r m).cal = s.cal ∧ (s.raiseBits r m).walk = s.walk ∧ (s.raiseBits r m).part = s.part ∧
    (s.raiseBits r m).clane = s.clane ∧ (s.raiseBits r m).train = s.train ∧ (s.raiseBits r m).boot = s.boot ∧
    (s.raiseBits r m).msi = s.msi ∧ (s.raiseBits r m).free = s.free ∧ (s.raiseBits r m).pending = s.pending :=
  ⟨rfl, rfl, rfl, rfl, rfl, rfl, rfl, rfl, rfl, rfl, rfl, rfl, rfl, rfl, rfl, rfl, rfl, rfl, rfl, rfl, rfl, rfl, rfl, rfl,
    rfl, rfl, rfl, rfl, rfl, rfl, rfl, rfl, rfl⟩

@[simp] theorem State.count_frame (s : State) (r : FRef) (n : Nat) :
    (s.count r n).clk = s.clk ∧ (s.count r n).eng = s.eng ∧ (s.count r n).lane = s.lane ∧ (s.count r n).tab = s.tab ∧
    (s.count r n).pll = s.pll ∧ (s.count r n).hall = s.hall ∧ (s.count r n).epoch = s.epoch ∧
    (s.count r n).epochWas = s.epochWas ∧ (s.count r n).fltF = s.fltF ∧ (s.count r n).fltH = s.fltH ∧
    (s.count r n).store = s.store ∧ (s.count r n).imemErr = s.imemErr ∧ (s.count r n).imemStage = s.imemStage ∧
    (s.count r n).pairStage = s.pairStage ∧ (s.count r n).ctl = s.ctl ∧ (s.count r n).granErr = s.granErr ∧
    (s.count r n).porch = s.porch ∧ (s.count r n).fab = s.fab ∧ (s.count r n).parts = s.parts ∧
    (s.count r n).stalled = s.stalled ∧ (s.count r n).phaseAct = s.phaseAct ∧ (s.count r n).dma = s.dma ∧
    (s.count r n).mon = s.mon ∧ (s.count r n).crc = s.crc ∧ (s.count r n).cal = s.cal ∧ (s.count r n).walk = s.walk ∧
    (s.count r n).part = s.part ∧ (s.count r n).clane = s.clane ∧ (s.count r n).train = s.train ∧
    (s.count r n).boot = s.boot ∧ (s.count r n).msi = s.msi ∧ (s.count r n).free = s.free ∧
    (s.count r n).pending = s.pending :=
  ⟨rfl, rfl, rfl, rfl, rfl, rfl, rfl, rfl, rfl, rfl, rfl, rfl, rfl, rfl, rfl, rfl, rfl, rfl, rfl, rfl, rfl, rfl, rfl, rfl,
    rfl, rfl, rfl, rfl, rfl, rfl, rfl, rfl, rfl⟩

@[simp] theorem State.countSat_frame (s : State) (r : FRef) (n : Nat) :
    (s.countSat r n).clk = s.clk ∧ (s.countSat r n).eng = s.eng ∧ (s.countSat r n).lane = s.lane ∧
    (s.countSat r n).tab = s.tab ∧ (s.countSat r n).pll = s.pll ∧ (s.countSat r n).hall = s.hall ∧
    (s.countSat r n).epoch = s.epoch ∧ (s.countSat r n).epochWas = s.epochWas ∧ (s.countSat r n).fltF = s.fltF ∧
    (s.countSat r n).fltH = s.fltH ∧ (s.countSat r n).store = s.store ∧ (s.countSat r n).imemErr = s.imemErr ∧
    (s.countSat r n).imemStage = s.imemStage ∧ (s.countSat r n).pairStage = s.pairStage ∧ (s.countSat r n).ctl = s.ctl ∧
    (s.countSat r n).granErr = s.granErr ∧ (s.countSat r n).porch = s.porch ∧ (s.countSat r n).fab = s.fab ∧
    (s.countSat r n).parts = s.parts ∧ (s.countSat r n).stalled = s.stalled ∧ (s.countSat r n).phaseAct = s.phaseAct ∧
    (s.countSat r n).dma = s.dma ∧ (s.countSat r n).mon = s.mon ∧ (s.countSat r n).crc = s.crc ∧
    (s.countSat r n).cal = s.cal ∧ (s.countSat r n).walk = s.walk ∧ (s.countSat r n).part = s.part ∧
    (s.countSat r n).clane = s.clane ∧ (s.countSat r n).train = s.train ∧ (s.countSat r n).boot = s.boot ∧
    (s.countSat r n).msi = s.msi ∧ (s.countSat r n).free = s.free ∧ (s.countSat r n).pending = s.pending :=
  ⟨rfl, rfl, rfl, rfl, rfl, rfl, rfl, rfl, rfl, rfl, rfl, rfl, rfl, rfl, rfl, rfl, rfl, rfl, rfl, rfl, rfl, rfl, rfl, rfl,
    rfl, rfl, rfl, rfl, rfl, rfl, rfl, rfl, rfl⟩

@[simp] theorem State.setEngine_frame (s : State) (e : Nat) (x : Engine) :
    (s.setEngine e x).regs = s.regs ∧ (s.setEngine e x).clk = s.clk ∧ (s.setEngine e x).lane = s.lane ∧
    (s.setEngine e x).tab = s.tab ∧ (s.setEngine e x).pll = s.pll ∧ (s.setEngine e x).hall = s.hall ∧
    (s.setEngine e x).epoch = s.epoch ∧ (s.setEngine e x).epochWas = s.epochWas ∧ (s.setEngine e x).fltF = s.fltF ∧
    (s.setEngine e x).fltH = s.fltH ∧ (s.setEngine e x).store = s.store ∧ (s.setEngine e x).imemErr = s.imemErr ∧
    (s.setEngine e x).imemStage = s.imemStage ∧ (s.setEngine e x).pairStage = s.pairStage ∧ (s.setEngine e x).ctl = s.ctl ∧
    (s.setEngine e x).granErr = s.granErr ∧ (s.setEngine e x).porch = s.porch ∧ (s.setEngine e x).fab = s.fab ∧
    (s.setEngine e x).parts = s.parts ∧ (s.setEngine e x).stalled = s.stalled ∧ (s.setEngine e x).phaseAct = s.phaseAct ∧
    (s.setEngine e x).dma = s.dma ∧ (s.setEngine e x).mon = s.mon ∧ (s.setEngine e x).crc = s.crc ∧
    (s.setEngine e x).cal = s.cal ∧ (s.setEngine e x).walk = s.walk ∧ (s.setEngine e x).part = s.part ∧
    (s.setEngine e x).clane = s.clane ∧ (s.setEngine e x).train = s.train ∧ (s.setEngine e x).boot = s.boot ∧
    (s.setEngine e x).msi = s.msi ∧ (s.setEngine e x).hw = s.hw ∧ (s.setEngine e x).free = s.free ∧
    (s.setEngine e x).pending = s.pending :=
  ⟨rfl, rfl, rfl, rfl, rfl, rfl, rfl, rfl, rfl, rfl, rfl, rfl, rfl, rfl, rfl, rfl, rfl, rfl, rfl, rfl, rfl, rfl, rfl, rfl,
    rfl, rfl, rfl, rfl, rfl, rfl, rfl, rfl, rfl, rfl⟩

@[simp] theorem State.modE_frame (s : State) (e : Nat) (g : Engine → Engine) :
    (s.modE e g).regs = s.regs ∧ (s.modE e g).clk = s.clk ∧ (s.modE e g).lane = s.lane ∧ (s.modE e g).tab = s.tab ∧
    (s.modE e g).pll = s.pll ∧ (s.modE e g).hall = s.hall ∧ (s.modE e g).epoch = s.epoch ∧
    (s.modE e g).epochWas = s.epochWas ∧ (s.modE e g).fltF = s.fltF ∧ (s.modE e g).fltH = s.fltH ∧
    (s.modE e g).store = s.store ∧ (s.modE e g).imemErr = s.imemErr ∧ (s.modE e g).imemStage = s.imemStage ∧
    (s.modE e g).pairStage = s.pairStage ∧ (s.modE e g).ctl = s.ctl ∧ (s.modE e g).granErr = s.granErr ∧
    (s.modE e g).porch = s.porch ∧ (s.modE e g).fab = s.fab ∧ (s.modE e g).parts = s.parts ∧
    (s.modE e g).stalled = s.stalled ∧ (s.modE e g).phaseAct = s.phaseAct ∧ (s.modE e g).dma = s.dma ∧
    (s.modE e g).mon = s.mon ∧ (s.modE e g).crc = s.crc ∧ (s.modE e g).cal = s.cal ∧ (s.modE e g).walk = s.walk ∧
    (s.modE e g).part = s.part ∧ (s.modE e g).clane = s.clane ∧ (s.modE e g).train = s.train ∧ (s.modE e g).boot = s.boot ∧
    (s.modE e g).msi = s.msi ∧ (s.modE e g).hw = s.hw ∧ (s.modE e g).free = s.free ∧ (s.modE e g).pending = s.pending :=
  ⟨rfl, rfl, rfl, rfl, rfl, rfl, rfl, rfl, rfl, rfl, rfl, rfl, rfl, rfl, rfl, rfl, rfl, rfl, rfl, rfl, rfl, rfl, rfl, rfl,
    rfl, rfl, rfl, rfl, rfl, rfl, rfl, rfl, rfl, rfl⟩

@[simp] theorem State.modL_frame (s : State) (e : Nat) (g : Lane → Lane) :
    (s.modL e g).regs = s.regs ∧ (s.modL e g).clk = s.clk ∧ (s.modL e g).eng = s.eng ∧ (s.modL e g).tab = s.tab ∧
    (s.modL e g).pll = s.pll ∧ (s.modL e g).hall = s.hall ∧ (s.modL e g).epoch = s.epoch ∧
    (s.modL e g).epochWas = s.epochWas ∧ (s.modL e g).fltF = s.fltF ∧ (s.modL e g).fltH = s.fltH ∧
    (s.modL e g).store = s.store ∧ (s.modL e g).imemErr = s.imemErr ∧ (s.modL e g).imemStage = s.imemStage ∧
    (s.modL e g).pairStage = s.pairStage ∧ (s.modL e g).ctl = s.ctl ∧ (s.modL e g).granErr = s.granErr ∧
    (s.modL e g).porch = s.porch ∧ (s.modL e g).fab = s.fab ∧ (s.modL e g).parts = s.parts ∧
    (s.modL e g).stalled = s.stalled ∧ (s.modL e g).phaseAct = s.phaseAct ∧ (s.modL e g).dma = s.dma ∧
    (s.modL e g).mon = s.mon ∧ (s.modL e g).crc = s.crc ∧ (s.modL e g).cal = s.cal ∧ (s.modL e g).walk = s.walk ∧
    (s.modL e g).part = s.part ∧ (s.modL e g).clane = s.clane ∧ (s.modL e g).train = s.train ∧ (s.modL e g).boot = s.boot ∧
    (s.modL e g).msi = s.msi ∧ (s.modL e g).hw = s.hw ∧ (s.modL e g).free = s.free ∧ (s.modL e g).pending = s.pending :=
  ⟨rfl, rfl, rfl, rfl, rfl, rfl, rfl, rfl, rfl, rfl, rfl, rfl, rfl, rfl, rfl, rfl, rfl, rfl, rfl, rfl, rfl, rfl, rfl, rfl,
    rfl, rfl, rfl, rfl, rfl, rfl, rfl, rfl, rfl, rfl⟩

@[simp] theorem State.modT_frame (s : State) (t : Nat) (g : Table → Table) :
    (s.modT t g).regs = s.regs ∧ (s.modT t g).clk = s.clk ∧ (s.modT t g).eng = s.eng ∧ (s.modT t g).lane = s.lane ∧
    (s.modT t g).pll = s.pll ∧ (s.modT t g).hall = s.hall ∧ (s.modT t g).epoch = s.epoch ∧
    (s.modT t g).epochWas = s.epochWas ∧ (s.modT t g).fltF = s.fltF ∧ (s.modT t g).fltH = s.fltH ∧
    (s.modT t g).store = s.store ∧ (s.modT t g).imemErr = s.imemErr ∧ (s.modT t g).imemStage = s.imemStage ∧
    (s.modT t g).pairStage = s.pairStage ∧ (s.modT t g).ctl = s.ctl ∧ (s.modT t g).granErr = s.granErr ∧
    (s.modT t g).porch = s.porch ∧ (s.modT t g).fab = s.fab ∧ (s.modT t g).parts = s.parts ∧
    (s.modT t g).stalled = s.stalled ∧ (s.modT t g).phaseAct = s.phaseAct ∧ (s.modT t g).dma = s.dma ∧
    (s.modT t g).mon = s.mon ∧ (s.modT t g).crc = s.crc ∧ (s.modT t g).cal = s.cal ∧ (s.modT t g).walk = s.walk ∧
    (s.modT t g).part = s.part ∧ (s.modT t g).clane = s.clane ∧ (s.modT t g).train = s.train ∧ (s.modT t g).boot = s.boot ∧
    (s.modT t g).msi = s.msi ∧ (s.modT t g).hw = s.hw ∧ (s.modT t g).free = s.free ∧ (s.modT t g).pending = s.pending :=
  ⟨rfl, rfl, rfl, rfl, rfl, rfl, rfl, rfl, rfl, rfl, rfl, rfl, rfl, rfl, rfl, rfl, rfl, rfl, rfl, rfl, rfl, rfl, rfl, rfl,
    rfl, rfl, rfl, rfl, rfl, rfl, rfl, rfl, rfl, rfl⟩

@[simp] theorem State.modPll_frame (s : State) (i : Nat) (g : Pll → Pll) :
    (s.modPll i g).regs = s.regs ∧ (s.modPll i g).clk = s.clk ∧ (s.modPll i g).eng = s.eng ∧ (s.modPll i g).lane = s.lane ∧
    (s.modPll i g).tab = s.tab ∧ (s.modPll i g).hall = s.hall ∧ (s.modPll i g).epoch = s.epoch ∧
    (s.modPll i g).epochWas = s.epochWas ∧ (s.modPll i g).fltF = s.fltF ∧ (s.modPll i g).fltH = s.fltH ∧
    (s.modPll i g).store = s.store ∧ (s.modPll i g).imemErr = s.imemErr ∧ (s.modPll i g).imemStage = s.imemStage ∧
    (s.modPll i g).pairStage = s.pairStage ∧ (s.modPll i g).ctl = s.ctl ∧ (s.modPll i g).granErr = s.granErr ∧
    (s.modPll i g).porch = s.porch ∧ (s.modPll i g).fab = s.fab ∧ (s.modPll i g).parts = s.parts ∧
    (s.modPll i g).stalled = s.stalled ∧ (s.modPll i g).phaseAct = s.phaseAct ∧ (s.modPll i g).dma = s.dma ∧
    (s.modPll i g).mon = s.mon ∧ (s.modPll i g).crc = s.crc ∧ (s.modPll i g).cal = s.cal ∧ (s.modPll i g).walk = s.walk ∧
    (s.modPll i g).part = s.part ∧ (s.modPll i g).clane = s.clane ∧ (s.modPll i g).train = s.train ∧
    (s.modPll i g).boot = s.boot ∧ (s.modPll i g).msi = s.msi ∧ (s.modPll i g).hw = s.hw ∧ (s.modPll i g).free = s.free ∧
    (s.modPll i g).pending = s.pending :=
  ⟨rfl, rfl, rfl, rfl, rfl, rfl, rfl, rfl, rfl, rfl, rfl, rfl, rfl, rfl, rfl, rfl, rfl, rfl, rfl, rfl, rfl, rfl, rfl, rfl,
    rfl, rfl, rfl, rfl, rfl, rfl, rfl, rfl, rfl, rfl⟩

@[simp] theorem State.modF_frame (s : State) (sd : Side) (g : Collector → Collector) :
    (s.modF sd g).regs = s.regs ∧ (s.modF sd g).clk = s.clk ∧ (s.modF sd g).eng = s.eng ∧ (s.modF sd g).lane = s.lane ∧
    (s.modF sd g).tab = s.tab ∧ (s.modF sd g).pll = s.pll ∧ (s.modF sd g).hall = s.hall ∧ (s.modF sd g).epoch = s.epoch ∧
    (s.modF sd g).epochWas = s.epochWas ∧ (s.modF sd g).store = s.store ∧ (s.modF sd g).imemErr = s.imemErr ∧
    (s.modF sd g).imemStage = s.imemStage ∧ (s.modF sd g).pairStage = s.pairStage ∧ (s.modF sd g).ctl = s.ctl ∧
    (s.modF sd g).granErr = s.granErr ∧ (s.modF sd g).porch = s.porch ∧ (s.modF sd g).fab = s.fab ∧
    (s.modF sd g).parts = s.parts ∧ (s.modF sd g).stalled = s.stalled ∧ (s.modF sd g).phaseAct = s.phaseAct ∧
    (s.modF sd g).dma = s.dma ∧ (s.modF sd g).mon = s.mon ∧ (s.modF sd g).crc = s.crc ∧ (s.modF sd g).cal = s.cal ∧
    (s.modF sd g).walk = s.walk ∧ (s.modF sd g).part = s.part ∧ (s.modF sd g).clane = s.clane ∧
    (s.modF sd g).train = s.train ∧ (s.modF sd g).boot = s.boot ∧ (s.modF sd g).msi = s.msi ∧ (s.modF sd g).hw = s.hw ∧
    (s.modF sd g).free = s.free ∧ (s.modF sd g).pending = s.pending :=
  by cases sd <;> exact ⟨rfl, rfl, rfl, rfl, rfl, rfl, rfl, rfl, rfl, rfl, rfl, rfl, rfl, rfl, rfl, rfl, rfl, rfl, rfl,
    rfl, rfl, rfl, rfl, rfl, rfl, rfl, rfl, rfl, rfl, rfl, rfl, rfl, rfl⟩

@[simp] theorem State.modH_frame (s : State) (g : Hall → Hall) :
    (s.modH g).regs = s.regs ∧ (s.modH g).clk = s.clk ∧ (s.modH g).eng = s.eng ∧ (s.modH g).lane = s.lane ∧
    (s.modH g).tab = s.tab ∧ (s.modH g).pll = s.pll ∧ (s.modH g).epoch = s.epoch ∧ (s.modH g).epochWas = s.epochWas ∧
    (s.modH g).fltF = s.fltF ∧ (s.modH g).fltH = s.fltH ∧ (s.modH g).store = s.store ∧ (s.modH g).imemErr = s.imemErr ∧
    (s.modH g).imemStage = s.imemStage ∧ (s.modH g).pairStage = s.pairStage ∧ (s.modH g).ctl = s.ctl ∧
    (s.modH g).granErr = s.granErr ∧ (s.modH g).porch = s.porch ∧ (s.modH g).fab = s.fab ∧ (s.modH g).parts = s.parts ∧
    (s.modH g).stalled = s.stalled ∧ (s.modH g).phaseAct = s.phaseAct ∧ (s.modH g).dma = s.dma ∧ (s.modH g).mon = s.mon ∧
    (s.modH g).crc = s.crc ∧ (s.modH g).cal = s.cal ∧ (s.modH g).walk = s.walk ∧ (s.modH g).part = s.part ∧
    (s.modH g).clane = s.clane ∧ (s.modH g).train = s.train ∧ (s.modH g).boot = s.boot ∧ (s.modH g).msi = s.msi ∧
    (s.modH g).hw = s.hw ∧ (s.modH g).free = s.free ∧ (s.modH g).pending = s.pending :=
  ⟨rfl, rfl, rfl, rfl, rfl, rfl, rfl, rfl, rfl, rfl, rfl, rfl, rfl, rfl, rfl, rfl, rfl, rfl, rfl, rfl, rfl, rfl, rfl, rfl,
    rfl, rfl, rfl, rfl, rfl, rfl, rfl, rfl, rfl, rfl⟩

@[simp] theorem State.modP_frame (s : State) (g : Porch → Porch) :
    (s.modP g).regs = s.regs ∧ (s.modP g).clk = s.clk ∧ (s.modP g).eng = s.eng ∧ (s.modP g).lane = s.lane ∧
    (s.modP g).tab = s.tab ∧ (s.modP g).pll = s.pll ∧ (s.modP g).hall = s.hall ∧ (s.modP g).epoch = s.epoch ∧
    (s.modP g).epochWas = s.epochWas ∧ (s.modP g).fltF = s.fltF ∧ (s.modP g).fltH = s.fltH ∧ (s.modP g).store = s.store ∧
    (s.modP g).imemErr = s.imemErr ∧ (s.modP g).imemStage = s.imemStage ∧ (s.modP g).pairStage = s.pairStage ∧
    (s.modP g).ctl = s.ctl ∧ (s.modP g).granErr = s.granErr ∧ (s.modP g).fab = s.fab ∧ (s.modP g).parts = s.parts ∧
    (s.modP g).stalled = s.stalled ∧ (s.modP g).phaseAct = s.phaseAct ∧ (s.modP g).dma = s.dma ∧ (s.modP g).mon = s.mon ∧
    (s.modP g).crc = s.crc ∧ (s.modP g).cal = s.cal ∧ (s.modP g).walk = s.walk ∧ (s.modP g).part = s.part ∧
    (s.modP g).clane = s.clane ∧ (s.modP g).train = s.train ∧ (s.modP g).boot = s.boot ∧ (s.modP g).msi = s.msi ∧
    (s.modP g).hw = s.hw ∧ (s.modP g).free = s.free ∧ (s.modP g).pending = s.pending :=
  ⟨rfl, rfl, rfl, rfl, rfl, rfl, rfl, rfl, rfl, rfl, rfl, rfl, rfl, rfl, rfl, rfl, rfl, rfl, rfl, rfl, rfl, rfl, rfl, rfl,
    rfl, rfl, rfl, rfl, rfl, rfl, rfl, rfl, rfl, rfl⟩

@[simp] theorem State.modD_frame (s : State) (i : Nat) (g : Dma → Dma) :
    (s.modD i g).regs = s.regs ∧ (s.modD i g).clk = s.clk ∧ (s.modD i g).eng = s.eng ∧ (s.modD i g).lane = s.lane ∧
    (s.modD i g).tab = s.tab ∧ (s.modD i g).pll = s.pll ∧ (s.modD i g).hall = s.hall ∧ (s.modD i g).epoch = s.epoch ∧
    (s.modD i g).epochWas = s.epochWas ∧ (s.modD i g).fltF = s.fltF ∧ (s.modD i g).fltH = s.fltH ∧
    (s.modD i g).store = s.store ∧ (s.modD i g).imemErr = s.imemErr ∧ (s.modD i g).imemStage = s.imemStage ∧
    (s.modD i g).pairStage = s.pairStage ∧ (s.modD i g).ctl = s.ctl ∧ (s.modD i g).granErr = s.granErr ∧
    (s.modD i g).porch = s.porch ∧ (s.modD i g).fab = s.fab ∧ (s.modD i g).parts = s.parts ∧
    (s.modD i g).stalled = s.stalled ∧ (s.modD i g).phaseAct = s.phaseAct ∧ (s.modD i g).mon = s.mon ∧
    (s.modD i g).crc = s.crc ∧ (s.modD i g).cal = s.cal ∧ (s.modD i g).walk = s.walk ∧ (s.modD i g).part = s.part ∧
    (s.modD i g).clane = s.clane ∧ (s.modD i g).train = s.train ∧ (s.modD i g).boot = s.boot ∧ (s.modD i g).msi = s.msi ∧
    (s.modD i g).hw = s.hw ∧ (s.modD i g).free = s.free ∧ (s.modD i g).pending = s.pending :=
  ⟨rfl, rfl, rfl, rfl, rfl, rfl, rfl, rfl, rfl, rfl, rfl, rfl, rfl, rfl, rfl, rfl, rfl, rfl, rfl, rfl, rfl, rfl, rfl, rfl,
    rfl, rfl, rfl, rfl, rfl, rfl, rfl, rfl, rfl, rfl⟩

@[simp] theorem State.modMon_frame (s : State) (i : Nat) (g : Mon → Mon) :
    (s.modMon i g).regs = s.regs ∧ (s.modMon i g).clk = s.clk ∧ (s.modMon i g).eng = s.eng ∧ (s.modMon i g).lane = s.lane ∧
    (s.modMon i g).tab = s.tab ∧ (s.modMon i g).pll = s.pll ∧ (s.modMon i g).hall = s.hall ∧ (s.modMon i g).epoch = s.epoch ∧
    (s.modMon i g).epochWas = s.epochWas ∧ (s.modMon i g).fltF = s.fltF ∧ (s.modMon i g).fltH = s.fltH ∧
    (s.modMon i g).store = s.store ∧ (s.modMon i g).imemErr = s.imemErr ∧ (s.modMon i g).imemStage = s.imemStage ∧
    (s.modMon i g).pairStage = s.pairStage ∧ (s.modMon i g).ctl = s.ctl ∧ (s.modMon i g).granErr = s.granErr ∧
    (s.modMon i g).porch = s.porch ∧ (s.modMon i g).fab = s.fab ∧ (s.modMon i g).parts = s.parts ∧
    (s.modMon i g).stalled = s.stalled ∧ (s.modMon i g).phaseAct = s.phaseAct ∧ (s.modMon i g).dma = s.dma ∧
    (s.modMon i g).crc = s.crc ∧ (s.modMon i g).cal = s.cal ∧ (s.modMon i g).walk = s.walk ∧ (s.modMon i g).part = s.part ∧
    (s.modMon i g).clane = s.clane ∧ (s.modMon i g).train = s.train ∧ (s.modMon i g).boot = s.boot ∧
    (s.modMon i g).msi = s.msi ∧ (s.modMon i g).hw = s.hw ∧ (s.modMon i g).free = s.free ∧
    (s.modMon i g).pending = s.pending :=
  ⟨rfl, rfl, rfl, rfl, rfl, rfl, rfl, rfl, rfl, rfl, rfl, rfl, rfl, rfl, rfl, rfl, rfl, rfl, rfl, rfl, rfl, rfl, rfl, rfl,
    rfl, rfl, rfl, rfl, rfl, rfl, rfl, rfl, rfl, rfl⟩

@[simp] theorem State.modW_frame (s : State) (t : Nat) (g : Walk → Walk) :
    (s.modW t g).regs = s.regs ∧ (s.modW t g).clk = s.clk ∧ (s.modW t g).eng = s.eng ∧ (s.modW t g).lane = s.lane ∧
    (s.modW t g).tab = s.tab ∧ (s.modW t g).pll = s.pll ∧ (s.modW t g).hall = s.hall ∧ (s.modW t g).epoch = s.epoch ∧
    (s.modW t g).epochWas = s.epochWas ∧ (s.modW t g).fltF = s.fltF ∧ (s.modW t g).fltH = s.fltH ∧
    (s.modW t g).store = s.store ∧ (s.modW t g).imemErr = s.imemErr ∧ (s.modW t g).imemStage = s.imemStage ∧
    (s.modW t g).pairStage = s.pairStage ∧ (s.modW t g).ctl = s.ctl ∧ (s.modW t g).granErr = s.granErr ∧
    (s.modW t g).porch = s.porch ∧ (s.modW t g).fab = s.fab ∧ (s.modW t g).parts = s.parts ∧
    (s.modW t g).stalled = s.stalled ∧ (s.modW t g).phaseAct = s.phaseAct ∧ (s.modW t g).dma = s.dma ∧
    (s.modW t g).mon = s.mon ∧ (s.modW t g).crc = s.crc ∧ (s.modW t g).cal = s.cal ∧ (s.modW t g).part = s.part ∧
    (s.modW t g).clane = s.clane ∧ (s.modW t g).train = s.train ∧ (s.modW t g).boot = s.boot ∧ (s.modW t g).msi = s.msi ∧
    (s.modW t g).hw = s.hw ∧ (s.modW t g).free = s.free ∧ (s.modW t g).pending = s.pending :=
  ⟨rfl, rfl, rfl, rfl, rfl, rfl, rfl, rfl, rfl, rfl, rfl, rfl, rfl, rfl, rfl, rfl, rfl, rfl, rfl, rfl, rfl, rfl, rfl, rfl,
    rfl, rfl, rfl, rfl, rfl, rfl, rfl, rfl, rfl, rfl⟩

@[simp] theorem State.modPart_frame (s : State) (e i : Nat) (g : CalPart → CalPart) :
    (s.modPart e i g).regs = s.regs ∧ (s.modPart e i g).clk = s.clk ∧ (s.modPart e i g).eng = s.eng ∧
    (s.modPart e i g).lane = s.lane ∧ (s.modPart e i g).tab = s.tab ∧ (s.modPart e i g).pll = s.pll ∧
    (s.modPart e i g).hall = s.hall ∧ (s.modPart e i g).epoch = s.epoch ∧ (s.modPart e i g).epochWas = s.epochWas ∧
    (s.modPart e i g).fltF = s.fltF ∧ (s.modPart e i g).fltH = s.fltH ∧ (s.modPart e i g).store = s.store ∧
    (s.modPart e i g).imemErr = s.imemErr ∧ (s.modPart e i g).imemStage = s.imemStage ∧
    (s.modPart e i g).pairStage = s.pairStage ∧ (s.modPart e i g).ctl = s.ctl ∧ (s.modPart e i g).granErr = s.granErr ∧
    (s.modPart e i g).porch = s.porch ∧ (s.modPart e i g).fab = s.fab ∧ (s.modPart e i g).parts = s.parts ∧
    (s.modPart e i g).stalled = s.stalled ∧ (s.modPart e i g).phaseAct = s.phaseAct ∧ (s.modPart e i g).dma = s.dma ∧
    (s.modPart e i g).mon = s.mon ∧ (s.modPart e i g).crc = s.crc ∧ (s.modPart e i g).cal = s.cal ∧
    (s.modPart e i g).walk = s.walk ∧ (s.modPart e i g).clane = s.clane ∧ (s.modPart e i g).train = s.train ∧
    (s.modPart e i g).boot = s.boot ∧ (s.modPart e i g).msi = s.msi ∧ (s.modPart e i g).hw = s.hw ∧
    (s.modPart e i g).free = s.free ∧ (s.modPart e i g).pending = s.pending :=
  ⟨rfl, rfl, rfl, rfl, rfl, rfl, rfl, rfl, rfl, rfl, rfl, rfl, rfl, rfl, rfl, rfl, rfl, rfl, rfl, rfl, rfl, rfl, rfl, rfl,
    rfl, rfl, rfl, rfl, rfl, rfl, rfl, rfl, rfl, rfl⟩

@[simp] theorem State.modC_frame (s : State) (e : Nat) (g : CalLane → CalLane) :
    (s.modC e g).regs = s.regs ∧ (s.modC e g).clk = s.clk ∧ (s.modC e g).eng = s.eng ∧ (s.modC e g).lane = s.lane ∧
    (s.modC e g).tab = s.tab ∧ (s.modC e g).pll = s.pll ∧ (s.modC e g).hall = s.hall ∧ (s.modC e g).epoch = s.epoch ∧
    (s.modC e g).epochWas = s.epochWas ∧ (s.modC e g).fltF = s.fltF ∧ (s.modC e g).fltH = s.fltH ∧
    (s.modC e g).store = s.store ∧ (s.modC e g).imemErr = s.imemErr ∧ (s.modC e g).imemStage = s.imemStage ∧
    (s.modC e g).pairStage = s.pairStage ∧ (s.modC e g).ctl = s.ctl ∧ (s.modC e g).granErr = s.granErr ∧
    (s.modC e g).porch = s.porch ∧ (s.modC e g).fab = s.fab ∧ (s.modC e g).parts = s.parts ∧
    (s.modC e g).stalled = s.stalled ∧ (s.modC e g).phaseAct = s.phaseAct ∧ (s.modC e g).dma = s.dma ∧
    (s.modC e g).mon = s.mon ∧ (s.modC e g).crc = s.crc ∧ (s.modC e g).cal = s.cal ∧ (s.modC e g).walk = s.walk ∧
    (s.modC e g).part = s.part ∧ (s.modC e g).train = s.train ∧ (s.modC e g).boot = s.boot ∧ (s.modC e g).msi = s.msi ∧
    (s.modC e g).hw = s.hw ∧ (s.modC e g).free = s.free ∧ (s.modC e g).pending = s.pending :=
  ⟨rfl, rfl, rfl, rfl, rfl, rfl, rfl, rfl, rfl, rfl, rfl, rfl, rfl, rfl, rfl, rfl, rfl, rfl, rfl, rfl, rfl, rfl, rfl, rfl,
    rfl, rfl, rfl, rfl, rfl, rfl, rfl, rfl, rfl, rfl⟩

/-! ### What they write -/

theorem State.setReg_reg (s : State) (a b : Nat) (w : Word) : (s.setReg a w).reg b = if a = b then w else s.reg b :=
  tget_tset resetWord s.regs a b w
@[simp] theorem State.setReg_reg_self (s : State) (a : Nat) (w : Word) : (s.setReg a w).reg a = w := by simp [State.setReg_reg]
theorem State.setReg_reg_ne (s : State) {a b : Nat} (w : Word) (h : a ≠ b) : (s.setReg a w).reg b = s.reg b := by
  simp [State.setReg_reg, h]
/-- A field put reads as its value, modulo its width. -/
theorem State.put_f_self (s : State) (r : FRef) (v : Nat) (h : r.lo + r.w ≤ 32) : (s.put r v).f r = v % 2 ^ r.w := by
  simp [State.put, State.f, bitsOf_putBits _ _ _ _ h]
/-- Putting a field leaves every field of another register, and every other field of its own. -/
theorem State.put_f_ne (s : State) (r q : FRef) (v : Nat) (h : r.addr ≠ q.addr ∨ q.lo + q.w ≤ r.lo ∨ r.lo + r.w ≤ q.lo) :
    (s.put r v).f q = s.f q := by
  unfold State.put State.f
  rw [State.setReg_reg]
  split
  · rename_i e
    rcases h with h | h
    · exact absurd e h
    · rw [← e]; exact bitsOf_putBits_ne _ _ _ _ _ _ h
  · rfl
/-! A raised field, and a counted one, hold what a put of the same value leaves. -/

@[simp] theorem State.noteHw_reg (s : State) (r : FRef) (m n : Nat) (a : Nat) : (s.noteHw r m n).reg a = s.reg a := rfl
@[simp] theorem State.noteHw_f (s : State) (r : FRef) (m n : Nat) (q : FRef) : (s.noteHw r m n).f q = s.f q := rfl
@[simp] theorem State.raise_reg (s : State) (r : FRef) (a : Nat) : (s.raise r).reg a = (s.put r 1).reg a := rfl
@[simp] theorem State.raise_f (s : State) (r : FRef) (q : FRef) : (s.raise r).f q = (s.put r 1).f q := rfl
@[simp] theorem State.raiseBits_reg (s : State) (r : FRef) (m : Nat) (a : Nat) : (s.raiseBits r m).reg a = (s.put r (s.f r ||| m)).reg a := rfl
@[simp] theorem State.raiseBits_f (s : State) (r : FRef) (m : Nat) (q : FRef) : (s.raiseBits r m).f q = (s.put r (s.f r ||| m)).f q := rfl
@[simp] theorem State.count_reg (s : State) (r : FRef) (n : Nat) (a : Nat) : (s.count r n).reg a = (s.put r (s.f r + n)).reg a := rfl
@[simp] theorem State.count_f (s : State) (r : FRef) (n : Nat) (q : FRef) : (s.count r n).f q = (s.put r (s.f r + n)).f q := rfl
@[simp] theorem State.countSat_reg (s : State) (r : FRef) (n : Nat) (a : Nat) : (s.countSat r n).reg a = (s.put r (satAdd r.w (s.f r) n)).reg a := rfl
@[simp] theorem State.countSat_f (s : State) (r : FRef) (n : Nat) (q : FRef) : (s.countSat r n).f q = (s.put r (satAdd r.w (s.f r) n)).f q := rfl
theorem State.put_reg_ne (s : State) (r : FRef) (v : Nat) {a : Nat} (h : r.addr ≠ a) : (s.put r v).reg a = s.reg a :=
  State.setReg_reg_ne s _ h
theorem State.setReg_f_ne (s : State) {a : Nat} (w : Word) (q : FRef) (h : a ≠ q.addr) : (s.setReg a w).f q = s.f q := by
  simp [State.f, State.setReg_reg, h]

theorem State.setEngine_engine (s : State) (e j : Nat) (x : Engine) : (s.setEngine e x).engine j = if e = j then x else s.engine j :=
  tget_tset _ s.eng e j x
theorem State.modE_engine (s : State) (e j : Nat) (g : Engine → Engine) :
    (s.modE e g).engine j = if e = j then g (s.engine e) else s.engine j := State.setEngine_engine s e j _
theorem State.setEngine_setEngine (s : State) (e : Nat) (x y : Engine) : (s.setEngine e x).setEngine e y = s.setEngine e y := by
  simp only [State.setEngine, tset_tset]
theorem State.modE_modE (s : State) (e : Nat) (g k : Engine → Engine) : (s.modE e g).modE e k = s.modE e (fun x => k (g x)) := by
  simp only [State.modE, State.setEngine_setEngine]
  rw [State.setEngine_engine, if_pos rfl]
theorem State.put_modE (s : State) (e : Nat) (g : Engine → Engine) (r : FRef) (v : Nat) :
    (s.put r v).modE e g = (s.modE e g).put r v := rfl
@[simp] theorem State.modE_engine_self (s : State) (e : Nat) (g : Engine → Engine) : (s.modE e g).engine e = g (s.engine e) := by
  simp [State.modE_engine]
theorem State.modL_laneOf (s : State) (e j : Nat) (g : Lane → Lane) :
    (s.modL e g).laneOf j = if e = j then g (s.laneOf e) else s.laneOf j := tget_tset _ s.lane e j _
@[simp] theorem State.modL_laneOf_self (s : State) (e : Nat) (g : Lane → Lane) : (s.modL e g).laneOf e = g (s.laneOf e) := by
  simp [State.modL_laneOf]
theorem State.modT_table (s : State) (e j : Nat) (g : Table → Table) :
    (s.modT e g).table j = if e = j then g (s.table e) else s.table j := tget_tset _ s.tab e j _
@[simp] theorem State.modT_table_self (s : State) (e : Nat) (g : Table → Table) : (s.modT e g).table e = g (s.table e) := by
  simp [State.modT_table]
theorem State.modPll_pllOf (s : State) (e j : Nat) (g : Pll → Pll) :
    (s.modPll e g).pllOf j = if e = j then g (s.pllOf e) else s.pllOf j := tget_tset _ s.pll e j _
@[simp] theorem State.modPll_pllOf_self (s : State) (e : Nat) (g : Pll → Pll) : (s.modPll e g).pllOf e = g (s.pllOf e) := by
  simp [State.modPll_pllOf]
theorem State.modD_dmaOf (s : State) (e j : Nat) (g : Dma → Dma) :
    (s.modD e g).dmaOf j = if e = j then g (s.dmaOf e) else s.dmaOf j := tget_tset _ s.dma e j _
@[simp] theorem State.modD_dmaOf_self (s : State) (e : Nat) (g : Dma → Dma) : (s.modD e g).dmaOf e = g (s.dmaOf e) := by
  simp [State.modD_dmaOf]
theorem State.modMon_monOf (s : State) (e j : Nat) (g : Mon → Mon) :
    (s.modMon e g).monOf j = if e = j then g (s.monOf e) else s.monOf j := tget_tset _ s.mon e j _
@[simp] theorem State.modMon_monOf_self (s : State) (e : Nat) (g : Mon → Mon) : (s.modMon e g).monOf e = g (s.monOf e) := by
  simp [State.modMon_monOf]
theorem State.modW_walkOf (s : State) (e j : Nat) (g : Walk → Walk) :
    (s.modW e g).walkOf j = if e = j then g (s.walkOf e) else s.walkOf j := tget_tset _ s.walk e j _
@[simp] theorem State.modW_walkOf_self (s : State) (e : Nat) (g : Walk → Walk) : (s.modW e g).walkOf e = g (s.walkOf e) := by
  simp [State.modW_walkOf]
theorem State.modC_claneOf (s : State) (e j : Nat) (g : CalLane → CalLane) :
    (s.modC e g).claneOf j = if e = j then g (s.claneOf e) else s.claneOf j := tget_tset _ s.clane e j _
@[simp] theorem State.modC_claneOf_self (s : State) (e : Nat) (g : CalLane → CalLane) : (s.modC e g).claneOf e = g (s.claneOf e) := by
  simp [State.modC_claneOf]
@[simp] theorem State.modF_flt_self (s : State) (sd : Side) (g : Collector → Collector) : (s.modF sd g).flt sd = g (s.flt sd) := by
  cases sd <;> rfl
@[simp] theorem State.modH_hall (s : State) (g : Hall → Hall) : (s.modH g).hall = g s.hall := rfl
@[simp] theorem State.modP_porch (s : State) (g : Porch → Porch) : (s.modP g).porch = g s.porch := rfl

/-! ### Reads that an update of something else leaves -/

@[simp] theorem State.setReg_reads (s : State) (a : Nat) (w : Word) :
    (∀ z, (s.setReg a w).engine z = s.engine z) ∧ (∀ z, (s.setReg a w).laneOf z = s.laneOf z) ∧
    (∀ z, (s.setReg a w).table z = s.table z) ∧ (∀ z, (s.setReg a w).pllOf z = s.pllOf z) ∧
    (∀ z, (s.setReg a w).walkOf z = s.walkOf z) ∧ (∀ z, (s.setReg a w).monOf z = s.monOf z) ∧
    (∀ z, (s.setReg a w).dmaOf z = s.dmaOf z) ∧ (∀ z, (s.setReg a w).claneOf z = s.claneOf z) ∧
    (∀ z, (s.setReg a w).flt z = s.flt z) :=
  ⟨fun _ => rfl, fun _ => rfl, fun _ => rfl, fun _ => rfl, fun _ => rfl, fun _ => rfl, fun _ => rfl, fun _ => rfl, fun z => by cases z <;> rfl⟩
@[simp] theorem State.put_reads (s : State) (r : FRef) (v : Nat) :
    (∀ z, (s.put r v).engine z = s.engine z) ∧ (∀ z, (s.put r v).laneOf z = s.laneOf z) ∧
    (∀ z, (s.put r v).table z = s.table z) ∧ (∀ z, (s.put r v).pllOf z = s.pllOf z) ∧
    (∀ z, (s.put r v).walkOf z = s.walkOf z) ∧ (∀ z, (s.put r v).monOf z = s.monOf z) ∧
    (∀ z, (s.put r v).dmaOf z = s.dmaOf z) ∧ (∀ z, (s.put r v).claneOf z = s.claneOf z) ∧
    (∀ z, (s.put r v).flt z = s.flt z) :=
  ⟨fun _ => rfl, fun _ => rfl, fun _ => rfl, fun _ => rfl, fun _ => rfl, fun _ => rfl, fun _ => rfl, fun _ => rfl, fun z => by cases z <;> rfl⟩
@[simp] theorem State.noteHw_reads (s : State) (r : FRef) (m n : Nat) :
    (∀ z, (s.noteHw r m n).reg z = s.reg z) ∧ (∀ z, (s.noteHw r m n).f z = s.f z) ∧
    (∀ z, (s.noteHw r m n).engine z = s.engine z) ∧ (∀ z, (s.noteHw r m n).laneOf z = s.laneOf z) ∧
    (∀ z, (s.noteHw r m n).table z = s.table z) ∧ (∀ z, (s.noteHw r m n).pllOf z = s.pllOf z) ∧
    (∀ z, (s.noteHw r m n).walkOf z = s.walkOf z) ∧ (∀ z, (s.noteHw r m n).monOf z = s.monOf z) ∧
    (∀ z, (s.noteHw r m n).dmaOf z = s.dmaOf z) ∧ (∀ z, (s.noteHw r m n).claneOf z = s.claneOf z) ∧
    (∀ z, (s.noteHw r m n).flt z = s.flt z) :=
  ⟨fun _ => rfl, fun _ => rfl, fun _ => rfl, fun _ => rfl, fun _ => rfl, fun _ => rfl, fun _ => rfl, fun _ => rfl, fun _ => rfl, fun _ => rfl, fun z => by cases z <;> rfl⟩
@[simp] theorem State.raise_reads (s : State) (r : FRef) :
    (∀ z, (s.raise r).engine z = s.engine z) ∧ (∀ z, (s.raise r).laneOf z = s.laneOf z) ∧
    (∀ z, (s.raise r).table z = s.table z) ∧ (∀ z, (s.raise r).pllOf z = s.pllOf z) ∧
    (∀ z, (s.raise r).walkOf z = s.walkOf z) ∧ (∀ z, (s.raise r).monOf z = s.monOf z) ∧
    (∀ z, (s.raise r).dmaOf z = s.dmaOf z) ∧ (∀ z, (s.raise r).claneOf z = s.claneOf z) ∧
    (∀ z, (s.raise r).flt z = s.flt z) :=
  ⟨fun _ => rfl, fun _ => rfl, fun _ => rfl, fun _ => rfl, fun _ => rfl, fun _ => rfl, fun _ => rfl, fun _ => rfl, fun z => by cases z <;> rfl⟩
@[simp] theorem State.raiseBits_reads (s : State) (r : FRef) (m : Nat) :
    (∀ z, (s.raiseBits r m).engine z = s.engine z) ∧ (∀ z, (s.raiseBits r m).laneOf z = s.laneOf z) ∧
    (∀ z, (s.raiseBits r m).table z = s.table z) ∧ (∀ z, (s.raiseBits r m).pllOf z = s.pllOf z) ∧
    (∀ z, (s.raiseBits r m).walkOf z = s.walkOf z) ∧ (∀ z, (s.raiseBits r m).monOf z = s.monOf z) ∧
    (∀ z, (s.raiseBits r m).dmaOf z = s.dmaOf z) ∧ (∀ z, (s.raiseBits r m).claneOf z = s.claneOf z) ∧
    (∀ z, (s.raiseBits r m).flt z = s.flt z) :=
  ⟨fun _ => rfl, fun _ => rfl, fun _ => rfl, fun _ => rfl, fun _ => rfl, fun _ => rfl, fun _ => rfl, fun _ => rfl, fun z => by cases z <;> rfl⟩
@[simp] theorem State.count_reads (s : State) (r : FRef) (n : Nat) :
    (∀ z, (s.count r n).engine z = s.engine z) ∧ (∀ z, (s.count r n).laneOf z = s.laneOf z) ∧
    (∀ z, (s.count r n).table z = s.table z) ∧ (∀ z, (s.count r n).pllOf z = s.pllOf z) ∧
    (∀ z, (s.count r n).walkOf z = s.walkOf z) ∧ (∀ z, (s.count r n).monOf z = s.monOf z) ∧
    (∀ z, (s.count r n).dmaOf z = s.dmaOf z) ∧ (∀ z, (s.count r n).claneOf z = s.claneOf z) ∧
    (∀ z, (s.count r n).flt z = s.flt z) :=
  ⟨fun _ => rfl, fun _ => rfl, fun _ => rfl, fun _ => rfl, fun _ => rfl, fun _ => rfl, fun _ => rfl, fun _ => rfl, fun z => by cases z <;> rfl⟩
@[simp] theorem State.countSat_reads (s : State) (r : FRef) (n : Nat) :
    (∀ z, (s.countSat r n).engine z = s.engine z) ∧ (∀ z, (s.countSat r n).laneOf z = s.laneOf z) ∧
    (∀ z, (s.countSat r n).table z = s.table z) ∧ (∀ z, (s.countSat r n).pllOf z = s.pllOf z) ∧
    (∀ z, (s.countSat r n).walkOf z = s.walkOf z) ∧ (∀ z, (s.countSat r n).monOf z = s.monOf z) ∧
    (∀ z, (s.countSat r n).dmaOf z = s.dmaOf z) ∧ (∀ z, (s.countSat r n).claneOf z = s.claneOf z) ∧
    (∀ z, (s.countSat r n).flt z = s.flt z) :=
  ⟨fun _ => rfl, fun _ => rfl, fun _ => rfl, fun _ => rfl, fun _ => rfl, fun _ => rfl, fun _ => rfl, fun _ => rfl, fun z => by cases z <;> rfl⟩
@[simp] theorem State.setEngine_reads (s : State) (e : Nat) (x : Engine) :
    (∀ z, (s.setEngine e x).reg z = s.reg z) ∧ (∀ z, (s.setEngine e x).f z = s.f z) ∧
    (∀ z, (s.setEngine e x).laneOf z = s.laneOf z) ∧ (∀ z, (s.setEngine e x).table z = s.table z) ∧
    (∀ z, (s.setEngine e x).pllOf z = s.pllOf z) ∧ (∀ z, (s.setEngine e x).walkOf z = s.walkOf z) ∧
    (∀ z, (s.setEngine e x).monOf z = s.monOf z) ∧ (∀ z, (s.setEngine e x).dmaOf z = s.dmaOf z) ∧
    (∀ z, (s.setEngine e x).claneOf z = s.claneOf z) ∧ (∀ z, (s.setEngine e x).flt z = s.flt z) :=
  ⟨fun _ => rfl, fun _ => rfl, fun _ => rfl, fun _ => rfl, fun _ => rfl, fun _ => rfl, fun _ => rfl, fun _ => rfl, fun _ => rfl, fun z => by cases z <;> rfl⟩
@[simp] theorem State.modE_reads (s : State) (e : Nat) (g : Engine → Engine) :
    (∀ z, (s.modE e g).reg z = s.reg z) ∧ (∀ z, (s.modE e g).f z = s.f z) ∧ (∀ z, (s.modE e g).laneOf z = s.laneOf z) ∧
    (∀ z, (s.modE e g).table z = s.table z) ∧ (∀ z, (s.modE e g).pllOf z = s.pllOf z) ∧
    (∀ z, (s.modE e g).walkOf z = s.walkOf z) ∧ (∀ z, (s.modE e g).monOf z = s.monOf z) ∧
    (∀ z, (s.modE e g).dmaOf z = s.dmaOf z) ∧ (∀ z, (s.modE e g).claneOf z = s.claneOf z) ∧
    (∀ z, (s.modE e g).flt z = s.flt z) :=
  ⟨fun _ => rfl, fun _ => rfl, fun _ => rfl, fun _ => rfl, fun _ => rfl, fun _ => rfl, fun _ => rfl, fun _ => rfl, fun _ => rfl, fun z => by cases z <;> rfl⟩
@[simp] theorem State.modL_reads (s : State) (e : Nat) (g : Lane → Lane) :
    (∀ z, (s.modL e g).reg z = s.reg z) ∧ (∀ z, (s.modL e g).f z = s.f z) ∧ (∀ z, (s.modL e g).engine z = s.engine z) ∧
    (∀ z, (s.modL e g).table z = s.table z) ∧ (∀ z, (s.modL e g).pllOf z = s.pllOf z) ∧
    (∀ z, (s.modL e g).walkOf z = s.walkOf z) ∧ (∀ z, (s.modL e g).monOf z = s.monOf z) ∧
    (∀ z, (s.modL e g).dmaOf z = s.dmaOf z) ∧ (∀ z, (s.modL e g).claneOf z = s.claneOf z) ∧
    (∀ z, (s.modL e g).flt z = s.flt z) :=
  ⟨fun _ => rfl, fun _ => rfl, fun _ => rfl, fun _ => rfl, fun _ => rfl, fun _ => rfl, fun _ => rfl, fun _ => rfl, fun _ => rfl, fun z => by cases z <;> rfl⟩
@[simp] theorem State.modT_reads (s : State) (t : Nat) (g : Table → Table) :
    (∀ z, (s.modT t g).reg z = s.reg z) ∧ (∀ z, (s.modT t g).f z = s.f z) ∧ (∀ z, (s.modT t g).engine z = s.engine z) ∧
    (∀ z, (s.modT t g).laneOf z = s.laneOf z) ∧ (∀ z, (s.modT t g).pllOf z = s.pllOf z) ∧
    (∀ z, (s.modT t g).walkOf z = s.walkOf z) ∧ (∀ z, (s.modT t g).monOf z = s.monOf z) ∧
    (∀ z, (s.modT t g).dmaOf z = s.dmaOf z) ∧ (∀ z, (s.modT t g).claneOf z = s.claneOf z) ∧
    (∀ z, (s.modT t g).flt z = s.flt z) :=
  ⟨fun _ => rfl, fun _ => rfl, fun _ => rfl, fun _ => rfl, fun _ => rfl, fun _ => rfl, fun _ => rfl, fun _ => rfl, fun _ => rfl, fun z => by cases z <;> rfl⟩
@[simp] theorem State.modPll_reads (s : State) (i : Nat) (g : Pll → Pll) :
    (∀ z, (s.modPll i g).reg z = s.reg z) ∧ (∀ z, (s.modPll i g).f z = s.f z) ∧ (∀ z, (s.modPll i g).engine z = s.engine z) ∧
    (∀ z, (s.modPll i g).laneOf z = s.laneOf z) ∧ (∀ z, (s.modPll i g).table z = s.table z) ∧
    (∀ z, (s.modPll i g).walkOf z = s.walkOf z) ∧ (∀ z, (s.modPll i g).monOf z = s.monOf z) ∧
    (∀ z, (s.modPll i g).dmaOf z = s.dmaOf z) ∧ (∀ z, (s.modPll i g).claneOf z = s.claneOf z) ∧
    (∀ z, (s.modPll i g).flt z = s.flt z) :=
  ⟨fun _ => rfl, fun _ => rfl, fun _ => rfl, fun _ => rfl, fun _ => rfl, fun _ => rfl, fun _ => rfl, fun _ => rfl, fun _ => rfl, fun z => by cases z <;> rfl⟩
@[simp] theorem State.modF_reads (s : State) (sd : Side) (g : Collector → Collector) :
    (∀ z, (s.modF sd g).reg z = s.reg z) ∧ (∀ z, (s.modF sd g).f z = s.f z) ∧ (∀ z, (s.modF sd g).engine z = s.engine z) ∧
    (∀ z, (s.modF sd g).laneOf z = s.laneOf z) ∧ (∀ z, (s.modF sd g).table z = s.table z) ∧
    (∀ z, (s.modF sd g).pllOf z = s.pllOf z) ∧ (∀ z, (s.modF sd g).walkOf z = s.walkOf z) ∧
    (∀ z, (s.modF sd g).monOf z = s.monOf z) ∧ (∀ z, (s.modF sd g).dmaOf z = s.dmaOf z) ∧
    (∀ z, (s.modF sd g).claneOf z = s.claneOf z) :=
  by cases sd <;> exact ⟨fun _ => rfl, fun _ => rfl, fun _ => rfl, fun _ => rfl, fun _ => rfl, fun _ => rfl, fun _ => rfl, fun _ => rfl, fun _ => rfl, fun _ => rfl⟩
@[simp] theorem State.modH_reads (s : State) (g : Hall → Hall) :
    (∀ z, (s.modH g).reg z = s.reg z) ∧ (∀ z, (s.modH g).f z = s.f z) ∧ (∀ z, (s.modH g).engine z = s.engine z) ∧
    (∀ z, (s.modH g).laneOf z = s.laneOf z) ∧ (∀ z, (s.modH g).table z = s.table z) ∧ (∀ z, (s.modH g).pllOf z = s.pllOf z) ∧
    (∀ z, (s.modH g).walkOf z = s.walkOf z) ∧ (∀ z, (s.modH g).monOf z = s.monOf z) ∧ (∀ z, (s.modH g).dmaOf z = s.dmaOf z) ∧
    (∀ z, (s.modH g).claneOf z = s.claneOf z) ∧ (∀ z, (s.modH g).flt z = s.flt z) :=
  ⟨fun _ => rfl, fun _ => rfl, fun _ => rfl, fun _ => rfl, fun _ => rfl, fun _ => rfl, fun _ => rfl, fun _ => rfl, fun _ => rfl, fun _ => rfl, fun z => by cases z <;> rfl⟩
@[simp] theorem State.modP_reads (s : State) (g : Porch → Porch) :
    (∀ z, (s.modP g).reg z = s.reg z) ∧ (∀ z, (s.modP g).f z = s.f z) ∧ (∀ z, (s.modP g).engine z = s.engine z) ∧
    (∀ z, (s.modP g).laneOf z = s.laneOf z) ∧ (∀ z, (s.modP g).table z = s.table z) ∧ (∀ z, (s.modP g).pllOf z = s.pllOf z) ∧
    (∀ z, (s.modP g).walkOf z = s.walkOf z) ∧ (∀ z, (s.modP g).monOf z = s.monOf z) ∧ (∀ z, (s.modP g).dmaOf z = s.dmaOf z) ∧
    (∀ z, (s.modP g).claneOf z = s.claneOf z) ∧ (∀ z, (s.modP g).flt z = s.flt z) :=
  ⟨fun _ => rfl, fun _ => rfl, fun _ => rfl, fun _ => rfl, fun _ => rfl, fun _ => rfl, fun _ => rfl, fun _ => rfl, fun _ => rfl, fun _ => rfl, fun z => by cases z <;> rfl⟩
@[simp] theorem State.modD_reads (s : State) (i : Nat) (g : Dma → Dma) :
    (∀ z, (s.modD i g).reg z = s.reg z) ∧ (∀ z, (s.modD i g).f z = s.f z) ∧ (∀ z, (s.modD i g).engine z = s.engine z) ∧
    (∀ z, (s.modD i g).laneOf z = s.laneOf z) ∧ (∀ z, (s.modD i g).table z = s.table z) ∧
    (∀ z, (s.modD i g).pllOf z = s.pllOf z) ∧ (∀ z, (s.modD i g).walkOf z = s.walkOf z) ∧
    (∀ z, (s.modD i g).monOf z = s.monOf z) ∧ (∀ z, (s.modD i g).claneOf z = s.claneOf z) ∧
    (∀ z, (s.modD i g).flt z = s.flt z) :=
  ⟨fun _ => rfl, fun _ => rfl, fun _ => rfl, fun _ => rfl, fun _ => rfl, fun _ => rfl, fun _ => rfl, fun _ => rfl, fun _ => rfl, fun z => by cases z <;> rfl⟩
@[simp] theorem State.modMon_reads (s : State) (i : Nat) (g : Mon → Mon) :
    (∀ z, (s.modMon i g).reg z = s.reg z) ∧ (∀ z, (s.modMon i g).f z = s.f z) ∧ (∀ z, (s.modMon i g).engine z = s.engine z) ∧
    (∀ z, (s.modMon i g).laneOf z = s.laneOf z) ∧ (∀ z, (s.modMon i g).table z = s.table z) ∧
    (∀ z, (s.modMon i g).pllOf z = s.pllOf z) ∧ (∀ z, (s.modMon i g).walkOf z = s.walkOf z) ∧
    (∀ z, (s.modMon i g).dmaOf z = s.dmaOf z) ∧ (∀ z, (s.modMon i g).claneOf z = s.claneOf z) ∧
    (∀ z, (s.modMon i g).flt z = s.flt z) :=
  ⟨fun _ => rfl, fun _ => rfl, fun _ => rfl, fun _ => rfl, fun _ => rfl, fun _ => rfl, fun _ => rfl, fun _ => rfl, fun _ => rfl, fun z => by cases z <;> rfl⟩
@[simp] theorem State.modW_reads (s : State) (t : Nat) (g : Walk → Walk) :
    (∀ z, (s.modW t g).reg z = s.reg z) ∧ (∀ z, (s.modW t g).f z = s.f z) ∧ (∀ z, (s.modW t g).engine z = s.engine z) ∧
    (∀ z, (s.modW t g).laneOf z = s.laneOf z) ∧ (∀ z, (s.modW t g).table z = s.table z) ∧
    (∀ z, (s.modW t g).pllOf z = s.pllOf z) ∧ (∀ z, (s.modW t g).monOf z = s.monOf z) ∧
    (∀ z, (s.modW t g).dmaOf z = s.dmaOf z) ∧ (∀ z, (s.modW t g).claneOf z = s.claneOf z) ∧
    (∀ z, (s.modW t g).flt z = s.flt z) :=
  ⟨fun _ => rfl, fun _ => rfl, fun _ => rfl, fun _ => rfl, fun _ => rfl, fun _ => rfl, fun _ => rfl, fun _ => rfl, fun _ => rfl, fun z => by cases z <;> rfl⟩
@[simp] theorem State.modPart_reads (s : State) (e i : Nat) (g : CalPart → CalPart) :
    (∀ z, (s.modPart e i g).reg z = s.reg z) ∧ (∀ z, (s.modPart e i g).f z = s.f z) ∧
    (∀ z, (s.modPart e i g).engine z = s.engine z) ∧ (∀ z, (s.modPart e i g).laneOf z = s.laneOf z) ∧
    (∀ z, (s.modPart e i g).table z = s.table z) ∧ (∀ z, (s.modPart e i g).pllOf z = s.pllOf z) ∧
    (∀ z, (s.modPart e i g).walkOf z = s.walkOf z) ∧ (∀ z, (s.modPart e i g).monOf z = s.monOf z) ∧
    (∀ z, (s.modPart e i g).dmaOf z = s.dmaOf z) ∧ (∀ z, (s.modPart e i g).claneOf z = s.claneOf z) ∧
    (∀ z, (s.modPart e i g).flt z = s.flt z) :=
  ⟨fun _ => rfl, fun _ => rfl, fun _ => rfl, fun _ => rfl, fun _ => rfl, fun _ => rfl, fun _ => rfl, fun _ => rfl, fun _ => rfl, fun _ => rfl, fun z => by cases z <;> rfl⟩
@[simp] theorem State.modC_reads (s : State) (e : Nat) (g : CalLane → CalLane) :
    (∀ z, (s.modC e g).reg z = s.reg z) ∧ (∀ z, (s.modC e g).f z = s.f z) ∧ (∀ z, (s.modC e g).engine z = s.engine z) ∧
    (∀ z, (s.modC e g).laneOf z = s.laneOf z) ∧ (∀ z, (s.modC e g).table z = s.table z) ∧
    (∀ z, (s.modC e g).pllOf z = s.pllOf z) ∧ (∀ z, (s.modC e g).walkOf z = s.walkOf z) ∧
    (∀ z, (s.modC e g).monOf z = s.monOf z) ∧ (∀ z, (s.modC e g).dmaOf z = s.dmaOf z) ∧ (∀ z, (s.modC e g).flt z = s.flt z) :=
  ⟨fun _ => rfl, fun _ => rfl, fun _ => rfl, fun _ => rfl, fun _ => rfl, fun _ => rfl, fun _ => rfl, fun _ => rfl, fun _ => rfl, fun z => by cases z <;> rfl⟩

end Sys2Proof.Machine
end

