-- ==== Sys2Proof/Laws/Ops.lean ====
section
/-! SUPPORT. The senders' gates in a side that runs undisturbed, and the fields that gates read. -/

namespace Sys2Proof.Machine

theorem State.setReg_regsOnly (s : State) (a : Nat) (w : Word) : RegsOnly [a] s (s.setReg a w) :=
  ⟨fun b hb => State.setReg_reg_ne s w (by simp only [List.mem_singleton] at hb; exact fun e => hb e.symm), rfl⟩
theorem State.put_regsOnly (s : State) (r : FRef) (v : Nat) : RegsOnly [r.addr] s (s.put r v) := State.setReg_regsOnly s r.addr _

theorem wake_zero (s : State) (k : Nat) (h : s.f F.pwr_stat_state = 0) : wake s k = s := by simp [wake, h]
theorem endIdle_zero (s : State) (h : s.f F.pwr_stat_state = 0) : endIdle s = s := by simp [endIdle, h]
theorem coreCmd_awake (s : State) (g : State → State) (h : Awake s) : coreCmd s g = g s := by
  simp [coreCmd, h.1, frozen, h.2.1, wake_zero s 1 h.2.2]
theorem cfgCmd_awake (s : State) (g : State → State) (h : Awake s) : cfgCmd s g = g s := by
  simp [cfgCmd, h.1, frozen, h.2.1, wake_zero s 1 h.2.2]
theorem infraCmd_awake (s : State) (g : State → State) (h : Awake s) (hg : (g s).f F.pwr_stat_state = 0) : infraCmd s g = g s := by
  simp [infraCmd, h.1, endIdle_zero _ hg]

/-- The present core cycle has been reached. -/
theorem advanceCycle_now (s : State) : advanceCycle s (coreNow s) = s := by
  have : ¬ s.clk.house < coreNow s * coreU := by
    unfold coreNow coreU; omega
  simp [advanceCycle, advanceHouse, this]

end Sys2Proof.Machine
end

