-- ==== Sys2Proof/Laws/Outside.lean ====
section
/-! SUPPORT. What a fault record that is not FATAL, an interrupt request and a counted event leave alone: every register but those
of the collectors, of the monitor counters and of the host tile, and everything that is no register, record, message or detector. -/

namespace Sys2Proof.Machine

/-- A register that the attic, an ALIVE pin, a count or a pending vector writes. -/
def recReg (a : Nat) : Prop :=
  (0x50000 ≤ a ∧ a < 0x52000) ∨ (0x03F20000 ≤ a ∧ a < 0x03F30000) ∨
  ∃ sd k, a = faultBase sd + k ∧ (k = 8 ∨ k = 0x1c ∨ (0x20 ≤ k ∧ k ≤ 0x2c) ∨ k = 0x44 ∨ (0x100 ≤ k ∧ k < 0x200))

/-- t is s but for records, requests, messages and counts, and every register of P is as in s. -/
def Outside (P : Nat → Prop) (s t : State) : Prop :=
  (∀ a, recReg a → ¬ P a) ∧ (∀ a, P a → t.reg a = s.reg a) ∧ t.clk = s.clk ∧ t.eng = s.eng ∧ t.lane = s.lane ∧ t.tab = s.tab ∧ t.pll = s.pll ∧
  t.store = s.store ∧ t.granErr = s.granErr ∧ t.imemErr = s.imemErr ∧ t.imemStage = s.imemStage ∧ t.pairStage = s.pairStage ∧
  t.ctl = s.ctl ∧ t.parts = s.parts ∧ t.dma = s.dma ∧ t.crc = s.crc ∧ t.cal = s.cal ∧ t.walk = s.walk ∧ t.part = s.part ∧
  t.clane = s.clane ∧ t.train = s.train ∧ t.boot = s.boot ∧ t.epoch = s.epoch ∧ t.epochWas = s.epochWas ∧ t.stalled = s.stalled ∧
  t.phaseAct = s.phaseAct ∧ t.free = s.free ∧ t.pending = s.pending

section
variable {P : Nat → Prop} {s0 s : State}

theorem plainReg_free : ∀ a, recReg a → ¬ PlainReg a := by
  rintro a (h | h | ⟨sd, k, rfl, h⟩)
  · simp only [PlainReg]; omega
  · simp only [PlainReg]; omega
  · cases sd <;> simp only [PlainReg, faultBase] <;> omega
theorem Outside.refl (hP : ∀ a, recReg a → ¬ P a) (s : State) : Outside P s s := by simpa [Outside] using hP
theorem Outside.reg (h : Outside P s0 s) {a : Nat} (w : Word) (ha : ¬ P a) : Outside P s0 (s.setReg a w) := by
  refine ⟨h.1, fun b hb => ?_, h.2.2⟩
  have hab : a ≠ b := by intro e; subst e; exact ha hb
  rw [State.setReg_reg_ne s w hab]
  exact h.2.1 b hb
/-- A register of the kind that records write. -/
theorem Outside.rec (h : Outside P s0 s) {a : Nat} (w : Word) (ha : recReg a) : Outside P s0 (s.setReg a w) := h.reg w (h.1 a ha)
theorem Outside.putRec (h : Outside P s0 s) {r : FRef} (v : Nat) (ha : recReg r.addr) : Outside P s0 (s.put r v) := h.rec _ ha
/-- What hardware updated in this cycle is noted. -/
theorem Outside.note (h : Outside P s0 s) (r : FRef) (m n : Nat) : Outside P s0 (s.noteHw r m n) := h
theorem Outside.raiseRec (h : Outside P s0 s) {r : FRef} (ha : recReg r.addr) : Outside P s0 (s.raise r) := (h.putRec 1 ha).note _ _ _
theorem Outside.countRec (h : Outside P s0 s) {r : FRef} (n : Nat) (ha : recReg r.addr) : Outside P s0 (s.count r n) :=
  (h.putRec _ ha).note _ _ _
theorem Outside.countSatRec (h : Outside P s0 s) {r : FRef} (n : Nat) (ha : recReg r.addr) : Outside P s0 (s.countSat r n) :=
  (h.putRec _ ha).note _ _ _
/-- Records, requests, messages and counters change. -/
theorem Outside.upd (h : Outside P s0 s) (mon : Tbl Mon) (fltF fltH : Collector) (porch : Porch) (fab : Fab) (hall : Hall) (msi : List Nat) :
    Outside P s0 { s with mon := mon, fltF := fltF, fltH := fltH, porch := porch, fab := fab, hall := hall, msi := msi } := h
theorem Outside.foldl {α : Type} {g : State → α → State} {l : List α} (h : Outside P s0 s)
    (hg : ∀ u x, x ∈ l → Outside P s0 u → Outside P s0 (g u x)) : Outside P s0 (l.foldl g s) := by
  induction l generalizing s with
  | nil => exact h
  | cons x xs ih => exact ih (hg s x (by simp) h) (fun u y hy => hg u y (by simp [hy]))
theorem Outside.when (h : Outside P s0 s) (c : Bool) {f : State → State} (hf : Outside P s0 s → Outside P s0 (f s)) : Outside P s0 (s.when c f) := by
  unfold State.when; split
  · exact hf h
  · exact h
theorem Outside.ite {c : Prop} [Decidable c] {a b : State} (ha : c → Outside P s0 a) (hb : ¬ c → Outside P s0 b) :
    Outside P s0 (if c then a else b) := by
  split
  · exact ha ‹_›
  · exact hb ‹_›
theorem Outside.f {r : FRef} (h : Outside P s0 s) (ha : P r.addr) : s.f r = s0.f r := by simp [State.f, h.2.1 _ ha]
theorem Outside.engine (h : Outside P s0 s) (e : Nat) : s.engine e = s0.engine e := by simp [State.engine, h.2.2.2.1]

theorem setMonVal_outside (h : Outside P s0 s) (i v : Nat) (hi : i < 256) : Outside P s0 (setMonVal s i v) := by
  unfold setMonVal
  refine Outside.when ((h.rec _ ?_).rec _ ?_) _ fun h => h.putRec _ ?_ <;>
    (left; simp only [R.mcnt_valLo, R.mcnt_valHi, F.mcnt_stat_ovf, R.mcnt_stat]; omega)
theorem monAdd_outside (h : Outside P s0 s) (i c n : Nat) (hi : i < 256) : Outside P s0 (monAdd s i c n) := by
  unfold monAdd
  refine Outside.when ?_ _ fun h => (h.rec _ ?_).rec _ ?_
  · exact (setMonVal_outside h i _ hi).upd _ _ _ _ _ _ _
  all_goals (left; simp only [R.mcnt_snapLo, R.mcnt_snapHi]; omega)
theorem monEventAt_outside (h : Outside P s0 s) (src c n : Nat) : Outside P s0 (monEventAt s src c n) :=
  h.foldl fun _ i hi hu => hu.when _ fun hu => monAdd_outside hu i c n (List.mem_range.mp hi)
theorem monEvent_outside (h : Outside P s0 s) (src n : Nat) : Outside P s0 (monEvent s src n) := monEventAt_outside h _ _ _
theorem sendToHost_outside (h : Outside P s0 s) (m : Msg) : Outside P s0 (sendToHost s m) := by
  unfold sendToHost; split
  · exact (monEvent_outside h _ _).upd _ _ _ _ _ _ _
  · exact h
theorem sendToField_outside (h : Outside P s0 s) (m : Msg) : Outside P s0 (sendToField s m) := by
  unfold sendToField; split
  · exact h.upd _ _ _ _ _ _ _
  · exact h
theorem raiseVector_outside (h : Outside P s0 s) (v : Nat) (hv : v < 64) : Outside P s0 (raiseVector s v) := by
  unfold raiseVector; split
  · refine h.putRec _ (Or.inr (Or.inl ?_))
    simp only [R.pba_word]; omega
  · exact h.upd _ _ _ _ _ _ _
theorem irqField_outside (h : Outside P s0 s) (v : Nat) : Outside P s0 (irqField s v) := by
  unfold irqField; split
  · exact h
  · split
    · split
      · exact h.upd _ _ _ _ _ _ _
      · exact (sendToHost_outside h _).upd _ _ _ _ _ _ _
    · exact (sendToHost_outside h _).upd _ _ _ _ _ _ _
theorem irqEngine_outside (h : Outside P s0 s) (t : Nat) : Outside P s0 (irqEngine s t) := by
  exact irqField_outside h _
theorem sendAliveField_outside (h : Outside P s0 s) : Outside P s0 (sendAliveField s) := sendToHost_outside h _
theorem sendAliveHost_outside (h : Outside P s0 s) : Outside P s0 (sendAliveHost s) := sendToField_outside h _
theorem aliveStop_outside (h : Outside P s0 s) (sd : Side) (st : Nat) : Outside P s0 (aliveStop s sd st) := by
  unfold aliveStop
  dsimp only
  split
  · exact h
  · have h1 : Outside P s0 (s.put (F.flt_alive_own sd) st) := h.putRec _ (Or.inr (Or.inr ⟨sd, 0x1c, rfl, by omega⟩))
    cases sd
    · exact sendAliveField_outside h1
    · exact sendAliveHost_outside h1
theorem putSlot_outside (h : Outside P s0 s) (sd : Side) (r : FRec) (q : Nat) (same : Bool) : Outside P s0 (putSlot s sd r q same) := by
  unfold putSlot
  have hq := Nat.mod_lt q (show 0 < 16 by omega)
  refine (((h.rec _ (Or.inr (Or.inr ⟨sd, 0x100 + 0x10 * (q % 16), ?_, ?_⟩))).rec _
    (Or.inr (Or.inr ⟨sd, 0x104 + 0x10 * (q % 16), ?_, ?_⟩))).rec _ (Or.inr (Or.inr ⟨sd, 0x108 + 0x10 * (q % 16), ?_, ?_⟩))).rec _
    (Or.inr (Or.inr ⟨sd, 0x10c + 0x10 * (q % 16), ?_, ?_⟩)) <;>
    first | omega | (simp only [R.attic_w0, R.attic_w1, R.attic_w2, R.attic_w3]; omega)
theorem putSlots_outside (h : Outside P s0 s) (sd : Side) (same : Bool) (q : Nat) (l : List FRec) : Outside P s0 (putSlots s sd same q l) := by
  induction l generalizing s q with
  | nil => exact h
  | cons r rs ih => exact ih (putSlot_outside h sd r q same) (q + 1)
theorem fabPut_outside (h : Outside P s0 s) (x : Option Nat × Packet) : Outside P s0 (fabPut s x) := h.upd _ _ _ _ _ _ _
theorem sendNotices_outside (h : Outside P s0 s) (old new : List (Word × Word × Word × Word)) : Outside P s0 (sendNotices s old new) := by
  unfold sendNotices
  extract_lets gone s1 dest
  have h1 : Outside P s0 s1 := by
    show Outside P s0 (if _ then _ else _)
    split
    · exact h.upd _ _ _ _ _ _ _
    · exact h
  clear_value s1
  split
  · split
    · exact h1
    · refine monEvent_outside (Outside.foldl ?_ fun u x _ hu => fabPut_outside hu _) _ _
      exact h1.upd _ _ _ _ _ _ _
  · exact h1
theorem queueRec_outside (h : Outside P s0 s) (sd : Side) (r : FRec) : Outside P s0 (queueRec s sd r) := by
  have hf : ∀ {u : State} c, Outside P s0 u → Outside P s0 (u.setFlt sd c) := fun c hu => by
    cases sd <;> exact hu.upd _ _ _ _ _ _ _
  have hr : ∀ {u : State} (k : Nat) (_ : k = 8 ∨ k = 0x1c ∨ (0x20 ≤ k ∧ k ≤ 0x2c) ∨ k = 0x44) (w : Word), Outside P s0 u →
      Outside P s0 (u.setReg (faultBase sd + k) w) :=
    fun k hk w hu => hu.rec w (Or.inr (Or.inr ⟨sd, k, rfl, by omega⟩))
  unfold queueRec
  extract_lets c0 cyc c full b lostN q0 same grown first s1 s2 s3 n s4 s5 s6
  have h1 : Outside P s0 s1 := hf _ h
  have h2 : Outside P s0 s2 := putSlots_outside h1 _ _ _ _
  have hw : ∀ (k : Nat) (_ : k = 8 ∨ k = 0x1c ∨ (0x20 ≤ k ∧ k ≤ 0x2c) ∨ k = 0x44), recReg (faultBase sd + k) :=
    fun k hk => Or.inr (Or.inr ⟨sd, k, rfl, by omega⟩)
  have h3 : Outside P s0 s3 := h2.countSatRec _ (hw 8 (by omega))
  have h4 : Outside P s0 s4 := by
    show Outside P s0 (if _ then _ else if _ then _ else _)
    split
    · exact h3
    · split
      · exact hr 0x44 (by omega) _ h3
      · exact h3.countSatRec _ (hw 0x44 (by omega))
  have h5 : Outside P s0 s5 := hr 0x44 (by omega) _ h4
  have h6 : Outside P s0 s6 := by
    show Outside P s0 (if _ then _ else _)
    clear_value s5 b
    split
    · split
      · exact h5
      · exact hr 0x44 (by omega) _ (hr 0x2c (by omega) _ (hr 0x28 (by omega) _ (hr 0x24 (by omega) _ (hr 0x20 (by omega) _ h5))))
    · exact h5
  split
  · exact (hf _ h).countSatRec _ (hw 8 (by omega))
  · cases sd
    · exact sendNotices_outside h6 _ _
    · exact h6
theorem reactions_outside (h : Outside P s0 s) (sd : Side) (r : FRec) : Outside P s0 (reactions s sd r) := by
  have hm : ∀ {u : State} g, Outside P s0 u → Outside P s0 (u.modF sd g) := fun g hu => by
    cases sd <;> exact hu.upd _ _ _ _ _ _ _
  unfold reactions
  extract_lets s1 s2 s3 s4
  have h1 : Outside P s0 s1 := h.when _ fun h => by
    cases sd
    · exact irqField_outside (hm _ h) _
    · exact raiseVector_outside h _ (by omega)
  have h2 : Outside P s0 s2 := h1.when _ fun h => hm _ h
  have h3 : Outside P s0 s3 := h2.when _ fun h => hm _ h
  have h4 : Outside P s0 s4 := h3.when _ fun h => hm _ h
  exact h4.when _ fun h => aliveStop_outside h _ _

/-- What a record does once its source's count and the side's count have been raised, where it is not FATAL. -/
theorem recordRaw_tail (hP : ∀ a, recReg a → ¬ P a) (s : State) (sd : Side) (src unit cls : Nat) (syn : Word) (inj : Bool) (hc : cls ≠ 3)
    (hd : srcDefault (match sd with | .field => 0 | .host => 1) src ≠ none) (hh : heldSide s sd = false) :
    Outside P (((s.countSat (F.src_stat_count sd src) 1).raise (F.src_stat_active sd src)).count (F.flt_count_n sd) 1)
      (recordRaw s sd src unit cls syn inj) := by
  have hm : ∀ {u v : State} g, Outside P u v → Outside P u (v.modF sd g) := fun g hu => by
    cases sd <;> exact hu.upd _ _ _ _ _ _ _
  unfold recordRaw
  rw [if_neg (by simp only [hh, Bool.false_eq_true, false_or]; exact hd)]
  extract_lets r s1 s2 s3 u s4
  have h1 : Outside P s1 s1 := Outside.refl hP s1
  have h2 : Outside P s1 s2 := by
    show Outside P s1 (if _ then _ else _)
    split
    · exact hm _ (h1.countSatRec _ (Or.inr (Or.inr ⟨sd, 8, rfl, by omega⟩)))
    · exact queueRec_outside h1 _ _
  have h3 : Outside P s1 s3 := h2.when _ fun h => h.upd _ _ _ _ _ _ _
  have h4 : Outside P s1 s4 := by
    show Outside P s1 (if cls = 3 then _ else _)
    rw [if_neg hc]; exact h3
  exact reactions_outside h4 _ _

theorem Outside.trans {a b c : State} (h : Outside P a b) (k : Outside P b c) : Outside P a c := by
  unfold Outside at *
  obtain ⟨h0, h1, h2⟩ := h
  obtain ⟨-, k1, k2⟩ := k
  refine ⟨h0, fun x hx => (k1 x hx).trans (h1 x hx), ?_⟩
  simp only [k2, h2, and_self]

/-- A record that is not FATAL. -/
theorem recordRaw_outside (h : Outside PlainReg s0 s) (sd : Side) (src unit cls : Nat) (syn : Word) (inj : Bool) (hs : src < 256)
    (hc : cls ≠ 3) : Outside PlainReg s0 (recordRaw s sd src unit cls syn inj) := by
  by_cases hh : heldSide s sd = true ∨ srcDefault (match sd with | .field => 0 | .host => 1) src = none
  · have : recordRaw s sd src unit cls syn inj = s := by unfold recordRaw; exact if_pos hh
    rw [this]; exact h
  · rw [not_or, Bool.not_eq_true] at hh
    refine h.trans (Outside.trans ?_ (recordRaw_tail plainReg_free s sd src unit cls syn inj hc hh.2 hh.1))
    have hf : ∀ k, k < 0x10000 → ¬ PlainReg (faultBase sd + k) := by
      intro k hk; cases sd <;> simp only [PlainReg, faultBase] <;> omega
    have e : R.src_stat sd src = faultBase sd + (0x400 + 8 * src + 4) := by simp only [R.src_stat]; omega
    have hsrc : ¬ PlainReg (R.src_stat sd src) := by rw [e]; exact hf _ (by omega)
    exact (((((((Outside.refl plainReg_free s).reg _ hsrc).note _ _ _).reg _ hsrc).note _ _ _).reg _ (hf 0xc (by omega))).note _ _ _)

theorem fault_outside (h : Outside PlainReg s0 s) (src unit : Nat) (c : FaultClass) (syn : Nat) (hs : src < 256) (hc : c ≠ .fatal) :
    Outside PlainReg s0 (fault s src unit c syn) := by
  refine recordRaw_outside h _ _ _ _ _ _ hs ?_
  cases c <;> simp_all [classCode]
theorem hostFault_outside (h : Outside PlainReg s0 s) (src unit : Nat) (c : FaultClass) (syn : Nat) (hs : src < 256) (hc : c ≠ .fatal) :
    Outside PlainReg s0 (hostFault s src unit c syn) := by
  refine recordRaw_outside h _ _ _ _ _ _ hs ?_
  cases c <;> simp_all [classCode]

end

end Sys2Proof.Machine
end

