-- ==== Sys2Proof/Laws/Engine.lean ====
section
/-! SUPPORT. One word of a chain: where it acts, and what it leaves where its operation changes the engine alone. -/

namespace Sys2Proof.Machine

theorem wordStep_ready {s : State} {e : Nat} {g : State → Nat → State} (h : ChainTakes s e)
    (hn : ((g (wordAt s e) (s.engine e).nextPc).engine e).chainN < 4096) :
    wordStep s e g = g (wordAt s e) (s.engine e).nextPc := by
  obtain ⟨ho, hu, hc, -⟩ := h
  have hm : max ((s.engine e).chainCyc + 1) (coreNow s) = coreNow s := by omega
  have hw : ((s.modE e (fun y => { y with chainCyc := coreNow s, chainN := y.chainN + 1 })).put (F.eng_pc_pc e) (s.engine e).nextPc)
      = wordAt s e := rfl
  simp only [wordStep, hu, chainWord, ho, if_true, hm, advanceCycle_now, hw]
  have : ¬ 4096 ≤ ((g (wordAt s e) (s.engine e).nextPc).engine e).chainN := by omega
  simp [this]

@[simp] theorem wordAt_engine (s : State) (e : Nat) : (wordAt s e).engine e = begun s e := by
  simp [wordAt, State.setEngine_engine]

/-- The level that decides whether a word is defined is the armed image's. -/
@[simp] theorem wordAt_level (s : State) (e : Nat) : ((wordAt s e).engine e).level = (s.engine e).level := by simp [begun]

/-- PC shows the word's address; the instruction store is as before. -/
theorem wordAt_imem (s : State) (e i : Nat) (he : e < 576) (hi : i < 4096) : imemWord (wordAt s e) e i = imemWord s e i := by
  have ne : ∀ a, a ≠ R.eng_pc e → (wordAt s e).reg a = s.reg a := fun a ha => by
    rw [wordAt, State.put_reg_ne _ _ _ (Ne.symm ha)]; simp
  have h1 : R.imem_hi e i ≠ R.eng_pc e := by
    simp only [R.imem_hi, R.eng_pc, imemBase, engBase, roomBase, quadBase]; split <;> omega
  have h2 : R.imem_lo e i ≠ R.eng_pc e := by
    simp only [R.imem_lo, R.eng_pc, imemBase, engBase, roomBase, quadBase]; split <;> omega
  simp only [imemWord, ne _ h1, ne _ h2]

/-- A word whose check bits hold executes as it stands (R57). -/
theorem withFetch_clean (s : State) (e pc : Nat) (g : State → State) (h : tget (fun _ => 0) s.imemErr (4096 * e + pc) = 0) :
    withFetch s e pc g = g s := by
  simp only [withFetch, fetchWord, h]

/-- At an address of the image a word acts by its operation, where that is defined. -/
theorem runWord_ready {s : State} {e : Nat} {op : ProgOp} (h : ChainReady s e) (he : e < 576)
    (hd : opDefined (s.engine e).level (decide (512 ≤ e)) op = true)
    (hn : ((execOp (wordAt s e) e (s.engine e).nextPc op).1.engine e).chainN < 4096) :
    runWord s e op = (execOp (wordAt s e) e (s.engine e).nextPc op).1 := by
  obtain ⟨ht, -, h1, h2, h3⟩ := h
  have key := wordStep_ready (g := fun u pc =>
    if pc = 0 then (execUndef u e pc 1).1
    else if bitsOf (imemWord u e 0) 32 12 < pc then (execUndef u e pc 5).1
    else withFetch u e pc (fun v =>
      if opDefined (v.engine e).level (decide (512 ≤ e)) op then (execOp v e pc op).1 else (execUndef v e pc 1).1)) ht
  have h1' : ¬ (s.engine e).nextPc = 0 := by omega
  have h2' : ¬ bitsOf (imemWord s e 0) 32 12 < (s.engine e).nextPc := by omega
  simp only [if_neg h1', wordAt_imem s e 0 he (by decide), if_neg h2', withFetch_clean (wordAt s e) e _ _ (show _ from h3), wordAt_level,
    hd, if_true] at key
  exact key hn

theorem wordAt_modE_ran (s : State) (e : Nat) (k : Engine → Engine) : RanTo s e (k (begun s e)) ((wordAt s e).modE e k) := by
  refine ⟨⟨?_, ?_, ?_, ?_⟩, ?_⟩
  · simp
  · intro j hj
    rw [State.modE_engine, if_neg hj.symm]
    simp only [wordAt, State.put_reads, State.setEngine_engine, if_neg hj.symm]
  · intro a ha
    simp only [List.mem_singleton] at ha
    simp only [wordAt, State.modE_reads, State.put_reg_ne _ (F.eng_pc_pc e) _ (fun h => ha h.symm), State.setEngine_reads]
  · rfl
  · simp only [State.modE_reads, wordAt]
    exact State.put_f_self _ _ _ (Nat.le_of_ble_eq_true rfl)

theorem opLevel_mark (m : BitVec 3) (o : BitVec 40) : opLevel (.mark m o) = if 4 ≤ m.toNat then 2 else 1 := rfl
theorem opLevel_sig (m : BitVec 3) : opLevel (.sig m) = if 4 ≤ m.toNat then 2 else 1 := rfl
theorem opLevel_setf (i : BitVec 4) (c : Bool) : opLevel (.setf i c) = if c then 2 else 1 := rfl
theorem opInRange_tset (q : Bool) (a b : BitVec 4) : opInRange q (.tset a b) = !q := rfl
theorem opInRange_lvl (q : Bool) (n : BitVec 3) : opInRange q (.lvl n) = !q := rfl
theorem opInRange_play (q : Bool) (sg : BitVec 14) (n : BitVec 16) :
    opInRange q (.play sg n) = (decide (1 ≤ n.toNat) && (!q || decide (sg.toNat < 8192))) := rfl
theorem opInRange_playc (q : Bool) (sg : BitVec 14) (x : BitVec 3) : opInRange q (.playc sg x) = (!q || decide (sg.toNat < 8192)) := rfl
theorem opInRange_wait (q : Bool) (m : BitVec 8) (sg : BitVec 14) : opInRange q (.wait m sg) = (!q || decide (sg.toNat < 8192)) := rfl
theorem opInRange_strmImm (q : Bool) (r : BitVec 8) (g : BitVec 32) : opInRange q (.strmImm r g) = decide (8 ≤ g.toNat) := rfl

/-- A word of level 1 without a range is defined in every image. -/
theorem opDefined_one {s : State} {e : Nat} {op : ProgOp} (h : ChainReady s e) (hl : opLevel op = 1)
    (hr : opInRange (decide (512 ≤ e)) op = true) : opDefined (s.engine e).level (decide (512 ≤ e)) op = true := by
  have := h.2.1
  simp [opDefined, hl, hr, this]

/-- A word whose operation changes only its engine. -/
theorem runWord_ran {s : State} {e : Nat} {op : ProgOp} (k : Engine → Engine) (h : ChainReady s e) (he : e < 576)
    (hd : opDefined (s.engine e).level (decide (512 ≤ e)) op = true)
    (hx : (execOp (wordAt s e) e (s.engine e).nextPc op).1 = (wordAt s e).modE e k) (hn : (k (begun s e)).chainN ≤ (begun s e).chainN) :
    RanTo s e (k (begun s e)) (runWord s e op) := by
  have hlt : (begun s e).chainN < 4096 := h.1.2.2.2
  have h0 := wordAt_modE_ran s e k
  rw [← hx] at h0
  rw [runWord_ready h he hd (by rw [h0.1.1]; omega)]
  exact h0

theorem fin_ofNat3 (i : Fin 8) : (BitVec.ofNat 3 i.val).toNat = i.val := by have := i.isLt; simp
theorem land255 {k : Nat} (h : k < 256) : k &&& 255 = k := by
  have := Nat.and_two_pow_sub_one_eq_mod k 8; simp at this; omega
theorem task_ne_pc (e : Nat) : R.eng_task e ≠ R.eng_pc e := by simp only [R.eng_task, R.eng_pc]; omega
theorem stat_ne_pc (e : Nat) : R.eng_pc e ≠ R.eng_stat e := by simp only [R.eng_stat, R.eng_pc]; omega
theorem opDefined_two {s : State} {e : Nat} {op : ProgOp} (h : 2 ≤ (begun s e).level) (hl : opLevel op ≤ 2)
    (hr : opInRange (decide (512 ≤ e)) op = true) : opDefined (s.engine e).level (decide (512 ≤ e)) op = true := by
  have : opLevel op ≤ (s.engine e).level := Nat.le_trans hl h
  simp [opDefined, hr, this]
theorem wordAt_f (s : State) (e : Nat) (r : FRef) (h : R.eng_pc e ≠ r.addr) : (wordAt s e).f r = s.f r := by
  rw [wordAt, State.put_f_ne _ _ _ _ (Or.inl h)]; simp
theorem wordAt_reg (s : State) (e : Nat) (a : Nat) (h : a ≠ R.eng_pc e) : (wordAt s e).reg a = s.reg a := by
  rw [wordAt, State.put_reg_ne _ _ _ (Ne.symm h)]; simp
theorem wordAt_ne (s : State) (e j : Nat) (hj : j ≠ e) : (wordAt s e).engine j = s.engine j := by
  simp [wordAt, State.setEngine_engine, Ne.symm hj]
theorem wordAt_arming (s : State) (e : Nat) : arming (wordAt s e) e = arming s e := by
  simp only [arming, State.on, wordAt_f s e (F.eng_stat_arming e) (stat_ne_pc e)]
theorem wordAt_est (s : State) (e : Nat) : est (wordAt s e) e = est s e := wordAt_f s e (F.eng_stat_state e) (stat_ne_pc e)
/-- A core cycle that has come. -/
theorem advanceCycle_past {s : State} {c : Nat} (h : c ≤ coreNow s) : advanceCycle s c = s := by
  have : ¬ s.clk.house < c * coreU := by
    simp only [coreNow, coreU] at *; omega
  simp [advanceCycle, advanceHouse, this]
/-- A chain's record in a core cycle that has come. -/
theorem chainFault_past {s : State} {e : Nat} (h : (s.engine e).chainCyc ≤ coreNow s) (n : Nat) (c : FaultClass) (k : Nat) :
    chainFault s e n c k = fault s n e c k := by rw [chainFault, advanceCycle_past h]
/-- Engine x as HALT in the present core cycle leaves it (R67). -/
theorem haltChain_wordAt (s : State) (e addr : Nat) (c : Option Nat) (ha : arming s e = false) :
    haltChain (wordAt s e) e addr c =
    let s1 := (wordAt s e).modE e (fun y => { y with
      halting := true, next := none, pend := {}, chainN := 0, nextQueue := [], nextCmpQueue := []
      dec := if (begun s e).suite % 2 = 1 then some (coreNow s) else none })
    match c with | some c => fault s1 21 e .contained (c * 2 ^ 28 + addr) | none => s1 := by
  unfold haltChain
  rw [wordAt_arming, ha, if_neg (by decide)]
  extract_lets s1 s2
  have h12 : s1 = s2 := by
    show State.modE _ _ _ = State.modE _ _ _
    unfold State.modE
    rw [wordAt_engine]
    have : (begun s e).chainCyc = coreNow s := rfl
    simp only [this, beq_iff_eq]
  rw [h12]
  cases c with
  | none => rfl
  | some c =>
    have h2 : advanceCycle s2 (s2.engine e).chainCyc = s2 := by
      have : (s2.engine e).chainCyc = coreNow s2 := by
        show (((wordAt s e).modE e _).engine e).chainCyc = _
        rw [State.modE_engine_self, wordAt_engine]; rfl
      rw [this]; exact advanceCycle_now s2
    show chainFault s2 e 21 .contained (c * 2 ^ 28 + addr) = fault s2 21 e .contained (c * 2 ^ 28 + addr)
    unfold chainFault
    rw [h2]
/-- In the setup chain HALT, or a word that acts as HALT, fails the arm (R58). -/
theorem haltChain_arming (s : State) (e addr : Nat) (c : Option Nat) (ha : arming s e = true) :
    haltChain (wordAt s e) e addr c = failArm (wordAt s e) e 6 := by
  unfold haltChain
  rw [wordAt_arming, ha, if_pos rfl]
theorem pc_ne_low (e : Nat) {a : Nat} (h : a < 0x1000000) : R.eng_pc e ≠ a := by
  have : 0x01000000 ≤ engBase e := by
    unfold engBase roomBase quadBase; split <;> omega
  simp only [R.eng_pc]; omega

/-! ### Prefetching leaves everything but queues and requests -/

theorem reqPlay_ctl (s : State) (e : Nat) (p : Play) (nxt : Bool) (n g : Nat) : ∃ c, reqPlay s e p nxt n g = { s with ctl := c } := by
  induction n generalizing s g with
  | zero => exact ⟨s.ctl, rfl⟩
  | succ n ih =>
    simp only [reqPlay]; split
    · obtain ⟨c, hc⟩ := ih { s with ctl := _ } (g + 1)
      exact ⟨c, hc⟩
    · exact ⟨s.ctl, rfl⟩
theorem reqCmp_ctl (s : State) (e : Nat) (p : Play) (b : Nat) (nxt : Bool) (n g : Nat) : ∃ c, reqCmp s e p b nxt n g = { s with ctl := c } := by
  induction n generalizing s g with
  | zero => exact ⟨s.ctl, rfl⟩
  | succ n ih =>
    simp only [reqCmp]; split
    · obtain ⟨c, hc⟩ := ih { s with ctl := _ } (g + 1)
      exact ⟨c, hc⟩
    · exact ⟨s.ctl, rfl⟩

/-- Folding a driver condition changes lane e only. -/
theorem foldDrive_lane (s : State) (e : Nat) (p : Play) (g k : Nat) : ∃ f, (∀ l : Lane, (f l).mode = l.mode) ∧ foldDrive s e p g k = s.modL e f :=
  ⟨fun l => if l.mode == .playing then { l with drv := driveAfter s e p (g * perGranule e), condFrom := k } else { l with condFrom := k },
    fun l => by dsimp only; split <;> rfl, rfl⟩

/-- Prefetching changes the store's requests, engine e's two queues, and the condition that lane e holds. -/
theorem topUp_queues (s : State) (e : Nat) : ∃ w u c, (w = s ∨ ∃ f, (∀ l : Lane, (f l).mode = l.mode) ∧ w = s.modL e f) ∧ topUp s e = { u with ctl := c } ∧
    (u = s ∨ ∃ q cq : Engine → List (Nat × Granule × Bool), u = w.modE e (fun x => { x with queue := q x, cmpQueue := cq x })) := by
  have hu : ∃ w, (w = s ∨ ∃ f, (∀ l : Lane, (f l).mode = l.mode) ∧ w = s.modL e f) ∧ (pruneQueue s e = s ∨ ∃ q cq : Engine → List (Nat × Granule × Bool),
      pruneQueue s e = w.modE e (fun x => { x with queue := q x, cmpQueue := cq x })) := by
    unfold pruneQueue; split
    · exact ⟨s, Or.inl rfl, Or.inl rfl⟩
    · extract_lets g lo s1
      refine ⟨s1, ?_, Or.inr ⟨fun x => x.queue.filter (fun q => decide (lo ≤ q.1)),
        fun x => x.cmpQueue.filter (fun q => decide (2 * lo ≤ q.1)), rfl⟩⟩
      dsimp only [s1]
      split
      · exact Or.inr (foldDrive_lane _ _ _ _ _)
      · exact Or.inl rfl
  obtain ⟨w, hw, hu⟩ := hu
  by_cases hg : (!engaged s e || (s.engine e).retuneArm) = true
  · refine ⟨s, s, s.ctl, Or.inl rfl, ?_, Or.inl rfl⟩
    unfold topUp; exact if_pos hg
  suffices ∃ c, topUp s e = { pruneQueue s e with ctl := c } by
    obtain ⟨c, hc⟩ := this
    exact ⟨w, _, c, hw, hc, hu⟩
  unfold topUp
  rw [if_neg hg]
  generalize pruneQueue s e = u
  extract_lets u0 x cap g used s1 used1 s2 usedC s3 usedD
  have same : ∃ c, u = { u with ctl := c } := ⟨u.ctl, rfl⟩
  have play : ∀ {v : State} p nxt n k, (∃ c, v = { u with ctl := c }) → ∃ c, reqPlay v e p nxt n k = { u with ctl := c } := by
    rintro v p nxt n k ⟨c, rfl⟩
    obtain ⟨c', hc⟩ := reqPlay_ctl { u with ctl := c } e p nxt n k
    exact ⟨c', hc⟩
  have comp : ∀ {v : State} p b nxt n k, (∃ c, v = { u with ctl := c }) → ∃ c, reqCmp v e p b nxt n k = { u with ctl := c } := by
    rintro v p b nxt n k ⟨c, rfl⟩
    obtain ⟨c', hc⟩ := reqCmp_ctl { u with ctl := c } e p b nxt n k
    exact ⟨c', hc⟩
  have h1 : ∃ c, s1 = { u with ctl := c } := by
    dsimp only [s1]
    split
    · split
      · exact same
      · exact play _ _ _ _ same
    · exact same
  have h2 : ∃ c, s2 = { u with ctl := c } := by
    dsimp only [s2]
    split
    · split
      · exact h1
      · exact play _ _ _ _ h1
    · exact h1
  have h3 : ∃ c, s3 = { u with ctl := c } := by
    dsimp only [s3]
    split
    · split
      · split
        · exact h2
        · exact comp _ _ _ _ _ h2
      · exact h2
    · exact h2
  split
  · exact h2
  · split
    · split
      · split
        · exact h3
        · exact comp _ _ _ _ _ h3
      · exact h3
    · exact h3

/-- What prefetching leaves of its own engine. -/
theorem topUp_engine (s : State) (e : Nat) : ∃ q cq, (topUp s e).engine e = { s.engine e with queue := q, cmpQueue := cq } := by
  obtain ⟨w, u, c, hw, h, hu⟩ := topUp_queues s e
  have hwe : w.engine e = s.engine e := by rcases hw with rfl | ⟨f, -, rfl⟩ <;> rfl
  rw [h]
  rcases hu with rfl | ⟨q, cq, rfl⟩
  · exact ⟨(u.engine e).queue, (u.engine e).cmpQueue, rfl⟩
  · refine ⟨q (s.engine e), cq (s.engine e), ?_⟩
    rw [← hwe]
    exact State.modE_engine_self w e (fun x => { x with queue := q x, cmpQueue := cq x })

/-- Prefetching leaves what every lane does. -/
theorem topUp_mode (s : State) (e j : Nat) : ((topUp s e).laneOf j).mode = (s.laneOf j).mode := by
  obtain ⟨w, u, c, hw, h, hu⟩ := topUp_queues s e
  have hwm : (w.laneOf j).mode = (s.laneOf j).mode := by
    rcases hw with rfl | ⟨f, hf, rfl⟩
    · rfl
    · rw [State.modL_laneOf]; split
      · subst j; exact hf _
      · rfl
  rw [h]
  rcases hu with rfl | ⟨q, cq, rfl⟩
  · rfl
  · exact hwm

/-- Prefetching writes no register. -/
theorem topUp_reg (s : State) (e a : Nat) : (topUp s e).reg a = s.reg a := by
  obtain ⟨w, u, c, hw, h, hu⟩ := topUp_queues s e
  rw [h]
  rcases hu with rfl | ⟨q, cq, rfl⟩
  · rfl
  · rcases hw with rfl | ⟨f, -, rfl⟩ <;> rfl

end Sys2Proof.Machine
end

