-- ==== Sys2Proof/Laws/Record.lean ====
section
/-! SUPPORT. What a record that is not FATAL leaves: its counts, and every plain register and component as before. -/

namespace Sys2Proof.Machine

/-- A field of the same register whose bits lie apart, checked by evaluation. -/
theorem State.put_f_bits (s : State) (r q : FRef) (v : Nat) (h : (Nat.ble (q.lo + q.w) r.lo || Nat.ble (r.lo + r.w) q.lo) = true) :
    (s.put r v).f q = s.f q := by
  refine State.put_f_ne _ _ _ _ (Or.inr ?_)
  simpa [Nat.ble_eq] using h
/-- A field written and read, the width checked by evaluation. -/
theorem State.put_f_same (s : State) (r : FRef) (v : Nat) (h : Nat.ble (r.lo + r.w) 32 = true) : (s.put r v).f r = v % 2 ^ r.w :=
  State.put_f_self _ _ _ (Nat.le_of_ble_eq_true h)

theorem Outside.plain {s t : State} (h : Outside PlainReg s t) : PlainSame s t := by
  obtain ⟨-, hr, h⟩ := h
  refine ⟨hr, ?_⟩
  cases s; cases t
  simp only [] at h
  simp [h]


theorem rec_srcs (sd : Side) (n : Nat) (hs : n < 256) : ∀ a, recReg a → ¬ (a = R.src_stat sd n ∨ a = R.flt_count sd) := by
  rintro a h (rfl | rfl) <;> cases sd <;> simp only [recReg, R.src_stat, R.flt_count, faultBase] at h
  all_goals
    rcases h with h | h | ⟨sd', k, h, hk⟩
    · omega
    · omega
    · cases sd' <;> simp only at h <;> omega

theorem recordRaw_recorded (s : State) (sd : Side) (n unit cls : Nat) (syn : Word) (inj : Bool) (hh : heldSide s sd = false)
    (hd : srcKnown sd n) (hs : n < 256) (hc : cls ≠ 3) : Recorded sd n s (recordRaw s sd n unit cls syn inj) := by
  have h := recordRaw_tail (P := fun a => a = R.src_stat sd n ∨ a = R.flt_count sd) (rec_srcs sd n hs) s sd n unit cls syn inj hc hd hh
  have ne1 : (F.src_stat_active sd n).addr ≠ (F.flt_count_n sd).addr := by
    simp only [F.src_stat_active, F.flt_count_n, R.src_stat, R.flt_count]; omega
  have ne2 : (F.src_stat_count sd n).addr ≠ (F.flt_count_n sd).addr := ne1
  refine ⟨?_, ?_, ?_⟩
  · rw [h.f (r := F.src_stat_active sd n) (Or.inl rfl), State.count_f, State.put_f_ne _ _ _ _ (Or.inl (Ne.symm ne1)), State.raise_f]
    exact State.put_f_self _ _ _ (by simp [F.src_stat_active])
  · rw [h.f (r := F.src_stat_count sd n) (Or.inl rfl), State.count_f, State.put_f_ne _ _ _ _ (Or.inl (Ne.symm ne2)),
      State.raise_f, State.put_f_ne _ _ _ _ (Or.inr (by simp [F.src_stat_active, F.src_stat_count])),
      State.countSat_f, State.put_f_self _ _ _ (by simp [F.src_stat_count])]
    simp only [satAdd, F.src_stat_count]; omega
  · rw [h.f (r := F.flt_count_n sd) (Or.inr rfl), State.count_f, State.put_f_self _ _ _ (by simp [F.flt_count_n]),
      State.raise_f, State.put_f_ne _ _ _ _ (Or.inl ne1), State.countSat_f,
      State.put_f_ne _ _ _ _ (Or.inl ne2)]
    rfl

/-- A record that is not FATAL: counted, and everything plain as before. -/
theorem fault_done (s : State) (n unit : Nat) (c : FaultClass) (syn : Nat) (hh : heldSide s .field = false) (hn : srcKnown .field n)
    (hs : n < 256) (hc : c ≠ .fatal) : Recorded .field n s (fault s n unit c syn) ∧ PlainSame s (fault s n unit c syn) := by
  refine ⟨recordRaw_recorded s _ _ _ _ _ _ hh hn hs ?_, (fault_outside (Outside.refl plainReg_free s) n unit c syn hs hc).plain⟩
  cases c <;> simp_all [classCode]
theorem hostFault_done (s : State) (n unit : Nat) (c : FaultClass) (syn : Nat) (hh : heldSide s .host = false) (hn : srcKnown .host n)
    (hs : n < 256) (hc : c ≠ .fatal) : Recorded .host n s (hostFault s n unit c syn) ∧ PlainSame s (hostFault s n unit c syn) := by
  refine ⟨recordRaw_recorded s _ _ _ _ _ _ hh hn hs ?_, (hostFault_outside (Outside.refl plainReg_free s) n unit c syn hs hc).plain⟩
  cases c <;> simp_all [classCode]

end Sys2Proof.Machine

namespace Sys2Proof

open Machine

/-! ### What PlainSame keeps -/

theorem PlainSame.reg {s t : State} (h : PlainSame s t) : ∀ a, PlainReg a → t.reg a = s.reg a := h.1
theorem PlainSame.refl (s : State) : PlainSame s s := ⟨fun _ _ => rfl, rfl⟩
theorem PlainSame.clk {s t : State} (h : PlainSame s t) : t.clk = s.clk := by have := congrArg State.clk h.2; simpa using this
theorem PlainSame.eng {s t : State} (h : PlainSame s t) : t.eng = s.eng := by have := congrArg State.eng h.2; simpa using this
theorem PlainSame.lane {s t : State} (h : PlainSame s t) : t.lane = s.lane := by have := congrArg State.lane h.2; simpa using this
theorem PlainSame.tab {s t : State} (h : PlainSame s t) : t.tab = s.tab := by have := congrArg State.tab h.2; simpa using this
theorem PlainSame.pll {s t : State} (h : PlainSame s t) : t.pll = s.pll := by have := congrArg State.pll h.2; simpa using this
theorem PlainSame.epoch {s t : State} (h : PlainSame s t) : t.epoch = s.epoch := by have := congrArg State.epoch h.2; simpa using this
theorem PlainSame.store {s t : State} (h : PlainSame s t) : t.store = s.store := by have := congrArg State.store h.2; simpa using this
theorem PlainSame.imemErr {s t : State} (h : PlainSame s t) : t.imemErr = s.imemErr := by have := congrArg State.imemErr h.2; simpa using this
theorem PlainSame.imemStage {s t : State} (h : PlainSame s t) : t.imemStage = s.imemStage := by have := congrArg State.imemStage h.2; simpa using this
theorem PlainSame.pairStage {s t : State} (h : PlainSame s t) : t.pairStage = s.pairStage := by have := congrArg State.pairStage h.2; simpa using this
theorem PlainSame.ctl {s t : State} (h : PlainSame s t) : t.ctl = s.ctl := by have := congrArg State.ctl h.2; simpa using this
theorem PlainSame.granErr {s t : State} (h : PlainSame s t) : t.granErr = s.granErr := by have := congrArg State.granErr h.2; simpa using this
theorem PlainSame.parts {s t : State} (h : PlainSame s t) : t.parts = s.parts := by have := congrArg State.parts h.2; simpa using this
theorem PlainSame.dma {s t : State} (h : PlainSame s t) : t.dma = s.dma := by have := congrArg State.dma h.2; simpa using this
theorem PlainSame.crc {s t : State} (h : PlainSame s t) : t.crc = s.crc := by have := congrArg State.crc h.2; simpa using this
theorem PlainSame.cal {s t : State} (h : PlainSame s t) : t.cal = s.cal := by have := congrArg State.cal h.2; simpa using this
theorem PlainSame.walk {s t : State} (h : PlainSame s t) : t.walk = s.walk := by have := congrArg State.walk h.2; simpa using this
theorem PlainSame.part {s t : State} (h : PlainSame s t) : t.part = s.part := by have := congrArg State.part h.2; simpa using this
theorem PlainSame.clane {s t : State} (h : PlainSame s t) : t.clane = s.clane := by have := congrArg State.clane h.2; simpa using this
theorem PlainSame.train {s t : State} (h : PlainSame s t) : t.train = s.train := by have := congrArg State.train h.2; simpa using this
theorem PlainSame.boot {s t : State} (h : PlainSame s t) : t.boot = s.boot := by have := congrArg State.boot h.2; simpa using this
theorem PlainSame.epochWas {s t : State} (h : PlainSame s t) : t.epochWas = s.epochWas := by have := congrArg State.epochWas h.2; simpa using this
theorem PlainSame.stalled {s t : State} (h : PlainSame s t) : t.stalled = s.stalled := by have := congrArg State.stalled h.2; simpa using this
theorem PlainSame.phaseAct {s t : State} (h : PlainSame s t) : t.phaseAct = s.phaseAct := by have := congrArg State.phaseAct h.2; simpa using this
theorem PlainSame.free {s t : State} (h : PlainSame s t) : t.free = s.free := by have := congrArg State.free h.2; simpa using this
theorem PlainSame.pending {s t : State} (h : PlainSame s t) : t.pending = s.pending := by have := congrArg State.pending h.2; simpa using this
theorem PlainSame.f {s t : State} (h : PlainSame s t) {r : FRef} (hr : PlainReg r.addr) : t.f r = s.f r := by simp only [State.f, h.1 _ hr]
theorem PlainSame.on {s t : State} (h : PlainSame s t) {r : FRef} (hr : PlainReg r.addr) : t.on r = s.on r := by simp only [State.on, h.f hr]
theorem PlainSame.engine {s t : State} (h : PlainSame s t) (i : Nat) : t.engine i = s.engine i := by simp only [State.engine, h.eng]
theorem PlainSame.laneOf {s t : State} (h : PlainSame s t) (i : Nat) : t.laneOf i = s.laneOf i := by simp only [State.laneOf, h.lane]
theorem PlainSame.table {s t : State} (h : PlainSame s t) (i : Nat) : t.table i = s.table i := by simp only [State.table, h.tab]
theorem PlainSame.pllOf {s t : State} (h : PlainSame s t) (i : Nat) : t.pllOf i = s.pllOf i := by simp only [State.pllOf, h.pll]
theorem PlainSame.walkOf {s t : State} (h : PlainSame s t) (i : Nat) : t.walkOf i = s.walkOf i := by simp only [State.walkOf, h.walk]
theorem PlainSame.dmaOf {s t : State} (h : PlainSame s t) (i : Nat) : t.dmaOf i = s.dmaOf i := by simp only [State.dmaOf, h.dma]
theorem PlainSame.claneOf {s t : State} (h : PlainSame s t) (i : Nat) : t.claneOf i = s.claneOf i := by simp only [State.claneOf, h.clane]
theorem PlainSame.outside {s t : State} (h : PlainSame s t) : Outside PlainReg s t :=
  ⟨plainReg_free, h.reg, h.clk, h.eng, h.lane, h.tab, h.pll, h.store, h.granErr, h.imemErr, h.imemStage, h.pairStage, h.ctl, h.parts, h.dma, h.crc, h.cal, h.walk, h.part, h.clane, h.train, h.boot, h.epoch, h.epochWas, h.stalled, h.phaseAct,
    h.free, h.pending⟩
theorem PlainSame.trans {a b c : State} (h : PlainSame a b) (k : PlainSame b c) : PlainSame a c := (h.outside.trans k.outside).plain
/-- Registers of engines are plain. -/
theorem plain_engine (e k : Nat) (he : e < 576) (hk : k < 0x1000) : PlainReg (engBase e + k) := by
  have : 0x01000000 ≤ engBase e ∧ engBase e + 0x1000 ≤ 0x03F00000 := by unfold engBase roomBase quadBase; split <;> omega
  simp only [PlainReg]; omega


/-- Registers of an engine but one. -/
theorem plain_f_engine {s t : State} (h : PlainSame s t) {e : Nat} (he : e < 576) (r : FRef) (k : Nat) (hr : r.addr = engBase e + k)
    (hk : k < 0x1000) : t.f r = s.f r := h.f (by rw [hr]; exact plain_engine e k he hk)

end Sys2Proof

namespace Sys2Proof.Machine

theorem irqEngine_plain (s : State) (t : Nat) : PlainSame s (irqEngine s t) := (irqEngine_outside (Outside.refl plainReg_free s) t).plain

/-- Entering a state: the state field takes the code; everything plain but that register is as before, and a record stays recorded. -/
theorem enterState_done (s : State) (e st : Nat) (he : e < 576) (hst : st < 8) :
    est (enterState s e st) e = st ∧ PlainSame (s.put (F.eng_stat_state e) st) (enterState s e st) := by
  have h : PlainSame (s.put (F.eng_stat_state e) st) (enterState s e st) := by
    unfold enterState State.when
    dsimp only
    split
    · exact irqEngine_plain _ _
    · exact PlainSame.refl _
  refine ⟨?_, h⟩
  unfold est
  rw [plain_f_engine h he _ 0x20 (by simp only [F.eng_stat_state, R.eng_stat]) (by decide), State.put_f_self _ _ _ (Nat.le_of_ble_eq_true rfl)]
  exact Nat.mod_eq_of_lt (by simpa [F.eng_stat_state] using hst)

/-- What a record left stays through a later interrupt request. -/
theorem enterState_recorded {s0 s : State} {sd : Side} {n e st : Nat} (h : Recorded sd n s0 s) (hs : n < 256) (he : e < 576) :
    Recorded sd n s0 (enterState s e st) := by
  have ho : Outside (fun a => a = R.src_stat sd n ∨ a = R.flt_count sd) s (enterState s e st) := by
    have h1 : Outside (fun a => a = R.src_stat sd n ∨ a = R.flt_count sd) s (s.put (F.eng_stat_state e) st) := by
      refine (Outside.refl (rec_srcs sd n hs) s).reg _ ?_
      have : 0x01000000 ≤ engBase e ∧ engBase e + 0x1000 ≤ 0x03F00000 := by unfold engBase roomBase quadBase; split <;> omega
      rintro (h | h) <;> cases sd <;> simp only [F.eng_stat_state, R.eng_stat, R.src_stat, R.flt_count, faultBase] at h <;> omega
    unfold enterState State.when
    dsimp only
    split
    · exact irqEngine_outside h1 _
    · exact h1
  refine ⟨?_, ?_, ?_⟩
  · rw [ho.f (Or.inl rfl)]; exact h.1
  · rw [ho.f (Or.inl rfl)]; exact h.2.1
  · rw [ho.f (Or.inr rfl)]; exact h.2.2

/-- Every register that records and counts write is as before. -/
abbrev RecKeep (s t : State) : Prop := ∀ a, ¬ PlainReg a → t.reg a = s.reg a
theorem recKeep_refl (s : State) : RecKeep s s := fun _ _ => rfl
theorem recKeep_put {s t : State} (h : RecKeep s t) (r : FRef) (v : Nat) (hr : PlainReg r.addr) : RecKeep s (t.put r v) := fun a ha => by
  rw [State.put_reg_ne _ _ _ (by rintro rfl; exact ha hr)]; exact h a ha
theorem recKeep_setReg {s t : State} (h : RecKeep s t) (b : Nat) (v : Word) (hr : PlainReg b) : RecKeep s (t.setReg b v) := fun a ha => by
  rw [State.setReg_reg_ne _ _ (by rintro rfl; exact ha hr)]; exact h a ha
theorem recKeep_regs {s t u : State} (h : RecKeep s t) (hu : ∀ a, u.reg a = t.reg a) : RecKeep s u := fun a ha => (hu a).trans (h a ha)
theorem recKeep_modE {s t : State} (h : RecKeep s t) (e : Nat) (g : Engine → Engine) : RecKeep s (t.modE e g) := h
theorem recKeep_modL {s t : State} (h : RecKeep s t) (e : Nat) (g : Lane → Lane) : RecKeep s (t.modL e g) := h
theorem recKeep_modT {s t : State} (h : RecKeep s t) (e : Nat) (g : Table → Table) : RecKeep s (t.modT e g) := h
theorem recKeep_modPll {s t : State} (h : RecKeep s t) (e : Nat) (g : Pll → Pll) : RecKeep s (t.modPll e g) := h
theorem recKeep_modH {s t : State} (h : RecKeep s t) (g : Hall → Hall) : RecKeep s (t.modH g) := h
theorem recKeep_modP {s t : State} (h : RecKeep s t) (g : Porch → Porch) : RecKeep s (t.modP g) := h
theorem recKeep_modW {s t : State} (h : RecKeep s t) (e : Nat) (g : Walk → Walk) : RecKeep s (t.modW e g) := h
theorem recKeep_setEngine {s t : State} (h : RecKeep s t) (e : Nat) (g : Engine) : RecKeep s (t.setEngine e g) := h
theorem recKeep_count {s t : State} (h : RecKeep s t) (r : FRef) (n : Nat) (hr : PlainReg r.addr) : RecKeep s (t.count r n) := recKeep_put h r _ hr
theorem recKeep_countSat {s t : State} (h : RecKeep s t) (r : FRef) (n : Nat) (hr : PlainReg r.addr) : RecKeep s (t.countSat r n) := recKeep_put h r _ hr
theorem src_notPlain (sd : Side) (n : Nat) (hn : n < 256) : ¬ PlainReg (R.src_stat sd n) := by
  cases sd <;> simp only [PlainReg, R.src_stat, faultBase] <;> omega
theorem count_notPlain (sd : Side) : ¬ PlainReg (R.flt_count sd) := by
  cases sd <;> simp only [PlainReg, R.flt_count, faultBase] <;> omega
theorem recorded_before {s u t : State} {sd : Side} {n : Nat} (h : Recorded sd n u t) (hq : RecKeep s u) (hn : n < 256) : Recorded sd n s t := by
  have k1 : u.f (F.src_stat_count sd n) = s.f (F.src_stat_count sd n) := by
    simp only [State.f]; rw [hq _ (show ¬ PlainReg (F.src_stat_count sd n).addr from src_notPlain sd n hn)]
  have k2 : u.f (F.flt_count_n sd) = s.f (F.flt_count_n sd) := by
    simp only [State.f]; rw [hq _ (show ¬ PlainReg (F.flt_count_n sd).addr from count_notPlain sd)]
  unfold Recorded at h ⊢
  rw [k1, k2] at h; exact h
theorem recorded_after {s u t : State} {sd : Side} {n : Nat} (h : Recorded sd n s u) (hq : RecKeep u t) (hn : n < 256) : Recorded sd n s t := by
  have k : ∀ r : FRef, ¬ PlainReg r.addr → t.f r = u.f r := fun r hr => by simp only [State.f, hq _ hr]
  unfold Recorded at h ⊢
  rw [k _ (show ¬ PlainReg (F.src_stat_active sd n).addr from src_notPlain sd n hn),
    k _ (show ¬ PlainReg (F.src_stat_count sd n).addr from src_notPlain sd n hn),
    k _ (show ¬ PlainReg (F.flt_count_n sd).addr from count_notPlain sd)]
  exact h

/-! ### Writes of registers of one kind -/

/-- Only registers of A differ. -/
def RegsIn (A : Nat → Prop) (s t : State) : Prop := (∀ a, ¬ A a → t.reg a = s.reg a) ∧ { t with regs := s.regs, hw := s.hw } = s

section
variable {A : Nat → Prop} {s t : State}
theorem RegsIn.refl (s : State) : RegsIn A s s := ⟨fun _ _ => rfl, rfl⟩
theorem RegsIn.setReg (h : RegsIn A s t) (a : Nat) (w : Word) (ha : A a) : RegsIn A s (t.setReg a w) :=
  ⟨fun b hb => by rw [State.setReg_reg_ne _ _ (by rintro rfl; exact hb ha)]; exact h.1 b hb, h.2⟩
theorem RegsIn.put (h : RegsIn A s t) (r : FRef) (v : Nat) (ha : A r.addr) : RegsIn A s (t.put r v) := h.setReg _ _ ha
theorem RegsIn.note (h : RegsIn A s t) (r : FRef) (m n : Nat) : RegsIn A s (t.noteHw r m n) := h
theorem RegsIn.raise (h : RegsIn A s t) (r : FRef) (ha : A r.addr) : RegsIn A s (t.raise r) := (h.put _ _ ha).note _ _ _
theorem RegsIn.count (h : RegsIn A s t) (r : FRef) (v : Nat) (ha : A r.addr) : RegsIn A s (t.count r v) := (h.put _ _ ha).note _ _ _
theorem RegsIn.countSat (h : RegsIn A s t) (r : FRef) (v : Nat) (ha : A r.addr) : RegsIn A s (t.countSat r v) := (h.put _ _ ha).note _ _ _
theorem RegsIn.putPair (h : RegsIn A s t) (a b v : Nat) (ha : A a) (hb : A b) : RegsIn A s (t.putPair a b v) := (h.setReg _ _ ha).setReg _ _ hb
theorem RegsIn.reg (h : RegsIn A s t) {a : Nat} (ha : ¬ A a) : t.reg a = s.reg a := h.1 a ha
theorem RegsIn.f (h : RegsIn A s t) {r : FRef} (ha : ¬ A r.addr) : t.f r = s.f r := by simp only [State.f, h.1 _ ha]
theorem RegsIn.on (h : RegsIn A s t) {r : FRef} (ha : ¬ A r.addr) : t.on r = s.on r := by simp only [State.on, h.f ha]
theorem RegsIn.trans {u : State} (h : RegsIn A s t) (k : RegsIn A t u) : RegsIn A s u := by
  refine ⟨fun a ha => (k.1 a ha).trans (h.1 a ha), ?_⟩
  have h2 := h.2; have k2 := k.2
  rw [← h2, ← k2]
theorem RegsIn.when (h : RegsIn A s t) (c : Bool) {g : State → State} (hg : RegsIn A s (g t)) : RegsIn A s (t.when c g) := by
  unfold State.when; split
  · exact hg
  · exact h
theorem RegsIn.mono {B : Nat → Prop} (h : RegsIn A s t) (hAB : ∀ a, A a → B a) : RegsIn B s t := ⟨fun a ha => h.1 a fun x => ha (hAB a x), h.2⟩
theorem RegsIn.clk (h : RegsIn A s t) : t.clk = s.clk := by have := congrArg State.clk h.2; simpa using this
theorem RegsIn.eng (h : RegsIn A s t) : t.eng = s.eng := by have := congrArg State.eng h.2; simpa using this
theorem RegsIn.lane (h : RegsIn A s t) : t.lane = s.lane := by have := congrArg State.lane h.2; simpa using this
theorem RegsIn.tab (h : RegsIn A s t) : t.tab = s.tab := by have := congrArg State.tab h.2; simpa using this
theorem RegsIn.pll (h : RegsIn A s t) : t.pll = s.pll := by have := congrArg State.pll h.2; simpa using this
theorem RegsIn.hall (h : RegsIn A s t) : t.hall = s.hall := by have := congrArg State.hall h.2; simpa using this
theorem RegsIn.epoch (h : RegsIn A s t) : t.epoch = s.epoch := by have := congrArg State.epoch h.2; simpa using this
theorem RegsIn.fltF (h : RegsIn A s t) : t.fltF = s.fltF := by have := congrArg State.fltF h.2; simpa using this
theorem RegsIn.fltH (h : RegsIn A s t) : t.fltH = s.fltH := by have := congrArg State.fltH h.2; simpa using this
theorem RegsIn.store (h : RegsIn A s t) : t.store = s.store := by have := congrArg State.store h.2; simpa using this
theorem RegsIn.imemErr (h : RegsIn A s t) : t.imemErr = s.imemErr := by have := congrArg State.imemErr h.2; simpa using this
theorem RegsIn.imemStage (h : RegsIn A s t) : t.imemStage = s.imemStage := by have := congrArg State.imemStage h.2; simpa using this
theorem RegsIn.pairStage (h : RegsIn A s t) : t.pairStage = s.pairStage := by have := congrArg State.pairStage h.2; simpa using this
theorem RegsIn.ctl (h : RegsIn A s t) : t.ctl = s.ctl := by have := congrArg State.ctl h.2; simpa using this
theorem RegsIn.granErr (h : RegsIn A s t) : t.granErr = s.granErr := by have := congrArg State.granErr h.2; simpa using this
theorem RegsIn.porch (h : RegsIn A s t) : t.porch = s.porch := by have := congrArg State.porch h.2; simpa using this
theorem RegsIn.fab (h : RegsIn A s t) : t.fab = s.fab := by have := congrArg State.fab h.2; simpa using this
theorem RegsIn.parts (h : RegsIn A s t) : t.parts = s.parts := by have := congrArg State.parts h.2; simpa using this
theorem RegsIn.dma (h : RegsIn A s t) : t.dma = s.dma := by have := congrArg State.dma h.2; simpa using this
theorem RegsIn.mon (h : RegsIn A s t) : t.mon = s.mon := by have := congrArg State.mon h.2; simpa using this
theorem RegsIn.crc (h : RegsIn A s t) : t.crc = s.crc := by have := congrArg State.crc h.2; simpa using this
theorem RegsIn.cal (h : RegsIn A s t) : t.cal = s.cal := by have := congrArg State.cal h.2; simpa using this
theorem RegsIn.walk (h : RegsIn A s t) : t.walk = s.walk := by have := congrArg State.walk h.2; simpa using this
theorem RegsIn.part (h : RegsIn A s t) : t.part = s.part := by have := congrArg State.part h.2; simpa using this
theorem RegsIn.clane (h : RegsIn A s t) : t.clane = s.clane := by have := congrArg State.clane h.2; simpa using this
theorem RegsIn.train (h : RegsIn A s t) : t.train = s.train := by have := congrArg State.train h.2; simpa using this
theorem RegsIn.boot (h : RegsIn A s t) : t.boot = s.boot := by have := congrArg State.boot h.2; simpa using this
theorem RegsIn.msi (h : RegsIn A s t) : t.msi = s.msi := by have := congrArg State.msi h.2; simpa using this
theorem RegsIn.epochWas (h : RegsIn A s t) : t.epochWas = s.epochWas := by have := congrArg State.epochWas h.2; simpa using this
theorem RegsIn.stalled (h : RegsIn A s t) : t.stalled = s.stalled := by have := congrArg State.stalled h.2; simpa using this
theorem RegsIn.phaseAct (h : RegsIn A s t) : t.phaseAct = s.phaseAct := by have := congrArg State.phaseAct h.2; simpa using this
theorem RegsIn.free (h : RegsIn A s t) : t.free = s.free := by have := congrArg State.free h.2; simpa using this
theorem RegsIn.pending (h : RegsIn A s t) : t.pending = s.pending := by have := congrArg State.pending h.2; simpa using this
theorem RegsIn.engine (h : RegsIn A s t) (i : Nat) : t.engine i = s.engine i := by simp only [State.engine, h.eng]
theorem RegsIn.laneOf (h : RegsIn A s t) (i : Nat) : t.laneOf i = s.laneOf i := by simp only [State.laneOf, h.lane]
theorem RegsIn.table (h : RegsIn A s t) (i : Nat) : t.table i = s.table i := by simp only [State.table, h.tab]
theorem RegsIn.pllOf (h : RegsIn A s t) (i : Nat) : t.pllOf i = s.pllOf i := by simp only [State.pllOf, h.pll]
theorem RegsIn.walkOf (h : RegsIn A s t) (i : Nat) : t.walkOf i = s.walkOf i := by simp only [State.walkOf, h.walk]
theorem RegsIn.dmaOf (h : RegsIn A s t) (i : Nat) : t.dmaOf i = s.dmaOf i := by simp only [State.dmaOf, h.dma]
theorem RegsIn.claneOf (h : RegsIn A s t) (i : Nat) : t.claneOf i = s.claneOf i := by simp only [State.claneOf, h.clane]
theorem RegsIn.monOf (h : RegsIn A s t) (i : Nat) : t.monOf i = s.monOf i := by simp only [State.monOf, h.mon]
end

end Sys2Proof.Machine
end

