-- ==== Sys2Proof/Laws/Naming.lean ====
section
/-! SUPPORT. Namings: a naming word that passes its checks, and what the named play carries. -/

namespace Sys2Proof.Machine

theorem seg_ne_pc (e i k : Nat) (he : e < 576) (hi : i < segCountN (tableOf e)) (hk : k < 16) : R.eng_pc e ≠ segBase (tableOf e) + 16 * i + k := by
  simp only [R.eng_pc, segCountN, tableOf, segBase, engBase, roomBase, quadBase] at *
  by_cases h : e < 512
  · have : e / 16 < 32 := by omega
    simp only [h, if_true, this] at *; omega
  · have : ¬ 32 + (e - 512) / 4 < 32 := by omega
    simp only [h, if_false, this] at *; omega
theorem descOf_wordAt (s : State) (e i : Nat) (he : e < 576) (hi : i < segCountN (tableOf e)) :
    descOf (wordAt s e) (tableOf e) i = descOf s (tableOf e) i := by
  have h : ∀ k lo w, k < 16 → (wordAt s e).f ⟨segBase (tableOf e) + 16 * i + k, lo, w⟩ = s.f ⟨segBase (tableOf e) + 16 * i + k, lo, w⟩ :=
    fun k lo w hk => wordAt_f s e _ (seg_ne_pc e i k he hi hk)
  have h0 : ∀ lo w, (wordAt s e).f ⟨segBase (tableOf e) + 16 * i, lo, w⟩ = s.f ⟨segBase (tableOf e) + 16 * i, lo, w⟩ :=
    fun lo w => h 0 lo w (by decide)
  simp only [descOf, State.on, F.seg_base_base, F.seg_len_length, F.seg_ctl_format, F.seg_ctl_valid, F.seg_ctl_suite_log2,
    F.seg_ctl_resident, F.seg_ctl_streaming, F.seg_ctl_filler, F.seg_aux_cmp_en, F.seg_aux_cmp_seg, F.seg_aux_slice_cnt, F.seg_aux_slice_first,
    F.seg_ctl_pin_state, R.seg_base, R.seg_len, R.seg_ctl, R.seg_aux, h0, h 4 _ _ (by decide), h 8 _ _ (by decide), h 0xc _ _ (by decide)]

theorem withMask_keeps (s : State) (e : Nat) (p : Play) : ∃ m a, withMask s e p = { p with jmask := m, jmaskAt := a } := by
  unfold withMask; split
  · exact ⟨p.jmask, p.jmaskAt, rfl⟩
  · exact ⟨_, _, rfl⟩
/-- Prefetching leaves the other engines. -/
theorem topUp_other (s : State) (e j : Nat) (h : j ≠ e) : (topUp s e).engine j = s.engine j := by
  obtain ⟨w, u, c, hw, h1, hu⟩ := topUp_queues s e
  have hwe : w.engine j = s.engine j := by rcases hw with rfl | ⟨f, -, rfl⟩ <;> rfl
  rw [h1]
  rcases hu with rfl | ⟨q, cq, rfl⟩
  · rfl
  · exact (State.modE_engine w e j (fun x => { x with queue := q x, cmpQueue := cq x })).trans ((if_neg (Ne.symm h)).trans hwe)

/-! ### Writes of the naming's core cycle -/

theorem foldl_eng {α : Type} {g : State → α → State} (hg : ∀ u x, (g u x).eng = u.eng) (l : List α) (s : State) : (l.foldl g s).eng = s.eng := by
  induction l generalizing s with
  | nil => rfl
  | cons x xs ih => exact (ih (g s x)).trans (hg s x)
theorem beforeWrites_engine (s : State) (c j : Nat) : (beforeWrites s c).engine j = s.engine j := by
  have : (beforeWrites s c).eng = s.eng := by unfold beforeWrites; exact foldl_eng (g := fun (u : State) (x : Nat × Nat × Word) => u.setReg x.2.1 x.2.2) (fun _ _ => rfl) _ s
  simp only [State.engine, this]

theorem fault_eng (v : State) (e n k : Nat) (h : n < 256) : (fault v n e .contained k).eng = v.eng :=
  (fault_outside (Outside.refl plainReg_free v) n e .contained k h (by decide)).plain.eng
/-- Taking a write back changes no engine. -/
theorem dropOne_eng (e a b l : Nat) (s : State) (x : Nat) (w : Word) : (dropOne e a b l s x w).eng = s.eng := by
  unfold dropOne; split
  · rw [fault_eng _ _ _ _ (by decide)]; simp
  · split
    · rw [fault_eng _ _ _ _ (by decide)]; simp
    · rfl
theorem dropRaced_eng (s : State) (e c a b l : Nat) : (dropRaced s e c a b l).eng = s.eng := by
  unfold dropRaced; split
  · rfl
  · exact foldl_eng (g := fun (u : State) (x : Nat × Nat × Word) => dropOne e a b l u x.2.1 x.2.2) (fun u x => dropOne_eng e a b l u x.2.1 x.2.2) _ s
theorem fault_imemErr (v : State) (e n k : Nat) (h : n < 256) : (fault v n e .contained k).imemErr = v.imemErr :=
  (fault_outside (Outside.refl plainReg_free v) n e .contained k h (by decide)).plain.imemErr
/-- Taking writes back changes no check bits. -/
theorem dropOne_imemErr (e a b l : Nat) (s : State) (x : Nat) (w : Word) : (dropOne e a b l s x w).imemErr = s.imemErr := by
  unfold dropOne; split
  · rw [fault_imemErr _ _ _ _ (by decide)]; simp
  · split
    · rw [fault_imemErr _ _ _ _ (by decide)]; simp
    · rfl
theorem foldl_imemErr {α : Type} {g : State → α → State} (hg : ∀ u x, (g u x).imemErr = u.imemErr) (l : List α) (s : State) :
    (l.foldl g s).imemErr = s.imemErr := by
  induction l generalizing s with
  | nil => rfl
  | cons x xs ih => exact (ih (g s x)).trans (hg s x)
theorem dropRaced_imemErr (s : State) (e c a b l : Nat) : (dropRaced s e c a b l).imemErr = s.imemErr := by
  unfold dropRaced; split
  · rfl
  · exact foldl_imemErr (g := fun (u : State) (x : Nat × Nat × Word) => dropOne e a b l u x.2.1 x.2.2) (fun u x => dropOne_imemErr e a b l u x.2.1 x.2.2) _ s
theorem topUp_imemErr (s : State) (e : Nat) : (topUp s e).imemErr = s.imemErr := by
  obtain ⟨w, u, c, hw, h, hu⟩ := topUp_queues s e
  have hwe : w.imemErr = s.imemErr := by rcases hw with rfl | ⟨f, -, rfl⟩ <;> rfl
  rw [h]
  rcases hu with rfl | ⟨q, cq, rfl⟩
  · rfl
  · exact hwe
/-- Words whose check bits hold are read without effect (R57). -/
theorem readWords_clean (e : Nat) (l : List Nat) (s : State) (h : ∀ a, tget (fun _ => 0) s.imemErr (4096 * e + a) = 0) : readWords e l s = s := by
  induction l with
  | nil => rfl
  | cons a l ih => simp only [readWords, fetchWord, h a]; exact ih
theorem dropRaced_none {s : State} {c : Nat} (h : ∀ y ∈ s.hall.old, y.1 ≠ c) (e a b l : Nat) : dropRaced s e c a b l = s := by
  have : s.hall.old.filter (fun x => x.1 == c) = [] := by
    rw [List.filter_eq_nil_iff]; intro x hx; simpa using h x hx
  rw [dropRaced, this, List.foldl_nil, ite_self]

theorem chainLimit_wordAt (s : State) (e : Nat) (b : Bool) : chainLimit (wordAt s e) e b = chainLimit s e b := by
  simp [chainLimit, begun]

theorem nameDone_named (s : State) (e : Nat) (kind : PlayKind) (seg reps grans first : Nat) (h : NameOk s e seg) :
    Named s e kind seg reps grans first
      (nameDone (wordAt s e) e (mkPlay (beforeWrites (wordAt s e) (coreNow s)) e kind (s.engine e).nextPc seg reps grans first)) := by
  obtain ⟨-, -, hl, hw⟩ := h
  have hlate : (!arming (wordAt s e) e && decide ((begun s e).chainD + chainLimit (wordAt s e) e (inSuite (wordAt s e) e) < (begun s e).chainCyc)) = false := by
    have : (begun s e).chainCyc = coreNow s := rfl
    simp only [inSuite, wordAt_engine, chainLimit_wordAt, wordAt_arming, this]
    rcases hl with hl | hl
    · simp [hl]
    · rw [Bool.and_eq_false_iff]; right; simpa using hl
  simp only [nameDone, wordAt_engine, hlate, State.when, Bool.false_eq_true, if_false]
  obtain ⟨m, a, hm⟩ := withMask_keeps (wordAt s e) e
    { mkPlay (beforeWrites (wordAt s e) (coreNow s)) e kind (s.engine e).nextPc seg reps grans first with late := false }
  simp only [hm]
  generalize hu : (wordAt s e).modE e _ = u
  generalize hv : List.foldl _ u (membersOf u e) = v
  have hve : v.eng = u.eng := by rw [← hv]; exact foldl_eng (fun _ _ => dropRaced_eng _ _ _ _ _ _) _ u
  have hclean : readWords e (jumpOf (wordAt s e) e
      (mkPlay (beforeWrites (wordAt s e) (coreNow s)) e kind (s.engine e).nextPc seg reps grans first)).2.reverse (topUp v e) = topUp v e := by
    rcases hw with hw | hw
    · have : (jumpOf (wordAt s e) e (mkPlay (beforeWrites (wordAt s e) (coreNow s)) e kind (s.engine e).nextPc seg reps grans first)).2 = [] := by
        simp only [jumpOf, wordAt_engine, hw, if_true]
      rw [this]; rfl
    · refine readWords_clean e _ _ fun a => ?_
      have : v.imemErr = s.imemErr := by
        rw [← hv, foldl_imemErr (fun _ _ => dropRaced_imemErr _ _ _ _ _ _), ← hu]; rfl
      rw [topUp_imemErr, this]; exact hw a
  rw [hclean]
  obtain ⟨q, cq, hq⟩ := topUp_engine v e
  have hq' : v.engine e = u.engine e := by simp only [State.engine, hve]
  rw [hq', ← hu, State.modE_engine_self (wordAt s e) e, wordAt_engine] at hq
  refine ⟨⟨_, by rw [hq], ?_⟩, by rw [hq], by rw [hq]; rfl, by rw [hq], ?_, by rw [hq], by rw [hq], by rw [hq], by rw [hq], ?_, ?_⟩
  · simp only [mkPlay, namedDesc, beforeWrites_engine, wordAt_engine]
    exact ⟨trivial, rfl, trivial, trivial, trivial, trivial, trivial, trivial, trivial, trivial, trivial, trivial, trivial, rfl, trivial, trivial⟩
  · rw [hq]
    simp only [inSuite, wordAt_engine, beq_iff_eq]
    rfl
  · intro j hj
    rw [topUp_other _ _ _ hj]
    have : v.engine j = u.engine j := by simp only [State.engine, hve]
    rw [this, ← hu, State.modE_engine, if_neg (Ne.symm hj), wordAt_ne s e j hj]
  · intro ho b hb
    have : v = u := by
      rw [← hv]
      have : ∀ (l : List Nat) (w : State), w.hall.old = s.hall.old →
          l.foldl (fun u m => dropRaced u m (coreNow s) (willUse (u.engine m) (begun s e).pend m).1 (willUse (u.engine m) (begun s e).pend m).2.1
            (willUse (u.engine m) (begun s e).pend m).2.2.2) w = w := by
        intro l
        induction l with
        | nil => intro w _; rfl
        | cons a l ih => intro w hw; rw [List.foldl_cons, dropRaced_none (by rw [hw]; exact ho)]; exact ih w hw
      have h1 := this (membersOf u e) u (by rw [← hu]; rfl)
      simpa [mkPlay, beforeWrites_engine, begun] using h1
    rw [topUp_reg, this, ← hu]
    simp [wordAt_reg s e b hb]
theorem tryName_ok (s : State) (e : Nat) (kind : PlayKind) (seg reps grans first : Nat) (h : NameOk s e seg) :
    tryName (wordAt s e) e kind (s.engine e).nextPc seg reps grans first =
      .ok (mkPlay (beforeWrites (wordAt s e) (coreNow s)) e kind (s.engine e).nextPc seg reps grans first) := by
  obtain ⟨hd, hp, -⟩ := h
  change descCheck (beforeWrites (wordAt s e) (coreNow s)) e seg ((begun s e).suite % 2 == 1) ((begun s e).suite / 2 ^ 12 % 128) = true at hd
  have hc : (begun s e).chainCyc = coreNow s := rfl
  simp only [tryName, inSuite, posOf, wordAt_engine, hc, beforeWrites_engine, hd, Bool.not_true, Bool.false_eq_true, if_false]
  by_cases he : e < 512
  · have := hp he
    rw [if_pos he]; simp only [this]
  · rw [if_neg he]
theorem runWord_named {s : State} {e : Nat} {op : ProgOp} {kind : PlayKind} {seg reps grans first : Nat} (h : ChainReady s e) (he : e < 576)
    (hd : opDefined (s.engine e).level (decide (512 ≤ e)) op = true) (hn : NameOk s e seg)
    (hx : (execOp (wordAt s e) e (s.engine e).nextPc op).1 = (execName (wordAt s e) e (s.engine e).nextPc kind seg reps grans first).1) :
    Named s e kind seg reps grans first (runWord s e op) := by
  have hx2 : (execOp (wordAt s e) e (s.engine e).nextPc op).1 =
      nameDone (wordAt s e) e (mkPlay (beforeWrites (wordAt s e) (coreNow s)) e kind (s.engine e).nextPc seg reps grans first) := by
    rw [hx, execName, tryName_ok _ _ _ _ _ _ _ hn]
  have hN := nameDone_named s e kind seg reps grans first hn
  rw [runWord_ready h he hd (by rw [hx2, hN.2.2.2.1]; decide), hx2]
  exact hN
theorem seg_range {s : State} {e seg : Nat} (hn : NameOk s e seg) : (!decide (512 ≤ e) || decide (seg < 8192)) = true := by
  have hd := hn.1
  simp only [descCheck, Bool.and_eq_true, decide_eq_true_eq] at hd
  have h := hd.1.1.1.1.1.1
  by_cases he : 512 ≤ e
  · have h1 : tableOf e = 32 + (e - 512) / 4 := by simp only [tableOf]; rw [if_neg (by omega)]
    have h2 : segCountN (tableOf e) = 8192 := by rw [h1, segCountN, if_neg (by omega)]
    simp [h2] at h; simp [h]
  · simp [he]

end Sys2Proof.Machine
end

