-- ==== Sys2Proof/Laws/Start.lean ====
section
/-! SUPPORT. Arming and starting: what is read at arm, and where the first play begins. -/

namespace Sys2Proof.Machine

theorem when_eng (s : State) (c : Bool) (f : State → State) (h : (f s).eng = s.eng) : (s.when c f).eng = s.eng := by
  unfold State.when; split
  · exact h
  · rfl
theorem parkLane_eng (s : State) (e : Nat) : (parkLane s e).eng = s.eng := by unfold parkLane; split <;> simp
theorem flushOpen_eng (s : State) (e : Nat) : (flushOpen s e).eng = s.eng := by unfold flushOpen; dsimp only; split <;> simp
theorem capDrop_eng (s : State) (e b : Nat) : (capDrop s e b).eng = s.eng := by simp [capDrop, State.countSat]
theorem placeRecord_eng (s : State) (e : Nat) (r : Record) : (placeRecord s e r).eng = s.eng := by
  unfold placeRecord
  extract_lets l cap n s1 s2 s3 s4
  have h1 : s1.eng = s.eng := when_eng _ _ _ (by simp)
  have h4 : s4.eng = s.eng := by simp [s4, s3, s2, h1, State.count]
  split
  · rfl
  · split
    · simp only [State.modL_frame]; exact capDrop_eng _ _ _
    · split
      · rw [flushOpen_eng, h4]
      · exact h4

theorem drainCap_eng (s : State) (e : Nat) : (drainCap s e).eng = s.eng := by
  have : ∀ (l : List Record) (u : State), (l.foldl (fun u r => placeRecord u e r) u).eng = u.eng := by
    intro l; induction l with
    | nil => intro u; rfl
    | cons x xs ih => intro u; rw [List.foldl_cons, ih, placeRecord_eng]
  simp only [drainCap, drainSome, this]
  simp
theorem clearCounts_eng (s : State) (e : Nat) : (clearCounts s e).eng = s.eng := by unfold clearCounts; rfl
theorem clearOnArm_eng (s : State) (e : Nat) : (clearOnArm s e).eng = s.eng := when_eng _ _ _ (clearCounts_eng _ _)
theorem queueRecord_eng (s : State) (e : Nat) (r : Record) : (queueRecord s e r).eng = s.eng := by
  unfold queueRecord
  generalize (if e < 512 then 256 else 128) = n
  split
  · exact capDrop_eng s e 0
  · rfl
theorem flushBlk_eng (s : State) (e : Nat) : (flushBlk s e).eng = s.eng := by
  unfold flushBlk; dsimp only; split
  · rfl
  · exact queueRecord_eng _ _ _
theorem armLane_eng (s0 : State) (e : Nat) : (armLane s0 e).eng = s0.eng := by
  unfold armLane
  extract_lets s base len bad s1 s1' s2
  have h0 : s.eng = s0.eng := by
    show (flushOpen (drainCap (flushBlk s0 e) e) e).eng = _
    exact (flushOpen_eng _ e).trans ((drainCap_eng _ e).trans (flushBlk_eng s0 e))
  have h1 : s1.eng = s0.eng := by
    show (State.when _ _ _).eng = _
    rw [when_eng _ _ _ (by simp)]; simp [h0]
  have h2 : s1'.eng = s0.eng := by
    show (if e < 512 then _ else _ : State).eng = _
    split
    · exact h1
    · simp [h1]
  have h3 : s2.eng = s1'.eng := (State.modL_frame s1' e _).2.2.1
  rw [h2] at h3
  clear_value s2
  have h4 : (s2.when ((s2.laneOf e).mode == .lossState) (parkLane · e)).eng = s2.eng := when_eng s2 _ (parkLane · e) (parkLane_eng s2 e)
  exact (State.modL_frame _ e _).2.2.1.trans (h4.trans h3)

theorem topUp_f (s : State) (e : Nat) (r : FRef) : (topUp s e).f r = s.f r := by simp only [State.f, topUp_reg]
theorem topUp_est (s : State) (e : Nat) : est (topUp s e) e = est s e := topUp_f s e _
theorem topUp_clk (s : State) (e : Nat) : (topUp s e).clk = s.clk := by
  obtain ⟨w, u, c, hw, h, hu⟩ := topUp_queues s e
  rw [h]
  rcases hu with rfl | ⟨q, cq, rfl⟩
  · rfl
  · rcases hw with rfl | ⟨f, -, rfl⟩ <;> rfl

/-! ### What the play in progress shows -/

theorem f_of_reg {s t : State} {r : FRef} (h : t.reg r.addr = s.reg r.addr) : t.f r = s.f r := by simp only [State.f, h]
/-- Showing the settings in force on a lane writes none of the engines' registers. -/
theorem showSettings_reg' (s : State) (f e k : Nat) (hf : f < 576) (he : e < 576) (hk : k < 0x1000) :
    (showSettings s f).reg (engBase e + k) = s.reg (engBase e + k) := by
  unfold showSettings
  extract_lets x o
  split
  · rename_i h
    have c1 : ∀ n, n < 0x30 → laneTBase f + n ≠ engBase e + k := by
      intro n hn; unfold laneTBase engBase roomBase quadBase
      by_cases h2 : e < 512 <;> simp only [h2, if_true, if_false] <;> omega
    have c2 : laneEBase f + 8 ≠ engBase e + k := by
      unfold laneEBase engBase roomBase quadBase
      by_cases h2 : e < 512 <;> simp only [h2, if_true, if_false] <;> omega
    rw [State.put_reg_ne _ _ _ (by exact c2), State.put_reg_ne _ _ _ (by exact c1 _ (by decide)),
      State.put_reg_ne _ _ _ (by exact c1 _ (by decide)), State.put_reg_ne _ _ _ (by exact c1 _ (by decide)),
      State.setReg_reg_ne _ _ (by exact c1 _ (by decide)), State.put_reg_ne _ _ _ (by exact c1 _ (by decide)),
      State.setReg_reg_ne _ _ (by exact c1 _ (by decide))]
  · rename_i h
    have c1 : ∀ n, n < 0x30 → xlaneBase (f - 512) + n ≠ engBase e + k := by
      intro n hn; unfold xlaneBase engBase roomBase quadBase
      by_cases h2 : e < 512 <;> simp only [h2, if_true, if_false] <;> omega
    rw [State.put_reg_ne _ _ _ (by exact c1 _ (by decide)), State.setReg_reg_ne _ _ (by exact c1 _ (by decide))]
theorem showSettings_reg (s : State) (e k : Nat) (he : e < 576) (hk : k < 0x1000) :
    (showSettings s e).reg (engBase e + k) = s.reg (engBase e + k) := showSettings_reg' s e e k he he hk

/-- From its first boundary on, the play in progress shows in SEG, PC and GRAN. -/
theorem bakePlay_shows {t : State} {e : Nat} {p : Play} (he : e < 576) (hp : (t.engine e).play = some p) (ht : p.t0 ≤ t16Now t)
    (hv : p.void = false) (hl : p.late = true → coreStart (p.namedAt + 1) ≤ t16Now t) (hr : est t e = stRun) :
    stateFlag t e = (match p.kind with | .wait _ => stWait | _ => stRun) ∧ (bakePlay t e).f (F.eng_seg_seg e) = p.seg % 2 ^ 14 ∧
    (bakePlay t e).f (F.eng_pc_play_pc e) = p.pc % 2 ^ 12 ∧ granFlag t e = BitVec.ofNat 32 (granShown t e p) := by
  have hb : begunPlay t e = some p := by
    simp only [begunPlay, hp, hv]
    exact if_pos ⟨ht, by simp, hl⟩
  have hl : ¬ est t e = stLost := by rw [hr]; decide
  have hk : bakePlay t e = showSettings (((t.setReg (R.eng_gran e) (BitVec.ofNat 32 (granShown t e p))).put (F.eng_seg_seg e) p.seg).put
      (F.eng_pc_play_pc e) p.pc) e := by simp only [bakePlay, hb, if_neg hl]
  have n1 : R.eng_seg e ≠ R.eng_pc e ∧ R.eng_seg e ≠ R.eng_gran e ∧ R.eng_pc e ≠ R.eng_gran e := by
    simp only [R.eng_seg, R.eng_pc, R.eng_gran]; omega
  refine ⟨?_, ?_, ?_, ?_⟩
  · simp only [stateFlag, hb, hr, if_true] <;> cases p.kind <;> rfl
  · rw [hk, f_of_reg (r := F.eng_seg_seg e) (showSettings_reg _ e 0x28 he (by decide)), State.put_f_ne _ _ _ _ (Or.inl (by exact n1.1.symm)),
      State.put_f_self _ _ _ (Nat.le_of_ble_eq_true rfl)]
    rfl
  · rw [hk, f_of_reg (r := F.eng_pc_play_pc e) (showSettings_reg _ e 0x24 he (by decide)), State.put_f_self _ _ _ (Nat.le_of_ble_eq_true rfl)]
    rfl
  · rw [granFlag, hk, show R.eng_gran e = engBase e + 0x2c from rfl, showSettings_reg _ e 0x2c he (by decide)]
    rw [State.put_reg_ne _ _ _ (by exact n1.2.2), State.put_reg_ne _ _ _ (by exact n1.2.1)]
    exact State.setReg_reg_self _ _ _

/-- Showing synchronisation changes no engine and no clock, none of the engines' registers, and of lane e the synchronisation only. -/
theorem showSync_keeps (s : State) (e : Nat) : (showSync s e).eng = s.eng ∧ (showSync s e).clk = s.clk ∧
    ((showSync s e).laneOf e).mode = (s.laneOf e).mode ∧
    ∀ i k, i < 576 → k < 0x1000 → (showSync s e).reg (engBase i + k) = s.reg (engBase i + k) := by
  have ne : ∀ i k, i < 576 → k < 0x1000 → R.xl_xstat (e - 512) ≠ engBase i + k := by
    intro i k hi hk
    simp only [R.xl_xstat, xlaneBase, engBase, quadBase, roomBase]
    split <;> omega
  unfold showSync; split
  · exact ⟨rfl, rfl, rfl, fun _ _ _ _ => rfl⟩
  · split
    · refine ⟨by simp, by simp, ?_, fun i k hi hk => ?_⟩
      · simp only [State.put_reads, State.modL_laneOf, if_true]
      · rw [State.put_reg_ne _ _ _ (by exact ne i k hi hk)]; simp
    · exact ⟨by simp, by simp, by simp, fun i k hi hk => State.put_reg_ne _ _ _ (by exact ne i k hi hk)⟩

/-- A play without SYNCT begins at its boundary. -/
theorem placePlay_plays (s : State) (e : Nat) (p : Play) (k : Int) (t0 : Nat) (he : e < 576) (hs : p.pend.synct = false) :
    Plays s e p (s.engine e).set k t0 (placePlay s e p k t0) := by
  unfold placePlay
  extract_lets x kS late k0 t0' q s0 s1 s2 s3 s4
  have hkS : kS = k := by show (if p.pend.synct then _ else _) = k; rw [hs]; rfl
  have hlate : late = false := by show (p.pend.synct && _) = false; rw [hs]; rfl
  have hk0 : k0 = k := by show (if late = true then k else kS) = k; rw [hlate]; simpa using hkS
  have ht0 : t0' = t0 := by show (if k0 = k then t0 else _) = t0; rw [if_pos hk0]
  have hq : q = { p with k0 := k, t0 := t0 } := by show ({ p with k0 := k0, t0 := t0' } : Play) = _; rw [hk0, ht0]
  have hs0 : s0 = s := by
    show (if k < k0 && _ then _ else _) = s
    rw [hk0]; simp
  rw [hlate, State.when, if_neg (by simp)]
  have h4 := showSync_keeps s3 e
  have hr : ∀ a, (∃ k, a = engBase e + k ∧ k < 0x1000) → s4.reg a = s2.reg a := by
    rintro a ⟨k, rfl, hk⟩
    exact (h4.2.2.2 e k he hk).trans ((State.modL_reads s2 e _).1 _)
  have he4 : ∀ j, s4.engine j = s1.engine j := by
    intro j
    have e3 : s3.eng = s2.eng := (State.modL_frame s2 e _).2.2.1
    have e2 : s2.eng = s1.eng := by simp only [s2, State.put_frame]
    simp only [State.engine]; rw [show s4.eng = s3.eng from h4.1, e3, e2]
  obtain ⟨qq, cq, hE⟩ := topUp_engine s4 e
  have hE2 : s4.engine e = _ := (he4 e).trans (by show (s0.setEngine e _).engine e = _; rw [State.setEngine_engine, if_pos rfl])
  rw [hE2] at hE
  have hest : est (topUp s4 e) e = stRun := by
    rw [topUp_est]
    show s4.f (F.eng_stat_state e) = _
    rw [f_of_reg (r := F.eng_stat_state e) (hr _ ⟨0x20, rfl, by decide⟩)]
    show (s1.put _ _).f _ = _
    rw [State.put_f_self _ _ _ (Nat.le_of_ble_eq_true rfl)]
    rfl
  have hplay : ((topUp s4 e).engine e).play = some { p with k0 := k, t0 := t0 } := by rw [hE, ← hq]
  refine ⟨hplay, ?_, ?_, hest, ?_, ?_, ?_⟩
  · rw [hE]
  · rw [hE]
  · intro hm
    rw [topUp_mode, show (s4.laneOf e).mode = (s3.laneOf e).mode from h4.2.2.1]
    show ((s2.modL e _).laneOf e).mode = _
    have h2 : s2.laneOf e = s.laneOf e := by
      show (State.put _ _ _).laneOf e = _
      simp only [State.put_reads, s1, State.setEngine_reads, hs0]
    rw [State.modL_laneOf, if_pos rfl]
    simp only [h2, if_neg hm]
  · intro j hj
    rw [topUp_other _ _ _ hj, he4]
    show (s0.setEngine e _).engine j = _
    rw [State.setEngine_engine, if_neg (Ne.symm hj), hs0]
  · intro ht hv hl
    exact bakePlay_shows he hplay ht hv hl hest
theorem membersOf_single {s : State} {e : Nat} (h : (s.engine e).suite % 2 = 0) : membersOf s e = [e] := by
  unfold membersOf
  have : bitsOf (BitVec.ofNat 32 (s.engine e).suite) 0 1 = 0 := by
    simp [bitsOf]; omega
  simp only [this, if_true]
theorem isFollower_single {s : State} {e : Nat} (h : (s.engine e).suite % 2 = 0) : isFollower s e = false := by
  simp [isFollower, h]
theorem regMembers_single {s : State} {e : Nat} (h : s.on (F.eng_suite_member e) = false) : regMembers s e = [e] := by
  simp [regMembers, h]
theorem promoteReqs_engine (s : State) (e j : Nat) : (promoteReqs s e).engine j = s.engine j := rfl
theorem startMember_plays (s : State) (e t : Nat) (p : Play) (he : e < 576) (hm : (s.engine e).suite % 2 = 0) (hn : (s.engine e).next = some p)
    (hs : p.pend.synct = false) (hq : QuadServes s e (firstPlay s e t p).1) :
    Plays s e p (firstPlay s e t p).1 (firstPlay s e t p).2.1 (firstPlay s e t p).2.2 (startMember t s e) := by
  unfold startMember
  simp only [hn]
  generalize hw : State.put _ (F.eng_stat_state e) stRun = w
  have hwe : ∀ j, w.engine j = if e = j then { s.engine e with set := (firstPlay s e t p).1 } else s.engine j := by
    intro j; rw [← hw]
    simp only [State.put_reads, promoteReqs_engine, State.setEngine_engine]
    by_cases hj : e = j
    · subst hj; rw [if_pos rfl, if_pos rfl, ← hn]; rfl
    · simp only [if_neg hj]
  have hwr : ∀ a, a ≠ R.eng_stat e → w.reg a = s.reg a := by
    intro a ha; rw [← hw, State.put_reg_ne _ _ _ (Ne.symm ha), State.put_reg_ne _ _ _ (Ne.symm ha)]; rfl
  have hwl : w.laneOf e = s.laneOf e := by rw [← hw]; rfl
  have hlead : leaderOf w e = e := by simp [leaderOf, isFollower, hwe, hm]
  have hmem : membersOf w e = [e] := membersOf_single (by simpa [hwe] using hm)
  have hqf : ∀ q lo n, w.f ⟨R.xq_stat q, lo, n⟩ = s.f ⟨R.xq_stat q, lo, n⟩ := fun q lo n => f_of_reg (hwr _ (by
    simp only [R.xq_stat, R.eng_stat, quadBase, engBase, roomBase]; split <;> omega))
  have hband : inBand w (quadOf e) (firstPlay s e t p).1.rate = inBand s (quadOf e) (firstPlay s e t p).1.rate := by
    have h1 : w.reg (R.xq_rateLo (quadOf e)) = s.reg (R.xq_rateLo (quadOf e)) := hwr _ (by
      simp only [R.xq_rateLo, R.eng_stat, quadBase, engBase, roomBase]; split <;> omega)
    have h2 : w.reg (R.xq_rateHi (quadOf e)) = s.reg (R.xq_rateHi (quadOf e)) := hwr _ (by
      simp only [R.xq_rateHi, R.eng_stat, quadBase, engBase, roomBase]; split <;> omega)
    unfold inBand quadTarget State.pair
    rw [h1, h2]
  have hret : 512 ≤ e → w.on (F.xq_stat_retuning (quadOf e)) = false := fun h => by
    have := (hq h).1
    simp only [State.on, F.xq_stat_retuning, hqf] at this ⊢; exact this
  have hneed : (p.pend.freq.isSome && needsRetune w e (firstPlay s e t p).1.rate) = false := by
    rw [Bool.and_eq_false_iff]
    by_cases hf : p.pend.freq = none
    · exact Or.inl (by rw [hf]; rfl)
    · refine Or.inr ?_
      rw [needsRetune, hlead, hmem]
      by_cases h : 512 ≤ e
      · simp [hret h, hband, (hq h).2]
      · simp [h]
  have hy : (applyPend (s.engine e).set e (s.engine e).epoch t (firstBoundary (s.engine e).set (s.engine e).epoch t)
      { p.pend with freq := p.pend.freq.map (fun v => (v.1, false)) }).1 = (firstPlay s e t p).1 := rfl
  simp only [hy, hneed]
  have hret2 : (decide (512 ≤ e) && (w.on (F.xq_stat_retuning (quadOf e)) || !inBand w (quadOf e) (firstPlay s e t p).1.rate)) = false := by
    by_cases h : 512 ≤ e
    · simp [hret h, hband, (hq h).2]
    · simp [h]
  simp only [hret2, State.when, Bool.false_eq_true, if_false]
  have h := placePlay_plays w e p (firstPlay s e t p).2.1 (firstPlay s e t p).2.2 he hs
  have h1 := hwe e
  rw [if_pos rfl] at h1
  rw [h1] at h
  obtain ⟨g1, g2, g3, g4, g5, g6, g7⟩ := h
  refine ⟨g1, g2, g3, g4, fun hm => g5 (by rw [hwl]; exact hm), fun j hj => ?_, g7⟩
  refine (g6 j hj).trans ?_
  rw [hwe, if_neg (Ne.symm hj)]
theorem startAt_plays (s : State) (e t : Nat) (p : Play) (he : e < 576) (hm : (s.engine e).suite % 2 = 0) (hn : (s.engine e).next = some p)
    (hs : p.pend.synct = false) (hq : QuadServes s e (firstPlay s e t p).1) :
    Plays s e p (firstPlay s e t p).1 (firstPlay s e t p).2.1 (firstPlay s e t p).2.2 (startAt s e t) := by
  rw [startAt, membersOf_single hm]
  exact startMember_plays s e t p he hm hn hs hq
theorem advanceT_past {s : State} {t : Nat} (h : t ≤ t16Now s) : advanceT s t = s := by
  have : ¬ s.clk.house < t * t16U := by
    simp only [t16Now, t16U] at *; omega
  simp [Machine.advanceT, advanceHouse, this]
theorem awake_of_f {s u : State} (h : Awake s) (hu : ∀ q : FRef, q.addr < 0x1000000 → u.f q = s.f q) : Awake u := by
  obtain ⟨h1, h2, h3⟩ := h
  refine ⟨?_, ?_, ?_⟩
  · simpa only [heldSide, hu F.id_bootStat_stage (by decide)] using h1
  · simpa only [houseOpen, State.on, hu F.clk_shutOther_house (by decide)] using h2
  · rw [hu _ (by decide)]; exact h3
theorem eng_high (e : Nat) : 0x1000000 ≤ engBase e := by unfold engBase roomBase quadBase; split <;> omega
theorem awake_put {s : State} {r : FRef} {v : Nat} (h : Awake s) (hr : 0x1000000 ≤ r.addr) : Awake (s.put r v) :=
  awake_of_f h fun _ hq => State.put_f_ne _ _ _ _ (Or.inl (by omega))
/-- An arm that the state allows is accepted (R55, R366). -/
theorem armWrite_ready {s : State} {e : Nat} {b : Bool} (hA : Awake s) (hr : ready s = true) (ha : armable s e = true)
    (hl : (s.on (F.eng_suite_member e) && !s.on (F.eng_suite_is_leader e)) = false) : armWrite s e b = armAccepted s e b := by
  rw [armWrite, hA.1, hr, if_neg (by simp), if_neg (by simp), coreCmd_awake _ _ hA, armEngine, hr, ha, hl, if_neg (by simp), if_neg (by simp)]
/-- Parking a lane writes none of the engines' registers. -/
theorem parkLane_reg (s : State) (f e k : Nat) (he : e < 576) (hk : k < 0x1000) : (parkLane s f).reg (engBase e + k) = s.reg (engBase e + k) := by
  unfold parkLane
  split
  · simp
  · rename_i h
    have c1 : ∀ n, n < 0x1000 → xlaneBase (f - 512) + n ≠ engBase e + k := by
      intro n hn
      simp only [xlaneBase, engBase, quadBase, roomBase]
      by_cases he5 : e < 512
      · simp only [he5, if_true]; omega
      · simp only [he5, if_false]; omega
    rw [State.put_reg_ne _ _ _ (by exact c1 0x20 (by decide)), State.put_reg_ne _ _ _ (by exact c1 0x20 (by decide))]
    simp
theorem walkStat_ne (t lo n e k : Nat) (ht : t < 48) (he : e < 576) (hk : k < 0x1000) : (walkStat t lo n).addr ≠ engBase e + k := by
  have hb := eng_high e
  simp only [walkStat]; split <;> simp only [R.calRoom_stat, R.calQuad_stat] <;> omega
/-- The end of a recalibration and of a walk writes none of the engines' registers. -/
theorem setStale_reg (s : State) (t : Nat) (b : Bool) (e k : Nat) (ht : t < 48) (he : e < 576) (hk : k < 0x1000) :
    (setStale s t b).reg (engBase e + k) = s.reg (engBase e + k) := by
  have hb := eng_high e
  unfold setStale
  split
  · rfl
  · have h1 : (F.mon_stat_stale t).addr ≠ engBase e + k := by
      simp only [F.mon_stat_stale, R.mon_stat, roomBase, engBase, quadBase]; split <;> omega
    have h2 : (F.stTemp_word_stale (t / 8)).addr ≠ engBase e + k := by simp only [F.stTemp_word_stale, R.stTemp_word]; omega
    have h3 : (walkStat (32 + t / 2) 3 3).addr ≠ engBase e + k := walkStat_ne _ _ _ _ _ (by omega) he hk
    have hw : ∀ (u : State) (c : Bool) (r : FRef) (v : Nat), r.addr ≠ engBase e + k → (u.when c (·.put r v)).reg (engBase e + k) = u.reg (engBase e + k) := by
      intro u c r v hr; unfold State.when; split
      · exact State.put_reg_ne _ _ _ hr
      · rfl
    extract_lets s1 s2
    rw [hw _ _ _ _ h2, hw _ _ _ _ h3, State.put_reg_ne _ _ _ h1, State.put_reg_ne _ _ _ (walkStat_ne t 3 3 e k ht he hk)]
/-- Showing the trace status of a table's lanes writes none of the engines' registers. -/
theorem traceTable_reg (s : State) (t e k : Nat) (ht : t < 80) (he : e < 576) (hk : k < 0x1000) :
    (traceTable s t).reg (engBase e + k) = s.reg (engBase e + k) := by
  have hb := eng_high e
  unfold traceTable
  have key : ∀ (l : List Nat) (u : State), (∀ x ∈ l, x < 2000) → (l.foldl showTrace u).reg (engBase e + k) = u.reg (engBase e + k) := by
    intro l
    induction l with
    | nil => intro u _; rfl
    | cons x xs ih =>
      intro u hx
      rw [List.foldl_cons, ih _ (fun y hy => hx y (by simp [hy])), showTrace, State.put_reg_ne _ _ _ (by
        have := hx x (by simp)
        simp only [traceBits, R.trace_word]; omega)]
  refine key _ _ fun x hx => ?_
  unfold enginesOf at hx
  split at hx <;> simp only [List.mem_map, List.mem_range] at hx <;> obtain ⟨a, ha, rfl⟩ := hx <;> omega
theorem showTemp_reg (s : State) (t e k : Nat) (ht : t < 48) (he : e < 576) (hk : k < 0x1000) :
    (showTemp s t).reg (engBase e + k) = s.reg (engBase e + k) := by
  have hb := eng_high e
  unfold showTemp
  extract_lets s1
  have h1 : s1.reg (engBase e + k) = s.reg (engBase e + k) := by
    refine (State.put_reg_ne _ _ _ ?_).trans rfl
    simp only [F.calRoom_temp_temp, R.calRoom_temp]; omega
  unfold State.when; split
  · rw [traceTable_reg _ _ e k (by omega) he hk, traceTable_reg _ _ e k (by omega) he hk, h1]
  · rw [traceTable_reg _ _ e k (by omega) he hk, h1]
/-- Discarding results writes no register. -/
theorem dropResults_reg (s : State) (t a : Nat) : (dropResults s t).reg a = s.reg a := by
  unfold dropResults
  have inner : ∀ (m : Nat) (l : List Nat) (u : State), (l.foldl (fun v n => v.modPart m n (fun p => { p with cur := none })) u).reg a = u.reg a := by
    intro m l
    induction l with
    | nil => intro u; rfl
    | cons x xs ih => intro u; rw [List.foldl_cons, ih]; rfl
  have key : ∀ (l : List Nat) (u : State),
      (l.foldl (fun u m => (partsOf m).foldl (fun v n => v.modPart m n (fun p => { p with cur := none })) u) u).reg a = u.reg a := by
    intro l
    induction l with
    | nil => intro u; rfl
    | cons x xs ih => intro u; rw [List.foldl_cons, ih, inner]
  exact key _ _
theorem stopWalk_reg (s : State) (t e k : Nat) (ht : t < 48) (he : e < 576) (hk : k < 0x1000) :
    (stopWalk s t).reg (engBase e + k) = s.reg (engBase e + k) := by
  unfold stopWalk
  extract_lets w s'
  split
  · have h1 : s'.reg (engBase e + k) = s.reg (engBase e + k) := by
      refine (dropResults_reg _ t _).trans ?_
      unfold State.when; split
      · exact showTemp_reg s t e k ht he hk
      · rfl
    rw [← h1]
    unfold State.when; split
    · exact (setStale_reg _ t false e k ht he hk).trans rfl
    · rfl
  · rfl
theorem armWalk_reg (s : State) (t e k : Nat) (ht : t < 48) (he : e < 576) (hk : k < 0x1000) : (armWalk s t).reg (engBase e + k) = s.reg (engBase e + k) := by
  have hb := eng_high e
  have hw : ∀ lo n, (walkStat t lo n).addr ≠ engBase e + k := fun lo n => walkStat_ne t lo n e k ht he hk
  unfold armWalk
  extract_lets w s1 s2
  split
  · rfl
  · have h1 : s1.reg (engBase e + k) = s.reg (engBase e + k) := by
      show (State.when _ _ _).reg _ = _
      unfold State.when; split
      · exact State.put_reg_ne _ _ _ (hw _ _)
      · rfl
    have h2 : (showMode (showInitial s2) t).reg (engBase e + k) = s.reg (engBase e + k) := by
      rw [showMode, State.put_reg_ne _ _ _ (hw _ _), showInitial, State.put_reg_ne _ _ _ (by
        simp only [F.cal_stat_initial, R.cal_stat]; omega), ← h1]
      exact stopWalk_reg s1 t e k ht he hk
    rw [← h2]
    generalize showMode (showInitial s2) t = v
    unfold releaseLanes
    generalize enginesOf t = l
    induction l generalizing v with
    | nil => rfl
    | cons x xs ih =>
      rw [List.foldl_cons]
      rw [ih]
      split
      · exact parkLane_reg _ _ _ _ he hk
      · rfl
theorem tableOf_lt (e : Nat) (he : e < 576) : tableOf e < 48 := by unfold tableOf; split <;> omega
theorem armWalk_f_suite (s : State) (e : Nat) (he : e < 576) : (armWalk s (tableOf e)).on (F.eng_suite_member e) = s.on (F.eng_suite_member e) := by
  have h : (armWalk s (tableOf e)).f (F.eng_suite_member e) = s.f (F.eng_suite_member e) :=
    f_of_reg (armWalk_reg s (tableOf e) e _ (tableOf_lt e he) he (by decide))
  simp only [State.on, h]

/-- Clearing a lane's counters writes none of the engines' registers. -/
theorem clearOnArm_reg (s : State) (f e k : Nat) (hf : f < 576) (he : e < 576) (hk : k < 0x1000) :
    (clearOnArm s f).reg (engBase e + k) = s.reg (engBase e + k) := by
  have c : ∀ n, n < 0x40 → (if f < 512 then R.le_failLo f else R.xl_failLo (f - 512)) + n ≠ engBase e + k ∧ capReg f + n ≠ engBase e + k := by
    intro n hn
    unfold capReg engBase R.le_capBase R.xl_capBase R.le_failLo R.xl_failLo laneEBase xlaneBase quadBase roomBase
    by_cases h1 : f < 512 <;> by_cases h2 : e < 512 <;> simp only [h1, h2, if_true, if_false] <;> omega
  have h : (clearCounts s f).reg (engBase e + k) = s.reg (engBase e + k) := by
    unfold clearCounts
    extract_lets b
    have c' : ∀ n, n < 0x40 → b + n ≠ engBase e + k := fun n hn => (c n hn).1
    unfold State.clearCount
    rw [State.put_reg_ne _ _ _ (by exact (c 16 (by decide)).2)]
    simp only [State.putPair]
    rw [State.setReg_reg_ne _ _ (by exact c' 12 (by decide)), State.setReg_reg_ne _ _ (by exact c' 8 (by decide)),
      State.setReg_reg_ne _ _ (by exact c' 4 (by decide)), State.setReg_reg_ne _ _ (by exact c' 0 (by decide))]
  unfold clearOnArm
  generalize (if f < 512 then s.on (F.le_cfg_clr_on_arm f) else s.on (F.xl_cfg_clr_on_arm (f - 512))) = q
  cases q
  · rfl
  · exact h
theorem clearOnArm_f (s : State) (f e : Nat) (r : FRef) (k : Nat) (hr : r.addr = engBase e + k) (hf : f < 576) (he : e < 576) (hk : k < 0x1000) :
    (clearOnArm s f).f r = s.f r := f_of_reg (by rw [hr]; exact clearOnArm_reg s f e k hf he hk)

/-- Reading an image header (R57): its register file stays as it is; an error in it is recorded. -/
theorem readHeader_done (s : State) (e : Nat) (hh : heldSide s .field = false) :
    (∀ a, PlainReg a → (readHeader s e).reg a = s.reg a) ∧ (tget (fun _ => 0) s.imemErr (4096 * e) = 0 → readHeader s e = s) ∧
    (tget (fun _ => 0) s.imemErr (4096 * e) ≠ 0 → Recorded .field 19 s (readHeader s e)) := by
  have hk : srcKnown .field 19 := by decide
  unfold readHeader
  split
  · next h => exact ⟨fun _ _ => rfl, fun _ => rfl, fun h' => absurd h h'⟩
  · next h =>
    have := fault_done { s with imemErr := tset (fun _ => 0) s.imemErr (4096 * e) 0 } 19 e .corrected 0 hh hk (by decide) (by decide)
    exact ⟨this.2.reg, fun h' => by rw [h] at h'; simp at h', fun _ => this.1⟩
  · next h =>
    have := fault_done s 19 e .corrected 0 hh hk (by decide) (by decide)
    exact ⟨this.2.reg, fun h' => by rw [h] at h'; simp at h', fun _ => this.1⟩
  · next h _ _ =>
    have := fault_done s 19 e .contained 0 hh hk (by decide) (by decide)
    exact ⟨this.2.reg, fun h' => absurd h' h, fun _ => this.1⟩

end Sys2Proof.Machine
end

