-- ==== Sys2Proof/Laws/Stop.lean ====
section
/-! SUPPORT. What ends a run: parking an engine, entering a state, releasing pantry copies. -/

namespace Sys2Proof.Machine

theorem panShow_eng (s : State) (t : Nat) : (panShow s t).eng = s.eng := by simp [panShow]
theorem dropHeldAll_eng (s : State) (t : Nat) : (dropHeldAll s t).eng = s.eng := by
  unfold dropHeldAll; split
  · rw [panShow_eng]; simp
  · rfl
theorem bakePlay_eng (s : State) (e : Nat) : (bakePlay s e).eng = s.eng := by
  unfold bakePlay; split
  · split
    · rfl
    · unfold showSettings; dsimp only; split <;> simp
  · rfl
/-- What the engine has played is noted. -/
theorem pushPast_engine (s : State) (e : Nat) :
    (∃ a b, (pushPast s e).engine e = { s.engine e with past := a, filled := b }) ∧ ∀ j, j ≠ e → (pushPast s e).engine j = s.engine j := by
  unfold pushPast; split
  · exact ⟨⟨_, _, State.modE_engine_self s e _⟩, fun j hj => by rw [State.modE_engine, if_neg (Ne.symm hj)]⟩
  · exact ⟨⟨_, _, rfl⟩, fun _ _ => rfl⟩
/-- Recording what a lane has lost to a retune changes no engine, and none of the engines' registers (R156). -/
theorem endLoss_keeps (s : State) (e t : Nat) :
    (endLoss s e t).eng = s.eng ∧ ∀ i k, i < 576 → k < 0x1000 → (endLoss s e t).reg (engBase i + k) = s.reg (engBase i + k) := by
  unfold endLoss; split
  · exact ⟨rfl, fun _ _ _ _ => rfl⟩
  · dsimp only
    generalize divUp _ 512 = n
    have h := (fault_outside (Outside.refl plainReg_free (s.modL e (fun l => { l with shutT := none }))) 37 e .contained n
      (by decide) (by decide)).plain
    exact ⟨h.eng.trans (by simp), fun i k hi hk => (h.reg _ (plain_engine i k hi hk)).trans (by simp)⟩
/-- A parked engine forgets what it was doing (R244): of what it keeps only its counts and its past plays differ. -/
theorem parkEngine_engine (s : State) (e : Nat) : (∃ a b c d, (parkEngine s e).engine e =
      quiet { s.engine e with past := a, filled := b, played := c, fillN := d }) ∧
    ∀ j, j ≠ e → (parkEngine s e).engine j = s.engine j := by
  obtain ⟨v, hv⟩ : ∃ v, v = bakePlay (endLoss s e (t16Now s)) e := ⟨_, rfl⟩
  obtain ⟨⟨a, b, hy⟩, ho⟩ := pushPast_engine v e
  have hb : ∀ j, v.engine j = s.engine j := fun j => by simp only [hv, State.engine, bakePlay_eng, (endLoss_keeps s e _).1]
  have h : ∀ j, (parkEngine s e).engine j = ((notePlayed (pushPast v e) e).modE e quiet).engine j := by
    intro j
    unfold parkEngine
    extract_lets lost s0 s1
    have h0 : s0.eng = (notePlayed (pushPast v e) e).eng := by rw [hv]; exact flushBlk_eng _ e
    have h1 : (if lost then s0 else parkLane s0 e).eng = s0.eng := by split; exact rfl; exact parkLane_eng _ _
    simp only [State.engine, dropHeldAll_eng, dropReqs, s1, State.modE, State.setEngine, h1, h0]
  constructor
  · refine ⟨a, b, (s.engine e).played + dataGransAt (pushPast v e) e (t16Now (pushPast v e)), 0, ?_⟩
    rw [h, State.modE_engine, if_pos rfl, notePlayed, State.modE_engine, if_pos rfl, hy, hb]
  · intro j hj
    rw [h, State.modE_engine, if_neg (Ne.symm hj), notePlayed, State.modE_engine, if_neg (Ne.symm hj), ho j hj, hb]
theorem parkEngine_quiet (s : State) (e : Nat) : ((parkEngine s e).engine e).play = none ∧ ((parkEngine s e).engine e).next = none ∧
    ((parkEngine s e).engine e).queue = [] ∧ ((parkEngine s e).engine e).fillEnd = none ∧ ((parkEngine s e).engine e).halting = false := by
  obtain ⟨⟨a, b, c, d, h⟩, -⟩ := parkEngine_engine s e
  rw [h]; exact ⟨rfl, rfl, rfl, rfl, rfl⟩
theorem enterState_engine (s : State) (e st j : Nat) (he : e < 576) (hst : st < 8) : (enterState s e st).engine j = s.engine j :=
  (enterState_done s e st he hst).2.engine j
theorem enterState_f (s : State) (e st : Nat) (r : FRef) (he : e < 576) (hst : st < 8) (hr : r.addr = R.eng_stat e)
    (hb : (Nat.ble (r.lo + r.w) 0 || Nat.ble 3 r.lo) = true) : (enterState s e st).f r = s.f r := by
  rw [plain_f_engine (enterState_done s e st he hst).2 he r 0x20 (by rw [hr]; rfl) (by decide)]
  exact State.put_f_bits _ _ _ _ hb
theorem panShow_reg (s : State) (t e k : Nat) (he : e < 576) (hk : k < 0x1000) (ht : t < 48) : (panShow s t).reg (engBase e + k) = s.reg (engBase e + k) := by
  have c : ∀ n, n < 0x1000 → pantryBase t + n ≠ engBase e + k := by
    intro n hn
    simp only [pantryBase, engBase, quadBase, roomBase]
    by_cases he5 : e < 512 <;> by_cases ht5 : t < 32 <;> simp only [he5, ht5, if_true, if_false] <;> omega
  rw [panShow, State.put_reg_ne _ _ _ (by exact c 0 (by decide)), State.put_reg_ne _ _ _ (by exact c 0 (by decide)),
    State.put_reg_ne _ _ _ (by exact c 4 (by decide)), State.put_reg_ne _ _ _ (by exact c 4 (by decide))]
theorem dropHeldAll_reg (s : State) (t e k : Nat) (he : e < 576) (hk : k < 0x1000) (ht : t < 48) :
    (dropHeldAll s t).reg (engBase e + k) = s.reg (engBase e + k) := by
  unfold dropHeldAll; split
  · rw [panShow_reg _ _ _ _ he hk ht]; simp
  · rfl
theorem cap_ne (f k e j : Nat) (hf : f < 576) (he : e < 576) (hk : k < 0x20) (hj : j < 0x1000) : capReg f + k ≠ engBase e + j := by
  unfold capReg engBase R.le_capBase R.xl_capBase laneEBase xlaneBase quadBase roomBase
  by_cases h1 : f < 512 <;> by_cases h2 : e < 512 <;> simp only [h1, h2, if_true, if_false] <;> omega
/-- Parking an engine leaves every engine's registers before PC. -/
theorem parkEngine_f (s : State) (f e : Nat) (r : FRef) (k : Nat) (hr : r.addr = engBase e + k) (he : e < 576) (hf : f < 576) (hk : k < 0x24) :
    (parkEngine s f).f r = s.f r := by
  refine f_of_reg ?_
  rw [hr]
  have hk1 : k < 0x1000 := by omega
  unfold parkEngine
  dsimp only
  rw [dropHeldAll_reg _ _ _ _ he hk1 (tableOf_lt f hf)]
  have hl : (endLoss s f (t16Now s)).reg (engBase e + k) = s.reg (engBase e + k) := (endLoss_keeps s f _).2 e k he hk1
  generalize endLoss s f (t16Now s) = s' at hl
  rw [← hl]
  have hb : (bakePlay s' f).reg (engBase e + k) = s'.reg (engBase e + k) := by
    unfold bakePlay; split
    · split
      · rfl
      · have hne : ∀ n, 0x24 ≤ n → n < 0x1000 → engBase f + n ≠ engBase e + k := by
          intro n h1 h2; unfold engBase roomBase quadBase
          by_cases h3 : f < 512 <;> by_cases h4 : e < 512 <;> simp only [h3, h4, if_true, if_false] <;> omega
        rw [showSettings_reg' _ _ _ _ hf he hk1, State.put_reg_ne _ _ _ (by exact hne 0x24 (by decide) (by decide)),
          State.put_reg_ne _ _ _ (by exact hne 0x28 (by decide) (by decide)), State.setReg_reg_ne _ _ (by exact hne 0x2c (by decide) (by decide))]
    · rfl
  have hp : (notePlayed (pushPast (bakePlay s' f) f) f).reg (engBase e + k) = s'.reg (engBase e + k) := by
    rw [← hb]; unfold pushPast; split <;> rfl
  have hq : (flushBlk (notePlayed (pushPast (bakePlay s' f) f) f) f).reg (engBase e + k) = s'.reg (engBase e + k) := by
    rw [← hp]
    generalize notePlayed (pushPast (bakePlay s' f) f) f = u
    unfold flushBlk; dsimp only; split
    · rfl
    · unfold queueRecord
      generalize (if f < 512 then 256 else 128) = n
      split
      · simp only [State.modL_reads, capDrop, State.raise, State.noteHw_reads, State.countSat]
        rw [State.put_reg_ne _ _ _ (by exact cap_ne f 20 e k hf he (by decide) hk1)]
        simp only [State.noteHw_reads]
        rw [State.put_reg_ne _ _ _ (by exact cap_ne f 16 e k hf he (by decide) hk1)]
        rfl
      · rfl
  show ((if _ then _ else _ : State).modE f quiet).reg _ = _
  simp only [State.modE_reads]
  split
  · exact hq
  · rw [parkLane_reg _ _ _ _ he hk1]; exact hq
/-- A run of filler begins: the engine's named play, pending settings and marks go, and it is to end in state k; everything else but its
requests is as before. -/
theorem beginFillRun_done (s : State) (e : Nat) (k : FillEnd) (t : Nat) :
    (∃ i c, (beginFillRun s e k t).engine e = { s.engine e with
      fillIdx := i, fillCopy := c, fillEnd := some (k, t), next := none, pend := {}, halting := false, dec := none, disagree := none
      nextQueue := [], nextCmpQueue := [], play := (s.engine e).play.map (fun p => { p with marks := [] }) }) ∧
    (∀ j, j ≠ e → (beginFillRun s e k t).engine j = s.engine j) ∧
    { beginFillRun s e k t with eng := s.eng, ctl := s.ctl } = s := by
  have h : ∃ b : Bool, beginFillRun s e k t = ((dropReqs s e).when b (enterFiller · e)).modE e (fun x => { x with
      fillEnd := some (k, t), next := none, pend := {}, halting := false, dec := none, disagree := none
      nextQueue := [], nextCmpQueue := [], play := x.play.map (fun p => { p with marks := [] }) }) := ⟨_, rfl⟩
  obtain ⟨b, h⟩ := h
  rw [h]
  cases b with
  | false =>
    refine ⟨⟨(s.engine e).fillIdx, (s.engine e).fillCopy, ?_⟩, fun j hj => ?_, rfl⟩
    · simp only [State.when, Bool.false_eq_true, if_false, State.modE_engine_self]
      rfl
    · simp only [State.when, Bool.false_eq_true, if_false]
      rw [State.modE_engine, if_neg (Ne.symm hj)]; rfl
  | true =>
    simp only [State.when, if_true, enterFiller]
    refine ⟨⟨0, match (serving (dropReqs s e) (tableOf e) (s.engine e).filler).map (·.id) with | some i => some i | none => (s.engine e).fillCopy,
      ?_⟩, fun j hj => ?_, rfl⟩
    · rw [State.modE_engine_self, State.modE_engine_self]; rfl
    · rw [State.modE_engine, if_neg (Ne.symm hj), State.modE_engine, if_neg (Ne.symm hj)]; rfl
/-- FAULTED: the engine's lanes finish with filler (R35); of the registers only STAT and what an interrupt of the engine's room or quad writes
change. -/
theorem faultEngine_done (s : State) (e : Nat) (he : e < 576) :
    est (faultEngine s e) e = stFaulted ∧ ((faultEngine s e).engine e).next = none ∧ ((faultEngine s e).engine e).pend = {} ∧
    ((faultEngine s e).engine e).fillEnd.map (·.1) = some .faulted ∧ (∀ j, j ≠ e → (faultEngine s e).engine j = s.engine j) ∧
    (faultEngine s e).regs = ((enterState s e stFaulted).when (s.engine e).abortPend (·.put (F.eng_stat_abort_res e) 3)).regs := by
  have hd := enterState_done s e stFaulted he (by decide)
  unfold faultEngine
  extract_lets x s1
  have hen : ∀ j, (s1.when x.abortPend (·.put (F.eng_stat_abort_res e) 3)).engine j = s.engine j := by
    intro j; unfold State.when; split
    · simp only [State.put_reads]; exact enterState_engine s e stFaulted j he (by decide)
    · exact enterState_engine s e stFaulted j he (by decide)
  have hst : est (s1.when x.abortPend (·.put (F.eng_stat_abort_res e) 3)) e = stFaulted := by
    unfold State.when; split
    · rw [est, State.put_f_bits _ _ _ _ rfl]; exact hd.1
    · exact hd.1
  generalize hv : (s1.when x.abortPend (·.put (F.eng_stat_abort_res e) 3)) = v at hen hst
  obtain ⟨⟨i, c, h1⟩, h2, h3⟩ := beginFillRun_done v e .faulted (granuleEnd s e)
  have hr : (beginFillRun v e .faulted (granuleEnd s e)).regs = v.regs := by have := congrArg State.regs h3; simpa using this
  refine ⟨?_, ?_, ?_, ?_, fun j hj => ?_, hr⟩
  · simp only [est, State.modE_reads]
    rw [f_of_reg (s := v) (r := F.eng_stat_state e) (by simp only [State.reg, hr])]; exact hst
  · rw [State.modE_engine_self, h1]
  · rw [State.modE_engine_self, h1]
  · rw [State.modE_engine_self, h1]; rfl
  · rw [State.modE_engine, if_neg (Ne.symm hj), h2 j hj, hen]
theorem leaderOf_single {s : State} {e : Nat} (h : (s.engine e).suite % 2 = 0) : leaderOf s e = e := by
  simp only [leaderOf]; rw [if_neg (by omega)]
theorem cmd_single {s : State} {e : Nat} (h : (s.engine e).suite % 2 = 0) (he : suiteLatched s e = true) :
    cmdLeader s e = e ∧ cmdMembers s e = [e] := by
  constructor
  · simp only [cmdLeader, he, if_true, leaderOf_single h]
  · simp [cmdMembers, he, membersOf_single h]

end Sys2Proof.Machine
end

