-- ==== Sys2Proof/Laws/PlayEvents.lean ====
section
/-! SUPPORT. The events of a play: decisions, ends of plays. -/

namespace Sys2Proof.Machine

theorem playing_play {s : State} {e : Nat} {p : Play} (h : playing s e = some p) : (s.engine e).play = some p := by
  simp only [playing] at h
  split at h
  · exact h
  · cases h
theorem put_engine (s : State) (r : FRef) (v j : Nat) : (s.put r v).engine j = s.engine j := rfl
/-- The sample of an engine outside a suite: its flags, and its play decided. -/
theorem takeSample_single {s : State} {e : Nat} {p : Play} (n : Nat) (hm : (s.engine e).suite % 2 = 0) (hp : (s.engine e).play = some p) :
    (∀ j, (takeSample s e n).engine j = if e = j then
      { s.engine e with sample := flagsOf s e, play := some { p with decided := true, endAt := n } } else s.engine j) ∧
    { takeSample s e n with eng := s.eng, ctl := s.ctl } = s := by
  unfold takeSample
  extract_lets s1 s2
  have e1 : ∀ j, s1.engine j = if e = j then { s.engine e with sample := flagsOf s e } else s.engine j := fun j => State.modE_engine s e j _
  have m1 : membersOf s1 e = [e] := membersOf_single (by rw [e1, if_pos rfl]; exact hm)
  have hs2 : s2 = s1.modE e (fun y => { y with play := some { p with decided := true, endAt := n } }) := by
    show (membersOf s1 e).foldl _ s1 = _
    rw [m1]
    simp only [List.foldl_cons, List.foldl_nil, modPlay, State.modE, e1, if_true, hp, Option.map_some]
  constructor
  · intro j
    show s2.engine j = _
    rw [hs2, State.modE_engine, e1, e1]
    by_cases hj : e = j
    · subst hj; simp only [if_true]; rfl
    · simp only [hj, if_false]
  · show ({ s2 with eng := s.eng, ctl := s.ctl } : State) = s
    rw [hs2]; rfl
/-- A decision of an engine outside a suite. -/
theorem decideNow_decides {s : State} {e : Nat} {p : Play} {n : Nat} (hm : (s.engine e).suite % 2 = 0) (hp : (s.engine e).play = some p)
    (hk : ∀ m, p.kind ≠ .wait m) (ha : (s.engine e).abortPend = false) (hn : (s.engine e).next = none) (hh : (s.engine e).halting = false) :
    Decides s e p n (decideNow s e n) := by
  obtain ⟨he, hs⟩ := takeSample_single n hm hp
  unfold decideNow
  dsimp only
  generalize takeSample s e n = s1 at he hs
  have hx := he e
  rw [if_pos rfl] at hx
  have hc : ((s1.engine e).abortPend || (s1.engine e).next.isSome || (s1.engine e).halting) = false := by rw [hx]; simp [ha, hn, hh]
  have hpc : s1.f (F.eng_pc_pc e) = s.f (F.eng_pc_pc e) := f_of_reg (by rw [← hs]; rfl)
  rw [hc, if_neg (by simp)]
  refine ⟨startChain s1 e (coreNow s), ?_, ?_, ?_, ?_⟩
  · have : waitMask (startChain s1 e (coreNow s)) e = none := by
      unfold waitMask startChain
      rw [State.modE_engine_self, hx]
      dsimp only
      have := hk
      cases hkk : p.kind with
      | wait m => exact absurd hkk (hk m)
      | _ => simp
    simp only [decide_, this]
  · rw [startChain, State.modE_engine_self, hx, hpc]
  · intro j hj
    rw [startChain, State.modE_engine, if_neg (Ne.symm hj), he, if_neg (Ne.symm hj)]
  · rw [← hs]; rfl
theorem closeStream_seg {s : State} {e : Nat} {p : Play} (h : p.kind = .seg) : closeStream s e p = s := by simp [closeStream, h]

end Sys2Proof.Machine
end

