-- ==== Sys2Proof/Laws/Lockstep.lean ====
section
/-! SUPPORT. Task flags, lockstep, and an engine that faults. -/

namespace Sys2Proof.Machine

theorem taskArrivals_one (s : State) (e : Nat) (i : Fin 8) : taskArrivals s e ((BitVec.ofNat 8 (2 ^ i.val)).toNat) = taskArrive s e i := by
  unfold taskArrivals
  fin_cases i <;> rfl
theorem f_lt (s : State) (r : FRef) : s.f r < 2 ^ r.w := by
  simp only [State.f, bitsOf]; exact BitVec.isLt _
theorem or_lt {a b n : Nat} (ha : a < 2 ^ n) (hb : b < 2 ^ n) : a ||| b < 2 ^ n := Nat.or_lt_two_pow ha hb
theorem lstep_reg (t : Nat) (ht : t < 48) : PlainReg (R.lstep_word t) := by
  simp only [PlainReg, R.lstep_word, lstepBase, roomBase, quadBase]
  split <;> omega
/-- An engine that faults does not unmake a record. -/
theorem faultEngine_recorded {s0 s : State} {sd : Side} {n e : Nat} (h : Recorded sd n s0 s) (hn : n < 256) (he : e < 576) :
    Recorded sd n s0 (faultEngine s e) := by
  obtain ⟨-, -, -, -, -, hr⟩ := faultEngine_done s e he
  have h1 : Recorded sd n s0 ((enterState s e stFaulted).when (s.engine e).abortPend (·.put (F.eng_stat_abort_res e) 3)) := by
    unfold State.when; split
    · exact recorded_after (enterState_recorded h hn he) (recKeep_put (recKeep_refl _) _ _ (plain_engine e 0x20 he (by decide))) hn
    · exact enterState_recorded h hn he
  exact recorded_after h1 (fun a _ => by simp only [State.reg, hr]) hn

end Sys2Proof.Machine
end

