-- ==== Sys2Proof/Laws/Suite.lean ====
section
/-! SUPPORT. Suites: what a decision gives each member. -/

namespace Sys2Proof.Machine

/-- A fold of updates each of which changes only its own engine: every engine of the list is changed once, from its old value. -/
theorem foldl_own {g : State → Nat → State} {R : Nat → Engine → Engine → Prop} {Q : State → Prop} (M : Nat → Prop)
    (hown : ∀ u m, M m → Q u → Q (g u m) ∧ R m (u.engine m) ((g u m).engine m) ∧ ∀ j, j ≠ m → (g u m).engine j = u.engine j) :
    ∀ (l : List Nat) (s : State), (∀ m, m ∈ l → M m) → l.Nodup → Q s → Q (l.foldl g s) ∧ (∀ m, m ∈ l → R m (s.engine m) ((l.foldl g s).engine m)) ∧
      ∀ j, j ∉ l → (l.foldl g s).engine j = s.engine j := by
  intro l
  induction l with
  | nil => intro s _ _ hq; exact ⟨hq, fun m hm => by simp at hm, fun j _ => rfl⟩
  | cons a l ih =>
    intro s hM hn hq
    rw [List.nodup_cons] at hn
    obtain ⟨h1, h2, h3⟩ := hown s a (hM a (by simp)) hq
    obtain ⟨k1, k2, k3⟩ := ih (g s a) (fun m hm => hM m (by simp [hm])) hn.2 h1
    refine ⟨k1, fun m hm => ?_, fun j hj => ?_⟩
    · rw [List.foldl_cons]
      by_cases hma : m = a
      · subst hma; rw [k3 m hn.1]; exact h2
      · have : m ∈ l := by simpa [hma] using hm
        have := k2 m this
        rwa [h3 m hma] at this
    · rw [List.foldl_cons]
      simp only [List.mem_cons, not_or] at hj
      rw [k3 j hj.2, h3 j hj.1]
theorem membersOf_nodup (s : State) (l : Nat) : (membersOf s l).Nodup := by
  unfold membersOf; dsimp only; split
  · simp
  · exact (List.nodup_range).filter _
theorem giveNaming_done (u : State) (m : Nat) (q : Play) (cond : Bool) :
    (∃ p, ((giveNaming u m q cond).engine m).next = some p ∧ p.kind = q.kind ∧ p.seg = q.seg ∧
      p.reps = q.reps ∧ p.grans = q.grans ∧ p.first = q.first ∧ p.tt = q.tt ∧ p.namedAt = q.namedAt ∧ p.marks = [] ∧
      p.pend = { q.pend with marks := [] } ∧ ((giveNaming u m q cond).engine m).pend = {}) ∧ ∀ j, j ≠ m → (giveNaming u m q cond).engine j = u.engine j := by
  unfold giveNaming
  extract_lets y pd s1 p p'
  refine ⟨?_, fun j hj => ?_⟩
  · obtain ⟨a, b, hE⟩ := topUp_engine (s1.modE m (fun z => { z with next := some p', pend := {}, cond := false, nextPc := (u.engine m).nextPc, nameCyc := q.namedAt })) m
    rw [State.modE_engine_self] at hE
    refine ⟨p', by rw [hE], rfl, rfl, rfl, rfl, rfl, rfl, rfl, ?_, ?_, by rw [hE]⟩
    · show ((beforeWrites s1 _).engine m).pend.marks = []
      rw [beforeWrites_engine, State.setEngine_engine, if_pos rfl]
    · show ((beforeWrites s1 _).engine m).pend = _
      rw [beforeWrites_engine, State.setEngine_engine, if_pos rfl]
  · rw [topUp_other _ _ _ hj, State.modE_engine, if_neg (Ne.symm hj)]
    show (u.setEngine m _).engine j = _
    rw [State.setEngine_engine, if_neg (Ne.symm hj)]
theorem showPair_engine (u : State) (m c i j : Nat) : (showPair u m c i).engine j = u.engine j := rfl

end Sys2Proof.Machine
end

