-- ==== Sys2Proof/Laws/Miss.lean ====
section
/-! SUPPORT. Missing and poisoned granules, and the resumption of a held lane. -/

namespace Sys2Proof.Machine

theorem heldSide_of_f {s u : State} (h : heldSide s .field = false) (hu : u.reg R.id_bootStat = s.reg R.id_bootStat) : heldSide u .field = false := by
  have : u.f F.id_bootStat_stage = s.f F.id_bootStat_stage := f_of_reg hu
  simpa only [heldSide, this] using h
/-- A first occurrence: the count, the status bit, and the engine as before but for the occurrence it keeps for a clear. -/
theorem occurrence_facts (s : State) (e : Nat) (p : Play) (cause g t : Nat) (c : FaultClass) (he : e < 576) (hh : heldSide s .field = false) (hc : c ≠ .fatal) :
    (∀ j, ∃ o, (occurrence s e p cause g t false c).engine j = { s.engine j with occ := o }) ∧
    (∀ j, (occurrence s e p cause g t false c).laneOf j = s.laneOf j) ∧
    (occurrence s e p cause g t false c).clk = s.clk ∧ (occurrence s e p cause g t false c).tab = s.tab ∧
    (occurrence s e p cause g t false c).reg (R.eng_urunMiss e) = s.reg (R.eng_urunMiss e) ∧
    (occurrence s e p cause g t false c).f (F.eng_stat_underrun e) = 1 ∧
    (occurrence s e p cause g t false c).f (F.eng_urunCnt_n e) = min (s.f (F.eng_urunCnt_n e) + 1) (2 ^ 32 - 1) := by
  unfold occurrence
  extract_lets x ring s1 u u1 u2 u3 u4 u5 u6 s2 st was s3
  have hb := eng_high e
  let A : Nat → Prop := fun a => (engBase e + 0x48 ≤ a ∧ a ≤ engBase e + 0x60)
  have ha : ∀ k, 0x48 ≤ k → k ≤ 0x60 → A (engBase e + k) := fun k h1 h2 => ⟨by omega, by omega⟩
  have h6 : RegsIn A s1 u6 :=
    ((((((RegsIn.refl s1).putPair _ _ _ (ha 0x48 (by decide) (by decide)) (ha 0x4c (by decide) (by decide))).setReg _ _ (ha 0x50 (by decide) (by decide))).setReg _ _
      (ha 0x54 (by decide) (by decide))).setReg _ _ (ha 0x58 (by decide) (by decide))).put _ _ (ha 0x58 (by decide) (by decide))).setReg _ _ (ha 0x5c (by decide) (by decide))
      |>.setReg _ _ (ha 0x60 (by decide) (by decide))
  have key : ∃ v : State, RegsIn A v s2 ∧ v.tab = s1.tab ∧ v.clk = s1.clk ∧ (∀ r, v.reg r = s1.reg r) ∧ (∀ j, v.laneOf j = s1.laneOf j) ∧
      (∀ j, ∃ o, v.engine j = { s1.engine j with occ := o }) := by
    by_cases hv : s1.on (F.eng_firstWhere_valid e) = true
    · refine ⟨s1.modE e (fun y => { y with occ := some (coreNow s, (firstRegs e).map (fun a => (a, u6.reg a))) }), ?_, rfl, rfl, fun _ => rfl, fun _ => rfl, ?_⟩
      · have : s2 = (s1.modE e (fun y => { y with occ := some (coreNow s, (firstRegs e).map (fun a => (a, u6.reg a))) })).noteHw (F.eng_firstWhere_valid e) 1 0 := by
          show State.noteHw (if _ then _ else _) _ _ _ = _
          rw [if_pos hv]
        rw [this]; exact (RegsIn.refl _).note _ _ _
      · intro j
        by_cases hj : j = e
        · subst hj; exact ⟨_, State.modE_engine_self _ _ _⟩
        · exact ⟨(s1.engine j).occ, by rw [State.modE_engine, if_neg (Ne.symm hj)]⟩
    · refine ⟨s1, ?_, rfl, rfl, fun _ => rfl, fun _ => rfl, fun j => ⟨_, rfl⟩⟩
      have : s2 = u6.noteHw (F.eng_firstWhere_valid e) 1 0 := by
        show State.noteHw (if _ then _ else _) _ _ _ = _
        rw [if_neg hv]
      rw [this]; exact h6.note _ _ _
  obtain ⟨v, h2, kt, kc, kr, kl, ke⟩ := key
  have h1 : s1.f (F.eng_urunCnt_n e) = min (s.f (F.eng_urunCnt_n e) + 1) (2 ^ 32 - 1) := by
    show (State.countSat _ _ _).f _ = _
    rw [State.countSat_f, State.put_f_same _ _ _ rfl]
    simp only [satAdd, F.eng_urunCnt_n]; omega
  let B : Nat → Prop := fun a => A a ∨ a = R.eng_urunCnt e ∨ a = R.eng_stat e
  have k1 : RegsIn B s s1 := (RegsIn.refl s).countSat _ _ (Or.inr (Or.inl rfl))
  have k2 : RegsIn B v s3 := (h2.mono fun a h => Or.inl h).raise _ (Or.inr (Or.inr rfl))
  have e3 : ∀ j, ∃ o, s3.engine j = { s.engine j with occ := o } := fun j => by
    obtain ⟨o, ho⟩ := ke j
    exact ⟨o, by rw [k2.engine j, ho, k1.engine j]⟩
  have l3 : ∀ j, s3.laneOf j = s.laneOf j := fun j => (k2.laneOf j).trans ((kl j).trans (k1.laneOf j))
  have r3 : ∀ {a}, ¬ B a → s3.reg a = s.reg a := fun hn => (k2.reg hn).trans ((kr _).trans (k1.reg hn))
  have c3 : s3.clk = s.clk := k2.clk.trans (kc.trans k1.clk)
  have t3 : s3.tab = s.tab := k2.tab.trans (kt.trans k1.tab)
  have hst : st = F.eng_stat_underrun e := rfl
  have hu : s3.f (F.eng_stat_underrun e) = 1 := by
    show (s2.raise st).f _ = 1
    rw [State.raise_f, hst, State.put_f_same _ _ _ rfl]; rfl
  have hcn : s3.f (F.eng_urunCnt_n e) = min (s.f (F.eng_urunCnt_n e) + 1) (2 ^ 32 - 1) := by
    show (s2.raise st).f _ = _
    rw [State.raise_f, State.put_f_ne _ _ _ _ (Or.inl (by rw [hst]; simp only [F.eng_stat_underrun, R.eng_stat, F.eng_urunCnt_n, R.eng_urunCnt]; omega)), h2.f (by
      simp only [A, F.eng_urunCnt_n, R.eng_urunCnt]; omega), f_of_reg (r := F.eng_urunCnt_n e) (kr _), h1]
  have hh3 : heldSide s3 .field = false := heldSide_of_f hh (r3 (by
    simp only [B, A, R.eng_urunCnt, R.eng_stat, R.id_bootStat]; omega))
  have hmiss : ¬ B (R.eng_urunMiss e) := by simp only [B, A, R.eng_urunCnt, R.eng_stat, R.eng_urunMiss]; omega
  have h48 : (if false = true then 49 else 48) = 48 := rfl
  split
  · exact ⟨e3, l3, c3, t3, r3 hmiss, hu, hcn⟩
  · have hd := fault_done s3 48 e c (s3.reg (R.eng_firstWhere e)).toNat hh3 (by decide) (by decide) hc
    exact ⟨fun j => (e3 j).imp fun o ho => (hd.2.engine j).trans ho, fun j => (hd.2.laneOf j).trans (l3 j), hd.2.clk.trans c3, hd.2.tab.trans t3,
      (hd.2.reg _ (plain_engine e 0x44 he (by decide))).trans (r3 hmiss), (hd.2.f (plain_engine e 0x20 he (by decide))).trans hu,
      (hd.2.f (plain_engine e 0x40 he (by decide))).trans hcn⟩
theorem put_engine_at (s : State) (r : FRef) (v j : Nat) : (s.put r v).engine j = s.engine j := rfl
theorem setReg_engine_at (s : State) (r : Nat) (v : Word) (j : Nat) : (s.setReg r v).engine j = s.engine j := rfl
theorem showSettings_engine (s : State) (e j : Nat) : (showSettings s e).engine j = s.engine j := by
  unfold showSettings; simp only []; split <;> simp only [put_engine_at, setReg_engine_at]
theorem modE_f (s : State) (e : Nat) (g : Engine → Engine) (r : FRef) : (s.modE e g).f r = s.f r := rfl
theorem modL_f (s : State) (e : Nat) (g : Lane → Lane) (r : FRef) : (s.modL e g).f r = s.f r := rfl
theorem modL_engine (s : State) (e j : Nat) (g : Lane → Lane) : (s.modL e g).engine j = s.engine j := rfl
theorem countSat_engine (s : State) (r : FRef) (v j : Nat) : (s.countSat r v).engine j = s.engine j := rfl
theorem skip_f (u : State) (e : Nat) (cl : StoreCtl) (k : Play → Play) (r : FRef) : (modPlay { u with ctl := cl } e k).f r = u.f r := rfl
theorem skip_engine (u : State) (e : Nat) (cl : StoreCtl) (k : Play → Play) :
    (modPlay { u with ctl := cl } e k).engine e = { u.engine e with play := (u.engine e).play.map k } := by
  simp only [modPlay, State.modE_engine_self]; rfl
theorem countSat_self (s : State) (r : FRef) (h : ∀ v, (s.put r v).f r = v % 2 ^ 32) (hw : r.w = 32) : (s.countSat r 1).f r = min (s.f r + 1) (2 ^ 32 - 1) := by
  rw [State.countSat_f, h, hw]
  simp only [satAdd]; omega

end Sys2Proof.Machine
end

