-- ==== Sys2Proof/Laws/Answer.lean ====
section
/-! SUPPORT. What a command answers in a side that runs undisturbed, from its meaning. -/

namespace Sys2Proof.Machine

theorem answers_of {c : Instr} {s t : State} {P : State → Prop} (h : exec c s = .next t) (hp : P t) : Answers c s P := ⟨t, h, hp⟩
theorem answers_cfg {c : Instr} {s : State} {g : State → State} {P : State → Prop} (hA : Awake s) (h : exec c s = .next (cfgCmd s g))
    (hp : P (g s)) : Answers c s P := ⟨_, h, by rw [cfgCmd_awake s g hA]; exact hp⟩
theorem answers_core {c : Instr} {s : State} {g : State → State} {P : State → Prop} (hA : Awake s) (h : exec c s = .next (coreCmd s g))
    (hp : P (g s)) : Answers c s P := ⟨_, h, by rw [coreCmd_awake s g hA]; exact hp⟩
theorem answers_infra {c : Instr} {s : State} {g : State → State} {P : State → Prop} (hA : Awake s) (h : exec c s = .next (infraCmd s g))
    (hg : (g s).f F.pwr_stat_state = 0) (hp : P (g s)) : Answers c s P := ⟨_, h, by rw [infraCmd_awake s g hA hg]; exact hp⟩

/-- One bit of a masked word. -/
theorem bitsOf_one {w : Nat} (x : BitVec w) (lo : Nat) : bitsOf x lo 1 = (x.getLsbD lo).toNat := by
  apply Nat.eq_of_testBit_eq
  intro k
  rw [bitsOf_testBit]
  by_cases hk : k = 0
  · subst hk
    cases h : x.getLsbD lo <;> simp [h]
  · have : (x.getLsbD lo).toNat.testBit k = false := by
      cases x.getLsbD lo
      · simp
      · exact Nat.testBit_lt_two_pow (Nat.lt_of_lt_of_le (by decide : (1 : Nat) < 2 ^ 1) (Nat.pow_le_pow_right (by decide) (by omega)))
    rw [this]
    simp only [Bool.and_eq_false_iff, decide_eq_false_iff_not]
    exact Or.inl (by omega)

theorem regsOnly_refl (l : List Nat) (s : State) : RegsOnly l s s := ⟨fun _ _ => rfl, rfl⟩
theorem regsOnly_setReg {l : List Nat} {s t : State} (h : RegsOnly l s t) {a : Nat} (w : Word) (ha : a ∈ l) : RegsOnly l s (t.setReg a w) :=
  ⟨fun b hb => (State.setReg_reg_ne t w (by rintro rfl; exact hb ha)).trans (h.1 b hb), h.2⟩
theorem regsOnly_put {l : List Nat} {s t : State} (h : RegsOnly l s t) (r : FRef) (v : Nat) (ha : r.addr ∈ l) : RegsOnly l s (t.put r v) :=
  regsOnly_setReg h _ ha
theorem regsOnly_when {l : List Nat} {s t : State} (h : RegsOnly l s t) (c : Bool) (g : State → State) (hg : RegsOnly l s (g t)) :
    RegsOnly l s (t.when c g) := by cases c <;> assumption
theorem regsOnly_put1 (s : State) (r : FRef) (v : Nat) {a : Nat} (h : r.addr = a) : RegsOnly [a] s (s.put r v) := by
  subst h; exact State.put_regsOnly s r v
/-- A record whose command also writes a plain register. -/
theorem fault_put (s : State) (r : FRef) (v n unit : Nat) (c : FaultClass) (syn : Nat) (hh : heldSide s .field = false) (hr : PlainReg r.addr)
    (h0 : r.addr ≠ R.id_bootStat) (hw : Nat.ble (r.lo + r.w) 32 = true) (hn : srcKnown .field n) (hs : n < 256) (hc : c ≠ .fatal) :
    (fault (s.put r v) n unit c syn).f r = v % 2 ^ r.w ∧ Recorded .field n s (fault (s.put r v) n unit c syn) ∧
    ∀ a, PlainReg a → a ≠ r.addr → (fault (s.put r v) n unit c syn).reg a = s.reg a := by
  have hd := fault_done (s.put r v) n unit c syn (heldSide_of_f hh (State.put_reg_ne _ _ _ h0)) hn hs hc
  refine ⟨(hd.2.f hr).trans (State.put_f_same _ _ _ hw), ?_, fun a ha hne => (hd.2.reg a ha).trans (State.put_reg_ne _ _ _ (Ne.symm hne))⟩
  exact recorded_before hd.1 (recKeep_put (recKeep_refl s) r v hr) hs
theorem put_laneOf (s : State) (r : FRef) (v j : Nat) : (s.put r v).laneOf j = s.laneOf j := rfl
theorem countSat_laneOf (s : State) (r : FRef) (v j : Nat) : (s.countSat r v).laneOf j = s.laneOf j := rfl
theorem put_table (s : State) (r : FRef) (v j : Nat) : (s.put r v).table j = s.table j := rfl
theorem put_pllOf (s : State) (r : FRef) (v j : Nat) : (s.put r v).pllOf j = s.pllOf j := rfl
theorem countSat_at (s : State) (r : FRef) (hw : Nat.ble (r.lo + r.w) 32 = true) (n : Nat) : (s.countSat r n).f r = min (s.f r + n) (2 ^ r.w - 1) := by
  show (s.put r _).f r = _
  rw [State.put_f_same _ _ _ hw]
  have : 0 < 2 ^ r.w := Nat.two_pow_pos _
  simp only [satAdd]
  exact Nat.mod_eq_of_lt (by omega)
theorem count_at (s : State) (r : FRef) (hw : Nat.ble (r.lo + r.w) 32 = true) (n : Nat) : (s.count r n).f r = (s.f r + n) % 2 ^ r.w :=
  State.put_f_same _ _ _ hw
theorem regsOnly_trans {l1 l2 l : List Nat} {s t u : State} (h1 : RegsOnly l1 s t) (h2 : RegsOnly l2 t u) (hl : ∀ x, x ∉ l → x ∉ l1 ∧ x ∉ l2) :
    RegsOnly l s u := by
  refine ⟨fun x hx => (h2.1 x (hl x hx).2).trans (h1.1 x (hl x hx).1), ?_⟩
  have := congrArg (fun u : State => { u with regs := s.regs, hw := s.hw }) h2.2
  exact this.trans h1.2
theorem regsOnly_mono {l m : List Nat} {s t : State} (h : RegsOnly l s t) (hl : ∀ x, x ∈ l → x ∈ m) : RegsOnly m s t :=
  ⟨fun x hx => h.1 x (fun hx' => hx (hl x hx')), h.2⟩
theorem setReg_same (s : State) (a : Nat) (w : Word) : (s.setReg a w).reg a = w := by rw [State.setReg_reg, if_pos rfl]

end Sys2Proof.Machine
end

