-- ==== Sys2Proof/Laws/Stable.lean ====
section
/-! SUPPORT. What an update can do to the state, said once: a property of states that every elementary update keeps (Stable), and
one that the writes to the pattern store and the field side's reset keep too (StableAll). Laws/Keep*.lean shows it of every operation. -/

namespace Sys2Proof.Machine

set_option linter.unreachableTactic false
set_option linter.unusedTactic false
set_option linter.unusedSimpArgs false
set_option linter.unnecessarySeqFocus false

/-- A property of states that every elementary update keeps, the pattern store's contents and the field side's reset apart. -/
structure Stable (I : State → Prop) : Prop where
  reg : ∀ s a w, I s → I (s.setReg a w)
  eng : ∀ s e x, I s → I (s.setEngine e x)
  lane : ∀ s e x, I s → I (s.setLane e x)
  tab : ∀ s e x, I s → I (s.setTable e x)
  pll : ∀ s e g, I s → I (s.modPll e g)
  dma : ∀ s e g, I s → I (s.modD e g)
  mon : ∀ s e g, I s → I (s.modMon e g)
  walk : ∀ s e g, I s → I (s.modW e g)
  part : ∀ s e i g, I s → I (s.modPart e i g)
  parts : ∀ s g, I s → I (s.mapParts g)
  clane : ∀ s e g, I s → I (s.modC e g)
  imem : ∀ s k v, I s → I { s with imemErr := tset (fun _ => 0) s.imemErr k v }
  clk : ∀ s c, s.clk.now ≤ c.now → I s → I { s with clk := c }
  free : ∀ s, I s → I { s with free := s.free + 1 }
  regsOf : ∀ s p, I s → I { s with regs := s.regs.filter p }
  noDma : ∀ s, I s → I { s with dma := [] }
  rest : ∀ s hall epoch epochWas fltF fltH imemStage pairStage ctl porch fab parts stalled phaseAct crc cal train boot msi hw, I s →
    I { s with hall := hall, epoch := epoch, epochWas := epochWas, fltF := fltF, fltH := fltH, imemStage := imemStage
               pairStage := pairStage, ctl := ctl, porch := porch, fab := fab, parts := parts, stalled := stalled, phaseAct := phaseAct
               crc := crc, cal := cal, train := train, boot := boot, msi := msi, hw := hw }

/-- A stable property that the writes to the pattern store and the field side's reset keep too. -/
structure StableAll (I : State → Prop) : Prop extends Stable I where
  store : ∀ s a v, I s → I { s with store := tset storeDefault s.store a v }
  gran : ∀ s g v, I s → I { s with granErr := tset (fun _ => 0) s.granErr g v }
  noField : ∀ s, I s → I { s with eng := [], lane := [], tab := [], pll := [], store := [], imemErr := [], granErr := [], mon := []
                                  walk := [], part := [], clane := [] }

section
variable {I : State → Prop}

theorem foldl_stable {α : Type} {g : State → α → State} {l : List α} {s : State} (h : I s) (hg : ∀ u x, I u → I (g u x)) :
    I (l.foldl g s) := by
  induction l generalizing s with
  | nil => exact h
  | cons x xs ih => exact ih (hg s x h)

/-- Either branch. -/
theorem ite_stable {c : Prop} [Decidable c] {a b : State} (ha : I a) (hb : I b) : I (if c then a else b) := by
  split
  · exact ha
  · exact hb

/-- The state half of a pair. -/
theorem snd_stable {α : Type} {p : α × State} {a : α} {t : State} (e : p = (a, t)) (h : I p.2) : I t := by rw [e] at h; exact h
theorem fst_stable {α : Type} {p : State × α} {a : α} {t : State} (e : p = (t, a)) (h : I p.1) : I t := by rw [e] at h; exact h
theorem third_stable {α β : Type} {p : α × β × State} {a : α} {b : β} {t : State} (e : p = (a, b, t)) (h : I p.2.2) : I t := by
  rw [e] at h; exact h

theorem State.put_stable (hI : Stable I) {s : State} (h : I s) (r : FRef) (v : Nat) : I (s.put r v) := hI.reg _ _ _ h
theorem State.noteHw_stable (hI : Stable I) {s : State} (h : I s) (r : FRef) (m n : Nat) : I (s.noteHw r m n) :=
  hI.rest _ _ _ _ _ _ _ _ _ _ _ _ _ _ _ _ _ _ _ _ h
theorem State.raise_stable (hI : Stable I) {s : State} (h : I s) (r : FRef) : I (s.raise r) := State.noteHw_stable hI (hI.reg _ _ _ h) _ _ _
theorem State.raiseBits_stable (hI : Stable I) {s : State} (h : I s) (r : FRef) (m : Nat) : I (s.raiseBits r m) :=
  State.noteHw_stable hI (hI.reg _ _ _ h) _ _ _
theorem State.count_stable (hI : Stable I) {s : State} (h : I s) (r : FRef) (n : Nat) : I (s.count r n) :=
  State.noteHw_stable hI (hI.reg _ _ _ h) _ _ _
theorem State.countSat_stable (hI : Stable I) {s : State} (h : I s) (r : FRef) (n : Nat) : I (s.countSat r n) :=
  State.noteHw_stable hI (hI.reg _ _ _ h) _ _ _
theorem State.clearBits_stable (hI : Stable I) {s : State} (h : I s) (r : FRef) : I (s.clearBits r) := hI.reg _ _ _ h
theorem State.clearCount_stable (hI : Stable I) {s : State} (h : I s) (r : FRef) : I (s.clearCount r) := hI.reg _ _ _ h
theorem State.setReg_stable (hI : Stable I) {s : State} (h : I s) (a : Nat) (w : Word) : I (s.setReg a w) := hI.reg _ _ _ h
theorem State.putPair_stable (hI : Stable I) {s : State} (h : I s) (a b v : Nat) : I (s.putPair a b v) :=
  hI.reg _ _ _ (hI.reg _ _ _ h)
theorem State.when_stable {s : State} (h : I s) (c : Bool) (f : State → State) (hf : ∀ u, I u → I (f u)) : I (s.when c f) := by
  unfold State.when; split
  · exact hf s h
  · exact h
theorem State.setEngine_stable (hI : Stable I) {s : State} (h : I s) (e : Nat) (x : Engine) : I (s.setEngine e x) := hI.eng _ _ _ h
theorem State.modE_stable (hI : Stable I) {s : State} (h : I s) (e : Nat) (g : Engine → Engine) : I (s.modE e g) := hI.eng _ _ _ h
theorem State.setLane_stable (hI : Stable I) {s : State} (h : I s) (e : Nat) (x : Lane) : I (s.setLane e x) := hI.lane _ _ _ h
theorem State.modL_stable (hI : Stable I) {s : State} (h : I s) (e : Nat) (g : Lane → Lane) : I (s.modL e g) := hI.lane _ _ _ h
theorem State.setTable_stable (hI : Stable I) {s : State} (h : I s) (t : Nat) (x : Table) : I (s.setTable t x) := hI.tab _ _ _ h
theorem State.modT_stable (hI : Stable I) {s : State} (h : I s) (t : Nat) (g : Table → Table) : I (s.modT t g) := hI.tab _ _ _ h
theorem State.modPll_stable (hI : Stable I) {s : State} (h : I s) (i : Nat) (g : Pll → Pll) : I (s.modPll i g) := hI.pll _ _ _ h
theorem State.modD_stable (hI : Stable I) {s : State} (h : I s) (i : Nat) (g : Dma → Dma) : I (s.modD i g) := hI.dma _ _ _ h
theorem State.modMon_stable (hI : Stable I) {s : State} (h : I s) (i : Nat) (g : Mon → Mon) : I (s.modMon i g) := hI.mon _ _ _ h
theorem State.modW_stable (hI : Stable I) {s : State} (h : I s) (t : Nat) (g : Walk → Walk) : I (s.modW t g) := hI.walk _ _ _ h
theorem State.modPart_stable (hI : Stable I) {s : State} (h : I s) (e i : Nat) (g : CalPart → CalPart) : I (s.modPart e i g) :=
  hI.part _ _ _ _ h
theorem State.mapParts_stable (hI : Stable I) {s : State} (h : I s) (g : CalPart → CalPart) : I (s.mapParts g) := hI.parts _ _ h
theorem State.modC_stable (hI : Stable I) {s : State} (h : I s) (e : Nat) (g : CalLane → CalLane) : I (s.modC e g) := hI.clane _ _ _ h
theorem State.modH_stable (hI : Stable I) {s : State} (h : I s) (g : Hall → Hall) : I (s.modH g) :=
  hI.rest _ _ _ _ _ _ _ _ _ _ _ _ _ _ _ _ _ _ _ _ h
theorem State.modP_stable (hI : Stable I) {s : State} (h : I s) (g : Porch → Porch) : I (s.modP g) :=
  hI.rest _ _ _ _ _ _ _ _ _ _ _ _ _ _ _ _ _ _ _ _ h
theorem State.setFlt_stable (hI : Stable I) {s : State} (h : I s) (sd : Side) (c : Collector) : I (s.setFlt sd c) := by
  cases sd <;> exact hI.rest _ _ _ _ _ _ _ _ _ _ _ _ _ _ _ _ _ _ _ _ h
theorem State.modF_stable (hI : Stable I) {s : State} (h : I s) (sd : Side) (g : Collector → Collector) : I (s.modF sd g) :=
  State.setFlt_stable hI h sd _
theorem ctl_stable (hI : Stable I) {s : State} (h : I s) (c : StoreCtl) : I { s with ctl := c } :=
  hI.rest _ _ _ _ _ _ _ _ _ _ _ _ _ _ _ _ _ _ _ _ h
/-- The clocks and what is no table change at once. -/
theorem upd_stable (hI : Stable I) {s : State} (h : I s) (c : Clock) (hc : s.clk.now ≤ c.now) hall epoch epochWas fltF fltH imemStage
    pairStage ctl porch fab parts stalled phaseAct crc cal train boot msi hw :
    I { s with clk := c, hall := hall, epoch := epoch, epochWas := epochWas, fltF := fltF, fltH := fltH, imemStage := imemStage
               pairStage := pairStage, ctl := ctl, porch := porch, fab := fab, parts := parts, stalled := stalled, phaseAct := phaseAct
               crc := crc, cal := cal, train := train, boot := boot, msi := msi, hw := hw } :=
  hI.rest { s with clk := c } hall epoch epochWas fltF fltH imemStage pairStage ctl porch fab parts stalled phaseAct crc cal train boot msi
    hw (hI.clk s c hc h)
theorem State.draw_stable (hI : Stable I) {s : State} (h : I s) : I s.draw.2 := hI.free _ h
theorem passTime_stable (hI : Stable I) {s : State} (h : I s) (n : Nat) : I (passTime s n) := hI.clk _ _ (Nat.le_add_right _ _) h

end

end Sys2Proof.Machine
end

