-- ==== Sys2Proof/Laws/Keep1.lean ====
section
/-! SUPPORT. Stable properties of states (Laws/Stable.lean) are kept by every operation of calendars, interrupts, engine and lane states, traces, routes and faults. -/

namespace Sys2Proof.Machine

theorem noteOld_stable {I : State → Prop} (hI : Stable I) {s : State} (h : I s) (a : ℕ) : I (noteOld s a) := by
  dsimp only [noteOld]
  with_reducible (repeat' first | assumption | intro _ | apply State.modH_stable hI | split)

theorem setMonVal_stable {I : State → Prop} (hI : Stable I) {s : State} (h : I s) (i : ℕ) (v : ℕ) : I (setMonVal s i v) := by
  dsimp only [setMonVal]
  with_reducible (repeat' first | assumption | intro _ | apply State.raise_stable hI | apply State.putPair_stable hI | refine State.when_stable ?_ _ _ ?_ | split)

theorem monAdd_stable {I : State → Prop} (hI : Stable I) {s : State} (h : I s) (i : ℕ) (c : ℕ) (n : ℕ) : I (monAdd s i c n) := by
  dsimp only [monAdd]
  with_reducible (repeat' first | assumption | intro _ | apply State.modMon_stable hI | apply setMonVal_stable hI | apply State.putPair_stable hI | refine State.when_stable ?_ _ _ ?_ | split)

theorem monEventAt_stable {I : State → Prop} (hI : Stable I) {s : State} (h : I s) (src : ℕ) (c : ℕ) (n : ℕ) : I (monEventAt s src c n) := by
  dsimp only [monEventAt]
  with_reducible (repeat' first | assumption | intro _ | refine foldl_stable ?_ ?_ | refine State.when_stable ?_ _ _ ?_ | apply monAdd_stable hI | split)

theorem monEvent_stable {I : State → Prop} (hI : Stable I) {s : State} (h : I s) (src : ℕ) (n : ℕ) : I (monEvent s src n) := by
  dsimp only [monEvent]
  with_reducible (repeat' first | assumption | intro _ | apply monEventAt_stable hI | split)

theorem sendToHost_stable {I : State → Prop} (hI : Stable I) {s : State} (h : I s) (m : Msg) : I (sendToHost s m) := by
  dsimp only [sendToHost]
  with_reducible (repeat' first | assumption | intro _ | apply State.modP_stable hI | apply monEvent_stable hI | split)

theorem sendToField_stable {I : State → Prop} (hI : Stable I) {s : State} (h : I s) (m : Msg) : I (sendToField s m) := by
  dsimp only [sendToField]
  with_reducible (repeat' first | assumption | intro _ | apply State.modP_stable hI | split)

theorem raiseVector_stable {I : State → Prop} (hI : Stable I) {s : State} (h : I s) (v : ℕ) : I (raiseVector s v) := by
  dsimp only [raiseVector]
  with_reducible (repeat' first | assumption | intro _ | apply State.put_stable hI | split | refine hI.rest _ _ _ _ _ _ _ _ _ _ _ _ _ _ _ _ _ _ _ _ ?_)

theorem irqField_stable {I : State → Prop} (hI : Stable I) {s : State} (h : I s) (v : ℕ) : I (irqField s v) := by
  dsimp only [irqField]
  with_reducible (repeat' first | assumption | intro _ | apply sendToHost_stable hI | apply State.modP_stable hI | split)

theorem irqFlush_stable {I : State → Prop} (hI : Stable I) {s : State} (h : I s)  : I (irqFlush s) := by
  dsimp only [irqFlush]
  with_reducible (repeat' first | assumption | intro _ | refine foldl_stable ?_ ?_ | apply irqField_stable hI | split)

theorem irqEngine_stable {I : State → Prop} (hI : Stable I) {s : State} (h : I s) (t : ℕ) : I (irqEngine s t) := by
  dsimp only [irqEngine]
  with_reducible (repeat' first | assumption | intro _ | apply irqField_stable hI | split)

theorem sendAliveField_stable {I : State → Prop} (hI : Stable I) {s : State} (h : I s)  : I (sendAliveField s) := by
  dsimp only [sendAliveField]
  with_reducible (repeat' first | assumption | intro _ | apply sendToHost_stable hI | split)

theorem sendAliveHost_stable {I : State → Prop} (hI : Stable I) {s : State} (h : I s)  : I (sendAliveHost s) := by
  dsimp only [sendAliveHost]
  with_reducible (repeat' first | assumption | intro _ | apply sendToField_stable hI | split)

theorem enterState_stable {I : State → Prop} (hI : Stable I) {s : State} (h : I s) (e : ℕ) (st : ℕ) : I (enterState s e st) := by
  dsimp only [enterState]
  with_reducible (repeat' first | assumption | intro _ | apply irqEngine_stable hI | apply State.put_stable hI | refine State.when_stable ?_ _ _ ?_ | split)

theorem foldDrive_stable {I : State → Prop} (hI : Stable I) {s : State} (h : I s) (e : ℕ) (p : Play) (g : ℕ) (from_ : ℕ) : I (foldDrive s e p g from_) := by
  dsimp only [foldDrive]
  with_reducible (repeat' first | assumption | intro _ | apply State.modL_stable hI | split)

theorem showSettings_stable {I : State → Prop} (hI : Stable I) {s : State} (h : I s) (e : ℕ) : I (showSettings s e) := by
  dsimp only [showSettings]
  with_reducible (repeat' first | assumption | intro _ | apply State.setReg_stable hI | apply State.put_stable hI | split)

theorem bakePlay_stable {I : State → Prop} (hI : Stable I) {s : State} (h : I s) (e : ℕ) : I (bakePlay s e) := by
  dsimp only [bakePlay]
  with_reducible (repeat' first | assumption | intro _ | apply State.setReg_stable hI | apply showSettings_stable hI | apply State.put_stable hI | split)

theorem showSync_stable {I : State → Prop} (hI : Stable I) {s : State} (h : I s) (e : ℕ) : I (showSync s e) := by
  dsimp only [showSync]
  with_reducible (repeat' first | assumption | intro _ | apply State.modL_stable hI | apply State.put_stable hI | split)

theorem dropSync_stable {I : State → Prop} (hI : Stable I) {s : State} (h : I s) (e : ℕ) : I (dropSync s e) := by
  dsimp only [dropSync]
  with_reducible (repeat' first | assumption | intro _ | apply State.modL_stable hI | apply State.put_stable hI | split)

theorem syncLoss_stable {I : State → Prop} (hI : Stable I) {s : State} (h : I s) (k : ℕ) : I (syncLoss s k) := by
  dsimp only [syncLoss]
  with_reducible (repeat' first | assumption | intro _ | apply State.countSat_stable hI | apply State.modL_stable hI | apply State.raise_stable hI | apply State.put_stable hI | split)

theorem parkLane_stable {I : State → Prop} (hI : Stable I) {s : State} (h : I s) (e : ℕ) : I (parkLane s e) := by
  dsimp only [parkLane]
  with_reducible (repeat' first | assumption | intro _ | apply State.modL_stable hI | apply State.put_stable hI | split)

theorem restLane_stable {I : State → Prop} (hI : Stable I) {s : State} (h : I s) (e : ℕ) : I (restLane s e) := by
  dsimp only [restLane]
  with_reducible (repeat' first | assumption | intro _ | apply parkLane_stable hI | apply State.modL_stable hI | split)

theorem loseLane_stable {I : State → Prop} (hI : Stable I) {s : State} (h : I s) (e : ℕ) (fatal : Bool) : I (loseLane s e fatal) := by
  dsimp only [loseLane]
  with_reducible (repeat' first | assumption | intro _ | apply State.modL_stable hI | apply State.put_stable hI | refine State.when_stable ?_ _ _ ?_ | split)

theorem notePlayed_stable {I : State → Prop} (hI : Stable I) {s : State} (h : I s) (e : ℕ) : I (notePlayed s e) := by
  dsimp only [notePlayed]
  with_reducible (repeat' first | assumption | intro _ | apply State.modE_stable hI | split)

theorem dropReqs_stable {I : State → Prop} (hI : Stable I) {s : State} (h : I s) (e : ℕ) : I (dropReqs s e) := by
  dsimp only [dropReqs]
  with_reducible (repeat' first | assumption | intro _ | split | refine hI.rest _ _ _ _ _ _ _ _ _ _ _ _ _ _ _ _ _ _ _ _ ?_)

theorem failArm_stable {I : State → Prop} (hI : Stable I) {s0 : State} (h : I s0) (e : ℕ) (code : ℕ) : I (failArm s0 e code) := by
  dsimp only [failArm]
  with_reducible (repeat' first | assumption | intro _ | apply State.put_stable hI | apply State.modE_stable hI | apply dropReqs_stable hI | split)

theorem loseClock_stable {I : State → Prop} (hI : Stable I) {s : State} (h : I s) (e : ℕ) : I (loseClock s e) := by
  dsimp only [loseClock]
  with_reducible (repeat' first | assumption | intro _ | apply failArm_stable hI | apply loseLane_stable hI | apply bakePlay_stable hI | apply State.modL_stable hI | apply enterState_stable hI | apply State.put_stable hI | apply State.modE_stable hI | apply dropReqs_stable hI | apply notePlayed_stable hI | refine State.when_stable ?_ _ _ ?_ | split)

theorem fatalEngine_stable {I : State → Prop} (hI : Stable I) {s : State} (h : I s) (e : ℕ) : I (fatalEngine s e) := by
  dsimp only [fatalEngine]
  with_reducible (repeat' first | assumption | intro _ | apply failArm_stable hI | apply loseLane_stable hI | apply bakePlay_stable hI | apply enterState_stable hI | apply State.modE_stable hI | apply dropReqs_stable hI | apply notePlayed_stable hI | split)

theorem reopenLane_stable {I : State → Prop} (hI : Stable I) {s : State} (h : I s) (e : ℕ) : I (reopenLane s e) := by
  dsimp only [reopenLane]
  with_reducible (repeat' first | assumption | intro _ | apply restLane_stable hI | split)

theorem showMode_stable {I : State → Prop} (hI : Stable I) {s : State} (h : I s) (t : ℕ) : I (showMode s t) := by
  dsimp only [showMode]
  with_reducible (repeat' first | assumption | intro _ | apply State.put_stable hI | split)

theorem showInitial_stable {I : State → Prop} (hI : Stable I) {s : State} (h : I s)  : I (showInitial s) := by
  dsimp only [showInitial]
  with_reducible (repeat' first | assumption | intro _ | apply State.put_stable hI | split)

theorem showTrace_stable {I : State → Prop} (hI : Stable I) {s : State} (h : I s) (e : ℕ) : I (showTrace s e) := by
  dsimp only [showTrace]
  with_reducible (repeat' first | assumption | intro _ | apply State.put_stable hI | split)

theorem traceTable_stable {I : State → Prop} (hI : Stable I) {s : State} (h : I s) (t : ℕ) : I (traceTable s t) := by
  dsimp only [traceTable]
  with_reducible (repeat' first | assumption | intro _ | refine foldl_stable ?_ ?_ | apply showTrace_stable hI | split)

theorem allUntraced_stable {I : State → Prop} (hI : Stable I) {s : State} (h : I s)  : I (allUntraced s) := by
  dsimp only [allUntraced]
  with_reducible (repeat' first | assumption | intro _ | refine foldl_stable ?_ ?_ | apply State.setReg_stable hI | split)

theorem setStale_stable {I : State → Prop} (hI : Stable I) {s : State} (h : I s) (t : ℕ) (b : Bool) : I (setStale s t b) := by
  dsimp only [setStale]
  with_reducible (repeat' first | assumption | intro _ | apply State.put_stable hI | refine State.when_stable ?_ _ _ ?_ | split)

theorem showTemp_stable {I : State → Prop} (hI : Stable I) {s : State} (h : I s) (t : ℕ) : I (showTemp s t) := by
  dsimp only [showTemp]
  with_reducible (repeat' first | assumption | intro _ | apply State.put_stable hI | apply State.modW_stable hI | apply traceTable_stable hI | refine State.when_stable ?_ _ _ ?_ | split)

theorem dropResults_stable {I : State → Prop} (hI : Stable I) {s : State} (h : I s) (t : ℕ) : I (dropResults s t) := by
  dsimp only [dropResults]
  with_reducible (repeat' first | assumption | intro _ | refine foldl_stable ?_ ?_ | apply State.modPart_stable hI | split)

theorem stopWalk_stable {I : State → Prop} (hI : Stable I) {s0 : State} (h : I s0) (t : ℕ) : I (stopWalk s0 t) := by
  dsimp only [stopWalk]
  with_reducible (repeat' first | assumption | intro _ | apply setStale_stable hI | apply dropResults_stable hI | apply showTemp_stable hI | apply State.modW_stable hI | refine State.when_stable ?_ _ _ ?_ | split)

theorem walkLost_stable {I : State → Prop} (hI : Stable I) {s : State} (h : I s) (t : ℕ) : I (walkLost s t) := by
  dsimp only [walkLost]
  with_reducible (repeat' first | assumption | intro _ | apply stopWalk_stable hI | apply State.modW_stable hI | apply traceTable_stable hI | split)

theorem releaseLanes_stable {I : State → Prop} (hI : Stable I) {s : State} (h : I s) (t : ℕ) : I (releaseLanes s t) := by
  dsimp only [releaseLanes]
  with_reducible (repeat' first | assumption | intro _ | refine foldl_stable ?_ ?_ | apply parkLane_stable hI | split)

theorem holdLanes_stable {I : State → Prop} (hI : Stable I) {s : State} (h : I s) (t : ℕ) : I (holdLanes s t) := by
  dsimp only [holdLanes]
  with_reducible (repeat' first | assumption | intro _ | refine foldl_stable ?_ ?_ | apply State.modL_stable hI | split)

theorem armWalk_stable {I : State → Prop} (hI : Stable I) {s : State} (h : I s) (t : ℕ) : I (armWalk s t) := by
  dsimp only [armWalk]
  with_reducible (repeat' first | assumption | intro _ | apply showMode_stable hI | apply stopWalk_stable hI | apply showInitial_stable hI | apply State.put_stable hI | apply State.modW_stable hI | refine State.when_stable ?_ _ _ ?_ | apply releaseLanes_stable hI | split)

theorem endMeasure_stable {I : State → Prop} (hI : Stable I) {s : State} (h : I s)  : I (endMeasure s) := by
  dsimp only [endMeasure]
  with_reducible (repeat' first | assumption | intro _ | refine foldl_stable ?_ ?_ | apply restLane_stable hI | split)

theorem stopCal_stable {I : State → Prop} (hI : Stable I) {s : State} (h : I s)  : I (stopCal s) := by
  dsimp only [stopCal]
  with_reducible (repeat' first | assumption | intro _ | refine foldl_stable ?_ ?_ | apply showMode_stable hI | apply stopWalk_stable hI | apply State.put_stable hI | apply State.modW_stable hI | refine State.when_stable ?_ _ _ ?_ | apply endMeasure_stable hI | split | refine hI.rest _ _ _ _ _ _ _ _ _ _ _ _ _ _ _ _ _ _ _ _ ?_)

theorem fabPut_stable {I : State → Prop} (hI : Stable I) {s : State} (h : I s) (x : Option ℕ × Packet) : I (fabPut s x) := by
  dsimp only [fabPut]
  with_reducible (repeat' first | assumption | intro _ | split | refine hI.rest _ _ _ _ _ _ _ _ _ _ _ _ _ _ _ _ _ _ _ _ ?_)

theorem fabSend_stable {I : State → Prop} (hI : Stable I) {s : State} (h : I s) (dest : Option ℕ) (m : Packet) : I (fabSend s dest m) := by
  dsimp only [fabSend]
  with_reducible (repeat' first | assumption | intro _ | refine foldl_stable ?_ ?_ | apply monEvent_stable hI | apply fabPut_stable hI | split)

theorem fabFlood_stable {I : State → Prop} (hI : Stable I) {s : State} (h : I s) (m : Packet) : I (fabFlood s m) := by
  dsimp only [fabFlood]
  with_reducible (repeat' first | assumption | intro _ | refine foldl_stable ?_ ?_ | apply monEvent_stable hI | apply fabPut_stable hI | split)

theorem closeShutter_stable {I : State → Prop} (hI : Stable I) {s : State} (h : I s) (id : ℕ) (st : ℕ) : I (closeShutter s id st) := by
  dsimp only [closeShutter]
  with_reducible (repeat' first | assumption | intro _ | apply State.raise_stable hI | apply State.put_stable hI | refine State.when_stable ?_ _ _ ?_ | split)

theorem stopHouse_stable {I : State → Prop} (hI : Stable I) {s : State} (h : I s)  : I (stopHouse s) := by
  dsimp only [stopHouse]
  with_reducible (repeat' first | assumption | intro _ | apply State.put_stable hI | split | refine hI.rest _ _ _ _ _ _ _ _ _ _ _ _ _ _ _ _ _ _ _ _ ?_)

theorem stackOff_stable {I : State → Prop} (hI : Stable I) {s : State} (h : I s) (st : ℕ) : I (stackOff s st) := by
  dsimp only [stackOff]
  with_reducible (repeat' first | assumption | intro _ | apply State.put_stable hI | split | refine hI.rest _ _ _ _ _ _ _ _ _ _ _ _ _ _ _ _ _ _ _ _ ?_)

theorem stackOn_stable {I : State → Prop} (hI : Stable I) {s : State} (h : I s) (st : ℕ) : I (stackOn s st) := by
  dsimp only [stackOn]
  with_reducible (repeat' first | assumption | intro _ | apply State.put_stable hI | split | refine hI.rest _ _ _ _ _ _ _ _ _ _ _ _ _ _ _ _ _ _ _ _ ?_)

theorem portAnnounceDown_stable {I : State → Prop} (hI : Stable I) {s : State} (h : I s) (p : ℕ) (reason : ℕ) : I (portAnnounceDown s p reason) := by
  dsimp only [portAnnounceDown]
  with_reducible (repeat' first | assumption | intro _ | apply State.put_stable hI | split)

theorem phaseRecovery_stable {I : State → Prop} (hI : Stable I) {s : State} (h : I s)  : I (phaseRecovery s) := by
  dsimp only [phaseRecovery]
  with_reducible (repeat' first | assumption | intro _ | apply State.raise_stable hI | apply State.put_stable hI | refine State.when_stable ?_ _ _ ?_ | split)

theorem aliveStop_stable {I : State → Prop} (hI : Stable I) {s : State} (h : I s) (sd : Side) (st : ℕ) : I (aliveStop s sd st) := by
  dsimp only [aliveStop]
  with_reducible (repeat' first | assumption | intro _ | apply sendAliveHost_stable hI | apply State.put_stable hI | apply sendAliveField_stable hI | split)

theorem safeState_stable {I : State → Prop} (hI : Stable I) {s : State} (h : I s)  : I (safeState s) := by
  dsimp only [safeState]
  with_reducible (repeat' first | assumption | intro _ | refine foldl_stable ?_ ?_ | apply closeShutter_stable hI | apply stackOff_stable hI | apply fatalEngine_stable hI | apply portAnnounceDown_stable hI | apply State.put_stable hI | apply stopHouse_stable hI | apply stopCal_stable hI | apply State.modF_stable hI | apply aliveStop_stable hI | apply State.modPll_stable hI | split)

theorem hostSafe_stable {I : State → Prop} (hI : Stable I) {s : State} (h : I s)  : I (hostSafe s) := by
  dsimp only [hostSafe]
  with_reducible (repeat' first | assumption | intro _ | apply State.modP_stable hI | apply State.modF_stable hI | apply aliveStop_stable hI | split)

theorem putSlot_stable {I : State → Prop} (hI : Stable I) {s : State} (h : I s) (sd : Side) (r : FRec) (seq : ℕ) (same : Bool) : I (putSlot s sd r seq same) := by
  dsimp only [putSlot]
  with_reducible (repeat' first | assumption | intro _ | apply State.setReg_stable hI | split)

theorem putSlots_stable {I : State → Prop} (hI : Stable I) {s : State} (h : I s) (sd : Side) (same : Bool) (q : ℕ)
    (l : List FRec) : I (putSlots s sd same q l) := by
  induction l generalizing s q with
  | nil => exact h
  | cons r rs ih => exact ih (putSlot_stable hI h sd r q same) (q + 1)

theorem sendNotices_stable {I : State → Prop} (hI : Stable I) {s : State} (h : I s) (old : List (Word × Word × Word × Word)) (new : List (Word × Word × Word × Word)) : I (sendNotices s old new) := by
  dsimp only [sendNotices]
  with_reducible (repeat' first | assumption | intro _ | refine foldl_stable ?_ ?_ | apply State.modP_stable hI | apply monEvent_stable hI | apply fabPut_stable hI | split | refine hI.rest _ _ _ _ _ _ _ _ _ _ _ _ _ _ _ _ _ _ _ _ ?_)

theorem queueRec_stable {I : State → Prop} (hI : Stable I) {s : State} (h : I s) (sd : Side) (r : FRec) : I (queueRec s sd r) := by
  dsimp only [queueRec]
  with_reducible (repeat' first | assumption | intro _ | apply State.setReg_stable hI | apply State.countSat_stable hI | apply putSlots_stable hI | apply State.setFlt_stable hI | apply State.put_stable hI | apply sendNotices_stable hI | split)

theorem latchFatal_stable {I : State → Prop} (hI : Stable I) {s : State} (h : I s) (sd : Side) (r : FRec) : I (latchFatal s sd r) := by
  dsimp only [latchFatal]
  with_reducible (repeat' first | assumption | intro _ | apply State.put_stable hI | apply State.putPair_stable hI | split)

theorem reactions_stable {I : State → Prop} (hI : Stable I) {s : State} (h : I s) (sd : Side) (r : FRec) : I (reactions s sd r) := by
  dsimp only [reactions]
  with_reducible (repeat' first | assumption | intro _ | apply raiseVector_stable hI | apply State.modF_stable hI | apply irqField_stable hI | apply aliveStop_stable hI | refine State.when_stable ?_ _ _ ?_ | split)

theorem recordRaw_stable {I : State → Prop} (hI : Stable I) {s : State} (h : I s) (sd : Side) (src : ℕ) (unit : ℕ) (cls : ℕ) (syn : Word) (inj : Bool) : I (recordRaw s sd src unit cls syn inj) := by
  dsimp only [recordRaw]
  with_reducible (repeat' first | assumption | intro _ | apply State.countSat_stable hI | apply safeState_stable hI | apply queueRec_stable hI | apply State.modH_stable hI | apply latchFatal_stable hI | apply hostSafe_stable hI | apply State.raise_stable hI | apply reactions_stable hI | apply State.modF_stable hI | refine State.when_stable ?_ _ _ ?_ | apply State.count_stable hI | split)

theorem fault_stable {I : State → Prop} (hI : Stable I) {s : State} (h : I s) (src : ℕ) (unit : ℕ) (c : FaultClass) (syn : ℕ) : I (fault s src unit c syn) := by
  dsimp only [fault]
  with_reducible (repeat' first | assumption | intro _ | apply recordRaw_stable hI | split)

theorem hostFault_stable {I : State → Prop} (hI : Stable I) {s : State} (h : I s) (src : ℕ) (unit : ℕ) (c : FaultClass) (syn : ℕ) : I (hostFault s src unit c syn) := by
  dsimp only [hostFault]
  with_reducible (repeat' first | assumption | intro _ | apply recordRaw_stable hI | split)

end Sys2Proof.Machine
end

