-- ==== Sys2Proof/Laws/Keep2.lean ====
section
/-! SUPPORT. Stable properties of states (Laws/Stable.lean) are kept by every operation of the passing of time, engines, captures, plays and suites. -/

namespace Sys2Proof.Machine

theorem produce_stable {I : State → Prop} (hI : Stable I) {s : State} (h : I s) (c0 : ℕ) (p : ℕ) : I (produce s c0 p) := by
  dsimp only [produce]
  with_reducible (repeat' first | assumption | intro _ | apply State.modH_stable hI | split)

theorem oneChg_stable {I : State → Prop} (hI : Stable I) {u : State} (h : I u) (now : List (ℕ × ℕ × Bool)) (x : ℕ × ℕ × Bool) : I (oneChg now u x) := by
  dsimp only [oneChg]
  with_reducible (repeat' first | assumption | intro _ | apply State.put_stable hI | split)

theorem applyChg_stable {I : State → Prop} (hI : Stable I) {s : State} (h : I s) (c : ℕ) : I (applyChg s c) := by
  dsimp only [applyChg]
  with_reducible (repeat' first | assumption | intro _ | refine foldl_stable ?_ ?_ | apply State.modH_stable hI | apply oneChg_stable hI | split)

theorem stormPass_stable {I : State → Prop} (hI : Stable I) {s : State} (h : I s) (c : ℕ) (ks : List ℕ) : I (stormPass s c ks) := by
  dsimp only [stormPass]
  with_reducible (repeat' first | assumption | intro _ | refine foldl_stable ?_ ?_ | apply fault_stable hI | apply State.raise_stable hI | apply State.put_stable hI | split)

theorem formWith_stable {I : State → Prop} (hI : Stable I) {s2 : State} (h : I s2) (c : ℕ) (ks : List ℕ) : I (formWith s2 c ks) := by
  dsimp only [formWith]
  with_reducible (repeat' first | assumption | intro _ | refine foldl_stable ?_ ?_ | apply State.modH_stable hI | apply stormPass_stable hI | apply monEventAt_stable hI | refine State.when_stable ?_ _ _ ?_ | split)

theorem disarmAll_stable {I : State → Prop} (hI : Stable I) {s : State} (h : I s) (fs : List ℕ) : I (disarmAll s fs) := by
  dsimp only [disarmAll]
  with_reducible (repeat' first | assumption | intro _ | refine foldl_stable ?_ ?_ | apply State.raise_stable hI | apply State.put_stable hI | refine State.when_stable ?_ _ _ ?_ | split)

theorem formCycle_stable {I : State → Prop} (hI : Stable I) {s0 : State} (h : I s0) (c : ℕ) : I (formCycle s0 c) :=
  formWith_stable hI (State.modH_stable hI (disarmAll_stable hI (applyChg_stable hI h _) _) _) _ _

theorem routeFired_stable {I : State → Prop} (hI : Stable I) {s : State} (h : I s) (t : ℕ) : I (routeFired s t) := by
  dsimp only [routeFired]
  with_reducible (repeat' first | assumption | intro _ | apply State.modH_stable hI | split)

theorem fireTimed_stable {I : State → Prop} (hI : Stable I) {s : State} (h : I s) (e : ℕ) (m : ℕ) (t : ℕ) : I (fireTimed s e m t) := by
  dsimp only [fireTimed]
  with_reducible (repeat' first | assumption | intro _ | apply State.modH_stable hI | split)

theorem reachCycle_stable {I : State → Prop} (hI : Stable I) {s : State} (h : I s) (c : ℕ) : I (reachCycle s c) := by
  dsimp only [reachCycle]
  with_reducible (repeat' first | assumption | intro _ | apply passTime_stable hI | split)

theorem settleLoop_stable {I : State → Prop} (hI : Stable I) (n : ℕ) {s : State} (h : I s) (k : ℕ) : I (settleLoop n s k) := by
  induction n generalizing s with
  | zero => exact h
  | succ n ih =>
    simp only [settleLoop]
    split
    · exact h
    · exact ih (formCycle_stable hI (reachCycle_stable hI h _) _)


theorem settle_stable {I : State → Prop} (hI : Stable I) {s : State} (h : I s) (k : ℕ) : I (settle s k) := by
  dsimp only [settle]
  with_reducible (repeat' first | assumption | intro _ | apply applyChg_stable hI | apply settleLoop_stable hI | split)

theorem advanceHouse_stable {I : State → Prop} (hI : Stable I) {s : State} (h : I s) (h : ℕ) : I (advanceHouse s h) := by
  dsimp only [advanceHouse]
  with_reducible (repeat' first | assumption | intro _ | apply settle_stable hI | apply routeFired_stable hI | apply passTime_stable hI | split)

theorem advanceT_stable {I : State → Prop} (hI : Stable I) {s : State} (h : I s) (t : ℕ) : I (advanceT s t) := by
  dsimp only [advanceT]
  with_reducible (repeat' first | assumption | intro _ | apply advanceHouse_stable hI | split)

theorem advanceCycle_stable {I : State → Prop} (hI : Stable I) {s : State} (h : I s) (k : ℕ) : I (advanceCycle s k) := by
  dsimp only [advanceCycle]
  with_reducible (repeat' first | assumption | intro _ | apply advanceHouse_stable hI | split)

theorem advanceNow_stable {I : State → Prop} (hI : Stable I) {s : State} (h : I s) (t : ℕ) : I (advanceNow s t) := by
  dsimp only [advanceNow]
  with_reducible (repeat' first | assumption | intro _ | apply settle_stable hI | apply routeFired_stable hI | apply passTime_stable hI | split)

theorem tick_stable {I : State → Prop} (hI : Stable I) {s : State} (h : I s)  : I (tick s) := by
  dsimp only [tick]
  with_reducible (repeat' first | assumption | intro _ | apply advanceNow_stable hI | split)

theorem putByte_stable {I : State → Prop} (hI : StableAll I) {s : State} (h : I s) (a : ℕ) (v : BitVec 8) : I (putByte s a v) :=
  hI.store s a v h

theorem putBytes_stable {I : State → Prop} (hI : StableAll I) {s : State} (h : I s) (a v n : ℕ) : I (putBytes s a v n) := by
  induction n generalizing s a v with
  | zero => exact h
  | succ n ih => exact ih (putByte_stable hI h _ _) _ _

theorem setErr_stable {I : State → Prop} (hI : StableAll I) {s : State} (h : I s) (g v : ℕ) : I (setErr s g v) := hI.gran s g v h

theorem writeGran_stable {I : State → Prop} (hI : StableAll I) {s : State} (h : I s) (g : ℕ) (d : Granule) : I (writeGran s g d) := by
  dsimp only [writeGran]
  with_reducible (repeat' first | assumption | intro _ | apply putBytes_stable hI | apply setErr_stable hI | split | refine (hI.toStable).rest _ _ _ _ _ _ _ _ _ _ _ _ _ _ _ _ _ _ _ _ ?_)

theorem startSparing_stable {I : State → Prop} (hI : Stable I) {s : State} (h : I s) (g : ℕ) : I (startSparing s g) := by
  dsimp only [startSparing]
  with_reducible (repeat' first | assumption | intro _ | split | refine hI.rest _ _ _ _ _ _ _ _ _ _ _ _ _ _ _ _ _ _ _ _ ?_)

theorem readGran_stable {I : State → Prop} (hI : StableAll I) {s : State} (h : I s) (g : ℕ) : I (readGran s g).2 := by
  dsimp only [readGran]
  with_reducible (repeat' first | assumption | intro _ | apply State.setReg_stable hI.toStable | apply State.countSat_stable hI.toStable | apply startSparing_stable hI.toStable | apply setErr_stable hI | apply fault_stable hI.toStable | apply State.raise_stable hI.toStable | split | refine (hI.toStable).rest _ _ _ _ _ _ _ _ _ _ _ _ _ _ _ _ _ _ _ _ ?_)

theorem beforeWrites_stable {I : State → Prop} (hI : Stable I) {s : State} (h : I s) (c : ℕ) : I (beforeWrites s c) := by
  dsimp only [beforeWrites]
  with_reducible (repeat' first | assumption | intro _ | refine foldl_stable ?_ ?_ | apply State.setReg_stable hI | split)

theorem panShow_stable {I : State → Prop} (hI : Stable I) {s : State} (h : I s) (t : ℕ) : I (panShow s t) := by
  dsimp only [panShow]
  with_reducible (repeat' first | assumption | intro _ | refine foldl_stable ?_ ?_ | apply State.put_stable hI | split)

theorem pinFail_stable {I : State → Prop} (hI : Stable I) {s : State} (h : I s) (t : ℕ) (i : ℕ) : I (pinFail s t i) := by
  dsimp only [pinFail]
  with_reducible (repeat' first | assumption | intro _ | apply State.raise_stable hI | apply State.put_stable hI | split)

theorem askLoad_stable {I : State → Prop} (hI : Stable I) {s : State} (h : I s) (t : ℕ) (c : PanCopy) : I (askLoad s t c) := by
  dsimp only [askLoad]
  with_reducible (repeat' first | assumption | intro _ | split | refine hI.rest _ _ _ _ _ _ _ _ _ _ _ _ _ _ _ _ _ _ _ _ ?_)

theorem startLoad_stable {I : State → Prop} (hI : Stable I) {s : State} (h : I s) (t : ℕ) (i : ℕ) (reload : Bool) (place : Option ℕ) : I (startLoad s t i reload place) := by
  dsimp only [startLoad]
  with_reducible (repeat' first | assumption | intro _ | apply State.modT_stable hI | apply State.put_stable hI | apply askLoad_stable hI | refine State.when_stable ?_ _ _ ?_ | split)

theorem pinSeg_stable {I : State → Prop} (hI : Stable I) {s : State} (h : I s) (t : ℕ) (i : ℕ) : I (pinSeg s t i) := by
  dsimp only [pinSeg]
  with_reducible (repeat' first | assumption | intro _ | apply pinFail_stable hI | apply panShow_stable hI | apply startLoad_stable hI | split)

theorem releaseSeg_stable {I : State → Prop} (hI : Stable I) {s : State} (h : I s) (t : ℕ) (i : ℕ) : I (releaseSeg s t i) := by
  dsimp only [releaseSeg]
  with_reducible (repeat' first | assumption | intro _ | apply State.modT_stable hI | apply panShow_stable hI | split)

theorem dropHeld_stable {I : State → Prop} (hI : Stable I) {s : State} (h : I s) (t : ℕ) (i : ℕ) : I (dropHeld s t i) := by
  dsimp only [dropHeld]
  with_reducible (repeat' first | assumption | intro _ | apply State.modT_stable hI | apply panShow_stable hI | split)

theorem dropHeldAll_stable {I : State → Prop} (hI : Stable I) {s : State} (h : I s) (t : ℕ) : I (dropHeldAll s t) := by
  dsimp only [dropHeldAll]
  with_reducible (repeat' first | assumption | intro _ | apply State.modT_stable hI | apply panShow_stable hI | split)

theorem taskArrive_stable {I : State → Prop} (hI : Stable I) {s : State} (h : I s) (e : ℕ) (t : ℕ) : I (taskArrive s e t) := by
  dsimp only [taskArrive]
  with_reducible (repeat' first | assumption | intro _ | apply State.raise_stable hI | apply State.put_stable hI | apply State.setEngine_stable hI | apply State.count_stable hI | split)

theorem taskArrivals_stable {I : State → Prop} (hI : Stable I) {s : State} (h : I s) (e : ℕ) (mask : ℕ) : I (taskArrivals s e mask) := by
  dsimp only [taskArrivals]
  with_reducible (repeat' first | assumption | intro _ | refine foldl_stable ?_ ?_ | apply taskArrive_stable hI | split)

theorem clearFlags_stable {I : State → Prop} (hI : Stable I) {s : State} (h : I s) (e : ℕ) (mask : ℕ) (c : ℕ) : I (clearFlags s e mask c) := by
  dsimp only [clearFlags]
  with_reducible (repeat' first | assumption | intro _ | apply State.put_stable hI | apply State.modE_stable hI | refine State.when_stable ?_ _ _ ?_ | split)

theorem consume_stable {I : State → Prop} (hI : Stable I) {s : State} (h : I s) (e : ℕ) (mask : ℕ) (c : ℕ) : I (consume s e mask c) := by
  dsimp only [consume]
  with_reducible (repeat' first | assumption | intro _ | apply State.modE_stable hI | apply clearFlags_stable hI | split)

theorem reqPlay_stable {I : State → Prop} (hI : Stable I) {s : State} (h : I s) (e : ℕ) (p : Play) (nxt : Bool) (n g : ℕ) :
    I (reqPlay s e p nxt n g) := by
  induction n generalizing s g with
  | zero => exact h
  | succ n ih =>
    simp only [reqPlay]; split
    · exact ih (ctl_stable hI h _) _
    · exact h

theorem reqCmp_stable {I : State → Prop} (hI : Stable I) {s : State} (h : I s) (e : ℕ) (p : Play) (base : ℕ) (nxt : Bool) (n g : ℕ) :
    I (reqCmp s e p base nxt n g) := by
  induction n generalizing s g with
  | zero => exact h
  | succ n ih =>
    simp only [reqCmp]; split
    · exact ih (ctl_stable hI h _) _
    · exact h

theorem pruneQueue_stable {I : State → Prop} (hI : Stable I) {s : State} (h : I s) (e : ℕ) : I (pruneQueue s e) := by
  dsimp only [pruneQueue]
  with_reducible (repeat' first | assumption | intro _ | apply State.modE_stable hI | apply foldDrive_stable hI | split)

theorem topUp_stable {I : State → Prop} (hI : Stable I) {s0 : State} (h : I s0) (e : ℕ) : I (topUp s0 e) := by
  dsimp only [topUp]
  with_reducible (repeat' first | assumption | intro _ | apply reqPlay_stable hI | apply pruneQueue_stable hI | apply reqCmp_stable hI | split)

theorem showPair_stable {I : State → Prop} (hI : Stable I) {s : State} (h : I s) (l : ℕ) (code : ℕ) (set : ℕ) : I (showPair s l code set) := by
  dsimp only [showPair]
  with_reducible (repeat' first | assumption | intro _ | apply State.put_stable hI | split)

theorem chainFault_stable {I : State → Prop} (hI : Stable I) {s : State} (h : I s) (e : ℕ) (src : ℕ) (c : FaultClass) (syn : ℕ) : I (chainFault s e src c syn) := by
  dsimp only [chainFault]
  with_reducible (repeat' first | assumption | intro _ | apply advanceCycle_stable hI | apply fault_stable hI | split)

theorem enterFiller_stable {I : State → Prop} (hI : Stable I) {s : State} (h : I s) (e : ℕ) : I (enterFiller s e) := by
  dsimp only [enterFiller]
  with_reducible (repeat' first | assumption | intro _ | apply State.modE_stable hI | split)

theorem beginFillRun_stable {I : State → Prop} (hI : Stable I) {s : State} (h : I s) (e : ℕ) (k : FillEnd) (t : ℕ) : I (beginFillRun s e k t) := by
  dsimp only [beginFillRun]
  with_reducible (repeat' first | assumption | intro _ | apply enterFiller_stable hI | apply State.modE_stable hI | apply dropReqs_stable hI | refine State.when_stable ?_ _ _ ?_ | split)

theorem faultEngine_stable {I : State → Prop} (hI : Stable I) {s : State} (h : I s) (e : ℕ) : I (faultEngine s e) := by
  dsimp only [faultEngine]
  with_reducible (repeat' first | assumption | intro _ | apply enterState_stable hI | apply beginFillRun_stable hI | apply State.put_stable hI | apply State.modE_stable hI | refine State.when_stable ?_ _ _ ?_ | split)

theorem haltChain_stable {I : State → Prop} (hI : Stable I) {s : State} (h : I s) (e : ℕ) (addr : ℕ) (cause : Option ℕ) : I (haltChain s e addr cause) := by
  dsimp only [haltChain]
  with_reducible (repeat' first | assumption | intro _ | apply failArm_stable hI | apply chainFault_stable hI | apply State.modE_stable hI | split)

theorem descFail_stable {I : State → Prop} (hI : Stable I) {s : State} (h : I s) (e : ℕ) (seg : ℕ) : I (descFail s e seg) := by
  dsimp only [descFail]
  with_reducible (repeat' first | assumption | intro _ | apply failArm_stable hI | apply chainFault_stable hI | apply faultEngine_stable hI | split)

theorem fetchWord_stable {I : State → Prop} (hI : Stable I) {s : State} (h : I s) (e pc : ℕ) : I (fetchWord s e pc).2 := by
  unfold fetchWord
  dsimp only
  split
  · exact h
  · exact chainFault_stable hI (hI.imem _ _ _ h) _ _ _ _
  · exact chainFault_stable hI h _ _ _ _
  · dsimp only; split
    · exact failArm_stable hI (chainFault_stable hI h _ _ _ _) _ _
    · exact faultEngine_stable hI (chainFault_stable hI h _ _ _ _) _

theorem readWords_stable {I : State → Prop} (hI : Stable I) (e : ℕ) (l : List ℕ) {s : State} (h : I s) : I (readWords e l s) := by
  induction l generalizing s with
  | nil => exact h
  | cons a l ih =>
    simp only [readWords]
    have hf := fetchWord_stable hI h e a
    split
    all_goals (rename_i heq; rw [heq] at hf; first | exact ih hf | exact hf)


theorem dropOne_stable {I : State → Prop} (hI : Stable I) (e : ℕ) (a : ℕ) (b : ℕ) (lvl : ℕ) {s : State} (h : I s) (addr : ℕ) (old : Word) : I (dropOne e a b lvl s addr old) := by
  dsimp only [dropOne]
  with_reducible (repeat' first | assumption | intro _ | apply State.setReg_stable hI | apply fault_stable hI | apply State.raise_stable hI | split)

theorem dropRaced_stable {I : State → Prop} (hI : Stable I) {s : State} (h : I s) (e : ℕ) (c : ℕ) (a : ℕ) (b : ℕ) (lvl : ℕ) : I (dropRaced s e c a b lvl) := by
  dsimp only [dropRaced]
  with_reducible (repeat' first | assumption | intro _ | refine foldl_stable ?_ ?_ | apply dropOne_stable hI | split)

theorem nameDone_stable {I : State → Prop} (hI : Stable I) {s : State} (h : I s) (e : ℕ) (p0 : Play) : I (nameDone s e p0) := by
  dsimp only [nameDone]
  with_reducible (repeat' first | assumption | intro _ | refine foldl_stable ?_ ?_ | apply dropRaced_stable hI | apply topUp_stable hI | apply readWords_stable hI | apply State.raise_stable hI | apply State.modE_stable hI | refine State.when_stable ?_ _ _ ?_ | split)

theorem execName_stable {I : State → Prop} (hI : Stable I) {s : State} (h : I s) (e : ℕ) (pc : ℕ) (kind : PlayKind) (seg : ℕ) (reps : ℕ) (grans : ℕ) (first : ℕ) : I (execName s e pc kind seg reps grans first).1 := by
  dsimp only [execName]
  with_reducible (repeat' first | assumption | intro _ | apply nameDone_stable hI | apply haltChain_stable hI | apply showPair_stable hI | apply descFail_stable hI | split)

theorem strmOp_stable {I : State → Prop} (hI : Stable I) {s : State} (h : I s) (e : ℕ) (pc : ℕ) (ring : ℕ) (g : ℕ) : I (strmOp s e pc ring g).1 := by
  dsimp only [strmOp]
  with_reducible (repeat' first | assumption | intro _ | apply haltChain_stable hI | apply State.modE_stable hI | apply execName_stable hI | refine snd_stable (by assumption) ?_ | refine fst_stable (by assumption) ?_ | refine third_stable (by assumption) ?_ | split)

theorem goTo_stable {I : State → Prop} (hI : Stable I) {s : State} (h : I s) (e : ℕ) (pc : ℕ) : I (goTo s e pc).1 := by
  dsimp only [goTo]
  with_reducible (repeat' first | assumption | intro _ | apply State.modE_stable hI | split)

theorem pendTo_stable {I : State → Prop} (hI : Stable I) {s : State} (h : I s) (e : ℕ) (pc : ℕ) (g : Pend → Pend) : I (pendTo s e pc g).1 := by
  dsimp only [pendTo]
  with_reducible (repeat' first | assumption | intro _ | apply State.modE_stable hI | split)

theorem pulse_stable {I : State → Prop} (hI : Stable I) {s : State} (h : I s) (e : ℕ) (m : ℕ) (c : ℕ) : I (pulse s e m c) := by
  dsimp only [pulse]
  with_reducible (repeat' first | assumption | intro _ | apply produce_stable hI | apply fireTimed_stable hI | split)

theorem execOp_stable {I : State → Prop} (hI : Stable I) {s : State} (h : I s) (e : ℕ) (pc : ℕ) (op : ProgOp) : I (execOp s e pc op).1 := by
  dsimp only [execOp]
  with_reducible (repeat' first | assumption | intro _ | apply goTo_stable hI | apply pendTo_stable hI | apply haltChain_stable hI | apply pulse_stable hI | apply beforeWrites_stable hI | apply State.modE_stable hI | apply strmOp_stable hI | apply consume_stable hI | apply execName_stable hI | refine snd_stable (by assumption) ?_ | refine fst_stable (by assumption) ?_ | refine third_stable (by assumption) ?_ | split)

theorem execUndef_stable {I : State → Prop} (hI : Stable I) {s : State} (h : I s) (e : ℕ) (pc : ℕ) (cause : ℕ) : I (execUndef s e pc cause).1 := by
  dsimp only [execUndef]
  with_reducible (repeat' first | assumption | intro _ | apply haltChain_stable hI | split)

theorem renameLater_stable {I : State → Prop} (hI : Stable I) {s : State} (h : I s) (e : ℕ) : I (renameLater s e) := by
  dsimp only [renameLater]
  with_reducible (repeat' first | assumption | intro _ | apply State.put_stable hI | apply State.modE_stable hI | apply execName_stable hI | refine snd_stable (by assumption) ?_ | refine fst_stable (by assumption) ?_ | refine third_stable (by assumption) ?_ | split | refine hI.rest _ _ _ _ _ _ _ _ _ _ _ _ _ _ _ _ _ _ _ _ ?_)

theorem overrun_stable {I : State → Prop} (hI : Stable I) {s : State} (h : I s) (e : ℕ) : I (overrun s e) := by
  dsimp only [overrun]
  with_reducible (repeat' first | assumption | intro _ | apply failArm_stable hI | apply chainFault_stable hI | apply faultEngine_stable hI | split)

theorem chainStep_stable {I : State → Prop} (hI : Stable I) {s : State} (h : I s) (e : ℕ) : I (chainStep s e).1 := by
  dsimp only [chainStep]
  with_reducible (repeat' first | assumption | intro _ | apply fetchWord_stable hI | apply State.put_stable hI | apply State.modE_stable hI | apply execUndef_stable hI | apply execOp_stable hI | refine snd_stable (by assumption) ?_ | refine fst_stable (by assumption) ?_ | refine third_stable (by assumption) ?_ | split)

theorem runChain_stable {I : State → Prop} (hI : Stable I) (n : ℕ) {s : State} (h : I s) (e : ℕ) : I (runChain n s e) := by
  induction n generalizing s with
  | zero => exact overrun_stable hI h e
  | succ n ih =>
    simp only [runChain]
    have hc := chainStep_stable hI h e
    split
    · rename_i s1 heq; rw [heq] at hc; exact ih hc
    · rename_i s1 c x heq; rw [heq] at hc; exact hc

theorem startChain_stable {I : State → Prop} (hI : Stable I) {s : State} (h : I s) (e : ℕ) (d : ℕ) : I (startChain s e d) := by
  dsimp only [startChain]
  with_reducible (repeat' first | assumption | intro _ | apply State.modE_stable hI | split)

theorem waitWord_stable {I : State → Prop} (hI : Stable I) {s : State} (h : I s) (e : ℕ) (p : Play) (m : ℕ) : I (waitWord s e p m).1 := by
  dsimp only [waitWord]
  with_reducible (repeat' first | assumption | intro _ | apply beforeWrites_stable hI | apply fetchWord_stable hI | apply State.put_stable hI | apply State.modE_stable hI | apply consume_stable hI | apply execName_stable hI | refine snd_stable (by assumption) ?_ | refine fst_stable (by assumption) ?_ | refine third_stable (by assumption) ?_ | split)

theorem decide__stable {I : State → Prop} (hI : Stable I) {s : State} (h : I s) (e : ℕ) (d : ℕ) : I (decide_ s e d) := by
  dsimp only [decide_]
  with_reducible (repeat' first | assumption | intro _ | apply waitWord_stable hI | apply startChain_stable hI | apply runChain_stable hI | refine snd_stable (by assumption) ?_ | refine fst_stable (by assumption) ?_ | refine third_stable (by assumption) ?_ | split)

theorem flushOpen_stable {I : State → Prop} (hI : Stable I) {s : State} (h : I s) (e : ℕ) : I (flushOpen s e) := by
  dsimp only [flushOpen]
  with_reducible (repeat' first | assumption | intro _ | apply State.modL_stable hI | apply State.put_stable hI | split | refine hI.rest _ _ _ _ _ _ _ _ _ _ _ _ _ _ _ _ _ _ _ _ ?_)

theorem capDrop_stable {I : State → Prop} (hI : Stable I) {s : State} (h : I s) (e : ℕ) (b : ℕ) : I (capDrop s e b) := by
  dsimp only [capDrop]
  with_reducible (repeat' first | assumption | intro _ | apply State.countSat_stable hI | apply State.raise_stable hI | split)

theorem placeRecord_stable {I : State → Prop} (hI : Stable I) {s : State} (h : I s) (e : ℕ) (r : Record) : I (placeRecord s e r) := by
  dsimp only [placeRecord]
  with_reducible (repeat' first | assumption | intro _ | apply capDrop_stable hI | apply State.modL_stable hI | apply State.raise_stable hI | apply State.put_stable hI | refine State.when_stable ?_ _ _ ?_ | apply State.count_stable hI | apply flushOpen_stable hI | split)

theorem drainSome_stable {I : State → Prop} (hI : Stable I) {s : State} (h : I s) (e : ℕ) (n : ℕ) : I (drainSome s e n) := by
  dsimp only [drainSome]
  with_reducible (repeat' first | assumption | intro _ | refine foldl_stable ?_ ?_ | apply placeRecord_stable hI | apply State.modT_stable hI | split)

theorem drainCap_stable {I : State → Prop} (hI : Stable I) {s : State} (h : I s) (e : ℕ) : I (drainCap s e) := by
  dsimp only [drainCap]
  with_reducible (repeat' first | assumption | intro _ | apply drainSome_stable hI | split)

theorem queueRecord_stable {I : State → Prop} (hI : Stable I) {s : State} (h : I s) (e : ℕ) (r : Record) : I (queueRecord s e r) := by
  dsimp only [queueRecord]
  with_reducible (repeat' first | assumption | intro _ | apply capDrop_stable hI | apply State.modL_stable hI | apply State.modT_stable hI | split)

theorem flushBlk_stable {I : State → Prop} (hI : Stable I) {s : State} (h : I s) (e : ℕ) : I (flushBlk s e) := by
  dsimp only [flushBlk]
  with_reducible (repeat' first | assumption | intro _ | apply queueRecord_stable hI | apply State.modL_stable hI | split)

theorem clearCounts_stable {I : State → Prop} (hI : Stable I) {s : State} (h : I s) (e : ℕ) : I (clearCounts s e) := by
  dsimp only [clearCounts]
  with_reducible (repeat' first | assumption | intro _ | apply State.clearCount_stable hI | apply State.putPair_stable hI | split)

theorem clearOnArm_stable {I : State → Prop} (hI : Stable I) {s : State} (h : I s) (e : ℕ) : I (clearOnArm s e) := by
  dsimp only [clearOnArm]
  with_reducible (repeat' first | assumption | intro _ | apply clearCounts_stable hI | refine State.when_stable ?_ _ _ ?_ | split)

theorem armLane_stable {I : State → Prop} (hI : Stable I) {s0 : State} (h : I s0) (e : ℕ) : I (armLane s0 e) := by
  dsimp only [armLane]
  with_reducible (repeat' first | assumption | intro _ | apply State.setReg_stable hI | apply parkLane_stable hI | apply flushBlk_stable hI | apply State.modL_stable hI | apply State.raise_stable hI | apply State.put_stable hI | apply drainCap_stable hI | refine State.when_stable ?_ _ _ ?_ | apply flushOpen_stable hI | split)

theorem readHeader_stable {I : State → Prop} (hI : Stable I) {s : State} (h : I s) (e : ℕ) : I (readHeader s e) := by
  unfold readHeader
  split
  · exact h
  · exact fault_stable hI (hI.imem _ _ _ h) _ _ _ _
  all_goals exact fault_stable hI h _ _ _ _


theorem armMember_stable {I : State → Prop} (hI : Stable I) {s : State} (h : I s) (l : ℕ) (m : ℕ) : I (armMember s l m) := by
  dsimp only [armMember]
  with_reducible (repeat' first | assumption | intro _ | apply armLane_stable hI | apply State.setReg_stable hI | apply State.put_stable hI | apply State.setEngine_stable hI | refine State.when_stable ?_ _ _ ?_ | split)

theorem shutLane_stable {I : State → Prop} (hI : Stable I) {s : State} (h : I s) (f : ℕ) : I (shutLane s f) := by
  dsimp only [shutLane]
  with_reducible (repeat' first | assumption | intro _ | apply State.modL_stable hI | apply State.raise_stable hI | apply State.put_stable hI | split)

theorem retuneQuad_stable {I : State → Prop} (hI : Stable I) {s : State} (h : I s) (e : ℕ) (rate : ℕ) : I (retuneQuad s e rate) := by
  dsimp only [retuneQuad]
  with_reducible (repeat' first | assumption | intro _ | refine foldl_stable ?_ ?_ | apply closeShutter_stable hI | apply shutLane_stable hI | apply State.put_stable hI | apply syncLoss_stable hI | apply State.putPair_stable hI | apply State.count_stable hI | apply State.modPll_stable hI | split)

theorem endLoss_stable {I : State → Prop} (hI : Stable I) {s : State} (h : I s) (e : ℕ) (t : ℕ) : I (endLoss s e t) := by
  dsimp only [endLoss]
  with_reducible (repeat' first | assumption | intro _ | apply State.modL_stable hI | apply fault_stable hI | split)

theorem armPrep_stable {I : State → Prop} (hI : Stable I) {s : State} (h : I s) (e : ℕ) (keep : Bool) : I (armPrep s e keep) := by
  dsimp only [armPrep]
  with_reducible (repeat' first | assumption | intro _ | refine foldl_stable ?_ ?_ | apply State.put_stable hI | apply State.modE_stable hI | apply armWalk_stable hI | apply armMember_stable hI | split)

theorem retuneMember_stable {I : State → Prop} (hI : Stable I) {s : State} (h : I s) (m : ℕ) : I (retuneMember s m) := by
  dsimp only [retuneMember]
  with_reducible (repeat' first | assumption | intro _ | apply State.modE_stable hI | apply dropReqs_stable hI | apply retuneQuad_stable hI | split)

theorem armChain_stable {I : State → Prop} (hI : Stable I) {s : State} (h : I s) (e : ℕ) : I (armChain s e) := by
  dsimp only [armChain]
  with_reducible (repeat' first | assumption | intro _ | refine foldl_stable ?_ ?_ | apply failArm_stable hI | apply retuneMember_stable hI | apply runChain_stable hI | split)

theorem noteWrite_stable {I : State → Prop} (hI : Stable I) {s : State} (h : I s) (port : ℕ) (g : ℕ) : I (noteWrite s port g) := by
  dsimp only [noteWrite]
  with_reducible (repeat' first | assumption | intro _ | split | refine hI.rest _ _ _ _ _ _ _ _ _ _ _ _ _ _ _ _ _ _ _ _ ?_)

theorem writeCheck_stable {I : State → Prop} (hI : Stable I) {s t : State} (h : I s) (port g : ℕ) (e : writeCheck s port g = some t) : I t := by
  unfold writeCheck at e
  split at e
  all_goals
    split at e
    · cases e; exact fault_stable hI h _ _ _ _
    · cases e


theorem undoWrites_stable {I : State → Prop} (hI : StableAll I) {s : State} (h : I s) : I (undoWrites s) := by
  unfold undoWrites
  refine foldl_stable h (fun u w hu => ?_)
  split
  · rename_i t e; exact setErr_stable hI (writeGran_stable hI (writeCheck_stable hI.toStable hu _ _ e) _ _) _ _
  · exact hu


theorem armAccepted_stable {I : State → Prop} (hI : StableAll I) {s0 : State} (h : I s0) (e : ℕ) (start : Bool) : I (armAccepted s0 e start) := by
  dsimp only [armAccepted]
  with_reducible (repeat' first | assumption | intro _ | refine foldl_stable ?_ ?_ | apply armChain_stable hI.toStable | apply clearOnArm_stable hI.toStable | apply readHeader_stable hI.toStable | apply State.raise_stable hI.toStable | apply State.put_stable hI.toStable | refine State.when_stable ?_ _ _ ?_ | apply armPrep_stable hI.toStable | apply undoWrites_stable hI | split)

theorem takeOcc_stable {I : State → Prop} (hI : Stable I) {s : State} (h : I s) (e : ℕ) : I (takeOcc s e) := by
  dsimp only [takeOcc]
  with_reducible (repeat' first | assumption | intro _ | refine foldl_stable ?_ ?_ | apply State.setReg_stable hI | split)

theorem occurrence_stable {I : State → Prop} (hI : Stable I) {s : State} (h : I s) (e : ℕ) (p : Play) (cause : ℕ) (g : ℕ) (t : ℕ) (jm : Bool) (c : FaultClass) : I (occurrence s e p cause g t jm c) := by
  dsimp only [occurrence]
  with_reducible (repeat' first | assumption | intro _ | apply State.setReg_stable hI | apply State.countSat_stable hI | apply fault_stable hI | apply State.raise_stable hI | apply State.put_stable hI | apply State.modE_stable hI | apply State.putPair_stable hI | apply State.noteHw_stable hI | split)

theorem placePlay_stable {I : State → Prop} (hI : Stable I) {s : State} (h : I s) (e : ℕ) (p : Play) (k : ℤ) (t : ℕ) : I (placePlay s e p k t) := by
  dsimp only [placePlay]
  with_reducible (repeat' first | assumption | intro _ | apply parkLane_stable hI | apply occurrence_stable hI | apply topUp_stable hI | apply State.modL_stable hI | apply showSync_stable hI | apply State.put_stable hI | apply State.setEngine_stable hI | refine State.when_stable ?_ _ _ ?_ | split)

theorem promoteReqs_stable {I : State → Prop} (hI : Stable I) {s : State} (h : I s) (e : ℕ) : I (promoteReqs s e) := by
  dsimp only [promoteReqs]
  with_reducible (repeat' first | assumption | intro _ | split | refine hI.rest _ _ _ _ _ _ _ _ _ _ _ _ _ _ _ _ _ _ _ _ ?_)

theorem holdRetune_stable {I : State → Prop} (hI : Stable I) {s : State} (h : I s) (e : ℕ) (p : Play) (rate : ℕ) : I (holdRetune s e p rate) := by
  dsimp only [holdRetune]
  with_reducible (repeat' first | assumption | intro _ | apply dropSync_stable hI | apply State.modL_stable hI | apply State.put_stable hI | apply State.modE_stable hI | apply retuneQuad_stable hI | split)

theorem beginPlay_stable {I : State → Prop} (hI : Stable I) {s0 : State} (h : I s0) (e : ℕ) (p : Play) (ts : ℕ) (k : ℤ) : I (beginPlay s0 e p ts k) := by
  dsimp only [beginPlay]
  with_reducible (repeat' first | assumption | intro _ | apply placePlay_stable hI | apply dropSync_stable hI | apply State.modL_stable hI | apply endLoss_stable hI | apply State.put_stable hI | apply State.setEngine_stable hI | apply holdRetune_stable hI | apply promoteReqs_stable hI | refine State.when_stable ?_ _ _ ?_ | split)

theorem startMember_stable {I : State → Prop} (hI : Stable I) {u : State} (h : I u) (t : ℕ) (m : ℕ) : I (startMember t u m) := by
  dsimp only [startMember]
  with_reducible (repeat' first | assumption | intro _ | apply placePlay_stable hI | apply advanceT_stable hI | apply shutLane_stable hI | apply State.put_stable hI | apply State.setEngine_stable hI | apply holdRetune_stable hI | apply promoteReqs_stable hI | refine State.when_stable ?_ _ _ ?_ | split)

theorem startAt_stable {I : State → Prop} (hI : Stable I) {s : State} (h : I s) (e : ℕ) (t : ℕ) : I (startAt s e t) := by
  dsimp only [startAt]
  with_reducible (repeat' first | assumption | intro _ | refine foldl_stable ?_ ?_ | apply startMember_stable hI | split)

theorem startFrom_stable {I : State → Prop} (hI : Stable I) {s : State} (h : I s) (e : ℕ) (c : ℕ) : I (startFrom s e c) := by
  dsimp only [startFrom]
  with_reducible (repeat' first | assumption | intro _ | apply startAt_stable hI | split)

theorem taskStart_stable {I : State → Prop} (hI : Stable I) {s : State} (h : I s) (e : ℕ) : I (taskStart s e) := by
  dsimp only [taskStart]
  with_reducible (repeat' first | assumption | intro _ | apply startFrom_stable hI | apply clearFlags_stable hI | split)

theorem startCmd_stable {I : State → Prop} (hI : Stable I) {s : State} (h : I s) (e : ℕ) : I (startCmd s e) := by
  dsimp only [startCmd]
  with_reducible (repeat' first | assumption | intro _ | apply startFrom_stable hI | apply State.raise_stable hI | split)

theorem armEngine_stable {I : State → Prop} (hI : StableAll I) {s : State} (h : I s) (e : ℕ) (start : Bool) : I (armEngine s e start) := by
  dsimp only [armEngine]
  with_reducible (repeat' first | assumption | intro _ | apply armAccepted_stable hI | apply State.raise_stable hI.toStable | apply startCmd_stable hI.toStable | refine State.when_stable ?_ _ _ ?_ | split)

theorem primeDone_stable {I : State → Prop} (hI : Stable I) {s : State} (h : I s) (e : ℕ) : I (primeDone s e) := by
  dsimp only [primeDone]
  with_reducible (repeat' first | assumption | intro _ | refine foldl_stable ?_ ?_ | apply startFrom_stable hI | apply State.put_stable hI | apply State.modE_stable hI | apply taskStart_stable hI | split)

theorem markCore_stable {I : State → Prop} (hI : Stable I) {s : State} (h : I s) : I (markCore s) := hI.clk _ _ (Nat.le_refl _) h

theorem residency_stable {I : State → Prop} (hI : Stable I) {s : State} (h : I s) (st : ℕ) : I (residency s st) := by
  dsimp only [residency]
  with_reducible (repeat' first | assumption | intro _ | apply State.countSat_stable hI | split)

theorem powerPll_stable {I : State → Prop} (hI : Stable I) {s : State} (h : I s) (id : ℕ) (off : Bool) : I (powerPll s id off) := by
  dsimp only [powerPll]
  with_reducible (repeat' first | assumption | intro _ | apply closeShutter_stable hI | apply State.put_stable hI | split)

theorem enterPower_stable {I : State → Prop} (hI : Stable I) {s0 : State} (h : I s0) (st : ℕ) : I (enterPower s0 st) := by
  dsimp only [enterPower]
  with_reducible (repeat' first | assumption | intro _ | refine foldl_stable ?_ ?_ | apply powerPll_stable hI | apply parkLane_stable hI | apply stackOff_stable hI | apply residency_stable hI | apply stopWalk_stable hI | apply markCore_stable hI | apply State.put_stable hI | refine State.when_stable ?_ _ _ ?_ | split | refine hI.rest _ _ _ _ _ _ _ _ _ _ _ _ _ _ _ _ _ _ _ _ ?_)

theorem wake_stable {I : State → Prop} (hI : Stable I) {s : State} (h : I s) (src : ℕ) : I (wake s src) := by
  dsimp only [wake]
  with_reducible (repeat' first | assumption | intro _ | refine foldl_stable ?_ ?_ | apply powerPll_stable hI | apply stackOn_stable hI | apply residency_stable hI | apply markCore_stable hI | apply State.put_stable hI | apply advanceNow_stable hI | refine State.when_stable ?_ _ _ ?_ | apply State.count_stable hI | split | refine hI.rest _ _ _ _ _ _ _ _ _ _ _ _ _ _ _ _ _ _ _ _ ?_)

theorem endIdle_stable {I : State → Prop} (hI : Stable I) {s : State} (h : I s)  : I (endIdle s) := by
  dsimp only [endIdle]
  with_reducible (repeat' first | assumption | intro _ | apply State.draw_stable hI | apply wake_stable hI | refine snd_stable (by assumption) ?_ | refine fst_stable (by assumption) ?_ | refine third_stable (by assumption) ?_ | split)

theorem coreCmd_stable {I : State → Prop} (hI : Stable I) {s : State} (h : I s) (g : State → State) (hg : ∀ u, I u → I (g u)) : I (coreCmd s g) := by
  dsimp only [coreCmd]
  with_reducible (repeat' first | assumption | intro _ | apply State.raise_stable hI | apply wake_stable hI | apply hg | split)

theorem cfgCmd_stable {I : State → Prop} (hI : Stable I) {s : State} (h : I s) (g : State → State) (hg : ∀ u, I u → I (g u)) : I (cfgCmd s g) := by
  dsimp only [cfgCmd]
  with_reducible (repeat' first | assumption | intro _ | apply wake_stable hI | apply hg | split)

theorem infraCmd_stable {I : State → Prop} (hI : Stable I) {s : State} (h : I s) (g : State → State) (hg : ∀ u, I u → I (g u)) : I (infraCmd s g) := by
  dsimp only [infraCmd]
  with_reducible (repeat' first | assumption | intro _ | apply endIdle_stable hI | apply hg | split)

theorem pantryRead_stable {I : State → Prop} (hI : Stable I) {s : State} (h : I s) (t : ℕ) (id : ℕ) (o : ℕ) : I (pantryRead s t id o) := by
  dsimp only [pantryRead]
  with_reducible (repeat' first | assumption | intro _ | apply State.modT_stable hI | apply fault_stable hI | split)

theorem noteFill_stable {I : State → Prop} (hI : Stable I) {s : State} (h : I s) (e : ℕ) (k : ℤ) (g : Option (Granule × Bool)) (before : ℕ) (drv0 : ℕ) (from0 : ℕ) : I (noteFill s e k g before drv0 from0) := by
  dsimp only [noteFill]
  with_reducible (repeat' first | assumption | intro _ | apply State.modE_stable hI | split)

theorem fillGranule_stable {I : State → Prop} (hI : Stable I) {s0 : State} (h : I s0) (e : ℕ) : I (fillGranule s0 e) := by
  dsimp only [fillGranule]
  with_reducible (repeat' first | assumption | intro _ | apply State.countSat_stable hI | apply pantryRead_stable hI | apply State.modL_stable hI | apply fault_stable hI | apply State.modE_stable hI | split)

theorem pushPast_stable {I : State → Prop} (hI : Stable I) {s : State} (h : I s) (e : ℕ) : I (pushPast s e) := by
  dsimp only [pushPast]
  with_reducible (repeat' first | assumption | intro _ | apply State.modE_stable hI | split)

theorem parkEngine_stable {I : State → Prop} (hI : Stable I) {s : State} (h : I s) (e : ℕ) : I (parkEngine s e) := by
  dsimp only [parkEngine]
  with_reducible (repeat' first | assumption | intro _ | apply pushPast_stable hI | apply parkLane_stable hI | apply bakePlay_stable hI | apply dropHeldAll_stable hI | apply flushBlk_stable hI | apply endLoss_stable hI | apply State.modE_stable hI | apply dropReqs_stable hI | apply notePlayed_stable hI | split)

theorem undoChain_stable {I : State → Prop} (hI : Stable I) {s : State} (h : I s) (e : ℕ) (a : ℕ) : I (undoChain s e a) := by
  dsimp only [undoChain]
  with_reducible (repeat' first | assumption | intro _ | refine foldl_stable ?_ ?_ | apply State.modH_stable hI | apply State.put_stable hI | apply State.modE_stable hI | refine State.when_stable ?_ _ _ ?_ | split | refine hI.rest _ _ _ _ _ _ _ _ _ _ _ _ _ _ _ _ _ _ _ _ ?_)

theorem armWrite_stable {I : State → Prop} (hI : StableAll I) {s : State} (h : I s) (e : ℕ) (start : Bool) : I (armWrite s e start) := by
  dsimp only [armWrite]
  with_reducible (repeat' first | assumption | intro _ | apply armEngine_stable hI | apply State.raise_stable hI.toStable | apply coreCmd_stable hI.toStable | split)

theorem execArm_stable {I : State → Prop} (hI : StableAll I) {s s' : State} (h : I s) (e : Eng) (start : Bool) (ht : execArm e start s = .next s') : I s' := by
  cases ht
  with_reducible (repeat' first | assumption | intro _ | apply armWrite_stable hI | split)

theorem execPrimeComplete_stable {I : State → Prop} (hI : Stable I) {s s' : State} (h : I s) (e : Eng) (ht : execPrimeComplete e s = .next s') : I s' := by
  cases ht
  with_reducible (repeat' first | assumption | intro _ | apply primeDone_stable hI | split)

theorem startWrite_stable {I : State → Prop} (hI : Stable I) {s : State} (h : I s) (e : ℕ) : I (startWrite s e) := by
  dsimp only [startWrite]
  with_reducible (repeat' first | assumption | intro _ | apply State.raise_stable hI | apply coreCmd_stable hI | apply startCmd_stable hI | split)

theorem execStart_stable {I : State → Prop} (hI : Stable I) {s s' : State} (h : I s) (e : Eng) (ht : execStart e s = .next s') : I s' := by
  cases ht
  with_reducible (repeat' first | assumption | intro _ | apply startWrite_stable hI | split)

theorem timeStart_stable {I : State → Prop} (hI : Stable I) {s : State} (h : I s) (e : ℕ) : I (timeStart s e) := by
  dsimp only [timeStart]
  with_reducible (repeat' first | assumption | intro _ | apply startFrom_stable hI | apply advanceT_stable hI | apply State.raise_stable hI | apply startAt_stable hI | split)

theorem execTimeStart_stable {I : State → Prop} (hI : Stable I) {s s' : State} (h : I s) (e : Eng) (ht : execTimeStart e s = .next s') : I s' := by
  cases ht
  with_reducible (repeat' first | assumption | intro _ | apply timeStart_stable hI | split)

theorem haltMembers_stable {I : State → Prop} (hI : Stable I) {s : State} (h : I s) (l : ℕ) (res : ℕ) : I (haltMembers s l res) := by
  dsimp only [haltMembers]
  with_reducible (repeat' first | assumption | intro _ | refine foldl_stable ?_ ?_ | apply enterState_stable hI | apply State.put_stable hI | refine State.when_stable ?_ _ _ ?_ | apply parkEngine_stable hI | split)

theorem abortCmd_stable {I : State → Prop} (hI : Stable I) {s0 : State} (h : I s0) (l : ℕ) : I (abortCmd s0 l) := by
  dsimp only [abortCmd]
  with_reducible (repeat' first | assumption | intro _ | refine foldl_stable ?_ ?_ | apply haltMembers_stable hI | apply undoChain_stable hI | apply enterState_stable hI | apply State.put_stable hI | apply State.modE_stable hI | apply parkEngine_stable hI | split)

theorem execAbort_stable {I : State → Prop} (hI : Stable I) {s s' : State} (h : I s) (e : Eng) (ht : execAbort e s = .next s') : I s' := by
  cases ht
  with_reducible (repeat' first | assumption | intro _ | apply coreCmd_stable hI | apply abortCmd_stable hI | split)

theorem abortActs_stable {I : State → Prop} (hI : Stable I) {s : State} (h : I s) (e : ℕ) : I (abortActs s e) := by
  dsimp only [abortActs]
  with_reducible (repeat' first | assumption | intro _ | refine foldl_stable ?_ ?_ | apply dropSync_stable hI | apply advanceT_stable hI | apply beginFillRun_stable hI | apply State.modE_stable hI | split)

theorem execAbortActs_stable {I : State → Prop} (hI : Stable I) {s s' : State} (h : I s) (e : Eng) (ht : execAbortActs e s = .next s') : I s' := by
  cases ht
  with_reducible (repeat' first | assumption | intro _ | apply abortActs_stable hI | split)

theorem runGranule_stable {I : State → Prop} (hI : Stable I) {s : State} (h : I s) (e : ℕ) (t : ℕ) (stop : Bool) : I (runGranule s e t stop) := by
  dsimp only [runGranule]
  with_reducible (repeat' first | assumption | intro _ | apply State.countSat_stable hI | apply advanceT_stable hI | refine State.when_stable ?_ _ _ ?_ | apply fillGranule_stable hI | split)

theorem playRun_stable {I : State → Prop} (hI : Stable I) {s0 : State} (h : I s0) (e : ℕ) (t : ℕ) : I (playRun s0 e t) := by
  dsimp only [playRun]
  with_reducible (repeat' first | assumption | intro _ | apply dropSync_stable hI | apply runGranule_stable hI | apply advanceT_stable hI | apply foldDrive_stable hI | split)

theorem fillerEndPark_stable {I : State → Prop} (hI : Stable I) {s : State} (h : I s) (e : ℕ) : I (fillerEndPark s e) := by
  dsimp only [fillerEndPark]
  with_reducible (repeat' first | assumption | intro _ | apply enterState_stable hI | apply State.put_stable hI | apply playRun_stable hI | refine State.when_stable ?_ _ _ ?_ | apply parkEngine_stable hI | split)

theorem execFillerEndPark_stable {I : State → Prop} (hI : Stable I) {s s' : State} (h : I s) (e : Eng) (ht : execFillerEndPark e s = .next s') : I s' := by
  cases ht
  with_reducible (repeat' first | assumption | intro _ | apply fillerEndPark_stable hI | split)

theorem idleEngine_stable {I : State → Prop} (hI : Stable I) {s : State} (h : I s) (m : ℕ) : I (idleEngine s m) := by
  dsimp only [idleEngine]
  with_reducible (repeat' first | assumption | intro _ | apply State.put_stable hI | apply parkEngine_stable hI | split)

theorem resetCmd_stable {I : State → Prop} (hI : Stable I) {s : State} (h : I s) (e : ℕ) : I (resetCmd s e) := by
  dsimp only [resetCmd]
  with_reducible (repeat' first | assumption | intro _ | refine foldl_stable ?_ ?_ | apply State.raise_stable hI | apply idleEngine_stable hI | split)

theorem execEngineReset_stable {I : State → Prop} (hI : Stable I) {s s' : State} (h : I s) (e : Eng) (ht : execEngineReset e s = .next s') : I s' := by
  cases ht
  with_reducible (repeat' first | assumption | intro _ | apply resetCmd_stable hI | apply coreCmd_stable hI | split)

theorem imemDrop_stable {I : State → Prop} (hI : Stable I) {s : State} (h : I s) (e : ℕ) (i : ℕ) : I (imemDrop s e i) := by
  dsimp only [imemDrop]
  with_reducible (repeat' first | assumption | intro _ | apply fault_stable hI | apply State.raise_stable hI | split)

theorem imemStage_stable {I : State → Prop} (hI : Stable I) {s : State} (h : I s) (e : ℕ) (i : ℕ) (w : Word) : I (imemStage s e i w) := by
  dsimp only [imemStage]
  with_reducible (repeat' first | assumption | intro _ | apply imemDrop_stable hI | split | refine hI.rest _ _ _ _ _ _ _ _ _ _ _ _ _ _ _ _ _ _ _ _ ?_)

theorem execImemStage_stable {I : State → Prop} (hI : Stable I) {s s' : State} (h : I s) (e : Eng) (idx : BitVec 12) (low : Word) (ht : execImemStage e idx low s = .next s') : I s' := by
  cases ht
  with_reducible (repeat' first | assumption | intro _ | apply imemStage_stable hI | apply cfgCmd_stable hI | split)

theorem imemCommit_stable {I : State → Prop} (hI : Stable I) {s : State} (h : I s) (e i : ℕ) (w : Word) : I (imemCommit s e i w) := by
  have key : ∀ (u : State) l k, I u → I { u with imemStage := l, imemErr := tset (fun _ => 0) u.imemErr k 0 } := fun u l k hu =>
    hI.rest { u with imemErr := tset (fun _ => 0) u.imemErr k 0 } u.hall u.epoch u.epochWas u.fltF u.fltH l u.pairStage u.ctl u.porch u.fab
      u.parts u.stalled u.phaseAct u.crc u.cal u.train u.boot u.msi u.hw (hI.imem u k 0 hu)
  unfold imemCommit
  split
  · exact key _ _ _ (hI.reg _ _ _ (hI.reg _ _ _ h))
  · exact imemDrop_stable hI h _ _

theorem execImemCommit_stable {I : State → Prop} (hI : Stable I) {s s' : State} (h : I s) (e : Eng) (idx : BitVec 12) (high : Word) (ht : execImemCommit e idx high s = .next s') : I s' := by
  cases ht
  with_reducible (repeat' first | assumption | intro _ | apply imemCommit_stable hI | apply cfgCmd_stable hI | split)

theorem modPlay_stable {I : State → Prop} (hI : Stable I) {s : State} (h : I s) (e : ℕ) (g : Play → Play) : I (modPlay s e g) := by
  dsimp only [modPlay]
  with_reducible (repeat' first | assumption | intro _ | apply State.modE_stable hI | split)

theorem takeSample_stable {I : State → Prop} (hI : Stable I) {s : State} (h : I s) (e : ℕ) (endAt : ℕ) : I (takeSample s e endAt) := by
  dsimp only [takeSample]
  with_reducible (repeat' first | assumption | intro _ | refine foldl_stable ?_ ?_ | apply State.modE_stable hI | apply modPlay_stable hI | split | refine hI.rest _ _ _ _ _ _ _ _ _ _ _ _ _ _ _ _ _ _ _ _ ?_)

theorem openChain_stable {I : State → Prop} (hI : Stable I) {s0 : State} (h : I s0) (e : ℕ) (p : Play) : I (openChain s0 e p) := by
  dsimp only [openChain]
  with_reducible (repeat' first | assumption | intro _ | apply takeSample_stable hI | apply advanceT_stable hI | apply waitWord_stable hI | apply startChain_stable hI | refine snd_stable (by assumption) ?_ | refine fst_stable (by assumption) ?_ | refine third_stable (by assumption) ?_ | split)

theorem chainWord_stable {I : State → Prop} (hI : Stable I) {s : State} (h : I s) (e : ℕ) (g : State → ℕ → State) (hg : ∀ u n, I u → I (g u n)) : I (chainWord s e g) := by
  dsimp only [chainWord]
  with_reducible (repeat' first | assumption | intro _ | apply overrun_stable hI | apply advanceCycle_stable hI | apply State.put_stable hI | apply State.modE_stable hI | apply hg | split)

theorem wordStep_stable {I : State → Prop} (hI : Stable I) {s : State} (h : I s) (e : ℕ) (g : State → ℕ → State) (hg : ∀ u n, I u → I (g u n)) : I (wordStep s e g) := by
  dsimp only [wordStep]
  with_reducible (repeat' first | assumption | intro _ | apply chainWord_stable hI | apply openChain_stable hI | apply hg | split)

theorem withFetch_stable {I : State → Prop} (hI : Stable I) {s : State} (h : I s) (e : ℕ) (pc : ℕ) (g : State → State) (hg : ∀ u, I u → I (g u)) : I (withFetch s e pc g) := by
  dsimp only [withFetch]
  with_reducible (repeat' first | assumption | intro _ | apply fetchWord_stable hI | refine snd_stable (by assumption) ?_ | refine fst_stable (by assumption) ?_ | refine third_stable (by assumption) ?_ | apply hg | split)

theorem runWord_stable {I : State → Prop} (hI : Stable I) {s : State} (h : I s) (e : ℕ) (op : ProgOp) : I (runWord s e op) := by
  dsimp only [runWord]
  with_reducible (repeat' first | assumption | intro _ | apply execUndef_stable hI | apply withFetch_stable hI | apply wordStep_stable hI | apply execOp_stable hI | refine snd_stable (by assumption) ?_ | refine fst_stable (by assumption) ?_ | refine third_stable (by assumption) ?_ | split)

theorem execNop_stable {I : State → Prop} (hI : Stable I) {s s' : State} (h : I s) (e : Eng) (ht : execNop e s = .next s') : I s' := by
  cases ht
  with_reducible (repeat' first | assumption | intro _ | apply runWord_stable hI | split)

theorem execHalt_stable {I : State → Prop} (hI : Stable I) {s s' : State} (h : I s) (e : Eng) (ht : execHalt e s = .next s') : I s' := by
  cases ht
  with_reducible (repeat' first | assumption | intro _ | apply runWord_stable hI | split)

theorem execJmp_stable {I : State → Prop} (hI : Stable I) {s s' : State} (h : I s) (e : Eng) (addr : BitVec 12) (ht : execJmp e addr s = .next s') : I s' := by
  cases ht
  with_reducible (repeat' first | assumption | intro _ | apply runWord_stable hI | split)

theorem execCall_stable {I : State → Prop} (hI : Stable I) {s s' : State} (h : I s) (e : Eng) (addr : BitVec 12) (ht : execCall e addr s = .next s') : I s' := by
  cases ht
  with_reducible (repeat' first | assumption | intro _ | apply runWord_stable hI | split)

theorem execRet_stable {I : State → Prop} (hI : Stable I) {s s' : State} (h : I s) (e : Eng) (ht : execRet e s = .next s') : I s' := by
  cases ht
  with_reducible (repeat' first | assumption | intro _ | apply runWord_stable hI | split)

theorem execBr_stable {I : State → Prop} (hI : Stable I) {s s' : State} (h : I s) (e : Eng) (mask : BitVec 8) (addr : BitVec 12) (ht : execBr e mask addr s = .next s') : I s' := by
  cases ht
  with_reducible (repeat' first | assumption | intro _ | apply runWord_stable hI | split)

theorem execDjnz_stable {I : State → Prop} (hI : Stable I) {s s' : State} (h : I s) (e : Eng) (x : Fin 8) (addr : BitVec 12) (ht : execDjnz e x addr s = .next s') : I s' := by
  cases ht
  with_reducible (repeat' first | assumption | intro _ | apply runWord_stable hI | split)

theorem execPlay_stable {I : State → Prop} (hI : Stable I) {s s' : State} (h : I s) (e : Eng) (seg : BitVec 14) (n : BitVec 16) (ht : execPlay e seg n s = .next s') : I s' := by
  cases ht
  with_reducible (repeat' first | assumption | intro _ | apply runWord_stable hI | split)

theorem execPlayc_stable {I : State → Prop} (hI : Stable I) {s s' : State} (h : I s) (e : Eng) (seg : BitVec 14) (x : Fin 8) (ht : execPlayc e seg x s = .next s') : I s' := by
  cases ht
  with_reducible (repeat' first | assumption | intro _ | apply runWord_stable hI | split)

theorem execWait_stable {I : State → Prop} (hI : Stable I) {s s' : State} (h : I s) (e : Eng) (mask : BitVec 8) (seg : BitVec 14) (ht : execWait e mask seg s = .next s') : I s' := by
  cases ht
  with_reducible (repeat' first | assumption | intro _ | apply runWord_stable hI | split)

theorem execStrm_stable {I : State → Prop} (hI : Stable I) {s s' : State} (h : I s) (e : Eng) (ring : Fin 256) (g : StrmCount) (ht : execStrm e ring g s = .next s') : I s' := by
  cases ht
  with_reducible (repeat' first | assumption | intro _ | apply runWord_stable hI | split)

theorem execSynct_stable {I : State → Prop} (hI : Stable I) {s s' : State} (h : I s) (e : Eng) (ht : execSynct e s = .next s') : I s' := by
  cases ht
  with_reducible (repeat' first | assumption | intro _ | apply runWord_stable hI | split)

theorem execLdt_stable {I : State → Prop} (hI : Stable I) {s s' : State} (h : I s) (e : Eng) (hi : Bool) (imm : Word) (ht : execLdt e hi imm s = .next s') : I s' := by
  cases ht
  with_reducible (repeat' first | assumption | intro _ | apply runWord_stable hI | split)

theorem execLdtStart_stable {I : State → Prop} (hI : Stable I) {s s' : State} (h : I s) (e : Eng) (ht : execLdtStart e s = .next s') : I s' := by
  cases ht
  with_reducible (repeat' first | assumption | intro _ | apply runWord_stable hI | split)

theorem execAddt_stable {I : State → Prop} (hI : Stable I) {s s' : State} (h : I s) (e : Eng) (imm : BitVec 48) (ht : execAddt e imm s = .next s') : I s' := by
  cases ht
  with_reducible (repeat' first | assumption | intro _ | apply runWord_stable hI | split)

theorem execLdc_stable {I : State → Prop} (hI : Stable I) {s s' : State} (h : I s) (e : Eng) (x : Fin 8) (imm : Word) (ht : execLdc e x imm s = .next s') : I s' := by
  cases ht
  with_reducible (repeat' first | assumption | intro _ | apply runWord_stable hI | split)

theorem execAddc_stable {I : State → Prop} (hI : Stable I) {s s' : State} (h : I s) (e : Eng) (x : Fin 8) (imm : Word) (ht : execAddc e x imm s = .next s') : I s' := by
  cases ht
  with_reducible (repeat' first | assumption | intro _ | apply runWord_stable hI | split)

theorem execMark_stable {I : State → Prop} (hI : Stable I) {s s' : State} (h : I s) (e : Eng) (m : Fin 8) (offset : BitVec 40) (ht : execMark e m offset s = .next s') : I s' := by
  cases ht
  with_reducible (repeat' first | assumption | intro _ | apply runWord_stable hI | split)

theorem execSig_stable {I : State → Prop} (hI : Stable I) {s s' : State} (h : I s) (e : Eng) (m : Fin 8) (ht : execSig e m s = .next s') : I s' := by
  cases ht
  with_reducible (repeat' first | assumption | intro _ | apply runWord_stable hI | split)

theorem execSetf_stable {I : State → Prop} (hI : Stable I) {s s' : State} (h : I s) (e : Eng) (idx : Fin 16) (cont : Bool) (ht : execSetf e idx cont s = .next s') : I s' := by
  cases ht
  with_reducible (repeat' first | assumption | intro _ | apply runWord_stable hI | split)

theorem execLdf_stable {I : State → Prop} (hI : Stable I) {s s' : State} (h : I s) (e : Eng) (idx : Fin 16) (value : BitVec 48) (ht : execLdf e idx value s = .next s') : I s' := by
  cases ht
  with_reducible (repeat' first | assumption | intro _ | apply runWord_stable hI | split)

theorem execSetp_stable {I : State → Prop} (hI : Stable I) {s s' : State} (h : I s) (e : Eng) (rel : Bool) (phase : BitVec 48) (ht : execSetp e rel phase s = .next s') : I s' := by
  cases ht
  with_reducible (repeat' first | assumption | intro _ | apply runWord_stable hI | split)

theorem execTset_stable {I : State → Prop} (hI : Stable I) {s s' : State} (h : I s) (e : Eng) (a : Fin 16) (b : Fin 16) (ht : execTset e a b s = .next s') : I s' := by
  cases ht
  with_reducible (repeat' first | assumption | intro _ | apply runWord_stable hI | split)

theorem execLvl_stable {I : State → Prop} (hI : Stable I) {s s' : State} (h : I s) (e : Eng) (n : Fin 8) (ht : execLvl e n s = .next s') : I s' := by
  cases ht
  with_reducible (repeat' first | assumption | intro _ | apply runWord_stable hI | split)

theorem execCmpm_stable {I : State → Prop} (hI : Stable I) {s s' : State} (h : I s) (e : Eng) (mode : BitVec 4) (ht : execCmpm e mode s = .next s') : I s' := by
  cases ht
  with_reducible (repeat' first | assumption | intro _ | apply runWord_stable hI | split)

theorem execUndefinedWord_stable {I : State → Prop} (hI : Stable I) {s s' : State} (h : I s) (e : Eng) (cause : OpCause) (ht : execUndefinedWord e cause s = .next s') : I s' := by
  cases ht
  with_reducible (repeat' first | assumption | intro _ | apply execUndef_stable hI | apply wordStep_stable hI | refine snd_stable (by assumption) ?_ | refine fst_stable (by assumption) ?_ | refine third_stable (by assumption) ?_ | split)

theorem execChainOverrun_stable {I : State → Prop} (hI : Stable I) {s s' : State} (h : I s) (e : Eng) (ht : execChainOverrun e s = .next s') : I s' := by
  cases ht
  with_reducible (repeat' first | assumption | intro _ | apply overrun_stable hI | split)

theorem decideNow_stable {I : State → Prop} (hI : Stable I) {s : State} (h : I s) (e : ℕ) (endAt : ℕ) : I (decideNow s e endAt) := by
  dsimp only [decideNow]
  with_reducible (repeat' first | assumption | intro _ | apply decide__stable hI | apply takeSample_stable hI | split)

theorem decisionPoint_stable {I : State → Prop} (hI : Stable I) {s : State} (h : I s) (e : ℕ) : I (decisionPoint s e) := by
  dsimp only [decisionPoint]
  with_reducible (repeat' first | assumption | intro _ | apply advanceT_stable hI | apply decideNow_stable hI | split)

theorem execDecisionPoint_stable {I : State → Prop} (hI : Stable I) {s s' : State} (h : I s) (e : Eng) (ht : execDecisionPoint e s = .next s') : I s' := by
  cases ht
  with_reducible (repeat' first | assumption | intro _ | apply decisionPoint_stable hI | split)

theorem granuleSample_stable {I : State → Prop} (hI : Stable I) {s : State} (h : I s) (e : ℕ) : I (granuleSample s e) := by
  dsimp only [granuleSample]
  with_reducible (repeat' first | assumption | intro _ | apply advanceT_stable hI | apply decideNow_stable hI | apply State.modE_stable hI | split)

theorem execGranuleSample_stable {I : State → Prop} (hI : Stable I) {s s' : State} (h : I s) (e : Eng) (ht : execGranuleSample e s = .next s') : I s' := by
  cases ht
  with_reducible (repeat' first | assumption | intro _ | apply granuleSample_stable hI | split)

theorem syncRptr_stable {I : State → Prop} (hI : Stable I) {s : State} (h : I s) (l : ℕ) (r : ℕ) : I (syncRptr s l r) := by
  dsimp only [syncRptr]
  with_reducible (repeat' first | assumption | intro _ | refine foldl_stable ?_ ?_ | apply State.put_stable hI | split | refine hI.rest _ _ _ _ _ _ _ _ _ _ _ _ _ _ _ _ _ _ _ _ ?_)

theorem closeStream_stable {I : State → Prop} (hI : Stable I) {s : State} (h : I s) (e : ℕ) (p : Play) : I (closeStream s e p) := by
  dsimp only [closeStream]
  with_reducible (repeat' first | assumption | intro _ | apply modPlay_stable hI | apply syncRptr_stable hI | split)

theorem turnPlay_stable {I : State → Prop} (hI : Stable I) {s0 : State} (h : I s0) (m : ℕ) : I (turnPlay s0 m) := by
  dsimp only [turnPlay]
  with_reducible (repeat' first | assumption | intro _ | apply pushPast_stable hI | apply bakePlay_stable hI | apply beginPlay_stable hI | apply advanceT_stable hI | apply State.modL_stable hI | apply State.modE_stable hI | apply notePlayed_stable hI | apply closeStream_stable hI | split)

theorem playEnd_stable {I : State → Prop} (hI : Stable I) {s : State} (h : I s) (e : ℕ) : I (playEnd s e) := by
  dsimp only [playEnd]
  with_reducible (repeat' first | assumption | intro _ | refine foldl_stable ?_ ?_ | apply dropHeldAll_stable hI | apply turnPlay_stable hI | split)

theorem execPlayEnd_stable {I : State → Prop} (hI : Stable I) {s s' : State} (h : I s) (e : Eng) (ht : execPlayEnd e s = .next s') : I s' := by
  cases ht
  with_reducible (repeat' first | assumption | intro _ | apply playEnd_stable hI | split)

theorem haltComplete_stable {I : State → Prop} (hI : Stable I) {s : State} (h : I s) (e : ℕ) : I (haltComplete s e) := by
  dsimp only [haltComplete]
  with_reducible (repeat' first | assumption | intro _ | refine foldl_stable ?_ ?_ | apply haltMembers_stable hI | apply advanceT_stable hI | apply closeStream_stable hI | split)

theorem execHaltComplete_stable {I : State → Prop} (hI : Stable I) {s s' : State} (h : I s) (e : Eng) (ht : execHaltComplete e s = .next s') : I s' := by
  cases ht
  with_reducible (repeat' first | assumption | intro _ | apply haltComplete_stable hI | split)

theorem markFire_stable {I : State → Prop} (hI : Stable I) {s : State} (h : I s) (e : ℕ) (m : ℕ) : I (markFire s e m) := by
  dsimp only [markFire]
  with_reducible (repeat' first | assumption | intro _ | apply produce_stable hI | apply advanceT_stable hI | apply fireTimed_stable hI | apply modPlay_stable hI | split)

theorem execMarkFire_stable {I : State → Prop} (hI : Stable I) {s s' : State} (h : I s) (e : Eng) (m : Fin 8) (ht : execMarkFire e m s = .next s') : I s' := by
  cases ht
  with_reducible (repeat' first | assumption | intro _ | apply markFire_stable hI | split)

theorem fillFor_stable {I : State → Prop} (hI : Stable I) {s : State} (h : I s) (e : ℕ) (p : Play) (g : ℕ) : I (fillFor s e p g) := by
  dsimp only [fillFor]
  with_reducible (repeat' first | assumption | intro _ | apply enterFiller_stable hI | apply noteFill_stable hI | apply State.modL_stable hI | apply State.modE_stable hI | apply fillGranule_stable hI | split)

theorem waitFiller_stable {I : State → Prop} (hI : Stable I) {s0 : State} (h : I s0) (e : ℕ) : I (waitFiller s0 e) := by
  dsimp only [waitFiller]
  with_reducible (repeat' first | assumption | intro _ | apply State.countSat_stable hI | apply noteFill_stable hI | apply State.modE_stable hI | apply fillGranule_stable hI | split)

theorem skipGran_stable {I : State → Prop} (hI : Stable I) {s : State} (h : I s) (e : ℕ) (p : Play) (g : ℕ) : I (skipGran s e p g) := by
  dsimp only [skipGran]
  with_reducible (repeat' first | assumption | intro _ | apply modPlay_stable hI | apply syncRptr_stable hI | split | refine hI.rest _ _ _ _ _ _ _ _ _ _ _ _ _ _ _ _ _ _ _ _ ?_)

theorem maskGran_stable {I : State → Prop} (hI : Stable I) {s0 : State} (h : I s0) (e : ℕ) (p : Play) (g : ℕ) : I (maskGran s0 e p g) := by
  dsimp only [maskGran]
  with_reducible (repeat' first | assumption | intro _ | apply occurrence_stable hI | apply advanceT_stable hI | apply State.modE_stable hI | apply modPlay_stable hI | split)

theorem holdGran_stable {I : State → Prop} (hI : Stable I) {s : State} (h : I s) (e : ℕ) (p : Play) (g : ℕ) (from_ : ℕ) : I (holdGran s e p g from_) := by
  dsimp only [holdGran]
  with_reducible (repeat' first | assumption | intro _ | apply noteFill_stable hI | apply foldDrive_stable hI | split)

theorem granuleMissing_stable {I : State → Prop} (hI : Stable I) {s0 : State} (h : I s0) (e : ℕ) : I (granuleMissing s0 e) := by
  unfold granuleMissing
  split
  · dsimp only
    with_reducible repeat' first
      | assumption | refine ite_stable ?_ ?_ | apply skipGran_stable hI | apply enterFiller_stable hI | apply dropSync_stable hI
      | apply State.countSat_stable hI | apply waitFiller_stable hI | apply fillFor_stable hI | apply occurrence_stable hI
      | apply beginFillRun_stable hI | apply State.modE_stable hI | apply foldDrive_stable hI | apply modPlay_stable hI
      | apply maskGran_stable hI | apply advanceT_stable hI | apply holdGran_stable hI
  · exact h


theorem execGranuleMissing_stable {I : State → Prop} (hI : Stable I) {s s' : State} (h : I s) (e : Eng) (ht : execGranuleMissing e s = .next s') : I s' := by
  cases ht
  with_reducible (repeat' first | assumption | intro _ | apply granuleMissing_stable hI | split)

theorem waitFillers_stable {I : State → Prop} (hI : Stable I) {s : State} (h : I s) (e : ℕ) (k : ℤ) (n m : ℕ) :
    I (waitFillers s e k n m) := by
  induction n generalizing s m with
  | zero => exact h
  | succ n ih => exact ih (waitFiller_stable hI (advanceT_stable hI h _) _) _

theorem slipResume_stable {I : State → Prop} (hI : Stable I) {s : State} (h : I s) (e : ℕ) : I (slipResume s e) := by
  dsimp only [slipResume]
  with_reducible (repeat' first | assumption | intro _ | apply waitFillers_stable hI | apply advanceT_stable hI | apply State.modE_stable hI | split)

theorem execSlipResume_stable {I : State → Prop} (hI : Stable I) {s s' : State} (h : I s) (e : Eng) (ht : execSlipResume e s = .next s') : I s' := by
  cases ht
  with_reducible (repeat' first | assumption | intro _ | apply slipResume_stable hI | split)

theorem queueRead_stable {I : State → Prop} (hI : Stable I) {s : State} (h : I s) (e : ℕ) (cmp : Bool) (g : ℕ) : I (queueRead s e cmp g) := by
  dsimp only [queueRead]
  with_reducible (repeat' first | assumption | intro _ | apply fault_stable hI | apply State.modE_stable hI | split)

theorem pantryDue_stable {I : State → Prop} (hI : Stable I) {s : State} (h : I s) (e : ℕ) (p : Play) (g : ℕ) : I (pantryDue s e p g) := by
  dsimp only [pantryDue]
  with_reducible (repeat' first | assumption | intro _ | refine foldl_stable ?_ ?_ | apply pantryRead_stable hI | apply queueRead_stable hI | split)

theorem poisonPlay_stable {I : State → Prop} (hI : Stable I) {s0 : State} (h : I s0) (e : ℕ) : I (poisonPlay s0 e) := by
  dsimp only [poisonPlay]
  with_reducible (repeat' first | assumption | intro _ | apply State.countSat_stable hI | apply pantryDue_stable hI | apply fillFor_stable hI | apply advanceT_stable hI | apply fault_stable hI | apply modPlay_stable hI | split)

theorem execPoisonPlay_stable {I : State → Prop} (hI : Stable I) {s s' : State} (h : I s) (e : Eng) (ht : execPoisonPlay e s = .next s') : I s' := by
  cases ht
  with_reducible (repeat' first | assumption | intro _ | apply poisonPlay_stable hI | split)

theorem execTaskset_stable {I : State → Prop} (hI : Stable I) {s s' : State} (h : I s) (e : Eng) (flags : BitVec 8) (ht : execTaskset e flags s = .next s') : I s' := by
  cases ht
  with_reducible (repeat' first | assumption | intro _ | apply taskArrivals_stable hI | apply coreCmd_stable hI | apply taskStart_stable hI | split)

theorem taskClear_stable {I : State → Prop} (hI : Stable I) {s : State} (h : I s) (e : ℕ) (v : ℕ) : I (taskClear s e v) := by
  dsimp only [taskClear]
  with_reducible (repeat' first | assumption | intro _ | apply State.put_stable hI | apply clearFlags_stable hI | split)

theorem execTaskClear_stable {I : State → Prop} (hI : Stable I) {s s' : State} (h : I s) (e : Eng) (val : Word) (ht : execTaskClear e val s = .next s') : I s' := by
  cases ht
  with_reducible (repeat' first | assumption | intro _ | apply taskClear_stable hI | apply coreCmd_stable hI | split)

theorem giveNaming_stable {I : State → Prop} (hI : Stable I) {s : State} (h : I s) (m : ℕ) (q : Play) (cond : Bool) : I (giveNaming s m q cond) := by
  dsimp only [giveNaming]
  with_reducible (repeat' first | assumption | intro _ | apply topUp_stable hI | apply beforeWrites_stable hI | apply State.setEngine_stable hI | apply State.modE_stable hI | split)

theorem suiteDecision_stable {I : State → Prop} (hI : Stable I) {s0 : State} (h : I s0) (l : ℕ) : I (suiteDecision s0 l) := by
  dsimp only [suiteDecision]
  with_reducible (repeat' first | assumption | intro _ | refine foldl_stable ?_ ?_ | apply advanceCycle_stable hI | apply giveNaming_stable hI | apply showPair_stable hI | apply beforeWrites_stable hI | apply State.modE_stable hI | split)

theorem execSuiteDecision_stable {I : State → Prop} (hI : Stable I) {s s' : State} (h : I s) (e : Eng) (ht : execSuiteDecision e s = .next s') : I s' := by
  cases ht
  with_reducible (repeat' first | assumption | intro _ | apply suiteDecision_stable hI | split)

theorem suiteDisagree_stable {I : State → Prop} (hI : Stable I) {s0 : State} (h : I s0) (l : ℕ) : I (suiteDisagree s0 l) := by
  dsimp only [suiteDisagree]
  with_reducible (repeat' first | assumption | intro _ | refine foldl_stable ?_ ?_ | apply failArm_stable hI | apply advanceCycle_stable hI | apply fault_stable hI | apply State.modE_stable hI | apply faultEngine_stable hI | split)

theorem execSuiteDisagree_stable {I : State → Prop} (hI : Stable I) {s s' : State} (h : I s) (e : Eng) (ht : execSuiteDisagree e s = .next s') : I s' := by
  cases ht
  with_reducible (repeat' first | assumption | intro _ | apply suiteDisagree_stable hI | split)

theorem suiteMemberFail_stable {I : State → Prop} (hI : Stable I) {s : State} (h : I s) (e : ℕ) : I (suiteMemberFail s e) := by
  dsimp only [suiteMemberFail]
  with_reducible (repeat' first | assumption | intro _ | refine foldl_stable ?_ ?_ | apply failArm_stable hI | apply enterState_stable hI | apply beginFillRun_stable hI | apply State.modE_stable hI | apply parkEngine_stable hI | split)

theorem execSuiteMemberFail_stable {I : State → Prop} (hI : Stable I) {s s' : State} (h : I s) (e : Eng) (ht : execSuiteMemberFail e s = .next s') : I s' := by
  cases ht
  with_reducible (repeat' first | assumption | intro _ | apply suiteMemberFail_stable hI | split)

theorem lstepOff_stable {I : State → Prop} (hI : Stable I) {s : State} (h : I s) (t : ℕ) : I (lstepOff s t) := by
  dsimp only [lstepOff]
  with_reducible (repeat' first | assumption | intro _ | apply State.modT_stable hI | apply State.put_stable hI | split)

theorem lockstepVisit_stable {I : State → Prop} (hI : Stable I) {s0 : State} (h : I s0) (t : ℕ) (pass : Bool) : I (lockstepVisit s0 t pass) := by
  dsimp only [lockstepVisit]
  with_reducible (repeat' first | assumption | intro _ | apply lstepOff_stable hI | apply State.modT_stable hI | apply fault_stable hI | apply State.put_stable hI | apply advanceNow_stable hI | split)

theorem execLockstepVisit_stable {I : State → Prop} (hI : Stable I) {s s' : State} (h : I s) (t : TableId) (bistPass : Bool) (ht : execLockstepVisit t bistPass s = .next s') : I s' := by
  cases ht
  with_reducible (repeat' first | assumption | intro _ | apply lockstepVisit_stable hI | split)

theorem lockstepMismatch_stable {I : State → Prop} (hI : Stable I) {s : State} (h : I s) (t : ℕ) (diff : Word) (pass : Bool) : I (lockstepMismatch s t diff pass) := by
  dsimp only [lockstepMismatch]
  with_reducible (repeat' first | assumption | intro _ | apply State.countSat_stable hI | apply lstepOff_stable hI | apply State.modT_stable hI | apply fault_stable hI | apply State.put_stable hI | apply faultEngine_stable hI | split)

theorem execLockstepMismatch_stable {I : State → Prop} (hI : Stable I) {s s' : State} (h : I s) (t : TableId) (diff : Word) (slotBistPass : Bool) (ht : execLockstepMismatch t diff slotBistPass s = .next s') : I s' := by
  cases ht
  with_reducible (repeat' first | assumption | intro _ | apply lockstepMismatch_stable hI | split)

end Sys2Proof.Machine
end

