-- ==== Sys2Proof/Laws/Keep3.lean ====
section
/-! SUPPORT. Stable properties of states (Laws/Stable.lean) are kept by every operation of descriptors, clocks, lanes, rings, counters, the hallway and epochs. -/

namespace Sys2Proof.Machine

theorem activate_stable {I : State → Prop} (hI : Stable I) {s : State} (h : I s) (b : ℕ) (r : ℕ) : I (activate s b r) := by
  dsimp only [activate]
  with_reducible (repeat' first | assumption | intro _ | split | refine hI.rest _ _ _ _ _ _ _ _ _ _ _ _ _ _ _ _ _ _ _ _ ?_)

theorem closeRow_stable {I : State → Prop} (hI : Stable I) {s : State} (h : I s) (b : ℕ) : I (closeRow s b) := by
  dsimp only [closeRow]
  with_reducible (repeat' first | assumption | intro _ | split | refine hI.rest _ _ _ _ _ _ _ _ _ _ _ _ _ _ _ _ _ _ _ _ ?_)

theorem touchRow_stable {I : State → Prop} (hI : Stable I) {s : State} (h : I s) (q : Req) (rest : List Req) : I (touchRow s q rest) := by
  dsimp only [touchRow]
  with_reducible (repeat' first | assumption | intro _ | apply activate_stable hI | split | refine hI.rest _ _ _ _ _ _ _ _ _ _ _ _ _ _ _ _ _ _ _ _ ?_)

theorem portServe_stable {I : State → Prop} (hI : Stable I) {s : State} (h : I s) (port : ℕ) (g : ℕ) (first : Bool) : I (portServe s port g first) := by
  dsimp only [portServe]
  with_reducible (repeat' first | assumption | intro _ | apply touchRow_stable hI | split)

theorem descStage_stable {I : State → Prop} (hI : Stable I) {s : State} (h : I s) (t : ℕ) (i : ℕ) (n : ℕ) (v : Word) : I (descStage s t i n v) := by
  dsimp only [descStage]
  with_reducible (repeat' first | assumption | intro _ | apply State.modT_stable hI | split)

theorem execDescStage_stable {I : State → Prop} (hI : Stable I) {s s' : State} (h : I s) (t : TableId) (i : BitVec 14) (word : Fin 4) (val : Word) (ht : execDescStage t i word val s = .next s') : I s' := by
  cases ht
  with_reducible (repeat' first | assumption | intro _ | apply descStage_stable hI | apply cfgCmd_stable hI | split)

theorem putDesc_stable {I : State → Prop} (hI : Stable I) {s : State} (h : I s) (t : ℕ) (i : ℕ) (v : Word) : I (putDesc s t i v) := by
  dsimp only [putDesc]
  with_reducible (repeat' first | assumption | intro _ | apply State.setReg_stable hI | split)

theorem noteDesc_stable {I : State → Prop} (hI : Stable I) {s : State} (h : I s) (t : ℕ) (i : ℕ) : I (noteDesc s t i) := by
  dsimp only [noteDesc]
  with_reducible (repeat' first | assumption | intro _ | apply noteOld_stable hI | split)

theorem renameAll_stable {I : State → Prop} (hI : Stable I) {s : State} (h : I s) (t : ℕ) (i : ℕ) : I (renameAll s t i) := by
  dsimp only [renameAll]
  with_reducible (repeat' first | assumption | intro _ | refine foldl_stable ?_ ?_ | apply renameLater_stable hI | split)

theorem clearStage_stable {I : State → Prop} (hI : Stable I) {s : State} (h : I s) (t : ℕ) : I (clearStage s t) := by
  dsimp only [clearStage]
  with_reducible (repeat' first | assumption | intro _ | apply State.modT_stable hI | split)

theorem descCommit_stable {I : State → Prop} (hI : Stable I) {s0 : State} (h : I s0) (t : ℕ) (i : ℕ) (v : Word) : I (descCommit s0 t i v) := by
  dsimp only [descCommit]
  with_reducible (repeat' first | assumption | intro _ | apply putDesc_stable hI | apply renameAll_stable hI | apply pinSeg_stable hI | apply releaseSeg_stable hI | apply clearStage_stable hI | apply fault_stable hI | apply State.raise_stable hI | apply State.put_stable hI | apply noteDesc_stable hI | refine State.when_stable ?_ _ _ ?_ | split)

theorem execDescCommit_stable {I : State → Prop} (hI : Stable I) {s s' : State} (h : I s) (t : TableId) (i : BitVec 14) (val : Word) (ht : execDescCommit t i val s = .next s') : I s' := by
  cases ht
  with_reducible (repeat' first | assumption | intro _ | apply descCommit_stable hI | apply cfgCmd_stable hI | split)

theorem descReload_stable {I : State → Prop} (hI : Stable I) {s : State} (h : I s) (t : ℕ) (i : ℕ) : I (descReload s t i) := by
  dsimp only [descReload]
  with_reducible (repeat' first | assumption | intro _ | apply renameAll_stable hI | apply dropHeld_stable hI | apply State.modT_stable hI | apply releaseSeg_stable hI | apply State.raise_stable hI | apply State.put_stable hI | apply pinFail_stable hI | apply panShow_stable hI | apply startLoad_stable hI | split)

theorem execDescReload_stable {I : State → Prop} (hI : Stable I) {s s' : State} (h : I s) (t : TableId) (i : BitVec 14) (ht : execDescReload t i s = .next s') : I s' := by
  cases ht
  with_reducible (repeat' first | assumption | intro _ | apply descReload_stable hI | apply coreCmd_stable hI | split)

theorem setCopy_stable {I : State → Prop} (hI : Stable I) {s : State} (h : I s) (t : ℕ) (c : PanCopy) : I (setCopy s t c) := by
  dsimp only [setCopy]
  with_reducible (repeat' first | assumption | intro _ | apply State.modT_stable hI | split)

theorem finishLoad_stable {I : State → Prop} (hI : Stable I) {s : State} (h : I s) (t : ℕ) (c : PanCopy) : I (finishLoad s t c) := by
  dsimp only [finishLoad]
  with_reducible (repeat' first | assumption | intro _ | apply setCopy_stable hI | apply renameAll_stable hI | apply State.put_stable hI | apply panShow_stable hI | split)

theorem loadGran_stable {I : State → Prop} (hI : Stable I) {s : State} (h : I s) (t : ℕ) (id : ℕ) (d : Granule) (bad : Bool) : I (loadGran s t id d bad) := by
  dsimp only [loadGran]
  with_reducible (repeat' first | assumption | intro _ | apply setCopy_stable hI | apply finishLoad_stable hI | apply State.raise_stable hI | apply askLoad_stable hI | refine State.when_stable ?_ _ _ ?_ | split)

theorem loadRest_stable {I : State → Prop} (hI : StableAll I) {s : State} (h : I s) (t n : ℕ) (c : PanCopy) : I (loadRest t n c s).2 := by
  induction n generalizing s c with
  | zero => exact h
  | succ n ih =>
    exact ih (monEvent_stable hI.toStable (State.when_stable (readGran_stable hI (portServe_stable hI.toStable h _ _ _) _) _ _
      fun u hu => State.raise_stable hI.toStable hu _) _ _) _

theorem pinLoadComplete_stable {I : State → Prop} (hI : StableAll I) {s : State} (h : I s) (t : ℕ) (i : ℕ) : I (pinLoadComplete s t i) := by
  dsimp only [pinLoadComplete]
  with_reducible (repeat' first | assumption | intro _ | apply loadRest_stable hI | apply finishLoad_stable hI.toStable | refine snd_stable (by assumption) ?_ | refine fst_stable (by assumption) ?_ | refine third_stable (by assumption) ?_ | split | refine (hI.toStable).rest _ _ _ _ _ _ _ _ _ _ _ _ _ _ _ _ _ _ _ _ ?_)

theorem execPinLoadComplete_stable {I : State → Prop} (hI : StableAll I) {s s' : State} (h : I s) (t : TableId) (i : BitVec 14) (ht : execPinLoadComplete t i s = .next s') : I s' := by
  cases ht
  with_reducible (repeat' first | assumption | intro _ | apply pinLoadComplete_stable hI | split)

theorem execHeldCopyRelease_stable {I : State → Prop} (hI : Stable I) {s s' : State} (h : I s) (t : TableId) (i : BitVec 14) (ht : execHeldCopyRelease t i s = .next s') : I s' := by
  cases ht
  with_reducible (repeat' first | assumption | intro _ | apply dropHeld_stable hI | split)

theorem startSearch_stable {I : State → Prop} (hI : Stable I) {s : State} (h : I s) (id : ℕ) : I (startSearch s id) := by
  dsimp only [startSearch]
  with_reducible (repeat' first | assumption | intro _ | apply State.put_stable hI | apply State.modPll_stable hI | split)

theorem markOpen_stable {I : State → Prop} (hI : Stable I) {s : State} (h : I s) (id : ℕ) : I (markOpen s id) := by
  dsimp only [markOpen]
  with_reducible (repeat' first | assumption | intro _ | apply State.countSat_stable hI | apply State.put_stable hI | refine State.when_stable ?_ _ _ ?_ | apply State.modPll_stable hI | split)

theorem startHouse_stable {I : State → Prop} (hI : Stable I) {s : State} (h : I s) : I (startHouse s) := by
  unfold startHouse
  refine foldl_stable ?_ fun u i hu => State.when_stable hu _ _ fun v hv => startSearch_stable hI hv _
  refine State.when_stable (State.put_stable hI ?_ _ _) _ _ fun u hu => State.put_stable hI hu _ _
  have hw : I (s.when (s.f F.id_bootStat_err == 2) (·.put F.id_bootStat_err 0)) :=
    State.when_stable h _ _ fun u hu => State.put_stable hI hu _ _
  refine hI.clk _ _ ?_ hw
  unfold State.when; split <;> exact Nat.le_refl _

theorem startRetuned_stable {I : State → Prop} (hI : Stable I) {s : State} (h : I s) (f : ℕ) : I (startRetuned s f) := by
  dsimp only [startRetuned]
  with_reducible (repeat' first | assumption | intro _ | apply placePlay_stable hI | apply State.modL_stable hI | apply shutLane_stable hI | apply State.put_stable hI | apply State.modE_stable hI | split)

theorem abortRetuned_stable {I : State → Prop} (hI : Stable I) {s : State} (h : I s) (f : ℕ) : I (abortRetuned s f) := by
  dsimp only [abortRetuned]
  with_reducible (repeat' first | assumption | intro _ | apply enterState_stable hI | apply State.put_stable hI | apply parkEngine_stable hI | split)

theorem abortSuite_stable {I : State → Prop} (hI : Stable I) {s : State} (h : I s) (f : ℕ) : I (abortSuite s f) := by
  dsimp only [abortSuite]
  with_reducible (repeat' first | assumption | intro _ | refine foldl_stable ?_ ?_ | apply abortRetuned_stable hI | split)

theorem reopenRetuned_stable {I : State → Prop} (hI : Stable I) {s : State} (h : I s) (f : ℕ) : I (reopenRetuned s f) := by
  dsimp only [reopenRetuned]
  with_reducible (repeat' first | assumption | intro _ | refine foldl_stable ?_ ?_ | apply startRetuned_stable hI | apply topUp_stable hI | apply State.modL_stable hI | apply endLoss_stable hI | apply State.put_stable hI | apply State.modE_stable hI | apply abortSuite_stable hI | split)

theorem quadReopen_stable {I : State → Prop} (hI : Stable I) {s0 : State} (h : I s0) (q : ℕ) : I (quadReopen s0 q) := by
  dsimp only [quadReopen]
  with_reducible (repeat' first | assumption | intro _ | refine foldl_stable ?_ ?_ | apply reopenRetuned_stable hI | apply State.put_stable hI | apply advanceNow_stable hI | apply reopenLane_stable hI | apply markOpen_stable hI | split)

theorem execQuadReopen_stable {I : State → Prop} (hI : Stable I) {s s' : State} (h : I s) (q : Quad) (ht : execQuadReopen q s = .next s') : I s' := by
  cases ht
  with_reducible (repeat' first | assumption | intro _ | apply quadReopen_stable hI | split)

theorem shutterOpen_stable {I : State → Prop} (hI : Stable I) {s0 : State} (h : I s0) (id : ℕ) : I (shutterOpen s0 id) := by
  dsimp only [shutterOpen]
  with_reducible (repeat' first | assumption | intro _ | refine foldl_stable ?_ ?_ | apply quadReopen_stable hI | apply startHouse_stable hI | apply advanceNow_stable hI | apply reopenLane_stable hI | apply markOpen_stable hI | split)

theorem markLost_stable {I : State → Prop} (hI : Stable I) {s : State} (h : I s) (id : ℕ) (cause : ℕ) : I (markLost s id cause) := by
  dsimp only [markLost]
  with_reducible (repeat' first | assumption | intro _ | apply State.countSat_stable hI | apply closeShutter_stable hI | apply startSearch_stable hI | apply State.raise_stable hI | apply State.put_stable hI | refine State.when_stable ?_ _ _ ?_ | apply State.modPll_stable hI | split)

theorem stackLost_stable {I : State → Prop} (hI : Stable I) {s : State} (h : I s) (st : ℕ) : I (stackLost s st) := by
  dsimp only [stackLost]
  with_reducible (repeat' first | assumption | intro _ | apply stackOff_stable hI | apply State.put_stable hI | split | refine hI.rest _ _ _ _ _ _ _ _ _ _ _ _ _ _ _ _ _ _ _ _ ?_)

theorem cascade_stable {I : State → Prop} (hI : Stable I) {s : State} (h : I s) (id : ℕ) : I (cascade s id) := by
  dsimp only [cascade]
  with_reducible (repeat' first | assumption | intro _ | apply State.put_stable hI | apply markLost_stable hI | apply State.modPll_stable hI | split)

theorem portPll_stable {I : State → Prop} (hI : Stable I) {s : State} (h : I s) (p : ℕ) : I (portPll s p) := by
  dsimp only [portPll]
  with_reducible (repeat' first | assumption | intro _ | apply portAnnounceDown_stable hI | apply fault_stable hI | split)

theorem lossEffects_stable {I : State → Prop} (hI : Stable I) {s : State} (h : I s) (id : ℕ) : I (lossEffects s id) := by
  dsimp only [lossEffects]
  with_reducible (repeat' first | assumption | intro _ | refine foldl_stable ?_ ?_ | apply walkLost_stable hI | apply stackLost_stable hI | apply phaseRecovery_stable hI | apply portPll_stable hI | apply stopHouse_stable hI | apply loseClock_stable hI | apply cascade_stable hI | split)

theorem losePll_stable {I : State → Prop} (hI : Stable I) {s : State} (h : I s) (id : ℕ) (cause : ℕ) : I (losePll s id cause) := by
  dsimp only [losePll]
  with_reducible (repeat' first | assumption | intro _ | apply lossEffects_stable hI | apply fault_stable hI | apply markLost_stable hI | split)

theorem qualTimeout_stable {I : State → Prop} (hI : Stable I) {s0 : State} (h : I s0) (id : ℕ) : I (qualTimeout s0 id) := by
  dsimp only [qualTimeout]
  with_reducible (repeat' first | assumption | intro _ | apply losePll_stable hI | apply advanceNow_stable hI | split)

theorem execQualTimeout_stable {I : State → Prop} (hI : Stable I) {s s' : State} (h : I s) (id : PllId) (ht : execQualTimeout id s = .next s') : I s' := by
  cases ht
  with_reducible (repeat' first | assumption | intro _ | apply qualTimeout_stable hI | split)

theorem lowerCause_stable {I : State → Prop} (hI : Stable I) {s : State} (h : I s) (id : ℕ) (cause : ℕ) : I (lowerCause s id cause) := by
  dsimp only [lowerCause]
  with_reducible (repeat' first | assumption | intro _ | apply State.put_stable hI | split)

theorem refGone_stable {I : State → Prop} (hI : Stable I) {s : State} (h : I s) (id : ℕ) : I (refGone s id) := by
  dsimp only [refGone]
  with_reducible (repeat' first | assumption | intro _ | apply State.draw_stable hI | apply State.put_stable hI | apply State.modPll_stable hI | refine snd_stable (by assumption) ?_ | refine fst_stable (by assumption) ?_ | refine third_stable (by assumption) ?_ | split)

theorem pllLoss_stable {I : State → Prop} (hI : Stable I) {s : State} (h : I s) (id : ℕ) (c : LossCause) : I (pllLoss s id c) := by
  dsimp only [pllLoss]
  with_reducible (repeat' first | assumption | intro _ | apply lowerCause_stable hI | apply losePll_stable hI | apply refGone_stable hI | refine State.when_stable ?_ _ _ ?_ | split)

theorem pllLock_stable {I : State → Prop} (hI : Stable I) {s : State} (h : I s) (id : ℕ) (band : ℕ) (dev : ℤ) : I (pllLock s id band dev) := by
  dsimp only [pllLock]
  with_reducible (repeat' first | assumption | intro _ | apply fault_stable hI | apply State.raise_stable hI | apply State.put_stable hI | apply State.modPll_stable hI | split)

theorem execPllLock_stable {I : State → Prop} (hI : Stable I) {s s' : State} (h : I s) (id : PllId) (band : BitVec 6) (dev : ℤ) (ht : execPllLock id band dev s = .next s') : I s' := by
  cases ht
  with_reducible (repeat' first | assumption | intro _ | apply pllLock_stable hI | split)

theorem referencePresent_stable {I : State → Prop} (hI : Stable I) {s : State} (h : I s) (id : ℕ) : I (referencePresent s id) := by
  dsimp only [referencePresent]
  with_reducible (repeat' first | assumption | intro _ | apply State.setReg_stable hI | apply State.draw_stable hI | apply startSearch_stable hI | apply State.put_stable hI | refine snd_stable (by assumption) ?_ | refine fst_stable (by assumption) ?_ | refine third_stable (by assumption) ?_ | split)

theorem execReferencePresent_stable {I : State → Prop} (hI : Stable I) {s s' : State} (h : I s) (id : PllId) (ht : execReferencePresent id s = .next s') : I s' := by
  cases ht
  with_reducible (repeat' first | assumption | intro _ | apply referencePresent_stable hI | split)

theorem overfreqClosed_stable {I : State → Prop} (hI : Stable I) {s : State} (h : I s) (id : ℕ) : I (overfreqClosed s id) := by
  dsimp only [overfreqClosed]
  with_reducible (repeat' first | assumption | intro _ | apply State.modPll_stable hI | split)

theorem execOverfreqWhileClosed_stable {I : State → Prop} (hI : Stable I) {s s' : State} (h : I s) (id : PllId) (ht : execOverfreqWhileClosed id s = .next s') : I s' := by
  cases ht
  with_reducible (repeat' first | assumption | intro _ | apply overfreqClosed_stable hI | split)

theorem planClose_stable {I : State → Prop} (hI : Stable I) {s : State} (h : I s) (id : ℕ) : I (planClose s id) := by
  dsimp only [planClose]
  with_reducible (repeat' first | assumption | intro _ | apply closeShutter_stable hI | apply startSearch_stable hI | apply State.put_stable hI | split)

theorem planHouse_stable {I : State → Prop} (hI : Stable I) {s : State} (h : I s)  : I (planHouse s) := by
  dsimp only [planHouse]
  with_reducible (repeat' first | assumption | intro _ | refine foldl_stable ?_ ?_ | apply stackOff_stable hI | apply planClose_stable hI | apply stopWalk_stable hI | apply portPll_stable hI | apply stopHouse_stable hI | split)

theorem refApply_stable {I : State → Prop} (hI : Stable I) {s : State} (h : I s) : I (refApply s) := by
  unfold refApply
  extract_lets busy m d bad
  refine ite_stable h (ite_stable ?_ (planHouse_stable hI (hI.clk _ _ (Nat.le_refl _) h)))
  exact State.when_stable (State.when_stable h _ _ fun u hu => State.raise_stable hI hu _) _ _ fun u hu => State.raise_stable hI hu _


theorem execRefApply_stable {I : State → Prop} (hI : Stable I) {s s' : State} (h : I s)  (ht : execRefApply s = .next s') : I s' := by
  cases ht
  with_reducible (repeat' first | assumption | intro _ | apply refApply_stable hI | apply infraCmd_stable hI | split)

theorem selfRefresh_stable {I : State → Prop} (hI : Stable I) {s : State} (h : I s) (st : ℕ) : I (selfRefresh s st) := by
  dsimp only [selfRefresh]
  with_reducible (repeat' first | assumption | intro _ | split | refine hI.rest _ _ _ _ _ _ _ _ _ _ _ _ _ _ _ _ _ _ _ _ ?_)

theorem execStackSelfRefresh_stable {I : State → Prop} (hI : Stable I) {s s' : State} (h : I s) (st : Stack) (ht : execStackSelfRefresh st s = .next s') : I s' := by
  cases ht
  with_reducible (repeat' first | assumption | intro _ | apply selfRefresh_stable hI | split)

theorem clearOwed_stable {I : State → Prop} (hI : Stable I) {s : State} (h : I s) (st : ℕ) : I (clearOwed s st) := by
  dsimp only [clearOwed]
  with_reducible (repeat' first | assumption | intro _ | split | refine hI.rest _ _ _ _ _ _ _ _ _ _ _ _ _ _ _ _ _ _ _ _ ?_)

theorem gatherCentre_stable {I : State → Prop} (hI : Stable I) {s : State} (h : I s) (x : ℕ) (c : DelayCentre) : I (gatherCentre s x c) := by
  dsimp only [gatherCentre]
  with_reducible (repeat' first | assumption | intro _ | apply fault_stable hI | apply State.raise_stable hI | apply State.put_stable hI | split)

theorem recoveryGather_stable {I : State → Prop} (hI : Stable I) {s : State} (h : I s) (st : ℕ) (cs : List DelayCentre) : I (recoveryGather s st cs) := by
  dsimp only [recoveryGather]
  with_reducible (repeat' first | assumption | intro _ | refine foldl_stable ?_ ?_ | apply gatherCentre_stable hI | apply clearOwed_stable hI | apply stackOn_stable hI | split | refine hI.rest _ _ _ _ _ _ _ _ _ _ _ _ _ _ _ _ _ _ _ _ ?_)

theorem execStoreRecoveryGather_stable {I : State → Prop} (hI : Stable I) {s s' : State} (h : I s) (g : Gathering) (ht : execStoreRecoveryGather g s = .next s') : I s' := by
  cases ht
  with_reducible (repeat' first | assumption | intro _ | apply recoveryGather_stable hI | split)

theorem oscFail_stable {I : State → Prop} (hI : Stable I) {s0 : State} (h : I s0) (sd : Side) (dev : ℤ) : I (oscFail s0 sd dev) := by
  dsimp only [oscFail]
  with_reducible (repeat' first | assumption | intro _ | apply State.put_stable hI | apply State.modF_stable hI | apply recordRaw_stable hI | refine State.when_stable ?_ _ _ ?_ | split)

theorem execOscFail_stable {I : State → Prop} (hI : Stable I) {s s' : State} (h : I s) (sd : Side) (dev : ℤ) (ht : execOscFail sd dev s = .next s') : I s' := by
  cases ht
  with_reducible (repeat' first | assumption | intro _ | apply oscFail_stable hI | split)

theorem stagedLo_stable {I : State → Prop} (hI : Stable I) {s : State} (h : I s) (p : PairRef) (v : Word) : I (stagedLo s p v) := by
  dsimp only [stagedLo]
  with_reducible (repeat' first | assumption | intro _ | split | refine hI.rest _ _ _ _ _ _ _ _ _ _ _ _ _ _ _ _ _ _ _ _ ?_)

theorem execStagedLoWrite_stable {I : State → Prop} (hI : Stable I) {s s' : State} (h : I s) (p : PairRef) (val : Word) (ht : execStagedLoWrite p val s = .next s') : I s' := by
  cases ht
  with_reducible (repeat' first | assumption | intro _ | apply stagedLo_stable hI | apply cfgCmd_stable hI | split)

theorem tmrReset_stable {I : State → Prop} (hI : Stable I) {s : State} (h : I s) (i : ℕ) : I (tmrReset s i) := by
  dsimp only [tmrReset]
  with_reducible (repeat' first | assumption | intro _ | apply State.setReg_stable hI | apply State.modH_stable hI | split)

theorem stagedHi_stable {I : State → Prop} (hI : Stable I) {s : State} (h : I s) (p : PairRef) (v : Word) : I (stagedHi s p v) := by
  dsimp only [stagedHi]
  with_reducible (repeat' first | assumption | intro _ | apply State.setReg_stable hI | apply State.raise_stable hI | apply tmrReset_stable hI | split | refine hI.rest _ _ _ _ _ _ _ _ _ _ _ _ _ _ _ _ _ _ _ _ ?_)

theorem execStagedHiCommit_stable {I : State → Prop} (hI : Stable I) {s s' : State} (h : I s) (p : PairRef) (val : Word) (ht : execStagedHiCommit p val s = .next s') : I s' := by
  cases ht
  with_reducible (repeat' first | assumption | intro _ | apply stagedHi_stable hI | apply cfgCmd_stable hI | split)

theorem putSetWord_stable {I : State → Prop} (hI : Stable I) {s : State} (h : I s) (l : ℕ) (a : ℕ) (v : Word) : I (putSetWord s l a v) := by
  dsimp only [putSetWord]
  with_reducible (repeat' first | assumption | intro _ | apply State.setReg_stable hI | apply noteOld_stable hI | apply renameLater_stable hI | split)

theorem timingSet_stable {I : State → Prop} (hI : Stable I) {s : State} (h : I s) (l : ℕ) (i : ℕ) (n : ℕ) (v : Word) : I (timingSet s l i n v) := by
  dsimp only [timingSet]
  with_reducible (repeat' first | assumption | intro _ | apply putSetWord_stable hI | apply fault_stable hI | apply State.raise_stable hI | split)

theorem execTimingSetWrite_stable {I : State → Prop} (hI : Stable I) {s s' : State} (h : I s) (l : PinLane) (set : Fin 16) (word : Fin 5) (val : Word) (ht : execTimingSetWrite l set word val s = .next s') : I s' := by
  cases ht
  with_reducible (repeat' first | assumption | intro _ | apply timingSet_stable hI | apply cfgCmd_stable hI | split)

theorem levelSet_stable {I : State → Prop} (hI : Stable I) {s : State} (h : I s) (l : ℕ) (i : ℕ) (thr : Bool) (v : Word) : I (levelSet s l i thr v) := by
  dsimp only [levelSet]
  with_reducible (repeat' first | assumption | intro _ | apply putSetWord_stable hI | apply fault_stable hI | apply State.raise_stable hI | split)

theorem execLevelSetWrite_stable {I : State → Prop} (hI : Stable I) {s s' : State} (h : I s) (l : PinLane) (set : Fin 8) (thr : Bool) (val : Word) (ht : execLevelSetWrite l set thr val s = .next s') : I s' := by
  cases ht
  with_reducible (repeat' first | assumption | intro _ | apply levelSet_stable hI | apply cfgCmd_stable hI | split)

theorem setLoss_stable {I : State → Prop} (hI : Stable I) {s : State} (h : I s) (l : ℕ) (v : ℕ) : I (setLoss s l v) := by
  dsimp only [setLoss]
  with_reducible (repeat' first | assumption | intro _ | apply State.modL_stable hI | split)

theorem laneCfg_stable {I : State → Prop} (hI : Stable I) {s : State} (h : I s) (l : ℕ) (v : Word) : I (laneCfg s l v) := by
  dsimp only [laneCfg]
  with_reducible (repeat' first | assumption | intro _ | apply State.setReg_stable hI | apply setLoss_stable hI | apply restLane_stable hI | apply State.modL_stable hI | apply State.raise_stable hI | split)

theorem execLaneCfgWrite_stable {I : State → Prop} (hI : Stable I) {s s' : State} (h : I s) (l : PinLane) (val : Word) (ht : execLaneCfgWrite l val s = .next s') : I s' := by
  cases ht
  with_reducible (repeat' first | assumption | intro _ | apply laneCfg_stable hI | apply cfgCmd_stable hI | split)

theorem laneCmd_stable {I : State → Prop} (hI : Stable I) {s : State} (h : I s) (e : ℕ) (g : State → State) (hg : ∀ u, I u → I (g u)) : I (laneCmd s e g) := by
  dsimp only [laneCmd]
  with_reducible (repeat' first | assumption | intro _ | apply State.raise_stable hI | apply wake_stable hI | apply hg | split)

theorem execCounterClear_stable {I : State → Prop} (hI : Stable I) {s s' : State} (h : I s) (e : Eng) (ht : execCounterClear e s = .next s') : I s' := by
  cases ht
  with_reducible (repeat' first | assumption | intro _ | apply clearCounts_stable hI | apply laneCmd_stable hI | split)

theorem captureWrite_stable {I : State → Prop} (hI : Stable I) {s0 : State} (h : I s0) (e : ℕ) : I (captureWrite s0 e) := by
  dsimp only [captureWrite]
  with_reducible (repeat' first | assumption | intro _ | apply advanceCycle_stable hI | apply drainSome_stable hI | apply flushBlk_stable hI | refine State.when_stable ?_ _ _ ?_ | apply flushOpen_stable hI | split)

theorem execCaptureGranuleWrite_stable {I : State → Prop} (hI : Stable I) {s s' : State} (h : I s) (e : Eng) (ht : execCaptureGranuleWrite e s = .next s') : I s' := by
  cases ht
  with_reducible (repeat' first | assumption | intro _ | apply captureWrite_stable hI | split)

theorem monGo_stable {I : State → Prop} (hI : Stable I) {s : State} (h : I s) (n : ℕ) (v : Word) : I (monGo s n v) := by
  dsimp only [monGo]
  with_reducible (repeat' first | assumption | intro _ | apply State.setReg_stable hI | apply State.raise_stable hI | apply State.put_stable hI | split)

theorem execMonGo_stable {I : State → Prop} (hI : Stable I) {s s' : State} (h : I s) (n : Room) (val : Word) (ht : execMonGo n val s = .next s') : I s' := by
  cases ht
  with_reducible (repeat' first | assumption | intro _ | apply monGo_stable hI | apply coreCmd_stable hI | split)

theorem txeq_stable {I : State → Prop} (hI : Stable I) {s : State} (h : I s) (k : ℕ) (v : Word) : I (txeq s k v) := by
  dsimp only [txeq]
  with_reducible (repeat' first | assumption | intro _ | apply State.setReg_stable hI | apply State.modL_stable hI | apply State.raise_stable hI | split)

theorem execTxeqWrite_stable {I : State → Prop} (hI : Stable I) {s s' : State} (h : I s) (k : XLane) (val : Word) (ht : execTxeqWrite k val s = .next s') : I s' := by
  cases ht
  with_reducible (repeat' first | assumption | intro _ | apply cfgCmd_stable hI | apply txeq_stable hI | split)

theorem rxeq_stable {I : State → Prop} (hI : Stable I) {s : State} (h : I s) (k : ℕ) (v : Word) : I (rxeq s k v) := by
  dsimp only [rxeq]
  with_reducible (repeat' first | assumption | intro _ | refine foldl_stable ?_ ?_ | apply State.setReg_stable hI | apply State.put_stable hI | refine State.when_stable ?_ _ _ ?_ | split)

theorem execRxeqWrite_stable {I : State → Prop} (hI : Stable I) {s s' : State} (h : I s) (k : XLane) (val : Word) (ht : execRxeqWrite k val s = .next s') : I s' := by
  cases ht
  with_reducible (repeat' first | assumption | intro _ | apply rxeq_stable hI | apply cfgCmd_stable hI | split)

theorem execSyncLoss_stable {I : State → Prop} (hI : Stable I) {s s' : State} (h : I s) (k : XLane) (ht : execSyncLoss k s = .next s') : I s' := by
  cases ht
  with_reducible (repeat' first | assumption | intro _ | apply syncLoss_stable hI | split)

theorem execRxIdleChange_stable {I : State → Prop} (hI : Stable I) {s s' : State} (h : I s) (k : XLane) (idle : Bool) (ht : execRxIdleChange k idle s = .next s') : I s' := by
  cases ht
  with_reducible (repeat' first | assumption | intro _ | apply State.put_stable hI | apply syncLoss_stable hI | split)

theorem syncAcquired_stable {I : State → Prop} (hI : Stable I) {s : State} (h : I s) (k : ℕ) (os : List ℤ) : I (syncAcquired s k os) := by
  dsimp only [syncAcquired]
  with_reducible (repeat' first | assumption | intro _ | apply State.modL_stable hI | apply State.put_stable hI | split)

theorem execSyncAcquired_stable {I : State → Prop} (hI : Stable I) {s s' : State} (h : I s) (k : XLane) (offsets : List ℤ) (ht : execSyncAcquired k offsets s = .next s') : I s' := by
  cases ht
  with_reducible (repeat' first | assumption | intro _ | apply syncAcquired_stable hI | split)

theorem syncSlip_stable {I : State → Prop} (hI : Stable I) {s : State} (h : I s) (k : ℕ) (up : Bool) : I (syncSlip s k up) := by
  dsimp only [syncSlip]
  with_reducible (repeat' first | assumption | intro _ | apply State.countSat_stable hI | apply State.modL_stable hI | apply State.raise_stable hI | apply State.put_stable hI | split)

theorem execSyncSlip_stable {I : State → Prop} (hI : Stable I) {s s' : State} (h : I s) (k : XLane) (up : Bool) (ht : execSyncSlip k up s = .next s') : I s' := by
  cases ht
  with_reducible (repeat' first | assumption | intro _ | apply syncSlip_stable hI | split)

theorem count48_stable {I : State → Prop} (hI : Stable I) {s : State} (h : I s) (a : ℕ) (n : ℕ) (sat : FRef) : I (count48 s a n sat) := by
  dsimp only [count48]
  with_reducible (repeat' first | assumption | intro _ | apply State.raise_stable hI | apply State.putPair_stable hI | apply State.noteHw_stable hI | refine State.when_stable ?_ _ _ ?_ | split)

theorem countJudged_stable {I : State → Prop} (hI : Stable I) {s : State} (h : I s) (e : ℕ) (j : ℕ) (f : ℕ) : I (countJudged s e j f) := by
  dsimp only [countJudged]
  with_reducible (repeat' first | assumption | intro _ | apply count48_stable hI | split)

theorem judgePin_stable {I : State → Prop} (hI : Stable I) {s : State} (h : I s) (e : ℕ) (items : List Judged) : I (judgePin s e items) := by
  dsimp only [judgePin]
  with_reducible (repeat' first | assumption | intro _ | refine foldl_stable ?_ ?_ | apply queueRecord_stable hI | apply produce_stable hI | apply countJudged_stable hI | split)

theorem blockUi_stable {I : State → Prop} (hI : Stable I) {s : State} (h : I s) (e : ℕ) (w : PastPlay) (n : ℕ) (fails : Bool) : I (blockUi s e w n fails) := by
  dsimp only [blockUi]
  with_reducible (repeat' first | assumption | intro _ | apply flushBlk_stable hI | apply State.modL_stable hI | refine State.when_stable ?_ _ _ ?_ | split)

theorem judgeExpress_stable {I : State → Prop} (hI : Stable I) {s : State} (h : I s) (e : ℕ) (items : List Judged) : I (judgeExpress s e items) := by
  dsimp only [judgeExpress]
  with_reducible (repeat' first | assumption | intro _ | refine foldl_stable ?_ ?_ | apply produce_stable hI | apply blockUi_stable hI | apply countJudged_stable hI | split)

theorem compareJudgement_stable {I : State → Prop} (hI : Stable I) {s : State} (h : I s) (e : ℕ) (items : List Judged) : I (compareJudgement s e items) := by
  dsimp only [compareJudgement]
  with_reducible (repeat' first | assumption | intro _ | apply judgeExpress_stable hI | apply judgePin_stable hI | split)

theorem execCompareJudgement_stable {I : State → Prop} (hI : Stable I) {s s' : State} (h : I s) (e : Eng) (items : List Judged) (ht : execCompareJudgement e items s = .next s') : I s' := by
  cases ht
  with_reducible (repeat' first | assumption | intro _ | apply compareJudgement_stable hI | split)

theorem sendCredit_stable {I : State → Prop} (hI : Stable I) {s : State} (h : I s) (r : ℕ) : I (sendCredit s r) := by
  dsimp only [sendCredit]
  with_reducible (repeat' first | assumption | intro _ | apply sendToHost_stable hI | apply fabSend_stable hI | split | refine hI.rest _ _ _ _ _ _ _ _ _ _ _ _ _ _ _ _ _ _ _ _ ?_)

theorem creditAll_stable {I : State → Prop} (hI : Stable I) {s : State} (h : I s)  : I (creditAll s) := by
  dsimp only [creditAll]
  with_reducible (repeat' first | assumption | intro _ | refine foldl_stable ?_ ?_ | apply sendCredit_stable hI | split)

theorem creditUpdate_stable {I : State → Prop} (hI : Stable I) {s : State} (h : I s) (r : ℕ) : I (creditUpdate s r) := by
  dsimp only [creditUpdate]
  with_reducible (repeat' first | assumption | intro _ | apply sendCredit_stable hI | apply advanceNow_stable hI | split)

theorem execCreditUpdate_stable {I : State → Prop} (hI : Stable I) {s s' : State} (h : I s) (r : Fin 256) (ht : execCreditUpdate r s = .next s') : I s' := by
  cases ht
  with_reducible (repeat' first | assumption | intro _ | apply creditUpdate_stable hI | split)

theorem ringCfg_stable {I : State → Prop} (hI : Stable I) {s : State} (h : I s) (r : ℕ) (v : Word) : I (ringCfg s r v) := by
  dsimp only [ringCfg]
  with_reducible (repeat' first | assumption | intro _ | apply State.setReg_stable hI | apply sendCredit_stable hI | apply State.raise_stable hI | split | refine hI.rest _ _ _ _ _ _ _ _ _ _ _ _ _ _ _ _ _ _ _ _ ?_)

theorem execRingCfgWrite_stable {I : State → Prop} (hI : Stable I) {s s' : State} (h : I s) (r : Fin 256) (val : Word) (ht : execRingCfgWrite r val s = .next s') : I s' := by
  cases ht
  with_reducible (repeat' first | assumption | intro _ | apply ringCfg_stable hI | apply cfgCmd_stable hI | split)

theorem ringPtr_stable {I : State → Prop} (hI : Stable I) {s : State} (h : I s) (r : ℕ) (w : Bool) (v : Word) : I (ringPtr s r w v) := by
  dsimp only [ringPtr]
  with_reducible (repeat' first | assumption | intro _ | apply State.setReg_stable hI | apply State.raise_stable hI | split | refine hI.rest _ _ _ _ _ _ _ _ _ _ _ _ _ _ _ _ _ _ _ _ ?_)

theorem execRingPtrWrite_stable {I : State → Prop} (hI : Stable I) {s s' : State} (h : I s) (r : Fin 256) (wptr : Bool) (val : Word) (ht : execRingPtrWrite r wptr val s = .next s') : I s' := by
  cases ht
  with_reducible (repeat' first | assumption | intro _ | apply coreCmd_stable hI | apply ringPtr_stable hI | split)

theorem portWrite_stable {I : State → Prop} (hI : StableAll I) {s : State} (h : I s) (port : ℕ) (g : ℕ) (d : Granule) (first : Bool) : I (portWrite s port g d first) := by
  dsimp only [portWrite]
  with_reducible (repeat' first | assumption | intro _ | apply monEvent_stable hI.toStable | apply portServe_stable hI.toStable | apply writeGran_stable hI | split)

theorem checkedWrite_stable {I : State → Prop} (hI : StableAll I) {s : State} (h : I s) (port g : ℕ) (d : Granule) (first : Bool) :
    I (checkedWrite s port g d first) := by
  unfold checkedWrite
  split
  · rename_i t e; exact writeCheck_stable hI.toStable h _ _ e
  · exact portWrite_stable hI (noteWrite_stable hI.toStable h _ _) _ _ _ _


theorem putSlices_stable {I : State → Prop} (hI : StableAll I) (r p : ℕ) (l : List Granule) {s : State} (h : I s) (k : ℕ) :
    I (putSlices r p l s k) := by
  induction l generalizing s k with
  | nil => exact h
  | cons d ds ih => exact ih (portWrite_stable hI h _ _ _ _) _

theorem ringDrop_stable {I : State → Prop} (hI : Stable I) {s : State} (h : I s) (r : ℕ) (n : ℕ) (b : FRef) : I (ringDrop s r n b) := by
  dsimp only [ringDrop]
  with_reducible (repeat' first | assumption | intro _ | apply State.countSat_stable hI | apply State.raise_stable hI | split)

theorem setWptr_stable {I : State → Prop} (hI : Stable I) {s : State} (h : I s) (r : ℕ) (p : ℕ) : I (setWptr s r p) := by
  dsimp only [setWptr]
  with_reducible (repeat' first | assumption | intro _ | refine foldl_stable ?_ ?_ | apply topUp_stable hI | apply State.put_stable hI | split | refine hI.rest _ _ _ _ _ _ _ _ _ _ _ _ _ _ _ _ _ _ _ _ ?_)

theorem setTop_stable {I : State → Prop} (hI : Stable I) {s : State} (h : I s) (r : ℕ) (t : ℕ) : I (setTop s r t) := by
  dsimp only [setTop]
  with_reducible (repeat' first | assumption | intro _ | split | refine hI.rest _ _ _ _ _ _ _ _ _ _ _ _ _ _ _ _ _ _ _ _ ?_)

theorem writePos_stable {I : State → Prop} (hI : StableAll I) {s : State} (h : I s) (r : ℕ) (p : ℕ) (data : List Granule) : I (writePos s r p data) := by
  dsimp only [writePos]
  with_reducible (repeat' first | assumption | intro _ | apply setTop_stable hI.toStable | apply putSlices_stable hI | apply setWptr_stable hI.toStable | split | refine (hI.toStable).rest _ _ _ _ _ _ _ _ _ _ _ _ _ _ _ _ _ _ _ _ ?_)

theorem strmServed_stable {I : State → Prop} (hI : Stable I) {s : State} (h : I s) (r : ℕ) : I (strmServed s r) := by
  dsimp only [strmServed]
  with_reducible (repeat' first | assumption | intro _ | apply setWptr_stable hI | split | refine hI.rest _ _ _ _ _ _ _ _ _ _ _ _ _ _ _ _ _ _ _ _ ?_)

theorem passLate_stable {I : State → Prop} (hI : Stable I) {s : State} (h : I s) (r : ℕ) (p : ℕ) : I (passLate s r p) := by
  dsimp only [passLate]
  with_reducible (repeat' first | assumption | intro _ | apply setTop_stable hI | apply setWptr_stable hI | split)

theorem judgeRow_stable {I : State → Prop} (hI : StableAll I) {s : State} (h : I s) (r : ℕ) (p : ℕ) (data : List Granule) : I (judgeRow s r p data) := by
  dsimp only [judgeRow]
  with_reducible (repeat' first | assumption | intro _ | apply writePos_stable hI | apply passLate_stable hI.toStable | apply State.countSat_stable hI.toStable | apply fault_stable hI.toStable | apply ringDrop_stable hI.toStable | split)

theorem judgePos_stable {I : State → Prop} (hI : StableAll I) {s : State} (h : I s) (r : ℕ) (p : ℕ) (data : List Granule) : I (judgePos s r p data) := by
  dsimp only [judgePos]
  with_reducible (repeat' first | assumption | intro _ | apply State.setReg_stable hI.toStable | apply judgeRow_stable hI | apply State.raise_stable hI.toStable | split | refine (hI.toStable).rest _ _ _ _ _ _ _ _ _ _ _ _ _ _ _ _ _ _ _ _ ?_)

theorem phaseDrop_stable {I : State → Prop} (hI : Stable I) {s : State} (h : I s) (r : ℕ) (n : ℕ) (p : ℕ) (k : ℕ) : I (phaseDrop s r n p k) := by
  dsimp only [phaseDrop]
  with_reducible (repeat' first | assumption | intro _ | refine foldl_stable ?_ ?_ | apply noteWrite_stable hI | apply fault_stable hI | apply ringDrop_stable hI | split)

theorem streamGate_stable {I : State → Prop} (hI : Stable I) {s : State} (h : I s) (r : ℕ) (n : ℕ) (p : ℕ) (k : ℕ) (src : StreamSrc) (g : State → State) (hg : ∀ u, I u → I (g u)) : I (streamGate s r n p k src g) := by
  dsimp only [streamGate]
  with_reducible (repeat' first | assumption | intro _ | apply phaseDrop_stable hI | apply ringDrop_stable hI | apply hg | split)

theorem streamGranule_stable {I : State → Prop} (hI : StableAll I) {s : State} (h : I s) (r : ℕ) (p : ℕ) (src : StreamSrc) (data : List Granule) : I (streamGranule s r p src data) := by
  dsimp only [streamGranule]
  with_reducible (repeat' first | assumption | intro _ | apply streamGate_stable hI.toStable | apply ringDrop_stable hI.toStable | apply judgePos_stable hI | split)

theorem streamSlices_stable {I : State → Prop} (hI : StableAll I) (r : ℕ) (l : List Granule) {s : State} (h : I s) (p : ℕ)
    (got : List Granule) : I (streamSlices r l s p got) := by
  have parts : ∀ (u : State) x, I u → I { u with parts := x } := fun u x hu =>
    hI.rest _ _ _ _ _ _ _ _ _ _ _ _ _ _ _ _ _ _ _ _ hu
  induction l generalizing s p got with
  | nil => exact h
  | cons d ds ih =>
    unfold streamSlices
    dsimp only
    split
    · exact ih (parts { s with parts := _ } _ (parts s _ h)) _ _
    · exact ih (judgePos_stable hI (parts s _ h) _ _ _) _ _

theorem streamArrive_stable {I : State → Prop} (hI : StableAll I) {s : State} (h : I s) (r p k : ℕ) (src : StreamSrc)
    (data : List Granule) : I (streamArrive s r p k src data) := by
  have hs := hI.toStable
  have parts : ∀ (u : State) x, I u → I { u with parts := x } := fun u x hu =>
    hs.rest _ _ _ _ _ _ _ _ _ _ _ _ _ _ _ _ _ _ _ _ hu
  unfold streamArrive
  refine streamGate_stable hs h _ _ _ _ _ _ fun u hu => ?_
  split
  · refine ite_stable (streamSlices_stable hI _ _ hu _ _) ?_
    have hv := ringDrop_stable hs (parts u (u.parts.filter (fun x => x.1 != r)) hu)
    exact ite_stable (streamSlices_stable hI _ _ (hv _ _ _) _ _) (ringDrop_stable hs (hv _ _ _) _ _ _)
  · exact ite_stable (streamSlices_stable hI _ _ hu _ _) (ringDrop_stable hs hu _ _ _)

theorem streamFrame_stable {I : State → Prop} (hI : StableAll I) {s : State} (h : I s) (f : StreamFrame) : I (streamFrame s f) := by
  dsimp only [streamFrame]
  with_reducible (repeat' first | assumption | intro _ | apply streamGranule_stable hI | apply streamArrive_stable hI | apply ringDrop_stable hI.toStable | split)

theorem streamIn_stable {I : State → Prop} (hI : StableAll I) {s : State} (h : I s) (f : StreamFrame) : I (streamIn s f) := by
  dsimp only [streamIn]
  with_reducible (repeat' first | assumption | intro _ | apply streamFrame_stable hI | apply wake_stable hI.toStable | split | refine (hI.toStable).rest _ _ _ _ _ _ _ _ _ _ _ _ _ _ _ _ _ _ _ _ ?_)

theorem execStreamGranule_stable {I : State → Prop} (hI : StableAll I) {s s' : State} (h : I s) (r : Fin 256) (p : Word) (src : StreamSrc) (data : List Granule) (ht : execStreamGranule r p src data s = .next s') : I s' := by
  cases ht
  with_reducible (repeat' first | assumption | intro _ | apply streamIn_stable hI | split)

theorem shutterOpens_stable {I : State → Prop} (hI : StableAll I) {s : State} (h : I s) (id : ℕ) : I (shutterOpens s id) := by
  dsimp only [shutterOpens]
  with_reducible (repeat' first | assumption | intro _ | refine foldl_stable ?_ ?_ | apply streamFrame_stable hI | apply shutterOpen_stable hI.toStable | split | refine (hI.toStable).rest _ _ _ _ _ _ _ _ _ _ _ _ _ _ _ _ _ _ _ _ ?_)

theorem phaseErr_stable {I : State → Prop} (hI : Stable I) {s : State} (h : I s)  : I (phaseErr s) := by
  dsimp only [phaseErr]
  with_reducible (repeat' first | assumption | intro _ | apply State.raise_stable hI | split)

theorem phaseReq_stable {I : State → Prop} (hI : Stable I) {s : State} (h : I s) (dst : ℕ) (allowed : State → Bool) : I (phaseReq s dst allowed) := by
  dsimp only [phaseReq]
  with_reducible (repeat' first | assumption | intro _ | apply advanceCycle_stable hI | apply State.put_stable hI | apply phaseErr_stable hI | apply creditAll_stable hI | split | refine hI.rest _ _ _ _ _ _ _ _ _ _ _ _ _ _ _ _ _ _ _ _ ?_)

theorem execPhaseReqNormal_stable {I : State → Prop} (hI : Stable I) {s s' : State} (h : I s) (req : Requester) (ht : execPhaseReqNormal req s = .next s') : I s' := by
  cases ht
  with_reducible (repeat' first | assumption | intro _ | apply coreCmd_stable hI | apply phaseReq_stable hI | split)

theorem execPhaseReqTest_stable {I : State → Prop} (hI : Stable I) {s s' : State} (h : I s) (req : Requester) (ht : execPhaseReqTest req s = .next s') : I s' := by
  cases ht
  with_reducible (repeat' first | assumption | intro _ | apply coreCmd_stable hI | apply phaseReq_stable hI | split)

theorem execPhaseReqRecovery_stable {I : State → Prop} (hI : Stable I) {s s' : State} (h : I s) (_req : Requester) (ht : execPhaseReqRecovery _req s = .next s') : I s' := by
  cases ht
  with_reducible (repeat' first | assumption | intro _ | apply coreCmd_stable hI | apply phaseReq_stable hI | split)

theorem execFactoryTestEnter_stable {I : State → Prop} (hI : Stable I) {s s' : State} (h : I s)  (ht : execFactoryTestEnter s = .next s') : I s' := by
  cases ht
  with_reducible (repeat' first | assumption | intro _ | apply State.raise_stable hI | apply State.put_stable hI | refine State.when_stable ?_ _ _ ?_ | split | refine hI.rest _ _ _ _ _ _ _ _ _ _ _ _ _ _ _ _ _ _ _ _ ?_)

theorem readGrans_stable {I : State → Prop} (hI : StableAll I) (first : Bool) (n : ℕ) {s : State} (h : I s) (g : ℕ) :
    I (readGrans first n s g).2 := by
  induction n generalizing s g first with
  | zero => exact h
  | succ n ih =>
    have hr := readGran_stable hI h g
    simp only [readGrans]
    exact ih _ (monEvent_stable hI.toStable (portServe_stable hI.toStable hr _ _ _) _ _) _


theorem readBytes_stable {I : State → Prop} (hI : StableAll I) {s : State} (h : I s) (a : ℕ) (n : ℕ) : I (readBytes s a n).2.2 := by
  dsimp only [readBytes]
  with_reducible (repeat' first | assumption | intro _ | apply readGrans_stable hI | refine snd_stable (by assumption) ?_ | refine fst_stable (by assumption) ?_ | refine third_stable (by assumption) ?_ | split)

theorem aperReturn_stable {I : State → Prop} (hI : Stable I) {s : State} (h : I s) (d : List (BitVec 8)) (st : Fin 3) : I (aperReturn s d st) := by
  dsimp only [aperReturn]
  with_reducible (repeat' first | assumption | intro _ | apply State.modP_stable hI | split)

theorem launch_stable {I : State → Prop} (hI : Stable I) {s : State} (h : I s) (m : Msg) : I (launch s m) := by
  dsimp only [launch]
  with_reducible (repeat' first | assumption | intro _ | apply State.modP_stable hI | apply sendToField_stable hI | split)

theorem offer_stable {I : State → Prop} (hI : Stable I) {s : State} (h : I s) (m : Msg) : I (offer s m) := by
  dsimp only [offer]
  with_reducible (repeat' first | assumption | intro _ | apply State.modP_stable hI | apply launch_stable hI | split)

theorem crossFrames_stable {I : State → Prop} (hI : Stable I) {s : State} (h : I s) (k : ℕ) : I (crossFrames s k) := by
  dsimp only [crossFrames]
  with_reducible (repeat' first | assumption | intro _ | apply State.modP_stable hI | apply monEvent_stable hI | split)

theorem aperRead_stable {I : State → Prop} (hI : StableAll I) {s0 : State} (h : I s0) (off len : ℕ) : I (aperRead s0 off len) := by
  have hs := hI.toStable
  have hc : ∀ k, I (crossFrames s0 k) := fun k => crossFrames_stable hs h k
  unfold aperRead
  extract_lets a ps s
  have hu : I s := hc _
  refine ite_stable h (ite_stable (aperReturn_stable hs h _ _) (ite_stable ?_ (ite_stable ?_ (ite_stable ?_ ?_))))
  · exact foldl_stable h fun v x hv => offer_stable hs hv _
  · exact aperReturn_stable hs (State.raise_stable hs hu _) _ _
  · exact aperReturn_stable hs (State.raise_stable hs hu _) _ _
  have hr := readBytes_stable hI hu a len
  generalize readBytes s a len = x at hr
  obtain ⟨d, bad, s1⟩ := x
  exact ite_stable (aperReturn_stable hs (State.raise_stable hs hr _) _ _) (aperReturn_stable hs hr _ _)


theorem execAperRead_stable {I : State → Prop} (hI : StableAll I) {s s' : State} (h : I s) (off : BitVec 30) (len : ℕ) (ht : execAperRead off len s = .next s') : I s' := by
  cases ht
  with_reducible (repeat' first | assumption | intro _ | apply aperRead_stable hI | apply wake_stable hI.toStable | split)

theorem writeGrans_stable {I : State → Prop} (hI : StableAll I) (first : Bool) (n : ℕ) {s : State} (h : I s) (port g : ℕ)
    (bs : List (BitVec 8)) : I (writeGrans first n s port g bs) := by
  induction n generalizing s g bs first with
  | zero => exact h
  | succ n ih => exact ih _ (checkedWrite_stable hI h _ _ _ _) _ _


theorem aperWrite_stable {I : State → Prop} (hI : StableAll I) {s0 : State} (h : I s0) (off : ℕ) (data : List (BitVec 8)) : I (aperWrite s0 off data) := by
  dsimp only [aperWrite]
  with_reducible (repeat' first | assumption | intro _ | refine foldl_stable ?_ ?_ | apply State.raise_stable hI.toStable | apply offer_stable hI.toStable | apply writeGrans_stable hI | apply crossFrames_stable hI.toStable | split)

theorem execAperWrite_stable {I : State → Prop} (hI : StableAll I) {s s' : State} (h : I s) (off : BitVec 30) (data : List (BitVec 8)) (ht : execAperWrite off data s = .next s') : I s' := by
  cases ht
  with_reducible (repeat' first | assumption | intro _ | apply aperWrite_stable hI | apply wake_stable hI.toStable | split)

theorem monSync_stable {I : State → Prop} (hI : Stable I) {s : State} (h : I s) (i : ℕ) : I (monSync s i) := by
  dsimp only [monSync]
  with_reducible (repeat' first | assumption | intro _ | apply State.modMon_stable hI | apply setMonVal_stable hI | split)

theorem monStart_stable {I : State → Prop} (hI : Stable I) {s : State} (h : I s) (i : ℕ) : I (monStart s i) := by
  dsimp only [monStart]
  with_reducible (repeat' first | assumption | intro _ | apply State.modMon_stable hI | apply State.put_stable hI | split)

theorem monStop_stable {I : State → Prop} (hI : Stable I) {s : State} (h : I s) (i : ℕ) : I (monStop s i) := by
  dsimp only [monStop]
  with_reducible (repeat' first | assumption | intro _ | apply State.modMon_stable hI | apply monSync_stable hI | apply State.put_stable hI | split)

theorem monSnap_stable {I : State → Prop} (hI : Stable I) {s : State} (h : I s) (i : ℕ) : I (monSnap s i) := by
  dsimp only [monSnap]
  with_reducible (repeat' first | assumption | intro _ | apply State.modMon_stable hI | apply monSync_stable hI | apply State.putPair_stable hI | split)

theorem monClear_stable {I : State → Prop} (hI : Stable I) {s : State} (h : I s) (i : ℕ) : I (monClear s i) := by
  dsimp only [monClear]
  with_reducible (repeat' first | assumption | intro _ | apply monSync_stable hI | apply State.putPair_stable hI | split)

theorem monCfg_stable {I : State → Prop} (hI : Stable I) {s : State} (h : I s) (i : ℕ) (v : Word) : I (monCfg s i v) := by
  dsimp only [monCfg]
  with_reducible (repeat' first | assumption | intro _ | apply State.setReg_stable hI | apply State.modMon_stable hI | apply monSync_stable hI | apply noteOld_stable hI | split)

theorem execMcntStart_stable {I : State → Prop} (hI : Stable I) {s s' : State} (h : I s) (i : Fin 256) (ht : execMcntStart i s = .next s') : I s' := by
  cases ht
  with_reducible (repeat' first | assumption | intro _ | apply monStart_stable hI | apply coreCmd_stable hI | split)

theorem execMcntStop_stable {I : State → Prop} (hI : Stable I) {s s' : State} (h : I s) (i : Fin 256) (ht : execMcntStop i s = .next s') : I s' := by
  cases ht
  with_reducible (repeat' first | assumption | intro _ | apply monStop_stable hI | apply coreCmd_stable hI | split)

theorem execMcntSnap_stable {I : State → Prop} (hI : Stable I) {s s' : State} (h : I s) (i : Fin 256) (ht : execMcntSnap i s = .next s') : I s' := by
  cases ht
  with_reducible (repeat' first | assumption | intro _ | apply coreCmd_stable hI | apply monSnap_stable hI | split)

theorem execMcntClr_stable {I : State → Prop} (hI : Stable I) {s s' : State} (h : I s) (i : Fin 256) (ht : execMcntClr i s = .next s') : I s' := by
  cases ht
  with_reducible (repeat' first | assumption | intro _ | apply monClear_stable hI | apply coreCmd_stable hI | split)

theorem pulseMcl_stable {I : State → Prop} (hI : Stable I) {s : State} (h : I s) (n : ℕ) : I (pulseMcl s n) := by
  dsimp only [pulseMcl]
  with_reducible (repeat' first | assumption | intro _ | refine foldl_stable ?_ ?_ | apply monStop_stable hI | apply monStart_stable hI | apply monSnap_stable hI | refine State.when_stable ?_ _ _ ?_ | split)

theorem mergeNt_stable {I : State → Prop} (hI : Stable I) {s : State} (h : I s) (n : ℕ) : I (mergeNt s n) := by
  dsimp only [mergeNt]
  with_reducible (repeat' first | assumption | intro _ | apply State.raise_stable hI | apply State.count_stable hI | split)

theorem importEvent_stable {I : State → Prop} (hI : Stable I) {s : State} (h : I s) (j : ℕ) (c : ℕ) : I (importEvent s j c) := by
  dsimp only [importEvent]
  with_reducible (repeat' first | assumption | intro _ | apply State.countSat_stable hI | apply State.modH_stable hI | apply produce_stable hI | apply fault_stable hI | apply State.raise_stable hI | split)

theorem exportEvent_stable {I : State → Prop} (hI : Stable I) {s : State} (h : I s) (j : ℕ) (f : ℕ) : I (exportEvent s j f) := by
  dsimp only [exportEvent]
  with_reducible (repeat' first | assumption | intro _ | apply fabSend_stable hI | apply importEvent_stable hI | apply State.count_stable hI | split)

theorem execEventPacket_stable {I : State → Prop} (hI : Stable I) {s s' : State} (h : I s) (_src : House) (imp : Fin 64) (cycle : ℕ) (ht : execEventPacket _src imp cycle s = .next s') : I s' := by
  cases ht
  with_reducible (repeat' first | assumption | intro _ | apply importEvent_stable hI | apply wake_stable hI | split)

theorem importApply_stable {I : State → Prop} (hI : Stable I) {s : State} (h : I s) (j : ℕ) : I (importApply s j) := by
  dsimp only [importApply]
  with_reducible (repeat' first | assumption | intro _ | apply advanceCycle_stable hI | apply State.modH_stable hI | apply produce_stable hI | split)

theorem execImportApply_stable {I : State → Prop} (hI : Stable I) {s s' : State} (h : I s) (j : Fin 64) (ht : execImportApply j s = .next s') : I s' := by
  cases ht
  with_reducible (repeat' first | assumption | intro _ | apply importApply_stable hI | split)

theorem timerFires_stable {I : State → Prop} (hI : Stable I) {s : State} (h : I s) (i : ℕ) (c : ℕ) : I (timerFires s i c) := by
  dsimp only [timerFires]
  with_reducible (repeat' first | assumption | intro _ | apply produce_stable hI | split)

theorem timerTask_stable {I : State → Prop} (hI : Stable I) {s : State} (h : I s) (i : ℕ) (a : ℕ) : I (timerTask s i a) := by
  dsimp only [timerTask]
  with_reducible (repeat' first | assumption | intro _ | apply State.modH_stable hI | apply timerFires_stable hI | apply State.put_stable hI | apply State.count_stable hI | split)

theorem timerFire_stable {I : State → Prop} (hI : Stable I) {s : State} (h : I s) (i : ℕ) : I (timerFire s i) := by
  dsimp only [timerFire]
  with_reducible (repeat' first | assumption | intro _ | apply advanceCycle_stable hI | apply State.modH_stable hI | apply timerFires_stable hI | apply State.count_stable hI | split)

theorem execTimerFire_stable {I : State → Prop} (hI : Stable I) {s s' : State} (h : I s) (i : Fin 32) (ht : execTimerFire i s = .next s') : I s' := by
  cases ht
  with_reducible (repeat' first | assumption | intro _ | apply timerFire_stable hI | split)

theorem timerCfg_stable {I : State → Prop} (hI : Stable I) {s : State} (h : I s) (i : ℕ) (v : Word) : I (timerCfg s i v) := by
  dsimp only [timerCfg]
  with_reducible (repeat' first | assumption | intro _ | apply State.put_stable hI | apply tmrReset_stable hI | split)

theorem execTimerCfgWrite_stable {I : State → Prop} (hI : Stable I) {s s' : State} (h : I s) (i : Fin 32) (val : Word) (ht : execTimerCfgWrite i val s = .next s') : I s' := by
  cases ht
  with_reducible (repeat' first | assumption | intro _ | apply timerCfg_stable hI | apply cfgCmd_stable hI | split)

theorem trigTask_stable {I : State → Prop} (hI : Stable I) {s : State} (h : I s) (i : ℕ) (a : ℕ) : I (trigTask s i a) := by
  dsimp only [trigTask]
  with_reducible (repeat' first | assumption | intro _ | apply State.modH_stable hI | split)

theorem trigOutCfg_stable {I : State → Prop} (hI : Stable I) (s : State) {t : State} (h : I t) (i : ℕ) : I (trigOutCfg s t i) :=
  State.when_stable h _ _ fun u hu => State.modH_stable hI hu _

theorem pulseEnd_stable {I : State → Prop} (hI : Stable I) {s : State} (h : I s) (i : ℕ) : I (pulseEnd s i) := by
  dsimp only [pulseEnd]
  with_reducible (repeat' first | assumption | intro _ | apply State.modH_stable hI | apply advanceT_stable hI | split)

theorem execTrigOutPulseEnd_stable {I : State → Prop} (hI : Stable I) {s s' : State} (h : I s) (i : Fin 16) (ht : execTrigOutPulseEnd i s = .next s') : I s' := by
  cases ht
  with_reducible (repeat' first | assumption | intro _ | apply pulseEnd_stable hI | split)

theorem execTimedTrigEnd_stable {I : State → Prop} (hI : Stable I) {s s' : State} (h : I s) (i : Fin 16) (ht : execTimedTrigEnd i s = .next s') : I s' := by
  cases ht
  with_reducible (repeat' first | assumption | intro _ | apply pulseEnd_stable hI | split)

theorem timedEdge_stable {I : State → Prop} (hI : Stable I) {s : State} (h : I s) (i : ℕ) : I (timedEdge s i) := by
  dsimp only [timedEdge]
  with_reducible (repeat' first | assumption | intro _ | apply State.modH_stable hI | apply advanceT_stable hI | split)

theorem execTimedTrigEdge_stable {I : State → Prop} (hI : Stable I) {s s' : State} (h : I s) (i : Fin 16) (ht : execTimedTrigEdge i s = .next s') : I s' := by
  cases ht
  with_reducible (repeat' first | assumption | intro _ | apply timedEdge_stable hI | split)

theorem trigIn_stable {I : State → Prop} (hI : Stable I) {s0 : State} (h : I s0) (i : ℕ) (rising : Bool) (late : Bool) : I (trigIn s0 i rising late) := by
  dsimp only [trigIn]
  with_reducible (repeat' first | assumption | intro _ | apply advanceHouse_stable hI | apply produce_stable hI | apply State.putPair_stable hI | apply State.count_stable hI | split)

theorem execTrigInEdge_stable {I : State → Prop} (hI : Stable I) {s s' : State} (h : I s) (i : Fin 16) (rising : Bool) (late : Bool) (ht : execTrigInEdge i rising late s = .next s') : I s' := by
  cases ht
  with_reducible (repeat' first | assumption | intro _ | apply trigIn_stable hI | split)

theorem deliver_stable {I : State → Prop} (hI : Stable I) {s : State} (h : I s) (a : ℕ) (t : ℕ) (n : ℕ) (f : ℕ) : I (deliver s a t n f) := by
  dsimp only [deliver]
  with_reducible (repeat' first | assumption | intro _ | apply taskArrive_stable hI | apply pulseMcl_stable hI | apply exportEvent_stable hI | apply mergeNt_stable hI | apply taskStart_stable hI | refine State.when_stable ?_ _ _ ?_ | apply trigTask_stable hI | apply timerTask_stable hI | split)

theorem hallwayDelivery_stable {I : State → Prop} (hI : Stable I) {s : State} (h : I s)  : I (hallwayDelivery s) := by
  dsimp only [hallwayDelivery]
  with_reducible (repeat' first | assumption | intro _ | refine foldl_stable ?_ ?_ | apply advanceCycle_stable hI | apply State.modH_stable hI | apply deliver_stable hI | apply wake_stable hI | split)

theorem execHallwayDelivery_stable {I : State → Prop} (hI : Stable I) {s s' : State} (h : I s)  (ht : execHallwayDelivery s = .next s') : I s' := by
  cases ht
  with_reducible (repeat' first | assumption | intro _ | apply hallwayDelivery_stable hI | split)

theorem formAll_stable {I : State → Prop} (hI : Stable I) {s : State} (h : I s)  : I (formAll s) := by
  dsimp only [formAll]
  with_reducible (repeat' first | assumption | intro _ | apply advanceCycle_stable hI | split)

theorem execStormDetect_stable {I : State → Prop} (hI : Stable I) {s s' : State} (h : I s) (_ch : Fin 256) (ht : execStormDetect _ch s = .next s') : I s' := by
  cases ht
  with_reducible (repeat' first | assumption | intro _ | apply formAll_stable hI | split)

theorem execFaultGroupActive_stable {I : State → Prop} (hI : Stable I) {s s' : State} (h : I s) (_f : Fin 16) (ht : execFaultGroupActive _f s = .next s') : I s' := by
  cases ht
  with_reducible (repeat' first | assumption | intro _ | apply formAll_stable hI | split)

theorem groupChg_stable {I : State → Prop} (hI : Stable I) {s : State} (h : I s) (g : ℕ) (arm : Bool) : I (groupChg s g arm) := by
  dsimp only [groupChg]
  with_reducible (repeat' first | assumption | intro _ | apply State.modH_stable hI | split)

theorem execGroupArm_stable {I : State → Prop} (hI : Stable I) {s s' : State} (h : I s) (g : Fin 16) (ht : execGroupArm g s = .next s') : I s' := by
  cases ht
  with_reducible (repeat' first | assumption | intro _ | apply coreCmd_stable hI | apply groupChg_stable hI | split)

theorem execGroupDisarm_stable {I : State → Prop} (hI : Stable I) {s s' : State} (h : I s) (g : Fin 16) (ht : execGroupDisarm g s = .next s') : I s' := by
  cases ht
  with_reducible (repeat' first | assumption | intro _ | apply coreCmd_stable hI | apply groupChg_stable hI | split)

theorem swpulse_stable {I : State → Prop} (hI : Stable I) {s : State} (h : I s) (v : Word) : I (swpulse s v) := by
  dsimp only [swpulse]
  with_reducible (repeat' first | assumption | intro _ | refine foldl_stable ?_ ?_ | apply produce_stable hI | refine State.when_stable ?_ _ _ ?_ | split)

theorem execSwpulse_stable {I : State → Prop} (hI : Stable I) {s s' : State} (h : I s) (val : Word) (ht : execSwpulse val s = .next s') : I s' := by
  cases ht
  with_reducible (repeat' first | assumption | intro _ | apply swpulse_stable hI | apply coreCmd_stable hI | split)

theorem bcastEpoch_stable {I : State → Prop} (hI : Stable I) {s : State} (h : I s) (p : PendEpoch) : I (bcastEpoch s p) := by
  dsimp only [bcastEpoch]
  with_reducible (repeat' first | assumption | intro _ | apply fabSend_stable hI | split)

theorem pendEpoch_stable {I : State → Prop} (hI : Stable I) {s : State} (h : I s) (p : PendEpoch) (st : ℕ) : I (pendEpoch s p st) := by
  dsimp only [pendEpoch]
  with_reducible (repeat' first | assumption | intro _ | apply State.raise_stable hI | apply State.put_stable hI | refine State.when_stable ?_ _ _ ?_ | split | refine hI.rest _ _ _ _ _ _ _ _ _ _ _ _ _ _ _ _ _ _ _ _ ?_)

theorem noteEpoch_stable {I : State → Prop} (hI : Stable I) {s : State} (h : I s) (a : EpochAct) : I (noteEpoch s a) := by
  dsimp only [noteEpoch]
  with_reducible (repeat' first | assumption | intro _ | split | refine hI.rest _ _ _ _ _ _ _ _ _ _ _ _ _ _ _ _ _ _ _ _ ?_)

theorem undoEpoch_stable {I : State → Prop} (hI : Stable I) {s : State} (h : I s)  : I (undoEpoch s) := by
  dsimp only [undoEpoch]
  with_reducible (repeat' first | assumption | intro _ | apply State.put_stable hI | split | refine hI.rest _ _ _ _ _ _ _ _ _ _ _ _ _ _ _ _ _ _ _ _ ?_)

theorem epochGo_stable {I : State → Prop} (hI : Stable I) {s0 : State} (h : I s0)  : I (epochGo s0) := by
  dsimp only [epochGo]
  with_reducible (repeat' first | assumption | intro _ | apply pendEpoch_stable hI | apply bcastEpoch_stable hI | apply State.raise_stable hI | apply noteEpoch_stable hI | split)

theorem execEpochGo_stable {I : State → Prop} (hI : Stable I) {s s' : State} (h : I s)  (ht : execEpochGo s = .next s') : I s' := by
  cases ht
  with_reducible (repeat' first | assumption | intro _ | apply epochGo_stable hI | apply coreCmd_stable hI | split)

theorem applyEpoch_stable {I : State → Prop} (hI : Stable I) {s : State} (h : I s) (p : PendEpoch) : I (applyEpoch s p) := by
  dsimp only [applyEpoch]
  with_reducible (repeat' first | assumption | intro _ | apply advanceCycle_stable hI | apply produce_stable hI | apply State.raise_stable hI | apply State.put_stable hI | apply State.putPair_stable hI | split | refine hI.rest _ _ _ _ _ _ _ _ _ _ _ _ _ _ _ _ _ _ _ _ ?_)

theorem epochApply_stable {I : State → Prop} (hI : Stable I) {s : State} (h : I s)  : I (epochApply s) := by
  dsimp only [epochApply]
  with_reducible (repeat' first | assumption | intro _ | apply applyEpoch_stable hI | split)

theorem execEpochApply_stable {I : State → Prop} (hI : Stable I) {s s' : State} (h : I s)  (ht : execEpochApply s = .next s') : I s' := by
  cases ht
  with_reducible (repeat' first | assumption | intro _ | apply epochApply_stable hI | split)

theorem epochCancel_stable {I : State → Prop} (hI : Stable I) {s : State} (h : I s)  : I (epochCancel s) := by
  dsimp only [epochCancel]
  with_reducible (repeat' first | assumption | intro _ | apply undoEpoch_stable hI | apply applyEpoch_stable hI | apply State.put_stable hI | split | refine hI.rest _ _ _ _ _ _ _ _ _ _ _ _ _ _ _ _ _ _ _ _ ?_)

theorem execEpochCancel_stable {I : State → Prop} (hI : Stable I) {s s' : State} (h : I s)  (ht : execEpochCancel s = .next s') : I s' := by
  cases ht
  with_reducible (repeat' first | assumption | intro _ | apply coreCmd_stable hI | apply epochCancel_stable hI | split)

theorem syncEdge_stable {I : State → Prop} (hI : Stable I) {s : State} (h : I s) (frac : ℕ) : I (syncEdge s frac) := by
  dsimp only [syncEdge]
  with_reducible (repeat' first | assumption | intro _ | apply produce_stable hI | apply bcastEpoch_stable hI | apply State.raise_stable hI | apply State.put_stable hI | apply State.putPair_stable hI | apply noteEpoch_stable hI | apply State.count_stable hI | split | refine hI.rest _ _ _ _ _ _ _ _ _ _ _ _ _ _ _ _ _ _ _ _ ?_)

theorem execSyncEdge_stable {I : State → Prop} (hI : Stable I) {s s' : State} (h : I s) (frac : BitVec 8) (ht : execSyncEdge frac s = .next s') : I s' := by
  cases ht
  with_reducible (repeat' first | assumption | intro _ | apply syncEdge_stable hI | split)

theorem epochCommand_stable {I : State → Prop} (hI : Stable I) {s0 : State} (h : I s0) (a : ℕ) (beats : ℕ) (frac : ℕ) : I (epochCommand s0 a beats frac) := by
  dsimp only [epochCommand]
  with_reducible (repeat' first | assumption | intro _ | apply pendEpoch_stable hI | apply undoEpoch_stable hI | apply State.raise_stable hI | apply noteEpoch_stable hI | split)

theorem execEpoch_stable {I : State → Prop} (hI : Stable I) {s s' : State} (h : I s) (_src : House) (applyAt : BitVec 64) (beats : BitVec 64) (frac : BitVec 16) (ht : execEpoch _src applyAt beats frac s = .next s') : I s' := by
  cases ht
  with_reducible (repeat' first | assumption | intro _ | apply epochCommand_stable hI | split)

end Sys2Proof.Machine
end

