-- ==== Sys2Proof/Laws/Keep4.lean ====
section
/-! SUPPORT. Stable properties of states (Laws/Stable.lean) are kept by every operation of the store, calibration, the porch and the fabric. -/

namespace Sys2Proof.Machine

theorem queueGran_stable {I : State → Prop} (hI : Stable I) {s : State} (h : I s) (r : Req) (d : Granule) (bad : Bool) : I (queueGran s r d bad) := by
  dsimp only [queueGran]
  with_reducible (repeat' first | assumption | intro _ | apply topUp_stable hI | apply State.modE_stable hI | apply syncRptr_stable hI | split)

theorem landGran_stable {I : State → Prop} (hI : StableAll I) {s : State} (h : I s) (port g : ℕ) (d : Granule) : I (landGran s port g d) := by
  unfold landGran
  split
  · rename_i t e; exact writeCheck_stable hI.toStable h _ _ e
  · exact monEvent_stable hI.toStable (writeGran_stable hI (noteWrite_stable hI.toStable h _ _) _ _) _ _


theorem serveOne_stable {I : State → Prop} (hI : StableAll I) {s : State} (h : I s) (r : Req) : I (serveOne s r) := by
  dsimp only [serveOne]
  with_reducible (repeat' first | assumption | intro _ | apply monEvent_stable hI.toStable | apply writeGran_stable hI | apply queueGran_stable hI.toStable | apply readGran_stable hI | apply loadGran_stable hI.toStable | apply landGran_stable hI | apply strmServed_stable hI.toStable | refine snd_stable (by assumption) ?_ | refine fst_stable (by assumption) ?_ | refine third_stable (by assumption) ?_ | split | refine (hI.toStable).rest _ _ _ _ _ _ _ _ _ _ _ _ _ _ _ _ _ _ _ _ ?_)

theorem serveN_stable {I : State → Prop} (hI : StableAll I) (n : ℕ) {s : State} (h : I s) (r : Req) : I (serveN n s r) := by
  induction n generalizing s r with
  | zero => exact h
  | succ n ih => exact ih (serveOne_stable hI h _) _

theorem promote_stable {I : State → Prop} (hI : Stable I) {s : State} (h : I s) (pc : ℕ) : I (promote s pc) := by
  dsimp only [promote]
  with_reducible (repeat' first | assumption | intro _ | refine foldl_stable ?_ ?_ | apply State.countSat_stable hI | apply monEvent_stable hI | split | refine hI.rest _ _ _ _ _ _ _ _ _ _ _ _ _ _ _ _ _ _ _ _ ?_)

theorem refill_stable {I : State → Prop} (hI : Stable I) {s : State} (h : I s)  : I (refill s) := by
  dsimp only [refill]
  with_reducible (repeat' first | assumption | intro _ | refine foldl_stable ?_ ?_ | apply topUp_stable hI | split)

theorem passOver_stable {I : State → Prop} (hI : Stable I) {s : State} (h : I s) (pc : ℕ) : I (passOver s pc) := by
  dsimp only [passOver]
  with_reducible (repeat' first | assumption | intro _ | split | refine hI.rest _ _ _ _ _ _ _ _ _ _ _ _ _ _ _ _ _ _ _ _ ?_)

theorem storeGrant_stable {I : State → Prop} (hI : StableAll I) {s0 : State} (h : I s0) (pc : ℕ) : I (storeGrant s0 pc) := by
  dsimp only [storeGrant]
  with_reducible (repeat' first | assumption | intro _ | apply refill_stable hI.toStable | apply touchRow_stable hI.toStable | apply promote_stable hI.toStable | apply serveN_stable hI | apply passOver_stable hI.toStable | split | refine (hI.toStable).rest _ _ _ _ _ _ _ _ _ _ _ _ _ _ _ _ _ _ _ _ ?_)

theorem agePromotion_stable {I : State → Prop} (hI : Stable I) {s : State} (h : I s) (pc : ℕ) : I (agePromotion s pc) := by
  dsimp only [agePromotion]
  with_reducible (repeat' first | assumption | intro _ | apply promote_stable hI | apply advanceNow_stable hI | split)

theorem execAgePromotion_stable {I : State → Prop} (hI : Stable I) {s s' : State} (h : I s) (pc : PChan) (ht : execAgePromotion pc s = .next s') : I s' := by
  cases ht
  with_reducible (repeat' first | assumption | intro _ | apply agePromotion_stable hI | split)

theorem setOwed_stable {I : State → Prop} (hI : Stable I) {s : State} (h : I s) (b : ℕ) (n : ℕ) : I (setOwed s b n) := by
  dsimp only [setOwed]
  with_reducible (repeat' first | assumption | intro _ | split | refine hI.rest _ _ _ _ _ _ _ _ _ _ _ _ _ _ _ _ _ _ _ _ ?_)

theorem refreshDue_stable {I : State → Prop} (hI : Stable I) {s : State} (h : I s) (pc : ℕ) (b : ℕ) : I (refreshDue s pc b) := by
  dsimp only [refreshDue]
  with_reducible (repeat' first | assumption | intro _ | apply State.countSat_stable hI | apply setOwed_stable hI | apply monEvent_stable hI | apply State.put_stable hI | apply closeRow_stable hI | split)

theorem execRefreshDue_stable {I : State → Prop} (hI : Stable I) {s s' : State} (h : I s) (pc : PChan) (b : Bank) (ht : execRefreshDue pc b s = .next s') : I s' := by
  cases ht
  with_reducible (repeat' first | assumption | intro _ | apply refreshDue_stable hI | split)

theorem owedRefresh_stable {I : State → Prop} (hI : Stable I) {s : State} (h : I s) (pc : ℕ) (b : ℕ) : I (owedRefresh s pc b) := by
  dsimp only [owedRefresh]
  with_reducible (repeat' first | assumption | intro _ | apply setOwed_stable hI | apply closeRow_stable hI | split)

theorem execOwedRefresh_stable {I : State → Prop} (hI : Stable I) {s s' : State} (h : I s) (pc : PChan) (b : Bank) (ht : execOwedRefresh pc b s = .next s') : I s' := by
  cases ht
  with_reducible (repeat' first | assumption | intro _ | apply owedRefresh_stable hI | split)

theorem neighbourRefresh_stable {I : State → Prop} (hI : Stable I) {s : State} (h : I s) (pc : ℕ) (b : ℕ) (row : ℕ) : I (neighbourRefresh s pc b row) := by
  dsimp only [neighbourRefresh]
  with_reducible (repeat' first | assumption | intro _ | apply State.countSat_stable hI | apply monEvent_stable hI | apply closeRow_stable hI | split | refine hI.rest _ _ _ _ _ _ _ _ _ _ _ _ _ _ _ _ _ _ _ _ ?_)

theorem execNeighbourRefresh_stable {I : State → Prop} (hI : Stable I) {s s' : State} (h : I s) (pc : PChan) (b : Bank) (row : Fin 16384) (ht : execNeighbourRefresh pc b row s = .next s') : I s' := by
  cases ht
  with_reducible (repeat' first | assumption | intro _ | apply neighbourRefresh_stable hI | split)

theorem execRefreshWindowEnd_stable {I : State → Prop} (hI : Stable I) {s s' : State} (h : I s) (pc : PChan) (b : Bank) (ht : execRefreshWindowEnd pc b s = .next s') : I s' := by
  cases ht
  with_reducible (repeat' first | assumption | intro _ | split | refine hI.rest _ _ _ _ _ _ _ _ _ _ _ _ _ _ _ _ _ _ _ _ ?_)

theorem rowIdleClose_stable {I : State → Prop} (hI : Stable I) {s : State} (h : I s) (pc : ℕ) (b : ℕ) : I (rowIdleClose s pc b) := by
  dsimp only [rowIdleClose]
  with_reducible (repeat' first | assumption | intro _ | apply advanceNow_stable hI | apply closeRow_stable hI | split)

theorem execRowIdleClose_stable {I : State → Prop} (hI : Stable I) {s s' : State} (h : I s) (pc : PChan) (b : Bank) (ht : execRowIdleClose pc b s = .next s') : I s' := by
  cases ht
  with_reducible (repeat' first | assumption | intro _ | apply rowIdleClose_stable hI | split)

theorem stackTemp_stable {I : State → Prop} (hI : Stable I) {s : State} (h : I s) (st : ℕ) (c16 : ℤ) (stale : Bool) : I (stackTemp s st c16 stale) := by
  dsimp only [stackTemp]
  with_reducible (repeat' first | assumption | intro _ | apply State.put_stable hI | split | refine hI.rest _ _ _ _ _ _ _ _ _ _ _ _ _ _ _ _ _ _ _ _ ?_)

theorem execStackTempRead_stable {I : State → Prop} (hI : Stable I) {s s' : State} (h : I s) (st : Stack) (c16 : ℤ) (stale : Bool) (ht : execStackTempRead st c16 stale s = .next s') : I s' := by
  cases ht
  with_reducible (repeat' first | assumption | intro _ | apply stackTemp_stable hI | split)

theorem ceWriteback_stable {I : State → Prop} (hI : StableAll I) {s0 : State} (h : I s0) (g : ℕ) : I (ceWriteback s0 g) := by
  have hs := hI.toStable
  unfold ceWriteback
  refine ite_stable ?_ h
  split
  · rename_i t e
    exact ctl_stable hs (writeCheck_stable hs h _ _ e) _
  · have h1 := portServe_stable hs (noteWrite_stable hs h 51 g) 51 g true
    generalize portServe (noteWrite s0 51 g) 51 g = u at h1 ⊢
    have h2 := ite_stable (c := errOf u g = 1) (setErr_stable hI h1 g 0) h1
    exact ite_stable (startSparing_stable hs (ctl_stable hs h2 _) _) (ctl_stable hs h2 _)


theorem execCeWriteback_stable {I : State → Prop} (hI : StableAll I) {s s' : State} (h : I s) (gran : ℕ) (ht : execCeWriteback gran s = .next s') : I s' := by
  cases ht
  with_reducible (repeat' first | assumption | intro _ | apply ceWriteback_stable hI | split)

theorem copyGran16_stable {I : State → Prop} (hI : StableAll I) {s : State} (h : I s) (g : ℕ) : I (copyGran16 s g) := by
  dsimp only [copyGran16]
  with_reducible (repeat' first | assumption | intro _ | apply setErr_stable hI | apply monEvent_stable hI.toStable | apply readGran_stable hI | refine snd_stable (by assumption) ?_ | refine fst_stable (by assumption) ?_ | refine third_stable (by assumption) ?_ | split | refine (hI.toStable).rest _ _ _ _ _ _ _ _ _ _ _ _ _ _ _ _ _ _ _ _ ?_)

theorem rowRemap_stable {I : State → Prop} (hI : StableAll I) {s0 : State} (h : I s0) (pc : ℕ) (b : ℕ) (row : ℕ) : I (rowRemap s0 pc b row) := by
  dsimp only [rowRemap]
  with_reducible (repeat' first | assumption | intro _ | refine foldl_stable ?_ ?_ | apply State.countSat_stable hI.toStable | apply fault_stable hI.toStable | apply copyGran16_stable hI | split | refine (hI.toStable).rest _ _ _ _ _ _ _ _ _ _ _ _ _ _ _ _ _ _ _ _ ?_)

theorem execRowRemap_stable {I : State → Prop} (hI : StableAll I) {s s' : State} (h : I s) (pc : PChan) (b : Bank) (row : Fin 16384) (ht : execRowRemap pc b row s = .next s') : I s' := by
  cases ht
  with_reducible (repeat' first | assumption | intro _ | apply rowRemap_stable hI | split)

theorem scrubRead_stable {I : State → Prop} (hI : StableAll I) {s : State} (h : I s) (g : ℕ) : I (scrubRead s g) := by
  dsimp only [scrubRead]
  with_reducible (repeat' first | assumption | intro _ | apply monEvent_stable hI.toStable | apply portServe_stable hI.toStable | apply readGran_stable hI | refine snd_stable (by assumption) ?_ | refine fst_stable (by assumption) ?_ | refine third_stable (by assumption) ?_ | split | refine (hI.toStable).rest _ _ _ _ _ _ _ _ _ _ _ _ _ _ _ _ _ _ _ _ ?_)

theorem execScrubRead_stable {I : State → Prop} (hI : StableAll I) {s s' : State} (h : I s) (gran : ℕ) (ht : execScrubRead gran s = .next s') : I s' := by
  cases ht
  with_reducible (repeat' first | assumption | intro _ | apply scrubRead_stable hI | split)

theorem beginChange_stable {I : State → Prop} (hI : Stable I) {s : State} (h : I s) (pt : ℕ) : I (beginChange s pt) := by
  dsimp only [beginChange]
  with_reducible (repeat' first | assumption | intro _ | refine foldl_stable ?_ ?_ | apply stackOff_stable hI | apply planClose_stable hI | apply State.put_stable hI | split | refine hI.rest _ _ _ _ _ _ _ _ _ _ _ _ _ _ _ _ _ _ _ _ ?_)

theorem opGo_stable {I : State → Prop} (hI : Stable I) {s0 : State} (h : I s0) (pt : ℕ) : I (opGo s0 pt) := by
  dsimp only [opGo]
  with_reducible (repeat' first | assumption | intro _ | apply beginChange_stable hI | apply State.raise_stable hI | apply State.put_stable hI | split | refine hI.rest _ _ _ _ _ _ _ _ _ _ _ _ _ _ _ _ _ _ _ _ ?_)

theorem execOpGo_stable {I : State → Prop} (hI : Stable I) {s s' : State} (h : I s) (point : Fin 4) (ht : execOpGo point s = .next s') : I s' := by
  cases ht
  with_reducible (repeat' first | assumption | intro _ | apply opGo_stable hI | apply coreCmd_stable hI | split)

theorem passDue_stable {I : State → Prop} (hI : Stable I) {s : State} (h : I s)  : I (passDue s) := by
  dsimp only [passDue]
  with_reducible (repeat' first | assumption | intro _ | split | refine hI.rest _ _ _ _ _ _ _ _ _ _ _ _ _ _ _ _ _ _ _ _ ?_)

theorem proceed_stable {I : State → Prop} (hI : Stable I) {s : State} (h : I s)  : I (proceed s) := by
  dsimp only [proceed]
  with_reducible (repeat' first | assumption | intro _ | apply beginChange_stable hI | apply passDue_stable hI | apply State.put_stable hI | split)

theorem changeDone_stable {I : State → Prop} (hI : Stable I) {s : State} (h : I s) (k : ℕ) : I (changeDone s k) := by
  dsimp only [changeDone]
  with_reducible (repeat' first | assumption | intro _ | apply clearOwed_stable hI | apply stackOn_stable hI | refine State.when_stable ?_ _ _ ?_ | apply markOpen_stable hI | split | refine hI.rest _ _ _ _ _ _ _ _ _ _ _ _ _ _ _ _ _ _ _ _ ?_)

theorem opComplete_stable {I : State → Prop} (hI : Stable I) {s0 : State} (h : I s0)  : I (opComplete s0) := by
  dsimp only [opComplete]
  with_reducible (repeat' first | assumption | intro _ | refine foldl_stable ?_ ?_ | apply changeDone_stable hI | apply passDue_stable hI | apply State.put_stable hI | apply advanceNow_stable hI | split | refine hI.rest _ _ _ _ _ _ _ _ _ _ _ _ _ _ _ _ _ _ _ _ ?_)

theorem execOpChangeComplete_stable {I : State → Prop} (hI : Stable I) {s s' : State} (h : I s)  (ht : execOpChangeComplete s = .next s') : I s' := by
  cases ht
  with_reducible (repeat' first | assumption | intro _ | apply opComplete_stable hI | split)

theorem trainStart_stable {I : State → Prop} (hI : Stable I) {s : State} (h : I s)  : I (trainStart s) := by
  dsimp only [trainStart]
  with_reducible (repeat' first | assumption | intro _ | apply State.put_stable hI | apply advanceNow_stable hI | split | refine hI.rest _ _ _ _ _ _ _ _ _ _ _ _ _ _ _ _ _ _ _ _ ?_)

theorem execTrainPassStart_stable {I : State → Prop} (hI : Stable I) {s s' : State} (h : I s)  (ht : execTrainPassStart s = .next s') : I s' := by
  cases ht
  with_reducible (repeat' first | assumption | intro _ | apply trainStart_stable hI | split)

theorem takeCentre_stable {I : State → Prop} (hI : Stable I) {s : State} (h : I s) (c : DelayCentre) : I (takeCentre s c) := by
  dsimp only [takeCentre]
  with_reducible (repeat' first | assumption | intro _ | apply gatherCentre_stable hI | split)

theorem trainComplete_stable {I : State → Prop} (hI : Stable I) {s : State} (h : I s) (cs : List DelayCentre) : I (trainComplete s cs) := by
  dsimp only [trainComplete]
  with_reducible (repeat' first | assumption | intro _ | refine foldl_stable ?_ ?_ | apply proceed_stable hI | apply State.put_stable hI | apply takeCentre_stable hI | split | refine hI.rest _ _ _ _ _ _ _ _ _ _ _ _ _ _ _ _ _ _ _ _ ?_)

theorem execTrainPassComplete_stable {I : State → Prop} (hI : Stable I) {s s' : State} (h : I s) (centres : List DelayCentre) (ht : execTrainPassComplete centres s = .next s') : I s' := by
  cases ht
  with_reducible (repeat' first | assumption | intro _ | apply trainComplete_stable hI | split)

theorem trainAbort_stable {I : State → Prop} (hI : Stable I) {s : State} (h : I s)  : I (trainAbort s) := by
  dsimp only [trainAbort]
  with_reducible (repeat' first | assumption | intro _ | apply proceed_stable hI | apply fault_stable hI | apply State.raise_stable hI | apply State.put_stable hI | apply advanceNow_stable hI | split | refine hI.rest _ _ _ _ _ _ _ _ _ _ _ _ _ _ _ _ _ _ _ _ ?_)

theorem execTrainPassAbort_stable {I : State → Prop} (hI : Stable I) {s s' : State} (h : I s)  (ht : execTrainPassAbort s = .next s') : I s' := by
  cases ht
  with_reducible (repeat' first | assumption | intro _ | apply trainAbort_stable hI | split)

theorem execTrainLock_stable {I : State → Prop} (hI : Stable I) {s s' : State} (h : I s)  (ht : execTrainLock s = .next s') : I s' := by
  cases ht
  with_reducible (repeat' first | assumption | intro _ | apply State.put_stable hI | apply cfgCmd_stable hI | split)

theorem calUnable_stable {I : State → Prop} (hI : Stable I) {s : State} (h : I s) (unit : ℕ) (cause : ℕ) (part : ℕ) (lane : ℕ) (express : Bool) (second : Bool) : I (calUnable s unit cause part lane express second) := by
  dsimp only [calUnable]
  with_reducible (repeat' first | assumption | intro _ | apply fault_stable hI | apply State.raise_stable hI | split)

theorem laneUnable_stable {I : State → Prop} (hI : Stable I) {s : State} (h : I s) (e : ℕ) (cause : ℕ) (part : ℕ) (second : Bool) : I (laneUnable s e cause part second) := by
  dsimp only [laneUnable]
  with_reducible (repeat' first | assumption | intro _ | apply calUnable_stable hI | split)

theorem refReject_stable {I : State → Prop} (hI : Stable I) {s : State} (h : I s) (t : ℕ) (cause : ℕ) : I (refReject s t cause) := by
  dsimp only [refReject]
  with_reducible (repeat' first | assumption | intro _ | refine foldl_stable ?_ ?_ | apply allUntraced_stable hI | apply calUnable_stable hI | apply State.modW_stable hI | refine State.when_stable ?_ _ _ ?_ | split | refine hI.rest _ _ _ _ _ _ _ _ _ _ _ _ _ _ _ _ _ _ _ _ ?_)

theorem walkStart_stable {I : State → Prop} (hI : Stable I) {s : State} (h : I s) (t : ℕ) (rd : RefReading) : I (walkStart s t rd) := by
  dsimp only [walkStart]
  with_reducible (repeat' first | assumption | intro _ | apply State.setReg_stable hI | apply State.countSat_stable hI | apply setStale_stable hI | apply State.put_stable hI | apply refReject_stable hI | apply State.modW_stable hI | apply traceTable_stable hI | apply holdLanes_stable hI | split | refine hI.rest _ _ _ _ _ _ _ _ _ _ _ _ _ _ _ _ _ _ _ _ ?_)

theorem execWalkStart_stable {I : State → Prop} (hI : Stable I) {s s' : State} (h : I s) (t : TableId) (rd : RefReading) (ht : execWalkStart t rd s = .next s') : I s' := by
  cases ht
  with_reducible (repeat' first | assumption | intro _ | apply walkStart_stable hI | split)

theorem endRecal_stable {I : State → Prop} (hI : Stable I) {s : State} (h : I s) (t : ℕ) : I (endRecal s t) := by
  dsimp only [endRecal]
  with_reducible (repeat' first | assumption | intro _ | apply setStale_stable hI | apply showTemp_stable hI | apply State.modW_stable hI | refine State.when_stable ?_ _ _ ?_ | split)

theorem monDone_stable {I : State → Prop} (hI : Stable I) {s0 : State} (h : I s0) (n : ℕ) (uv : Word) : I (monDone s0 n uv) := by
  dsimp only [monDone]
  with_reducible (repeat' first | assumption | intro _ | apply State.setReg_stable hI | apply State.raise_stable hI | apply State.put_stable hI | apply endRecal_stable hI | apply advanceNow_stable hI | split)

theorem execMonDone_stable {I : State → Prop} (hI : Stable I) {s s' : State} (h : I s) (n : Room) (uv : Word) (ht : execMonDone n uv s = .next s') : I s' := by
  cases ht
  with_reducible (repeat' first | assumption | intro _ | apply monDone_stable hI | split)

theorem calVisit_stable {I : State → Prop} (hI : Stable I) {s : State} (h : I s) (e : ℕ) (part : PartKind) (v : List ℤ) : I (calVisit s e part v) := by
  dsimp only [calVisit]
  with_reducible (repeat' first | assumption | intro _ | apply State.put_stable hI | apply endRecal_stable hI | refine State.when_stable ?_ _ _ ?_ | apply State.modPart_stable hI | split)

theorem execCalVisit_stable {I : State → Prop} (hI : Stable I) {s s' : State} (h : I s) (e : Eng) (part : PartKind) (res : PartResult) (ht : execCalVisit e part res s = .next s') : I s' := by
  cases ht
  with_reducible (repeat' first | assumption | intro _ | apply calVisit_stable hI | split)

theorem acceptPart_stable {I : State → Prop} (hI : Stable I) {s : State} (h : I s) (e : ℕ) (n : ℕ) (v : List ℤ) (now_ : Bool) : I (acceptPart s e n v now_) := by
  dsimp only [acceptPart]
  with_reducible (repeat' first | assumption | intro _ | refine foldl_stable ?_ ?_ | apply State.modPart_stable hI | split)

theorem retirePart_stable {I : State → Prop} (hI : Stable I) {s : State} (h : I s) (e : ℕ) (n : ℕ) : I (retirePart s e n) := by
  dsimp only [retirePart]
  with_reducible (repeat' first | assumption | intro _ | apply State.modC_stable hI | apply fault_stable hI | apply State.put_stable hI | apply State.modPart_stable hI | split)

theorem holdPart_stable {I : State → Prop} (hI : Stable I) {s : State} (h : I s) (e : ℕ) (n : ℕ) : I (holdPart s e n) := by
  dsimp only [holdPart]
  with_reducible (repeat' first | assumption | intro _ | apply laneUnable_stable hI | apply State.modPart_stable hI | split)

theorem rejectPart_stable {I : State → Prop} (hI : Stable I) {s : State} (h : I s) (e : ℕ) (n : ℕ) : I (rejectPart s e n) := by
  dsimp only [rejectPart]
  with_reducible (repeat' first | assumption | intro _ | apply laneUnable_stable hI | apply State.modPart_stable hI | split)

theorem laterWalk_stable {I : State → Prop} (hI : Stable I) {s : State} (h : I s) (e : ℕ) (n : ℕ) (was : ℕ) : I (laterWalk s e n was) := by
  dsimp only [laterWalk]
  with_reducible (repeat' first | assumption | intro _ | apply laneUnable_stable hI | apply State.modPart_stable hI | split)

theorem judgePart_stable {I : State → Prop} (hI : Stable I) {s : State} (h : I s) (e : ℕ) (n : ℕ) (w : ℕ) (full : Bool) : I (judgePart s e n w full) := by
  dsimp only [judgePart]
  with_reducible (repeat' first | assumption | intro _ | apply acceptPart_stable hI | apply retirePart_stable hI | apply holdPart_stable hI | apply rejectPart_stable hI | apply State.modPart_stable hI | apply laterWalk_stable hI | split)

theorem judgeConv_stable {I : State → Prop} (hI : Stable I) {s : State} (h : I s) (t : ℕ) : I (judgeConv s t) := by
  dsimp only [judgeConv]
  with_reducible (repeat' first | assumption | intro _ | apply State.draw_stable hI | apply State.put_stable hI | apply calUnable_stable hI | apply State.modW_stable hI | refine State.when_stable ?_ _ _ ?_ | refine snd_stable (by assumption) ?_ | refine fst_stable (by assumption) ?_ | refine third_stable (by assumption) ?_ | split)

theorem walkEnd_stable {I : State → Prop} (hI : Stable I) {s0 : State} (h : I s0) (t : ℕ) : I (walkEnd s0 t) := by
  dsimp only [walkEnd]
  with_reducible (repeat' first | assumption | intro _ | refine foldl_stable ?_ ?_ | apply showMode_stable hI | apply judgeConv_stable hI | apply showInitial_stable hI | apply State.put_stable hI | apply endRecal_stable hI | apply State.modW_stable hI | apply advanceNow_stable hI | apply traceTable_stable hI | refine State.when_stable ?_ _ _ ?_ | apply releaseLanes_stable hI | apply State.modPart_stable hI | apply State.count_stable hI | apply judgePart_stable hI | apply laterWalk_stable hI | split)

theorem execWalkEnd_stable {I : State → Prop} (hI : Stable I) {s s' : State} (h : I s) (t : TableId) (ht : execWalkEnd t s = .next s') : I s' := by
  cases ht
  with_reducible (repeat' first | assumption | intro _ | apply walkEnd_stable hI | split)

theorem trimExchange_stable {I : State → Prop} (hI : Stable I) {s : State} (h : I s) (e : ℕ) (n : ℕ) : I (trimExchange s e n) := by
  dsimp only [trimExchange]
  with_reducible (repeat' first | assumption | intro _ | apply State.modC_stable hI | apply State.modPart_stable hI | apply showTrace_stable hI | split)

theorem execTrimExchange_stable {I : State → Prop} (hI : Stable I) {s s' : State} (h : I s) (e : Eng) (part : PartKind) (ht : execTrimExchange e part s = .next s') : I s' := by
  cases ht
  with_reducible (repeat' first | assumption | intro _ | apply trimExchange_stable hI | split)

theorem loadDecl_stable {I : State → Prop} (hI : Stable I) {s : State} (h : I s) (reft : Bool) (v : Word) : I (loadDecl s reft v) := by
  dsimp only [loadDecl]
  with_reducible (repeat' first | assumption | intro _ | apply State.raise_stable hI | apply State.put_stable hI | split)

theorem refDecl_stable {I : State → Prop} (hI : Stable I) {s : State} (h : I s) (reft : Bool) (v : ℕ) : I (refDecl s reft v) := by
  dsimp only [refDecl]
  with_reducible (repeat' first | assumption | intro _ | refine foldl_stable ?_ ?_ | apply State.mapParts_stable hI | apply allUntraced_stable hI | apply State.raise_stable hI | apply State.put_stable hI | apply State.modW_stable hI | split | refine hI.rest _ _ _ _ _ _ _ _ _ _ _ _ _ _ _ _ _ _ _ _ ?_)

theorem execRefDeclWrite_stable {I : State → Prop} (hI : Stable I) {s s' : State} (h : I s) (reft : Bool) (val : Word) (ht : execRefDeclWrite reft val s = .next s') : I s' := by
  cases ht
  with_reducible (repeat' first | assumption | intro _ | apply refDecl_stable hI | apply infraCmd_stable hI | split)

theorem calPause_stable {I : State → Prop} (hI : Stable I) {s : State} (h : I s) (on : Bool) : I (calPause s on) := by
  dsimp only [calPause]
  with_reducible (repeat' first | assumption | intro _ | refine foldl_stable ?_ ?_ | apply showMode_stable hI | apply State.put_stable hI | split)

theorem execCalPause_stable {I : State → Prop} (hI : Stable I) {s s' : State} (h : I s) (on : Bool) (ht : execCalPause on s = .next s') : I s' := by
  cases ht
  with_reducible (repeat' first | assumption | intro _ | apply calPause_stable hI | apply infraCmd_stable hI | split)

theorem fullWalk_stable {I : State → Prop} (hI : Stable I) {s : State} (h : I s) (t : ℕ) : I (fullWalk s t) := by
  dsimp only [fullWalk]
  with_reducible (repeat' first | assumption | intro _ | apply showMode_stable hI | apply stopWalk_stable hI | apply showInitial_stable hI | apply State.put_stable hI | apply State.modW_stable hI | apply holdLanes_stable hI | split)

theorem execFullWalk_stable {I : State → Prop} (hI : Stable I) {s s' : State} (h : I s) (t : TableId) (ht : execFullWalk t s = .next s') : I s' := by
  cases ht
  with_reducible (repeat' first | assumption | intro _ | apply fullWalk_stable hI | apply infraCmd_stable hI | split)

theorem fullWalkAbort_stable {I : State → Prop} (hI : Stable I) {s : State} (h : I s) (t : ℕ) : I (fullWalkAbort s t) := by
  dsimp only [fullWalkAbort]
  with_reducible (repeat' first | assumption | intro _ | apply showMode_stable hI | apply stopWalk_stable hI | apply State.put_stable hI | apply State.modW_stable hI | apply releaseLanes_stable hI | split)

theorem execFullWalkAbort_stable {I : State → Prop} (hI : Stable I) {s s' : State} (h : I s) (t : TableId) (ht : execFullWalkAbort t s = .next s') : I s' := by
  cases ht
  with_reducible (repeat' first | assumption | intro _ | apply fullWalkAbort_stable hI | apply infraCmd_stable hI | split)

theorem deskewGo_stable {I : State → Prop} (hI : Stable I) {s0 : State} (h : I s0) (avg : ℕ) : I (deskewGo s0 avg) := by
  dsimp only [deskewGo]
  with_reducible (repeat' first | assumption | intro _ | refine foldl_stable ?_ ?_ | apply State.modL_stable hI | apply State.put_stable hI | split | refine hI.rest _ _ _ _ _ _ _ _ _ _ _ _ _ _ _ _ _ _ _ _ ?_)

theorem execDeskewGo_stable {I : State → Prop} (hI : Stable I) {s s' : State} (h : I s) (avgLog2 : Fin 16) (ht : execDeskewGo avgLog2 s = .next s') : I s' := by
  cases ht
  with_reducible (repeat' first | assumption | intro _ | apply deskewGo_stable hI | apply infraCmd_stable hI | split)

theorem deskewAbort_stable {I : State → Prop} (hI : Stable I) {s : State} (h : I s)  : I (deskewAbort s) := by
  dsimp only [deskewAbort]
  with_reducible (repeat' first | assumption | intro _ | apply State.put_stable hI | apply endMeasure_stable hI | split | refine hI.rest _ _ _ _ _ _ _ _ _ _ _ _ _ _ _ _ _ _ _ _ ?_)

theorem execDeskewAbort_stable {I : State → Prop} (hI : Stable I) {s s' : State} (h : I s)  (ht : execDeskewAbort s = .next s') : I s' := by
  cases ht
  with_reducible (repeat' first | assumption | intro _ | apply infraCmd_stable hI | apply deskewAbort_stable hI | split)

theorem deskewLane_stable {I : State → Prop} (hI : Stable I) {s : State} (h : I s) (r : DeskewResult) : I (deskewLane s r) := by
  dsimp only [deskewLane]
  with_reducible (repeat' first | assumption | intro _ | apply State.countSat_stable hI | apply State.modC_stable hI | apply laneUnable_stable hI | apply State.put_stable hI | apply showTrace_stable hI | split)

theorem deskewComplete_stable {I : State → Prop} (hI : Stable I) {s : State} (h : I s) (rs : List DeskewResult) : I (deskewComplete s rs) := by
  dsimp only [deskewComplete]
  with_reducible (repeat' first | assumption | intro _ | refine foldl_stable ?_ ?_ | apply deskewLane_stable hI | apply State.put_stable hI | apply endMeasure_stable hI | split | refine hI.rest _ _ _ _ _ _ _ _ _ _ _ _ _ _ _ _ _ _ _ _ ?_)

theorem execDeskewComplete_stable {I : State → Prop} (hI : Stable I) {s s' : State} (h : I s) (results : List DeskewResult) (ht : execDeskewComplete results s = .next s') : I s' := by
  cases ht
  with_reducible (repeat' first | assumption | intro _ | apply deskewComplete_stable hI | split)

theorem traceStale_stable {I : State → Prop} (hI : Stable I) {s : State} (h : I s) (e : ℕ) : I (traceStale s e) := by
  dsimp only [traceStale]
  with_reducible (repeat' first | assumption | intro _ | apply advanceNow_stable hI | apply showTrace_stable hI | split)

theorem execTraceStale_stable {I : State → Prop} (hI : Stable I) {s s' : State} (h : I s) (e : Eng) (ht : execTraceStale e s = .next s') : I s' := by
  cases ht
  with_reducible (repeat' first | assumption | intro _ | apply traceStale_stable hI | split)

theorem gotField_stable {I : State → Prop} (hI : Stable I) {s : State} (h : I s) (m : Msg) : I (gotField s m) := by
  dsimp only [gotField]
  with_reducible (repeat' first | assumption | intro _ | apply State.modP_stable hI | apply monEvent_stable hI | split)

theorem gotHost_stable {I : State → Prop} (hI : Stable I) {s : State} (h : I s) (m : Msg) : I (gotHost s m) := by
  dsimp only [gotHost]
  with_reducible (repeat' first | assumption | intro _ | apply State.modP_stable hI | split)

theorem dmaWord6_stable {I : State → Prop} (hI : Stable I) {s : State} (h : I s) (i : ℕ) (st : ℕ) (sent : ℕ) : I (dmaWord6 s i st sent) := by
  dsimp only [dmaWord6]
  with_reducible (repeat' first | assumption | intro _ | apply State.modD_stable hI | split)

theorem dmaHalt_stable {I : State → Prop} (hI : Stable I) {s : State} (h : I s) (i : ℕ) (st : ℕ) : I (dmaHalt s i st) := by
  dsimp only [dmaHalt]
  with_reducible (repeat' first | assumption | intro _ | apply raiseVector_stable hI | apply State.put_stable hI | apply dmaWord6_stable hI | split)

theorem dmaDone_stable {I : State → Prop} (hI : Stable I) {s : State} (h : I s) (i : ℕ) (d : DmaDesc) : I (dmaDone s i d) := by
  dsimp only [dmaDone]
  with_reducible (repeat' first | assumption | intro _ | apply raiseVector_stable hI | apply State.put_stable hI | apply dmaWord6_stable hI | apply State.modD_stable hI | refine State.when_stable ?_ _ _ ?_ | split)

theorem dmaRun_stable {I : State → Prop} (hI : Stable I) {s : State} (h : I s) (i n : ℕ) : I (dmaRun s i n) := by
  induction n generalizing s with
  | zero => exact h
  | succ n ih =>
    simp only [dmaRun]
    split
    · exact h
    split
    · exact h
    have h1 : ∀ g v, I ((s.modD i g).put (F.dmaq_stat_busy i) v) := fun g v => State.put_stable hI (State.modD_stable hI h _ _) _ _
    split
    · exact dmaHalt_stable hI (h1 _ _) _ _
    split
    · exact ih (dmaDone_stable hI (h1 _ _) _ _)
    split
    · exact dmaHalt_stable hI (h1 _ _) _ _
    · exact h1 _ _

theorem dmaGo_stable {I : State → Prop} (hI : Stable I) {s : State} (h : I s) (i : ℕ) : I (dmaGo s i) := by
  dsimp only [dmaGo]
  with_reducible (repeat' first | assumption | intro _ | apply dmaRun_stable hI | split)

theorem drawDescs_stable {I : State → Prop} (hI : Stable I) (n : ℕ) {s : State} (h : I s) : I (drawDescs n s).2 := by
  induction n generalizing s with
  | zero => exact h
  | succ n ih =>
    exact ih (State.draw_stable hI (State.draw_stable hI (State.draw_stable hI (State.draw_stable hI (State.draw_stable hI
      (State.draw_stable hI h))))))

theorem dmaTail_stable {I : State → Prop} (hI : Stable I) {s : State} (h : I s) (i : ℕ) (tail : ℕ) (descs : List DmaDesc) : I (dmaTail s i tail descs) := by
  dsimp only [dmaTail]
  with_reducible (repeat' first | assumption | intro _ | apply drawDescs_stable hI | apply State.put_stable hI | apply State.modD_stable hI | apply dmaGo_stable hI | refine snd_stable (by assumption) ?_ | refine fst_stable (by assumption) ?_ | refine third_stable (by assumption) ?_ | split)

theorem execDmaQtail_stable {I : State → Prop} (hI : Stable I) {s s' : State} (h : I s) (i : Fin 4) (tail : BitVec 12) (descs : List DmaDesc) (ht : execDmaQtail i tail descs s = .next s') : I s' := by
  cases ht
  with_reducible (repeat' first | assumption | intro _ | apply dmaTail_stable hI | split)

theorem dmaComplete_stable {I : State → Prop} (hI : Stable I) {s : State} (h : I s) (i : ℕ) (err : Bool) : I (dmaComplete s i err) := by
  dsimp only [dmaComplete]
  with_reducible (repeat' first | assumption | intro _ | apply State.draw_stable hI | apply dmaHalt_stable hI | apply dmaGo_stable hI | apply hostFault_stable hI | apply dmaDone_stable hI | refine snd_stable (by assumption) ?_ | refine fst_stable (by assumption) ?_ | refine third_stable (by assumption) ?_ | split)

theorem execDmaDescComplete_stable {I : State → Prop} (hI : Stable I) {s s' : State} (h : I s) (i : Fin 4) (err : Bool) (ht : execDmaDescComplete i err s = .next s') : I s' := by
  cases ht
  with_reducible (repeat' first | assumption | intro _ | apply dmaComplete_stable hI | split)

theorem dmaRestart_stable {I : State → Prop} (hI : Stable I) {s : State} (h : I s) (i : ℕ) : I (dmaRestart s i) := by
  dsimp only [dmaRestart]
  with_reducible (repeat' first | assumption | intro _ | apply State.put_stable hI | apply dmaGo_stable hI | split)

theorem execDmaRestart_stable {I : State → Prop} (hI : Stable I) {s s' : State} (h : I s) (i : Fin 4) (ht : execDmaRestart i s = .next s') : I s' := by
  cases ht
  with_reducible (repeat' first | assumption | intro _ | apply dmaRestart_stable hI | split)

theorem dmaAbort_stable {I : State → Prop} (hI : Stable I) {s : State} (h : I s) (i : ℕ) : I (dmaAbort s i) := by
  dsimp only [dmaAbort]
  with_reducible (repeat' first | assumption | intro _ | apply dmaHalt_stable hI | apply State.put_stable hI | split)

theorem execDmaAbort_stable {I : State → Prop} (hI : Stable I) {s s' : State} (h : I s) (i : Fin 4) (ht : execDmaAbort i s = .next s') : I s' := by
  cases ht
  with_reducible (repeat' first | assumption | intro _ | apply dmaAbort_stable hI | split)

theorem dmaEnable_stable {I : State → Prop} (hI : Stable I) {s : State} (h : I s) (i : ℕ) (on : Bool) : I (dmaEnable s i on) := by
  dsimp only [dmaEnable]
  with_reducible (repeat' first | assumption | intro _ | apply State.put_stable hI | apply dmaGo_stable hI | split)

theorem dmaSent_stable {I : State → Prop} (hI : Stable I) {s : State} (h : I s) (r : ℕ) (first : ℕ) (k : ℕ) (n : ℕ) : I (dmaSent s r first k n) := by
  dsimp only [dmaSent]
  with_reducible (repeat' first | assumption | intro _ | refine foldl_stable ?_ ?_ | apply State.modD_stable hI | split)

theorem foreignFrame_stable {I : State → Prop} (hI : Stable I) {s : State} (h : I s) (dest : Side) (type : ℕ) : I (foreignFrame s dest type) := by
  dsimp only [foreignFrame]
  with_reducible (repeat' first | assumption | intro _ | apply State.countSat_stable hI | apply monEvent_stable hI | apply hostFault_stable hI | split)

theorem streamData_stable {I : State → Prop} (hI : StableAll I) {s : State} (h : I s) (r : ℕ) (first : ℕ) (k : ℕ) (slog : ℕ) (data : List Granule) : I (streamData s r first k slog data) := by
  dsimp only [streamData]
  with_reducible (repeat' first | assumption | intro _ | apply State.countSat_stable hI.toStable | apply dmaSent_stable hI.toStable | apply foreignFrame_stable hI.toStable | apply streamIn_stable hI | apply gotField_stable hI.toStable | split)

theorem execStreamData_stable {I : State → Prop} (hI : StableAll I) {s s' : State} (h : I s) (ring : Fin 256) (first : Word) (firstSlice : BitVec 7) (slog : Fin 8) (data : List Granule) (ht : execStreamData ring first firstSlice slog data s = .next s') : I s' := by
  cases ht
  with_reducible (repeat' first | assumption | intro _ | apply streamData_stable hI | split)

theorem streamCredit_stable {I : State → Prop} (hI : Stable I) {s : State} (h : I s) (r : ℕ) (rptr : Word) (limit : Word) (slog : Fin 8) : I (streamCredit s r rptr limit slog) := by
  dsimp only [streamCredit]
  with_reducible (repeat' first | assumption | intro _ | refine foldl_stable ?_ ?_ | apply dmaHalt_stable hI | apply State.modP_stable hI | apply gotHost_stable hI | split)

theorem execStreamCredit_stable {I : State → Prop} (hI : Stable I) {s s' : State} (h : I s) (ring : Fin 256) (rptr : Word) (limit : Word) (slog : Fin 8) (ht : execStreamCredit ring rptr limit slog s = .next s') : I s' := by
  cases ht
  with_reducible (repeat' first | assumption | intro _ | apply streamCredit_stable hI | split)

theorem execIrq_stable {I : State → Prop} (hI : Stable I) {s s' : State} (h : I s) (v : Fin 64) (ht : execIrq v s = .next s') : I s' := by
  cases ht
  with_reducible (repeat' first | assumption | intro _ | apply raiseVector_stable hI | refine State.when_stable ?_ _ _ ?_ | apply gotHost_stable hI | split)

theorem execFaultNotice_stable {I : State → Prop} (hI : Stable I) {s s' : State} (h : I s) (w0 : Word) (w1 : Word) (w2 : Word) (w3 : Word) (ht : execFaultNotice w0 w1 w2 w3 s = .next s') : I s' := by
  cases ht
  with_reducible (repeat' first | assumption | intro _ | apply State.modP_stable hI | apply gotHost_stable hI | split)

theorem aliveState_stable {I : State → Prop} (hI : Stable I) {s : State} (h : I s) (dest : Side) (alive : Fin 4) (house : BitVec 64) (valid : Bool) : I (aliveState s dest alive house valid) := by
  dsimp only [aliveState]
  with_reducible (repeat' first | assumption | intro _ | apply State.modP_stable hI | apply State.put_stable hI | apply gotHost_stable hI | apply gotField_stable hI | split)

theorem execAliveState_stable {I : State → Prop} (hI : Stable I) {s s' : State} (h : I s) (dest : Side) (alive : Fin 4) (house : BitVec 64) (valid : Bool) (ht : execAliveState dest alive house valid s = .next s') : I s' := by
  cases ht
  with_reducible (repeat' first | assumption | intro _ | apply aliveState_stable hI | split)

theorem versionHello_stable {I : State → Prop} (hI : Stable I) {s : State} (h : I s) (dest : Side) (mask : Word) : I (versionHello s dest mask) := by
  dsimp only [versionHello]
  with_reducible (repeat' first | assumption | intro _ | apply State.modP_stable hI | apply gotHost_stable hI | apply gotField_stable hI | split)

theorem execVersionHello_stable {I : State → Prop} (hI : Stable I) {s s' : State} (h : I s) (dest : Side) (mask : Word) (ht : execVersionHello dest mask s = .next s') : I s' := by
  cases ht
  with_reducible (repeat' first | assumption | intro _ | apply versionHello_stable hI | split)

theorem execForeignFrame_stable {I : State → Prop} (hI : Stable I) {s s' : State} (h : I s) (dest : Side) (type : BitVec 8) (ht : execForeignFrame dest type s = .next s') : I s' := by
  cases ht
  with_reducible (repeat' first | assumption | intro _ | apply foreignFrame_stable hI | split)

theorem porchUp_stable {I : State → Prop} (hI : Stable I) {s : State} (h : I s)  : I (porchUp s) := by
  dsimp only [porchUp]
  with_reducible (repeat' first | assumption | intro _ | refine foldl_stable ?_ ?_ | apply raiseVector_stable hI | apply sendAliveHost_stable hI | apply State.modP_stable hI | apply sendCredit_stable hI | apply State.raise_stable hI | apply State.put_stable hI | apply irqField_stable hI | refine State.when_stable ?_ _ _ ?_ | apply sendAliveField_stable hI | split)

theorem execPorchUp_stable {I : State → Prop} (hI : Stable I) {s s' : State} (h : I s)  (ht : execPorchUp s = .next s') : I s' := by
  cases ht
  with_reducible (repeat' first | assumption | intro _ | apply porchUp_stable hI | split)

theorem finishWrite_stable {I : State → Prop} (hI : StableAll I) {s : State} (h : I s)  : I (finishWrite s) := by
  dsimp only [finishWrite]
  with_reducible (repeat' first | assumption | intro _ | apply writeGrans_stable hI | split)

theorem dropWaiting_stable {I : State → Prop} (hI : StableAll I) {s : State} (h : I s)  : I (dropWaiting s) := by
  dsimp only [dropWaiting]
  with_reducible (repeat' first | assumption | intro _ | apply finishWrite_stable hI | apply State.modP_stable hI.toStable | split | refine (hI.toStable).rest _ _ _ _ _ _ _ _ _ _ _ _ _ _ _ _ _ _ _ _ ?_)

theorem porchDownF_stable {I : State → Prop} (hI : StableAll I) {s0 : State} (h : I s0)  : I (porchDownF s0) := by
  dsimp only [porchDownF]
  with_reducible (repeat' first | assumption | intro _ | apply State.modP_stable hI.toStable | apply dropWaiting_stable hI | apply State.raise_stable hI.toStable | apply State.put_stable hI.toStable | split)

theorem porchDownH_stable {I : State → Prop} (hI : Stable I) {s : State} (h : I s)  : I (porchDownH s) := by
  dsimp only [porchDownH]
  with_reducible (repeat' first | assumption | intro _ | refine foldl_stable ?_ ?_ | apply State.setReg_stable hI | apply State.countSat_stable hI | apply dmaHalt_stable hI | apply State.modP_stable hI | apply State.put_stable hI | apply hostFault_stable hI | split)

theorem porchDown_stable {I : State → Prop} (hI : StableAll I) {s : State} (h : I s)  : I (porchDown s) := by
  dsimp only [porchDown]
  with_reducible (repeat' first | assumption | intro _ | apply porchDownH_stable hI.toStable | apply porchDownF_stable hI | split)

theorem execPorchDown_stable {I : State → Prop} (hI : StableAll I) {s s' : State} (h : I s) (why : PorchDown) (ht : execPorchDown why s = .next s') : I s' := by
  cases ht
  with_reducible (repeat' first | assumption | intro _ | apply porchDown_stable hI | split)

theorem crossingFail_stable {I : State → Prop} (hI : StableAll I) {s : State} (h : I s) (x : ℕ) : I (crossingFail s x) := by
  dsimp only [crossingFail]
  with_reducible (repeat' first | assumption | intro _ | apply porchDown_stable hI | apply fault_stable hI.toStable | apply State.put_stable hI.toStable | apply hostFault_stable hI.toStable | split)

theorem execCrossingFail_stable {I : State → Prop} (hI : StableAll I) {s s' : State} (h : I s) (x : Fin 18) (ht : execCrossingFail x s = .next s') : I s' := by
  cases ht
  with_reducible (repeat' first | assumption | intro _ | apply crossingFail_stable hI | split)

theorem porchRetry_stable {I : State → Prop} (hI : StableAll I) {s : State} (h : I s) (sender : Side) : I (porchRetry s sender) := by
  dsimp only [porchRetry]
  with_reducible (repeat' first | assumption | intro _ | apply State.countSat_stable hI.toStable | apply State.modP_stable hI.toStable | apply porchDown_stable hI | apply monEvent_stable hI.toStable | split)

theorem gotPacket_stable {I : State → Prop} (hI : Stable I) {s : State} (h : I s) (p : ℕ) : I (gotPacket s p) := by
  dsimp only [gotPacket]
  with_reducible (repeat' first | assumption | intro _ | apply monEvent_stable hI | split | refine hI.rest _ _ _ _ _ _ _ _ _ _ _ _ _ _ _ _ _ _ _ _ ?_)

theorem gotFrom_stable {I : State → Prop} (hI : Stable I) {s : State} (h : I s) (h : ℕ) : I (gotFrom s h) := by
  dsimp only [gotFrom]
  with_reducible (repeat' first | assumption | intro _ | apply gotPacket_stable hI | split)

theorem censusRecord_stable {I : State → Prop} (hI : Stable I) {s : State} (h : I s) (h : ℕ) : I (censusRecord s h) := by
  dsimp only [censusRecord]
  with_reducible (repeat' first | assumption | intro _ | apply fault_stable hI | apply State.raise_stable hI | split)

theorem putEntry_stable {I : State → Prop} (hI : Stable I) {s : State} (h : I s) (h : ℕ) (u : ℕ) (f : ℕ) (st : ℕ) (v2 : Bool) : I (putEntry s h u f st v2) := by
  dsimp only [putEntry]
  with_reducible (repeat' first | assumption | intro _ | apply State.put_stable hI | apply State.putPair_stable hI | split)

theorem floodCensus_stable {I : State → Prop} (hI : Stable I) {s : State} (h : I s) (hs : List ℕ) : I (floodCensus s hs) := by
  dsimp only [floodCensus]
  with_reducible (repeat' first | assumption | intro _ | apply fabFlood_stable hI | split | refine hI.rest _ _ _ _ _ _ _ _ _ _ _ _ _ _ _ _ _ _ _ _ ?_)

theorem topology_stable {I : State → Prop} (hI : Stable I) {s : State} (h : I s)  : I (topology s) := by
  dsimp only [topology]
  with_reducible (repeat' first | assumption | intro _ | refine foldl_stable ?_ ?_ | apply floodCensus_stable hI | apply censusRecord_stable hI | apply State.put_stable hI | split | refine hI.rest _ _ _ _ _ _ _ _ _ _ _ _ _ _ _ _ _ _ _ _ ?_)

theorem takeParent_stable {I : State → Prop} (hI : Stable I) {s : State} (h : I s) (p : ℕ) : I (takeParent s p) := by
  dsimp only [takeParent]
  with_reducible (repeat' first | assumption | intro _ | apply State.put_stable hI | split | refine hI.rest _ _ _ _ _ _ _ _ _ _ _ _ _ _ _ _ _ _ _ _ ?_)

theorem chooseParent_stable {I : State → Prop} (hI : Stable I) {s : State} (h : I s)  : I (chooseParent s) := by
  dsimp only [chooseParent]
  with_reducible (repeat' first | assumption | intro _ | apply takeParent_stable hI | split | refine hI.rest _ _ _ _ _ _ _ _ _ _ _ _ _ _ _ _ _ _ _ _ ?_)

theorem fabChanged_stable {I : State → Prop} (hI : Stable I) {s : State} (h : I s)  : I (fabChanged s) := by
  dsimp only [fabChanged]
  with_reducible (repeat' first | assumption | intro _ | apply chooseParent_stable hI | apply topology_stable hI | split)

theorem sendLsa_stable {I : State → Prop} (hI : Stable I) {s : State} (h : I s)  : I (sendLsa s) := by
  dsimp only [sendLsa]
  with_reducible (repeat' first | assumption | intro _ | apply fabFlood_stable hI | split | refine hI.rest _ _ _ _ _ _ _ _ _ _ _ _ _ _ _ _ _ _ _ _ ?_)

theorem makeGuest_stable {I : State → Prop} (hI : Stable I) {s : State} (h : I s) (h : ℕ) (u : BitVec 64) (f : BitVec 64) (v2 : Bool) : I (makeGuest s h u f v2) := by
  dsimp only [makeGuest]
  with_reducible (repeat' first | assumption | intro _ | apply censusRecord_stable hI | apply State.raise_stable hI | apply State.put_stable hI | apply putEntry_stable hI | split | refine hI.rest _ _ _ _ _ _ _ _ _ _ _ _ _ _ _ _ _ _ _ _ ?_)

theorem makeMember_stable {I : State → Prop} (hI : Stable I) {s : State} (h : I s) (h : ℕ) (u : BitVec 64) (f : BitVec 64) (v2 : Bool) : I (makeMember s h u f v2) := by
  dsimp only [makeMember]
  with_reducible (repeat' first | assumption | intro _ | apply censusRecord_stable hI | apply putEntry_stable hI | split)

theorem joinDevice_stable {I : State → Prop} (hI : Stable I) {s : State} (h : I s) (p : ℕ) : I (joinDevice s p) := by
  dsimp only [joinDevice]
  with_reducible (repeat' first | assumption | intro _ | apply floodCensus_stable hI | apply makeMember_stable hI | apply makeGuest_stable hI | split | refine hI.rest _ _ _ _ _ _ _ _ _ _ _ _ _ _ _ _ _ _ _ _ ?_)

theorem rootTime_stable {I : State → Prop} (hI : Stable I) {s : State} (h : I s)  : I (rootTime s) := by
  dsimp only [rootTime]
  with_reducible (repeat' first | assumption | intro _ | apply State.put_stable hI | split | refine hI.rest _ _ _ _ _ _ _ _ _ _ _ _ _ _ _ _ _ _ _ _ ?_)

theorem formCensus_stable {I : State → Prop} (hI : Stable I) {s : State} (h : I s)  : I (formCensus s) := by
  dsimp only [formCensus]
  with_reducible (repeat' first | assumption | intro _ | refine foldl_stable ?_ ?_ | apply makeMember_stable hI | apply rootTime_stable hI | apply State.put_stable hI | apply State.putPair_stable hI | apply joinDevice_stable hI | split)

theorem linkNew_stable {I : State → Prop} (hI : Stable I) {s : State} (h : I s) (p : ℕ) : I (linkNew s p) := by
  dsimp only [linkNew]
  with_reducible (repeat' first | assumption | intro _ | apply fabChanged_stable hI | apply joinDevice_stable hI | apply sendLsa_stable hI | apply formCensus_stable hI | split | refine hI.rest _ _ _ _ _ _ _ _ _ _ _ _ _ _ _ _ _ _ _ _ ?_)

theorem portGone_stable {I : State → Prop} (hI : Stable I) {s : State} (h : I s) (p : ℕ) : I (portGone s p) := by
  dsimp only [portGone]
  with_reducible (repeat' first | assumption | intro _ | apply fabChanged_stable hI | apply sendLsa_stable hI | split | refine hI.rest _ _ _ _ _ _ _ _ _ _ _ _ _ _ _ _ _ _ _ _ ?_)

theorem downPort_stable {I : State → Prop} (hI : Stable I) {s : State} (h : I s) (p : ℕ) (r : ℕ) : I (downPort s p r) := by
  dsimp only [downPort]
  with_reducible (repeat' first | assumption | intro _ | apply portAnnounceDown_stable hI | apply fault_stable hI | apply State.put_stable hI | apply portGone_stable hI | split)

theorem execPortDown_stable {I : State → Prop} (hI : Stable I) {s s' : State} (h : I s) (p : FPort) (why : DownReason) (ht : execPortDown p why s = .next s') : I s' := by
  cases ht
  with_reducible (repeat' first | assumption | intro _ | apply downPort_stable hI | split)

theorem fabLaneFail_stable {I : State → Prop} (hI : Stable I) {s : State} (h : I s) (p : ℕ) (lane : ℕ) : I (fabLaneFail s p lane) := by
  dsimp only [fabLaneFail]
  with_reducible (repeat' first | assumption | intro _ | apply fault_stable hI | apply State.put_stable hI | apply downPort_stable hI | split)

theorem execFabLaneFail_stable {I : State → Prop} (hI : Stable I) {s s' : State} (h : I s) (p : FPort) (lane : Fin 4) (ht : execFabLaneFail p lane s = .next s') : I s' := by
  cases ht
  with_reducible (repeat' first | assumption | intro _ | apply fabLaneFail_stable hI | split)

theorem hello_stable {I : State → Prop} (hI : Stable I) {s : State} (h : I s) (p : ℕ) (uid : BitVec 64) (mask : Word) (fpr : BitVec 64) (port : ℕ) : I (hello s p uid mask fpr port) := by
  dsimp only [hello]
  with_reducible (repeat' first | assumption | intro _ | apply linkNew_stable hI | apply planClose_stable hI | apply State.put_stable hI | apply downPort_stable hI | apply State.putPair_stable hI | apply gotPacket_stable hI | split | refine hI.rest _ _ _ _ _ _ _ _ _ _ _ _ _ _ _ _ _ _ _ _ ?_)

theorem execHello_stable {I : State → Prop} (hI : Stable I) {s s' : State} (h : I s) (p : FPort) (uid : BitVec 64) (mask : Word) (fpr : BitVec 64) (port : FPort) (ht : execHello p uid mask fpr port s = .next s') : I s' := by
  cases ht
  with_reducible (repeat' first | assumption | intro _ | apply hello_stable hI | split)

theorem portLinkUp_stable {I : State → Prop} (hI : Stable I) {s : State} (h : I s) (p : ℕ) : I (portLinkUp s p) := by
  dsimp only [portLinkUp]
  with_reducible (repeat' first | assumption | intro _ | apply linkNew_stable hI | apply monEvent_stable hI | apply State.put_stable hI | split)

theorem execPortLinkUp_stable {I : State → Prop} (hI : Stable I) {s s' : State} (h : I s) (p : FPort) (ht : execPortLinkUp p s = .next s') : I s' := by
  cases ht
  with_reducible (repeat' first | assumption | intro _ | apply portLinkUp_stable hI | split)

theorem lsaIn_stable {I : State → Prop} (hI : Stable I) {s : State} (h : I s) (src : ℕ) (seq : ℕ) (links : List LsaLink) : I (lsaIn s src seq links) := by
  dsimp only [lsaIn]
  with_reducible (repeat' first | assumption | intro _ | apply fabChanged_stable hI | apply gotFrom_stable hI | split | refine hI.rest _ _ _ _ _ _ _ _ _ _ _ _ _ _ _ _ _ _ _ _ ?_)

theorem execLsa_stable {I : State → Prop} (hI : Stable I) {s s' : State} (h : I s) (src : House) (seq : Word) (links : List LsaLink) (ht : execLsa src seq links s = .next s') : I s' := by
  cases ht
  with_reducible (repeat' first | assumption | intro _ | apply lsaIn_stable hI | split)

theorem applyEntry_stable {I : State → Prop} (hI : Stable I) {s : State} (h : I s) (e : CensusEntry) : I (applyEntry s e) := by
  dsimp only [applyEntry]
  with_reducible (repeat' first | assumption | intro _ | apply censusRecord_stable hI | apply State.raise_stable hI | apply putEntry_stable hI | refine State.when_stable ?_ _ _ ?_ | split | refine hI.rest _ _ _ _ _ _ _ _ _ _ _ _ _ _ _ _ _ _ _ _ ?_)

theorem applyCensus_stable {I : State → Prop} (hI : Stable I) {s : State} (h : I s) (seq : ℕ) (own : ℕ) (entries : List CensusEntry) : I (applyCensus s seq own entries) := by
  dsimp only [applyCensus]
  with_reducible (repeat' first | assumption | intro _ | refine foldl_stable ?_ ?_ | apply fabChanged_stable hI | apply applyEntry_stable hI | apply State.raise_stable hI | apply State.put_stable hI | refine State.when_stable ?_ _ _ ?_ | split | refine hI.rest _ _ _ _ _ _ _ _ _ _ _ _ _ _ _ _ _ _ _ _ ?_)

theorem mergeEntry_stable {I : State → Prop} (hI : Stable I) {s : State} (h : I s) (e : CensusEntry) : I (mergeEntry s e) := by
  dsimp only [mergeEntry]
  with_reducible (repeat' first | assumption | intro _ | apply floodCensus_stable hI | apply censusRecord_stable hI | apply putEntry_stable hI | split)

theorem dropCensus_stable {I : State → Prop} (hI : Stable I) {s : State} (h : I s)  : I (dropCensus s) := by
  dsimp only [dropCensus]
  with_reducible (repeat' first | assumption | intro _ | refine foldl_stable ?_ ?_ | apply putEntry_stable hI | split | refine hI.rest _ _ _ _ _ _ _ _ _ _ _ _ _ _ _ _ _ _ _ _ ?_)

theorem censusIn_stable {I : State → Prop} (hI : Stable I) {s : State} (h : I s) (seq : ℕ) (keeper : ℕ) (own : ℕ) (entries : List CensusEntry) : I (censusIn s seq keeper own entries) := by
  dsimp only [censusIn]
  with_reducible (repeat' first | assumption | intro _ | refine foldl_stable ?_ ?_ | apply fabChanged_stable hI | apply linkNew_stable hI | apply dropCensus_stable hI | apply State.putPair_stable hI | apply applyCensus_stable hI | apply mergeEntry_stable hI | apply gotPacket_stable hI | split)

theorem execCensus_stable {I : State → Prop} (hI : Stable I) {s s' : State} (h : I s) (seq : Word) (keeper : BitVec 64) (own : House) (entries : List CensusEntry) (ht : execCensus seq keeper own entries s = .next s') : I s' := by
  cases ht
  with_reducible (repeat' first | assumption | intro _ | apply censusIn_stable hI | split)

theorem keeperTimeout_stable {I : State → Prop} (hI : Stable I) {s : State} (h : I s)  : I (keeperTimeout s) := by
  dsimp only [keeperTimeout]
  with_reducible (repeat' first | assumption | intro _ | apply fabChanged_stable hI | apply floodCensus_stable hI | apply rootTime_stable hI | apply State.put_stable hI | apply State.putPair_stable hI | split)

theorem execKeeperTimeout_stable {I : State → Prop} (hI : Stable I) {s s' : State} (h : I s)  (ht : execKeeperTimeout s = .next s') : I s' := by
  cases ht
  with_reducible (repeat' first | assumption | intro _ | apply keeperTimeout_stable hI | split)

theorem admitGuest_stable {I : State → Prop} (hI : Stable I) {s : State} (h : I s) (h : ℕ) (err : State → State) (herr : ∀ u, I u → I (err u)) : I (admitGuest s h err) := by
  dsimp only [admitGuest]
  with_reducible (repeat' first | assumption | intro _ | apply fabChanged_stable hI | apply floodCensus_stable hI | apply State.raise_stable hI | apply putEntry_stable hI | apply herr | split | refine hI.rest _ _ _ _ _ _ _ _ _ _ _ _ _ _ _ _ _ _ _ _ ?_)

theorem admitIn_stable {I : State → Prop} (hI : Stable I) {s : State} (h : I s) (n : ℕ) : I (admitIn s n) := by
  unfold admitIn
  split
  · exact admitGuest_stable hI (gotFrom_stable hI h _) _ _ fun u hu => hu
  · exact h

theorem execCensusAdmitOne_stable {I : State → Prop} (hI : Stable I) {s s' : State} (h : I s) (house : House) (ht : execCensusAdmitOne house s = .next s') : I s' := by
  cases ht
  with_reducible (repeat' first | assumption | intro _ | apply admitIn_stable hI | split)

theorem censusAdmit_stable {I : State → Prop} (hI : Stable I) {s0 : State} (h : I s0) (h : ℕ) : I (censusAdmit s0 h) := by
  dsimp only [censusAdmit]
  with_reducible (repeat' first | assumption | intro _ | apply admitGuest_stable hI | apply fabSend_stable hI | apply State.raise_stable hI | apply State.put_stable hI | split | refine hI.rest _ _ _ _ _ _ _ _ _ _ _ _ _ _ _ _ _ _ _ _ ?_)

theorem execCensusAdmit_stable {I : State → Prop} (hI : Stable I) {s s' : State} (h : I s) (house : House) (ht : execCensusAdmit house s = .next s') : I s' := by
  cases ht
  with_reducible (repeat' first | assumption | intro _ | apply censusAdmit_stable hI | apply coreCmd_stable hI | split)

theorem censusForget_stable {I : State → Prop} (hI : Stable I) {s0 : State} (h : I s0) (h : ℕ) : I (censusForget s0 h) := by
  dsimp only [censusForget]
  with_reducible (repeat' first | assumption | intro _ | apply floodCensus_stable hI | apply State.raise_stable hI | apply State.put_stable hI | apply putEntry_stable hI | split)

theorem execCensusForget_stable {I : State → Prop} (hI : Stable I) {s s' : State} (h : I s) (house : House) (ht : execCensusForget house s = .next s') : I s' := by
  cases ht
  with_reducible (repeat' first | assumption | intro _ | apply coreCmd_stable hI | apply censusForget_stable hI | split)

theorem timeReq_stable {I : State → Prop} (hI : Stable I) {s : State} (h : I s) (p : ℕ) : I (timeReq s p) := by
  dsimp only [timeReq]
  with_reducible (repeat' first | assumption | intro _ | apply monEvent_stable hI | split | refine hI.rest _ _ _ _ _ _ _ _ _ _ _ _ _ _ _ _ _ _ _ _ ?_)

theorem execTimeReq_stable {I : State → Prop} (hI : Stable I) {s s' : State} (h : I s) (p : FPort) (ht : execTimeReq p s = .next s') : I s' := by
  cases ht
  with_reducible (repeat' first | assumption | intro _ | apply timeReq_stable hI | split)

theorem discipline_stable {I : State → Prop} (hI : Stable I) {s : State} (h : I s) (parentValid : Bool) : I (discipline s parentValid) := by
  dsimp only [discipline]
  with_reducible (repeat' first | assumption | intro _ | apply State.put_stable hI | split | refine hI.rest _ _ _ _ _ _ _ _ _ _ _ _ _ _ _ _ _ _ _ _ ?_)

theorem timeRsp_stable {I : State → Prop} (hI : Stable I) {s : State} (h : I s) (p : ℕ) (t1 : ℤ) (t2 : ℤ) (t3 : ℤ) (t4 : ℤ) (valid : Bool) : I (timeRsp s p t1 t2 t3 t4 valid) := by
  dsimp only [timeRsp]
  with_reducible (repeat' first | assumption | intro _ | apply discipline_stable hI | apply State.put_stable hI | apply State.count_stable hI | apply gotPacket_stable hI | apply chooseParent_stable hI | split | refine hI.rest _ _ _ _ _ _ _ _ _ _ _ _ _ _ _ _ _ _ _ _ ?_)

theorem execTimeRsp_stable {I : State → Prop} (hI : Stable I) {s s' : State} (h : I s) (p : FPort) (t1 : ℤ) (t2 : ℤ) (t3 : HouseInstant) (t4 : ℤ) (ht : execTimeRsp p t1 t2 t3 t4 s = .next s') : I s' := by
  cases ht
  with_reducible (repeat' first | assumption | intro _ | apply timeRsp_stable hI | split)

theorem timeStep_stable {I : State → Prop} (hI : Stable I) {s : State} (h : I s) : I (timeStep s) := by
  unfold timeStep
  split
  · exact h
  · refine State.put_stable hI (State.modH_stable hI ?_ _) _ _
    refine upd_stable hI (markCore_stable hI h) { (markCore s).clk with house := _, coreAt := _ } ?_ _ _ _ _ _ _ _ _ _ _ _ _ _ _ _ _ _ _ _
    exact Nat.le_refl _


theorem execTimeStep_stable {I : State → Prop} (hI : Stable I) {s s' : State} (h : I s)  (ht : execTimeStep s = .next s') : I s' := by
  cases ht
  with_reducible (repeat' first | assumption | intro _ | apply timeStep_stable hI | split)

theorem parentLoss_stable {I : State → Prop} (hI : Stable I) {s : State} (h : I s)  : I (parentLoss s) := by
  dsimp only [parentLoss]
  with_reducible (repeat' first | assumption | intro _ | apply takeParent_stable hI | apply fault_stable hI | apply State.raise_stable hI | apply State.put_stable hI | apply topology_stable hI | split | refine hI.rest _ _ _ _ _ _ _ _ _ _ _ _ _ _ _ _ _ _ _ _ ?_)

theorem execParentLoss_stable {I : State → Prop} (hI : Stable I) {s s' : State} (h : I s)  (ht : execParentLoss s = .next s') : I s' := by
  cases ht
  with_reducible (repeat' first | assumption | intro _ | apply parentLoss_stable hI | split)

theorem execEvent_stable {I : State → Prop} (hI : Stable I) {s s' : State} (h : I s) (src : House) (imp : Fin 64) (cycle : BitVec 58) (ht : execEvent src imp cycle s = .next s') : I s' := by
  cases ht
  with_reducible (repeat' first | assumption | intro _ | apply gotFrom_stable hI | apply importEvent_stable hI | apply wake_stable hI | split)

theorem noteIn_stable {I : State → Prop} (hI : Stable I) {s : State} (h : I s) (src : ℕ) (w0 : Word) (w1 : Word) (w2 : Word) (w3 : Word) : I (noteIn s src w0 w1 w2 w3) := by
  dsimp only [noteIn]
  with_reducible (repeat' first | assumption | intro _ | apply State.setReg_stable hI | apply State.countSat_stable hI | apply State.put_stable hI | apply gotFrom_stable hI | split)

theorem execFabFaultNotice_stable {I : State → Prop} (hI : Stable I) {s s' : State} (h : I s) (src : House) (w0 : Word) (w1 : Word) (w2 : Word) (w3 : Word) (ht : execFabFaultNotice src w0 w1 w2 w3 s = .next s') : I s' := by
  cases ht
  with_reducible (repeat' first | assumption | intro _ | apply noteIn_stable hI | split)

theorem execRnoteClear_stable {I : State → Prop} (hI : Stable I) {s s' : State} (h : I s)  (ht : execRnoteClear s = .next s') : I s' := by
  cases ht
  with_reducible (repeat' first | assumption | intro _ | apply State.put_stable hI | apply coreCmd_stable hI | split)

theorem fabStream_stable {I : State → Prop} (hI : StableAll I) {s : State} (h : I s) (src : ℕ) (r : ℕ) (k : ℕ) (first : ℕ) (data : List Granule) : I (fabStream s src r k first data) := by
  dsimp only [fabStream]
  with_reducible (repeat' first | assumption | intro _ | apply gotFrom_stable hI.toStable | apply streamIn_stable hI | apply wake_stable hI.toStable | apply ringDrop_stable hI.toStable | split)

theorem execFabStream_stable {I : State → Prop} (hI : StableAll I) {s s' : State} (h : I s) (src : House) (ring : Fin 256) (firstSlice : BitVec 7) (first : Word) (data : List Granule) (ht : execFabStream src ring firstSlice first data s = .next s') : I s' := by
  cases ht
  with_reducible (repeat' first | assumption | intro _ | apply fabStream_stable hI | split)

theorem execFabCredit_stable {I : State → Prop} (hI : Stable I) {s s' : State} (h : I s) (ring : Fin 256) (rptr : Word) (wptr : Word) (ht : execFabCredit ring rptr wptr s = .next s') : I s' := by
  cases ht
  with_reducible (repeat' first | assumption | intro _ | split | refine hI.rest _ _ _ _ _ _ _ _ _ _ _ _ _ _ _ _ _ _ _ _ ?_)

theorem linkRetry_stable {I : State → Prop} (hI : StableAll I) {s : State} (h : I s) (l : LinkRef) : I (linkRetry s l) := by
  dsimp only [linkRetry]
  with_reducible (repeat' first | assumption | intro _ | apply porchRetry_stable hI | apply downPort_stable hI.toStable | split | refine (hI.toStable).rest _ _ _ _ _ _ _ _ _ _ _ _ _ _ _ _ _ _ _ _ ?_)

theorem execRetryRequest_stable {I : State → Prop} (hI : StableAll I) {s s' : State} (h : I s) (l : LinkRef) (ht : execRetryRequest l s = .next s') : I s' := by
  cases ht
  with_reducible (repeat' first | assumption | intro _ | apply linkRetry_stable hI | split)

theorem execAckTimeout_stable {I : State → Prop} (hI : StableAll I) {s s' : State} (h : I s) (l : LinkRef) (ht : execAckTimeout l s = .next s') : I s' := by
  cases ht
  with_reducible (repeat' first | assumption | intro _ | apply linkRetry_stable hI | split)

end Sys2Proof.Machine
end

