-- ==== Sys2Proof/Laws/Keep5.lean ====
section
/-! SUPPORT. Stable properties of states (Laws/Stable.lean) are kept by every operation of resets, boot, power, fault commands and register accesses. -/

namespace Sys2Proof.Machine

theorem fieldReset_stable {I : State → Prop} (hI : StableAll I) {s : State} (h : I s) (warm : Bool) : I (fieldReset s warm) := by
  have hs := hI.toStable
  dsimp only [fieldReset]
  refine State.when_stable ?_ _ _ ?_
  case refine_2 =>
    intro u hu
    exact State.put_stable hs (State.put_stable hs (State.put_stable hs (State.raise_stable hs hu _) _ _) _ _) _ _
  refine State.when_stable ?_ _ _ fun u hu => State.put_stable hs hu _ _
  refine upd_stable hs (hI.noField _ (hs.regsOf s _ h)) _ ?_ _ _ _ _ _ _ _ _ _ _ _ _ _ _ _ _ _ _ _
  exact Nat.le_refl _


theorem hostReset_stable {I : State → Prop} (hI : Stable I) {s : State} (h : I s) : I (hostReset s) := by
  dsimp only [hostReset]
  refine State.when_stable ?_ _ _ fun u hu => State.put_stable hI hu _ _
  exact hI.rest _ _ _ _ _ _ _ _ _ _ _ _ _ _ _ _ _ _ _ _ (hI.noDma _ (hI.regsOf s _ h))

theorem clearLatch_stable {I : State → Prop} (hI : Stable I) {s : State} (h : I s) (sd : Side) : I (clearLatch s sd) := by
  dsimp only [clearLatch]
  with_reducible (repeat' first | assumption | intro _ | apply State.setReg_stable hI | apply State.modP_stable hI | apply State.put_stable hI | apply State.putPair_stable hI | apply State.modF_stable hI | split)

theorem startAlive_stable {I : State → Prop} (hI : Stable I) {s : State} (h : I s) (sd : Side) : I (startAlive s sd) := by
  dsimp only [startAlive]
  with_reducible (repeat' first | assumption | intro _ | apply sendAliveHost_stable hI | apply State.put_stable hI | apply State.modF_stable hI | apply sendAliveField_stable hI | split)

theorem enterStage_stable {I : State → Prop} (hI : Stable I) {s : State} (h : I s) (n : ℕ) : I (enterStage s n) := by
  dsimp only [enterStage]
  with_reducible (repeat' first | assumption | intro _ | refine foldl_stable ?_ ?_ | apply State.setReg_stable hI | apply startSearch_stable hI | apply showInitial_stable hI | apply State.put_stable hI | apply startAlive_stable hI | apply creditAll_stable hI | refine State.when_stable ?_ _ _ ?_ | apply holdLanes_stable hI | split | refine hI.rest _ _ _ _ _ _ _ _ _ _ _ _ _ _ _ _ _ _ _ _ ?_)

theorem enterHostStage_stable {I : State → Prop} (hI : Stable I) {s : State} (h : I s) (n : ℕ) : I (enterHostStage s n) := by
  dsimp only [enterHostStage]
  with_reducible (repeat' first | assumption | intro _ | apply State.modP_stable hI | apply State.put_stable hI | apply startAlive_stable hI | split)

theorem powerEntry_stable {I : State → Prop} (hI : Stable I) {s : State} (h : I s)  : I (powerEntry s) := by
  dsimp only [powerEntry]
  with_reducible (repeat' first | assumption | intro _ | apply enterPower_stable hI | apply advanceNow_stable hI | split | refine hI.rest _ _ _ _ _ _ _ _ _ _ _ _ _ _ _ _ _ _ _ _ ?_)

theorem execPowerEntry_stable {I : State → Prop} (hI : Stable I) {s s' : State} (h : I s)  (ht : execPowerEntry s = .next s') : I s' := by
  cases ht
  with_reducible (repeat' first | assumption | intro _ | apply powerEntry_stable hI | split)

theorem execWakeEvent_stable {I : State → Prop} (hI : Stable I) {s s' : State} (h : I s) (src : Fin 5) (ht : execWakeEvent src s = .next s') : I s' := by
  cases ht
  with_reducible (repeat' first | assumption | intro _ | apply wake_stable hI | split)

theorem execWakeCmd_stable {I : State → Prop} (hI : Stable I) {s s' : State} (h : I s)  (ht : execWakeCmd s = .next s') : I s' := by
  cases ht
  with_reducible (repeat' first | assumption | intro _ | apply wake_stable hI | split)

theorem enterF4_stable {I : State → Prop} (hI : StableAll I) {s : State} (h : I s)  : I (enterF4 s) := by
  dsimp only [enterF4]
  with_reducible (repeat' first | assumption | intro _ | refine foldl_stable ?_ ?_ | apply porchDown_stable hI | apply portAnnounceDown_stable hI.toStable | apply fieldReset_stable hI | split | refine (hI.toStable).rest _ _ _ _ _ _ _ _ _ _ _ _ _ _ _ _ _ _ _ _ ?_)

theorem f4Request_stable {I : State → Prop} (hI : StableAll I) {s : State} (h : I s)  : I (f4Request s) := by
  dsimp only [f4Request]
  with_reducible (repeat' first | assumption | intro _ | apply State.raise_stable hI.toStable | apply enterF4_stable hI | split)

theorem execF4Request_stable {I : State → Prop} (hI : StableAll I) {s s' : State} (h : I s)  (ht : execF4Request s = .next s') : I s' := by
  cases ht
  with_reducible (repeat' first | assumption | intro _ | apply f4Request_stable hI | split)

theorem ltrWrite_stable {I : State → Prop} (hI : Stable I) {s : State} (h : I s) (v : ℕ) : I (ltrWrite s v) := by
  dsimp only [ltrWrite]
  with_reducible (repeat' first | assumption | intro _ | apply State.put_stable hI | apply wake_stable hI | split)

theorem execLtrWrite_stable {I : State → Prop} (hI : Stable I) {s s' : State} (h : I s) (val : Word) (ht : execLtrWrite val s = .next s') : I s' := by
  cases ht
  with_reducible (repeat' first | assumption | intro _ | apply ltrWrite_stable hI | split)

theorem d3hot_stable {I : State → Prop} (hI : Stable I) {s : State} (h : I s) (enter : Bool) : I (d3hot s enter) := by
  dsimp only [d3hot]
  with_reducible (repeat' first | assumption | intro _ | refine foldl_stable ?_ ?_ | apply State.modP_stable hI | apply dmaGo_stable hI | split)

theorem execD3hotTransition_stable {I : State → Prop} (hI : Stable I) {s s' : State} (h : I s) (enter : Bool) (ht : execD3hotTransition enter s = .next s') : I s' := by
  cases ht
  with_reducible (repeat' first | assumption | intro _ | apply d3hot_stable hI | split)

theorem misShow_stable {I : State → Prop} (hI : Stable I) {s : State} (h : I s) (sd : Side) : I (misShow s sd) := by
  dsimp only [misShow]
  with_reducible (repeat' first | assumption | intro _ | apply State.put_stable hI | split)

theorem misLoad_stable {I : State → Prop} (hI : Stable I) {s : State} (h : I s) (sd : Side) (log : Option (Word × Word × Word)) : I (misLoad s sd log) := by
  dsimp only [misLoad]
  with_reducible (repeat' first | assumption | intro _ | apply State.setReg_stable hI | apply misShow_stable hI | apply State.put_stable hI | split)

theorem missionMinute_stable {I : State → Prop} (hI : Stable I) {s : State} (h : I s) (sd : Side) (c16 : ℤ) : I (missionMinute s sd c16) := by
  dsimp only [missionMinute]
  with_reducible (repeat' first | assumption | intro _ | apply misShow_stable hI | apply State.put_stable hI | apply State.count_stable hI | split | refine hI.rest _ _ _ _ _ _ _ _ _ _ _ _ _ _ _ _ _ _ _ _ ?_)

theorem execMissionMinute_stable {I : State → Prop} (hI : Stable I) {s s' : State} (h : I s) (sd : Side) (c16 : ℤ) (ht : execMissionMinute sd c16 s = .next s') : I s' := by
  cases ht
  with_reducible (repeat' first | assumption | intro _ | apply missionMinute_stable hI | split)

theorem missionWrite_stable {I : State → Prop} (hI : Stable I) {s : State} (h : I s) (sd : Side) : I (missionWrite s sd) := by
  dsimp only [missionWrite]
  with_reducible (repeat' first | assumption | intro _ | split | refine hI.rest _ _ _ _ _ _ _ _ _ _ _ _ _ _ _ _ _ _ _ _ ?_)

theorem execMissionLogWrite_stable {I : State → Prop} (hI : Stable I) {s s' : State} (h : I s) (sd : Side) (ht : execMissionLogWrite sd s = .next s') : I s' := by
  cases ht
  with_reducible (repeat' first | assumption | intro _ | apply missionWrite_stable hI | split)

theorem frstFall_stable {I : State → Prop} (hI : StableAll I) {s : State} (h : I s)  : I (frstFall s) := by
  dsimp only [frstFall]
  with_reducible (repeat' first | assumption | intro _ | apply porchDown_stable hI | apply fieldReset_stable hI | split | refine (hI.toStable).rest _ _ _ _ _ _ _ _ _ _ _ _ _ _ _ _ _ _ _ _ ?_)

theorem frstRise_stable {I : State → Prop} (hI : Stable I) {s : State} (h : I s) (ok : Bool) : I (frstRise s ok) := by
  dsimp only [frstRise]
  with_reducible (repeat' first | assumption | intro _ | apply enterStage_stable hI | split | refine hI.rest _ _ _ _ _ _ _ _ _ _ _ _ _ _ _ _ _ _ _ _ ?_)

theorem execFrstN_stable {I : State → Prop} (hI : StableAll I) {s s' : State} (h : I s) (level : Bool) (suppliesOk : Bool) (ht : execFrstN level suppliesOk s = .next s') : I s' := by
  cases ht
  with_reducible (repeat' first | assumption | intro _ | apply frstFall_stable hI | apply frstRise_stable hI.toStable | split)

theorem hrstFall_stable {I : State → Prop} (hI : StableAll I) {s : State} (h : I s)  : I (hrstFall s) := by
  dsimp only [hrstFall]
  with_reducible (repeat' first | assumption | intro _ | apply hostReset_stable hI.toStable | apply porchDownF_stable hI | split | refine (hI.toStable).rest _ _ _ _ _ _ _ _ _ _ _ _ _ _ _ _ _ _ _ _ ?_)

theorem hrstRise_stable {I : State → Prop} (hI : Stable I) {s : State} (h : I s) (ok : Bool) : I (hrstRise s ok) := by
  dsimp only [hrstRise]
  with_reducible (repeat' first | assumption | intro _ | apply enterHostStage_stable hI | split | refine hI.rest _ _ _ _ _ _ _ _ _ _ _ _ _ _ _ _ _ _ _ _ ?_)

theorem execHrstN_stable {I : State → Prop} (hI : StableAll I) {s s' : State} (h : I s) (level : Bool) (suppliesOk : Bool) (ht : execHrstN level suppliesOk s = .next s') : I s' := by
  cases ht
  with_reducible (repeat' first | assumption | intro _ | apply hrstRise_stable hI.toStable | apply hrstFall_stable hI | split)

theorem endpointReset_stable {I : State → Prop} (hI : Stable I) {s : State} (h : I s) : I (endpointReset s) :=
  hI.rest _ _ _ _ _ _ _ _ _ _ _ _ _ _ _ _ _ _ _ _ (hI.noDma _ (hI.regsOf s _ h))

theorem perstFall_stable {I : State → Prop} (hI : Stable I) {s : State} (h : I s)  : I (perstFall s) := by
  dsimp only [perstFall]
  with_reducible (repeat' first | assumption | intro _ | apply endpointReset_stable hI | split | refine hI.rest _ _ _ _ _ _ _ _ _ _ _ _ _ _ _ _ _ _ _ _ ?_)

theorem perstRise_stable {I : State → Prop} (hI : Stable I) {s : State} (h : I s)  : I (perstRise s) := by
  dsimp only [perstRise]
  with_reducible (repeat' first | assumption | intro _ | apply State.modP_stable hI | split | refine hI.rest _ _ _ _ _ _ _ _ _ _ _ _ _ _ _ _ _ _ _ _ ?_)

theorem execPerstN_stable {I : State → Prop} (hI : Stable I) {s s' : State} (h : I s) (level : Bool) (ht : execPerstN level s = .next s') : I s' := by
  cases ht
  with_reducible (repeat' first | assumption | intro _ | apply perstRise_stable hI | apply perstFall_stable hI | split)

theorem hostPllLoss_stable {I : State → Prop} (hI : Stable I) {s : State} (h : I s) (k : ℕ) (cause : ℕ) : I (hostPllLoss s k cause) := by
  dsimp only [hostPllLoss]
  with_reducible (repeat' first | assumption | intro _ | apply endpointReset_stable hI | apply hostFault_stable hI | split | refine hI.rest _ _ _ _ _ _ _ _ _ _ _ _ _ _ _ _ _ _ _ _ ?_)

theorem hostPllOpen_stable {I : State → Prop} (hI : Stable I) {s : State} (h : I s) (k : ℕ) : I (hostPllOpen s k) := by
  dsimp only [hostPllOpen]
  with_reducible (repeat' first | assumption | intro _ | apply State.modP_stable hI | split | refine hI.rest _ _ _ _ _ _ _ _ _ _ _ _ _ _ _ _ _ _ _ _ ?_)

theorem execPllLoss_stable {I : State → Prop} (hI : Stable I) {s s' : State} (h : I s) (id : ClockId) (cause : LossCause) (ht : execPllLoss id cause s = .next s') : I s' := by
  cases ht
  with_reducible (repeat' first | assumption | intro _ | apply hostPllLoss_stable hI | apply pllLoss_stable hI | split)

theorem execShutterOpen_stable {I : State → Prop} (hI : StableAll I) {s s' : State} (h : I s) (id : ClockId) (ht : execShutterOpen id s = .next s') : I s' := by
  cases ht
  with_reducible (repeat' first | assumption | intro _ | apply hostPllOpen_stable hI.toStable | apply shutterOpens_stable hI | split)

theorem powerCycle_stable {I : State → Prop} (hI : StableAll I) {s : State} (h : I s) (sd : Side) : I (powerCycle s sd) := by
  dsimp only [powerCycle]
  with_reducible (repeat' first | assumption | intro _ | apply frstFall_stable hI | apply clearLatch_stable hI.toStable | apply hrstFall_stable hI | split)

theorem execPowerCycle_stable {I : State → Prop} (hI : StableAll I) {s s' : State} (h : I s) (sd : Side) (ht : execPowerCycle sd s = .next s') : I s' := by
  cases ht
  with_reducible (repeat' first | assumption | intro _ | apply powerCycle_stable hI | split)

theorem takeImage_stable {I : State → Prop} (hI : Stable I) {s : State} (h : I s) (i : ℕ) (second : Bool) (ver : Word) : I (takeImage s i second ver) := by
  dsimp only [takeImage]
  with_reducible (repeat' first | assumption | intro _ | apply State.setReg_stable hI | apply fault_stable hI | apply State.put_stable hI | refine State.when_stable ?_ _ _ ?_ | apply enterStage_stable hI | split)

theorem loadParams_stable {I : State → Prop} (hI : Stable I) {s : State} (h : I s) (mul div refv reft : Word)
    (hours : Option (Word × Word × Word)) : I (loadParams s mul div refv reft hours) := by
  unfold loadParams
  split
  · exact h
  · refine startSearch_stable hI (misLoad_stable hI ?_ _ _) _
    exact hI.clk _ _ (Nat.le_refl _)
      (loadDecl_stable hI (loadDecl_stable hI (State.put_stable hI (State.put_stable hI h _ _) _ _) _ _) _ _)



theorem spareRows_stable {I : State → Prop} (hI : Stable I) {s : State} (h : I s) (rows : List (PChan × Bank × Fin 16384)) : I (spareRows s rows) := by
  dsimp only [spareRows]
  with_reducible (repeat' first | assumption | intro _ | refine foldl_stable ?_ ?_ | apply State.countSat_stable hI | split | refine hI.rest _ _ _ _ _ _ _ _ _ _ _ _ _ _ _ _ _ _ _ _ ?_)

theorem storeReady_stable {I : State → Prop} (hI : Stable I) {s : State} (h : I s) (pt : ℕ) (rows : List (PChan × Bank × Fin 16384)) (cs : List (Fin 4 × DelayCentre)) : I (storeReady s pt rows cs) := by
  dsimp only [storeReady]
  with_reducible (repeat' first | assumption | intro _ | refine foldl_stable ?_ ?_ | apply gatherCentre_stable hI | apply State.draw_stable hI | apply stackOn_stable hI | apply spareRows_stable hI | apply fault_stable hI | apply State.put_stable hI | apply enterStage_stable hI | refine snd_stable (by assumption) ?_ | refine fst_stable (by assumption) ?_ | refine third_stable (by assumption) ?_ | split)

theorem fabricStage_stable {I : State → Prop} (hI : Stable I) {s : State} (h : I s) (late : Bool) : I (fabricStage s late) := by
  dsimp only [fabricStage]
  with_reducible (repeat' first | assumption | intro _ | apply State.put_stable hI | apply advanceNow_stable hI | apply enterStage_stable hI | split)

theorem bootAdvance_stable {I : State → Prop} (hI : Stable I) {s : State} (h : I s) (info : BootInfo) : I (bootAdvance s info) := by
  dsimp only [bootAdvance]
  with_reducible (repeat' first | assumption | intro _ | apply fabricStage_stable hI | apply State.raise_stable hI | apply State.put_stable hI | apply takeImage_stable hI | apply storeReady_stable hI | apply loadParams_stable hI | apply advanceNow_stable hI | apply enterStage_stable hI | split)

theorem execBootStageAdvance_stable {I : State → Prop} (hI : Stable I) {s s' : State} (h : I s) (info : BootInfo) (ht : execBootStageAdvance info s = .next s') : I s' := by
  cases ht
  with_reducible (repeat' first | assumption | intro _ | apply bootAdvance_stable hI | split)

theorem bootStall_stable {I : State → Prop} (hI : Stable I) {s : State} (h : I s) (e : BootErr) : I (bootStall s e) := by
  dsimp only [bootStall]
  with_reducible (repeat' first | assumption | intro _ | apply fault_stable hI | apply State.put_stable hI | split | refine hI.rest _ _ _ _ _ _ _ _ _ _ _ _ _ _ _ _ _ _ _ _ ?_)

theorem execBootStall_stable {I : State → Prop} (hI : Stable I) {s s' : State} (h : I s) (err : BootErr) (ht : execBootStall err s = .next s') : I s' := by
  cases ht
  with_reducible (repeat' first | assumption | intro _ | apply bootStall_stable hI | split)

theorem hostBoot_stable {I : State → Prop} (hI : Stable I) {s : State} (h : I s) (info : BootInfo) : I (hostBoot s info) := by
  dsimp only [hostBoot]
  with_reducible (repeat' first | assumption | intro _ | apply State.setReg_stable hI | apply enterHostStage_stable hI | apply State.modP_stable hI | apply State.raise_stable hI | apply State.put_stable hI | apply advanceNow_stable hI | apply misLoad_stable hI | refine State.when_stable ?_ _ _ ?_ | apply hostFault_stable hI | split)

theorem execHostBootStage_stable {I : State → Prop} (hI : Stable I) {s s' : State} (h : I s) (info : BootInfo) (ht : execHostBootStage info s = .next s') : I s' := by
  cases ht
  with_reducible (repeat' first | assumption | intro _ | apply hostBoot_stable hI | split)

theorem execFaultRecord_stable {I : State → Prop} (hI : Stable I) {s s' : State} (h : I s) (sd : Side) (src : BitVec 8) (unit : BitVec 10) (cls : FaultClass) (syn : Word) (ht : execFaultRecord sd src unit cls syn s = .next s') : I s' := by
  cases ht
  with_reducible (repeat' first | assumption | intro _ | apply recordRaw_stable hI | split)

theorem nmiTrap_stable {I : State → Prop} (hI : Stable I) {s : State} (h : I s) (sd : Side) : I (nmiTrap s sd) := by
  dsimp only [nmiTrap]
  with_reducible (repeat' first | assumption | intro _ | apply State.put_stable hI | apply State.modF_stable hI | refine State.when_stable ?_ _ _ ?_ | split)

theorem execNmiTrap_stable {I : State → Prop} (hI : Stable I) {s s' : State} (h : I s) (sd : Side) (ht : execNmiTrap sd s = .next s') : I s' := by
  cases ht
  with_reducible (repeat' first | assumption | intro _ | apply nmiTrap_stable hI | split)

theorem endHold_stable {I : State → Prop} (hI : Stable I) {s : State} (h : I s) (sd : Side) : I (endHold s sd) := by
  dsimp only [endHold]
  with_reducible (repeat' first | assumption | intro _ | refine foldl_stable ?_ ?_ | apply queueRec_stable hI | apply State.put_stable hI | apply State.modF_stable hI | refine State.when_stable ?_ _ _ ?_ | split)

theorem atticRelease_stable {I : State → Prop} (hI : Stable I) {s : State} (h : I s) (sd : Side) (req : Requester) : I (atticRelease s sd req) := by
  dsimp only [atticRelease]
  with_reducible (repeat' first | assumption | intro _ | apply endHold_stable hI | split)

theorem execAtticRelease_stable {I : State → Prop} (hI : Stable I) {s s' : State} (h : I s) (sd : Side) (req : Requester) (ht : execAtticRelease sd req s = .next s') : I s' := by
  cases ht
  with_reducible (repeat' first | assumption | intro _ | apply atticRelease_stable hI | split)

theorem holdTimeout_stable {I : State → Prop} (hI : Stable I) {s0 : State} (h : I s0) (sd : Side) : I (holdTimeout s0 sd) := by
  dsimp only [holdTimeout]
  with_reducible (repeat' first | assumption | intro _ | apply State.raise_stable hI | apply advanceNow_stable hI | apply endHold_stable hI | split)

theorem execAtticHoldTimeout_stable {I : State → Prop} (hI : Stable I) {s s' : State} (h : I s) (sd : Side) (ht : execAtticHoldTimeout sd s = .next s') : I s' := by
  cases ht
  with_reducible (repeat' first | assumption | intro _ | apply holdTimeout_stable hI | split)

theorem emptyAttic_stable {I : State → Prop} (hI : Stable I) {s : State} (h : I s) (sd : Side) : I (emptyAttic s sd) := by
  dsimp only [emptyAttic]
  with_reducible (repeat' first | assumption | intro _ | refine foldl_stable ?_ ?_ | apply State.setReg_stable hI | apply State.put_stable hI | split)

theorem atticClear_stable {I : State → Prop} (hI : Stable I) {s : State} (h : I s) (sd : Side) : I (atticClear s sd) := by
  dsimp only [atticClear]
  with_reducible (repeat' first | assumption | intro _ | apply State.setReg_stable hI | apply emptyAttic_stable hI | apply putSlots_stable hI | apply State.raise_stable hI | apply State.put_stable hI | apply State.modF_stable hI | split)

theorem execAtticClear_stable {I : State → Prop} (hI : Stable I) {s s' : State} (h : I s) (sd : Side) (ht : execAtticClear sd s = .next s') : I s' := by
  cases ht
  with_reducible (repeat' first | assumption | intro _ | apply atticClear_stable hI | split)

theorem execFaultLock_stable {I : State → Prop} (hI : Stable I) {s s' : State} (h : I s) (sd : Side) (ht : execFaultLock sd s = .next s') : I s' := by
  cases ht
  with_reducible (repeat' first | assumption | intro _ | apply State.setReg_stable hI | split)

theorem aliveEval_stable {I : State → Prop} (hI : Stable I) {s : State} (h : I s) (sd : Side) : I (aliveEval s sd) := by
  dsimp only [aliveEval]
  with_reducible (repeat' first | assumption | intro _ | apply startAlive_stable hI | apply aliveStop_stable hI | split)

theorem srcClear_stable {I : State → Prop} (hI : Stable I) {s : State} (h : I s) (sd : Side) (n : ℕ) : I (srcClear s sd n) := by
  dsimp only [srcClear]
  with_reducible (repeat' first | assumption | intro _ | apply aliveEval_stable hI | apply State.put_stable hI | apply State.modF_stable hI | split)

theorem execSrcActiveClear_stable {I : State → Prop} (hI : Stable I) {s s' : State} (h : I s) (sd : Side) (n : BitVec 8) (ht : execSrcActiveClear sd n s = .next s') : I s' := by
  cases ht
  with_reducible (repeat' first | assumption | intro _ | apply srcClear_stable hI | split)

theorem aliveToggle_stable {I : State → Prop} (hI : Stable I) {s0 : State} (h : I s0) (sd : Side) : I (aliveToggle s0 sd) := by
  dsimp only [aliveToggle]
  with_reducible (repeat' first | assumption | intro _ | apply sendAliveHost_stable hI | apply State.modF_stable hI | apply advanceNow_stable hI | apply sendAliveField_stable hI | split)

theorem execAliveToggle_stable {I : State → Prop} (hI : Stable I) {s s' : State} (h : I s) (sd : Side) (ht : execAliveToggle sd s = .next s') : I s' := by
  cases ht
  with_reducible (repeat' first | assumption | intro _ | apply aliveToggle_stable hI | split)

theorem injGo_stable {I : State → Prop} (hI : Stable I) {s : State} (h : I s) (sd : Side) : I (injGo s sd) := by
  dsimp only [injGo]
  with_reducible (repeat' first | assumption | intro _ | apply State.put_stable hI | apply State.modF_stable hI | split)

theorem execInjGo_stable {I : State → Prop} (hI : Stable I) {s s' : State} (h : I s) (sd : Side) (ht : execInjGo sd s = .next s') : I s' := by
  cases ht
  with_reducible (repeat' first | assumption | intro _ | apply injGo_stable hI | split)

theorem injRecord_stable {I : State → Prop} (hI : Stable I) {s0 : State} (h : I s0) (sd : Side) : I (injRecord s0 sd) := by
  dsimp only [injRecord]
  with_reducible (repeat' first | assumption | intro _ | apply State.put_stable hI | apply State.modF_stable hI | apply advanceNow_stable hI | apply recordRaw_stable hI | refine State.when_stable ?_ _ _ ?_ | split)

theorem execInjRecord_stable {I : State → Prop} (hI : Stable I) {s s' : State} (h : I s) (sd : Side) (ht : execInjRecord sd s = .next s') : I s' := by
  cases ht
  with_reducible (repeat' first | assumption | intro _ | apply injRecord_stable hI | split)

theorem injAbort_stable {I : State → Prop} (hI : Stable I) {s : State} (h : I s) (sd : Side) : I (injAbort s sd) := by
  dsimp only [injAbort]
  with_reducible (repeat' first | assumption | intro _ | apply State.put_stable hI | apply State.modF_stable hI | apply injRecord_stable hI | split)

theorem execInjAbort_stable {I : State → Prop} (hI : Stable I) {s s' : State} (h : I s) (sd : Side) (ht : execInjAbort sd s = .next s') : I s' := by
  cases ht
  with_reducible (repeat' first | assumption | intro _ | apply injAbort_stable hI | split)

theorem resetFellow_stable {I : State → Prop} (hI : Stable I) {s : State} (h : I s) (m : ℕ) : I (resetFellow s m) := by
  dsimp only [resetFellow]
  with_reducible (repeat' first | assumption | intro _ | apply State.modL_stable hI | apply beginFillRun_stable hI | apply State.put_stable hI | apply idleEngine_stable hI | split)

theorem resetTable_stable {I : State → Prop} (hI : Stable I) {s : State} (h : I s) (t : ℕ) : I (resetTable s t) := by
  dsimp only [resetTable]
  with_reducible (repeat' first | assumption | intro _ | refine foldl_stable ?_ ?_ | apply resetFellow_stable hI | apply State.modT_stable hI | apply State.put_stable hI | apply parkEngine_stable hI | split)

theorem endTable_stable {I : State → Prop} (hI : Stable I) {s : State} (h : I s) (t : ℕ) : I (endTable s t) := by
  dsimp only [endTable]
  with_reducible (repeat' first | assumption | intro _ | refine foldl_stable ?_ ?_ | apply State.modT_stable hI | apply State.put_stable hI | apply idleEngine_stable hI | split)

theorem noteReset_stable {I : State → Prop} (hI : Stable I) {s : State} (h : I s) (b : ResetBlock) (on : Bool) : I (noteReset s b on) := by
  dsimp only [noteReset]
  with_reducible (repeat' first | assumption | intro _ | split | refine hI.rest _ _ _ _ _ _ _ _ _ _ _ _ _ _ _ _ _ _ _ _ ?_)

theorem beginBlock_stable {I : State → Prop} (hI : StableAll I) {s : State} (h : I s) (b : ResetBlock) : I (beginBlock s b) := by
  dsimp only [beginBlock]
  with_reducible (repeat' first | assumption | intro _ | apply porchDown_stable hI | apply stackLost_stable hI.toStable | apply portAnnounceDown_stable hI.toStable | apply phaseRecovery_stable hI.toStable | apply noteReset_stable hI.toStable | apply resetTable_stable hI.toStable | apply portGone_stable hI.toStable | split)

theorem blockBegin_stable {I : State → Prop} (hI : StableAll I) {s : State} (h : I s) (b : ResetBlock) : I (blockBegin s b) := by
  dsimp only [blockBegin]
  with_reducible (repeat' first | assumption | intro _ | apply State.modF_stable hI.toStable | apply beginBlock_stable hI | split)

theorem execBlockResetBegin_stable {I : State → Prop} (hI : StableAll I) {s s' : State} (h : I s) (b : ResetBlock) (ht : execBlockResetBegin b s = .next s') : I s' := by
  cases ht
  with_reducible (repeat' first | assumption | intro _ | apply blockBegin_stable hI | split)

theorem blockEnd_stable {I : State → Prop} (hI : Stable I) {s : State} (h : I s) (b : ResetBlock) : I (blockEnd s b) := by
  dsimp only [blockEnd]
  with_reducible (repeat' first | assumption | intro _ | apply State.modT_stable hI | apply noteReset_stable hI | apply State.put_stable hI | apply endTable_stable hI | refine State.when_stable ?_ _ _ ?_ | split)

theorem execBlockResetEnd_stable {I : State → Prop} (hI : Stable I) {s s' : State} (h : I s) (b : ResetBlock) (ht : execBlockResetEnd b s = .next s') : I s' := by
  cases ht
  with_reducible (repeat' first | assumption | intro _ | apply blockEnd_stable hI | split)

theorem chipReset_stable {I : State → Prop} (hI : StableAll I) {s : State} (h : I s)  : I (chipReset s) := by
  dsimp only [chipReset]
  with_reducible (repeat' first | assumption | intro _ | apply porchDown_stable hI | apply fieldReset_stable hI | apply State.raise_stable hI.toStable | apply State.modF_stable hI.toStable | apply enterStage_stable hI.toStable | split)

theorem execChipReset_stable {I : State → Prop} (hI : StableAll I) {s s' : State} (h : I s)  (ht : execChipReset s = .next s') : I s' := by
  cases ht
  with_reducible (repeat' first | assumption | intro _ | apply chipReset_stable hI | split)

theorem execSupplyUv_stable {I : State → Prop} (hI : Stable I) {s s' : State} (h : I s) (sd : Side) (supply : Fin 11) (mv : ℕ) (ht : execSupplyUv sd supply mv s = .next s') : I s' := by
  cases ht
  with_reducible (repeat' first | assumption | intro _ | apply recordRaw_stable hI | split)

theorem droop_stable {I : State → Prop} (hI : Stable I) {s : State} (h : I s) (wing : ℕ) (lowestUv : ℕ) : I (droop s wing lowestUv) := by
  dsimp only [droop]
  with_reducible (repeat' first | assumption | intro _ | apply fault_stable hI | split)

theorem execDroop_stable {I : State → Prop} (hI : Stable I) {s s' : State} (h : I s) (wing : Fin 4) (lowestUv : ℕ) (ht : execDroop wing lowestUv s = .next s') : I s' := by
  cases ht
  with_reducible (repeat' first | assumption | intro _ | apply droop_stable hI | split)

theorem reArm_stable {I : State → Prop} (hI : Stable I) {s : State} (h : I s) (h : Bool) (n : ℕ) (c16 : ℤ) : I (reArm s h n c16) := by
  dsimp only [reArm]
  with_reducible (repeat' first | assumption | intro _ | apply State.put_stable hI | split | refine hI.rest _ _ _ _ _ _ _ _ _ _ _ _ _ _ _ _ _ _ _ _ ?_)

theorem tjHigh_stable {I : State → Prop} (hI : Stable I) {s0 : State} (h : I s0) (sd : Side) (n : ℕ) (c16 : ℤ) : I (tjHigh s0 sd n c16) := by
  dsimp only [tjHigh]
  with_reducible (repeat' first | assumption | intro _ | apply reArm_stable hI | apply recordRaw_stable hI | split | refine hI.rest _ _ _ _ _ _ _ _ _ _ _ _ _ _ _ _ _ _ _ _ ?_)

theorem execTjHigh_stable {I : State → Prop} (hI : Stable I) {s s' : State} (h : I s) (sd : Side) (sensor : Fin 36) (c16 : ℤ) (ht : execTjHigh sd sensor c16 s = .next s') : I s' := by
  cases ht
  with_reducible (repeat' first | assumption | intro _ | apply tjHigh_stable hI | split)

theorem tjCrit_stable {I : State → Prop} (hI : Stable I) {s0 : State} (h : I s0) (sd : Side) (n : ℕ) (c16 : ℤ) : I (tjCrit s0 sd n c16) := by
  dsimp only [tjCrit]
  with_reducible (repeat' first | assumption | intro _ | apply reArm_stable hI | apply recordRaw_stable hI | split | refine hI.rest _ _ _ _ _ _ _ _ _ _ _ _ _ _ _ _ _ _ _ _ ?_)

theorem execTjCrit_stable {I : State → Prop} (hI : Stable I) {s s' : State} (h : I s) (sd : Side) (sensor : Fin 36) (c16 : ℤ) (ht : execTjCrit sd sensor c16 s = .next s') : I s' := by
  cases ht
  with_reducible (repeat' first | assumption | intro _ | apply tjCrit_stable hI | split)

theorem crcOpen_stable {I : State → Prop} (hI : Stable I) {s : State} (h : I s) (req : Requester) : I (crcOpen s req) := by
  dsimp only [crcOpen]
  with_reducible (repeat' first | assumption | intro _ | apply State.put_stable hI | split | refine hI.rest _ _ _ _ _ _ _ _ _ _ _ _ _ _ _ _ _ _ _ _ ?_)

theorem execCrcOpen_stable {I : State → Prop} (hI : Stable I) {s s' : State} (h : I s) (req : Requester) (ht : execCrcOpen req s = .next s') : I s' := by
  cases ht
  with_reducible (repeat' first | assumption | intro _ | apply crcOpen_stable hI | split)

theorem crcCommit_stable {I : State → Prop} (hI : Stable I) {s : State} (h : I s) (req : Requester) : I (crcCommit s req) := by
  dsimp only [crcCommit]
  with_reducible (repeat' first | assumption | intro _ | apply State.raise_stable hI | apply State.put_stable hI | split | refine hI.rest _ _ _ _ _ _ _ _ _ _ _ _ _ _ _ _ _ _ _ _ ?_)

theorem execCrcCommit_stable {I : State → Prop} (hI : Stable I) {s s' : State} (h : I s) (req : Requester) (ht : execCrcCommit req s = .next s') : I s' := by
  cases ht
  with_reducible (repeat' first | assumption | intro _ | apply crcCommit_stable hI | split)

theorem crcRefWrite_stable {I : State → Prop} (hI : Stable I) {s : State} (h : I s) (req : Requester) (b : ℕ) (v : Word) : I (crcRefWrite s req b v) := by
  dsimp only [crcRefWrite]
  with_reducible (repeat' first | assumption | intro _ | apply State.setReg_stable hI | apply State.raise_stable hI | split)

theorem execCrcRefWrite_stable {I : State → Prop} (hI : Stable I) {s s' : State} (h : I s) (req : Requester) (b : Fin 304) (val : Word) (ht : execCrcRefWrite req b val s = .next s') : I s' := by
  cases ht
  with_reducible (repeat' first | assumption | intro _ | apply crcRefWrite_stable hI | split)

theorem openLong_stable {I : State → Prop} (hI : Stable I) {s0 : State} (h : I s0) (fw : Bool) : I (openLong s0 fw) := by
  dsimp only [openLong]
  with_reducible (repeat' first | assumption | intro _ | apply fault_stable hI | apply State.raise_stable hI | apply advanceNow_stable hI | split | refine hI.rest _ _ _ _ _ _ _ _ _ _ _ _ _ _ _ _ _ _ _ _ ?_)

theorem execCfgOpenLong_stable {I : State → Prop} (hI : Stable I) {s s' : State} (h : I s) (fw : Bool) (ht : execCfgOpenLong fw s = .next s') : I s' := by
  cases ht
  with_reducible (repeat' first | assumption | intro _ | apply openLong_stable hI | split)

theorem crcMismatch_stable {I : State → Prop} (hI : Stable I) {s : State} (h : I s) (b : ℕ) : I (crcMismatch s b) := by
  dsimp only [crcMismatch]
  with_reducible (repeat' first | assumption | intro _ | refine foldl_stable ?_ ?_ | apply fault_stable hI | apply State.raise_stable hI | apply State.put_stable hI | apply faultEngine_stable hI | refine State.when_stable ?_ _ _ ?_ | split | refine hI.rest _ _ _ _ _ _ _ _ _ _ _ _ _ _ _ _ _ _ _ _ ?_)

theorem crcPass_stable {I : State → Prop} (hI : Stable I) {s : State} (h : I s) (b : ℕ) : I (crcPass s b) := by
  dsimp only [crcPass]
  with_reducible (repeat' first | assumption | intro _ | apply State.setReg_stable hI | apply crcMismatch_stable hI | split | refine hI.rest _ _ _ _ _ _ _ _ _ _ _ _ _ _ _ _ _ _ _ _ ?_)

theorem execCrcBlockPass_stable {I : State → Prop} (hI : Stable I) {s s' : State} (h : I s) (b : Fin 304) (ht : execCrcBlockPass b s = .next s') : I s' := by
  cases ht
  with_reducible (repeat' first | assumption | intro _ | apply crcPass_stable hI | split)

theorem typedWrite_stable {I : State → Prop} (hI : Stable I) {s : State} (h : I s) (p : Place) (a : ℕ) (frz : Bool) (v : Word) : I (typedWrite s p a frz v) := by
  dsimp only [typedWrite]
  with_reducible (repeat' first | assumption | intro _ | apply State.setReg_stable hI | apply fault_stable hI | apply State.raise_stable hI | refine State.when_stable ?_ _ _ ?_ | apply hostFault_stable hI | split)

theorem cmdBit_stable {I : State → Prop} (hI : Stable I) {s : State} (h : I s) (frz : Bool) (c : Bool) (g : State → State) (hg : ∀ u, I u → I (g u)) : I (cmdBit s frz c g) := by
  dsimp only [cmdBit]
  with_reducible (repeat' first | assumption | intro _ | apply State.raise_stable hI | apply hg | split)

theorem engCtl_stable {I : State → Prop} (hI : StableAll I) {s : State} (h : I s) (e : ℕ) (v : Word) : I (engCtl s e v) := by
  dsimp only [engCtl]
  with_reducible (repeat' first | assumption | intro _ | apply resetCmd_stable hI.toStable | apply startWrite_stable hI.toStable | apply State.raise_stable hI.toStable | refine State.when_stable ?_ _ _ ?_ | apply armWrite_stable hI | apply abortCmd_stable hI.toStable | split)

theorem srcWrite_stable {I : State → Prop} (hI : Stable I) {s : State} (h : I s) (p : Place) (a : ℕ) (v : Word) : I (srcWrite s p a v) := by
  dsimp only [srcWrite]
  with_reducible (repeat' first | assumption | intro _ | apply srcClear_stable hI | apply aliveEval_stable hI | apply typedWrite_stable hI | split)

theorem fltWrite_stable {I : State → Prop} (hI : Stable I) {s : State} (h : I s) (req : Requester) (p : Place) (a : ℕ) (v : Word) : I (fltWrite s req p a v) := by
  dsimp only [fltWrite]
  with_reducible (repeat' first | assumption | intro _ | apply atticRelease_stable hI | apply injGo_stable hI | apply injAbort_stable hI | apply atticClear_stable hI | refine State.when_stable ?_ _ _ ?_ | apply typedWrite_stable hI | split)

theorem fportCfg_stable {I : State → Prop} (hI : Stable I) {s : State} (h : I s) (p : Place) (a : ℕ) (frz : Bool) (v : Word) : I (fportCfg s p a frz v) := by
  dsimp only [fportCfg]
  with_reducible (repeat' first | assumption | intro _ | apply startSearch_stable hI | apply State.put_stable hI | apply downPort_stable hI | apply typedWrite_stable hI | split)

theorem mcntCtl_stable {I : State → Prop} (hI : Stable I) {s : State} (h : I s) (i : ℕ) (v : Word) : I (mcntCtl s i v) := by
  dsimp only [mcntCtl]
  with_reducible (repeat' first | assumption | intro _ | apply monStop_stable hI | apply monClear_stable hI | apply monStart_stable hI | apply monSnap_stable hI | refine State.when_stable ?_ _ _ ?_ | split)

theorem phaseWrite_stable {I : State → Prop} (hI : Stable I) {s : State} (h : I s) (req : Requester) (code : ℕ) : I (phaseWrite s req code) := by
  dsimp only [phaseWrite]
  with_reducible (repeat' first | assumption | intro _ | apply phaseReq_stable hI | split)

theorem pwrCtl_stable {I : State → Prop} (hI : StableAll I) {s : State} (h : I s) (v : Word) : I (pwrCtl s v) := by
  dsimp only [pwrCtl]
  with_reducible (repeat' first | assumption | intro _ | apply f4Request_stable hI | apply State.raise_stable hI.toStable | refine State.when_stable ?_ _ _ ?_ | apply wake_stable hI.toStable | split)

theorem dskCtl_stable {I : State → Prop} (hI : Stable I) {s : State} (h : I s) (v : Word) : I (dskCtl s v) := by
  dsimp only [dskCtl]
  with_reducible (repeat' first | assumption | intro _ | apply State.put_stable hI | apply deskewGo_stable hI | apply deskewAbort_stable hI | refine State.when_stable ?_ _ _ ?_ | split)

theorem walkCtl_stable {I : State → Prop} (hI : Stable I) {s : State} (h : I s) (t : ℕ) (v : Word) : I (walkCtl s t v) := by
  dsimp only [walkCtl]
  with_reducible (repeat' first | assumption | intro _ | apply fullWalk_stable hI | apply fullWalkAbort_stable hI | refine State.when_stable ?_ _ _ ?_ | split)

theorem leWrite_stable {I : State → Prop} (hI : Stable I) {s : State} (h : I s) (p : Place) (a : ℕ) (frz : Bool) (v : Word) : I (leWrite s p a frz v) := by
  dsimp only [leWrite]
  with_reducible (repeat' first | assumption | intro _ | apply clearCounts_stable hI | apply laneCfg_stable hI | apply cmdBit_stable hI | apply typedWrite_stable hI | split)

theorem xlWrite_stable {I : State → Prop} (hI : Stable I) {s : State} (h : I s) (p : Place) (a : ℕ) (frz : Bool) (v : Word) : I (xlWrite s p a frz v) := by
  dsimp only [xlWrite]
  with_reducible (repeat' first | assumption | intro _ | apply rxeq_stable hI | apply clearCounts_stable hI | apply stagedHi_stable hI | apply cmdBit_stable hI | apply stagedLo_stable hI | apply txeq_stable hI | apply typedWrite_stable hI | split)

theorem ltWrite_stable {I : State → Prop} (hI : Stable I) {s : State} (h : I s) (p : Place) (a : ℕ) (frz : Bool) (v : Word) : I (ltWrite s p a frz v) := by
  dsimp only [ltWrite]
  with_reducible (repeat' first | assumption | intro _ | apply stagedHi_stable hI | apply stagedLo_stable hI | apply typedWrite_stable hI | split)

theorem tmrWrite_stable {I : State → Prop} (hI : Stable I) {s : State} (h : I s) (p : Place) (a : ℕ) (frz : Bool) (v : Word) : I (tmrWrite s p a frz v) := by
  dsimp only [tmrWrite]
  with_reducible (repeat' first | assumption | intro _ | apply timerCfg_stable hI | apply stagedHi_stable hI | apply stagedLo_stable hI | apply typedWrite_stable hI | split)

theorem engWrite_stable {I : State → Prop} (hI : StableAll I) {s : State} (h : I s) (p : Place) (a : ℕ) (frz : Bool) (v : Word) : I (engWrite s p a frz v) := by
  dsimp only [engWrite]
  with_reducible (repeat' first | assumption | intro _ | apply takeOcc_stable hI.toStable | apply taskArrivals_stable hI.toStable | apply engCtl_stable hI | apply cmdBit_stable hI.toStable | apply taskClear_stable hI.toStable | apply taskStart_stable hI.toStable | refine State.when_stable ?_ _ _ ?_ | apply typedWrite_stable hI.toStable | split)

theorem stWrite_stable {I : State → Prop} (hI : Stable I) {s : State} (h : I s) (p : Place) (a : ℕ) (frz : Bool) (v : Word) : I (stWrite s p a frz v) := by
  dsimp only [stWrite]
  with_reducible (repeat' first | assumption | intro _ | apply cmdBit_stable hI | apply opGo_stable hI | apply State.put_stable hI | apply typedWrite_stable hI | split)

theorem fabWrite_stable {I : State → Prop} (hI : Stable I) {s : State} (h : I s) (p : Place) (a : ℕ) (frz : Bool) (v : Word) : I (fabWrite s p a frz v) := by
  dsimp only [fabWrite]
  with_reducible (repeat' first | assumption | intro _ | apply censusAdmit_stable hI | apply cmdBit_stable hI | apply State.put_stable hI | apply censusForget_stable hI | apply typedWrite_stable hI | split)

theorem placeWrite_stable {I : State → Prop} (hI : StableAll I) {s : State} (h : I s) (req : Requester) (p : Place) (a : ℕ) (frz : Bool) (v : Word) : I (placeWrite s req p a frz v) := by
  dsimp only [placeWrite]
  with_reducible (repeat' first | assumption | intro _ | apply swpulse_stable hI.toStable | apply crcOpen_stable hI.toStable | apply srcWrite_stable hI.toStable | apply refApply_stable hI.toStable | apply monGo_stable hI.toStable | apply epochGo_stable hI.toStable | apply xlWrite_stable hI.toStable | apply mcntCtl_stable hI.toStable | apply walkCtl_stable hI.toStable | apply pwrCtl_stable hI | apply ltWrite_stable hI.toStable | apply imemCommit_stable hI.toStable | apply descStage_stable hI.toStable | apply trigOutCfg_stable hI.toStable | apply dskCtl_stable hI.toStable | apply engWrite_stable hI | apply crcCommit_stable hI.toStable | apply timingSet_stable hI.toStable | apply tmrWrite_stable hI.toStable | apply refDecl_stable hI.toStable | apply crcRefWrite_stable hI.toStable | apply ringCfg_stable hI.toStable | apply calPause_stable hI.toStable | apply cmdBit_stable hI.toStable | apply monCfg_stable hI.toStable | apply noteOld_stable hI.toStable | apply State.raise_stable hI.toStable | apply phaseWrite_stable hI.toStable | apply fltWrite_stable hI.toStable | apply levelSet_stable hI.toStable | apply imemStage_stable hI.toStable | apply descCommit_stable hI.toStable | apply leWrite_stable hI.toStable | apply fabWrite_stable hI.toStable | apply ringPtr_stable hI.toStable | apply stWrite_stable hI.toStable | apply epochCancel_stable hI.toStable | refine State.when_stable ?_ _ _ ?_ | apply groupChg_stable hI.toStable | apply fportCfg_stable hI.toStable | apply showTrace_stable hI.toStable | apply typedWrite_stable hI.toStable | apply ltrWrite_stable hI.toStable | split)

theorem fieldBusWrite_stable {I : State → Prop} (hI : StableAll I) {s : State} (h : I s) (req : Requester) (a : ℕ) (v : Word) : I (fieldBusWrite s req a v) := by
  dsimp only [fieldBusWrite]
  with_reducible (repeat' first | assumption | intro _ | apply State.raise_stable hI.toStable | apply endIdle_stable hI.toStable | apply wake_stable hI.toStable | apply placeWrite_stable hI | split)

theorem fieldBusRead_stable {I : State → Prop} (hI : Stable I) {s : State} (h : I s) (a : ℕ) : I (fieldBusRead s a).2 := by
  dsimp only [fieldBusRead]
  with_reducible (repeat' first | assumption | intro _ | apply State.draw_stable hI | apply State.raise_stable hI | apply wake_stable hI | refine snd_stable (by assumption) ?_ | refine fst_stable (by assumption) ?_ | refine third_stable (by assumption) ?_ | split)

theorem hostBusWrite_stable {I : State → Prop} (hI : Stable I) {s : State} (h : I s) (a : ℕ) (v : Word) : I (hostBusWrite s a v) := by
  dsimp only [hostBusWrite]
  with_reducible (repeat' first | assumption | intro _ | apply dmaAbort_stable hI | apply srcWrite_stable hI | apply dmaTail_stable hI | apply dmaRestart_stable hI | apply State.put_stable hI | apply fltWrite_stable hI | refine State.when_stable ?_ _ _ ?_ | apply dmaEnable_stable hI | apply typedWrite_stable hI | split | refine hI.rest _ _ _ _ _ _ _ _ _ _ _ _ _ _ _ _ _ _ _ _ ?_)

theorem hostBusRead_stable {I : State → Prop} (hI : Stable I) {s : State} (h : I s) (a : ℕ) : I (hostBusRead s a).2 := by
  dsimp only [hostBusRead]
  with_reducible (repeat' first | assumption | intro _ | split)

theorem regWrite_stable {I : State → Prop} (hI : StableAll I) {s : State} (h : I s) (req : Requester) (a : ℕ) (v : Word) : I (regWrite s req a v) := by
  dsimp only [regWrite]
  with_reducible (repeat' first | assumption | intro _ | apply fieldBusWrite_stable hI | apply hostBusWrite_stable hI.toStable | apply State.raise_stable hI.toStable | split)

theorem execRegWrite_stable {I : State → Prop} (hI : StableAll I) {s s' : State} (h : I s) (req : Requester) (addr : BitVec 26) (val : Word) (ht : execRegWrite req addr val s = .next s') : I s' := by
  cases ht
  with_reducible (repeat' first | assumption | intro _ | apply regWrite_stable hI | split)

theorem answerHost_stable {I : State → Prop} (hI : Stable I) {s : State} (h : I s) (tag : Option (BitVec 8)) (st : Fin 3) (d : List (BitVec 8)) : I (answerHost s tag st d) := by
  dsimp only [answerHost]
  with_reducible (repeat' first | assumption | intro _ | apply sendToHost_stable hI | split)

theorem rwinBusy_stable {I : State → Prop} (hI : Stable I) {s : State} (h : I s)  : I (rwinBusy s) := by
  dsimp only [rwinBusy]
  with_reducible (repeat' first | assumption | intro _ | apply State.put_stable hI | split)

theorem remoteAccess_stable {I : State → Prop} (hI : StableAll I) {s : State} (h : I s) (req : Requester) (tag : Option (BitVec 8)) (write : Bool) (a : ℕ) (v : Word) : I (remoteAccess s req tag write a v) := by
  dsimp only [remoteAccess]
  with_reducible (repeat' first | assumption | intro _ | apply rwinBusy_stable hI.toStable | apply fieldBusWrite_stable hI | apply fabSend_stable hI.toStable | apply answerHost_stable hI.toStable | apply State.raise_stable hI.toStable | apply fieldBusRead_stable hI.toStable | refine snd_stable (by assumption) ?_ | refine fst_stable (by assumption) ?_ | refine third_stable (by assumption) ?_ | split | refine (hI.toStable).rest _ _ _ _ _ _ _ _ _ _ _ _ _ _ _ _ _ _ _ _ ?_)

theorem remoteEnd_stable {I : State → Prop} (hI : Stable I) {s : State} (h : I s) (g : BitVec 8) (st : Fin 3) (w : Word) : I (remoteEnd s g st w) := by
  dsimp only [remoteEnd]
  with_reducible (repeat' first | assumption | intro _ | apply rwinBusy_stable hI | apply answerHost_stable hI | split | refine hI.rest _ _ _ _ _ _ _ _ _ _ _ _ _ _ _ _ _ _ _ _ ?_)

theorem fabRegCpl_stable {I : State → Prop} (hI : Stable I) {s : State} (h : I s) (g : BitVec 8) (st : Fin 3) (w : Word) : I (fabRegCpl s g st w) := by
  dsimp only [fabRegCpl]
  with_reducible (repeat' first | assumption | intro _ | apply State.raise_stable hI | apply remoteEnd_stable hI | apply gotFrom_stable hI | split)

theorem execFabRegCpl_stable {I : State → Prop} (hI : Stable I) {s s' : State} (h : I s) (tag : BitVec 8) (status : Fin 3) (val : Word) (ht : execFabRegCpl tag status val s = .next s') : I s' := by
  cases ht
  with_reducible (repeat' first | assumption | intro _ | apply fabRegCpl_stable hI | split)

theorem rwinTimeout_stable {I : State → Prop} (hI : Stable I) {s0 : State} (h : I s0) (g : BitVec 8) : I (rwinTimeout s0 g) := by
  dsimp only [rwinTimeout]
  with_reducible (repeat' first | assumption | intro _ | apply State.raise_stable hI | apply remoteEnd_stable hI | apply advanceNow_stable hI | split)

theorem execRwinTimeout_stable {I : State → Prop} (hI : Stable I) {s s' : State} (h : I s) (tag : BitVec 8) (ht : execRwinTimeout tag s = .next s') : I s' := by
  cases ht
  with_reducible (repeat' first | assumption | intro _ | apply rwinTimeout_stable hI | split)

theorem fabRegRd_stable {I : State → Prop} (hI : Stable I) {s : State} (h : I s) (src : ℕ) (tag : BitVec 8) (a : ℕ) : I (fabRegRd s src tag a) := by
  dsimp only [fabRegRd]
  with_reducible (repeat' first | assumption | intro _ | apply fabSend_stable hI | apply gotFrom_stable hI | apply fieldBusRead_stable hI | apply wake_stable hI | refine snd_stable (by assumption) ?_ | refine fst_stable (by assumption) ?_ | refine third_stable (by assumption) ?_ | split)

theorem execFabRegRd_stable {I : State → Prop} (hI : Stable I) {s s' : State} (h : I s) (src : House) (tag : BitVec 8) (addr : BitVec 26) (ht : execFabRegRd src tag addr s = .next s') : I s' := by
  cases ht
  with_reducible (repeat' first | assumption | intro _ | apply fabRegRd_stable hI | split)

theorem fabRegWr_stable {I : State → Prop} (hI : StableAll I) {s : State} (h : I s) (src : ℕ) (tag : BitVec 8) (a : ℕ) (v : Word) : I (fabRegWr s src tag a v) := by
  dsimp only [fabRegWr]
  with_reducible (repeat' first | assumption | intro _ | apply fieldBusWrite_stable hI | apply fabSend_stable hI.toStable | apply State.raise_stable hI.toStable | apply gotFrom_stable hI.toStable | apply wake_stable hI.toStable | split)

theorem execFabRegWr_stable {I : State → Prop} (hI : StableAll I) {s s' : State} (h : I s) (src : House) (tag : BitVec 8) (addr : BitVec 26) (val : Word) (ht : execFabRegWr src tag addr val s = .next s') : I s' := by
  cases ht
  with_reducible (repeat' first | assumption | intro _ | apply fabRegWr_stable hI | split)

theorem frameBar0_stable {I : State → Prop} (hI : StableAll I) {s : State} (h : I s) (tag : BitVec 8) (write : Bool) (a : ℕ) (v : Word) : I (frameBar0 s tag write a v) := by
  dsimp only [frameBar0]
  with_reducible (repeat' first | assumption | intro _ | apply fieldBusWrite_stable hI | apply remoteAccess_stable hI | apply answerHost_stable hI.toStable | apply fieldBusRead_stable hI.toStable | refine snd_stable (by assumption) ?_ | refine fst_stable (by assumption) ?_ | refine third_stable (by assumption) ?_ | split)

theorem askStore_stable {I : State → Prop} (hI : Stable I) {s : State} (h : I s) (m : Msg) (a : ℕ) (n : ℕ) (t0 : ℕ) : I (askStore s m a n t0) := by
  dsimp only [askStore]
  with_reducible (repeat' first | assumption | intro _ | apply State.modP_stable hI | split | refine hI.rest _ _ _ _ _ _ _ _ _ _ _ _ _ _ _ _ _ _ _ _ ?_)

theorem answerRead_stable {I : State → Prop} (hI : Stable I) {s : State} (h : I s) (tag : BitVec 8) (len : ℕ) (d : List (BitVec 8)) (bad : Bool) : I (answerRead s tag len d bad) := by
  dsimp only [answerRead]
  with_reducible (repeat' first | assumption | intro _ | apply answerHost_stable hI | split)

theorem frameStoreRead_stable {I : State → Prop} (hI : StableAll I) {s0 : State} (h : I s0) (tag : BitVec 8) (a : ℕ) (len : ℕ) (t0 : ℕ) : I (frameStoreRead s0 tag a len t0) := by
  dsimp only [frameStoreRead]
  with_reducible (repeat' first | assumption | intro _ | apply readBytes_stable hI | apply askStore_stable hI.toStable | apply answerRead_stable hI.toStable | apply answerHost_stable hI.toStable | apply State.raise_stable hI.toStable | apply wake_stable hI.toStable | refine snd_stable (by assumption) ?_ | refine fst_stable (by assumption) ?_ | refine third_stable (by assumption) ?_ | split)

theorem frameStoreWrite_stable {I : State → Prop} (hI : StableAll I) {s0 : State} (h : I s0) (tag : BitVec 8) (a : ℕ) (d : List (BitVec 8)) (t0 : ℕ) : I (frameStoreWrite s0 tag a d t0) := by
  dsimp only [frameStoreWrite]
  with_reducible (repeat' first | assumption | intro _ | apply askStore_stable hI.toStable | apply answerHost_stable hI.toStable | apply State.raise_stable hI.toStable | apply writeGrans_stable hI | apply wake_stable hI.toStable | split)

theorem serveMsg_stable {I : State → Prop} (hI : StableAll I) {s : State} (h : I s) (m : Msg) (t0 : ℕ) : I (serveMsg s m t0) := by
  dsimp only [serveMsg]
  with_reducible (repeat' first | assumption | intro _ | apply frameStoreWrite_stable hI | apply frameBar0_stable hI | apply answerHost_stable hI.toStable | apply State.raise_stable hI.toStable | apply frameStoreRead_stable hI | split)

theorem takeMsg_stable {I : State → Prop} (hI : StableAll I) {s : State} (h : I s) (m : Msg) : I (takeMsg s m) := by
  dsimp only [takeMsg]
  with_reducible (repeat' first | assumption | intro _ | apply State.modP_stable hI.toStable | apply serveMsg_stable hI | split)

theorem serveWaiting_stable {I : State → Prop} (hI : StableAll I) (l : List (Msg × ℕ)) {s : State} (h : I s) : I (serveWaiting s l) := by
  induction l generalizing s with
  | nil => exact h
  | cons x l ih =>
    obtain ⟨m, t0⟩ := x
    simp only [serveWaiting]
    exact ite_stable (ih (serveMsg_stable hI h _ _)) (State.modP_stable hI.toStable (serveMsg_stable hI h _ _) _)


theorem storeAnswers_stable {I : State → Prop} (hI : StableAll I) {s : State} (h : I s)  : I (storeAnswers s) := by
  dsimp only [storeAnswers]
  with_reducible (repeat' first | assumption | intro _ | apply State.modP_stable hI.toStable | apply serveWaiting_stable hI | apply answerRead_stable hI.toStable | apply answerHost_stable hI.toStable | split)

theorem execStoreGrant_stable {I : State → Prop} (hI : StableAll I) {s s' : State} (h : I s) (pc : PChan) (ht : execStoreGrant pc s = .next s') : I s' := by
  cases ht
  with_reducible (repeat' first | assumption | intro _ | apply storeGrant_stable hI | apply storeAnswers_stable hI | split)

theorem regRd_stable {I : State → Prop} (hI : StableAll I) {s : State} (h : I s) (tag : BitVec 8) (space : RegSpace) (len : ℕ) (a : ℕ) : I (regRd s tag space len a) := by
  dsimp only [regRd]
  with_reducible (repeat' first | assumption | intro _ | apply takeMsg_stable hI | apply gotField_stable hI.toStable | split)

theorem execRegRd_stable {I : State → Prop} (hI : StableAll I) {s s' : State} (h : I s) (tag : BitVec 8) (space : RegSpace) (len : ℕ) (addr : BitVec 40) (ht : execRegRd tag space len addr s = .next s') : I s' := by
  cases ht
  with_reducible (repeat' first | assumption | intro _ | apply regRd_stable hI | split)

theorem regWr_stable {I : State → Prop} (hI : StableAll I) {s : State} (h : I s) (tag : BitVec 8) (space : RegSpace) (a : ℕ) (d : List (BitVec 8)) : I (regWr s tag space a d) := by
  dsimp only [regWr]
  with_reducible (repeat' first | assumption | intro _ | apply foreignFrame_stable hI.toStable | apply takeMsg_stable hI | apply gotField_stable hI.toStable | split)

theorem execRegWr_stable {I : State → Prop} (hI : StableAll I) {s s' : State} (h : I s) (tag : BitVec 8) (space : RegSpace) (addr : BitVec 40) (data : List (BitVec 8)) (ht : execRegWr tag space addr data s = .next s') : I s' := by
  cases ht
  with_reducible (repeat' first | assumption | intro _ | apply regWr_stable hI | split)

theorem launchHeld_stable {I : State → Prop} (hI : Stable I) {s : State} (h : I s) (n : ℕ) : I (launchHeld s n) := by
  induction n generalizing s with
  | zero => exact h
  | succ n ih =>
    simp only [launchHeld]
    split
    · exact h
    split
    · exact ih (launch_stable hI (State.modP_stable hI h _) _)
    · exact h

theorem regCpl_stable {I : State → Prop} (hI : Stable I) {s : State} (h : I s) (tag : BitVec 8) (st : Fin 3) (d : List (BitVec 8)) : I (regCpl s tag st d) := by
  dsimp only [regCpl]
  with_reducible (repeat' first | assumption | intro _ | apply State.modP_stable hI | apply launchHeld_stable hI | apply State.raise_stable hI | refine State.when_stable ?_ _ _ ?_ | apply gotHost_stable hI | split)

theorem execRegCpl_stable {I : State → Prop} (hI : Stable I) {s s' : State} (h : I s) (tag : BitVec 8) (status : Fin 3) (data : List (BitVec 8)) (ht : execRegCpl tag status data s = .next s') : I s' := by
  cases ht
  with_reducible (repeat' first | assumption | intro _ | apply regCpl_stable hI | split)

theorem hostReply_stable {I : State → Prop} (hI : Stable I) {s : State} (h : I s) (tag : BitVec 8) (w : Word) : I (hostReply s tag w) := by
  dsimp only [hostReply]
  with_reducible (repeat' first | assumption | intro _ | apply State.modP_stable hI | split)

theorem bar0Tlp_stable {I : State → Prop} (hI : Stable I) {s : State} (h : I s) (write : Bool) (tag : BitVec 8) (addr : BitVec 26) (be : BitVec 4) (v : Word) : I (bar0Tlp s write tag addr be v) := by
  dsimp only [bar0Tlp]
  with_reducible (repeat' first | assumption | intro _ | apply hostBusRead_stable hI | apply hostBusWrite_stable hI | apply offer_stable hI | apply hostReply_stable hI | refine snd_stable (by assumption) ?_ | refine fst_stable (by assumption) ?_ | refine third_stable (by assumption) ?_ | split)

theorem execBar0Tlp_stable {I : State → Prop} (hI : Stable I) {s s' : State} (h : I s) (write : Bool) (tag : BitVec 8) (addr : BitVec 26) (be : BitVec 4) (val : Word) (ht : execBar0Tlp write tag addr be val s = .next s') : I s' := by
  cases ht
  with_reducible (repeat' first | assumption | intro _ | apply bar0Tlp_stable hI | split)

end Sys2Proof.Machine
end

