-- ==== Sys2Proof/Laws/Canonical.lean ====
section
/-! SUPPORT. Every update the machine makes keeps the sparse tables in their canonical form. -/

namespace Sys2Proof.Machine
theorem wf_filterMap (t : Tbl CalPart) (g : CalPart → CalPart) (h : Tbl.wf (fun _ => ({} : CalPart)) t) :
    Tbl.wf (fun _ => ({} : CalPart)) (t.filterMap (fun p => if g p.2 = {} then none else some (p.1, g p.2))) := by
  constructor
  · refine List.Pairwise.filterMap _ ?_ h.1
    intro a b hab c hc d hd
    split at hc <;> simp at hc
    split at hd <;> simp at hd
    rw [← hc, ← hd]; exact hab
  · intro p hp
    obtain ⟨q, _, hq⟩ := List.mem_filterMap.mp hp
    split at hq
    · cases hq
    · rename_i hne
      cases hq; exact hne

theorem canonical_stable : StableAll Canonical where
  reg s a w h := ⟨wf_tset _ _ _ _ h.1, h.2⟩
  eng s e x h := ⟨h.1, wf_tset _ _ _ _ h.2.1, h.2.2⟩
  lane s e x h := ⟨h.1, h.2.1, wf_tset _ _ _ _ h.2.2.1, h.2.2.2⟩
  tab s e x h := ⟨h.1, h.2.1, h.2.2.1, wf_tset _ _ _ _ h.2.2.2.1, h.2.2.2.2⟩
  pll s e x h := ⟨h.1, h.2.1, h.2.2.1, h.2.2.2.1, wf_tset _ _ _ _ h.2.2.2.2.1, h.2.2.2.2.2⟩
  store s e x h := ⟨h.1, h.2.1, h.2.2.1, h.2.2.2.1, h.2.2.2.2.1, wf_tset _ _ _ _ h.2.2.2.2.2.1, h.2.2.2.2.2.2⟩
  imem s e x h := by obtain ⟨h1, h2, h3, h4, h5, h6, h7, h8⟩ := h; exact ⟨h1, h2, h3, h4, h5, h6, wf_tset _ _ _ _ h7, h8⟩
  gran s e x h := by obtain ⟨h1, h2, h3, h4, h5, h6, h7, h8, h9⟩ := h; exact ⟨h1, h2, h3, h4, h5, h6, h7, wf_tset _ _ _ _ h8, h9⟩
  dma s e x h := by obtain ⟨h1, h2, h3, h4, h5, h6, h7, h8, h9, h10⟩ := h; exact ⟨h1, h2, h3, h4, h5, h6, h7, h8, wf_tset _ _ _ _ h9, h10⟩
  mon s e x h := by obtain ⟨h1, h2, h3, h4, h5, h6, h7, h8, h9, h10, h11⟩ := h; exact ⟨h1, h2, h3, h4, h5, h6, h7, h8, h9, wf_tset _ _ _ _ h10, h11⟩
  walk s e x h := by obtain ⟨h1, h2, h3, h4, h5, h6, h7, h8, h9, h10, h11, h12⟩ := h; exact ⟨h1, h2, h3, h4, h5, h6, h7, h8, h9, h10, wf_tset _ _ _ _ h11, h12⟩
  part s e i x h := by obtain ⟨h1, h2, h3, h4, h5, h6, h7, h8, h9, h10, h11, h12, h13⟩ := h; exact ⟨h1, h2, h3, h4, h5, h6, h7, h8, h9, h10, h11, wf_tset _ _ _ _ h12, h13⟩
  parts s g h := by obtain ⟨h1, h2, h3, h4, h5, h6, h7, h8, h9, h10, h11, h12, h13⟩ := h; exact ⟨h1, h2, h3, h4, h5, h6, h7, h8, h9, h10, h11, wf_filterMap _ _ h12, h13⟩
  clane s e x h := by obtain ⟨h1, h2, h3, h4, h5, h6, h7, h8, h9, h10, h11, h12, h13⟩ := h; exact ⟨h1, h2, h3, h4, h5, h6, h7, h8, h9, h10, h11, h12, wf_tset _ _ _ _ h13⟩
  clk s c hc h := h
  free s h := h
  rest s _ _ _ _ _ _ _ _ _ _ _ _ _ _ _ _ _ _ _ h := h
  regsOf s p h := ⟨wf_filter _ _ _ h.1, h.2⟩
  noDma s h := by obtain ⟨h1, h2, h3, h4, h5, h6, h7, h8, h9, h10⟩ := h; exact ⟨h1, h2, h3, h4, h5, h6, h7, h8, wf_nil _, h10⟩
  noField s h := by
    obtain ⟨h1, h2, h3, h4, h5, h6, h7, h8, h9, h10⟩ := h
    exact ⟨h1, wf_nil _, wf_nil _, wf_nil _, wf_nil _, wf_nil _, wf_nil _, wf_nil _, h9, wf_nil _, wf_nil _, wf_nil _, wf_nil _⟩

end Sys2Proof.Machine
end

