-- ==== Sys2Proof/Laws/ExecKeeps.lean ====
section
/-! SUPPORT. What every command keeps, from what its meaning keeps: one case per constructor. -/

namespace Sys2Proof.Machine

/-- A property that every update of the state keeps, the store's writes and the field side's reset among them, is kept by every command. -/
theorem exec_keeps_all {I : State → Prop} (hI : StableAll I) (c : Instr) (s t : State) (h : I s) (ht : exec c s = .next t) : I t := by
  cases c with
  | arm e start => exact execArm_stable hI h _ _ ht
  | primeComplete e => exact execPrimeComplete_stable hI.toStable h _ ht
  | start e => exact execStart_stable hI.toStable h _ ht
  | timeStart e => exact execTimeStart_stable hI.toStable h _ ht
  | abort e => exact execAbort_stable hI.toStable h _ ht
  | abortActs e => exact execAbortActs_stable hI.toStable h _ ht
  | fillerEndPark e => exact execFillerEndPark_stable hI.toStable h _ ht
  | engineReset e => exact execEngineReset_stable hI.toStable h _ ht
  | imemStage e idx low => exact execImemStage_stable hI.toStable h _ _ _ ht
  | imemCommit e idx high => exact execImemCommit_stable hI.toStable h _ _ _ ht
  | nop e => exact execNop_stable hI.toStable h _ ht
  | halt e => exact execHalt_stable hI.toStable h _ ht
  | jmp e addr => exact execJmp_stable hI.toStable h _ _ ht
  | call e addr => exact execCall_stable hI.toStable h _ _ ht
  | ret e => exact execRet_stable hI.toStable h _ ht
  | br e mask addr => exact execBr_stable hI.toStable h _ _ _ ht
  | djnz e x addr => exact execDjnz_stable hI.toStable h _ _ _ ht
  | play e seg n => exact execPlay_stable hI.toStable h _ _ _ ht
  | playc e seg x => exact execPlayc_stable hI.toStable h _ _ _ ht
  | wait e mask seg => exact execWait_stable hI.toStable h _ _ _ ht
  | strm e ring g => exact execStrm_stable hI.toStable h _ _ _ ht
  | synct e => exact execSynct_stable hI.toStable h _ ht
  | ldt e hi imm => exact execLdt_stable hI.toStable h _ _ _ ht
  | ldtStart e => exact execLdtStart_stable hI.toStable h _ ht
  | addt e imm => exact execAddt_stable hI.toStable h _ _ ht
  | ldc e x imm => exact execLdc_stable hI.toStable h _ _ _ ht
  | addc e x imm => exact execAddc_stable hI.toStable h _ _ _ ht
  | mark e m offset => exact execMark_stable hI.toStable h _ _ _ ht
  | sig e m => exact execSig_stable hI.toStable h _ _ ht
  | setf e idx cont => exact execSetf_stable hI.toStable h _ _ _ ht
  | ldf e idx value => exact execLdf_stable hI.toStable h _ _ _ ht
  | setp e rel phase => exact execSetp_stable hI.toStable h _ _ _ ht
  | tset e a b => exact execTset_stable hI.toStable h _ _ _ ht
  | lvl e n => exact execLvl_stable hI.toStable h _ _ ht
  | cmpm e mode => exact execCmpm_stable hI.toStable h _ _ ht
  | undefinedWord e cause => exact execUndefinedWord_stable hI.toStable h _ _ ht
  | chainOverrun e => exact execChainOverrun_stable hI.toStable h _ ht
  | decisionPoint e => exact execDecisionPoint_stable hI.toStable h _ ht
  | granuleSample e => exact execGranuleSample_stable hI.toStable h _ ht
  | playEnd e => exact execPlayEnd_stable hI.toStable h _ ht
  | haltComplete e => exact execHaltComplete_stable hI.toStable h _ ht
  | markFire e m => exact execMarkFire_stable hI.toStable h _ _ ht
  | granuleMissing e => exact execGranuleMissing_stable hI.toStable h _ ht
  | slipResume e => exact execSlipResume_stable hI.toStable h _ ht
  | poisonPlay e => exact execPoisonPlay_stable hI.toStable h _ ht
  | taskset e flags => exact execTaskset_stable hI.toStable h _ _ ht
  | taskClear e val => exact execTaskClear_stable hI.toStable h _ _ ht
  | suiteDecision e => exact execSuiteDecision_stable hI.toStable h _ ht
  | suiteDisagree e => exact execSuiteDisagree_stable hI.toStable h _ ht
  | suiteMemberFail e => exact execSuiteMemberFail_stable hI.toStable h _ ht
  | lockstepVisit t bistPass => exact execLockstepVisit_stable hI.toStable h _ _ ht
  | lockstepMismatch t diff slotBistPass => exact execLockstepMismatch_stable hI.toStable h _ _ _ ht
  | descStage t ix word val => exact execDescStage_stable hI.toStable h _ _ _ _ ht
  | descCommit t ix val => exact execDescCommit_stable hI.toStable h _ _ _ ht
  | descReload t ix => exact execDescReload_stable hI.toStable h _ _ ht
  | pinLoadComplete t ix => exact execPinLoadComplete_stable hI h _ _ ht
  | heldCopyRelease t ix => exact execHeldCopyRelease_stable hI.toStable h _ _ ht
  | stagedLoWrite p val => exact execStagedLoWrite_stable hI.toStable h _ _ ht
  | stagedHiCommit p val => exact execStagedHiCommit_stable hI.toStable h _ _ ht
  | timingSetWrite l set word val => exact execTimingSetWrite_stable hI.toStable h _ _ _ _ ht
  | levelSetWrite l set thr val => exact execLevelSetWrite_stable hI.toStable h _ _ _ _ ht
  | laneCfgWrite l val => exact execLaneCfgWrite_stable hI.toStable h _ _ ht
  | counterClear e => exact execCounterClear_stable hI.toStable h _ ht
  | captureGranuleWrite e => exact execCaptureGranuleWrite_stable hI.toStable h _ ht
  | monGo n val => exact execMonGo_stable hI.toStable h _ _ ht
  | monDone n uv => exact execMonDone_stable hI.toStable h _ _ ht
  | txeqWrite k val => exact execTxeqWrite_stable hI.toStable h _ _ ht
  | rxeqWrite k val => exact execRxeqWrite_stable hI.toStable h _ _ ht
  | quadReopen q => exact execQuadReopen_stable hI.toStable h _ ht
  | rxIdleChange k idle => exact execRxIdleChange_stable hI.toStable h _ _ ht
  | syncAcquired k offsets => exact execSyncAcquired_stable hI.toStable h _ _ ht
  | syncSlip k up => exact execSyncSlip_stable hI.toStable h _ _ ht
  | syncLoss k => exact execSyncLoss_stable hI.toStable h _ ht
  | ringCfgWrite r val => exact execRingCfgWrite_stable hI.toStable h _ _ ht
  | ringPtrWrite r wptr val => exact execRingPtrWrite_stable hI.toStable h _ _ _ ht
  | streamGranule r p src data => exact execStreamGranule_stable hI h _ _ _ _ ht
  | creditUpdate r => exact execCreditUpdate_stable hI.toStable h _ ht
  | phaseReqNormal req => exact execPhaseReqNormal_stable hI.toStable h _ ht
  | phaseReqTest req => exact execPhaseReqTest_stable hI.toStable h _ ht
  | phaseReqRecovery req => exact execPhaseReqRecovery_stable hI.toStable h req ht
  | factoryTestEnter => exact execFactoryTestEnter_stable hI.toStable h ht
  | aperRead off len => exact execAperRead_stable hI h _ _ ht
  | aperWrite off data => exact execAperWrite_stable hI h _ _ ht
  | hallwayDelivery => exact execHallwayDelivery_stable hI.toStable h ht
  | stormDetect ch => exact execStormDetect_stable hI.toStable h ch ht
  | groupArm g => exact execGroupArm_stable hI.toStable h _ ht
  | groupDisarm g => exact execGroupDisarm_stable hI.toStable h _ ht
  | swpulse val => exact execSwpulse_stable hI.toStable h _ ht
  | timerCfgWrite ix val => exact execTimerCfgWrite_stable hI.toStable h _ _ ht
  | timerFire ix => exact execTimerFire_stable hI.toStable h _ ht
  | trigInEdge ix rising late => exact execTrigInEdge_stable hI.toStable h _ _ _ ht
  | trigOutPulseEnd ix => exact execTrigOutPulseEnd_stable hI.toStable h _ ht
  | timedTrigEdge ix => exact execTimedTrigEdge_stable hI.toStable h _ ht
  | eventPacket src imp cycle => exact execEventPacket_stable hI.toStable h src imp cycle ht
  | importApply j => exact execImportApply_stable hI.toStable h _ ht
  | faultGroupActive f => exact execFaultGroupActive_stable hI.toStable h f ht
  | storeGrant pc => exact execStoreGrant_stable hI h _ ht
  | agePromotion pc => exact execAgePromotion_stable hI.toStable h _ ht
  | refreshDue pc b => exact execRefreshDue_stable hI.toStable h _ _ ht
  | owedRefresh pc b => exact execOwedRefresh_stable hI.toStable h _ _ ht
  | neighbourRefresh pc b row => exact execNeighbourRefresh_stable hI.toStable h _ _ _ ht
  | refreshWindowEnd pc b => exact execRefreshWindowEnd_stable hI.toStable h _ _ ht
  | rowIdleClose pc b => exact execRowIdleClose_stable hI.toStable h _ _ ht
  | stackTempRead stk c16 stale => exact execStackTempRead_stable hI.toStable h _ _ _ ht
  | ceWriteback gran => exact execCeWriteback_stable hI h _ ht
  | rowRemap pc b row => exact execRowRemap_stable hI h _ _ _ ht
  | scrubRead gran => exact execScrubRead_stable hI h _ ht
  | trainPassStart => exact execTrainPassStart_stable hI.toStable h ht
  | trainPassComplete centres => exact execTrainPassComplete_stable hI.toStable h _ ht
  | trainPassAbort => exact execTrainPassAbort_stable hI.toStable h ht
  | trainLock => exact execTrainLock_stable hI.toStable h ht
  | opGo point => exact execOpGo_stable hI.toStable h _ ht
  | opChangeComplete => exact execOpChangeComplete_stable hI.toStable h ht
  | refApply => exact execRefApply_stable hI.toStable h ht
  | shutterOpen id => exact execShutterOpen_stable hI h _ ht
  | qualTimeout id => exact execQualTimeout_stable hI.toStable h _ ht
  | pllLoss id cause => exact execPllLoss_stable hI.toStable h _ _ ht
  | stackSelfRefresh stk => exact execStackSelfRefresh_stable hI.toStable h _ ht
  | storeRecoveryGather g => exact execStoreRecoveryGather_stable hI.toStable h _ ht
  | oscFail sd dev => exact execOscFail_stable hI.toStable h _ _ ht
  | epochGo => exact execEpochGo_stable hI.toStable h ht
  | epochCancel => exact execEpochCancel_stable hI.toStable h ht
  | syncEdge frac => exact execSyncEdge_stable hI.toStable h _ ht
  | epochApply => exact execEpochApply_stable hI.toStable h ht
  | walkStart t rd => exact execWalkStart_stable hI.toStable h _ _ ht
  | calVisit e part res => exact execCalVisit_stable hI.toStable h _ _ _ ht
  | walkEnd t => exact execWalkEnd_stable hI.toStable h _ ht
  | trimExchange e part => exact execTrimExchange_stable hI.toStable h _ _ ht
  | refDeclWrite reft val => exact execRefDeclWrite_stable hI.toStable h _ _ ht
  | calPause on => exact execCalPause_stable hI.toStable h _ ht
  | fullWalk t => exact execFullWalk_stable hI.toStable h _ ht
  | fullWalkAbort t => exact execFullWalkAbort_stable hI.toStable h _ ht
  | deskewGo avgLog2 => exact execDeskewGo_stable hI.toStable h _ ht
  | deskewAbort => exact execDeskewAbort_stable hI.toStable h ht
  | deskewComplete results => exact execDeskewComplete_stable hI.toStable h _ ht
  | faultRecord sd src unit cls syn => exact execFaultRecord_stable hI.toStable h _ _ _ _ _ ht
  | nmiTrap sd => exact execNmiTrap_stable hI.toStable h _ ht
  | blockResetBegin b => exact execBlockResetBegin_stable hI h _ ht
  | blockResetEnd b => exact execBlockResetEnd_stable hI.toStable h _ ht
  | chipReset => exact execChipReset_stable hI h ht
  | srcActiveClear sd n => exact execSrcActiveClear_stable hI.toStable h _ _ ht
  | faultLock sd => exact execFaultLock_stable hI.toStable h _ ht
  | atticClear sd => exact execAtticClear_stable hI.toStable h _ ht
  | atticRelease sd req => exact execAtticRelease_stable hI.toStable h _ _ ht
  | atticHoldTimeout sd => exact execAtticHoldTimeout_stable hI.toStable h _ ht
  | aliveToggle sd => exact execAliveToggle_stable hI.toStable h _ ht
  | injGo sd => exact execInjGo_stable hI.toStable h _ ht
  | injRecord sd => exact execInjRecord_stable hI.toStable h _ ht
  | injAbort sd => exact execInjAbort_stable hI.toStable h _ ht
  | regWrite req addr val => exact execRegWrite_stable hI h _ _ _ ht
  | crcOpen req => exact execCrcOpen_stable hI.toStable h _ ht
  | crcCommit req => exact execCrcCommit_stable hI.toStable h _ ht
  | crcRefWrite req b val => exact execCrcRefWrite_stable hI.toStable h _ _ _ ht
  | crcBlockPass b => exact execCrcBlockPass_stable hI.toStable h _ ht
  | cfgOpenLong fw => exact execCfgOpenLong_stable hI.toStable h _ ht
  | mcntStart ix => exact execMcntStart_stable hI.toStable h _ ht
  | mcntStop ix => exact execMcntStop_stable hI.toStable h _ ht
  | mcntSnap ix => exact execMcntSnap_stable hI.toStable h _ ht
  | mcntClr ix => exact execMcntClr_stable hI.toStable h _ ht
  | regRd tag space len addr => exact execRegRd_stable hI h _ _ _ _ ht
  | regWr tag space addr data => exact execRegWr_stable hI h _ _ _ _ ht
  | regCpl tag status data => exact execRegCpl_stable hI.toStable h _ _ _ ht
  | streamData ring first firstSlice slog data => exact execStreamData_stable hI h _ _ _ _ _ ht
  | streamCredit ring rptr limit slog => exact execStreamCredit_stable hI.toStable h _ _ _ _ ht
  | irq v => exact execIrq_stable hI.toStable h _ ht
  | faultNotice w0 w1 w2 w3 => exact execFaultNotice_stable hI.toStable h _ _ _ _ ht
  | aliveState dest alive house valid => exact execAliveState_stable hI.toStable h _ _ _ _ ht
  | versionHello dest mask => exact execVersionHello_stable hI.toStable h _ _ ht
  | foreignFrame dest typ => exact execForeignFrame_stable hI.toStable h _ _ ht
  | retryRequest l => exact execRetryRequest_stable hI h _ ht
  | ackTimeout l => exact execAckTimeout_stable hI h _ ht
  | crossingFail x => exact execCrossingFail_stable hI h _ ht
  | porchUp => exact execPorchUp_stable hI.toStable h ht
  | porchDown why => exact execPorchDown_stable hI h _ ht
  | bar0Tlp write tag addr be val => exact execBar0Tlp_stable hI.toStable h _ _ _ _ _ ht
  | dmaQtail ix tail descs => exact execDmaQtail_stable hI.toStable h _ _ _ ht
  | dmaDescComplete ix err => exact execDmaDescComplete_stable hI.toStable h _ _ ht
  | dmaRestart ix => exact execDmaRestart_stable hI.toStable h _ ht
  | dmaAbort ix => exact execDmaAbort_stable hI.toStable h _ ht
  | hello p uid mask fpr port => exact execHello_stable hI.toStable h _ _ _ _ _ ht
  | portLinkUp p => exact execPortLinkUp_stable hI.toStable h _ ht
  | fabLaneFail p lane => exact execFabLaneFail_stable hI.toStable h _ _ ht
  | portDown p why => exact execPortDown_stable hI.toStable h _ _ ht
  | lsa src seq links => exact execLsa_stable hI.toStable h _ _ _ ht
  | census seq keeper own entries => exact execCensus_stable hI.toStable h _ _ _ _ ht
  | keeperTimeout => exact execKeeperTimeout_stable hI.toStable h ht
  | censusAdmitOne house => exact execCensusAdmitOne_stable hI.toStable h _ ht
  | censusAdmit house => exact execCensusAdmit_stable hI.toStable h _ ht
  | censusForget house => exact execCensusForget_stable hI.toStable h _ ht
  | timeReq p => exact execTimeReq_stable hI.toStable h _ ht
  | timeRsp p t1 t2 t3 t4 => exact execTimeRsp_stable hI.toStable h _ _ _ _ _ ht
  | timeStep => exact execTimeStep_stable hI.toStable h ht
  | parentLoss => exact execParentLoss_stable hI.toStable h ht
  | epoch src applyAt beats frac => exact execEpoch_stable hI.toStable h src applyAt beats frac ht
  | event src imp cycle => exact execEvent_stable hI.toStable h _ _ _ ht
  | fabFaultNotice src w0 w1 w2 w3 => exact execFabFaultNotice_stable hI.toStable h _ _ _ _ _ ht
  | rnoteClear => exact execRnoteClear_stable hI.toStable h ht
  | fabRegRd src tag addr => exact execFabRegRd_stable hI.toStable h _ _ _ ht
  | fabRegWr src tag addr val => exact execFabRegWr_stable hI h _ _ _ _ ht
  | fabRegCpl tag status val => exact execFabRegCpl_stable hI.toStable h _ _ _ ht
  | rwinTimeout tag => exact execRwinTimeout_stable hI.toStable h _ ht
  | fabStream src ring firstSlice first data => exact execFabStream_stable hI h _ _ _ _ _ ht
  | fabCredit ring rptr wptr => exact execFabCredit_stable hI.toStable h _ _ _ ht
  | powerEntry => exact execPowerEntry_stable hI.toStable h ht
  | wakeEvent src => exact execWakeEvent_stable hI.toStable h _ ht
  | wakeCmd => exact execWakeCmd_stable hI.toStable h ht
  | f4Request => exact execF4Request_stable hI h ht
  | ltrWrite val => exact execLtrWrite_stable hI.toStable h _ ht
  | frstN level suppliesOk => exact execFrstN_stable hI h _ _ ht
  | hrstN level suppliesOk => exact execHrstN_stable hI h _ _ ht
  | perstN level => exact execPerstN_stable hI.toStable h _ ht
  | bootStageAdvance info => exact execBootStageAdvance_stable hI.toStable h _ ht
  | bootStall err => exact execBootStall_stable hI.toStable h _ ht
  | hostBootStage info => exact execHostBootStage_stable hI.toStable h _ ht
  | supplyUv sd supply mv => exact execSupplyUv_stable hI.toStable h _ _ _ ht
  | droop wing lowestUv => exact execDroop_stable hI.toStable h _ _ ht
  | tjHigh sd sensor c16 => exact execTjHigh_stable hI.toStable h _ _ _ ht
  | tjCrit sd sensor c16 => exact execTjCrit_stable hI.toStable h _ _ _ ht
  | missionMinute sd c16 => exact execMissionMinute_stable hI.toStable h _ _ ht
  | missionLogWrite sd => exact execMissionLogWrite_stable hI.toStable h _ ht
  | compareJudgement e items => exact execCompareJudgement_stable hI.toStable h _ _ ht
  | pllLock id band dev => exact execPllLock_stable hI.toStable h _ _ _ ht
  | referencePresent id => exact execReferencePresent_stable hI.toStable h _ ht
  | overfreqWhileClosed id => exact execOverfreqWhileClosed_stable hI.toStable h _ ht
  | timedTrigEnd ix => exact execTimedTrigEnd_stable hI.toStable h _ ht
  | traceStale e => exact execTraceStale_stable hI.toStable h _ ht
  | powerCycle sd => exact execPowerCycle_stable hI h _ ht
  | d3hotTransition enter => exact execD3hotTransition_stable hI.toStable h _ ht

/-- A property that every update keeps but the store's writes and the field side's reset is kept by the commands that make neither. -/
theorem exec_keeps {I : State → Prop} (hI : Stable I) (c : Instr) (hw : c.mayWriteStore = false) (s t : State) (h : I s)
    (ht : exec c s = .next t) : I t := by
  cases c with
  | arm e start => exact nomatch hw
  | primeComplete e => exact execPrimeComplete_stable hI h _ ht
  | start e => exact execStart_stable hI h _ ht
  | timeStart e => exact execTimeStart_stable hI h _ ht
  | abort e => exact execAbort_stable hI h _ ht
  | abortActs e => exact execAbortActs_stable hI h _ ht
  | fillerEndPark e => exact execFillerEndPark_stable hI h _ ht
  | engineReset e => exact execEngineReset_stable hI h _ ht
  | imemStage e idx low => exact execImemStage_stable hI h _ _ _ ht
  | imemCommit e idx high => exact execImemCommit_stable hI h _ _ _ ht
  | nop e => exact execNop_stable hI h _ ht
  | halt e => exact execHalt_stable hI h _ ht
  | jmp e addr => exact execJmp_stable hI h _ _ ht
  | call e addr => exact execCall_stable hI h _ _ ht
  | ret e => exact execRet_stable hI h _ ht
  | br e mask addr => exact execBr_stable hI h _ _ _ ht
  | djnz e x addr => exact execDjnz_stable hI h _ _ _ ht
  | play e seg n => exact execPlay_stable hI h _ _ _ ht
  | playc e seg x => exact execPlayc_stable hI h _ _ _ ht
  | wait e mask seg => exact execWait_stable hI h _ _ _ ht
  | strm e ring g => exact execStrm_stable hI h _ _ _ ht
  | synct e => exact execSynct_stable hI h _ ht
  | ldt e hi imm => exact execLdt_stable hI h _ _ _ ht
  | ldtStart e => exact execLdtStart_stable hI h _ ht
  | addt e imm => exact execAddt_stable hI h _ _ ht
  | ldc e x imm => exact execLdc_stable hI h _ _ _ ht
  | addc e x imm => exact execAddc_stable hI h _ _ _ ht
  | mark e m offset => exact execMark_stable hI h _ _ _ ht
  | sig e m => exact execSig_stable hI h _ _ ht
  | setf e idx cont => exact execSetf_stable hI h _ _ _ ht
  | ldf e idx value => exact execLdf_stable hI h _ _ _ ht
  | setp e rel phase => exact execSetp_stable hI h _ _ _ ht
  | tset e a b => exact execTset_stable hI h _ _ _ ht
  | lvl e n => exact execLvl_stable hI h _ _ ht
  | cmpm e mode => exact execCmpm_stable hI h _ _ ht
  | undefinedWord e cause => exact execUndefinedWord_stable hI h _ _ ht
  | chainOverrun e => exact execChainOverrun_stable hI h _ ht
  | decisionPoint e => exact execDecisionPoint_stable hI h _ ht
  | granuleSample e => exact execGranuleSample_stable hI h _ ht
  | playEnd e => exact execPlayEnd_stable hI h _ ht
  | haltComplete e => exact execHaltComplete_stable hI h _ ht
  | markFire e m => exact execMarkFire_stable hI h _ _ ht
  | granuleMissing e => exact execGranuleMissing_stable hI h _ ht
  | slipResume e => exact execSlipResume_stable hI h _ ht
  | poisonPlay e => exact execPoisonPlay_stable hI h _ ht
  | taskset e flags => exact execTaskset_stable hI h _ _ ht
  | taskClear e val => exact execTaskClear_stable hI h _ _ ht
  | suiteDecision e => exact execSuiteDecision_stable hI h _ ht
  | suiteDisagree e => exact execSuiteDisagree_stable hI h _ ht
  | suiteMemberFail e => exact execSuiteMemberFail_stable hI h _ ht
  | lockstepVisit t bistPass => exact execLockstepVisit_stable hI h _ _ ht
  | lockstepMismatch t diff slotBistPass => exact execLockstepMismatch_stable hI h _ _ _ ht
  | descStage t ix word val => exact execDescStage_stable hI h _ _ _ _ ht
  | descCommit t ix val => exact execDescCommit_stable hI h _ _ _ ht
  | descReload t ix => exact execDescReload_stable hI h _ _ ht
  | pinLoadComplete t ix => exact nomatch hw
  | heldCopyRelease t ix => exact execHeldCopyRelease_stable hI h _ _ ht
  | stagedLoWrite p val => exact execStagedLoWrite_stable hI h _ _ ht
  | stagedHiCommit p val => exact execStagedHiCommit_stable hI h _ _ ht
  | timingSetWrite l set word val => exact execTimingSetWrite_stable hI h _ _ _ _ ht
  | levelSetWrite l set thr val => exact execLevelSetWrite_stable hI h _ _ _ _ ht
  | laneCfgWrite l val => exact execLaneCfgWrite_stable hI h _ _ ht
  | counterClear e => exact execCounterClear_stable hI h _ ht
  | captureGranuleWrite e => exact execCaptureGranuleWrite_stable hI h _ ht
  | monGo n val => exact execMonGo_stable hI h _ _ ht
  | monDone n uv => exact execMonDone_stable hI h _ _ ht
  | txeqWrite k val => exact execTxeqWrite_stable hI h _ _ ht
  | rxeqWrite k val => exact execRxeqWrite_stable hI h _ _ ht
  | quadReopen q => exact execQuadReopen_stable hI h _ ht
  | rxIdleChange k idle => exact execRxIdleChange_stable hI h _ _ ht
  | syncAcquired k offsets => exact execSyncAcquired_stable hI h _ _ ht
  | syncSlip k up => exact execSyncSlip_stable hI h _ _ ht
  | syncLoss k => exact execSyncLoss_stable hI h _ ht
  | ringCfgWrite r val => exact execRingCfgWrite_stable hI h _ _ ht
  | ringPtrWrite r wptr val => exact execRingPtrWrite_stable hI h _ _ _ ht
  | streamGranule r p src data => exact nomatch hw
  | creditUpdate r => exact execCreditUpdate_stable hI h _ ht
  | phaseReqNormal req => exact execPhaseReqNormal_stable hI h _ ht
  | phaseReqTest req => exact execPhaseReqTest_stable hI h _ ht
  | phaseReqRecovery req => exact execPhaseReqRecovery_stable hI h req ht
  | factoryTestEnter => exact execFactoryTestEnter_stable hI h ht
  | aperRead off len => exact nomatch hw
  | aperWrite off data => exact nomatch hw
  | hallwayDelivery => exact execHallwayDelivery_stable hI h ht
  | stormDetect ch => exact execStormDetect_stable hI h ch ht
  | groupArm g => exact execGroupArm_stable hI h _ ht
  | groupDisarm g => exact execGroupDisarm_stable hI h _ ht
  | swpulse val => exact execSwpulse_stable hI h _ ht
  | timerCfgWrite ix val => exact execTimerCfgWrite_stable hI h _ _ ht
  | timerFire ix => exact execTimerFire_stable hI h _ ht
  | trigInEdge ix rising late => exact execTrigInEdge_stable hI h _ _ _ ht
  | trigOutPulseEnd ix => exact execTrigOutPulseEnd_stable hI h _ ht
  | timedTrigEdge ix => exact execTimedTrigEdge_stable hI h _ ht
  | eventPacket src imp cycle => exact execEventPacket_stable hI h src imp cycle ht
  | importApply j => exact execImportApply_stable hI h _ ht
  | faultGroupActive f => exact execFaultGroupActive_stable hI h f ht
  | storeGrant pc => exact nomatch hw
  | agePromotion pc => exact execAgePromotion_stable hI h _ ht
  | refreshDue pc b => exact execRefreshDue_stable hI h _ _ ht
  | owedRefresh pc b => exact execOwedRefresh_stable hI h _ _ ht
  | neighbourRefresh pc b row => exact execNeighbourRefresh_stable hI h _ _ _ ht
  | refreshWindowEnd pc b => exact execRefreshWindowEnd_stable hI h _ _ ht
  | rowIdleClose pc b => exact execRowIdleClose_stable hI h _ _ ht
  | stackTempRead stk c16 stale => exact execStackTempRead_stable hI h _ _ _ ht
  | ceWriteback gran => exact nomatch hw
  | rowRemap pc b row => exact nomatch hw
  | scrubRead gran => exact nomatch hw
  | trainPassStart => exact execTrainPassStart_stable hI h ht
  | trainPassComplete centres => exact execTrainPassComplete_stable hI h _ ht
  | trainPassAbort => exact execTrainPassAbort_stable hI h ht
  | trainLock => exact execTrainLock_stable hI h ht
  | opGo point => exact execOpGo_stable hI h _ ht
  | opChangeComplete => exact execOpChangeComplete_stable hI h ht
  | refApply => exact execRefApply_stable hI h ht
  | shutterOpen id => exact nomatch hw
  | qualTimeout id => exact execQualTimeout_stable hI h _ ht
  | pllLoss id cause => exact execPllLoss_stable hI h _ _ ht
  | stackSelfRefresh stk => exact execStackSelfRefresh_stable hI h _ ht
  | storeRecoveryGather g => exact execStoreRecoveryGather_stable hI h _ ht
  | oscFail sd dev => exact execOscFail_stable hI h _ _ ht
  | epochGo => exact execEpochGo_stable hI h ht
  | epochCancel => exact execEpochCancel_stable hI h ht
  | syncEdge frac => exact execSyncEdge_stable hI h _ ht
  | epochApply => exact execEpochApply_stable hI h ht
  | walkStart t rd => exact execWalkStart_stable hI h _ _ ht
  | calVisit e part res => exact execCalVisit_stable hI h _ _ _ ht
  | walkEnd t => exact execWalkEnd_stable hI h _ ht
  | trimExchange e part => exact execTrimExchange_stable hI h _ _ ht
  | refDeclWrite reft val => exact execRefDeclWrite_stable hI h _ _ ht
  | calPause on => exact execCalPause_stable hI h _ ht
  | fullWalk t => exact execFullWalk_stable hI h _ ht
  | fullWalkAbort t => exact execFullWalkAbort_stable hI h _ ht
  | deskewGo avgLog2 => exact execDeskewGo_stable hI h _ ht
  | deskewAbort => exact execDeskewAbort_stable hI h ht
  | deskewComplete results => exact execDeskewComplete_stable hI h _ ht
  | faultRecord sd src unit cls syn => exact execFaultRecord_stable hI h _ _ _ _ _ ht
  | nmiTrap sd => exact execNmiTrap_stable hI h _ ht
  | blockResetBegin b => exact nomatch hw
  | blockResetEnd b => exact execBlockResetEnd_stable hI h _ ht
  | chipReset => exact nomatch hw
  | srcActiveClear sd n => exact execSrcActiveClear_stable hI h _ _ ht
  | faultLock sd => exact execFaultLock_stable hI h _ ht
  | atticClear sd => exact execAtticClear_stable hI h _ ht
  | atticRelease sd req => exact execAtticRelease_stable hI h _ _ ht
  | atticHoldTimeout sd => exact execAtticHoldTimeout_stable hI h _ ht
  | aliveToggle sd => exact execAliveToggle_stable hI h _ ht
  | injGo sd => exact execInjGo_stable hI h _ ht
  | injRecord sd => exact execInjRecord_stable hI h _ ht
  | injAbort sd => exact execInjAbort_stable hI h _ ht
  | regWrite req addr val => exact nomatch hw
  | crcOpen req => exact execCrcOpen_stable hI h _ ht
  | crcCommit req => exact execCrcCommit_stable hI h _ ht
  | crcRefWrite req b val => exact execCrcRefWrite_stable hI h _ _ _ ht
  | crcBlockPass b => exact execCrcBlockPass_stable hI h _ ht
  | cfgOpenLong fw => exact execCfgOpenLong_stable hI h _ ht
  | mcntStart ix => exact execMcntStart_stable hI h _ ht
  | mcntStop ix => exact execMcntStop_stable hI h _ ht
  | mcntSnap ix => exact execMcntSnap_stable hI h _ ht
  | mcntClr ix => exact execMcntClr_stable hI h _ ht
  | regRd tag space len addr => exact nomatch hw
  | regWr tag space addr data => exact nomatch hw
  | regCpl tag status data => exact execRegCpl_stable hI h _ _ _ ht
  | streamData ring first firstSlice slog data => exact nomatch hw
  | streamCredit ring rptr limit slog => exact execStreamCredit_stable hI h _ _ _ _ ht
  | irq v => exact execIrq_stable hI h _ ht
  | faultNotice w0 w1 w2 w3 => exact execFaultNotice_stable hI h _ _ _ _ ht
  | aliveState dest alive house valid => exact execAliveState_stable hI h _ _ _ _ ht
  | versionHello dest mask => exact execVersionHello_stable hI h _ _ ht
  | foreignFrame dest typ => exact execForeignFrame_stable hI h _ _ ht
  | retryRequest l => exact nomatch hw
  | ackTimeout l => exact nomatch hw
  | crossingFail x => exact nomatch hw
  | porchUp => exact execPorchUp_stable hI h ht
  | porchDown why => exact nomatch hw
  | bar0Tlp write tag addr be val => exact execBar0Tlp_stable hI h _ _ _ _ _ ht
  | dmaQtail ix tail descs => exact execDmaQtail_stable hI h _ _ _ ht
  | dmaDescComplete ix err => exact execDmaDescComplete_stable hI h _ _ ht
  | dmaRestart ix => exact execDmaRestart_stable hI h _ ht
  | dmaAbort ix => exact execDmaAbort_stable hI h _ ht
  | hello p uid mask fpr port => exact execHello_stable hI h _ _ _ _ _ ht
  | portLinkUp p => exact execPortLinkUp_stable hI h _ ht
  | fabLaneFail p lane => exact execFabLaneFail_stable hI h _ _ ht
  | portDown p why => exact execPortDown_stable hI h _ _ ht
  | lsa src seq links => exact execLsa_stable hI h _ _ _ ht
  | census seq keeper own entries => exact execCensus_stable hI h _ _ _ _ ht
  | keeperTimeout => exact execKeeperTimeout_stable hI h ht
  | censusAdmitOne house => exact execCensusAdmitOne_stable hI h _ ht
  | censusAdmit house => exact execCensusAdmit_stable hI h _ ht
  | censusForget house => exact execCensusForget_stable hI h _ ht
  | timeReq p => exact execTimeReq_stable hI h _ ht
  | timeRsp p t1 t2 t3 t4 => exact execTimeRsp_stable hI h _ _ _ _ _ ht
  | timeStep => exact execTimeStep_stable hI h ht
  | parentLoss => exact execParentLoss_stable hI h ht
  | epoch src applyAt beats frac => exact execEpoch_stable hI h src applyAt beats frac ht
  | event src imp cycle => exact execEvent_stable hI h _ _ _ ht
  | fabFaultNotice src w0 w1 w2 w3 => exact execFabFaultNotice_stable hI h _ _ _ _ _ ht
  | rnoteClear => exact execRnoteClear_stable hI h ht
  | fabRegRd src tag addr => exact execFabRegRd_stable hI h _ _ _ ht
  | fabRegWr src tag addr val => exact nomatch hw
  | fabRegCpl tag status val => exact execFabRegCpl_stable hI h _ _ _ ht
  | rwinTimeout tag => exact execRwinTimeout_stable hI h _ ht
  | fabStream src ring firstSlice first data => exact nomatch hw
  | fabCredit ring rptr wptr => exact execFabCredit_stable hI h _ _ _ ht
  | powerEntry => exact execPowerEntry_stable hI h ht
  | wakeEvent src => exact execWakeEvent_stable hI h _ ht
  | wakeCmd => exact execWakeCmd_stable hI h ht
  | f4Request => exact nomatch hw
  | ltrWrite val => exact execLtrWrite_stable hI h _ ht
  | frstN level suppliesOk => exact nomatch hw
  | hrstN level suppliesOk => exact nomatch hw
  | perstN level => exact execPerstN_stable hI h _ ht
  | bootStageAdvance info => exact execBootStageAdvance_stable hI h _ ht
  | bootStall err => exact execBootStall_stable hI h _ ht
  | hostBootStage info => exact execHostBootStage_stable hI h _ ht
  | supplyUv sd supply mv => exact execSupplyUv_stable hI h _ _ _ ht
  | droop wing lowestUv => exact execDroop_stable hI h _ _ ht
  | tjHigh sd sensor c16 => exact execTjHigh_stable hI h _ _ _ ht
  | tjCrit sd sensor c16 => exact execTjCrit_stable hI h _ _ _ ht
  | missionMinute sd c16 => exact execMissionMinute_stable hI h _ _ ht
  | missionLogWrite sd => exact execMissionLogWrite_stable hI h _ ht
  | compareJudgement e items => exact execCompareJudgement_stable hI h _ _ ht
  | pllLock id band dev => exact execPllLock_stable hI h _ _ _ ht
  | referencePresent id => exact execReferencePresent_stable hI h _ ht
  | overfreqWhileClosed id => exact execOverfreqWhileClosed_stable hI h _ ht
  | timedTrigEnd ix => exact execTimedTrigEnd_stable hI h _ ht
  | traceStale e => exact execTraceStale_stable hI h _ ht
  | powerCycle sd => exact nomatch hw
  | d3hotTransition enter => exact execD3hotTransition_stable hI h _ ht

/-- Every command answers a next state. -/
theorem exec_answers (c : Instr) (s : State) : ∃ t, exec c s = .next t := by cases c <;> exact ⟨_, rfl⟩

end Sys2Proof.Machine
end

