-- ==== Sys2Proof/Laws/Pantry.lean ====
section
/-! SUPPORT. Descriptor commits, and the registers and copies of a pantry. -/

namespace Sys2Proof.Machine

theorem modT_other (s : State) (t : Nat) (g : Table → Table) : ∀ j, j ≠ t → (s.modT t g).table j = s.table j :=
  fun j hj => by rw [State.modT_table, if_neg (Ne.symm hj)]
theorem field_masked (s : State) (r : FRef) : s.f r = bitsOf (s.reg r.addr) r.lo r.w := rfl
theorem tsize (t : TableId) : t.val < 48 := t.isLt
theorem segBase_ge (t : Nat) : 0x1000000 ≤ segBase t := by unfold segBase roomBase quadBase; split <;> omega
theorem stepRow (i : BitVec 14) : i.toNat < 16384 := i.isLt
theorem clearStage_table (s : State) (t : Nat) : (clearStage s t).table t = { s.table t with st0 := none, st1 := none, st3 := none } := by
  simp only [clearStage, State.modT_table_self]
theorem putDesc_ctl (s : State) (t i : Nat) (v : Word) :
    (clearStage (putDesc s t i v) t).reg (R.seg_ctl t i) = (s.reg (R.seg_ctl t i) &&& ~~~0x77F#32) ||| (v &&& 0x77F#32) := by
  simp only [clearStage, State.modT_reads, putDesc]
  rw [State.setReg_reg, if_pos rfl]; rfl
/-- Noting a descriptor's words changes only the note. -/
theorem noteOld_frame (s : State) (a : Nat) : ∃ l, noteOld s a = s.modH (fun h => { h with old := l }) := by
  unfold noteOld; dsimp only; split
  · exact ⟨s.hall.old, rfl⟩
  · exact ⟨_, rfl⟩
theorem noteDesc_frame (s : State) (t i : Nat) : ∃ l, noteDesc s t i = s.modH (fun h => { h with old := l }) := by
  unfold noteDesc
  obtain ⟨l1, h1⟩ := noteOld_frame s (R.seg_base t i)
  obtain ⟨l2, h2⟩ := noteOld_frame (noteOld s (R.seg_base t i)) (R.seg_len t i)
  obtain ⟨l3, h3⟩ := noteOld_frame (noteOld (noteOld s (R.seg_base t i)) (R.seg_len t i)) (R.seg_ctl t i)
  obtain ⟨l4, h4⟩ := noteOld_frame (noteOld (noteOld (noteOld s (R.seg_base t i)) (R.seg_len t i)) (R.seg_ctl t i)) (R.seg_aux t i)
  exact ⟨l4, by rw [h4, h3, h2, h1]; rfl⟩
theorem putDesc_regs {s w : State} (hr : w.regs = s.regs) (ht : w.tab = s.tab) (t i : Nat) (v : Word) :
    (putDesc w t i v).regs = (putDesc s t i v).regs := by
  simp only [putDesc, State.setReg, State.reg, State.table, hr, ht]
/-- The note does not change what a commit makes of the descriptor. -/
theorem descOf_noted (s : State) (t i : Nat) (v : Word) :
    descOf (clearStage (putDesc (noteDesc s t i) t i v) t) t i = descOf (clearStage (putDesc s t i v) t) t i := by
  obtain ⟨l, h⟩ := noteDesc_frame s t i
  have h0 := putDesc_regs (s := s) (w := noteDesc s t i) (by rw [h]; rfl) (by rw [h]; rfl) t i v
  have h1 : ∀ r : FRef, (clearStage (putDesc (noteDesc s t i) t i v) t).f r = (clearStage (putDesc s t i v) t).f r := by
    intro r
    have h2 : ∀ u : State, (clearStage u t).f r = u.f r := fun u => by simp only [clearStage, State.modT_reads]
    rw [h2, h2]
    exact f_of_reg (by simp only [State.reg, h0])
  simp only [descOf, State.on, h1]
/-- Where no chain has a naming before it, none is made anew. -/
theorem renameAll_now (s : State) (t i : Nat) (h : ∀ e, e ∈ enginesOf t → ∀ p, (s.engine e).next = some p → p.namedAt ≤ coreNow s) :
    renameAll s t i = s := by
  unfold renameAll
  generalize enginesOf t = l at h
  induction l with
  | nil => rfl
  | cons e l ih =>
    rw [List.foldl_cons]
    have h1 : renameLater s e = s := by
      unfold renameLater; dsimp only
      split
      · rfl
      · rename_i p hp
        rw [if_pos (Or.inl (h e (by simp) p hp))]
    refine Eq.trans (congrArg (fun u => List.foldl _ u l) (?_ : _ = s)) (ih (fun e' he' => h e' (by simp [he'])))
    split
    · split
      · exact h1
      · rfl
    · rfl
/-- A commit of a descriptor that is not pinned and was not, without reload. -/
theorem descCommit_plain (s : State) (t i : Nat) (v : Word) (h11 : v.getLsbD 11 = false) (hp : s.f (F.seg_ctl_pin_state t i) = 0 ∨ s.f (F.seg_ctl_pin_state t i) = 3)
    (h8 : v.getLsbD 8 = false) (hf : fillerUsed s t i = false)
    (hn : ∀ e, e ∈ enginesOf t → ∀ p, (s.engine e).next = some p → p.namedAt ≤ coreNow s) :
    descCommit s t i v = ((clearStage (putDesc (noteDesc s t i) t i v) t).put (F.seg_ctl_pin_state t i) 0).put (F.seg_ctl_pan_off t i) 0 := by
  have hctl := putDesc_ctl (noteDesc s t i) t i v
  obtain ⟨wl, hfr⟩ := noteDesc_frame s t i
  generalize hw : noteDesc s t i = w at hctl hfr
  have hres : (descOf (clearStage (putDesc w t i v) t) t i).resident = false := by
    show State.on _ _ = false
    have : bitsOf ((w.reg (R.seg_ctl t i) &&& ~~~0x77F#32) ||| (v &&& 0x77F#32)) 8 1 = 0 := by
      rw [bitsOf_one]; simp [← BitVec.getLsbD_eq_getElem, h8]
    simp only [State.on, State.f, F.seg_ctl_resident, hctl, this]; rfl
  have hpin : pinned (descOf (clearStage (putDesc w t i v) t) t i) = false := by simp only [pinned, hres, Bool.false_and]
  have hold : decide ((descOf s t i).pin = 1 ∨ (descOf s t i).pin = 2) = false := by
    show decide (s.f (F.seg_ctl_pin_state t i) = 1 ∨ s.f (F.seg_ctl_pin_state t i) = 2) = false
    rcases hp with h | h <;> rw [h] <;> rfl
  unfold descCommit
  rw [hw]
  extract_lets old s1 new had s2 keep s3 s4 s5
  have e1 : had = false := hold
  have e2 : s2 = s1 := by
    show State.when s1 (new.streaming && new.resident) _ = s1
    rw [show new.resident = false from hres, Bool.and_false]; rfl
  have e3 : s3 = s2 := by
    show (if (had && !keep) = true then _ else _) = _
    rw [e1]; rfl
  have e4 : keep = false := by show (had && _ && _) = false; rw [e1]; rfl
  have e5 : s4 = (s1.put (F.seg_ctl_pin_state t i) 0).put (F.seg_ctl_pan_off t i) 0 := by
    show (if keep = true then _ else if pinned new = true then _ else _) = _
    rw [e4, show pinned new = false from hpin, if_neg (by decide), if_neg (by decide), e3, e2]
  have e6 : s5 = s4 := by
    refine renameAll_now s4 t i fun e he p hpn => ?_
    rw [e5] at hpn ⊢
    have k2 : s1.eng = s.eng := by
      rw [show s1 = clearStage (putDesc w t i v) t from rfl, hfr]; simp [clearStage, putDesc]
    have k3 : s1.clk = s.clk := by
      rw [show s1 = clearStage (putDesc w t i v) t from rfl, hfr]; simp [clearStage, putDesc]
    simp only [State.engine, State.put_frame, k2] at hpn
    have := hn e he p hpn
    simp only [coreNow, State.put_frame, k3] at this ⊢; exact this
  rw [hf, h11, Bool.false_and, if_neg (by decide), if_neg (by decide), e6, e5]
/-- What a read of a granule and its way through the banks leave. -/
abbrev StoreKeeps (s u : State) : Prop := u.eng = s.eng ∧ u.tab = s.tab ∧ u.store = s.store
theorem StoreKeeps.trans {s u v : State} (h : StoreKeeps s u) (k : StoreKeeps u v) : StoreKeeps s v :=
  ⟨k.1.trans h.1, k.2.1.trans h.2.1, k.2.2.trans h.2.2⟩
theorem Outside.storeKeeps {P : Nat → Prop} {s u : State} (h : Outside P s u) : StoreKeeps s u := by
  obtain ⟨-, -, -, h1, -, h2, -, h3, -⟩ := h
  exact ⟨h1, h2, h3⟩
theorem count_keeps (s : State) (r : FRef) (n : Nat) : StoreKeeps s (s.count r n) := ⟨rfl, rfl, rfl⟩
theorem raise_keeps (s : State) (r : FRef) : StoreKeeps s (s.raise r) := ⟨rfl, rfl, rfl⟩
theorem fault_keeps (s : State) (n unit : Nat) (c : FaultClass) (syn : Nat) (hs : n < 256) (hc : c ≠ .fatal) : StoreKeeps s (fault s n unit c syn) :=
  (fault_outside (Outside.refl plainReg_free s) n unit c syn hs hc).storeKeeps
theorem startSparing_keeps (s : State) (g : Nat) : StoreKeeps s (startSparing s g) := by
  unfold startSparing; dsimp only; split <;> exact ⟨rfl, rfl, rfl⟩
theorem readGran_keeps (s : State) (g : Nat) : StoreKeeps s (readGran s g).2 := by
  have hce : StoreKeeps s (if (s.countSat (F.ecc_ce_n (stackOfGran g)) 1).on (F.ecc_spare_ce_seen (stackOfGran g)) then s.countSat (F.ecc_ce_n (stackOfGran g)) 1
      else fault ((s.countSat (F.ecc_ce_n (stackOfGran g)) 1).raise (F.ecc_spare_ce_seen (stackOfGran g))) 64 (pcOfGran g) .corrected g) := by
    split
    · exact ⟨rfl, rfl, rfl⟩
    · exact StoreKeeps.trans (u := (s.countSat (F.ecc_ce_n (stackOfGran g)) 1).raise (F.ecc_spare_ce_seen (stackOfGran g))) ⟨rfl, rfl, rfl⟩
        (fault_keeps _ 64 _ .corrected g (by decide) (by decide))
  unfold readGran
  dsimp only
  split
  · exact ⟨rfl, rfl, rfl⟩
  · exact ⟨hce.1, hce.2.1, hce.2.2⟩
  · exact ⟨hce.1, hce.2.1, hce.2.2⟩
  · refine StoreKeeps.trans ?_ (startSparing_keeps _ _)
    refine StoreKeeps.trans ?_ (fault_keeps _ _ _ _ _ (by decide) (by decide))
    exact ⟨rfl, rfl, rfl⟩
  · exact ⟨rfl, rfl, rfl⟩
/-- What a read gives is what the store holds. -/
theorem readGran_data (s : State) (g : Nat) : (readGran s g).1.1 = granBits s g := by
  unfold readGran
  dsimp only
  split <;> rfl
theorem activate_keeps (s : State) (b r : Nat) : StoreKeeps s (activate s b r) := by
  unfold activate
  split
  exact ⟨rfl, rfl, rfl⟩
theorem touchRow_keeps (s : State) (q : Req) (l : List Req) : StoreKeeps s (touchRow s q l) := by
  unfold touchRow
  extract_lets b row hit s1 keep waits n
  have h : StoreKeeps s s1 := by
    dsimp only [s1]; split
    · exact ⟨rfl, rfl, rfl⟩
    · exact activate_keeps _ _ _
  exact ⟨h.1, h.2.1, h.2.2⟩
theorem portServe_keeps (s : State) (p g : Nat) : StoreKeeps s (portServe s p g) := touchRow_keeps _ _ _
theorem bytesAt_of {s u : State} (h : u.store = s.store) (n : Nat) : ∀ a, bytesAt u a n = bytesAt s a n := by
  induction n with
  | zero => intro a; rfl
  | succ n ih => intro a; simp only [bytesAt, ih, storeByte, h]
theorem granBits_of {s u : State} (h : u.store = s.store) (g : Nat) : granBits u g = granBits s g := by
  simp only [granBits, bytesAt_of h]
/-- A load reads the granules that are to come, in order, and changes neither engines nor pantries. -/
theorem loadRest_done (t n : Nat) : ∀ (c : PanCopy) (s : State), StoreKeeps s (loadRest t n c s).2 ∧
    (loadRest t n c s).1.loaded = c.loaded + n ∧ (loadRest t n c s).1.id = c.id ∧ (loadRest t n c s).1.seg = c.seg ∧
    (loadRest t n c s).1.unit = c.unit ∧
    (∀ o, o < c.loaded → tget (fun _ => (0 : Granule)) (loadRest t n c s).1.data o = tget (fun _ => (0 : Granule)) c.data o) ∧
    ∀ o, c.loaded ≤ o → o < c.loaded + n → tget (fun _ => (0 : Granule)) (loadRest t n c s).1.data o = granBits s (copyGran c o) := by
  induction n with
  | zero => intro c s; exact ⟨⟨rfl, rfl, rfl⟩, rfl, rfl, rfl, rfl, fun _ _ => rfl, fun o h1 h2 => by omega⟩
  | succ n ih =>
    intro c s
    simp only [loadRest]
    have hp := portServe_keeps s t (copyGran c c.loaded)
    have hr := readGran_keeps (portServe s t (copyGran c c.loaded)) (copyGran c c.loaded)
    have hd := readGran_data (portServe s t (copyGran c c.loaded)) (copyGran c c.loaded)
    generalize readGran (portServe s t (copyGran c c.loaded)) (copyGran c c.loaded) = x at hr hd ⊢
    obtain ⟨⟨d, bad⟩, s1⟩ := x
    have hw : StoreKeeps s1 (s1.when bad (·.raise (F.pan_stat_poisoned t))) := by
      cases bad
      · exact ⟨rfl, rfl, rfl⟩
      · exact raise_keeps _ _
    have hm := (monEvent_outside (Outside.refl plainReg_free (s1.when bad (·.raise (F.pan_stat_poisoned t)))) (832 + stackOfGran (copyGran c c.loaded)) 1).storeKeeps
    have hall := ((hp.trans hr).trans hw).trans hm
    generalize monEvent (s1.when bad (·.raise (F.pan_stat_poisoned t))) (832 + stackOfGran (copyGran c c.loaded)) 1 = u at hall ⊢
    obtain ⟨k1, k2, k3, k4, k5, k6, k7⟩ := ih (withGran c d bad) u
    have hl : (withGran c d bad).loaded = c.loaded + 1 := rfl
    have hdat : ∀ o, tget (fun _ => (0 : Granule)) (withGran c d bad).data o = if o = c.loaded then d else tget (fun _ => (0 : Granule)) c.data o := by
      intro o
      simp only [withGran]
      rw [tget_tset]
      by_cases h : c.loaded = o
      · simp [h]
      · simp [h, Ne.symm h]
    have hcg : ∀ o, copyGran (withGran c d bad) o = copyGran c o := fun o => rfl
    refine ⟨hall.trans k1, by rw [k2, hl]; omega, k3, k4, k5, fun o ho => ?_, fun o h1 h2 => ?_⟩
    · rw [k6 o (by omega), hdat, if_neg (by omega)]
    · by_cases h : o = c.loaded
      · subst h
        rw [k6 c.loaded (by omega), hdat, if_pos rfl]
        exact hd.trans (granBits_of hp.2.2 _)
      · rw [k7 o (by omega) (by omega), hcg]
        exact granBits_of hall.2.2 _
theorem panShow_frame (s : State) (t : Nat) : (panShow s t).tab = s.tab ∧ (panShow s t).eng = s.eng ∧ (panShow s t).store = s.store ∧
    (∀ a, a ≠ R.pan_stat t → a ≠ R.pan_free t → (panShow s t).reg a = s.reg a) ∧ { panShow s t with regs := s.regs } = s := by
  unfold panShow
  extract_lets rs s1 cs
  refine ⟨rfl, rfl, rfl, fun a h1 h2 => ?_, rfl⟩
  rw [State.put_reg_ne _ _ _ (Ne.symm h1), State.put_reg_ne _ _ _ (Ne.symm h1), State.put_reg_ne _ _ _ (Ne.symm h2), State.put_reg_ne _ _ _ (Ne.symm h2)]
theorem pan_ctl (t i : Nat) (ht : t < 48) (hi : i < 16384) : R.seg_ctl t i ≠ R.pan_stat t ∧ R.seg_ctl t i ≠ R.pan_free t := by
  simp only [R.seg_ctl, R.pan_stat, R.pan_free, segBase, pantryBase, roomBase, quadBase]
  split <;> omega

end Sys2Proof.Machine
end

