-- ==== Sys2Proof/Laws/LaneRegs.lean ====
section
/-! SUPPORT. Lane registers: reads of what staged pairs and timers leave. -/

namespace Sys2Proof.Machine

theorem bitsOf_nat (v : Word) (lo n : Nat) : bitsOf v lo n = v.toNat / 2 ^ lo % 2 ^ n := by
  unfold bitsOf; rw [BitVec.extractLsb'_toNat, Nat.shiftRight_eq_div_pow]
theorem tmrReset_reads (s : State) (i : Nat) : (tmrReset s i).reg (R.tmr_cnt i) = 0 ∧ (∀ a, a ≠ R.tmr_cnt i → (tmrReset s i).reg a = s.reg a) ∧
    { tmrReset s i with regs := s.regs, hall := s.hall } = s ∧ (tmrReset s i).pairStage = s.pairStage := by
  unfold tmrReset
  extract_lets t st k
  exact ⟨setReg_same _ _ _, fun a ha => State.setReg_reg_ne _ _ (Ne.symm ha), rfl, rfl⟩

end Sys2Proof.Machine
end

