-- ==== Sys2Proof/Laws/Receivers.lean ====
section
/-! SUPPORT. Synchronisation of the express receivers. -/

namespace Sys2Proof.Machine

theorem nearest_min (os : List Int) : ∀ (b : Option Int) (o : Int),
    ((∀ c, b = some c → (o.natAbs < c.natAbs ∨ (o.natAbs = c.natAbs ∧ o ≤ c))) ∧ (b = some o ∨ o ∈ os) ∧
      (∀ x, x ∈ os → o.natAbs < x.natAbs ∨ (o.natAbs = x.natAbs ∧ o ≤ x))) →
    os.foldl (fun b o => match b with
      | none => some o
      | some c => if o.natAbs < c.natAbs ∨ (o.natAbs = c.natAbs ∧ o < c) then some o else some c) b = some o := by
  induction os with
  | nil => intro b o ⟨_, h, _⟩; simpa using h
  | cons x xs ih =>
    intro b o ⟨h1, h2, h3⟩
    rw [List.foldl_cons]
    apply ih
    have hx := h3 x (by simp)
    refine ⟨fun c hc => ?_, ?_, fun y hy => h3 y (by simp [hy])⟩
    · cases b with
      | none => simp only [Option.some.injEq] at hc; subst hc; exact hx
      | some c0 =>
        have h10 := h1 c0 rfl
        dsimp only at hc
        split at hc <;> (simp only [Option.some.injEq] at hc; subst hc; assumption)
    · cases b with
      | none =>
        rcases h2 with h2 | h2
        · simp at h2
        · rcases List.mem_cons.1 h2 with h | h
          · left; rw [h]
          · right; exact h
      | some c0 =>
        have h10 := h1 c0 rfl
        dsimp only
        rcases h2 with h2 | h2
        · simp only [Option.some.injEq] at h2; subst h2
          left
          rw [if_neg (by omega)]
        · rcases List.mem_cons.1 h2 with h | h
          · subst h
            by_cases hc : o = c0
            · subst hc; left; rw [if_neg (by omega)]
            · left; rw [if_pos (by omega)]
          · right; exact h
theorem syncLoss_reads (s : State) (k : Nat) (h : (s.laneOf (512 + k)).sync.isSome = true) :
    let t := syncLoss s k
    t.laneOf (512 + k) = { s.laneOf (512 + k) with sync := none } ∧ (∀ j, j ≠ 512 + k → t.laneOf j = s.laneOf j) ∧ t.f (F.xl_xstat_sync k) = 1 ∧
    t.f (F.xl_xstat_lost k) = 1 ∧ t.f (F.xl_syncstat_loss_cnt k) = min (s.f (F.xl_syncstat_loss_cnt k) + 1) 255 ∧
    (∀ a, a ≠ R.xl_xstat k → a ≠ R.xl_syncstat k → t.reg a = s.reg a) ∧ { t with regs := s.regs, hw := s.hw, lane := s.lane } = s := by
  simp only [syncLoss, h, if_true]
  have hne : R.xl_xstat k ≠ R.xl_syncstat k := by simp only [R.xl_xstat, R.xl_syncstat]; omega
  refine ⟨?_, fun j hj => ?_, State.put_f_same _ _ _ rfl, ?_, ?_, fun a h1 h2 => ?_, ?_⟩
  · simp only [State.put_reads, State.raise_reads, State.countSat_reads, State.modL_laneOf, if_true]
  · simp only [State.put_reads, State.raise_reads, State.countSat_reads, State.modL_laneOf, if_neg (Ne.symm hj)]
  · rw [State.put_f_bits _ _ _ _ rfl, State.raise_f, State.put_f_same _ _ _ rfl]; rfl
  · rw [State.put_f_ne _ _ _ _ (Or.inl hne), State.raise_f, State.put_f_ne _ _ _ _ (Or.inl hne), countSat_at _ _ rfl]; simp only [State.modL_reads]; rfl
  · rw [State.put_reg_ne _ _ _ (Ne.symm h1), State.raise_reg, State.put_reg_ne _ _ _ (Ne.symm h1), State.countSat_reg,
      State.put_reg_ne _ _ _ (Ne.symm h2)]
    simp only [State.modL_reads]
  · rfl

end Sys2Proof.Machine
end

