-- ==== Sys2Proof/Laws/Judging.lean ====
section
/-! SUPPORT. Reopened quads, captures and the compare counters. -/

namespace Sys2Proof.Machine

theorem foldl_fix {α β : Type} (f : β → α → β) (b : β) : ∀ (l : List α), (∀ x, x ∈ l → f b x = b) → l.foldl f b = b := by
  intro l
  induction l with
  | nil => intro _; rfl
  | cons x xs ih => intro h; rw [List.foldl_cons, h x (by simp)]; exact ih (fun y hy => h y (by simp [hy]))
theorem markOpen_reads (s : State) (id : Nat) (h1 : 33 ≤ id) (h2 : id < 61) :
    (markOpen s id).eng = s.eng ∧ (markOpen s id).lane = s.lane ∧ (markOpen s id).f (F.pll_stat_open id) = 1 ∧ (markOpen s id).f (F.pll_stat_state id) = 4 ∧
    (markOpen s id).f (shutBit id) = 1 ∧ ∀ a, a ≠ R.pll_stat id → a ≠ R.clk_shutOther → a ≠ R.pll_losses id → (markOpen s id).reg a = s.reg a := by
  have hsb : shutBit id = ⟨R.clk_shutOther, id - 32, 1⟩ := by simp only [shutBit, if_neg (show ¬ (id = 0) by omega), if_neg (show ¬ (id ≤ 32) by omega)]
  have n1 : R.clk_shutOther ≠ R.pll_stat id := by simp only [R.clk_shutOther, R.pll_stat]; omega
  have n2 : R.pll_losses id ≠ R.pll_stat id := by simp only [R.pll_losses, R.pll_stat]; omega
  have n3 : R.pll_losses id ≠ R.clk_shutOther := by simp only [R.pll_losses, R.clk_shutOther]; omega
  unfold markOpen
  rw [hsb]
  extract_lets s1 s2
  have e1 : s1.f (F.pll_stat_open id) = 1 ∧ s1.f (F.pll_stat_state id) = 4 ∧ s1.f ⟨R.clk_shutOther, id - 32, 1⟩ = 1 ∧
      ∀ a, a ≠ R.pll_stat id → a ≠ R.clk_shutOther → s1.reg a = s.reg a := by
    refine ⟨?_, ?_, ?_, fun a a1 a2 => ?_⟩
    · rw [State.put_f_bits _ _ _ _ rfl, State.put_f_bits _ _ _ _ rfl, State.put_f_ne _ _ _ _ (Or.inl n1), State.put_f_same _ _ _ rfl]; rfl
    · rw [State.put_f_bits _ _ _ _ rfl, State.put_f_same _ _ _ rfl]; rfl
    · rw [State.put_f_ne _ _ _ _ (Or.inl (Ne.symm n1)), State.put_f_ne _ _ _ _ (Or.inl (Ne.symm n1)), State.put_f_same _ _ _ (by simp only [Nat.ble_eq]; omega)]; rfl
    · rw [State.put_reg_ne _ _ _ (Ne.symm a1), State.put_reg_ne _ _ _ (Ne.symm a1), State.put_reg_ne _ _ _ (Ne.symm a2), State.put_reg_ne _ _ _ (Ne.symm a1)]
  have : s2 = s1 ∨ s2 = s1.countSat (F.pll_losses_relocks id) 1 := by
    show State.when s1 _ _ = _ ∨ State.when s1 _ _ = _
    cases (s.pllOf id).lossOpen
    · exact Or.inl rfl
    · exact Or.inr rfl
  have e2 : ∀ a, a ≠ R.pll_losses id → s2.reg a = s1.reg a := fun a ha => by
    rcases this with h | h
    · rw [h]
    · rw [h, State.countSat_reg]; exact State.put_reg_ne _ _ _ (Ne.symm ha)
  have e3 : s2.eng = s.eng ∧ s2.lane = s.lane := by rcases this with h | h <;> rw [h] <;> simp [s1]
  refine ⟨e3.1, e3.2, (f_of_reg (e2 _ (Ne.symm n2))).trans e1.1, (f_of_reg (e2 _ (Ne.symm n2))).trans e1.2.1, (f_of_reg (e2 _ (Ne.symm n3))).trans e1.2.2.1,
    fun a a1 a2 a3 => (e2 a a3).trans (e1.2.2.2 a a1 a2)⟩
theorem quadEng (q : Quad) (f : Nat) (h : f ∈ enginesOf (32 + q)) : 512 + 4 * q.val ≤ f ∧ f < 516 + 4 * q.val := by
  simp only [enginesOf, if_neg (show ¬ (32 + q.val < 32) by omega), List.mem_map, List.mem_range] at h
  obtain ⟨k, hk, rfl⟩ := h
  omega
theorem dropFirst_filter (e : Nat) : ∀ (n : Nat) (l : List (Nat × Record)), (dropFirst e n l).filter (fun x => x.1 == e) = (l.filter (fun x => x.1 == e)).drop n := by
  intro n l
  induction l generalizing n with
  | nil => cases n <;> simp [dropFirst]
  | cons x xs ih =>
    cases n with
    | zero => simp [dropFirst]
    | succ n =>
      by_cases h : x.1 = e
      · simp [dropFirst, h, ih]
      · simp [dropFirst, h, ih]
theorem placeRecord_done (s : State) (e : Nat) (r : Record) (hl : (s.laneOf e).capLen ≠ 0) (hw : (s.laneOf e).capWrap = false) (hn : (s.laneOf e).capN < 4 * (s.laneOf e).capLen) :
    ∃ s4 : State, (placeRecord s e r = s4 ∨ placeRecord s e r = flushOpen s4 e) ∧
      s4.laneOf e = { s.laneOf e with
        slots := (if (s.laneOf e).capN % 4 = 0 then [] else (s.laneOf e).slots) ++ [r]
        capG := (s.laneOf e).capN / 4 % (s.laneOf e).capLen
        unwritten := true
        lastRec := coreNow s
        capN := (s.laneOf e).capN + 1 } ∧
      s4.ctl.reqs = s.ctl.reqs ∧ s4.tab = s.tab ∧ s4.f ⟨capReg e + 12, 0, 32⟩ = (s.f ⟨capReg e + 12, 0, 32⟩ + 1) % 2 ^ 32 ∧
      ∀ a, ¬ (capReg e ≤ a ∧ a ≤ capReg e + 20) → s4.reg a = s.reg a := by
  unfold placeRecord
  extract_lets l cap n s1 s2 s3 s4
  have h1 : ¬ ((!l.capWrap && decide (cap ≤ l.capN)) = true) := by
    rw [show l.capWrap = false from hw]; simp; exact hn
  have e1 : s1 = s := by
    show State.when s (l.capWrap && _ && _) _ = s
    rw [show l.capWrap = false from hw]; rfl
  rw [if_neg hl, if_neg h1]
  refine ⟨s4, ?_, ?_, ?_, ?_, ?_, fun a ha => ?_⟩
  · split
    · exact Or.inr rfl
    · exact Or.inl rfl
  · simp only [s4, s3, s2, State.put_reads, State.count_reads, State.modL_laneOf, if_true, e1]
    rfl
  · simp only [s4, s3, s2, State.put_frame, State.count_frame, State.modL_frame, e1]
  · simp only [s4, s3, s2, State.put_frame, State.count_frame, State.modL_frame, e1]
  · rw [show s4 = s3.put ⟨capReg e + 8, 28, 2⟩ (n % 4) from rfl, State.put_f_ne _ _ _ _ (Or.inl (by simp only []; omega))]
    rw [show s3 = ((s2.put ⟨capReg e + 20, 3, 1⟩ 1).count ⟨capReg e + 12, 0, 32⟩ 1).put ⟨capReg e + 8, 0, 28⟩ (if l.capWrap then n / 4 % l.capLen else n / 4) from rfl,
      State.put_f_ne _ _ _ _ (Or.inl (by simp only []; omega)), count_at _ _ rfl, State.put_f_ne _ _ _ _ (Or.inl (by simp only []; omega))]
    simp only [s2, State.modL_reads, e1]
  · rw [show s4 = s3.put ⟨capReg e + 8, 28, 2⟩ (n % 4) from rfl, State.put_reg_ne _ _ _ (by simp only []; omega)]
    rw [show s3 = ((s2.put ⟨capReg e + 20, 3, 1⟩ 1).count ⟨capReg e + 12, 0, 32⟩ 1).put ⟨capReg e + 8, 0, 28⟩ (if l.capWrap then n / 4 % l.capLen else n / 4) from rfl,
      State.put_reg_ne _ _ _ (by simp only []; omega)]
    rw [State.count_reg, State.put_reg_ne _ _ _ (by simp only []; omega), State.put_reg_ne _ _ _ (by simp only []; omega)]
    simp only [s2, State.modL_reads, e1]
theorem pair_putPair (s : State) (a v : Nat) (h : v < 2 ^ 64) : (s.putPair a (a + 4) v).pair a (a + 4) = v := by
  simp only [State.putPair, State.pair]
  rw [State.setReg_reg_ne _ _ (by omega), setReg_same, setReg_same]
  simp only [BitVec.toNat_ofNat]
  omega
theorem pair_lt (s : State) (a b : Nat) : s.pair a b < 2 ^ 64 := by
  have h1 := (s.reg a).isLt
  have h2 := (s.reg b).isLt
  simp only [State.pair]; omega
theorem when_false (s : State) (g : State → State) : s.when false g = s := rfl
theorem when_true (s : State) (g : State → State) : s.when true g = g s := rfl
theorem putPair_laneOf (s : State) (a b v j : Nat) : (s.putPair a b v).laneOf j = s.laneOf j := rfl
theorem putPair_regsOnly (s : State) (a b c v : Nat) : RegsOnly [a, b, c] s (s.putPair a b v) := by
  unfold State.putPair
  exact regsOnly_setReg (regsOnly_setReg (regsOnly_refl _ _) _ (by simp)) _ (by simp)
theorem regsOnly_note {l : List Nat} {s t : State} (h : RegsOnly l s t) (r : FRef) (m n : Nat) : RegsOnly l s (t.noteHw r m n) := ⟨h.1, h.2⟩
theorem regsOnly_raise {l : List Nat} {s t : State} (h : RegsOnly l s t) (r : FRef) (ha : r.addr ∈ l) : RegsOnly l s (t.raise r) :=
  regsOnly_note (regsOnly_put h r 1 ha) _ _ _
theorem count48_eq (s : State) (a n : Nat) (sat : FRef) : ∃ b : Bool, count48 s a n sat =
    ((s.putPair a (a + 4) (min (s.pair a (a + 4) + n) (2 ^ 48 - 1))).noteHw ⟨a, 0, 32⟩ 0 n).when b (·.raise sat) := ⟨_, rfl⟩
theorem when_put_pair (s u : State) (a X : Nat) (sat : FRef) (b : Bool) (h1 : sat.addr ≠ a) (h2 : sat.addr ≠ a + 4) (hp : u.pair a (a + 4) = X)
    (hr : RegsOnly [a, a + 4, sat.addr] s u) :
    (u.when b (·.raise sat)).pair a (a + 4) = X ∧ RegsOnly [a, a + 4, sat.addr] s (u.when b (·.raise sat)) := by
  cases b
  · rw [when_false]; exact ⟨hp, hr⟩
  · rw [when_true]
    refine ⟨?_, regsOnly_raise hr _ (by simp)⟩
    rw [← hp]
    simp only [State.pair, State.raise_reg]
    rw [State.put_reg_ne _ _ _ h1, State.put_reg_ne _ _ _ h2]
theorem min_lt64 (x : Nat) : min x (2 ^ 48 - 1) < 2 ^ 64 := Nat.lt_of_le_of_lt (Nat.min_le_right _ _) (by decide)
theorem count48_done (s : State) (a n : Nat) (sat : FRef) (h1 : sat.addr ≠ a) (h2 : sat.addr ≠ a + 4) :
    (count48 s a n sat).pair a (a + 4) = min (s.pair a (a + 4) + n) (2 ^ 48 - 1) ∧ RegsOnly [a, a + 4, sat.addr] s (count48 s a n sat) := by
  obtain ⟨b, hb⟩ := count48_eq s a n sat
  rw [hb]
  have hp : ∀ u : State, (u.noteHw ⟨a, 0, 32⟩ 0 n).pair a (a + 4) = u.pair a (a + 4) := fun u => by simp only [State.pair, State.noteHw_reads]
  exact when_put_pair s _ a _ sat b h1 h2 ((hp _).trans (pair_putPair _ _ _ (min_lt64 _))) (regsOnly_note (putPair_regsOnly _ _ _ _ _) _ _ _)
theorem count48_two (s : State) (a b m n : Nat) (sa sb : FRef) (h : sa.addr = sb.addr) (ha : sa.addr ≠ a) (ha' : sa.addr ≠ a + 4) (hb : sa.addr ≠ b) (hb' : sa.addr ≠ b + 4)
    (hab : a + 4 < b ∨ b + 4 < a) :
    (count48 (count48 s a m sa) b n sb).pair a (a + 4) = min (s.pair a (a + 4) + m) (2 ^ 48 - 1) ∧
    (count48 (count48 s a m sa) b n sb).pair b (b + 4) = min (s.pair b (b + 4) + n) (2 ^ 48 - 1) ∧
    RegsOnly [a, a + 4, b, b + 4, sa.addr] s (count48 (count48 s a m sa) b n sb) := by
  have k1 := count48_done s a m sa ha ha'
  have k2 := count48_done (count48 s a m sa) b n sb (by rw [← h]; exact hb) (by rw [← h]; exact hb')
  refine ⟨?_, ?_, ?_⟩
  · rw [← k1.1]
    simp only [State.pair]
    rw [k2.2.1 a (by simp [← h]; omega), k2.2.1 (a + 4) (by simp [← h]; omega)]
  · rw [k2.1]
    simp only [State.pair]
    rw [k1.2.1 b (by simp; omega), k1.2.1 (b + 4) (by simp; omega)]
  · refine regsOnly_trans k1.2 k2.2 fun x hx => ?_
    simp only [List.mem_cons, List.not_mem_nil, or_false, not_or, ← h] at hx ⊢
    omega
theorem count48_lane (s : State) (a n : Nat) (sat : FRef) (j : Nat) : (count48 s a n sat).laneOf j = s.laneOf j := by
  obtain ⟨b, hb⟩ := count48_eq s a n sat
  rw [hb, ← putPair_laneOf s a (a + 4) (min (s.pair a (a + 4) + n) (2 ^ 48 - 1)) j]
  cases b
  · rw [when_false]; simp only [State.noteHw_reads]
  · rw [when_true]; simp only [State.raise_reads, State.noteHw_reads]
theorem countJudged_lane (s : State) (e j f i : Nat) : (countJudged s e j f).laneOf i = s.laneOf i := by
  unfold countJudged; split <;> rw [count48_lane, count48_lane]

end Sys2Proof.Machine
end

