-- ==== Sys2Proof/Laws/Streaming.lean ====
section
/-! SUPPORT. Rings: what a stream granule, a credit and an aperture access leave. -/

namespace Sys2Proof.Machine

theorem raise_done (s : State) (r : FRef) (h : Nat.ble (r.lo + r.w) 32 = true) (hw : 1 % 2 ^ r.w = 1) {a : Nat} (ha : r.addr = a) : (s.raise r).f r = 1 ∧ RegsOnly [a] s (s.raise r) :=
  ⟨by rw [State.raise_f, State.put_f_same _ _ _ h, hw], regsOnly_raise (regsOnly_refl _ _) _ (by simp [ha])⟩
theorem parts_filter_ne (s : State) (r : Nat) : ∀ x, x ∈ s.parts.filter (fun x => x.1 != r) → x.1 ≠ r := fun x hx => by simpa using (List.mem_filter.1 hx).2
theorem ringDrop_done (s : State) (r : Nat) (b : FRef) (hb : b.addr = R.ring_stat r) (hl : Nat.ble (b.lo + b.w) 32 = true) (hw : 1 % 2 ^ b.w = 1) :
    (ringDrop s r 1 b).f (F.ring_drop_n r) = min (s.f (F.ring_drop_n r) + 1) (2 ^ 32 - 1) ∧ (ringDrop s r 1 b).f b = 1 ∧
    RegsOnly [R.ring_drop r, R.ring_stat r] s (ringDrop s r 1 b) := by
  have hne : b.addr ≠ (F.ring_drop_n r).addr := by rw [hb]; simp only [R.ring_stat, F.ring_drop_n, R.ring_drop]; omega
  have h1 : RegsOnly [R.ring_drop r, R.ring_stat r] s (s.countSat (F.ring_drop_n r) 1) :=
    regsOnly_note (regsOnly_put (regsOnly_refl _ _) _ _ (by simp [F.ring_drop_n])) _ _ _
  unfold ringDrop
  refine ⟨?_, (raise_done _ b hl hw hb).1, regsOnly_raise h1 _ (by simp [hb])⟩
  rw [State.raise_f, State.put_f_ne _ _ _ _ (Or.inl hne), countSat_at _ _ rfl]; rfl
/-- A whole position that reaches its port in a side that runs is judged there. -/
theorem answers_stream {s : State} {r : Fin 256} {p : Word} {src : StreamSrc} {ds : List Granule} {P : State → Prop} (hA : Awake s)
    (hp : P (streamGranule s r p.toNat src ds)) : Answers (.streamGranule r p src ds) s P := by
  refine ⟨_, rfl, ?_⟩
  have hf : frozen s = false := by simp only [frozen, hA.2.1, Bool.not_true, Bool.and_false]
  have h : streamIn s ⟨r, p.toNat, 0, none, true, src, ds⟩ = streamGranule s r p.toNat src ds := by
    unfold streamIn
    rw [hf, if_neg (by decide), wake_zero s _ hA.2.2]
    unfold streamFrame
    dsimp only
    rw [Bool.and_false, if_neg (by decide), if_pos rfl]
  rw [h]; exact hp
theorem putBytes_keeps (v : Nat) (n : Nat) : ∀ (a v : Nat) (s : State), (∀ b, (putBytes s a v n).reg b = s.reg b) ∧ (putBytes s a v n).eng = s.eng ∧ (putBytes s a v n).clk = s.clk ∧ (putBytes s a v n).tab = s.tab := by
  induction n with
  | zero => intro a v s; exact ⟨fun _ => rfl, rfl, rfl, rfl⟩
  | succ n ih => intro a v s; exact ih (a + 1) (v / 256) (putByte s a (BitVec.ofNat 8 v))
theorem writeGran_keeps (s : State) (g : Nat) (d : Granule) : (∀ b, (writeGran s g d).reg b = s.reg b) ∧ (writeGran s g d).eng = s.eng ∧ (writeGran s g d).clk = s.clk ∧ (writeGran s g d).tab = s.tab := by
  have h := putBytes_keeps 0 64 (64 * g) d.toNat s
  unfold writeGran setErr
  generalize putBytes s (64 * g) d.toNat 64 = u at h
  exact h
theorem membersOf_lt (s : State) (l : Nat) (hl : l < 576) (m : Nat) (h : m ∈ membersOf s l) : m < 576 := by
  unfold membersOf at h; dsimp only at h; split at h
  · simp at h; omega
  · have := (List.mem_filter.1 h).1
    simpa [allEngines] using this
theorem setWptr_done (s u : State) (r p : Nat) (hr : ∀ a, PlainReg a → u.reg a = s.reg a) (he : u.eng = s.eng) (hlt : r < 256) (hen : leaderOf s (s.f (F.ring_cfg_engine r)) < 576)
    (hm : ∀ m, m ∈ membersOf s (leaderOf s (s.f (F.ring_cfg_engine r))) → running s m = false ∧ arming s m = false) :
    (setWptr u r p).f (F.ring_wptr_p r) = p % 2 ^ 32 ∧ (setWptr u r p).store = u.store ∧ (setWptr u r p).granErr = u.granErr := by
  unfold setWptr
  extract_lets s1 _ s2
  have r2 : ∀ a, PlainReg a → a ≠ R.ring_wptr r → s2.reg a = s.reg a := fun a ha hne => by
    show (u.put _ _).reg a = _
    rw [State.put_reg_ne _ _ _ (Ne.symm hne), hr a ha]
  have hce : s2.f (F.ring_cfg_engine r) = s.f (F.ring_cfg_engine r) := f_of_reg (r2 _ (by simp only [F.ring_cfg_engine, R.ring_cfg, PlainReg]; omega) (by simp only [F.ring_cfg_engine, R.ring_cfg, R.ring_wptr]; omega))
  have hmem : membersOf s2 (leaderOf s2 (s.f (F.ring_cfg_engine r))) = membersOf s (leaderOf s (s.f (F.ring_cfg_engine r))) := by
    have : ∀ j, s2.engine j = s.engine j := fun j => by show tget _ u.eng _ = _; rw [he]; rfl
    have hl : leaderOf s2 (s.f (F.ring_cfg_engine r)) = leaderOf s (s.f (F.ring_cfg_engine r)) := by unfold leaderOf; rw [this]
    rw [hl]
    generalize leaderOf s (s.f (F.ring_cfg_engine r)) = k
    simp only [membersOf, this]
  rw [hce, hmem, foldl_fix]
  · exact ⟨State.put_f_same _ _ _ rfl, rfl, rfl⟩
  · intro m hmm
    obtain ⟨a1, a2⟩ := hm m hmm
    have hs : ∀ q : FRef, q.addr = R.eng_stat m → s2.f q = s.f q := fun q hq => f_of_reg (r2 _ (by
      rw [hq]; exact plain_engine m 0x20 (membersOf_lt s _ hen m hmm) (by decide)) (by rw [hq]; simp only [R.eng_stat, R.ring_wptr]; have := eng_high m; omega))
    have b1 : running s2 m = false := by simp only [running, est, hs _ (show (F.eng_stat_state m).addr = R.eng_stat m from rfl)] at a1 ⊢; exact a1
    have b2 : arming s2 m = false := by simp only [arming, State.on, hs _ (show (F.eng_stat_arming m).addr = R.eng_stat m from rfl)] at a2 ⊢; exact a2
    simp only [b1, b2, Bool.or_self, Bool.false_eq_true, if_false]
/-- Where software did not write WPTR in this cycle, a position is judged on it. -/
theorem judgePos_row {s : State} {r : Nat} (p : Nat) (l : List Granule) (h : s.ctl.swPtr.find? (fun x => x.1 == r && x.2.1 && x.2.2.1 == coreNow s) = none) :
    judgePos s r p l = judgeRow s r p l := by unfold judgePos; rw [h]
/-- Granules of a position are written as they come: none of the ring's waits, and their pseudo-channels are idle. -/
abbrev Direct (s : State) (r p n : Nat) : Prop := strmTop s r = none ∧ ∀ i, i < n → pcIdle s (slotGran s r p i) = true
theorem writePos_direct {s : State} {r p : Nat} {l : List Granule} (h : Direct s r p l.length) :
    writePos s r p l = setWptr (putSlices r p l s 0) r (p + 1) := by
  unfold writePos
  rw [if_pos]
  rw [h.1, Bool.and_eq_true]
  exact ⟨rfl, List.all_eq_true.2 fun i hi => h.2 i (List.mem_range.1 hi)⟩
/-- One granule that its pseudo-channel does not take at once waits at the ring's port, and WPTR with it. -/
theorem writePos_waits {s : State} {r p : Nat} {d : Granule} (h : ¬ Direct s r p 1) :
    (writePos s r p [d]).ctl.reqs = s.ctl.reqs ++ [strmReq s r p 0 d] ∧ strmTop (writePos s r p [d]) r = some ((p + 1) % 2 ^ 32) ∧
    { writePos s r p [d] with ctl := s.ctl } = s := by
  unfold writePos
  rw [if_neg]
  · refine ⟨rfl, ?_, rfl⟩
    unfold strmTop setTop
    have hn : (s.ctl.top.filter (fun x => x.1 != r)).find? (fun x => x.1 == r) = none := by
      rw [List.find?_eq_none]
      intro x hx
      have := (List.mem_filter.1 hx).2
      simpa using this
    simp [hn]
  · intro hc
    refine h ?_
    rw [Bool.and_eq_true] at hc
    exact ⟨by simpa using hc.1, fun i hi => List.all_eq_true.1 hc.2 i (List.mem_range.2 hi)⟩
theorem judgeRow_accept (s : State) (r : Nat) (l : List Granule) (ht : strmTop s r = none)
    (hb : ¬ (signed 32 ((s.f (F.ring_wptr_p r) + 2 ^ 32 - s.f (F.ring_rptr_p r)) % 2 ^ 32) < 0)) (hlt : ringLevel s r < ((ringDesc s r).len : Int)) :
    judgeRow s r (s.f (F.ring_wptr_p r)) l = writePos s r (s.f (F.ring_wptr_p r)) l := by
  unfold judgeRow
  extract_lets x' wp' rp' big rel w
  have e0 : wp' = s.f (F.ring_wptr_p r) := by show (strmTop s r).getD _ = _; rw [ht]; rfl
  have e1 : big = s.f (F.ring_wptr_p r) := by
    show (if signed 32 ((wp' + 2 ^ 32 - rp') % 2 ^ 32) < 0 then rp' else wp') = _
    rw [e0]; exact if_neg hb
  rw [if_pos ⟨e1.symm, hlt⟩]
theorem judgeRow_next (s : State) (r : Nat) (l : List Granule) (hd : Direct s r (s.f (F.ring_wptr_p r)) l.length)
    (hb : ¬ (signed 32 ((s.f (F.ring_wptr_p r) + 2 ^ 32 - s.f (F.ring_rptr_p r)) % 2 ^ 32) < 0)) (hlt : ringLevel s r < ((ringDesc s r).len : Int)) :
    judgeRow s r (s.f (F.ring_wptr_p r)) l = setWptr (putSlices r (s.f (F.ring_wptr_p r)) l s 0) r (s.f (F.ring_wptr_p r) + 1) := by
  rw [judgeRow_accept s r l hd.1 hb hlt, writePos_direct hd]
theorem judgeRow_far (s : State) (r p : Nat) (l : List Granule) (ht : strmTop s r = none) (hb : ¬ (signed 32 ((s.f (F.ring_wptr_p r) + 2 ^ 32 - s.f (F.ring_rptr_p r)) % 2 ^ 32) < 0))
    (hp : p ≠ s.f (F.ring_wptr_p r)) (h0 : 0 ≤ signed 32 ((p + 2 ^ 32 - s.f (F.ring_rptr_p r)) % 2 ^ 32))
    (h1 : signed 32 ((p + 2 ^ 32 - s.f (F.ring_rptr_p r)) % 2 ^ 32) < ((ringDesc s r).len : Int)) :
    judgeRow s r p l = ringDrop s r (2 ^ (ringDesc s r).wlog2) (F.ring_stat_seq_err r) := by
  unfold judgeRow
  extract_lets x' wp' rp' big rel w
  have e0 : wp' = s.f (F.ring_wptr_p r) := by show (strmTop s r).getD _ = _; rw [ht]; rfl
  have e1 : big = s.f (F.ring_wptr_p r) := by
    show (if signed 32 ((wp' + 2 ^ 32 - rp') % 2 ^ 32) < 0 then rp' else wp') = _
    rw [e0]; exact if_neg hb
  rw [if_neg (fun h => hp (h.1.trans e1)), if_neg (Int.not_lt.2 h0), if_neg (Int.not_le.2 h1)]
theorem fabSend_outside {P : Nat → Prop} {s0 s : State} (h : Outside P s0 s) (d : Option Nat) (m : Packet) : Outside P s0 (fabSend s d m) := by
  unfold fabSend
  extract_lets ports s1
  refine Outside.ite (fun _ => h) (fun _ => ?_)
  have h1 : Outside P s0 s1 := Outside.foldl h (fun u p _ hu => monEvent_outside hu _ _)
  exact Outside.upd h1 s1.mon s1.fltF s1.fltH s1.porch _ s1.hall s1.msi

end Sys2Proof.Machine
end

