-- ==== Sys2Proof/Laws/Hall.lean ====
section
/-! SUPPORT. Producers, timers and the trigger pins. -/

namespace Sys2Proof.Machine

theorem produce_acts (s : State) (c p : Nat) : (∀ y, y ∈ (produce s c p).hall.acts ↔ y ∈ s.hall.acts ∨ y = (gridOf s c, p)) ∧
    { produce s c p with hall := { (produce s c p).hall with acts := s.hall.acts } } = s := by
  unfold produce
  dsimp only [State.modH]
  split
  · rename_i h
    refine ⟨fun y => ⟨Or.inl, fun hy => ?_⟩, rfl⟩
    rcases hy with hy | rfl
    · exact hy
    · simpa using h
  · exact ⟨fun y => by simp, rfl⟩
theorem produce_mem (s : State) (c p : Nat) : (gridOf s c, p) ∈ (produce s c p).hall.acts := ((produce_acts s c p).1 _).2 (Or.inr rfl)
theorem produce_other (s : State) (c p : Nat) : { produce s c p with hall := s.hall } = s := by
  have := congrArg (fun u : State => { u with hall := s.hall }) (produce_acts s c p).2
  exact this
theorem acts_same {s u : State} (h : { u with hall := { u.hall with acts := s.hall.acts } } = s) : u.clk = s.clk ∧ ∀ a, u.reg a = s.reg a := by
  rw [← h]; exact ⟨rfl, fun _ => rfl⟩
theorem gridOf_same {s u : State} (hr : ∀ a, u.reg a = s.reg a) (c : Nat) : gridOf u c = gridOf s c ∧ gridStep u = gridStep s := by
  have hf : u.f F.pwr_stat_state = s.f F.pwr_stat_state := f_of_reg (hr _)
  have : cycleU u = cycleU s := by
    unfold cycleU coreSlow; rw [hf]
  simp only [gridOf, gridStep, this, and_self]
theorem swpulse_acts (s : State) (v : Word) : ∀ (l : List Nat) (u : State), { u with hall := { u.hall with acts := s.hall.acts } } = s →
    (∀ y, y ∈ (l.foldl (fun u x => u.when (v.getLsbD x) (produce · (coreNow s + gridStep s) (3008 + x))) u).hall.acts ↔
      y ∈ u.hall.acts ∨ ∃ x, x ∈ l ∧ v.getLsbD x = true ∧ y = (gridOf s (coreNow s + gridStep s), 3008 + x)) ∧
    { (l.foldl (fun u x => u.when (v.getLsbD x) (produce · (coreNow s + gridStep s) (3008 + x))) u) with
      hall := { (l.foldl (fun u x => u.when (v.getLsbD x) (produce · (coreNow s + gridStep s) (3008 + x))) u).hall with acts := s.hall.acts } } = s := by
  intro l
  induction l with
  | nil => intro u hu; exact ⟨fun y => by simp, hu⟩
  | cons x xs ih =>
    intro u hu
    rw [List.foldl_cons]
    cases hx : v.getLsbD x with
    | false =>
      rw [when_false]
      obtain ⟨h1, h2⟩ := ih u hu
      refine ⟨fun y => (h1 y).trans ?_, h2⟩
      constructor
      · rintro (h | ⟨z, hz, h⟩)
        · exact Or.inl h
        · exact Or.inr ⟨z, List.mem_cons_of_mem _ hz, h⟩
      · rintro (h | ⟨z, hz, h⟩)
        · exact Or.inl h
        · rcases List.mem_cons.1 hz with rfl | hz
          · rw [hx] at h; exact absurd h.1 (by decide)
          · exact Or.inr ⟨z, hz, h⟩
    | true =>
      rw [when_true]
      obtain ⟨k1, k2⟩ := produce_acts u (coreNow s + gridStep s) (3008 + x)
      have hg := (gridOf_same (acts_same hu).2 (coreNow s + gridStep s)).1
      have hu' : { produce u (coreNow s + gridStep s) (3008 + x) with hall := { (produce u (coreNow s + gridStep s) (3008 + x)).hall with acts := s.hall.acts } } = s := by
        have := congrArg (fun u : State => { u with hall := { u.hall with acts := s.hall.acts } }) k2
        exact this.trans hu
      obtain ⟨h1, h2⟩ := ih _ hu'
      refine ⟨fun y => (h1 y).trans ?_, h2⟩
      rw [k1, hg]
      constructor
      · rintro ((h | h) | ⟨z, hz, h⟩)
        · exact Or.inl h
        · exact Or.inr ⟨x, by simp, hx, h⟩
        · exact Or.inr ⟨z, List.mem_cons_of_mem _ hz, h⟩
      · rintro (h | ⟨z, hz, h⟩)
        · exact Or.inl (Or.inl h)
        · rcases List.mem_cons.1 hz with rfl | hz
          · exact Or.inl (Or.inr h.2)
          · exact Or.inr ⟨z, hz, h⟩
theorem tmrReset_next (s : State) (i : Nat) : let u := tmrReset s i
    (∀ x, x ∈ u.hall.tmr → x.1 ≠ i) ∧ (s.f (F.tmr_cfg_mode i) ≠ 1 → ∀ x, x ∈ u.hall.tmrNext → x.1 ≠ i) ∧
    (s.f (F.tmr_cfg_mode i) = 1 → ∃ k, (i, k) ∈ u.hall.tmrNext ∧ coreStart (coreNow s) ≤ tmrStartT s i + k * tmrPeriodT s i ∧
      ∀ j, j < k → tmrStartT s i + j * tmrPeriodT s i < coreStart (coreNow s)) := by
  unfold tmrReset
  extract_lets u
  let k := tmrFirst s i
  let t := coreStart (coreNow s)
  let st := tmrStartT s i
  refine ⟨fun x hx => by simpa using (List.mem_filter.1 hx).2, fun h x hx => ?_, fun h => ⟨k, ?_, ?_⟩⟩
  · have hx' : x ∈ s.hall.tmrNext.filter (fun x => x.1 != i) ++ (if s.f (F.tmr_cfg_mode i) = 1 then [(i, k)] else []) := hx
    rw [if_neg h, List.append_nil] at hx'
    simpa using (List.mem_filter.1 hx').2
  · show (i, k) ∈ s.hall.tmrNext.filter (fun x => x.1 != i) ++ (if s.f (F.tmr_cfg_mode i) = 1 then [(i, k)] else [])
    rw [if_pos h]; simp
  · have hp : 16 * 2 ^ 16 ≤ tmrPeriodT s i := Nat.le_max_left _ _
    have hk : k = if t ≤ st then 0 else divUp (t - st) (tmrPeriodT s i) := rfl
    generalize tmrPeriodT s i = p at hp hk
    have ht : coreStart (coreNow s) = t := rfl
    have hst : tmrStartT s i = st := rfl
    rw [ht, hst]
    clear_value k t st
    split at hk
    · subst hk; exact ⟨by omega, fun j hj => by omega⟩
    · subst hk
      simp only [divUp]
      have h1 := Nat.div_add_mod (t - st + p - 1) p
      have h2 := Nat.mod_lt (t - st + p - 1) (show 0 < p by omega)
      refine ⟨?_, fun j hj => ?_⟩
      · have : (t - st + p - 1) / p * p = p * ((t - st + p - 1) / p) := Nat.mul_comm _ _
        omega
      · have h3 : (j + 1) * p ≤ (t - st + p - 1) / p * p := Nat.mul_le_mul_right _ hj
        have h4 : (t - st + p - 1) / p * p = p * ((t - st + p - 1) / p) := Nat.mul_comm _ _
        have h5 : (j + 1) * p = j * p + p := by rw [Nat.add_mul, Nat.one_mul]
        omega
theorem pair64 (s : State) (a b v : Nat) (hab : a ≠ b) (h : v < 2 ^ 64) : (s.putPair a b v).pair a b = v := by
  simp only [State.putPair, State.pair]
  rw [State.setReg_reg_ne _ _ (Ne.symm hab), setReg_same, setReg_same]
  simp only [BitVec.toNat_ofNat]
  omega
theorem advanceT_now {s : State} {t : Nat} (h : t ≤ t16Now s) : advanceT s t = s := advanceT_past h
theorem hall_frame {s u : State} (h : { u with hall := s.hall } = s) : (∀ a, u.reg a = s.reg a) ∧ u.clk = s.clk := by
  rw [← h]; exact ⟨fun _ => rfl, rfl⟩
theorem regsOnly_hall {l : List Nat} {s u : State} (hr : ∀ a, a ∉ l → u.reg a = s.reg a) (h : { u with hall := s.hall, regs := s.regs, hw := s.hw } = s) :
    RegsOnly l { s with hall := u.hall } u := by
  refine ⟨hr, ?_⟩
  have := congrArg (fun x : State => { x with hall := u.hall }) h
  exact this

end Sys2Proof.Machine
end

