-- ==== Sys2Proof/Laws/HallForm.lean ====
section
/-! SUPPORT. Deliveries, and the forming of a cycle: groups that stay held. -/

namespace Sys2Proof.Machine

theorem arrive_one (s : State) (e : Nat) (i : Fin 8) (harr : (s.engine e).arrCyc ≠ coreNow s) (hst : est s e ≠ stArmed) (hcons : (s.engine e).cons = []) :
    let t := taskStart (taskArrive s e i) e
    let fl := s.f (F.eng_task_flag e)
    t.f (F.eng_task_flag e) = fl ||| 2 ^ i.val ∧
    t.f (F.eng_task_overlap e) = (if fl.testBit i then s.f (F.eng_task_overlap e) ||| 2 ^ i.val else s.f (F.eng_task_overlap e)) ∧
    t.hall = s.hall ∧ (∀ j, j ≠ e → t.engine j = s.engine j) ∧ t.f F.pwr_stat_state = s.f F.pwr_stat_state := by
  have hpw : R.eng_task e ≠ R.pwr_stat := by simp only [R.eng_task, R.pwr_stat]; have := eng_high e; omega
  have pow8 : 2 ^ i.val < 2 ^ 8 := Nat.pow_lt_pow_right (by decide) i.isLt
  have hx : taskArrive s e i = (if (s.f (F.eng_task_flag e)).testBit i then
      (s.put (F.eng_task_overlap e) (s.f (F.eng_task_overlap e) ||| 2 ^ i.val)).setEngine e { s.engine e with
        arrCyc := coreNow s, arrNow := 0 ||| 2 ^ i.val, mrgNow := 0, ovNow := if !(s.f (F.eng_task_overlap e)).testBit i then 0 ||| 2 ^ i.val else 0, ovSet := 0 ||| 2 ^ i.val }
    else (s.put (F.eng_task_flag e) (s.f (F.eng_task_flag e) ||| 2 ^ i.val)).setEngine e { s.engine e with
        arrCyc := coreNow s, arrNow := 0 ||| 2 ^ i.val, mrgNow := 0, ovNow := 0, ovSet := 0 }) := by
    unfold taskArrive
    have h0 : (0 : Nat).testBit i.val = false := Nat.zero_testBit _
    simp only [if_neg harr, h0, hcons, List.any_nil, Bool.or_false, flagsOf, Bool.false_eq_true, if_false]
  have hts : ∀ u : State, est u e ≠ stArmed → taskStart u e = u := by
    intro u hu; unfold taskStart; exact if_neg (fun h => hu h.1)
  have hstat : ∀ (r : FRef) v x, r.addr = R.eng_task e → est ((s.put r v).setEngine e x) e = est s e := by
    intro r v x hr
    simp only [est, State.setEngine_reads]
    exact State.put_f_ne _ _ _ _ (Or.inl (by rw [hr]; simp only [R.eng_task, F.eng_stat_state, R.eng_stat]; omega))
  dsimp only
  rw [hx]
  split
  · rename_i hb
    rw [hts _ (by rw [hstat _ _ _ rfl]; exact hst)]
    refine ⟨?_, ?_, rfl, fun j hj => by rw [State.setEngine_engine, if_neg (Ne.symm hj)]; rfl, State.put_f_ne _ _ _ _ (Or.inl hpw)⟩
    · simp only [State.setEngine_reads]; rw [State.put_f_bits _ _ _ _ rfl]
      have : s.f (F.eng_task_flag e) ||| 2 ^ i.val = s.f (F.eng_task_flag e) := by
        apply Nat.eq_of_testBit_eq; intro j
        rw [Nat.testBit_or, Nat.testBit_two_pow]
        by_cases hj : i.val = j
        · subst hj; simp [hb]
        · simp [hj]
      rw [this]
    · simp only [State.setEngine_reads, hb, if_true]; rw [State.put_f_same _ _ _ rfl]
      exact Nat.mod_eq_of_lt (or_lt (f_lt s _) pow8)
  · rename_i hb
    rw [hts _ (by rw [hstat _ _ _ rfl]; exact hst)]
    refine ⟨?_, ?_, rfl, fun j hj => by rw [State.setEngine_engine, if_neg (Ne.symm hj)]; rfl, State.put_f_ne _ _ _ _ (Or.inl hpw)⟩
    · simp only [State.setEngine_reads]; rw [State.put_f_same _ _ _ rfl]
      exact Nat.mod_eq_of_lt (or_lt (f_lt s _) pow8)
    · simp only [State.setEngine_reads, if_neg hb]; rw [State.put_f_bits _ _ _ _ rfl]
theorem delivery_one (s : State) (k n f : Nat) (ho : houseOpen s = true) (hn : nextArrival s = some k) (hk : k ≤ coreNow s)
    (hd : s.hall.due.filter (fun x => x.1 == k) = [(k, n, f)]) :
    hallwayDelivery s = wake (deliver (s.modH (fun h => { h with due := h.due.filter (fun x => x.1 != k) })) k n 1 f) 2 := by
  unfold hallwayDelivery
  rw [hn]; dsimp only
  rw [ho]; simp only [Bool.not_true, Bool.false_eq_true, if_false, advanceCycle_past hk, hd, List.isEmpty_cons, List.map_cons, List.map_nil, List.foldl_cons, List.foldl_nil, insNat]
  simp only [List.filter_cons, beq_self_eq_true, if_true, List.filter_nil, List.length_cons, List.length_nil, List.map_cons, List.headD_cons]
/-- A group that is held and disarmed: r is its storm or fault_dis bit. -/
theorem held_put (g0 : Nat) (r q : FRef) (v : Nat) (s : State) (hr : r = F.grpStat_stat_storm g0 ∨ r = F.grpStat_stat_fault_dis g0)
    (hq : (∃ g, q = F.grpStat_stat_armed g ∧ (v = 0 ∨ g ≠ g0)) ∨ (∃ g, q = F.grpStat_stat_storm g ∧ v = 1) ∨ (∃ g, q = F.grpStat_stat_fault_dis g ∧ v = 1) ∨ (∃ g, q = F.grpStat_stat_storm_ch g))
    (h : s.f r = 1 ∧ s.f (F.grpStat_stat_armed g0) = 0) : (s.put q v).f r = 1 ∧ (s.put q v).f (F.grpStat_stat_armed g0) = 0 := by
  have far : ∀ g, g ≠ g0 → R.grpStat_stat g ≠ R.grpStat_stat g0 := fun g hg => by simp only [R.grpStat_stat]; omega
  rcases hq with ⟨g, rfl, hv⟩ | ⟨g, rfl, rfl⟩ | ⟨g, rfl, rfl⟩ | ⟨g, rfl⟩
  · by_cases hg : g = g0
    · subst hg
      have : v = 0 := by rcases hv with h | h; exact h; exact absurd rfl h
      subst this
      refine ⟨?_, (State.put_f_same _ _ _ rfl).trans rfl⟩
      rcases hr with rfl | rfl <;> (rw [State.put_f_bits _ _ _ _ rfl]; exact h.1)
    · refine ⟨?_, (State.put_f_ne _ _ _ _ (Or.inl (far g hg))).trans h.2⟩
      rcases hr with rfl | rfl <;> exact (State.put_f_ne _ _ _ _ (Or.inl (far g hg))).trans h.1
  · by_cases hg : g = g0
    · subst hg
      refine ⟨?_, ?_⟩
      · rcases hr with rfl | rfl
        · exact (State.put_f_same _ _ _ rfl).trans rfl
        · rw [State.put_f_bits _ _ _ _ rfl]; exact h.1
      · rw [State.put_f_bits _ _ _ _ rfl]; exact h.2
    · refine ⟨?_, (State.put_f_ne _ _ _ _ (Or.inl (far g hg))).trans h.2⟩
      rcases hr with rfl | rfl <;> exact (State.put_f_ne _ _ _ _ (Or.inl (far g hg))).trans h.1
  · by_cases hg : g = g0
    · subst hg
      refine ⟨?_, ?_⟩
      · rcases hr with rfl | rfl
        · rw [State.put_f_bits _ _ _ _ rfl]; exact h.1
        · exact (State.put_f_same _ _ _ rfl).trans rfl
      · rw [State.put_f_bits _ _ _ _ rfl]; exact h.2
    · refine ⟨?_, (State.put_f_ne _ _ _ _ (Or.inl (far g hg))).trans h.2⟩
      rcases hr with rfl | rfl <;> exact (State.put_f_ne _ _ _ _ (Or.inl (far g hg))).trans h.1
  · by_cases hg : g = g0
    · subst hg
      refine ⟨?_, ?_⟩
      · rcases hr with rfl | rfl <;> (rw [State.put_f_bits _ _ _ _ rfl]; exact h.1)
      · rw [State.put_f_bits _ _ _ _ rfl]; exact h.2
    · refine ⟨?_, (State.put_f_ne _ _ _ _ (Or.inl (far g hg))).trans h.2⟩
      rcases hr with rfl | rfl <;> exact (State.put_f_ne _ _ _ _ (Or.inl (far g hg))).trans h.1
theorem held_raise (g0 : Nat) (r q : FRef) (s : State) (hr : r = F.grpStat_stat_storm g0 ∨ r = F.grpStat_stat_fault_dis g0)
    (hq : (∃ g, q = F.grpStat_stat_storm g) ∨ (∃ g, q = F.grpStat_stat_fault_dis g))
    (h : s.f r = 1 ∧ s.f (F.grpStat_stat_armed g0) = 0) : (s.raise q).f r = 1 ∧ (s.raise q).f (F.grpStat_stat_armed g0) = 0 := by
  rw [State.raise_f, State.raise_f]
  refine held_put g0 r q 1 s hr ?_ h
  rcases hq with ⟨g, rfl⟩ | ⟨g, rfl⟩
  · exact Or.inr (Or.inl ⟨g, rfl, rfl⟩)
  · exact Or.inr (Or.inr (Or.inl ⟨g, rfl, rfl⟩))
theorem held_plain (g0 : Nat) (hg : g0 < 16) (r : FRef) (s u : State) (hr : r = F.grpStat_stat_storm g0 ∨ r = F.grpStat_stat_fault_dis g0) (hs : ∀ a, PlainReg a → u.reg a = s.reg a)
    (h : s.f r = 1 ∧ s.f (F.grpStat_stat_armed g0) = 0) : u.f r = 1 ∧ u.f (F.grpStat_stat_armed g0) = 0 := by
  have hp : PlainReg (R.grpStat_stat g0) := by simp only [PlainReg, R.grpStat_stat]; omega
  refine ⟨?_, (f_of_reg (hs _ hp)).trans h.2⟩
  rcases hr with rfl | rfl <;> exact (f_of_reg (hs _ hp)).trans h.1
theorem foldl_inv {α β : Type} (P : β → Prop) (f : β → α → β) (h : ∀ b a, P b → P (f b a)) : ∀ (l : List α) (b : β), P b → P (l.foldl f b) := by
  intro l
  induction l with
  | nil => intro b hb; exact hb
  | cons a l ih => intro b hb; exact ih _ (h b a hb)
theorem foldl_reach {α β : Type} (P : β → Prop) (f : β → α → β) (a0 : α) (h : ∀ b a, P b → P (f b a)) (h0 : ∀ b, P (f b a0)) :
    ∀ (l : List α) (b : β), a0 ∈ l → P (l.foldl f b) := by
  intro l
  induction l with
  | nil => intro b hb; simp at hb
  | cons a l ih =>
    intro b hb
    rw [List.foldl_cons]
    rcases List.mem_cons.1 hb with rfl | hb
    · exact foldl_inv P f h l _ (h0 b)
    · exact ih _ hb
theorem foldl_mem {α β : Type} (P : β → Prop) (f : β → α → β) (l : List α) (h : ∀ b a, a ∈ l → P b → P (f b a)) : ∀ (b : β), P b → P (l.foldl f b) := by
  induction l with
  | nil => intro b hb; exact hb
  | cons a l ih => intro b hb; exact ih (fun b x hx => h b x (by simp [hx])) _ (h b a (by simp) hb)
theorem foldl_reach' {α β : Type} (M P : β → Prop) (f : β → α → β) (a0 : α) (l : List α) (hM : ∀ b a, a ∈ l → M b → M (f b a)) (h : ∀ b a, P b → P (f b a))
    (h0 : ∀ b, M b → P (f b a0)) (ha : a0 ∈ l) : ∀ (b : β), M b → P (l.foldl f b) := by
  induction l with
  | nil => simp at ha
  | cons a l ih =>
    intro b hb
    rw [List.foldl_cons]
    by_cases hm : a0 ∈ l
    · exact ih (fun b x hx => hM b x (by simp [hx])) hm _ (hM b a (by simp) hb)
    · have : a0 = a := by rcases List.mem_cons.1 ha with h | h; exact h; exact absurd h hm
      subst this
      exact foldl_inv P f h l _ (h0 b hb)
/-- A channel of the producers is a channel of the cycle. -/
theorem formLoop_mem (n : Nat) : ∀ (s : State) (c : Nat) (ps : List Nat) (k : Nat), k ∈ channelsOf s c ps → k ∈ formLoop n s c ps := by
  induction n with
  | zero => intro s c ps k h; exact h
  | succ n ih =>
    intro s c ps k h
    unfold formLoop
    dsimp only
    split
    · exact h
    · refine ih _ _ _ _ ?_
      unfold channelsOf at h ⊢
      obtain ⟨h1, h2⟩ := List.mem_filter.1 h
      refine List.mem_filter.2 ⟨h1, ?_⟩
      rw [List.any_append, h2, Bool.true_or]
theorem settleLoop_succ (n : Nat) (s : State) (k : Nat) : settleLoop (n + 1) s k =
    match (((s.hall.acts ++ s.hall.fgrp).map (·.1)).filter (fun c => decide (c < k))).min? with
    | none => s
    | some c => settleLoop n (formCycle (reachCycle s c) c) k := rfl
theorem settleLoop_some {n : Nat} {s : State} {k c : Nat} (h : (((s.hall.acts ++ s.hall.fgrp).map (·.1)).filter (fun c => decide (c < k))).min? = some c) :
    settleLoop (n + 1) s k = settleLoop n (formCycle (reachCycle s c) c) k := by rw [settleLoop_succ, h]
theorem settleLoop_none {n : Nat} {s : State} {k : Nat} (h : (((s.hall.acts ++ s.hall.fgrp).map (·.1)).filter (fun c => decide (c < k))).min? = none) :
    settleLoop (n + 1) s k = s := by rw [settleLoop_succ, h]
theorem settleLoop_inv {P : State → Prop} {k : Nat} (h1 : ∀ s c, P s → P (formCycle s c)) (h2 : ∀ s c, c < k → P s → P (reachCycle s c)) (n : Nat) :
    ∀ s : State, P s → P (settleLoop n s k) := by
  induction n with
  | zero => intro s h; exact h
  | succ n ih =>
    intro s h
    cases hm : (((s.hall.acts ++ s.hall.fgrp).map (·.1)).filter (fun c => decide (c < k))).min? with
    | none => rw [settleLoop_none hm]; exact h
    | some c =>
      rw [settleLoop_some hm]
      have hc : c < k := by simpa using (List.mem_filter.1 (List.min?_mem hm)).2
      exact ih _ (h1 _ _ (h2 _ _ hc h))
theorem passTime_frame (s : State) (n : Nat) : (passTime s n).regs = s.regs ∧ (passTime s n).hall = s.hall ∧ (∀ a, (passTime s n).reg a = s.reg a) ∧
    ∀ r, (passTime s n).f r = s.f r := ⟨rfl, rfl, fun _ => rfl, fun _ => rfl⟩
theorem routeFired_hall (s : State) (t : Nat) : (routeFired s t).hall = { s.hall with fired := (routeFired s t).hall.fired, timed := (routeFired s t).hall.timed } := rfl
theorem reachCycle_frame (s : State) (c : Nat) : (reachCycle s c).regs = s.regs ∧ (reachCycle s c).hall = s.hall := by
  unfold reachCycle
  split
  · exact ⟨(passTime_frame _ _).1, (passTime_frame _ _).2.1⟩
  · exact ⟨rfl, rfl⟩
theorem reachCycle_reg (s : State) (c a : Nat) : (reachCycle s c).reg a = s.reg a := by
  simp only [State.reg, (reachCycle_frame s c).1]
section
variable {g0 : Nat} (hg : g0 < 16) {r : FRef} (hr : r = F.grpStat_stat_storm g0 ∨ r = F.grpStat_stat_fault_dis g0)
include hg hr
theorem held_applyChg (s : State) (c : Nat) (h : s.f r = 1 ∧ s.f (F.grpStat_stat_armed g0) = 0) :
    (applyChg s c).f r = 1 ∧ (applyChg s c).f (F.grpStat_stat_armed g0) = 0 := by
  unfold applyChg
  dsimp only
  refine foldl_inv (fun u : State => u.f r = 1 ∧ u.f (F.grpStat_stat_armed g0) = 0) _ (fun u x hu => ?_) _ _ h
  have hheld : groupHeld u g0 = true := by
    rcases hr with rfl | rfl
    · simp [groupHeld, State.on, hu.1]
    · simp [groupHeld, State.on, hu.1]
  unfold oneChg
  split
  · split
    · exact hu
    · rename_i hn
      refine held_put g0 r _ _ u hr (Or.inl ⟨x.2.1, rfl, Or.inr ?_⟩) hu
      intro he
      exact hn (by rw [he, hheld, Bool.true_or])
  · exact held_put g0 r _ _ u hr (Or.inl ⟨x.2.1, rfl, Or.inl rfl⟩) hu
theorem held_stormPass (s : State) (c : Nat) (ks : List Nat) (h : s.f r = 1 ∧ s.f (F.grpStat_stat_armed g0) = 0) :
    (stormPass s c ks).f r = 1 ∧ (stormPass s c ks).f (F.grpStat_stat_armed g0) = 0 := by
  unfold stormPass
  refine foldl_inv (fun u : State => u.f r = 1 ∧ u.f (F.grpStat_stat_armed g0) = 0) _ (fun u x hu => ?_) _ _ h
  split
  · exact hu
  · refine held_plain g0 hg r _ _ hr (fault_outside (Outside.refl plainReg_free _) 80 x .contained _ (by decide) (by decide)).plain.reg ?_
    exact held_put g0 r _ _ _ hr (Or.inr (Or.inr (Or.inr ⟨_, rfl⟩))) (held_raise g0 r _ _ hr (Or.inl ⟨_, rfl⟩) (held_put g0 r _ _ _ hr (Or.inl ⟨_, rfl, Or.inl rfl⟩) hu))
/-- The fault groups of a cycle leave a held group held. -/
theorem held_fgrp (s : State) (fs : List Nat) (h : s.f r = 1 ∧ s.f (F.grpStat_stat_armed g0) = 0) :
    let t := disarmAll s fs
    t.f r = 1 ∧ t.f (F.grpStat_stat_armed g0) = 0 := by
  unfold disarmAll
  dsimp only
  refine foldl_inv (fun u : State => u.f r = 1 ∧ u.f (F.grpStat_stat_armed g0) = 0) _ (fun u f hu => ?_) _ _ h
  refine foldl_inv (fun u : State => u.f r = 1 ∧ u.f (F.grpStat_stat_armed g0) = 0) _ (fun v g hv => ?_) _ _ hu
  cases v.on ⟨R.fgd_word f, g, 1⟩
  · exact hv
  · exact held_raise g0 r _ _ hr (Or.inr ⟨_, rfl⟩) (held_put g0 r _ _ _ hr (Or.inl ⟨_, rfl, Or.inl rfl⟩) hv)
/-- The fault groups active in a cycle disable the groups of their masks. -/
theorem fgrp_disables (s : State) (fs : List Nat) (f : Nat) (hf : f ∈ fs) (hm : s.on ⟨R.fgd_word f, g0, 1⟩ = true)
    (hfd : r = F.grpStat_stat_fault_dis g0) (hf16 : f < 16) :
    let t := disarmAll s fs
    t.f r = 1 ∧ t.f (F.grpStat_stat_armed g0) = 0 := by
  intro t
  have hstep : ∀ (v : State) (f g : Nat), (v.f r = 1 ∧ v.f (F.grpStat_stat_armed g0) = 0) →
      let w := v.when (v.on ⟨R.fgd_word f, g, 1⟩) (fun y => (y.put (F.grpStat_stat_armed g) 0).raise (F.grpStat_stat_fault_dis g))
      w.f r = 1 ∧ w.f (F.grpStat_stat_armed g0) = 0 := fun v f g hv => by
    cases v.on ⟨R.fgd_word f, g, 1⟩
    · exact hv
    · exact held_raise g0 r _ _ hr (Or.inr ⟨_, rfl⟩) (held_put g0 r _ _ _ hr (Or.inl ⟨_, rfl, Or.inl rfl⟩) hv)
  have hin : ∀ (v : State) (f' : Nat), (v.on ⟨R.fgd_word f, g0, 1⟩ = true) → ((List.range 16).foldl (fun v g =>
      v.when (v.on ⟨R.fgd_word f', g, 1⟩) (fun y => (y.put (F.grpStat_stat_armed g) 0).raise (F.grpStat_stat_fault_dis g))) v).on ⟨R.fgd_word f, g0, 1⟩ = true := by
    intro v f' hv
    refine foldl_mem (fun u : State => u.on ⟨R.fgd_word f, g0, 1⟩ = true) _ (List.range 16) (fun u g hg' hu => ?_) v hv
    have hg16 := List.mem_range.1 hg'
    cases u.on ⟨R.fgd_word f', g, 1⟩
    · exact hu
    · rw [when_true]
      simp only [State.on] at hu ⊢
      rw [State.raise_f, State.put_f_ne _ _ _ _ (Or.inl (by simp only [F.grpStat_stat_fault_dis, R.grpStat_stat, R.fgd_word]; omega)),
        State.put_f_ne _ _ _ _ (Or.inl (by simp only [F.grpStat_stat_armed, R.grpStat_stat, R.fgd_word]; omega))]
      exact hu
  refine foldl_reach' (fun u : State => u.on ⟨R.fgd_word f, g0, 1⟩ = true) (fun u : State => u.f r = 1 ∧ u.f (F.grpStat_stat_armed g0) = 0) _ f fs (fun u a _ hu => hin u a hu)
    (fun u a hu => foldl_inv (fun u : State => u.f r = 1 ∧ u.f (F.grpStat_stat_armed g0) = 0) _ (fun v g hv => hstep v a g hv) _ _ hu) (fun u hu => ?_) hf s hm
  refine foldl_reach' (fun u : State => u.on ⟨R.fgd_word f, g0, 1⟩ = true) (fun u : State => u.f r = 1 ∧ u.f (F.grpStat_stat_armed g0) = 0) _ g0 (List.range 16)
    (fun v g hg' hv => ?_) (fun v g hv => hstep v f g hv) (fun v hv => ?_) (List.mem_range.2 hg) u hu
  · have hg16 := List.mem_range.1 hg'
    cases v.on ⟨R.fgd_word f, g, 1⟩
    · exact hv
    · rw [when_true]
      simp only [State.on] at hv ⊢
      rw [State.raise_f, State.put_f_ne _ _ _ _ (Or.inl (by simp only [F.grpStat_stat_fault_dis, R.grpStat_stat, R.fgd_word]; omega)),
        State.put_f_ne _ _ _ _ (Or.inl (by simp only [F.grpStat_stat_armed, R.grpStat_stat, R.fgd_word]; omega))]
      exact hv
  · rw [hv, when_true, hfd, State.raise_f, State.raise_f]
    exact ⟨(State.put_f_same _ _ _ rfl).trans rfl, by rw [State.put_f_bits _ _ _ _ rfl, State.put_f_same _ _ _ rfl]; rfl⟩
/-- A channel whose run reaches the limit holds its group. -/
theorem storm_holds (s : State) (c : Nat) (ks : List Nat) (k : Nat) (hk : k ∈ ks) (hkg : k / 16 = g0) (hrun : runLen s c k = stormLimit s + 1)
    (hst : r = F.grpStat_stat_storm g0) : (stormPass s c ks).f r = 1 ∧ (stormPass s c ks).f (F.grpStat_stat_armed g0) = 0 := by
  unfold stormPass
  have hfind : ((hotIn s c ks).find? (fun k => k / 16 == g0)).isSome = true := by
    rw [List.find?_isSome]; exact ⟨k, List.mem_filter.2 ⟨hk, by simp [hrun]⟩, by simp [hkg]⟩
  generalize hotIn s c ks = hot at hfind
  refine foldl_reach (fun u : State => u.f r = 1 ∧ u.f (F.grpStat_stat_armed g0) = 0) _ g0 (fun u x hu => ?_) (fun u => ?_) (List.range 16) _ (List.mem_range.2 hg)
  · split
    · exact hu
    · refine held_plain g0 hg r _ _ hr (fault_outside (Outside.refl plainReg_free _) 80 x .contained _ (by decide) (by decide)).plain.reg ?_
      exact held_put g0 r _ _ _ hr (Or.inr (Or.inr (Or.inr ⟨_, rfl⟩))) (held_raise g0 r _ _ hr (Or.inl ⟨_, rfl⟩) (held_put g0 r _ _ _ hr (Or.inl ⟨_, rfl, Or.inl rfl⟩) hu))
  · obtain ⟨k', hk'⟩ := Option.isSome_iff_exists.1 hfind
    rw [hk']
    dsimp only
    refine held_plain g0 hg r _ _ hr (fault_outside (Outside.refl plainReg_free _) 80 g0 .contained _ (by decide) (by decide)).plain.reg ?_
    refine held_put g0 r _ _ _ hr (Or.inr (Or.inr (Or.inr ⟨_, rfl⟩))) ?_
    subst hst
    rw [State.raise_f, State.raise_f]
    exact ⟨(State.put_f_same _ _ _ rfl).trans rfl, by rw [State.put_f_bits _ _ _ _ rfl, State.put_f_same _ _ _ rfl]; rfl⟩
theorem held_formWith (s : State) (c : Nat) (ks : List Nat)
    (h : (stormPass s c ks).f r = 1 ∧ (stormPass s c ks).f (F.grpStat_stat_armed g0) = 0) :
    (formWith s c ks).f r = 1 ∧ (formWith s c ks).f (F.grpStat_stat_armed g0) = 0 := by
  unfold formWith
  extract_lets s4 span
  have h5 : ∀ (G : State → Nat → State), (∀ u g, (∀ a, (G u g).reg a = u.reg a)) →
      ((List.range 16).foldl G s4).f r = 1 ∧ ((List.range 16).foldl G s4).f (F.grpStat_stat_armed g0) = 0 := fun G hG =>
    foldl_inv (fun u : State => u.f r = 1 ∧ u.f (F.grpStat_stat_armed g0) = 0) G (fun u x hu => held_plain g0 hg r u _ hr (fun a _ => hG u x a) hu) _ _ h
  refine foldl_inv (fun u : State => u.f r = 1 ∧ u.f (F.grpStat_stat_armed g0) = 0) _ (fun u x hu => ?_) _ _ ?_
  · exact held_plain g0 hg r _ _ hr (monEventAt_outside (Outside.refl plainReg_free u) _ _ _).plain.reg hu
  · refine h5 _ (fun u g a => ?_)
    dsimp only
    generalize ks.contains (u.f (F.grpCtl_ctl_arm_ch g)) = b1
    cases (u.on (F.grpCtl_ctl_arm_en g) && b1)
    · rw [when_false]
      cases (u.on (F.grpCtl_ctl_dis_en g) && ks.contains (u.f (F.grpCtl_ctl_dis_ch g))) <;> rfl
    · rw [when_true]
      generalize (_ && _ : Bool) = b2
      cases b2 <;> rfl
/-- Forming a cycle holds the group, once its fault groups or storms do. -/
theorem held_form (s0 : State) (c : Nat)
    (h : let s := applyChg s0 c
      let fs := (s.hall.fgrp.filter (fun x => x.1 == c)).map (·.2)
      let s1 := disarmAll s fs
      let ps := (s1.hall.acts.filter (fun x => x.1 == c)).map (·.2) ++ fs.map (2992 + ·)
      let s2 := s1.modH (fun h => { h with acts := h.acts.filter (fun x => x.1 != c), fgrp := h.fgrp.filter (fun x => x.1 != c) })
      ∀ ks, (∀ k, k ∈ channelsOf s2 c ps → k ∈ ks) → (stormPass s2 c ks).f r = 1 ∧ (stormPass s2 c ks).f (F.grpStat_stat_armed g0) = 0) :
    (formCycle s0 c).f r = 1 ∧ (formCycle s0 c).f (F.grpStat_stat_armed g0) = 0 :=
  held_formWith hg hr _ c _ (h _ (formLoop_mem 17 _ c _))
theorem held_formCycle (s : State) (c : Nat) (h : s.f r = 1 ∧ s.f (F.grpStat_stat_armed g0) = 0) :
    (formCycle s c).f r = 1 ∧ (formCycle s c).f (F.grpStat_stat_armed g0) = 0 :=
  held_form hg hr s c fun ks _ => (held_stormPass hg hr _ _ _ (held_fgrp hg hr _ _ (held_applyChg hg hr s c h)))
theorem held_settleLoop (n : Nat) (s : State) (k : Nat) (h : s.f r = 1 ∧ s.f (F.grpStat_stat_armed g0) = 0) :
    (settleLoop n s k).f r = 1 ∧ (settleLoop n s k).f (F.grpStat_stat_armed g0) = 0 :=
  settleLoop_inv (P := fun s => s.f r = 1 ∧ s.f (F.grpStat_stat_armed g0) = 0) (held_formCycle hg hr)
    (fun s c _ h => held_plain g0 hg r s _ hr (fun a _ => reachCycle_reg s c a) h) n s h
end
theorem gridOf_fast {s : State} (h : s.f F.pwr_stat_state = 0) (c : Nat) : gridOf s c = c ∧ gridStep s = 1 := by
  have hc : cycleU s = coreU := by unfold cycleU coreSlow; rw [h]; rfl
  simp only [gridOf, gridStep, hc]
  exact ⟨by simp [coreU], by simp [coreU]⟩
/-- Forming the cycles up to the present one, where only the present one waits. -/
theorem formAll_one (s : State) (c : Nat) (ho : houseOpen s = true) (hp : s.f F.pwr_stat_state = 0) (hc : c = coreNow s) (hne : s.hall.acts ++ s.hall.fgrp ≠ [])
    (hall : ∀ x, x ∈ s.hall.acts ++ s.hall.fgrp → x.1 = c) : ∃ u : State, u.regs = s.regs ∧ u.hall = { s.hall with fired := u.hall.fired, timed := u.hall.timed } ∧
      ∀ q, (formAll s).f q = (applyChg (settleLoop c (formCycle u c) (c + 1)) c).f q := by
  have hmax : ((s.hall.acts ++ s.hall.fgrp).map (·.1)).max? = some c := by
    rw [List.max?_eq_some_iff']
    refine ⟨?_, fun b hb => ?_⟩
    · obtain ⟨x, hx⟩ := List.exists_mem_of_ne_nil _ hne
      exact List.mem_map.2 ⟨x, hx, hall x hx⟩
    · obtain ⟨x, hx, rfl⟩ := List.mem_map.1 hb
      exact Nat.le_of_eq (hall x hx)
  have hmin : (((s.hall.acts ++ s.hall.fgrp).map (·.1)).filter (fun d => decide (d < c + 1))).min? = some c := by
    rw [List.min?_eq_some_iff']
    refine ⟨?_, fun b hb => ?_⟩
    · obtain ⟨x, hx⟩ := List.exists_mem_of_ne_nil _ hne
      exact List.mem_filter.2 ⟨List.mem_map.2 ⟨x, hx, hall x hx⟩, by simp⟩
    · obtain ⟨x, hx, rfl⟩ := List.mem_map.1 (List.mem_filter.1 hb).1
      exact Nat.le_of_eq (hall x hx).symm
  let v := routeFired s ((c + 1) * coreU / t16U)
  have hv : houseOpen v = true := ho
  refine ⟨reachCycle v c, ?_, ?_, fun q => ?_⟩
  · exact (reachCycle_frame v c).1
  · rw [(reachCycle_frame v c).2]; exact routeFired_hall s _
  unfold formAll
  rw [hmax]; dsimp only
  rw [if_pos ho, (gridOf_fast hp 0).2]
  unfold advanceCycle advanceHouse
  have hlt : s.clk.house < (c + 1) * coreU := by
    subst hc; simp only [coreNow, coreU]; omega
  rw [ho, decide_eq_true hlt, Bool.and_self, if_pos rfl, (passTime_frame _ _).2.2.2]
  rw [show (c + 1) * coreU / coreU = c + 1 from Nat.mul_div_cancel _ (by decide)]
  have hset : settle v (c + 1) = applyChg (settleLoop c (formCycle (reachCycle v c) c) (c + 1)) c := by
    unfold settle
    rw [(gridOf_fast (s := v) hp (c + 1)).1, Nat.add_sub_cancel]
    rw [settleLoop_some (s := v) (c := c) hmin]
  exact congrArg (fun u : State => u.f q) hset

end Sys2Proof.Machine
end

