-- ==== Sys2Proof/Laws/Idle.lean ====
section
/-! SUPPORT. A step, and what forming the hallway's cycles leaves alone; the properties that every command keeps. -/

namespace Sys2Proof.Machine

set_option linter.unreachableTactic false
set_option linter.unusedTactic false
set_option linter.unusedSimpArgs false
set_option linter.unnecessarySeqFocus false

/-- The engines, the pattern store and the queue are as in s, and the clocks have gone on together, to house time h at most. -/
def Apart (s : State) (h : Nat) (t : State) : Prop :=
  (t.clk.house ≤ h ∧ t.clk.now + s.clk.house = s.clk.now + t.clk.house) ∧ t.eng = s.eng ∧ t.store = s.store ∧ t.pending = s.pending
theorem Apart.outside {P : Nat → Prop} {a b c : State} {h : Nat} (k0 : Apart a h b) (k : Outside P b c) : Apart a h c := by
  obtain ⟨_, _, k1, k2, _, _, _, k3, k⟩ := k
  have k4 := k.2.2.2.2.2.2.2.2.2.2.2.2.2.2.2.2.2.2.2
  exact ⟨by rw [k1]; exact k0.1, k2.trans k0.2.1, k3.trans k0.2.2.1, k4.trans k0.2.2.2⟩
theorem Apart.foldl {α : Type} {a : State} {n : Nat} {g : State → α → State} {l : List α} {s : State} (h : Apart a n s) (hg : ∀ u x, Apart a n u → Apart a n (g u x)) :
    Apart a n (l.foldl g s) := foldl_stable h hg
theorem Apart.when {a s : State} {n : Nat} (h : Apart a n s) (c : Bool) {f : State → State} (hf : ∀ u, Apart a n u → Apart a n (f u)) : Apart a n (s.when c f) := State.when_stable h c f hf
theorem Apart.put {a s : State} {n : Nat} (h : Apart a n s) (r : FRef) (v : Nat) : Apart a n (s.put r v) := h
theorem Apart.modH {a s : State} {n : Nat} (h : Apart a n s) (g : Hall → Hall) : Apart a n (s.modH g) := h
theorem Apart.raise {a s : State} {n : Nat} (h : Apart a n s) (r : FRef) : Apart a n (s.raise r) := h
theorem applyChg_apart {a s : State} {n : Nat} (h : Apart a n s) (c : Nat) : Apart a n (applyChg s c) := by
  unfold applyChg
  refine Apart.foldl (h.modH _) fun u x hu => ?_
  unfold oneChg
  split
  · split
    · exact hu
    · exact hu.put _ _
  · exact hu.put _ _
theorem stormPass_apart {a s : State} {n : Nat} (h : Apart a n s) (c : Nat) (ks : List Nat) : Apart a n (stormPass s c ks) := by
  unfold stormPass
  refine foldl_inv (fun u : State => Apart a n u) _ (fun u x hu => ?_) _ _ h
  split
  · exact hu
  · exact Apart.outside (((hu.put _ _).raise _).put _ _) (fault_outside (Outside.refl plainReg_free _) 80 x .contained _ (by decide) (by decide))
theorem formWith_apart {a s : State} {n : Nat} (h : Apart a n s) (c : Nat) (ks : List Nat) : Apart a n (formWith s c ks) := by
  unfold formWith
  extract_lets s4 span
  have hx : Apart a n s4 := Apart.modH (stormPass_apart h c ks) _
  refine Apart.foldl (Apart.modH (Apart.foldl hx fun u x hu => ?_) _) fun u x hu => hu.outside (monEventAt_outside (Outside.refl plainReg_free u) _ _ _)
  exact (hu.when _ fun w hw => hw.modH _).when _ fun w hw => hw.modH _
theorem disarmAll_apart {a s : State} {n : Nat} (h : Apart a n s) (fs : List Nat) : Apart a n (disarmAll s fs) :=
  Apart.foldl h fun u x hu => Apart.foldl hu fun v y hv => hv.when _ fun w hw => (hw.put _ _).raise _
theorem formCycle_apart {a s : State} {n : Nat} (h : Apart a n s) (c : Nat) : Apart a n (formCycle s c) :=
  formWith_apart (Apart.modH (disarmAll_apart (applyChg_apart h c) _) _) _ _
theorem passTime_apart {a s : State} {n : Nat} (h : Apart a n s) (ho : houseOpen s = true) (d : Nat) (hd : s.clk.house + d ≤ n) : Apart a n (passTime s d) := by
  obtain ⟨⟨h1, h2⟩, h3⟩ := h
  have e1 : (passTime s d).clk.house = s.clk.house + d := by simp only [passTime, ho, if_true]
  have e2 : (passTime s d).clk.now = s.clk.now + d := rfl
  exact ⟨⟨by rw [e1]; exact hd, by rw [e1, e2]; omega⟩, h3⟩
theorem reachCycle_apart {a s : State} {n : Nat} (h : Apart a n s) {c : Nat} (hc : c * coreU ≤ n) : Apart a n (reachCycle s c) := by
  unfold reachCycle
  split
  · rename_i ho
    refine passTime_apart h ho _ ?_
    have := h.1.1
    generalize c * coreU = m at *
    omega
  · exact h
theorem gridOf_le (s : State) (k : Nat) : gridOf s k ≤ k := by
  exact Nat.div_mul_le_self _ _
theorem settle_apart {a s : State} {n k : Nat} (h : Apart a n s) (hk : k * coreU ≤ n) : Apart a n (settle s k) := by
  refine applyChg_apart (settleLoop_inv (P := Apart a n) (fun _ c h => formCycle_apart h c) (fun _ c hc h => reachCycle_apart h ?_) _ s h) _
  have h1 : c ≤ k := Nat.le_trans (Nat.le_of_lt hc) (gridOf_le s k)
  exact Nat.le_trans (Nat.mul_le_mul_right _ h1) hk
theorem cycleU_pos (s : State) : 0 < cycleU s := by unfold cycleU coreU; split <;> decide

theorem step_front (s : State) (c : Instr) (cs : List Instr) (h : s.pending = c :: cs) : step s = exec c { s with pending := cs } := by
  unfold step; rw [h]
theorem step_idle (s : State) (h : s.pending = []) : step s = .next (tick s) := by
  unfold step; rw [h]
theorem canonical_queue (s : State) (cs : List Instr) (h : Canonical s) : Canonical { s with pending := cs } := h
theorem clock_stable (p : List Instr) (n : Nat) : StableAll (fun s => s.pending = p ∧ n ≤ s.clk.now) where
  reg s _ _ h := h
  eng s _ _ h := h
  lane s _ _ h := h
  tab s _ _ h := h
  pll s _ _ h := h
  dma s _ _ h := h
  mon s _ _ h := h
  walk s _ _ h := h
  part s _ _ _ h := h
  parts s _ h := h
  clane s _ _ h := h
  imem s _ _ h := h
  clk s c hc h := ⟨h.1, Nat.le_trans h.2 hc⟩
  free s h := h
  regsOf s _ h := h
  noDma s h := h
  rest s _ _ _ _ _ _ _ _ _ _ _ _ _ _ _ _ _ _ _ h := h
  store s _ _ h := h
  gran s _ _ h := h
  noField s h := h
theorem held_stable (m : List Host.Cell) (g : Tbl Nat) : Stable (fun s => s.store = m ∧ s.granErr = g) where
  reg s _ _ h := h
  eng s _ _ h := h
  lane s _ _ h := h
  tab s _ _ h := h
  pll s _ _ h := h
  dma s _ _ h := h
  mon s _ _ h := h
  walk s _ _ h := h
  part s _ _ _ h := h
  parts s _ h := h
  clane s _ _ h := h
  imem s _ _ h := h
  clk s c hc h := h
  free s h := h
  regsOf s _ h := h
  noDma s h := h
  rest s _ _ _ _ _ _ _ _ _ _ _ _ _ _ _ _ _ _ _ h := h

end Sys2Proof.Machine
end

