-- ==== Sys2Proof/Laws/Imem.lean ====
section
/-! SUPPORT. The instruction store: a dropped write. -/

namespace Sys2Proof.Machine

theorem plainReg_stat (e : Nat) (he : e < 576) : PlainReg (R.eng_stat e) := plain_engine e 0x20 he (by decide)
theorem imemDrop_done (s : State) (e i : Nat) (he : e < 576) (hh : Awake s) : (imemDrop s e i).f (F.eng_stat_imem_drop e) = 1 ∧
    Recorded .field 20 s (imemDrop s e i) ∧ (imemDrop s e i).imemStage = s.imemStage ∧ (imemDrop s e i).imemErr = s.imemErr ∧
    ∀ a, PlainReg a → a ≠ R.eng_stat e → (imemDrop s e i).reg a = s.reg a := by
  have hA : Awake (s.raise (F.eng_stat_imem_drop e)) := awake_put hh (by
    simp only [F.eng_stat_imem_drop, R.eng_stat]; unfold engBase roomBase quadBase; split <;> omega)
  have hd := fault_done (s.raise (F.eng_stat_imem_drop e)) 20 e .contained i hA.1 (by decide) (by decide) (by decide)
  refine ⟨?_, recorded_before hd.1 (recKeep_put (recKeep_refl s) _ _ (plainReg_stat e he)) (by decide), hd.2.imemStage, hd.2.imemErr, fun a ha hne => ?_⟩
  · show (fault _ _ _ _ _).f _ = _
    rw [hd.2.f (plainReg_stat e he)]
    exact State.put_f_self _ _ _ (Nat.le_of_ble_eq_true rfl)
  · show (fault _ _ _ _ _).reg _ = _
    rw [hd.2.reg a ha]
    exact State.put_reg_ne _ _ _ (Ne.symm hne)

end Sys2Proof.Machine
end

