-- ==== Sys2Proof/Laws/ProgWord.lean ====
section
/-! SUPPORT. The fields of an operation's word are the operation's. -/

namespace Sys2Proof.Machine

set_option linter.unreachableTactic false
set_option linter.unusedTactic false
set_option linter.unusedSimpArgs false
set_option linter.unnecessarySeqFocus false

/-- A field of a word, as a number. -/
theorem word64_bits (op md x s n : Nat) : (word64 op md x).extractLsb' s n = BitVec.ofNat n ((op * 2 ^ 56 + md * 2 ^ 48 + x) % 2 ^ 64 / 2 ^ s) := by
  apply BitVec.eq_of_toNat_eq
  rw [BitVec.extractLsb'_toNat, word64, BitVec.toNat_ofNat, BitVec.toNat_ofNat, Nat.shiftRight_eq_div_pow]
/-- A bit of a word. -/
theorem word64_bit (op md x i : Nat) : (word64 op md x).getLsbD i = decide ((op * 2 ^ 56 + md * 2 ^ 48 + x) % 2 ^ 64 / 2 ^ i % 2 = 1) := by
  rw [BitVec.getLsbD, Nat.testBit_eq_decide_div_mod_eq, word64, BitVec.toNat_ofNat]
theorem ofNat_toNat_eq {n : Nat} (b : BitVec n) (x : Nat) (h : x % 2 ^ n = b.toNat) : BitVec.ofNat n x = b := by
  apply BitVec.eq_of_toNat_eq; rw [BitVec.toNat_ofNat]; exact h
/-- The fields of an operation's word are the operation's. -/
theorem opFields_encode (o : ProgOp) : opFields (encodeWord o) = some o := by
  cases o with
  | nop => rfl
  | halt => rfl
  | ret => rfl
  | synct => rfl
  | ldtStart => rfl
  | jmp a =>
    have e : encodeWord (.jmp a) = word64 8 0 a.toNat := rfl
    have ha := a.isLt
    have hop : ((word64 8 0 a.toNat).extractLsb' 56 8).toNat = 8 := by rw [word64_bits, BitVec.toNat_ofNat]; omega
    simp only [e, opFields, hop]
    simp only [word64_bits, if_true, Bool.false_eq_true, if_false]
    congr 2 <;> exact ofNat_toNat_eq _ _ (by omega)
  | call a =>
    have e : encodeWord (.call a) = word64 9 0 a.toNat := rfl
    have ha := a.isLt
    have hop : ((word64 9 0 a.toNat).extractLsb' 56 8).toNat = 9 := by rw [word64_bits, BitVec.toNat_ofNat]; omega
    simp only [e, opFields, hop]
    simp only [word64_bits, if_true, Bool.false_eq_true, if_false]
    congr 2 <;> exact ofNat_toNat_eq _ _ (by omega)
  | br m a =>
    have e : encodeWord (.br m a) = word64 11 m.toNat a.toNat := rfl
    have hm := m.isLt
    have ha := a.isLt
    have hop : ((word64 11 m.toNat a.toNat).extractLsb' 56 8).toNat = 11 := by rw [word64_bits, BitVec.toNat_ofNat]; omega
    simp only [e, opFields, hop]
    simp only [word64_bits, if_true, Bool.false_eq_true, if_false]
    congr 2 <;> exact ofNat_toNat_eq _ _ (by omega)
  | djnz x a =>
    have e : encodeWord (.djnz x a) = word64 12 x.toNat a.toNat := rfl
    have hx := x.isLt
    have ha := a.isLt
    have hop : ((word64 12 x.toNat a.toNat).extractLsb' 56 8).toNat = 12 := by rw [word64_bits, BitVec.toNat_ofNat]; omega
    simp only [e, opFields, hop]
    simp only [word64_bits, if_true, Bool.false_eq_true, if_false]
    congr 2 <;> exact ofNat_toNat_eq _ _ (by omega)
  | play sg n =>
    have e : encodeWord (.play sg n) = word64 16 0 (n.toNat * 2 ^ 32 + sg.toNat) := rfl
    have hsg := sg.isLt
    have hn := n.isLt
    have hop : ((word64 16 0 (n.toNat * 2 ^ 32 + sg.toNat)).extractLsb' 56 8).toNat = 16 := by rw [word64_bits, BitVec.toNat_ofNat]; omega
    simp only [e, opFields, hop]
    simp only [word64_bits, if_true, Bool.false_eq_true, if_false]
    congr 2 <;> exact ofNat_toNat_eq _ _ (by omega)
  | playc sg x =>
    have e : encodeWord (.playc sg x) = word64 17 x.toNat sg.toNat := rfl
    have hsg := sg.isLt
    have hx := x.isLt
    have hop : ((word64 17 x.toNat sg.toNat).extractLsb' 56 8).toNat = 17 := by rw [word64_bits, BitVec.toNat_ofNat]; omega
    simp only [e, opFields, hop]
    simp only [word64_bits, if_true, Bool.false_eq_true, if_false]
    congr 2 <;> exact ofNat_toNat_eq _ _ (by omega)
  | wait m sg =>
    have e : encodeWord (.wait m sg) = word64 18 m.toNat sg.toNat := rfl
    have hm := m.isLt
    have hsg := sg.isLt
    have hop : ((word64 18 m.toNat sg.toNat).extractLsb' 56 8).toNat = 18 := by rw [word64_bits, BitVec.toNat_ofNat]; omega
    simp only [e, opFields, hop]
    simp only [word64_bits, if_true, Bool.false_eq_true, if_false]
    congr 2 <;> exact ofNat_toNat_eq _ _ (by omega)
  | strmImm r g =>
    have e : encodeWord (.strmImm r g) = word64 19 0 (r.toNat * 2 ^ 40 + g.toNat) := rfl
    have hr := r.isLt
    have hg := g.isLt
    have hop : ((word64 19 0 (r.toNat * 2 ^ 40 + g.toNat)).extractLsb' 56 8).toNat = 19 := by rw [word64_bits, BitVec.toNat_ofNat]; omega
    simp only [e, opFields, hop]
    have hb : (word64 19 0 (r.toNat * 2 ^ 40 + g.toNat)).getLsbD 55 = false := by rw [word64_bit]; simp only [decide_eq_true_eq, decide_eq_false_iff_not]; omega
    rw [hb]
    simp only [word64_bits, if_true, Bool.false_eq_true, if_false]
    congr 2 <;> exact ofNat_toNat_eq _ _ (by omega)
  | strmCtr r x =>
    have e : encodeWord (.strmCtr r x) = word64 19 (0x80 + x.toNat) (r.toNat * 2 ^ 40) := rfl
    have hr := r.isLt
    have hx := x.isLt
    have hop : ((word64 19 (0x80 + x.toNat) (r.toNat * 2 ^ 40)).extractLsb' 56 8).toNat = 19 := by rw [word64_bits, BitVec.toNat_ofNat]; omega
    simp only [e, opFields, hop]
    have hb : (word64 19 (0x80 + x.toNat) (r.toNat * 2 ^ 40)).getLsbD 55 = true := by rw [word64_bit]; simp only [decide_eq_true_eq, decide_eq_false_iff_not]; omega
    rw [hb]
    simp only [word64_bits, if_true, Bool.false_eq_true, if_false]
    congr 2 <;> exact ofNat_toNat_eq _ _ (by omega)
  | addt i =>
    have e : encodeWord (.addt i) = word64 26 0 i.toNat := rfl
    have hi := i.isLt
    have hop : ((word64 26 0 i.toNat).extractLsb' 56 8).toNat = 26 := by rw [word64_bits, BitVec.toNat_ofNat]; omega
    simp only [e, opFields, hop]
    simp only [word64_bits, if_true, Bool.false_eq_true, if_false]
    congr 2 <;> exact ofNat_toNat_eq _ _ (by omega)
  | ldc x i =>
    have e : encodeWord (.ldc x i) = word64 32 x.toNat i.toNat := rfl
    have hx := x.isLt
    have hi := i.isLt
    have hop : ((word64 32 x.toNat i.toNat).extractLsb' 56 8).toNat = 32 := by rw [word64_bits, BitVec.toNat_ofNat]; omega
    simp only [e, opFields, hop]
    simp only [word64_bits, if_true, Bool.false_eq_true, if_false]
    congr 2 <;> exact ofNat_toNat_eq _ _ (by omega)
  | addc x i =>
    have e : encodeWord (.addc x i) = word64 33 x.toNat i.toNat := rfl
    have hx := x.isLt
    have hi := i.isLt
    have hop : ((word64 33 x.toNat i.toNat).extractLsb' 56 8).toNat = 33 := by rw [word64_bits, BitVec.toNat_ofNat]; omega
    simp only [e, opFields, hop]
    simp only [word64_bits, if_true, Bool.false_eq_true, if_false]
    congr 2 <;> exact ofNat_toNat_eq _ _ (by omega)
  | mark m o =>
    have e : encodeWord (.mark m o) = word64 40 m.toNat o.toNat := rfl
    have hm := m.isLt
    have ho := o.isLt
    have hop : ((word64 40 m.toNat o.toNat).extractLsb' 56 8).toNat = 40 := by rw [word64_bits, BitVec.toNat_ofNat]; omega
    simp only [e, opFields, hop]
    simp only [word64_bits, if_true, Bool.false_eq_true, if_false]
    congr 2 <;> exact ofNat_toNat_eq _ _ (by omega)
  | sig m =>
    have e : encodeWord (.sig m) = word64 41 m.toNat 0 := rfl
    have hm := m.isLt
    have hop : ((word64 41 m.toNat 0).extractLsb' 56 8).toNat = 41 := by rw [word64_bits, BitVec.toNat_ofNat]; omega
    simp only [e, opFields, hop]
    simp only [word64_bits, if_true, Bool.false_eq_true, if_false]
    congr 2 <;> exact ofNat_toNat_eq _ _ (by omega)
  | ldf i v =>
    have e : encodeWord (.ldf i v) = word64 49 i.toNat v.toNat := rfl
    have hi := i.isLt
    have hv := v.isLt
    have hop : ((word64 49 i.toNat v.toNat).extractLsb' 56 8).toNat = 49 := by rw [word64_bits, BitVec.toNat_ofNat]; omega
    simp only [e, opFields, hop]
    simp only [word64_bits, if_true, Bool.false_eq_true, if_false]
    congr 2 <;> exact ofNat_toNat_eq _ _ (by omega)
  | tset a b =>
    have e : encodeWord (.tset a b) = word64 56 (b.toNat * 16 + a.toNat) 0 := rfl
    have ha := a.isLt
    have hb := b.isLt
    have hop : ((word64 56 (b.toNat * 16 + a.toNat) 0).extractLsb' 56 8).toNat = 56 := by rw [word64_bits, BitVec.toNat_ofNat]; omega
    simp only [e, opFields, hop]
    simp only [word64_bits, if_true, Bool.false_eq_true, if_false]
    congr 2 <;> exact ofNat_toNat_eq _ _ (by omega)
  | lvl n =>
    have e : encodeWord (.lvl n) = word64 57 n.toNat 0 := rfl
    have hn := n.isLt
    have hop : ((word64 57 n.toNat 0).extractLsb' 56 8).toNat = 57 := by rw [word64_bits, BitVec.toNat_ofNat]; omega
    simp only [e, opFields, hop]
    simp only [word64_bits, if_true, Bool.false_eq_true, if_false]
    congr 2 <;> exact ofNat_toNat_eq _ _ (by omega)
  | cmpm m =>
    have e : encodeWord (.cmpm m) = word64 58 m.toNat 0 := rfl
    have hm := m.isLt
    have hop : ((word64 58 m.toNat 0).extractLsb' 56 8).toNat = 58 := by rw [word64_bits, BitVec.toNat_ofNat]; omega
    simp only [e, opFields, hop]
    simp only [word64_bits, if_true, Bool.false_eq_true, if_false]
    congr 2 <;> exact ofNat_toNat_eq _ _ (by omega)
  | ldt c i =>
    have hv := i.isLt
    cases c
    · have e : encodeWord (.ldt false i) = word64 25 0 i.toNat := by simp only [encodeWord, bit, Bool.false_eq_true, if_true, if_false, Nat.zero_mul, Nat.one_mul, Nat.zero_add]
      have hop : ((word64 25 0 i.toNat).extractLsb' 56 8).toNat = 25 := by rw [word64_bits, BitVec.toNat_ofNat]; omega
      have h48 : (word64 25 0 i.toNat).getLsbD 48 = false := by rw [word64_bit]; simp only [decide_eq_true_eq, decide_eq_false_iff_not]; omega
      have h49 : (word64 25 0 i.toNat).getLsbD 49 = false := by rw [word64_bit]; simp only [decide_eq_true_eq, decide_eq_false_iff_not]; omega
      simp only [e, opFields, hop, h48, h49, if_true, Bool.false_eq_true, if_false]
      simp only [word64_bits]
      simp only [Option.some.injEq, ProgOp.ldt.injEq, true_and, and_true]; exact ofNat_toNat_eq _ _ (by omega)
    · have e : encodeWord (.ldt true i) = word64 25 1 i.toNat := by simp only [encodeWord, bit, Bool.false_eq_true, if_true, if_false, Nat.zero_mul, Nat.one_mul, Nat.zero_add]
      have hop : ((word64 25 1 i.toNat).extractLsb' 56 8).toNat = 25 := by rw [word64_bits, BitVec.toNat_ofNat]; omega
      have h48 : (word64 25 1 i.toNat).getLsbD 48 = true := by rw [word64_bit]; simp only [decide_eq_true_eq, decide_eq_false_iff_not]; omega
      have h49 : (word64 25 1 i.toNat).getLsbD 49 = false := by rw [word64_bit]; simp only [decide_eq_true_eq, decide_eq_false_iff_not]; omega
      simp only [e, opFields, hop, h48, h49, if_true, Bool.false_eq_true, if_false]
      simp only [word64_bits]
      simp only [Option.some.injEq, ProgOp.ldt.injEq, true_and, and_true]; exact ofNat_toNat_eq _ _ (by omega)
  | setp c p =>
    have hv := p.isLt
    cases c
    · have e : encodeWord (.setp false p) = word64 50 0 p.toNat := by simp only [encodeWord, bit, Bool.false_eq_true, if_true, if_false, Nat.zero_mul, Nat.one_mul, Nat.zero_add]
      have hop : ((word64 50 0 p.toNat).extractLsb' 56 8).toNat = 50 := by rw [word64_bits, BitVec.toNat_ofNat]; omega
      have h48 : (word64 50 0 p.toNat).getLsbD 48 = false := by rw [word64_bit]; simp only [decide_eq_true_eq, decide_eq_false_iff_not]; omega
      simp only [e, opFields, hop, h48, if_true, Bool.false_eq_true, if_false]
      simp only [word64_bits]
      simp only [Option.some.injEq, ProgOp.setp.injEq, true_and, and_true]; exact ofNat_toNat_eq _ _ (by omega)
    · have e : encodeWord (.setp true p) = word64 50 1 p.toNat := by simp only [encodeWord, bit, Bool.false_eq_true, if_true, if_false, Nat.zero_mul, Nat.one_mul, Nat.zero_add]
      have hop : ((word64 50 1 p.toNat).extractLsb' 56 8).toNat = 50 := by rw [word64_bits, BitVec.toNat_ofNat]; omega
      have h48 : (word64 50 1 p.toNat).getLsbD 48 = true := by rw [word64_bit]; simp only [decide_eq_true_eq, decide_eq_false_iff_not]; omega
      simp only [e, opFields, hop, h48, if_true, Bool.false_eq_true, if_false]
      simp only [word64_bits]
      simp only [Option.some.injEq, ProgOp.setp.injEq, true_and, and_true]; exact ofNat_toNat_eq _ _ (by omega)
  | setf i c =>
    have hv := i.isLt
    cases c
    · have e : encodeWord (.setf i false) = word64 48 i.toNat 0 := by simp only [encodeWord, bit, Bool.false_eq_true, if_true, if_false, Nat.zero_mul, Nat.one_mul, Nat.zero_add]
      have hop : ((word64 48 i.toNat 0).extractLsb' 56 8).toNat = 48 := by rw [word64_bits, BitVec.toNat_ofNat]; omega
      have h55 : (word64 48 i.toNat 0).getLsbD 55 = false := by rw [word64_bit]; simp only [decide_eq_true_eq, decide_eq_false_iff_not]; omega
      simp only [e, opFields, hop, h55, if_true, Bool.false_eq_true, if_false]
      simp only [word64_bits]
      simp only [Option.some.injEq, ProgOp.setf.injEq, true_and, and_true]; exact ofNat_toNat_eq _ _ (by omega)
    · have e : encodeWord (.setf i true) = word64 48 (0x80 + i.toNat) 0 := by simp only [encodeWord, bit, Bool.false_eq_true, if_true, if_false, Nat.zero_mul, Nat.one_mul, Nat.zero_add]
      have hop : ((word64 48 (0x80 + i.toNat) 0).extractLsb' 56 8).toNat = 48 := by rw [word64_bits, BitVec.toNat_ofNat]; omega
      have h55 : (word64 48 (0x80 + i.toNat) 0).getLsbD 55 = true := by rw [word64_bit]; simp only [decide_eq_true_eq, decide_eq_false_iff_not]; omega
      simp only [e, opFields, hop, h55, if_true, Bool.false_eq_true, if_false]
      simp only [word64_bits]
      simp only [Option.some.injEq, ProgOp.setf.injEq, true_and, and_true]; exact ofNat_toNat_eq _ _ (by omega)

end Sys2Proof.Machine
end

