-- ==== Sys2Proof/Laws/Sets.lean ====
section
/-! SUPPORT. A status bit with its counter, a status bit with its record, a clear beside hardware's update, and a new word of a lane's set. -/

namespace Sys2Proof.Machine

/-- A status bit is set and a counter saturates. -/
theorem raise_countSat (s : State) (r q : FRef) (hne : r.addr ≠ q.addr) (hr : Nat.ble (r.lo + r.w) 32 = true) (h1 : 1 % 2 ^ r.w = 1) (hq : Nat.ble (q.lo + q.w) 32 = true) (n : Nat) :
    ((s.raise r).countSat q n).f r = 1 ∧ ((s.raise r).countSat q n).f q = min (s.f q + n) (2 ^ q.w - 1) ∧ RegsOnly [r.addr, q.addr] s ((s.raise r).countSat q n) := by
  refine ⟨?_, ?_, ?_⟩
  · rw [State.countSat_f, State.put_f_ne _ _ _ _ (Or.inl (Ne.symm hne)), State.raise_f, State.put_f_same _ _ _ hr, h1]
  · rw [countSat_at _ _ hq]; congr 2
    rw [State.raise_f]; exact State.put_f_ne _ _ _ _ (Or.inl hne)
  · exact regsOnly_note (regsOnly_put (regsOnly_raise (regsOnly_refl _ _) _ (by simp)) _ _ (by simp)) _ _ _
/-- A status bit is set and a fault recorded. -/
theorem fault_raise (s : State) (r : FRef) (n unit : Nat) (c : FaultClass) (syn : Nat) (hh : heldSide s .field = false) (hr : PlainReg r.addr)
    (h0 : r.addr ≠ R.id_bootStat) (hw : Nat.ble (r.lo + r.w) 32 = true) (h1 : 1 % 2 ^ r.w = 1) (hn : srcKnown .field n) (hs : n < 256) (hc : c ≠ .fatal) :
    (fault (s.raise r) n unit c syn).f r = 1 ∧ Recorded .field n s (fault (s.raise r) n unit c syn) ∧
    ∀ a, PlainReg a → a ≠ r.addr → (fault (s.raise r) n unit c syn).reg a = s.reg a := by
  have hrr : ∀ a, a ≠ r.addr → (s.raise r).reg a = s.reg a := fun a ha => by rw [State.raise_reg]; exact State.put_reg_ne _ _ _ (Ne.symm ha)
  have hd := fault_done (s.raise r) n unit c syn (heldSide_of_f hh (hrr _ (Ne.symm h0))) hn hs hc
  refine ⟨(hd.2.f hr).trans (by rw [State.raise_f, State.put_f_same _ _ _ hw, h1]), ?_, fun a ha hne => (hd.2.reg a ha).trans (hrr a hne)⟩
  exact recorded_before hd.1 (fun a ha => hrr a (fun h => ha (h ▸ hr))) hs
/-- A register write leaves what hardware has counted in this cycle. -/
theorem hwSum_setReg (s : State) {a : Nat} (w : Word) (r : FRef) (h : a ≠ R.pwr_stat) : (s.setReg a w).hwSum r = s.hwSum r := by
  have hf : (s.setReg a w).f F.pwr_stat_state = s.f F.pwr_stat_state := State.setReg_f_ne _ _ _ h
  have hc : ∀ b, regCycle (s.setReg a w) b = regCycle s b := fun b => by
    unfold regCycle infraNow cycleU coreSlow; rw [hf]; rfl
  unfold State.hwSum State.hwOf
  simp only [hc]; rfl
/-- A naming of by now is not made anew. -/
theorem renameLater_now {s : State} {e : Nat} (h : NamedByNow s e) : renameLater s e = s := by
  unfold renameLater
  dsimp only
  split
  · rfl
  · rename_i p hp
    rw [if_pos (Or.inl (h p hp))]
/-- A timing or level set takes a word. -/
theorem putSetWord_done (s : State) (l a : Nat) (v : Word) (h : NamedByNow s l) : (putSetWord s l a v).reg a = v ∧ ConfigOnly [a] s (putSetWord s l a v) := by
  obtain ⟨ol, ho⟩ := noteOld_frame s a
  have hr : putSetWord s l a v = (s.modH (fun h => { h with old := ol })).setReg a v := by
    unfold putSetWord
    rw [ho]
    have hN : NamedByNow ((s.modH (fun h => { h with old := ol })).setReg a v) l := h
    exact renameLater_now hN
  rw [hr]
  refine ⟨setReg_same _ _ _, fun b hb => ?_, rfl⟩
  exact State.setReg_reg_ne _ _ (by rintro rfl; exact hb (by simp))

end Sys2Proof.Machine
end

