-- ==== Sys2Proof/Laws/Store.lean ====
section
/-! SUPPORT. What an arbiter with one request chooses, and what granting it does. -/

namespace Sys2Proof.Machine

theorem advanceNow_past {s : State} {t : Nat} (h : t ≤ s.clk.now) : advanceNow s t = s := by
  unfold advanceNow; rw [if_neg (Nat.not_lt.2 h)]
theorem arbitrate_one (s : State) (all : List Req) (level node pc i n : Nat) (r : Req) (d : List (Nat × Int)) :
    ∃ d', arbitrate s all level node pc [(i, r, n)] d = some (r, d') := by
  unfold arbitrate
  simp only [List.map_cons, List.map_nil, List.max?_cons, List.max?_nil, Option.elim_none]
  simp only [List.filter_cons, List.filter_nil, beq_self_eq_true, if_true, List.map_cons, List.map_nil, List.max?_cons, List.max?_nil, Option.elim_none, Option.getD_some, List.foldl_nil]
  exact ⟨_, rfl⟩
theorem arbitrate_none (s : State) (all : List Req) (level node pc : Nat) (d : List (Nat × Int)) : arbitrate s all level node pc [] d = none := rfl
theorem portChoice_one (s : State) (r : Req) (pc : Nat) (d : List (Nat × Int)) : ∃ d', portChoice s [r] pc r.port d = some (r, d') := by
  unfold portChoice
  have he : ([requester r] : List Nat).eraseDups = [requester r] := by simp [List.eraseDups_cons]
  simp only [List.filter_cons, List.filter_nil, beq_self_eq_true, if_true, List.map_cons, List.map_nil, he, List.filterMap_cons, List.filterMap_nil, headOf, List.foldl_nil, Option.map_some]
  exact arbitrate_one _ _ _ _ _ _ _ _ _
theorem concChoice_one (s : State) (r : Req) (pc c : Nat) (d : List (Nat × Int)) :
    (concOf r.port = c → ∃ d', concChoice s [r] pc c d = some (r, d')) ∧ (concOf r.port ≠ c → concChoice s [r] pc c d = none) := by
  unfold concChoice
  refine ⟨fun h => ?_, fun h => ?_⟩
  · have he : ([r.port] : List Nat).eraseDups = [r.port] := by simp [List.eraseDups_cons]
    obtain ⟨d1, h1⟩ := portChoice_one s r pc d
    simp only [List.filter_cons, List.filter_nil, h, beq_self_eq_true, if_true, List.map_cons, List.map_nil, he, List.filterMap_cons, List.filterMap_nil, h1, Option.map_some]
    obtain ⟨d2, h2⟩ := arbitrate_one s [r] 2 c pc r.port (if s.on F.st_census_wing then census [r] (effClass r) else 1) r d
    rw [h2]
    exact portChoice_one s r pc d2
  · have hb : (concOf r.port == c) = false := by simpa using h
    simp only [List.filter_cons, List.filter_nil, hb, Bool.false_eq_true, if_false, List.map_nil, List.eraseDups_nil, List.filterMap_nil]
    rw [arbitrate_none]
theorem filterMap_none {α β : Type} (f : α → Option β) (l : List α) (h : ∀ x, x ∈ l → f x = none) : l.filterMap f = [] := by
  rw [List.filterMap_eq_nil_iff]; exact h
theorem pcChoice_one (s : State) (r : Req) (pc : Nat) (d : List (Nat × Int)) : ∃ d', pcChoice s [r] pc d = some (r, d') := by
  have hc : concOf r.port < 5 := by unfold concOf; split; omega; split <;> omega
  have hs : List.range 5 = List.range (concOf r.port) ++ concOf r.port :: (List.range (4 - concOf r.port)).map (· + concOf r.port + 1) := by
    generalize concOf r.port = c at hc
    have : c = 0 ∨ c = 1 ∨ c = 2 ∨ c = 3 ∨ c = 4 := by omega
    rcases this with rfl | rfl | rfl | rfl | rfl <;> rfl
  obtain ⟨d', h'⟩ := (concChoice_one s r pc (concOf r.port) d).1 rfl
  unfold pcChoice
  rw [hs, List.filterMap_append, List.filterMap_cons]
  rw [filterMap_none _ (List.range (concOf r.port)) (fun x hx => by
    rw [(concChoice_one s r pc x d).2 (fun h => by rw [h] at hx; simp at hx)]; rfl)]
  rw [filterMap_none _ ((List.range (4 - concOf r.port)).map (· + concOf r.port + 1)) (fun x hx => by
    rw [(concChoice_one s r pc x d).2 (fun h => by rw [List.mem_map] at hx; obtain ⟨y, _, hy⟩ := hx; omega)]; rfl)]
  rw [h']
  dsimp only [Option.map_some, List.nil_append]
  obtain ⟨d2, h2⟩ := arbitrate_one s [r] 3 pc pc (concOf r.port) (if s.on F.st_census_pc then census (([r] : List Req).filter (fun q => concOf q.port == concOf r.port)) (effClass r) else 1) r d
  rw [h2]
  exact (concChoice_one s r pc (concOf r.port) d2).1 rfl
theorem promote_none (s : State) (pc : Nat) (h : ∀ r, r ∈ s.ctl.reqs → pcOfGran r.gran = pc → overAge s r = false) : promote s pc = s := by
  have hf : s.ctl.reqs.filter (fun r => pcOfGran r.gran == pc && overAge s r) = [] := by
    rw [List.filter_eq_nil_iff]
    intro r hr hc
    simp only [Bool.and_eq_true, beq_iff_eq] at hc
    rw [h r hr hc.1] at hc; exact absurd hc.2 (by decide)
  unfold promote
  dsimp only
  rw [hf, List.foldl_nil]
  have hm : s.ctl.reqs.map (fun r => if pcOfGran r.gran = pc ∧ overAge s r = true then { r with promo := true } else r) = s.ctl.reqs := by
    conv_rhs => rw [← List.map_id s.ctl.reqs]
    apply List.map_congr_left
    intro r hr
    rw [if_neg (fun hc => by rw [h r hr hc.1] at hc; exact absurd hc.2 (by decide))]
    rfl
  rw [hm]
theorem putBytes_facts (n : Nat) : ∀ (u v : State) (a w : Nat), u.store = v.store → (putBytes u a w n).store = (putBytes v a w n).store ∧ (putBytes u a w n).granErr = u.granErr ∧
    (putBytes u a w n).eng = u.eng ∧ (putBytes u a w n).regs = u.regs ∧ (putBytes u a w n).ctl = u.ctl := by
  induction n with
  | zero => intro u v a w h; exact ⟨h, rfl, rfl, rfl, rfl⟩
  | succ n ih =>
    intro u v a w h
    exact ih (putByte u a (BitVec.ofNat 8 w)) (putByte v a (BitVec.ofNat 8 w)) (a + 1) (w / 256) (by unfold putByte; dsimp only; rw [h])
theorem writeGran_facts (u v : State) (g : Nat) (d : Granule) (h : u.store = v.store) : (writeGran u g d).store = (writeGran v g d).store ∧ errOf (writeGran u g d) g = 0 ∧
    (writeGran u g d).ctl.reqs = u.ctl.reqs ∧ (writeGran u g d).eng = u.eng ∧ (writeGran u g d).regs = u.regs := by
  unfold writeGran setErr errOf
  generalize 64 = n
  obtain ⟨a, b, c, e, f⟩ := putBytes_facts n u v (n * g) d.toNat h
  dsimp only
  exact ⟨a, by rw [tget_tset, if_pos rfl], by rw [f], c, e⟩

/-- The grant of the one request of a pseudo-channel, of one granule and within its age limit. -/
theorem storeGrant_one {s : State} {pc : Nat} {r : Req} (hr : s.ctl.reqs = [r]) (hu : stackUp s (pc / 64) = true) (hp : pcOfGran r.gran = pc)
    (hn : r.n = 1) (ho : overAge s r = false) :
    ∃ pa d', storeGrant s pc = (let s2 : State := { touchRow s r [] with ctl := { (touchRow s r []).ctl with reqs := [], deficit := d', promoAt := pa } }
      let s3 := refill (serveN 1 (passOver s2 pc) r)
      { s3 with ctl := { s3.ctl with deficit := pruneDef s3 pc s3.ctl.deficit } }) := by
  have hpr : promote s pc = s := promote_none s pc (fun q hq hqp => by rw [hr] at hq; simp only [List.mem_singleton] at hq; subst hq; exact ho)
  obtain ⟨d', hc⟩ := pcChoice_one s r pc s.ctl.deficit
  have hmine : s.ctl.reqs.filter (fun r => pcOfGran r.gran == pc) = [r] := by rw [hr]; simp [hp]
  have hany : s.ctl.reqs.any (fun r => pcOfGran r.gran == pc) = true := by rw [hr]; simp [hp]
  have hall : (if ([r].any (fun r => r.cls == 2 && urgency s r == 3) && decide (s.clk.now < tget (fun _ => 0) s.ctl.promoAt pc + nsU 100) && [r].any (fun r => !r.promo)) = true
    then [r].filter (fun r => !r.promo) else [r]) = [r] := by
    cases hq : r.promo <;> simp [hq]
  have hn1 : (if (r.promo && [r].any (fun r => r.cls == 2 && urgency s r == 3)) = true then 1 else if r.cls = 2 then r.n else min r.n (accessGrans s)) = 1 := by
    have hp4 : 1 ≤ accessGrans s := by
      unfold accessGrans
      have : s.f F.st_stat_point < 2 ^ 2 := f_lt _ _
      omega
    rw [hn]; split
    · rfl
    · split
      · rfl
      · omega
  have herase : s.ctl.reqs.erase r = [] := by rw [hr]; simp
  unfold storeGrant
  rw [if_neg (by rw [hu]; decide)]
  extract_lets s1 s0 mine urgent recent all
  have e1 : s1 = s := hpr
  have e0 : s0 = s := by show (if _ then s1 else refill s1) = s; rw [e1]; exact if_pos hany
  have em : mine = [r] := by show s0.ctl.reqs.filter _ = _; rw [e0]; exact hmine
  have ea : all = [r] := by
    show (if (urgent && recent && mine.any _) = true then mine.filter _ else mine) = _
    simp only [urgent, recent, em, e0]; exact hall
  have eu : urgent = [r].any (fun r => r.cls == 2 && urgency s r == 3) := by simp only [urgent, em, e0]
  clear_value s1 s0 mine urgent recent all
  subst e1 e0 ea
  rw [hc]
  rw [eu]
  dsimp only
  rw [hn1, hn, if_neg (Nat.lt_irrefl 1), herase, List.filter_nil]
  exact ⟨_, _, rfl⟩

end Sys2Proof.Machine
end

