-- ==== Sys2Proof/Laws/StoreRows.lean ====
section
/-! SUPPORT. What closing a row and owing refreshes leave, read back. -/

namespace Sys2Proof.Machine

theorem closeRow_at (s : State) (k : Nat) : tget (fun _ => 0) (closeRow s k).ctl.openRow k = 0 ∧
    ∀ j, j ≠ k → tget (fun _ => 0) (closeRow s k).ctl.openRow j = tget (fun _ => 0) s.ctl.openRow j := by
  unfold closeRow
  dsimp only
  exact ⟨by rw [tget_tset, if_pos rfl], fun j hj => by rw [tget_tset, if_neg (Ne.symm hj)]⟩
theorem setOwed_at (s : State) (k n : Nat) : owedOf (setOwed s k n) k = n := by
  unfold owedOf setOwed; dsimp only; rw [tget_tset, if_pos rfl]

end Sys2Proof.Machine
end

