-- ==== Sys2Proof/WellFormed.lean ====
section
/-! DEFINITION. Which commands are well formed: the bounds on operands that their types do not carry. exec is total on all
commands; these are the forms the spec's frames, packets and tables admit. -/

namespace Sys2Proof

/-- Number of descriptors in the table of room or quad t (R31). -/
def segCount (t : TableId) : Nat := if t.val < 32 then 16384 else 8192

/-- The operand bounds of R31, R160, R267, R305, R315, R317, R326, R327, R341 and R387. -/
def Instr.wellFormed : Instr → Bool
  | .descStage t i w _ => decide (i.toNat < segCount t) && decide (w.val ≠ 2)
  | .descCommit t i _ => decide (i.toNat < segCount t)
  | .descReload t i => decide (i.toNat < segCount t)
  | .pinLoadComplete t i => decide (i.toNat < segCount t)
  | .heldCopyRelease t i => decide (i.toNat < segCount t)
  | .syncAcquired _ offs => !offs.isEmpty && offs.all (fun o => decide (-32 ≤ o) && decide (o ≤ 32))
  | .streamGranule _ _ _ data => decide (1 ≤ data.length) && decide (data.length ≤ 128)
  | .aperRead _ len => decide (1 ≤ len) && decide (len ≤ 512)
  | .aperWrite _ data => decide (1 ≤ data.length) && decide (data.length ≤ 512)
  | .monGo _ _ => true
  | .regRd _ .bar0 len _ => decide (len = 4)
  | .regRd _ .store len _ => decide (1 ≤ len) && decide (len ≤ 256)
  | .regWr _ .bar0 _ data => decide (data.length ≤ 4)
  | .regWr _ .store _ data => decide (1 ≤ data.length) && decide (data.length ≤ 256)
  | .regCpl _ _ data => decide (data.length ≤ 256)
  | .streamData _ _ _ _ data => decide (1 ≤ data.length) && decide (data.length ≤ 4)
  | .fabStream _ _ _ _ data => decide (1 ≤ data.length) && decide (data.length ≤ 20)
  | .dmaQtail _ _ descs => decide (descs.length ≤ 4096)
  | .census _ _ _ entries => decide (entries.length ≤ 1024)
  | .supplyUv .host s _ => decide (s.val < 3)
  | .tjHigh .host n _ => decide (n.val = 0)
  | .tjCrit .host n _ => decide (n.val = 0)
  | .compareJudgement _ items => !items.isEmpty
  | .blockResetBegin .porchHostEnd => true
  | _ => true

end Sys2Proof
end

