-- ==== Sys2Proof/Tests/Slice0.lean ====
section
/-! SUPPORT. Tests of the model on fixed states, expected results taken from the spec, and a witness for the hypotheses of every
statement that has any. -/

namespace Sys2Proof.Tests

open Machine

set_option Elab.async false

/-! ### Commands that are not well formed -/

theorem test_wf_descriptor_index : (Instr.descStage 0 16383 0 0).wellFormed = true ∧ (Instr.descStage 32 8192 0 0).wellFormed = false ∧
    (Instr.descCommit 47 8192 0).wellFormed = false ∧ (Instr.descReload 32 8192).wellFormed = false ∧
    (Instr.pinLoadComplete 32 8192).wellFormed = false ∧ (Instr.heldCopyRelease 32 8192).wellFormed = false := by decide
theorem test_wf_descriptor_word : (Instr.descStage 0 5 2 0).wellFormed = false := by decide
theorem test_wf_sync_offsets : (Instr.syncAcquired 0 []).wellFormed = false ∧ (Instr.syncAcquired 0 [33]).wellFormed = false ∧
    (Instr.syncAcquired 0 [-32, 32]).wellFormed = true := by decide
theorem test_wf_stream_granules : (Instr.streamGranule 0 0 .host []).wellFormed = false ∧
    (Instr.streamData 0 0 0 0 (List.replicate 5 0)).wellFormed = false ∧
    (Instr.fabStream 0 0 0 0 (List.replicate 21 0)).wellFormed = false := by decide
theorem test_wf_aperture : (Instr.aperRead 0 0).wellFormed = false ∧ (Instr.aperRead 0 513).wellFormed = false ∧
    (Instr.aperWrite 0 []).wellFormed = false := by decide
theorem test_wf_register_messages : (Instr.regRd 0 .bar0 8 0).wellFormed = false ∧ (Instr.regRd 0 .store 257 0).wellFormed = false ∧
    (Instr.regWr 0 .bar0 0 [1, 2, 3, 4, 5]).wellFormed = false ∧ (Instr.regWr 0 .store 0 []).wellFormed = false := by decide
theorem test_wf_completion (d : List (BitVec 8)) (h : d.length = 257) : (Instr.regCpl 0 0 d).wellFormed = false := by
  show decide (d.length ≤ 256) = false; rw [h]; rfl
theorem test_wf_queue_descriptors (d : List DmaDesc) (h : d.length = 4097) : (Instr.dmaQtail 0 0 d).wellFormed = false := by
  show decide (d.length ≤ 4096) = false; rw [h]; rfl
theorem test_wf_census_entries (d : List CensusEntry) (h : d.length = 1025) : (Instr.census 0 0 0 d).wellFormed = false := by
  show decide (d.length ≤ 1024) = false; rw [h]; rfl
theorem test_wf_host_sensors : (Instr.supplyUv .host 3 0).wellFormed = false ∧ (Instr.tjHigh .host 1 0).wellFormed = false ∧
    (Instr.tjCrit .host 1 0).wellFormed = false := by decide
theorem test_wf_judgement : (Instr.compareJudgement 0 []).wellFormed = false := by decide

/-! ### Instruction words, written out from R79, R83 and R87 -/

/-- PLAY: opcode 0x10, n in bits 47:32, segment in bits 13:0. -/
theorem test_word_play : decodeWord 1 false 0x1000000300000025 = some (.play 0x25 3) := by decide +kernel
/-- LDT HI: opcode 0x19, modifier bit 48, immediate in bits 31:0. -/
theorem test_word_ldt_hi : decodeWord 1 false 0x1901000080000001 = some (.ldt true 0x80000001) := by decide +kernel
/-- BR: opcode 0x0B, mask in bits 55:48, address in bits 11:0. -/
theorem test_word_br : decodeWord 1 false 0x0B05000000000FFF = some (.br 5 0xFFF) := by decide +kernel
/-- A STRM word needs level 2 and a count of at least 8; opcode 0x13, ring in bits 47:40. -/
theorem test_word_strm : decodeWord 2 false 0x13000B0000000008 = some (.strmImm 0x0B 8) ∧ decodeWord 1 false 0x13000B0000000008 = none ∧
    decodeWord 2 false 0x13000B0000000007 = none := by decide +kernel
/-- A reserved bit that is 1, an opcode outside the table and TSET in a quad engine are undefined. -/
theorem test_word_undefined : decodeWord 2 false 0x0000000000000001 = none ∧ decodeWord 2 false 0x0200000000000000 = none ∧
    decodeWord 2 true 0x3832000000000000 = none ∧ decodeWord 2 false 0x3832000000000000 = some (.tset 2 3) := by decide +kernel

/-! ### States that the tests and the witnesses begin from -/

/-- Both sides run, every shutter is open, streaming is NORMAL, 2,000 core cycles of house time have passed. -/
def home : State :=
  { ((((((State.reset.put F.id_bootStat_stage 11).put F.hboot_stat_stage 5).setReg R.clk_shutRoom 0xFFFFFFFF).setReg R.clk_shutOther
      0xFFFFFFFF).put F.rings_phase_phase 1).put F.time_stat_valid 1) with
    clk := { now := 10 ^ 15, house := 2000 * coreU, started := true } }

/-- A play of segment 5, 16 granules at store granule 64, from the beginning of house time. -/
def play0 : Play :=
  { kind := .seg, pc := 1, seg := 5, base := 64, len := 16, wlog2 := 0, pos := 0, cmp := none, copy := none, cmpCopy := none, reps := 1
    grans := 16, first := 0, pend := {}, tt := 0, target := false, late := false, namedAt := 0, k0 := 0, t0 := 0, fetched := 0
    cmpFetched := 0, due := 0, marks := [], decided := false, endAt := 16, jmask := 0, jmaskAt := 0, digest := [], cond := false, void := false }

/-- Engine e is in state st and holds x. -/
def withEngine (s : State) (e st : Nat) (x : Engine) : State := (s.put (F.eng_stat_state e) st).setEngine e x

/-- Engine 0 runs play0, whose decision point has not passed. -/
def playing0 : State := withEngine home 0 stRun { play := some play0, level := 2, stack := [5, 6, 7, 8, 9, 10, 11], sample := 4, tt := 9, chainD := 1999 }
/-- The play is decided, and engine 0's chain stands at word 2 of an image whose last word is 4,095. -/
def chained : State :=
  (playing0.modE 0 (fun x => { x with play := some { play0 with decided := true }, nextPc := 2 })).setReg (R.imem_hi 0 0) 0xFE020FFF

theorem home_awake : Awake home := by refine ⟨?_, ?_, ?_⟩ <;> decide +kernel
theorem chained_awake : Awake chained := by refine ⟨?_, ?_, ?_⟩ <;> decide +kernel
theorem playing0_awake : Awake playing0 := by refine ⟨?_, ?_, ?_⟩ <;> decide +kernel
theorem chained_ready : ChainReady chained 0 := by refine ⟨⟨?_, ?_, ?_, ?_⟩, ?_, ?_, ?_⟩ <;> decide +kernel

/-! ### Witnesses -/

theorem witness_WordsThatMoveOn : ChainReady chained 0 ∧ (begun chained 0).stack.length = 7 ∧ (begun chained 0).stack = 5 :: [6, 7, 8, 9, 10, 11] ∧
    (3 : BitVec 8).toNat &&& (begun chained 0).sample = 0 := ⟨chained_ready, by decide +kernel⟩
theorem witness_RegisterWords : ChainReady chained 0 ∧ 2 ≤ (begun chained 0).level := ⟨chained_ready, by decide +kernel⟩
theorem witness_PendingWords : ChainReady chained 0 ∧ (0 : Fin 576).val < 512 ∧ 2 ≤ (begun chained 0).level ∧
    ((0 : BitVec 48).toNat = 0 ∨ 43981 ≤ (0 : BitVec 48).toNat) := ⟨chained_ready, by decide +kernel⟩

/-- The same at the start of core cycle c. -/
def atCycle (s : State) (c : Nat) : State := { s with clk := { s.clk with house := c * coreU } }

/-- Segment 5 of room 0 is valid: 16 granules at store granule 64. -/
def withSeg (s : State) : State := ((s.put (F.seg_ctl_valid 0 5) 1).put (F.seg_len_length 0 5) 16).put (F.seg_base_base 0 5) 64

theorem witness_NamingWords : ChainReady (withSeg chained) 0 ∧ NameOk (withSeg chained) 0 5 := by
  refine ⟨⟨⟨?_, ?_, ?_, ?_⟩, ?_, ?_, ?_⟩, ?_, ?_, ?_, .inl ?_⟩ <;> decide +kernel
/-- Ring 3 is enabled and bound to engine 0 and segment 5; counter 1 holds 8. -/
def ringed : State :=
  ((((withSeg chained).put (F.ring_cfg_en 3) 1).put (F.ring_cfg_engine 3) 0).put (F.ring_cfg_seg 3) 5).modE 0 (fun x => { x with ctr := [0, 8, 0, 0, 0, 0, 0, 0] })
theorem witness_NamingWords_counter : ChainReady ringed 0 ∧ NameOk ringed 0 5 ∧ (begun ringed 0).ctr.getD 1 0 = 8 ∧ (begun ringed 0).ctr.getD 0 0 = 0 ∧
    2 ≤ (begun ringed 0).level ∧ ringed.on (F.ring_cfg_en 3) = true ∧ ringed.f (F.ring_cfg_engine 3) = 0 ∧ ringed.f (F.ring_cfg_seg 3) = 5 := by
  refine ⟨⟨⟨?_, ?_, ?_, ?_⟩, ?_, ?_, ?_⟩, ⟨?_, ?_, ?_, .inl ?_⟩, ?_⟩ <;> decide +kernel
theorem witness_WordsThatTestOrStop : ChainReady chained 0 ∧ (4 : BitVec 8).toNat &&& (begun chained 0).sample = 4 ∧
    (begun chained 0).arrCyc ≠ coreNow chained ∧ arming chained 0 = false ∧ (begun chained 0).suite % 2 = 0 ∧ heldSide chained .field = false ∧
    2 ≤ (begun chained 0).level := ⟨chained_ready, by decide +kernel⟩
theorem witness_InstructionStore : Awake home ∧ imemWritable home 575 = true := ⟨home_awake, by decide +kernel⟩
theorem witness_InstructionStore_dropped : Awake chained ∧ imemWritable chained 0 = false := ⟨chained_awake, by decide +kernel⟩
/-- Engine 0's program: header of level 2, then PLAY of segment 5, 3 times, and HALT. -/
def withProgram (s : State) : State :=
  ((((s.setReg (R.imem_lo 0 0) 0).setReg (R.imem_hi 0 0) 0xFE020002).setReg (R.imem_lo 0 1) 5).setReg (R.imem_hi 0 1) 0x10000003).setReg
    (R.imem_hi 0 2) 0x01000000
/-- Segment 5 is engine 0's filler, resident. -/
def withFiller (s : State) : State := ((s.put (F.eng_filler_seg 0) 5).put (F.seg_ctl_filler 0 5) 1).put (F.seg_ctl_pin_state 0 5) 2
theorem witness_ArmRunsSetupChain : let s := withProgram (withFiller (withSeg home))
    Awake s ∧ ready s = true ∧ armable s 0 = true ∧ s.on (F.eng_suite_member 0) = false ∧
    armCheck ((s.put (F.eng_stat_state 0) stIdle).put (F.eng_stat_abort_res 0) 0) 0 = none := by
  refine ⟨⟨?_, ?_, ?_⟩, ?_⟩ <;> decide +kernel
theorem witness_ArmFails : Awake home ∧ ready home = true ∧ armable home 0 = true ∧ home.on (F.eng_suite_member 0) = false ∧
    (armCheck ((home.put (F.eng_stat_state 0) stIdle).put (F.eng_stat_abort_res 0) 0) 0).isSome = true := ⟨home_awake, by decide +kernel⟩
/-- Engine 0 is arming with play0 named and its queue filled. -/
def priming : State := (withEngine home 0 stIdle { next := some { play0 with copy := some (1, 0) }, level := 2 }).put (F.eng_stat_arming 0) 1
theorem witness_PrimeAndStart_prime : (priming.engine 0).suite % 2 = 0 ∧ canPrime priming 0 = true ∧ priming.on (F.eng_stat_start_pending 0) = false ∧
    (priming.engine 0).cfg % 4 ≠ 1 := by decide +kernel
/-- Engine 0 is ARMED with play0 named; cfg is its configuration. -/
def armed (cfg : Nat) : State := withEngine home 0 stArmed { next := some play0, level := 2, cfg := cfg }
theorem witness_PrimeAndStart_start : ((armed 0).engine 0).suite % 2 = 0 ∧ ((armed 0).engine 0).next = some play0 ∧ play0.pend.synct = false ∧
    est (armed 0) 0 = stArmed ∧ Awake (armed 0) ∧ ready (armed 0) = true ∧ ((armed 0).engine 0).cfg % 4 = 0 := by
  refine ⟨?_, ?_, ?_, ?_, ⟨?_, ?_, ?_⟩, ?_⟩ <;> decide +kernel
theorem witness_PrimeAndStart_time : let s := (armed 2).modE 0 (fun x => { x with startT := 1000 })
    (s.engine 0).next = some play0 ∧ est s 0 = stArmed ∧ (s.engine 0).cfg % 4 = 2 ∧ (s.engine 0).startT * 2 ^ 16 ≤ t16Now s ∧
    coreStart (coreOf (s.engine 0).armedAt + 64) ≤ (firstPlay s 0 ((s.engine 0).startT * 2 ^ 16) play0).2.2 := by decide +kernel
theorem witness_EngineStops_armed : ((armed 0).engine 0).suite % 2 = 0 ∧ Awake (armed 0) ∧ est (armed 0) 0 = stArmed ∧ arming (armed 0) 0 = false := by
  refine ⟨?_, ⟨?_, ?_, ?_⟩, ?_⟩ <;> decide +kernel
theorem witness_EngineStops_running : (playing0.engine 0).suite % 2 = 0 ∧ Awake playing0 ∧ running playing0 0 = true ∧ arming playing0 0 = false ∧
    playing0.f (F.eng_stat_abort_res 0) ≠ 1 ∧ (playing0.engine 0).fillEnd = none ∧ (playing0.engine 0).halting = false :=
  ⟨by decide +kernel, playing0_awake, by decide +kernel⟩
theorem witness_EngineStops_ends : let s := playing0.modE 0 (fun x => { x with abortPend := true })
    let u := playing0.modE 0 (fun x => { x with fillEnd := some (.aborted, 0) })
    (running s 0 = true ∧ (s.engine 0).abortPend = true ∧ (s.engine 0).fillEnd = none ∧ (s.engine 0).retune = false) ∧
    (u.engine 0).fillEnd = some (.aborted, 0) := by decide +kernel
theorem witness_EngineStops_halt : let s := playing0.modE 0 (fun x => { x with halting := true })
    playing s 0 = some play0 ∧ (s.engine 0).holding = false ∧ (s.engine 0).dec = none ∧ (s.engine 0).abortPend = false ∧ play0.kind = .seg ∧
    haltT s 0 play0 ≤ t16Now s := by decide +kernel
theorem witness_Decisions : (playing0.engine 0).suite % 2 = 0 ∧ playing playing0 0 = some play0 ∧ play0.decided = false ∧
    (playing0.engine 0).holding = false ∧ granT playing0 0 play0 (play0.endAt - 2) ≤ t16Now playing0 ∧ (playing0.engine 0).abortPend = false ∧
    (playing0.engine 0).next = none ∧ (playing0.engine 0).halting = false := by decide +kernel
/-- Engine 0 plays play0 with granule-jump mode and jump mask m, in core cycle 0. -/
def jumping (m : Nat) : State :=
  ((atCycle playing0 0).modE 0 (fun x => { x with cfg := 32, play := some { play0 with jmask := m } })).put (F.eng_task_flag 0) 2
theorem witness_Decisions_sample : playing (jumping 1) 0 = some { play0 with jmask := 1 } ∧ nextGran (jumping 1) 0 { play0 with jmask := 1 } = 0 ∧
    granT (jumping 1) 0 { play0 with jmask := 1 } 0 = t16Now (jumping 1) ∧ 0 + 2 < play0.endAt ∧ ((jumping 1).engine 0).cfg / 32 % 2 = 1 ∧
    flagsOf (jumping 1) 0 &&& 1 = 0 := by decide +kernel
theorem witness_Decisions_jump : playing (jumping 2) 0 = some { play0 with jmask := 2 } ∧ nextGran (jumping 2) 0 { play0 with jmask := 2 } = 0 ∧
    granT (jumping 2) 0 { play0 with jmask := 2 } 0 = t16Now (jumping 2) ∧ flagsOf (jumping 2) 0 &&& 2 ≠ 0 ∧
    coreStart 0 ≤ granT (jumping 2) 0 { play0 with jmask := 2 } 0 ∧ ((jumping 2).engine 0).abortPend = false ∧ ((jumping 2).engine 0).next = none := by
  decide +kernel
theorem witness_PlayEnds : let p := { play0 with decided := true }
    let s := playing0.modE 0 (fun x => { x with play := some p, next := some play0 })
    (s.engine 0).suite % 2 = 0 ∧ playing s 0 = some p ∧ (s.engine 0).next = some play0 ∧ p.kind = .seg ∧ (s.engine 0).halting = false ∧
    (s.engine 0).dec = none ∧ (s.engine 0).disagree = none ∧ (s.engine 0).holding = false ∧ (s.engine 0).abortPend = false ∧
    play0.pend.freq = none ∧ play0.pend.phase = none ∧ play0.pend.synct = false ∧ endT s 0 p ≤ t16Now s := by decide +kernel
theorem witness_MarksFire : let p := { play0 with marks := [(7, 2047)] }
    let s := playing0.modE 0 (fun x => { x with play := some p })
    playing s 0 = some p ∧ p.marks.find? (fun q => q.1 == 7) = some (7, 2047) ∧ 2047 < p.endAt * perGranule 0 ∧ (s.engine 0).holding = false ∧
    boundaryT (s.engine 0).set (s.engine 0).epoch (p.k0 + 2047) ≤ t16Now s := by decide +kernel
theorem witness_MissingGranules : let s := (atCycle playing0 0).modE 0 (fun x => { x with cfg := 64 })
    playing s 0 = some play0 ∧ (s.engine 0).holding = false ∧ max play0.due (nextGran s 0 play0) = 0 ∧ 0 < play0.endAt ∧
    isMissing s 0 play0 0 = true ∧ granT s 0 play0 0 ≤ t16Now s ∧ heldSide s .field = false ∧ missCauseOf s play0 0 true = 2 ∧
    (s.engine 0).missK ≠ some (granK 0 play0 0 - (perGranule 0 : Int)) ∧ (s.engine 0).cfg / 64 % 4 = 1 ∧ (s.engine 0).cfg / 256 % 2 = 0 := by
  decide +kernel
theorem witness_MissingGranules_slip : let s := (atCycle playing0 0).modE 0 (fun x => { x with cfg := 256 })
    playing s 0 = some play0 ∧ isMissing s 0 play0 0 = true ∧ (s.engine 0).cfg / 64 % 4 < 2 ∧ (s.engine 0).cfg / 256 % 2 = 1 := by decide +kernel
theorem witness_SlipResumes : let s := playing0.modE 0 (fun x => { x with holding := true, queue := [(0, 0, false)] })
    playing s 0 = some play0 ∧ (s.engine 0).holding = true ∧ (granData s 0 play0 play0.due).isSome = true := by decide +kernel
/-- A loaded copy of segment 5, identity 1, its granule 3 poisoned. -/
def copy0 : PanCopy := { id := 1, seg := 5, unit := 0, units := 4, base := 64, len := 16, wlog2 := 0, first := 0, cnt := 1, loaded := 16, state := 1
                         reload := false, data := [], poison := [] }
/-- Engine 0 plays play0, whose first granule came poisoned, after a filler run. -/
def poisoned : State :=
  ((atCycle playing0 0).modE 0 (fun x => { x with queue := [(0, 0, true)], fillK := some (-128), fillCopy := some 1 })).modT 0 (fun x => { x with copies := [copy0] })
theorem witness_PoisonPlays : let s := poisoned
    playing s 0 = some play0 ∧ max play0.due (nextGran s 0 play0) = 0 ∧ granData s 0 play0 0 = some (0, true) ∧ isMissing s 0 play0 0 = false ∧
    granT s 0 play0 0 ≤ t16Now s ∧ heldSide s .field = false ∧ (s.engine 0).fillK = some (granK 0 play0 0 - (perGranule 0 : Int)) ∧
    (s.engine 0).fillCopy.bind (copyOf s (tableOf 0)) = some copy0 ∧ copy0.poison = [] := by decide +kernel
theorem witness_TaskFlags : Awake home ∧ (home.engine 575).arrCyc ≠ coreNow home ∧ est home 575 ≠ stArmed ∧ (home.engine 575).cons = [] :=
  ⟨home_awake, by decide +kernel⟩
/-- Engines 0 (leader) and 1 of one suite run; x is what the leader holds. -/
def suite2 (x : Engine) : State :=
  withEngine (withEngine home 0 stRun { x with suite := 3, level := 2, play := some play0 }) 1 stRun { suite := 1 + 2 ^ 12, level := 2, play := some play0 }
theorem witness_Suites : let s := suite2 { dec := some 1990 }
    coreNow s ≥ (s.engine 0).nameCyc + 12 ∧ (s.engine 0).dec = some 1990 ∧ 1990 + 6 ≤ coreNow s ∧ (s.engine 0).next = none ∧ 1 ∈ membersOf s 0 := by
  decide +kernel
/-- play0 as named from the descriptor of withSeg, which both engines of suite2 may play. -/
def named0 : Play := { play0 with digest := sharedOf (descOf (withSeg home) 0 5) }
theorem witness_Suites_naming : let s := withSeg (suite2 { dec := some 1990, next := some named0 })
    (s.engine 0).next = some named0 ∧ slicesOk (beforeWrites s (coreNow s)) 0 (tableOf 0) play0.seg = true ∧ followerDesc (beforeWrites s (coreNow s)) 0 1 named0 = true ∧
    followerPair (beforeWrites s (coreNow s)) 1 play0.pend = none ∧ membersOf s 0 = [0, 1] := by decide +kernel
theorem witness_Suites_disagree : let s := suite2 { disagree := some true }
    (s.engine 0).disagree = some true ∧ arming s 0 = false ∧ heldSide s .field = false := by decide +kernel
theorem witness_Suites_fail : let s := (suite2 {}).put (F.eng_stat_state 0) stLost
    (s.engine 0).suite % 2 = 1 ∧ (s.engine 0).suite / 2 ^ 22 = 0 ∧ est s 0 = stLost ∧ arming s 1 = false ∧ running s 1 = true ∧
    (s.engine 1).fillEnd = none ∧ membersOf s 0 = [0, 1] := by decide +kernel
theorem witness_Lockstep : heldSide home .field = false ∧ (home.table 47).lsAt = 0 ∧ home.f (F.lstep_word_mode 47) ≠ 2 := by decide +kernel
/-- A visit of room 0 is in lockstep, in mode m, with engine 0 running. -/
def stepping (m : Nat) : State := (playing0.modT 0 (fun x => { x with lsOn := true, lsAt := 1 })).put (F.lstep_word_mode 0) m
theorem witness_Lockstep_mismatch : ((stepping 0).table 0).lsOn = true ∧ (stepping 0).f (F.lstep_word_mode 0) = 0 ∧ ((stepping 1).table 0).lsOn = true ∧
    (stepping 1).f (F.lstep_word_mode 0) = 1 ∧ active3 (stepping 1) (engineOf 0 ((stepping 1).f (F.lstep_word_visiting 0))) = true := by decide +kernel

theorem witness_DescriptorWrites : Awake home ∧ home.f (F.seg_ctl_pin_state 47 8191) = 0 ∧ (7 : Word).getLsbD 11 = false ∧
    (7 : Word).getLsbD 8 = false ∧ fillerUsed home 47 8191 = false := ⟨home_awake, by decide +kernel⟩
/-- Engine 0 runs with segment 5 as its filler. -/
def filling : State := (withFiller (withSeg chained)).modE 0 (fun x => { x with filler := 5 })
theorem witness_DescriptorWrites_filler : Awake filling ∧ fillerUsed filling 0 5 = true ∧
    fillerTaken (descOf filling 0 5) (descOf (clearStage (putDesc filling 0 5 0) 0) 0 5) = true := by
  refine ⟨⟨?_, ?_, ?_⟩, ?_⟩ <;> decide +kernel
/-- Room 0 holds copy0 in state st; stack 0 admits requests. -/
def loadingCopy (st : Nat) : State :=
  ((withSeg home).modT 0 (fun x => { x with copies := [{ copy0 with state := st }], nextId := 2 })).put ⟨R.st_stat, 8, 4⟩ 15
theorem witness_PantryLoads : ((loadingCopy 0).table 0).copies.find? (fun y => y.seg == 5 && y.state == 0) = some { copy0 with state := 0 } ∧
    ∀ o, o < copy0.len * copy0.cnt → stackUp (loadingCopy 0) (stackOfGran (copyGran { copy0 with state := 0 } o)) = true := by decide +kernel
theorem witness_PantryLoads_reload : let s := ((loadingCopy 1).put (F.seg_ctl_pin_state 0 5) 2).put (F.seg_ctl_reload 0 5) 1
    s.on (F.seg_ctl_reload 0 5) = true ∧ s.f (F.seg_ctl_pin_state 0 5) = 2 ∧ (serving s 0 5).isSome = true ∧
    panFit s 0 (panNeed (descOf s 0 5)) = some 4 ∧ heldSide s .field = false ∧ houseOpen s = true ∧ s.f F.pwr_stat_state = 0 := by decide +kernel
/-- The hypotheses of StagedPairs at the values where its clauses meet: 0 and 43,981 are taken, 1 and 43,980 rejected. -/
theorem witness_StagedPairs : Awake home ∧ home.pairStage = [] ∧ home.reg (pairLo (.freq 511)) = 0 ∧ (0 : Word).toNat % 2 ^ pairHiBits (.freq 511) = 0 :=
  ⟨home_awake, by decide +kernel⟩
theorem witness_StagedPairs_bounds : ∀ n, n = 1 ∨ n = 43980 ∨ n = 43981 → let s : State := { home with pairStage := [(pairLo (.freq 3), BitVec.ofNat 32 n)] }
    s.pairStage.find? (fun x => x.1 == pairLo (.freq 3)) = some (pairLo (.freq 3), BitVec.ofNat 32 n) ∧ (BitVec.ofNat 32 n).toNat = n := by
  rintro n (rfl | rfl | rfl) <;> decide +kernel
theorem witness_StagedPairs_rate : ∀ n, n = 1250000000 ∨ n = 1249999999 → let s : State := { home with pairStage := [(pairLo (.rate 0), BitVec.ofNat 32 n)] }
    s.pairStage.find? (fun x => x.1 == pairLo (.rate 0)) = some (pairLo (.rate 0), BitVec.ofNat 32 n) ∧ (BitVec.ofNat 32 n).toNat = n := by
  rintro n (rfl | rfl) <;> decide +kernel
theorem witness_LaneSets : Awake home ∧ tsBusy home 511 15 = false ∧ lsBusy home 511 7 = false ∧ signed 14 (6553 % 2 ^ 14) = 6553 ∧
    signed 14 (6554 % 2 ^ 14) = 6554 ∧ signed 14 ((2 ^ 14 - 6553) % 2 ^ 14) = -6553 ∧ thrLegal 0x00018000 = false ∧ drvLegal 0xFFFFFFFF = false ∧
    drvLegal 0x07080190 = true ∧ thrLegal 0x1F40E0C0 = true := ⟨home_awake, by decide +kernel⟩
theorem witness_LaneSets_busy : Awake chained ∧ tsBusy chained 0 0 = true ∧ lsBusy chained 0 0 = true := ⟨chained_awake, by decide +kernel⟩
theorem witness_LaneControls : Awake home ∧ (3 : Word).toNat % 4 = 3 ∧ (0x772 : Word).toNat % 4 ≠ 3 ∧ parkedIdle chained 0 = false ∧ frozenLane home 575 = false ∧
    home.on (F.mon_stat_busy 31) = false ∧ (16 : Word).toNat / 4 % 8 < 5 ∧ 5 ≤ (20 : Word).toNat / 4 % 8 ∧
    (0x141810 : Word).toNat / 2 ^ 16 % 2 ^ 7 = 20 ∧ (0x141810 : Word).toNat / 256 % 32 ≤ 24 ∧ (0x141810 : Word).toNat % 32 ≤ 16 ∧
    (0x141910 : Word).toNat / 256 % 32 = 25 := ⟨home_awake, by decide +kernel⟩
theorem witness_LaneControls_done : let s := home.put (F.mon_stat_busy 31) 1
    s.on (F.mon_stat_busy 31) = true ∧ s.on (F.mon_stat_stale 31) = false := by decide +kernel
theorem witness_ExpressReceivers : (home.laneOf 575).sync = none ∧ let s := home.modL 575 (fun l => { l with sync := some (-32) })
    (s.laneOf 575).sync.isSome = true ∧ (s.laneOf 575).sync = some (-32) := by decide +kernel
/-- Express lane 63 plays with comparison on and searches with its full width. -/
def searching : State := ((home.modL 575 (fun l => { l with mode := .playing })).modE 575 (fun x => { x with set := { x.set with cmpm := 1 } })).put (F.xl_xstat_rx_idle 63) 0
theorem witness_ExpressReceivers_search : (-1 : Int) ∈ ([1, -1] : List Int) ∧ (-1 : Int).natAbs ≤ searchWidth searching 63 ∧
    (∀ x, x ∈ ([1, -1] : List Int) → x.natAbs ≤ searchWidth searching 63 → (-1 : Int).natAbs < x.natAbs ∨ ((-1 : Int).natAbs = x.natAbs ∧ -1 ≤ x)) ∧
    (searching.laneOf 575).mode = .playing ∧ (searching.laneOf 575).sync = none ∧ (searching.engine 575).set.cmpm % 2 = 1 ∧
    searching.on (F.xl_xstat_rx_idle 63) = false := by decide +kernel
theorem witness_QuadReopens : let s := (home.put (F.xq_stat_retuning 15) 1).put (F.pll_stat_open 48) 0
    s.on (F.xq_stat_retuning 15) = true ∧ pllOpen s 48 = false ∧ inSafe s = false ∧ houseOpen s = true ∧
    (s.pllOf 48).qualAt + lockSpan s 48 ≤ s.clk.now ∧ ∀ f, f ∈ enginesOf 47 → (s.engine f).retuneArm = false ∧ (s.engine f).retune = false ∧ running s f = false := by decide +kernel
/-- A record of nothing in particular. -/
def rec0 : Record := default
theorem witness_Captures : running home 0 = false ∧ queued home 0 = [] ∧ let s := home.modL 0 (fun l => { l with unwritten := true })
    (s.laneOf 0).unwritten = true := by decide +kernel
theorem witness_Captures_record : let s := (home.modL 0 (fun l => { l with capLen := 1, capN := 3 })).modT 0 (fun x => { x with capQ := [(0, rec0)] })
    queued s 0 = [rec0] ∧ (s.laneOf 0).capLen ≠ 0 ∧ (s.laneOf 0).capWrap = false ∧ (s.laneOf 0).capN < 4 * (s.laneOf 0).capLen := by decide +kernel
/-- Engine e runs play0 in compare mode 3 and its lane plays. -/
def judging (e : Nat) (q : List (Nat × Granule × Bool)) : State :=
  (withEngine home e stRun { play := some play0, level := 2, queue := q, set := ⟨2 ^ 48, 0, 0, 0, 0, 0, 3⟩ }).modL e
    (fun l => { l with mode := .playing, sync := some 0 })
theorem witness_Judgements : let s := judging 0 [(0, 4, false)]
    let j := JPlay.mk true ⟨play0, (s.engine 0).set, [], []⟩
    playFor s 0 127 = some j ∧ (s.laneOf 0).mode = .playing ∧ (s.laneOf 0).capLen = 0 ∧ (s.engine 0).set.cmpm = 3 ∧
    judgedData s 0 j 0 = some 4 ∧ 4 ≤ vcode 4 0 % 8 := by decide +kernel
theorem witness_Judgements_express : let p := { play0 with cmp := some (6, 96) }
    let s := (judging 575 [(0, 4, false)]).modE 575 (fun x => { x with play := some p, cmpQueue := [(0, 0, false)] })
    let j := JPlay.mk true ⟨p, (s.engine 575).set, [], []⟩
    playFor s 575 2 = some j ∧ (s.laneOf 575).sync.isSome = true ∧ (s.laneOf 575).mode = .playing ∧ (s.laneOf 575).capLen = 0 ∧
    (received s 575 .high).isSome = true ∧ compareCode s 575 j 2 < 2 ∧ (judgedData s 575 j 0).isSome = true := by decide +kernel
theorem witness_RingWrites : Awake home ∧ ringActive home 255 = false ∧ (0x80000000 : Word).getLsbD 31 = true ∧ ringOk home 0x80000000 = false :=
  ⟨home_awake, by decide +kernel⟩
theorem witness_RingWrites_active : Awake ringed ∧ ringActive (ringed.modE 0 (fun x => { x with play := some { play0 with kind := .strm 3, endAt := 5000, grans := 5000 } })) 3 = true := by
  refine ⟨⟨?_, ?_, ?_⟩, ?_⟩ <;> decide +kernel
/-- Ring 3 is enabled on segment 5 of idle engine 0, from the host. -/
def openRing : State := ((((withSeg home).put (F.ring_cfg_prod 3) 1).put (F.ring_cfg_en 3) 1).put (F.ring_cfg_seg 3) 5).put (F.ring_cfg_engine 3) 0
theorem witness_StreamGranules : Awake openRing ∧ openRing.f F.rings_phase_phase = 1 ∧ openRing.on (F.ring_cfg_en 3) = true ∧
    fromProducer openRing 3 .host = true ∧ fromProducer openRing 3 (.fabric 9) = false ∧ (ringDesc openRing 3).wlog2 = 0 ∧ 0 ≤ ringLevel openRing 3 ∧
    openRing.f (F.ring_wptr_p 3) = 0 ∧ ringLevel openRing 3 < (ringDesc openRing 3).len ∧ strmTop openRing 3 = none ∧
    pcIdle openRing (slotGran openRing 3 0 0) = false := by
  refine ⟨⟨?_, ?_, ?_⟩, ?_⟩ <;> decide +kernel
theorem witness_StreamGranules_restricted : let s := openRing.put F.rings_phase_phase 2
    s.f F.rings_phase_phase ≠ 1 := by decide +kernel
theorem witness_Credits : openRing.f F.rings_phase_phase = 1 ∧ openRing.on (F.ring_cfg_en 3) = true ∧ openRing.ctl.cred.find? (fun x => x.1 == 3) = none := by
  decide +kernel
theorem witness_Phases : ∀ n, n < 4 → let s := home.put F.rings_phase_phase n
    (heldSide s .field = false ∧ houseOpen s = true ∧ s.f F.pwr_stat_state = 0) ∧ (advanceCycle s (coreNow s + 1)).f F.rings_phase_phase = n ∧
    (advanceCycle s (coreNow s + 1)).on F.rings_phase_test_forced = false := by decide +kernel
theorem witness_Phases_rings : let s := home.put F.rings_phase_phase 2
    ∀ r, r < 256 → (advanceCycle s (coreNow s + 1)).on (F.ring_cfg_en r) = false := by decide +kernel
/-- The porch is up and the endpoint is configured. -/
def linkUp : State := ((home.put F.regf_fporchStat_up 1).put F.porch_stat_up 1).modP (fun p => { p with pcie := true })
theorem witness_Aperture : let s := linkUp.put F.hif_aperBase_base 0
    aperOpen s = true ∧ storeEarly s = false ∧ 0 + 64 ≤ storeBytes ∧ (∀ r, r < 256 → ringActive s r = false) := by decide +kernel
theorem witness_Aperture_last : let s := linkUp.put F.hif_aperBase_base (storeBytes / 2 ^ 20 - 1)
    aperOpen s = true ∧ s.f F.hif_aperBase_base * 2 ^ 20 + (0xFFFC0 : BitVec 30).toNat + 64 = storeBytes ∧
    storeBytes < s.f F.hif_aperBase_base * 2 ^ 20 + (0xFFFC1 : BitVec 30).toNat + 64 := by decide +kernel
theorem witness_HallwayInputs : Awake home ∧ let s := home.put (F.trigIn_cfg_edge 15) 3
    s.f (F.trigIn_cfg_edge 15) = 3 ∧ home.f (F.trigIn_cfg_edge 15) ≠ 3 := ⟨home_awake, by decide +kernel⟩
/-- Timer 31 waits for its 5th period start, at house time 0 on a grid of 100 beats; import 63 waits for cycle 1,000; pins wait too. -/
def ticking : State :=
  (((home.put (F.tmr_cfg_mode 31) 1).setReg (pairLo (.tmrPeriod 31)) 100).put (F.trigOut_cfg_mode 14) 3).modH (fun h => { h with
    tmrNext := [(31, 5)], imp := [(63, 1000)], pins := [(15, 0, 7)], timed := [(14, 1000)] })
theorem witness_HallwayInstants : Awake ticking ∧ ticking.f (F.tmr_cfg_mode 31) = 1 ∧ ticking.hall.tmrNext.find? (fun x => x.1 == 31) = some (31, 5) ∧
    coreOf (tmrStartT ticking 31 + 5 * tmrPeriodT ticking 31) ≤ coreNow ticking ∧
    ((ticking.hall.pins.filter (fun x => x.1 == 15 && x.2.2 != 0)).map (fun x => x.2.2)).min? = some 7 ∧ 7 ≤ t16Now ticking ∧
    ticking.f (F.trigOut_cfg_mode 14) = 3 ∧ ticking.hall.timed.find? (fun x => x.1 == 14) = some (14, 1000) ∧
    1000 + 128 * 2 ^ 16 + ticking.f (F.trigOut_tofs_tofs 14) * 2 ^ 8 ≤ t16Now ticking ∧ (∀ x, x ∈ ticking.hall.pins → x.1 ≠ 14) ∧
    ((ticking.hall.imp.filter (fun x => x.1 == 63)).map (·.2)).min? = some 1000 ∧ 1000 ≤ coreNow ticking ∧ ticking.hall.fired = [] := by
  refine ⟨⟨?_, ?_, ?_⟩, ?_⟩ <;> decide +kernel
theorem witness_HallwayInstants_tick : let s := (home.put (F.tmr_cfg_mode 0) 2).modH (fun h => { h with tmr := [(0, 77)] })
    s.f (F.tmr_cfg_mode 0) = 2 ∧ s.hall.tmr.find? (fun x => x.1 == 0) = some (0, 77) ∧ coreOf 77 ≤ coreNow s := by decide +kernel
theorem witness_HallwayInstants_packet : eventsOk home = true ∧ coreNow home < 2001 ∧ 2000 ≤ coreNow home ∧ home.on (F.imp_stat_late 63) = false ∧
    home.hall.imp.contains (63, 2001) = false ∧ (home.hall.imp.filter (fun x => x.1 == 63)).length < 8 := by decide +kernel
/-- One arrival of cycle 2,000 waits: task input or pin n. -/
def arriving (n : Nat) : State := (home.put (F.trigOut_cfg_mode 15) 1).modH (fun h => { h with due := [(2000, n, 1988)] })
theorem witness_HallwayDelivers : ∀ n, n = 8 * 575 + 7 ∨ n = 4608 + 15 → nextArrival (arriving n) = some 2000 ∧ 2000 ≤ coreNow (arriving n) ∧
    (arriving n).hall.due.filter (fun x => x.1 == 2000) = [(2000, n, 1988)] ∧ ((arriving n).engine 575).arrCyc ≠ coreNow (arriving n) ∧
    est (arriving n) 575 ≠ stArmed ∧ ((arriving n).engine 575).cons = [] ∧ (arriving n).f (F.trigOut_cfg_mode 15) = 1 ∧
    (∀ x, x ∈ oldPins (arriving n) → x.1 ≠ 15) := by rintro n (rfl | rfl) <;> decide +kernel
theorem witness_HallwayDelivers_awake : Awake (arriving 4607) ∧ Awake (arriving 4623) := by
  refine ⟨⟨?_, ?_, ?_⟩, ?_, ?_, ?_⟩ <;> decide +kernel
theorem witness_HallwayForms_group : let s := (home.setReg (R.fgd_word 15) 0x8000).modH (fun h => { h with fgrp := [(2000, 15)] })
    (2000, 15) ∈ s.hall.fgrp ∧ s.on ⟨R.fgd_word 15, 15, 1⟩ = true ∧ coreNow s = 2000 ∧ s.hall.chg = [] ∧
    (∀ x, x ∈ s.hall.acts ++ s.hall.fgrp → x.1 = 2000) := by decide +kernel
/-- Producer 2,880 drives channel 255, whose run is one cycle short of the limit of 4. -/
theorem witness_HallwayForms_storm : let s := ((home.setReg (R.pmat_word 2880 7) 0x80000000).put F.hall_cfg_storm_limit 4).modH (fun h =>
      { h with acts := [(2000, 2880)], runs := [(255, 2000 - gridStep home, 4)] })
    s.hall.acts ≠ [] ∧ s.hall.fgrp = [] ∧ 255 ∈ channelsOf s 2000 (s.hall.acts.map (·.2)) ∧ runLen s 2000 255 = stormLimit s + 1 := by decide +kernel

/-- Stack 0 serves and holds one write request of one granule at granule 0. -/
def req0 : Req := { port := 50, eng := 576, cmp := false, nxt := false, cls := 1, gran := 0, n := 1, idx := 0, data := some 1, use := 0, ring := 256, entered := 10 ^ 15, promo := false, urg := 0 }
def queuedReq (r : Req) : State := { home.put ⟨R.st_stat, 8, 4⟩ 15 with ctl := { home.ctl with reqs := [r] } }
theorem witness_StoreGrants : (queuedReq req0).ctl.reqs = [req0] ∧ stackUp (queuedReq req0) (0 / 64) = true ∧ pcOfGran req0.gran = 0 ∧
    req0.data = some 1 ∧ req0.use = 0 ∧ req0.n = 1 ∧ overAge (queuedReq req0) req0 = false ∧ (queuedReq req0).porch.wait = [] ∧
    (queuedReq req0).eng = [] ∧ stackUp home 3 = false ∧ home.porch.wait = [] := by decide +kernel
theorem witness_StoreGrants_age : let r := { req0 with entered := 0 }
    (((queuedReq r).ctl.reqs.filter (fun q => pcOfGran q.gran == 0 && decide (q.cls < 2) && !q.promo)).map
      (fun q => q.entered + ageLimit (queuedReq r) q.cls + 1)).min? = some (ageLimit (queuedReq r) 1 + 1) ∧
    ageLimit (queuedReq r) 1 + 1 ≤ (queuedReq r).clk.now ∧ stackUp (queuedReq r) 0 = true := by decide +kernel
theorem witness_StoreRefresh : let s := queuedReq { req0 with cls := 2 }
    stackUp s 0 = true ∧ bankBusy s (bankNo 0 0) = true ∧ bankBusy s (bankNo 63 47) = false ∧ owedOf s (bankNo 0 0) < 3 ∧
    owedOf (setOwed s (bankNo 0 0) 3) (bankNo 0 0) = 3 ∧ bankBusy (setOwed s (bankNo 0 0) 3) (bankNo 0 0) = true ∧
    0 < owedOf (setOwed s (bankNo 63 47) 1) (bankNo 63 47) ∧ bankBusy (setOwed s (bankNo 63 47) 1) (bankNo 63 47) = false := by decide +kernel
theorem witness_StoreRefresh_rows : let s := { home with ctl := { home.ctl with pairs := [(bankNo 255 47, 16383, 2)], openRow := [(bankNo 255 47, 1)] } }
    s.ctl.pairs.find? (fun x => x.1 == bankNo 255 47 && x.2.1 == 16383) = some (bankNo 255 47, 16383, 2) ∧
    tget (fun _ => 0) s.ctl.openRow (bankNo 255 47) ≠ 0 ∧ (∀ r, r ∈ s.ctl.reqs → reqBank r ≠ bankNo 255 47) ∧
    tget (fun _ => 0) s.ctl.lastUse (bankNo 255 47) + nsU (s.f F.st_page_idle) ≤ s.clk.now := by decide +kernel
theorem witness_StoreCorrections : let s := { setErr (queuedReq req0) 7 1 with ctl := { home.ctl with wb := [7], copying := [rowNo 255 47 16383], scrub := storeGranules - 1 } }
    s.ctl.wb.contains 7 = true ∧ stackUp s (stackOfGran 7) = true ∧ errOf s 7 = 1 ∧ s.ctl.copying.contains (rowNo 255 47 16383) = true ∧
    heldSide s .field = false ∧ stackUp s (255 / 64) = true ∧ (∀ g, g ∈ rowGrans 255 47 16383 → errOf s g = 0 ∨ errOf s g = 3) := by decide +kernel
theorem witness_StoreCorrections_scrub : let s := { (queuedReq req0).put F.st_scrub_period 1 with ctl := { home.ctl with scrub := storeGranules - 1 } }
    s.f F.st_scrub_period ≠ 0 ∧ s.ctl.scrub = storeGranules - 1 ∧ storeGranules - 1 < storeGranules ∧
    stackUp s (stackOfGran (storeGranules - 1)) = true ∧ s.f F.pwr_stat_state = 0 ∧ errOf s (storeGranules - 1) = 0 := by decide +kernel
theorem witness_StoreTraining : Awake home ∧ home.on F.st_trainStat_pass_busy = false ∧ home.f F.st_opStat_state = 0 ∧ home.train.nextAt = none ∧
    (1 : Nat) ≠ home.f F.st_stat_point ∧ inSafe home = false ∧ (∀ k, k < 4 → (home.pllOf (49 + k)).lossOpen = false) :=
  ⟨home_awake, by decide +kernel⟩
/-- A gathering pass is in progress, the operating point is 0, the delay window w; state of an operating-point change c. -/
def passing (c : Nat) : State :=
  { (((home.put F.st_trainStat_pass_busy 1).put F.st_opStat_state c).put F.st_trainCtl_window 8).put (F.dly_word_delay 0 3 2303) 100 with
    train := { reqAt := 0, chgTo := 0 } }
theorem witness_StoreTraining_pass : Awake (passing 0) ∧ (2303 : Fin 4096).val < 2304 ∧ (passing 0).on F.st_trainStat_pass_busy = true ∧
    (passing 0).f F.st_opStat_state = 0 ∧ (passing 0).f F.st_stat_point = 0 ∧ (passing 0).f (F.dly_word_delay 0 3 2303) = 100 ∧
    (passing 0).f F.st_trainCtl_window = 8 := by refine ⟨⟨?_, ?_, ?_⟩, ?_⟩ <;> decide +kernel
theorem witness_StoreTraining_change : Awake (passing 1) ∧ (passing 1).on F.st_trainStat_pass_busy = true ∧ (passing 1).f F.st_opStat_state = 1 ∧
    (passing 1).train.reqAt + 2000 * usU ≤ (passing 1).clk.now ∧ (passing 1).train.chgTo = (passing 1).f F.st_stat_point ∧
    (passing 2).f F.st_opStat_state = 2 ∧ inSafe (passing 2) = false ∧ changeEnd (passing 2) ≤ (passing 2).clk.now := by
  refine ⟨⟨?_, ?_, ?_⟩, ?_⟩ <;> decide +kernel
/-- The change of operating point closed stack 3, whose PLL is to open with its end. -/
theorem witness_StoreTraining_end : let s := { (passing 2).put (F.pll_stat_planned 52) 1 with ctl := { home.ctl with chg := [3] } }
    s.f F.st_opStat_state = 2 ∧ inSafe s = false ∧ changeEnd s ≤ s.clk.now ∧ s.on (F.pll_stat_planned (49 + 3)) = true ∧ s.ctl.chg.contains 3 = true := by
  decide +kernel
/-- PLL i is in state n with its shutter closed. -/
def pllIn (i n : Nat) : State := closeShutter home i n
theorem witness_ClockSearches : heldSide (pllIn 60 2) .field = false ∧ inSafe (pllIn 60 2) = false ∧ (pllIn 60 2).f (F.pll_stat_state 60) = 2 ∧
    (pllIn 0 2).f (F.pll_stat_state 0) = 2 ∧ heldSide (pllIn 0 2) .field = false := by decide +kernel
theorem witness_ClockSearches_open : let s := (pllIn 48 3).modPll 48 (fun p => { p with qualAt := 0 })
    s.f (F.pll_stat_state 48) = 3 ∧ (s.pllOf 48).rangeHold = false ∧ refPresent s 48 = true ∧ (s.pllOf 48).qualAt + lockSpan s 48 ≤ s.clk.now ∧
    s.f (F.xq_stat_retuning 15) = 0 := by decide +kernel
theorem witness_ClockSearches_timeout : let s := (pllIn 1 2).modPll 1 (fun p => { p with wait := 1 })
    pllOpen s 1 = false ∧ (s.pllOf 1).wait = 1 ∧ (s.pllOf 1).rangeHold = false ∧ (s.pllOf 1).since + pllBound 1 * usU ≤ s.clk.now ∧
    (pllIn 1 1).f (F.pll_stat_state 1) = 1 ∧ houseOpen (pllIn 1 1) = true := by decide +kernel
theorem witness_FormsComplete_training : Awake home ∧ home.on F.st_trainStat_pass_busy = false ∧ home.f F.st_opStat_state = 0 ∧
    home.train.nextAt = none ∧ inSafe (pllIn 60 2) = false ∧ (pllIn 60 2).f (F.pll_stat_state 60) = 2 ∧
    (pllIn 60 1).f (F.pll_stat_state 60) = 1 ∧ houseOpen (pllIn 60 1) = true ∧ pllOpen (pllIn 60 2) 60 = false := ⟨home_awake, by decide +kernel⟩
theorem witness_FormsComplete_training_pass : Awake (passing 1) ∧ (passing 1).on F.st_trainStat_pass_busy = true ∧
    (passing 1).f F.st_opStat_state = 1 ∧ (passing 1).train.reqAt + 2000 * usU ≤ (passing 1).clk.now := by
  refine ⟨⟨?_, ?_, ?_⟩, ?_⟩ <;> decide +kernel
theorem witness_FormsComplete_training_open : let s := (pllIn 48 3).modPll 48 (fun p => { p with qualAt := 0 })
    s.f (F.pll_stat_state 48) = 3 ∧ (s.pllOf 48).rangeHold = false ∧ refPresent s 48 = true ∧ s.stalled = [] ∧ inSafe s = false ∧
    (s.pllOf 48).qualAt + lockSpan s 48 ≤ s.clk.now ∧ (∀ q : Quad, 48 = 33 + q.val → s.f (F.xq_stat_retuning q) = 0) := by decide +kernel
/-- Every PLL is open. -/
def pllsOpen (i : Nat) : State := (home.put (F.pll_stat_open i) 1).put (F.pll_stat_state i) 4
theorem witness_ClockLosses : heldSide (pllsOpen 60) .field = false ∧ inSafe (pllsOpen 60) = false ∧ pllOpen (pllsOpen 60) 60 = true ∧
    pllOpen home 1 = false ∧ lostNow (pllsOpen 60) 60 = false ∧ detects (pllsOpen 60) 60 .unlock = true ∧ lostNow home 1 = false ∧
    detects home 1 .overfreq = false := by decide +kernel
theorem witness_ClockLosses_apply : let s := pllsOpen 0
    Awake s ∧ pllOpen s 0 = true ∧ s.f F.clk_refMul_n = 64 ∧ s.f F.clk_refDiv_d = 1 ∧ (8 * 1 ≤ 64 ∧ 64 ≤ 640 * 1) ∧
    (∀ e : Fin 576, active3 s e = false ∧ arming s e = false) := by
  refine ⟨⟨?_, ?_, ?_⟩, ?_⟩ <;> decide +kernel
theorem witness_ClockLosses_apply_busy : let s := chained.put (F.pll_stat_open 0) 1
    pllOpen s 0 = true ∧ active3 s 0 = true := by decide +kernel
theorem witness_ClockLosses_stacks : let s := home.put (F.pll_stat_open 52) 1
    (pllOpen s 52 = true ∧ houseOpen s = true ∧ stackUp s 3 = false ∧ s.f F.st_opStat_state = 0 ∧ inSafe s = false ∧ s.boot.resets = []) ∧
    pllOpen home 52 = false ∧ heldSide home .host = false := by decide +kernel
/-- EPOCH.CTL.src is n and house time is valid. -/
def epochSrc (n : Nat) : State := home.put F.time_epochCtl_src n
theorem witness_Epochs : Awake (epochSrc 2) ∧ 2 ≤ (epochSrc 2).f F.time_epochCtl_src ∧ (epochSrc 1).f F.time_epochCtl_src = 1 ∧ (epochSrc 1).epoch = none ∧
    (epochSrc 0).f F.time_epochCtl_src = 0 ∧ (epochSrc 0).on F.time_epochCtl_bcast = false ∧ applyReg (epochSrc 0) < beatsNow (epochSrc 0) + 6400 ∧
    Awake (epochSrc 1) ∧ Awake (epochSrc 0) := by refine ⟨⟨?_, ?_, ?_⟩, ?_, ?_, ?_, ?_, ?_, ?_, ⟨?_, ?_, ?_⟩, ?_, ?_, ?_⟩ <;> decide +kernel
theorem witness_Epochs_far : let s := (epochSrc 0).putPair R.time_applyLo R.time_applyHi (beatsNow home + 6400)
    beatsNow s + 6400 ≤ applyReg s ∧ s.epoch = none := by decide +kernel
/-- An epoch change waits: its apply time is beat a, its state n. -/
def epochWaits (a n : Nat) : State := { home.put F.time_epochStat_state n with epoch := some ⟨5, a, false, false⟩ }
theorem witness_Epochs_pending : let p : PendEpoch := ⟨5, 100, false, false⟩
    (epochWaits 100 2).epoch = some p ∧ (epochWaits 100 2).f F.time_epochStat_state = 2 ∧ coreOf (absT (epochWaits 100 2) p.applyAt) ≤ coreNow (epochWaits 100 2) ∧
    coreNow (epochWaits 100000 2) < coreOf (absT (epochWaits 100000 2) 100000) ∧ (epochWaits 100000 1).f F.time_epochStat_state = 1 ∧ p.bcast = false ∧
    (beatsNow home * 256) * 3 + 6400 * 256 * 3 ≤ 100000 * 256 * 3 ∧ 100 * 256 * 3 < (beatsNow home * 256) * 3 + 6400 * 256 * 3 := by decide +kernel
theorem witness_Epochs_fabric : home.on F.fab_stat_guest = false ∧ beatsNow home < (2 ^ 40 : BitVec 64).toNat ∧ (0 : BitVec 64).toNat ≤ beatsNow home ∧
    (home.put F.fab_stat_guest 1).on F.fab_stat_guest = true := by decide +kernel
theorem witness_Calibration : Awake home ∧ walkMay home 47 = true := ⟨home_awake, by decide +kernel⟩
/-- Room 0 walks since true time 0, with the given count of initial walks to come and full-walk state. -/
def walking (i full : Nat) : State := home.modW 0 (fun w => { w with on := true, startAt := 0, initial := i, full := full })
theorem witness_Calibration_visit : ((walking 1 0).walkOf (tableOf 0)).on = true ∧ (walking 1 0).on F.cal_ctl_pause = false ∧ partFits 0 (.slice 0) = true ∧
    measures (walking 1 0) 0 (partNo (.slice 0)) = true ∧ inSafe (walking 1 0) = false ∧
    ((walking 1 0).walkOf 0).startAt + 200000 * usU ≤ (walking 1 0).clk.now := by decide +kernel
theorem witness_Calibration_trim : let s := home.modPart 0 (partNo (.slice 16)) (fun p => { p with wait := some ([1], 5, 0, 0) })
    partFits 0 (.slice 16) = true ∧ (s.partOf 0 (partNo (.slice 16))).wait = some ([1], 5, 0, 0) ∧ (s.engine 0).next = none ∧
    (s.walkOf (tableOf 0)).on = false ∧ inService s 0 (partNo (.slice 16)) = false ∧ inSafe s = false := by decide +kernel
theorem witness_Calibration_decl : (10000000 : Word).toNat % 2 ^ 28 = 10000000 ∧ (250000000 : Word).toNat % 2 ^ 28 = 250000000 ∧
    (9999999 : Word).toNat % 2 ^ 28 = 9999999 ∧ (250000001 : Word).toNat % 2 ^ 28 = 250000001 := by decide +kernel
theorem witness_Calibration_full : (home.walkOf 47).full = 0 ∧ (∀ e, e ∈ enginesOf 47 → active3 home e = false ∧ arming home e = false) ∧
    (∃ e, e ∈ enginesOf 0 ∧ (active3 chained e = true ∨ arming chained e = true)) ∧ 0 < ((walking 0 2).walkOf 0).full := by decide +kernel
theorem witness_Calibration_deskew : home.on F.cal_dskStat_busy = false ∧
    let s := { home.put F.cal_dskStat_busy 1 with cal := { home.cal with dsk := [511] } }
    let r : DeskewResult := ⟨511, 200000, 200000, 850⟩
    s.on F.cal_dskStat_busy = true ∧ s.cal.dsk.contains r.lane.val = true ∧ deskewStatus s r = 1 := by decide +kernel
theorem witness_Calibration_trace : traceOf home 0 ≠ 1 := by decide +kernel
theorem witness_FaultCommands : heldSide home .field = false ∧ heldSide home .host = false ∧ srcKnown .field 22 ∧ srcKnown .host 6 ∧
    home.f (F.flt_atticStat_hold .field) = 0 ∧ home.boot.jtag = false ∧ home.fltF.cyc ≠ infraOf home .field ∧ home.fltF.lostCyc ≠ infraOf home .field ∧
    home.fltH.cyc ≠ infraOf home .host ∧ (127 : BitVec 8).toNat < 128 ∧ home.hwSet (F.src_stat_active .field 127) = 0 ∧
    (home.noteHw (F.src_stat_active .field 127) 1 0).hwSet (F.src_stat_active .field 127) ≠ 0 := by decide +kernel
/-- Source 22 is active and asks for the NMI; the attic's hold is h; the ALIVE pin runs; factory test mode is active, one injection is left. -/
def faulty (h : Nat) : State :=
  { ((((home.put (F.src_stat_active .field 22) 1).put (F.flt_atticStat_hold .field) h).put (F.flt_alive_own .field) 1).put (F.flt_injCtl_source .field) 22) with
    fltF := { home.fltF with nmi := [22], injLeft := 1 }, boot := { home.boot with jtag := true } }
theorem witness_FaultCommands_trap : (faulty 0).fltF.nmi = [22] ∧ (faulty 0).on (F.src_stat_active .field 22) = true ∧
    (faulty 0).f (F.flt_atticStat_hold .field) = 0 ∧ canTrap (faulty 0) .field = true ∧ (faulty 1).f (F.flt_atticStat_hold .field) = 1 ∧
    (faulty 1).fltF.lostCyc ≠ infraNow (faulty 1) ∧ (faulty 1).fltF.holdAt + 10000 * usU ≤ (faulty 1).clk.now ∧
    (faulty 0).f (F.flt_alive_own .field) = 1 ∧ (faulty 0).fltF.dead = false ∧ (faulty 0).fltF.aliveAt ≤ (faulty 0).clk.now := by decide +kernel
theorem witness_FaultCommands_inject : (faulty 0).boot.jtag = true ∧ (faulty 0).fltF.injLeft = 0 + 1 ∧ (faulty 0).fltF.injAt ≤ (faulty 0).clk.now ∧
    srcKnown .field ((faulty 0).f (F.flt_injCtl_source .field)) ∧ (faulty 0).f (F.flt_injCtl_class .field) ≠ 3 ∧
    ({ faulty 0 with fltF := {} } : State).fltF.injLeft = 0 := by decide +kernel
/-- The last record of the run falls into the present cycle, or lies a while back. -/
theorem witness_FaultCommands_last : let s := { faulty 0 with fltF := { (faulty 0).fltF with injAt := 10 ^ 15 } }
    s.fltF.injLeft = 1 ∧ s.fltF.injAt / infraU = infraOf s .field ∧ s.fltF.injAt ≤ s.clk.now ∧ testMode s .field = true ∧
    (faulty 0).fltF.injAt / infraU ≠ infraOf (faulty 0) .field := by decide +kernel
/-- CHIP_RESETs fell due at 0, 1, 2 and 3 and one is due now, in instant n. -/
def chipDue (n : Nat) : State := { home with clk := { home.clk with now := n }, fltF := { home.fltF with blocks := [(17, 0)], chip := 1, chipTimes := [0, 1, 2, 3] } }
theorem witness_ResetReactions : (chipDue 0).fltF.chip ≠ 0 ∧
    chipLimited ((chipDue (1000000 * usU)).fltF.chipTimes ++ [(chipDue (1000000 * usU)).clk.now]) = false ∧
    chipLimited ((chipDue (1000000 * usU - 1)).fltF.chipTimes ++ [(chipDue (1000000 * usU - 1)).clk.now]) = true := by decide +kernel

/-- The reset inputs of both sides are as given, and the boot stages are n (field side) and m (host side). -/
def booting (lvl : Bool) (n m : Nat) : State :=
  { (State.reset.put F.id_bootStat_stage n).put F.hboot_stat_stage m with boot := { frst := lvl, hrst := lvl, perst := lvl } }
theorem witness_ResetsAndBoot : (booting true 0 0).boot.frst = true ∧ (booting true 0 0).boot.hrst = true ∧ (booting false 0 0).boot.frst = false ∧
    (booting false 0 0).boot.hrst = false ∧ (∀ n, n ∈ [1, 2, 3, 7, 8] → inSafe (booting true n 0) = false ∧ (booting true n 0).f F.id_bootStat_stage = n) ∧
    (∀ n, n ∈ [4, 5] → inSafe (booting true n 0) = false ∧ (booting true n 0).f F.id_bootStat_stage = n) := by decide +kernel
theorem witness_ResetsAndBoot_host : (∀ n, n ∈ [1, 2, 3, 4] → (booting true 0 n).f F.hboot_stat_stage = n) ∧ (booting true 0 2).f F.hboot_stat_err = 0 ∧
    porchUpH ((booting true 11 4).put F.porch_stat_up 1) = true ∧ stallHolds (booting true 4 0) (.noImage 1) = true ∧
    stallHolds (booting true 6 0) .noStore = true ∧ stallHolds (booting true 5 0) .noStore = false := by decide +kernel
/-- Both configuration windows are open since true time 0, and the scan is at block 303. -/
def windows : State := { (home.put F.regf_crcStat_host_open 1).put F.regf_crcStat_fw_open 1 with crc := { next := 303, old := false } }
theorem witness_RegisterPort : Awake home ∧ served home 0x240000 = true ∧ placeOf 0x03EFFFFC = none ∧ hostReg 0x03EFFFFC = false ∧
    infraWindow (R.trigIn_cfg 0) = false ∧ ((placeOf (R.trigIn_cfg 15)).map (fun p => (p.blk, placeFrozen home p (R.trigIn_cfg 15)))) = some (.trigIn, false) ∧
    (¬ (0x10000 ≤ R.trigIn_cfg 15 ∧ R.trigIn_cfg 15 < 0x20000) ∧ ¬ (0x50000 ≤ R.trigIn_cfg 15 ∧ R.trigIn_cfg 15 < 0x52000) ∧ R.trigIn_cfg 15 < 0x03F00000) :=
  ⟨home_awake, by decide +kernel⟩
/-- The last delay word, which firmware alone writes. -/
theorem witness_RegisterPort_delays : let a := R.dly_word 3 3 2815
    hostReg a = false ∧ served home a = true ∧ infraWindow a = false ∧ ((placeOf a).map (fun p => (p.blk, placeFrozen home p a))) = some (.dly, false) ∧
    (¬ (0x10000 ≤ a ∧ a < 0x20000) ∧ ¬ (0x50000 ≤ a ∧ a < 0x52000) ∧ a < 0x03F00000) ∧ a < 2 ^ 26 := by decide +kernel
theorem witness_RegisterPort_windows : winOpen windows .firmware = true ∧ winOpen home .host = false ∧ windows.crc.hostLong = false ∧
    windows.crc.hostAt + windowMax windows * (1000 * usU) ≤ windows.clk.now ∧ home.on F.regf_crcStat_armed = false ∧ crcNext home 303 = 303 := by decide +kernel
theorem witness_RegisterPort_counters : home.on (F.mcnt_stat_running 255) = false ∧ (home.monOf 255).stopC ≠ coreNow home ∧
    monTotal home (home.f (F.mcnt_cfg_src 255)) (coreNow home) = none := by decide +kernel
/-- linkUp with the porch's version 2 agreed, and ring 3 open to the host. -/
def porchHome : State := ((openRing.put F.regf_fporchStat_up 1).put F.porch_stat_up 1).modP (fun p => { p with pcie := true, reads := [(7, none)] })
theorem witness_PorchFrames : Awake porchHome ∧ porchUpF porchHome = true ∧ porchUpH porchHome = true ∧ remoteWindow (0x27FFFC % 2 ^ 26) = false ∧
    remoteWindow (0x280000 % 2 ^ 26) = true ∧ storeEarly porchHome = false ∧ porchHome.porch.held = [] ∧
    porchHome.porch.reads.find? (fun x => x.1 == 7) = some (7, none) ∧ (∀ i, i < 4 → (porchHome.dmaOf i).cur = none) ∧ heldSide porchHome .host = false ∧
    failsOf porchHome true < 16 ∧ porchHome.porch.wait = [] ∧ aperIdle porchHome (storeBytes - 256) 256 = false := by
  refine ⟨⟨?_, ?_, ?_⟩, ?_⟩ <;> decide +kernel
theorem witness_PorchFrames_ring : porchHome.f F.rings_phase_phase = 1 ∧ porchHome.on (F.ring_cfg_en 3) = true ∧ fromProducer porchHome 3 .host = true ∧
    (ringDesc porchHome 3).wlog2 = 0 ∧ 0 ≤ ringLevel porchHome 3 ∧ ringLevel porchHome 3 < (ringDesc porchHome 3).len ∧ porchHome.parts = [] ∧
    (0 : Word).toNat = porchHome.f (F.ring_wptr_p 3) ∧ (∀ m, m ∈ membersOf porchHome 0 → running porchHome m = false ∧ arming porchHome m = false) := by decide +kernel
theorem witness_PorchFrames_idle : let s := (porchHome.put ⟨R.st_stat, 8, 4⟩ 15)
    aperIdle s (storeBytes - 256) 256 = true ∧ storeEarly s = false ∧ strmTop s 3 = none ∧ pcIdle s (slotGran s 3 0 0) = true ∧
    leaderOf s (s.f (F.ring_cfg_engine 3)) = 0 ∧
    (readBytes (gotField s (.regRd 7 .store 256 (BitVec.ofNat 40 (storeBytes - 256)))) (storeBytes - 256) 256).2.1 = false := by decide +kernel
theorem witness_PorchFrames_waits : (porchHome.modP (fun p => { p with wait := [(.regRd 1 .store 64 0, 0)] })).porch.wait ≠ [] ∧
    porchUpF (porchHome.modP (fun p => { p with wait := [(.regRd 1 .store 64 0, 0)] })) = true := by decide +kernel
theorem witness_PorchFrames_fails : 16 ≤ failsOf (porchHome.modP (fun p => { p with fails := [(true, 15)] })) true := by decide +kernel
/-- Both ends of the porch are ready, version masks not yet exchanged. -/
def porchWaits : State :=
  { (((home.put F.regf_fporchStat_up 0).put F.porch_stat_up 0).put F.hboot_stat_stage 4) with boot := { frst := true, hrst := true, perst := true, porchOn := true } }
theorem witness_HostTile : porchUpF porchWaits = false ∧ porchUpH porchWaits = false ∧ porchReady porchWaits = true ∧ porchWaits.porch.helloF = none ∧
    porchWaits.porch.helloH = none ∧ topVersion (offered porchWaits .host &&& offered porchWaits .field) = some 2 ∧
    (∀ x, x < 18 → porchWaits.on ⟨R.porch_xfail, x, 1⟩ = false) := by decide +kernel
theorem witness_HostTile_crossing : let s := porchHome.setReg R.porch_xmap 0xFFFF
    s.on ⟨R.porch_xmap, 15, 1⟩ = true ∧ s.on ⟨R.porch_xmap, 16, 1⟩ = false ∧ s.on ⟨R.porch_xfail, 16, 1⟩ = false ∧ heldSide s .field = false ∧ heldSide s .host = false ∧
    (∀ z, z < 16 → z = 15 ∨ s.on ⟨R.porch_xmap, z, 1⟩ = true ∨ s.on ⟨R.porch_xfail, z, 1⟩ = true) ∧ downCause s .silent = true := by decide +kernel
/-- Queue 3 is disabled, of 16 slots, with descriptor dsc in progress and in credit. -/
def dsc : DmaDesc := ⟨0, 0x00030000, 0, 1, 0⟩
def queued3 : State := (porchHome.modP (fun p => { p with credit := [(3, 1, 0)] })).modD 3 (fun q => { q with descs := [dsc], cur := some dsc })
theorem witness_HostTile_queue : (queued3.dmaOf 3).cur = some dsc ∧ (queued3.dmaOf 3).descs = [dsc] ∧ porchUpH queued3 = true ∧ dmaFits queued3 dsc = true ∧
    dmaFits (queued3.modP (fun p => { p with credit := [(3, 0, 0)] })) dsc = false ∧ home.on (F.dmaq_ctl_en 3) = false ∧ dmaSize home 3 = 16 ∧
    (15 % dmaSize home 3 + dmaSize home 3 - home.f (F.dmaq_tail_tail 3) % dmaSize home 3) % dmaSize home 3 = (List.replicate 15 dsc).length ∧
    (home.put (F.dmaq_stat_halted 3) 1).on (F.dmaq_stat_halted 3) = true ∧ (home.dmaOf 3).cur = none ∧ (home.dmaOf 3).descs = [] := by decide +kernel
theorem witness_HostTile_tlp : heldSide porchHome .host = false ∧ porchHome.porch.pcie = true ∧ porchHome.porch.d3 = false ∧ hostReg 0x03F00000 = true ∧
    hostReg 0x03EFFFFC = false ∧ porchHome.porch.halt = false ∧ servedHost porchHome 0x03EFFFFC = true ∧ inFlight porchHome < 64 := by decide +kernel
/-- The fabric runs on port 7 with house 5 behind it, in state n; the census names house 4 as this device. -/
def wired (n : Nat) : State :=
  (((((home.put (F.pll_stat_open 60) 1).put (F.fport_cfg_en 7) 1).put (F.fport_stat_state 7) n).put (F.fport_stat_lanes 7) 15).put F.fab_stat_house 4).putPair
    (R.fport_nbrLo 7) (R.fport_nbrHi 7) 77
theorem witness_FabricLinks : Awake (wired 2) ∧ fabOn (wired 2) = true ∧ portLive (wired 2) 7 = true ∧ (wired 2).f (F.fport_stat_state 7) = 2 ∧
    fabVersion (wired 2) 0xC = some 3 ∧ fabVersion (wired 2) 3 = none ∧ (wired 3).f (F.fport_stat_state 7) = 3 ∧ (wired 3).on ⟨R.fport_stat 7, 8 + 3, 1⟩ = true ∧
    (wired 3).f (F.fport_stat_lanes 7) ≠ 2 ^ 3 ∧ ((wired 3).put (F.fport_stat_lanes 7) 8).f (F.fport_stat_lanes 7) = 2 ^ 3 ∧ upPorts (wired 3) = [7] ∧
    downHolds (wired 3) 7 .silent = true ∧ (5 : House).val ≠ ownHouse (wired 3) ∧ (wired 3).fab.lsas = [] ∧ (wired 3).on F.fab_stat_census_valid = false ∧
    (wired 3).fab.fails = [] := by refine ⟨⟨?_, ?_, ?_⟩, ?_⟩ <;> decide +kernel
/-- The census is valid: this device, keeper or not, is house 4; house 5 is in state n. -/
def census4 (k n : Nat) : State :=
  ((((wired 3).put F.fab_stat_census_valid 1).put F.fab_stat_keeper k).put (F.cens_state_state 5) n).put (F.cens_state_state 4) 1
theorem witness_FabricLinks_census : entryState (census4 1 3) 5 = 3 ∧ entryState (census4 1 1) 5 = 1 ∧ (census4 1 3).on F.fab_stat_keeper = true ∧
    (census4 0 3).on F.fab_stat_keeper = false := by decide +kernel
theorem witness_FabricServices : Awake (wired 3) ∧ fabOn (wired 3) = true ∧ (wired 3).f (F.fport_stat_state 7) = 3 ∧ (wired 3).fab.parentOn = false ∧
    entryState (census4 1 2) 5 = 2 ∧ entryState (wired 3) 5 ≠ 2 ∧ eventsOk (wired 3) = true ∧ coreNow (wired 3) < (2001 : BitVec 58).toNat ∧
    (wired 3).hall.imp = [] ∧ (wired 3).f F.fab_rnoteStat_count = 0 ∧ ((wired 3).put F.fab_rnoteStat_count 16).f F.fab_rnoteStat_count = 16 ∧
    remoteRange 0x03F00000 = true ∧ remoteRange 0x03EFFFFC = false := by refine ⟨⟨?_, ?_, ?_⟩, ?_⟩ <;> decide +kernel
theorem witness_FabricServices_more : let s := { wired 3 with fab := { (wired 3).fab with reqs := [(7, 0)], parentOn := true, rem := [(1, false, 0, some 2)] } }
    (∃ n, (7, n) ∈ s.fab.reqs) ∧ s.fab.parentOn = true ∧ s.on F.time_stat_valid = true ∧ (∀ q, q < 8 → (exchOf s q).length < 16) ∧
    s.fab.rem = [(1, false, 0, some 2)] ∧ 0 + 1800 * usU ≤ s.clk.now ∧ ((wired 3).put F.fab_evt_step_wait 1).f F.fab_evt_step_wait = 1 :=
  ⟨⟨0, by decide +kernel⟩, by decide +kernel⟩
theorem witness_FabricServices_stream : let s := ((openRing.put (F.ring_cfg_prod 3) 2).put (F.ring_peer_house 3) 1023).put ⟨R.st_stat, 8, 4⟩ 15
    fromProducer s 3 (.fabric 1023) = true ∧ entryState s 1023 ≠ 2 ∧ s.on (F.ring_cfg_en 3) = true ∧ s.parts = [] ∧ ringLevel s 3 < (ringDesc s 3).len ∧
    strmTop s 3 = none ∧ pcIdle s (slotGran s 3 0 0) = true ∧ leaderOf s (s.f (F.ring_cfg_engine 3)) = 0 := by decide +kernel
theorem witness_PowerAndEnvironment : heldSide home .field = false ∧ powerBlock home = 0 ∧ ready home = true ∧
    home.f F.pwr_stat_state < allowedState (home.put F.pwr_ltr_tol_us 2) ∧ powerBlock chained ≠ 0 ∧ monitorsOn home .field = true ∧
    monitorsOn home .host = true ∧ misOn home .field = true ∧ misOn home .host = true ∧ ((false, 35) ∉ home.boot.high) ∧ ((false, 35) ∉ home.boot.crit) ∧
    home.boot.minF = [0, 0, 0] ∧ home.boot.minF.length = 3 ∧ allowedState (home.put F.pwr_ltr_tol_us 1) = 0 ∧ (1681 : Int) > 1680 := by decide +kernel
theorem witness_StepKeepsCanonical : Canonical State.reset := by
  refine ⟨?_, ?_, ?_, ?_, ?_, ?_, ?_, ?_, ?_, ?_, ?_, ?_, ?_⟩ <;> trivial

/-! ### What single commands do, checked against the spec's own figures -/

/-- CRC-32C of one zero word: the value that the polynomial of R292 gives. -/
theorem test_crc32c : crc32c [0] = 0x48674BC7 := by decide +kernel
theorem witness_WordsRoundTrip : opDefined 2 false (.tset 2 3) = true ∧ opDefined 2 true (.tset 2 3) = false ∧
    decodeWord 2 false 0x3832000000000000 = some (.tset 2 3) := by decide +kernel
theorem witness_CommandsComplete : Instr.wakeCmd.mayWriteStore = false := rfl
theorem witness_StepRunsFront : ({ home with pending := [.wakeCmd] } : State).pending = .wakeCmd :: [] ∧ State.reset.pending = [] := ⟨rfl, rfl⟩

/-! ### Witnesses for further clauses -/

/-- Engine 0 arms: its setup chain stands at word 2, nothing is named. -/
def settingUp : State :=
  ((withEngine home 0 stIdle { level := 2, nextPc := 2 }).put (F.eng_stat_arming 0) 1).setReg (R.imem_hi 0 0) 0xFE020FFF
theorem witness_WordsThatTestOrStop_arming : ChainReady settingUp 0 ∧ arming settingUp 0 = true := by
  refine ⟨⟨⟨?_, ?_, ?_, ?_⟩, ?_, ?_, ?_⟩, ?_⟩ <;> decide +kernel
/-- The chain has run ahead of the present core cycle. -/
theorem witness_EngineStops_ahead : let s := playing0.modE 0 (fun x => { x with chainCyc := 2001 })
    Awake s ∧ running s 0 = true ∧ arming s 0 = false ∧ s.f (F.eng_stat_abort_res 0) ≠ 1 ∧ (s.engine 0).fillEnd = none ∧
    coreNow s < (s.engine 0).chainCyc := by refine ⟨⟨?_, ?_, ?_⟩, ?_⟩ <;> decide +kernel
theorem witness_PoisonPlays_copy : copy0.err = [] ∧ pantryErr poisoned 0 play0 0 = false := by decide +kernel
theorem witness_Lockstep_engine : engineOf 0 ((stepping 1).f (F.lstep_word_visiting 0)) < 576 := by decide +kernel
theorem witness_DescriptorWrites_named : ∀ e, e ∈ enginesOf 47 → ∀ p, (home.engine e).next = some p → p.namedAt ≤ coreNow home := by
  intro e _ p h; exact absurd h (by rw [show home.engine e = {} from rfl]; simp)
theorem witness_LaneSets_named : NamedByNow home 511 := fun _ h => absurd h (by rw [show home.engine 511 = {} from rfl]; simp)
theorem witness_LaneControls_counts : home.hw = [] ∧ parkedIdle home 511 = true := by decide +kernel
theorem witness_QuadReopens_lanes : ∀ f, f ∈ enginesOf 47 → (home.laneOf f).mode ≠ .lossState := by decide +kernel
theorem witness_Captures_block : (home.laneOf 0).blk = none := by decide +kernel
/-- Hardware moved WPTR of ring 3 in the present core cycle. -/
theorem witness_RingWrites_race : let s : State := { home with ctl := { home.ctl with hwPtr := [(3, true, 2000)] } }
    ringActive s 3 = false ∧ s.ctl.hwPtr.any (fun x => x.1 == 3 && x.2.1 == true && x.2.2 == coreNow s) = true := by decide +kernel
/-- Ring 3's segment is active in engine 0, in phase 2. -/
theorem witness_StreamGranules_active : let s := (ringed.put F.rings_phase_phase 2)
    s.f F.rings_phase_phase ≠ 1 ∧ inActive s (slotGran s 3 0 0) = true ∧ (ringDesc s 3).valid = true ∧
    inActive (openRing.put F.rings_phase_phase 2) (slotGran openRing 3 0 0) = false := by decide +kernel
theorem witness_StreamGranules_pointer : openRing.ctl.swPtr = [] := rfl
/-- Every stack admits requests. -/
def serving4 (s : State) : State := s.put ⟨R.st_stat, 8, 4⟩ 15
theorem witness_StreamGranules_idle : let s := serving4 openRing
    pcIdle s (slotGran s 3 0 0) = true ∧ strmTop s 3 = none ∧ leaderOf s (s.f (F.ring_cfg_engine 3)) = 0 ∧
    (∀ m, m ∈ membersOf s 0 → running s m = false ∧ arming s m = false) := by decide +kernel
theorem witness_Aperture_idle : let s := serving4 linkUp
    aperIdle s 63 66 = true ∧ aperIdle linkUp 63 66 = false ∧ aperOpen s = true ∧ settled s = true := by decide +kernel
theorem witness_Aperture_read : (readBytes (serving4 linkUp) 63 2).2.1 = false := by decide +kernel
theorem witness_Aperture_settled : settled linkUp = true ∧ settled (linkUp.modP (fun p => { p with held := [.regRd 1 .store 64 0] })) = false := by
  decide +kernel
theorem witness_HallwayInputs_held : groupHeld home 15 = false ∧ groupHeld (home.put (F.grpStat_stat_storm 15) 1) 15 = true := by decide +kernel
theorem witness_HallwayInstants_last : ((ticking.hall.timed.filter (fun x => x.1 == 14)).map (·.2)).min? = some 1000 ∧ 77 / coreU ≤ coreNow home := by
  decide +kernel
theorem witness_HallwayForms_quiet : home.hall.chg = [] := rfl
theorem witness_StoreRefresh_pairs : let s := { home with ctl := { home.ctl with pairs := [(bankNo 255 47, 16383, 2)] } }
    nextPair s 255 47 16383 = some (bankNo 255 47, 16383, 2) := by decide +kernel
theorem witness_StoreCorrections_check : writeCheck home 51 7 = none ∧ (writeCheck (ringed.put F.rings_phase_phase 2) 51 64).isSome = true := by
  decide +kernel
theorem witness_ClockSearches_host : home.stalled = [] ∧ ({ home with boot := { home.boot with pcieLost := true } } : State).boot.pcieLost = true := by
  decide +kernel
theorem witness_ClockLosses_host : home.boot.pcieLost = false ∧ home.boot.hcoreLost = false := by decide +kernel
/-- The epoch unit took a in the present house-logic cycle: 2,000 core cycles are 10,666 beats, of which 4 make such a cycle. -/
def acted (a : EpochAct) : State := { home with epochWas := some ⟨2666, a, false, 0, none, 0⟩ }
theorem witness_Epochs_acted : (∀ a, a ∈ [EpochAct.go, .edge, .fabric] → actedNow (acted a) a = true ∧ actedNow home a = false) ∧
    absT home 100 = 100 * 2 ^ 16 := by decide +kernel
/-- Every part of express lane 0 was trimmed at the present instant. -/
def traced : State := [0, 16, 17, 18, 19, 20].foldl (fun s n => s.modPart 512 n (fun p => { p with atT := some s.clk.now })) home
theorem witness_Calibration_traced : traceOf traced 512 = 1 ∧ oldestTrim traced 512 ≠ none := by decide +kernel
theorem witness_FaultCommands_test : testMode (faulty 0) .field = true ∧ testMode home .field = false := by decide +kernel
/-- Port 7 and room 31 are being reset. -/
theorem witness_ResetReactions_blocks : let s := ({ home with boot := { home.boot with resets := [.port 7] } }).modT 31 (fun x => { x with resetOn := true })
    blockOn s (.port 7) = true ∧ blockOn s (.table 31) = true ∧ blockOn s (.stack 0) = false ∧ (s.put (F.fport_cfg_en 7) 1).on (F.fport_cfg_en 7) = true ∧
    inSafe s = false ∧ 511 ∈ enginesOf 31 ∧ home.fltF.chip = 0 := by decide +kernel
theorem witness_ResetReactions_waits : ({ home with fltF := { home.fltF with blocks := [(18, 0)] } } : State).fltF.blocks.filter
    (fun x => reactionBlock .field x == blockOf 18 0) ≠ [] ∧ (blockOf 18 0).isSome = true ∧ home.fltF.fatalOn = false ∧
    ({ home with fltF := { home.fltF with fatalOn := true } } : State).fltF.fatalOn = true := by decide +kernel
theorem witness_ResetsAndBoot_runs : frozen (booting true 5 0) = false ∧ (booting true 5 0).boot.hcoreLost = false ∧
    frozen { home with regs := (home.put (F.pll_stat_open 0) 0 |>.put (shutBit 0) 0).regs } = true := by decide +kernel
theorem witness_HostTile_held : porchHome.porch.held = [] := rfl
theorem witness_PowerAndEnvironment_runs : ctlRuns home .field = true ∧ ctlRuns home .host = true ∧ home.boot.f4 = false ∧
    (home.put F.pwr_stat_state 3).f F.pwr_stat_state ≠ 0 := by decide +kernel
/-- House 5 is a member behind port 7. -/
def joined : State := (census4 1 1).putPair (R.cens_uidLo 5) (R.cens_uidHi 5) 77
theorem witness_FabricServices_route : nextHops joined 5 = [7] := by decide +kernel
theorem witness_FabricServices_answer : (routePort joined 5 (.regCpl 3 0 0)).isSome = true := by
  show ((nextHops joined 5)[_ % max 1 (nextHops joined 5).length]?).isSome = true
  rw [witness_FabricServices_route]; simp [Nat.mod_one]
/-- Segment 5's program of engine 0 passes its checks, and its setup chain names the segment. -/
def programmed : State := (withProgram (withFiller (withSeg home))).put (F.eng_entry_addr 0) 1
theorem witness_FormsComplete_arm : Awake programmed ∧ ready programmed = true ∧ armable programmed 0 = true ∧ programmed.on (F.eng_suite_member 0) = false ∧
    armCheck (checkedAt programmed 0 false) 0 = none ∧
    let a := setupAt programmed 0 false
    let x := a.engine 0
    let w := setupWord programmed 0 false
    x.cfg / 32 % 2 = 0 ∧ 1 ≤ x.nextPc ∧ x.nextPc ≤ bitsOf (imemWord a 0 0) 32 12 ∧ tget (fun _ => 0) a.imemErr (4096 * 0 + x.nextPc) = 0 ∧
    decodeWord x.level false (imemWord w 0 x.nextPc) = some (.play 5 3) ∧
    (tryName w 0 .seg x.nextPc 5 3 (3 * (descOf (beforeWrites w (x.chainCyc + 1)) (tableOf 0) 5).len) 0).isOk = true := by
  refine ⟨⟨?_, ?_, ?_⟩, ?_⟩ <;> decide +kernel

/-- No arm check passes without an image: the arm stops at LEVEL. -/
theorem witness_ArmFails_checks : let sc := (if suiteOk home 0 then regMembers home 0 else [0]).foldl clearOnArm home
    armCheck (((sc.put (F.eng_stat_state 0) stIdle).put (F.eng_stat_abort_res 0) 0).when (false && !(home.f (F.eng_cfg_start_src 0) == 0))
      (·.raise (F.eng_stat_cmd_err 0))) 0 = some 1 ∧ tget (fun _ => 0) home.imemErr 0 = 0 ∧
    tget (fun _ => 0) ({ home with imemErr := [(0, 1)] } : State).imemErr 0 ≠ 0 := by decide +kernel
theorem witness_PrimeAndStart_wrap : absT ((armed 2).modE 0 (fun x => { x with startT := 1000 })) 1000 = 1000 * 2 ^ 16 := by decide +kernel
/-- The keeper of the census, 99, is gone; this device, 5 in identity, and house 5 remain. -/
def orphaned : State := ((census4 0 1).putPair R.fab_keeperLo R.fab_keeperHi 99).putPair (R.cens_uidLo 4) (R.cens_uidHi 4) 5
theorem witness_FabricLinks_keeper : orphaned.on F.fab_stat_census_valid = true ∧ orphaned.on F.fab_stat_keeper = false ∧ keeperHouse orphaned = none ∧
    (((presentHouses orphaned).filter (fun h => entryState orphaned h == 1 && (distTo (distances orphaned (ownHouse orphaned)) h).isSome)).map
      (entryUid orphaned)).min? = some 5 := by decide +kernel
theorem witness_FabricLinks_guest : let s := { census4 1 2 with fab := { (census4 1 2).fab with guests := [(5, 77, 1)] } }
    s.on F.fab_stat_census_valid = true ∧ s.on F.fab_stat_keeper = true ∧ fabOn s = true ∧ s.fab.guests.find? (fun g => g.1 == 5) = some (5, 77, 1) ∧
    entryState s 5 = 2 ∧ (distTo (distances s (ownHouse s)) 5).isSome = true := by decide +kernel
theorem witness_FabricLinks_first : let s : State := { wired 3 with regs := (R.id_uidLo, 5) :: (R.id_uidHi, 0) :: (wired 3).regs }
    fabOn s = true ∧ upPorts s ≠ [] ∧ s.on F.fab_stat_census_valid = false ∧ (4 : BitVec 64).toNat < ownUid s := by decide +kernel
theorem witness_FabricServices_plain : let a := R.trigIn_cfg 15
    remoteRange a = false ∧ served (wired 3) a = true ∧ infraWindow a = false ∧
    ((placeOf a).map (fun p => (placeFrozen (wired 3) p a, (wordWrite p.reg.fields (hwAt (wired 3) a) (placeLocked (wired 3) p) false
      ((wired 3).reg a) 3).2.1))) = some (false, false) := by decide +kernel

end Sys2Proof.Tests
end

section
/-! SUPPORT. Words that write a counter or the time register and go on at an address (R94, R95). -/

namespace Sys2Proof.Machine

/-- A defined word whose operation changes its engine by g, not the chain's length, and then goes on at pc. -/
theorem runWord_goTo {s : State} {e : Nat} {op : ProgOp} (g : Engine → Engine) (pc : Nat) (h : ChainReady s e) (he : e < 576)
    (hd : opDefined (s.engine e).level (decide (512 ≤ e)) op = true)
    (hx : execOp (wordAt s e) e (s.engine e).nextPc op = goTo ((wordAt s e).modE e g) e pc)
    (hn : (g (begun s e)).chainN = (begun s e).chainN) :
    RanTo s e { g (begun s e) with nextPc := pc % 4096 } (runWord s e op) := by
  have hx' : (execOp (wordAt s e) e (s.engine e).nextPc op).1
      = (wordAt s e).modE e (fun y => { g y with nextPc := pc % 4096 }) := by
    rw [hx, goTo, State.modE_modE]
  exact runWord_ran (fun y => { g y with nextPc := pc % 4096 }) h he hd hx' (Nat.le_of_eq hn)

/-- LDC writes its counter alone (R94). -/
theorem execOp_ldc (u : State) (e pc : Nat) (i : Fin 8) (imm : Word) :
    execOp u e pc (.ldc (BitVec.ofNat 3 i) imm) = goTo (u.modE e (fun y => { y with ctr := y.ctr.set i imm.toNat })) e (pc + 1) := by
  simp only [execOp, fin_ofNat3, Nat.mod_eq_of_lt imm.isLt]

/-- ADDC adds to its counter modulo 2^32 (R94). -/
theorem execOp_addc (u : State) (e pc : Nat) (i : Fin 8) (imm : Word) :
    execOp u e pc (.addc (BitVec.ofNat 3 i) imm)
      = goTo (u.modE e (fun y => { y with ctr := y.ctr.set i (((u.engine e).ctr.getD i 0 + imm.toNat) % 2 ^ 32) })) e (pc + 1) := by
  simp only [execOp, fin_ofNat3]

/-- What DJNZ leaves in counter i of an engine: one less, modulo 2^32 (R94). -/
def djnzLeft (x : Engine) (i : Nat) : Nat := (x.ctr.getD i 0 + (2 ^ 32 - 1)) % 2 ^ 32

/-- DJNZ counts down, and goes on with the next word at 0 and at its address else (R94). -/
theorem execOp_djnz (u : State) (e pc : Nat) (i : Fin 8) (a : BitVec 12) :
    execOp u e pc (.djnz (BitVec.ofNat 3 i) a)
      = goTo (u.modE e (fun y => { y with
          ctr := y.ctr.set i (djnzLeft (u.engine e) i), ctrLast := some i, ctrLeft := djnzLeft (u.engine e) i })) e
        (if djnzLeft (u.engine e) i = 0 then pc + 1 else a.toNat) := by
  have hv : ((u.engine e).ctr.getD i 0 + 2 ^ 32 - 1) % 2 ^ 32 = djnzLeft (u.engine e) i := by
    rw [djnzLeft, Nat.add_sub_assoc (by decide)]
  have hm : djnzLeft (u.engine e) i % 2 ^ 32 = djnzLeft (u.engine e) i := Nat.mod_mod _ _
  simp only [execOp, fin_ofNat3, hv, hm, State.modE_modE, ne_eq, ite_not]
  split <;> rfl

/-- Of the two addresses where DJNZ goes on, the word's own 12-bit one lies within an image's 4,096 words already. -/
theorem ite_addr_mod (p : Prop) [Decidable p] (n : Nat) (a : BitVec 12) :
    (if p then n else a.toNat) % 4096 = if p then n % 4096 else a.toNat := by
  split
  · rfl
  · exact Nat.mod_eq_of_lt a.isLt

/-- Settles O2: each word is one change of its engine (the `execOp_` lemma of its operation) and then a move to the next address. -/
theorem registerWords : Obligations.RegisterWords := by
  intro s e h x nx
  have he : e.val < 576 := e.isLt
  refine ⟨fun imm => ⟨_, rfl, ?ldtLo⟩, fun imm => ⟨_, rfl, ?ldtHi⟩, fun hl => ⟨_, rfl, ?ldtStart⟩, fun imm hl => ⟨_, rfl, ?addt⟩,
    fun i imm => ⟨_, rfl, ?ldc⟩, fun i imm => ⟨_, rfl, ?addc⟩, fun i a => ⟨_, rfl, ?djnz⟩⟩
  case ldtLo =>
    exact runWord_goTo (fun y => { y with tt := y.tt / 2 ^ 32 * 2 ^ 32 + imm.toNat }) _ h he (opDefined_one h rfl rfl) rfl rfl
  case ldtHi =>
    exact runWord_goTo (fun y => { y with tt := y.tt % 2 ^ 32 + imm.toNat * 2 ^ 32 }) _ h he (opDefined_one h rfl rfl) rfl rfl
  case ldtStart =>
    exact runWord_goTo (fun y => { y with tt := y.startT }) _ h he (opDefined_two hl (Nat.le_refl 2) rfl) rfl rfl
  case addt =>
    exact runWord_goTo (fun y => { y with tt := (y.tt + imm.toNat) % 2 ^ 64 }) _ h he (opDefined_two hl (Nat.le_refl 2) rfl) rfl rfl
  case ldc =>
    exact runWord_goTo _ _ h he (opDefined_one h rfl rfl) (execOp_ldc ..) rfl
  case addc =>
    have ran := runWord_goTo _ _ h he (opDefined_one h rfl rfl) (execOp_addc _ _ _ i imm) rfl
    rwa [wordAt_engine] at ran
  case djnz =>
    have ran := runWord_goTo _ _ h he (opDefined_one h rfl rfl) (execOp_djnz _ _ _ i a) rfl
    rwa [wordAt_engine, ite_addr_mod] at ran

end Sys2Proof.Machine
end
